-- ==== Sys2Proof/Word.lean ====
section
/-! DEFINITION. The word types of the Choholt 96 and their plainest arithmetic (R2, R3, R62). -/
namespace Sys2Proof

/-- A byte of memory. -/
abbrev Byte := BitVec 8
/-- A 32-bit word: a lane of a line, a lane of a vector register (R32, R220). -/
abbrev W32 := BitVec 32
/-- A 64-bit word: an s register, a control-core register, a queue entry (R189, R151). -/
abbrev W64 := BitVec 64

end Sys2Proof
end

