-- ==== Sys2Proof/Config.lean ====
section
/-! DEFINITION. What an implementation fixes and the spec leaves open: constants without a body. -/
namespace Sys2Proof.Config

/-- The cycles that a timed-only tile instruction of a command block takes: its words, its descriptors and handles, the partition's shape, and the
cycle of the route period in which it starts (R345 fixes it by the bind record's slots, without giving it; log entry 24). -/
opaque tileCycles (words : BitVec 128) (views : List (BitVec 128 × BitVec 512)) (shape : Nat × Nat × Nat) (phase : Nat) : Nat

/-- The address map of device-physical 64 KiB pages, 32-bit numbers as R308 writes addresses of 48 bits: one place each, a permutation, of which the
spec gives no value (R126; log entry 13). The first eight times 48 GiB of places are the frames of the stacks, in turn; the rest is the CXL tier. -/
opaque hbmMap : Equiv.Perm (BitVec 32)

/-- The channel of its stack that a 64 KiB device-physical page lies in (R126; log entry 13). -/
opaque hbmLane (page : Nat) : Nat

/-- The 64 KiB pages of an HBM stack of 48 GiB (R1). -/
def stackPages : Nat := 48 * 2 ^ 30 / 0x10000

/-- The place of a 64 KiB device-physical page in the address map. -/
def pagePlace (page : Nat) : Nat := (hbmMap (BitVec.ofNat 32 page)).toNat

/-- Whether a 64 KiB device-physical page lies in the CXL tier: outside the eight stacks of 48 GiB (R1). -/
def cxlPage (page : Nat) : Bool := 8 * stackPages ≤ pagePlace page

/-- The HBM stack and the channel of a 64 KiB device-physical page. -/
def hbmChannel (page : Nat) : BitVec 3 × Nat := (BitVec.ofNat 3 (pagePlace page / stackPages), hbmLane page)

/-- The place of a 64 KiB device-physical page within its stack. -/
def hbmFrame (page : Nat) : Nat := pagePlace page % stackPages

/-- A stack holds 48 GiB and no more (R1): a page outside the CXL tier has a place of its own among its stack's frames. -/
theorem fits_stacks (p q : BitVec 32) (hp : cxlPage p.toNat = false) (hq : cxlPage q.toNat = false) :
    hbmFrame p.toNat < stackPages ∧ ((hbmChannel p.toNat).1 = (hbmChannel q.toNat).1 → hbmFrame p.toNat = hbmFrame q.toNat → p = q) := by
  have pos : 0 < stackPages := by decide
  refine ⟨Nat.mod_lt _ pos, fun hs hf => hbmMap.injective (BitVec.eq_of_toNat_eq ?_)⟩
  simp only [cxlPage, decide_eq_false_iff_not, Nat.not_le] at hp hq
  have hdiv {x} (h : x < 8 * stackPages) : x / stackPages < 8 := Nat.div_lt_of_lt_mul (by rwa [Nat.mul_comm])
  have hs' := congrArg BitVec.toNat hs
  simp only [hbmChannel, BitVec.toNat_ofNat] at hs'
  rw [Nat.mod_eq_of_lt (hdiv hp), Nat.mod_eq_of_lt (hdiv hq)] at hs'
  have e : pagePlace p.toNat = pagePlace q.toNat := by
    rw [← Nat.div_add_mod (pagePlace p.toNat) stackPages, ← Nat.div_add_mod (pagePlace q.toNat) stackPages, hs']
    exact congrArg _ hf
  simpa [pagePlace] using e

/-- The function of this package that a fabric context names in its own tables, of which the spec gives no layout (R416, R429; log entry 36). -/
opaque fabricFn (ctx : BitVec 16) : Option Nat

/-- Outcomes the spec leaves open, one for each number drawn (log entry 3). -/
opaque freeNat (n : Nat) : Nat

/-- What a trap frame holds, by core, stop cycle and byte of its latch data, where a latch's image has no result (R173; log entry 68). -/
opaque latchByte (core stop i : Nat) : BitVec 8

/-- Vectors in the MSI-X table of a function: at most 2,048 (R388, R426; log entry 19). -/
opaque msixSize (fn : Nat) : Nat

/-- The SM2 signature of a hash under the device's identity key, which the device does not show (R425; log entry 20). -/
opaque sm2Sign (hash : BitVec 256) : BitVec 512

/-- Whether an SM2 signature over a hash verifies under Ndoafin's firmware key, which the spec does not give (R415; log entry 20). -/
opaque sm2Verify (hash : BitVec 256) (sig : BitVec 512) : Bool

/-- Bytes of a firmware image, by its first 64 bytes; the spec gives no layout (R415; log entry 20). -/
opaque firmwareSize (head : List (BitVec 8)) : Nat

/-- Fields of a firmware image (R415; log entry 20): its signature, its security version, and the oldest and newest save-image versions
it reads or converts. -/
opaque firmwareImage (bytes : List (BitVec 8)) : BitVec 512 × Nat × Nat × Nat

/-- Security version and SM3 of the Feldspar that the boot stage starts, and SM3 of the boot stage (R425, R435; log entry 20). -/
opaque bootFirmware : Nat × BitVec 256 × BitVec 256

/-- The sections of a save image, one list for each number drawn (R413; log entry 20): the type, index and bytes of each, which are private to
the layout version. -/
opaque saveBody (n : Nat) : List (BitVec 16 × BitVec 16 × List (BitVec 8))

/-- The device save key, which the device does not show (R413; log entry 20). -/
opaque saveKey : BitVec 128

/-- Whether a choice of period origins that gives every partition of a layout record its channel slots also keeps within the capacities of the
other routes, which are not given (R404, R441; log entry 26). -/
opaque layoutFits (record : BitVec 4096) : Bool

end Sys2Proof.Config
end

