-- ==== Sys2Proof/Syntax.lean ====
section
/-! DEFINITION. Syntax of the Choholt 96: the lanes, tile instructions, control-core instructions, queue-code words and
device events of spec/opcode_table.json, one constructor of `Instr` per row. -/
namespace Sys2Proof

/-- The five streams of a core, in the order of R54, R101 and R165. -/
inductive Stream where
  | s | v | m | x | h
  deriving DecidableEq, Repr

/-- The number of a stream: 0 S to 4 H (R149, R171). -/
def Stream.idx : Stream → Nat
  | .s => 0 | .v => 1 | .m => 2 | .x => 3 | .h => 4

/-- The extension lane of a long form (R37); bits 19:16 must be zero and are not kept. -/
structure Ext where
  ka  : BitVec 2
  kc  : BitVec 2
  c   : BitVec 5
  rm  : BitVec 2
  sat : Bool
  imm : BitVec 16
  deriving DecidableEq, Repr

/-- The operand fields of a lane (R36) with its extension, if it is a long form. The opcode is the constructor's. -/
structure Lane where
  d   : BitVec 2
  p   : BitVec 3
  dst : BitVec 5
  a   : BitVec 5
  kb  : BitVec 2
  b   : BitVec 5
  fn  : BitVec 3
  ext : Option Ext
  deriving DecidableEq, Repr

/-- The chained command a copy carries (R292): the M lane word and its extension word. -/
structure ChainCmd where
  word : W32
  ext  : Option W32
  deriving DecidableEq, Repr

/-- A tile instruction (R50, R334) but for TOP, which is the constructor's. -/
structure Tile where
  d      : BitVec 2
  p      : BitVec 3
  lvl    : BitVec 3
  ver    : BitVec 2
  dfmt   : BitVec 5
  sub    : BitVec 4
  ksplit : Bool
  abort  : Bool
  acc    : Bool
  ovl    : Bool
  rm     : BitVec 2
  sat    : Bool
  evt    : Bool
  tdd    : BitVec 10
  tda    : BitVec 10
  tdb    : BitVec 10
  m      : BitVec 16
  n      : BitVec 16
  k      : BitVec 16
  ksf    : BitVec 4
  auxb   : BitVec 8
  lcm    : BitVec 4
  deriving DecidableEq, Repr

/-- A control-core register x0 to x31 (R151). -/
abbrev XReg := BitVec 5

/-- The three CSR operations of Zicsr. -/
inductive CsrOp where
  | rw | rs | rc
  deriving DecidableEq, Repr

/-- The source of a CSR instruction: a register or a 5-bit unsigned immediate. -/
inductive CsrSrc where
  | reg (r : XReg)
  | imm (v : BitVec 5)
  deriving DecidableEq, Repr

/-- Branch conditions of RV64I. -/
inductive RvCond where
  | eq | ne | lt | ge | ltu | geu
  deriving DecidableEq, Repr

/-- Register and register-immediate operations of RV64I. -/
inductive RvAlu where
  | add | sub | sll | slt | sltu | xor | srl | sra | or | and
  deriving DecidableEq, Repr

/-- The M extension's operations. -/
inductive RvMul where
  | mul | mulh | mulhsu | mulhu | div | divu | rem | remu
  deriving DecidableEq, Repr

/-- The A extension's read-modify-write operations. -/
inductive RvAmo where
  | swap | add | xor | and | or | min | max | minu | maxu
  deriving DecidableEq, Repr

/-- Access widths of the control core. -/
inductive RvWidth where
  | b | h | w | d
  deriving DecidableEq, Repr

/-- A standard instruction of the control core: RV64IMAC with Zicsr and Zifencei (R151). -/
inductive Rv where
  | lui (rd : XReg) (imm : BitVec 20)
  | auipc (rd : XReg) (imm : BitVec 20)
  | jal (rd : XReg) (off : BitVec 21)
  | jalr (rd rs1 : XReg) (imm : BitVec 12)
  | branch (c : RvCond) (rs1 rs2 : XReg) (off : BitVec 13)
  | load (w : RvWidth) (signed : Bool) (rd rs1 : XReg) (imm : BitVec 12)
  | store (w : RvWidth) (rs1 rs2 : XReg) (imm : BitVec 12)
  | aluImm (op : RvAlu) (rd rs1 : XReg) (imm : BitVec 12)
  | aluImmW (op : RvAlu) (rd rs1 : XReg) (imm : BitVec 12)
  | alu (op : RvAlu) (rd rs1 rs2 : XReg)
  | aluW (op : RvAlu) (rd rs1 rs2 : XReg)
  | mul (op : RvMul) (rd rs1 rs2 : XReg)
  | mulW (op : RvMul) (rd rs1 rs2 : XReg)
  | lr (w64 aq rl : Bool) (rd rs1 : XReg)
  | sc (w64 aq rl : Bool) (rd rs1 rs2 : XReg)
  | amo (op : RvAmo) (w64 aq rl : Bool) (rd rs1 rs2 : XReg)
  | fence (fm pred succ : BitVec 4) (rd rs1 : XReg)
  | fenceI (rd rs1 : XReg) (imm : BitVec 12)
  | ecall
  | ebreak
  | csr (op : CsrOp) (rd : XReg) (src : CsrSrc) (num : BitVec 12)
  | mret
  | wfi
  /-- A word outside the set of R151: it raises the illegal-instruction exception. -/
  | illegal (w : W32)
  deriving DecidableEq, Repr

/-- A standard instruction with its length: `short` for the 16-bit encodings of the C extension. -/
structure RvIns where
  op    : Rv
  short : Bool
  deriving DecidableEq, Repr

/-- The fields of a queue-code word (R374); the opcode, and the FN of LAUNCH, are the constructor's. -/
structure QWord where
  d  : BitVec 4
  a  : BitVec 4
  fn : BitVec 3
  kb : Bool
  b  : BitVec 15
  deriving DecidableEq, Repr

/-- A power domain (R110): a core domain by its mask bit of R112 (0–47 BK, 48–51 LC, 52 MX, 53 XE, 54 HV), a quad segment
or a die segment. -/
inductive DomRef where
  | core (core bit : Nat)
  | quad (quad seg : Nat)
  | die (die seg : Nat)
  deriving DecidableEq, Repr

/-- The barrier instances of R212. -/
inductive BarInst where
  | quad (quad : Nat)
  | die (die : Nat)
  | part
  deriving DecidableEq, Repr

/-- One barrier of a task (R212). -/
structure BarRef where
  task : Nat
  inst : BarInst
  num  : Nat
  deriving DecidableEq, Repr

/-- A tile port: P of a task, or the L side of a core's port (R14, R336). -/
inductive PortRef where
  | pkg (task : Nat)
  | core (core : Nat)
  deriving DecidableEq, Repr

/-- A pinned window of a bind record (R311). -/
structure PinWin where
  vbase : Nat
  pbase : Nat
  units : Nat
  r : Bool
  w : Bool
  deriving DecidableEq, Repr

/-- Feldspar's free choices in a bind (R20, R307, R407, R408, R441): the physical cores of each replica's block, the period origin, the
stage-1 root, the pinned windows and, per core, the quad and die segments it owns. -/
structure BindChoice where
  blocks   : List (List Nat)
  origin   : Nat
  s1root   : Nat
  pins     : List PinWin
  quadSegs : List (Nat × BitVec 16)
  dieSegs  : List (Nat × BitVec 32)
  deriving DecidableEq, Repr

/-- The outcome of the bring-up steps of R435, as BOOTST shows it (R438). -/
structure BootResult where
  err   : Byte
  hwid  : BitVec 3
  hgen  : BitVec 4
  links : BitVec 16
  deriving DecidableEq, Repr

/-- The causes of a power-off (R433, R435). -/
inductive PowerCause where
  | pwrEn | rail | therm | undervoltage
  deriving DecidableEq, Repr

/-- A received Dolcor flit (R429); `ok` is whether CHECK holds after correction. Of its PAYLOAD, the bytes that its data records write and the reads that its
request records ask for, at addresses of this package's HBM in its fabric context. -/
structure Flit where
  seq  : BitVec 16
  ack  : BitVec 16
  ctx  : BitVec 16
  type : BitVec 16
  ok   : Bool
  writes : List (Nat × BitVec 8)
  reads  : List (Nat × Nat)
  deriving DecidableEq, Repr

/-- One constructor per row of spec/opcode_table.json. -/
inductive Instr where
  /-- NOP (R47): A stream lane that issues and changes no state. -/
  | nop (st : Stream) (l : Lane)
  /-- WAIT_C (R47): A stream lane that occupies its stream's issue slot for n cycles (short form). -/
  | waitC (st : Stream) (l : Lane)
  /-- ADD (R194): S stream 64-bit add, wrapping or saturating. -/
  | sAdd (l : Lane)
  /-- SUB (R194): S stream 64-bit subtract, wrapping or saturating. -/
  | sSub (l : Lane)
  /-- MUL (R194): S stream 64-bit multiply, low half. -/
  | sMul (l : Lane)
  /-- MULH (R195): S stream upper 64 bits of the 128-bit product. -/
  | sMulh (l : Lane)
  /-- DIVQ (R195): S stream quotient or remainder. -/
  | sDivq (l : Lane)
  /-- AND (R194): S stream bitwise AND. -/
  | sAnd (l : Lane)
  /-- OR (R194): S stream bitwise OR. -/
  | sOr (l : Lane)
  /-- XOR (R194): S stream bitwise XOR. -/
  | sXor (l : Lane)
  /-- SHL (R194): S stream shift left. -/
  | sShl (l : Lane)
  /-- SHR (R194): S stream logical shift right. -/
  | sShr (l : Lane)
  /-- SRA (R194): S stream arithmetic shift right. -/
  | sSra (l : Lane)
  /-- MIN (R196): S stream signed or unsigned minimum. -/
  | sMin (l : Lane)
  /-- MAX (R196): S stream signed or unsigned maximum. -/
  | sMax (l : Lane)
  /-- MOVI (R197): S stream sign-extended literal move (FN 000, short form). -/
  | sMovi (l : Lane)
  /-- MOVI_H (R197): S stream replacement of one 16-bit chunk by IMM16, always long form. -/
  | sMoviH (l : Lane)
  /-- SEL (R196): S stream select of A or B by the predicate named in P. -/
  | sSel (l : Lane)
  /-- CMP (R198): S stream compare writing a predicate. -/
  | sCmp (l : Lane)
  /-- PSET (R198): S stream predicate combination or non-zero test. -/
  | sPset (l : Lane)
  /-- RDWID (R199): S stream read of the WID or one of its fields. -/
  | sRdwid (l : Lane)
  /-- LD (R201): S stream scratchpad load at core, quad or die level. -/
  | sLd (l : Lane)
  /-- ST (R201): S stream scratchpad store. -/
  | sSt (l : Lane)
  /-- LDG (R202): S stream open-class global load with a pending destination. -/
  | sLdg (l : Lane)
  /-- STG (R203): S stream open-class global store. -/
  | sStg (l : Lane)
  /-- ATOM (R205): S stream atomic at scratchpad or global memory, always long form. -/
  | sAtom (l : Lane)
  /-- QPUSH (R206): S stream push into qsv, qsm, qsx or qsh. -/
  | sQpush (l : Lane)
  /-- SEMW (R207): S stream semaphore wait. -/
  | sSemw (l : Lane)
  /-- SEMS (R207): S stream semaphore signal. -/
  | sSems (l : Lane)
  /-- PNWAIT (R208): S stream wait on a pennant counter threshold. -/
  | sPnwait (l : Lane)
  /-- FENCE (R209): S stream fence of a scope. -/
  | sFence (l : Lane)
  /-- PHASE (R209): S stream phase boundary: publication and refresh. -/
  | sPhase (l : Lane)
  /-- RINGSET (R211): S stream write of a ring descriptor. -/
  | sRingset (l : Lane)
  /-- BAR_INIT (R213): Sets a barrier's expected count with tracking off. -/
  | sBarInit (l : Lane)
  /-- BAR_INITT (R213): Sets a barrier to tracked membership. -/
  | sBarInitt (l : Lane)
  /-- BAR_JOIN (R213): Adds the core to a barrier's members. -/
  | sBarJoin (l : Lane)
  /-- BAR_LEAVE (R213): Removes the core from a barrier's members. -/
  | sBarLeave (l : Lane)
  /-- BAR_ARR (R213): Barrier arrival: a boundary of the scope, then an arrival counted. -/
  | sBarArr (l : Lane)
  /-- BAR_WAIT (R213): Waits for completion of the core's latest arrival generation. -/
  | sBarWait (l : Lane)
  /-- TJOIN (R216): S stream wait for retirement of forked lane-cluster tile instructions. -/
  | sTjoin (l : Lane)
  /-- BKFMT_SET (R219): S stream write of a bank or segment format register. -/
  | sBkfmtSet (l : Lane)
  /-- BKFMT_GET (R219): S stream read of a bank or segment format register. -/
  | sBkfmtGet (l : Lane)
  /-- WAKE (R115): S stream wake of the power domains of a mask, within the inrush budget. -/
  | sWake (l : Lane)
  /-- SLEEP (R118): S stream sleep of the power domains of a mask, to retain or off. -/
  | sSleep (l : Lane)
  /-- PDQ (R218): S stream read of one power-state register. -/
  | sPdq (l : Lane)
  /-- VADD_F (R230): V stream float add. -/
  | vaddF (l : Lane)
  /-- VSUB_F (R230): V stream float subtract. -/
  | vsubF (l : Lane)
  /-- VMUL_F (R230): V stream float multiply. -/
  | vmulF (l : Lane)
  /-- VFMA (R230): V stream fused multiply-add with one rounding. -/
  | vfma (l : Lane)
  /-- VMIN_F (R231): V stream float minimum. -/
  | vminF (l : Lane)
  /-- VMAX_F (R231): V stream float maximum. -/
  | vmaxF (l : Lane)
  /-- VABS (R231): V stream float absolute value. -/
  | vabs (l : Lane)
  /-- VADD_S (R232): V stream signed integer add. -/
  | vaddS (l : Lane)
  /-- VSUB_S (R232): V stream signed integer subtract. -/
  | vsubS (l : Lane)
  /-- VMUL_S (R232): V stream signed integer multiply. -/
  | vmulS (l : Lane)
  /-- VMIN_S (R233): V stream signed integer minimum. -/
  | vminS (l : Lane)
  /-- VMAX_S (R233): V stream signed integer maximum. -/
  | vmaxS (l : Lane)
  /-- VADD_Z (R232): V stream unsigned integer add. -/
  | vaddZ (l : Lane)
  /-- VSUB_Z (R232): V stream unsigned integer subtract. -/
  | vsubZ (l : Lane)
  /-- VMUL_Z (R232): V stream unsigned integer multiply. -/
  | vmulZ (l : Lane)
  /-- VMIN_Z (R233): V stream unsigned integer minimum. -/
  | vminZ (l : Lane)
  /-- VMAX_Z (R233): V stream unsigned integer maximum. -/
  | vmaxZ (l : Lane)
  /-- VAND (R234): V stream bitwise AND. -/
  | vand (l : Lane)
  /-- VOR (R234): V stream bitwise OR. -/
  | vor (l : Lane)
  /-- VXOR (R234): V stream bitwise XOR. -/
  | vxor (l : Lane)
  /-- VNOT (R234): V stream bitwise complement. -/
  | vnot (l : Lane)
  /-- VSHL (R236): V stream shift left per sub-element. -/
  | vshl (l : Lane)
  /-- VSHR_Z (R236): V stream logical shift right per sub-element. -/
  | vshrZ (l : Lane)
  /-- VSHR_S (R236): V stream arithmetic shift right per sub-element. -/
  | vshrS (l : Lane)
  /-- VCMP_F (R237): V stream float compare writing a mask. -/
  | vcmpF (l : Lane)
  /-- VCMP_S (R237): V stream signed compare writing a mask. -/
  | vcmpS (l : Lane)
  /-- VCMP_Z (R237): V stream unsigned compare writing a mask. -/
  | vcmpZ (l : Lane)
  /-- VSEL (R235): V stream select of A or B by a mask. -/
  | vsel (l : Lane)
  /-- VCVT (R238): V stream type conversion, always long form. -/
  | vcvt (l : Lane)
  /-- VPACK (R241): V stream narrowing pack of two registers. -/
  | vpack (l : Lane)
  /-- VUNPK (R242): V stream widening unpack of half of each lane. -/
  | vunpk (l : Lane)
  /-- VRCP (R243): V stream reciprocal. -/
  | vrcp (l : Lane)
  /-- VRSQ (R243): V stream reciprocal square root. -/
  | vrsq (l : Lane)
  /-- VEXP2 (R243): V stream base-2 exponential. -/
  | vexp2 (l : Lane)
  /-- VLOG2 (R243): V stream base-2 logarithm. -/
  | vlog2 (l : Lane)
  /-- VMOV (R234): V stream move. -/
  | vmov (l : Lane)
  /-- VMAND (R258): V stream mask AND or AND-NOT. -/
  | vmand (l : Lane)
  /-- VMOR (R258): V stream mask OR, OR-NOT or XOR. -/
  | vmor (l : Lane)
  /-- VMNOT (R258): V stream mask complement. -/
  | vmnot (l : Lane)
  /-- VROTR (R246): V stream rotation along the row axis. -/
  | vrotr (l : Lane)
  /-- VROTC (R246): V stream rotation along the column axis. -/
  | vrotc (l : Lane)
  /-- VBCR (R247): V stream broadcast of one column. -/
  | vbcr (l : Lane)
  /-- VBCC (R247): V stream broadcast of one row. -/
  | vbcc (l : Lane)
  /-- VREDR (R249): V stream reduction along each row. -/
  | vredr (l : Lane)
  /-- VREDC (R249): V stream reduction along each column. -/
  | vredc (l : Lane)
  /-- VSCANR (R249): V stream inclusive scan along each row. -/
  | vscanr (l : Lane)
  /-- VSCANC (R249): V stream inclusive scan along each column. -/
  | vscanc (l : Lane)
  /-- VLD (R251): V stream load of a 4 KiB register image. -/
  | vld (l : Lane)
  /-- VST (R251): V stream store of a 4 KiB register image. -/
  | vst (l : Lane)
  /-- VLDX (R253): V stream indexed row load. -/
  | vldx (l : Lane)
  /-- VSTX (R253): V stream indexed row store. -/
  | vstx (l : Lane)
  /-- VINS (R255): V stream pop from qsv into selected lanes. -/
  | vins (l : Lane)
  /-- VEXT (R256): V stream push of one lane into qvs. -/
  | vext (l : Lane)
  /-- VSEMW (R257): V stream semaphore wait. -/
  | vsemw (l : Lane)
  /-- VSEMS (R257): V stream semaphore signal. -/
  | vsems (l : Lane)
  /-- MMA (R270): M stream float multiply-accumulate array operation. -/
  | mma (l : Lane)
  /-- MMAI (R270): M stream integer multiply-accumulate array operation. -/
  | mmai (l : Lane)
  /-- MMAD (R270): M stream FP64 multiply-accumulate into an accumulator pair. -/
  | mmad (l : Lane)
  /-- MMAS (R270): M stream two-level scaled multiply-accumulate. -/
  | mmas (l : Lane)
  /-- MMAJ (R273): M stream quad joint multiply-accumulate lane becoming due. -/
  | mmaj (l : Lane)
  /-- MMAJS (R273): M stream quad joint scaled multiply-accumulate lane becoming due. -/
  | mmajs (l : Lane)
  /-- MZERO (R279): M stream zeroing of masked accumulators. -/
  | mzero (l : Lane)
  /-- MDRAIN (R277): M stream drain of an accumulator, converted, to scratchpad. -/
  | mdrain (l : Lane)
  /-- MSBA (R279): M stream write of an A band-scale register. -/
  | msba (l : Lane)
  /-- MSBB (R279): M stream write of a B band-scale register. -/
  | msbb (l : Lane)
  /-- MLDACC (R278): M stream raw load of an accumulator image. -/
  | mldacc (l : Lane)
  /-- MSTACC (R278): M stream raw store of an accumulator image. -/
  | mstacc (l : Lane)
  /-- MSEMW (R280): M stream semaphore wait. -/
  | msemw (l : Lane)
  /-- MSEMS (R280): M stream semaphore signal. -/
  | msems (l : Lane)
  /-- XCOPY (R293): X stream row copy command, always long form. -/
  | xcopy (l : Lane) (ch : Option ChainCmd)
  /-- XGATH (R294): X stream gather of rows by index. -/
  | xgath (l : Lane) (ch : Option ChainCmd)
  /-- XSCAT (R294): X stream scatter of rows by index. -/
  | xscat (l : Lane) (ch : Option ChainCmd)
  /-- XRED (R295): X stream element-wise atomic reduction into the destination. -/
  | xred (l : Lane) (ch : Option ChainCmd)
  /-- XMCAST (R295): X stream multicast to quad members' core scratchpads. -/
  | xmcast (l : Lane) (ch : Option ChainCmd)
  /-- XFILL (R295): X stream fill of destination rows with a pattern. -/
  | xfill (l : Lane) (ch : Option ChainCmd)
  /-- XOPEN (R301): X stream opening of a channel on an open buffer. -/
  | xopen (l : Lane)
  /-- XCLOSE (R302): X stream closing of a channel. -/
  | xclose (l : Lane)
  /-- XWMSET (R303): X stream arming of a channel watermark, always long form. -/
  | xwmset (l : Lane)
  /-- XBUF_REL (R302): X stream release of a FULL buffer. -/
  | xbufRel (l : Lane)
  /-- XBUF_Q (R302): X stream push of a channel status word into qxs. -/
  | xbufQ (l : Lane)
  /-- XSEMW (R306): X stream semaphore wait. -/
  | xsemw (l : Lane)
  /-- XSEMS (R306): X stream semaphore signal. -/
  | xsems (l : Lane)
  /-- XFENCE (R306): X stream fence over its copies. -/
  | xfence (l : Lane)
  /-- HBIND (R319): H stream XOR binding of two hypervectors. -/
  | hbind (l : Lane)
  /-- HPERM (R319): H stream rotation of a hypervector. -/
  | hperm (l : Lane)
  /-- HBUND (R320): H stream weighted bundling into a counter accumulator. -/
  | hbund (l : Lane)
  /-- HTHR (R321): H stream threshold of an accumulator into a hypervector. -/
  | hthr (l : Lane)
  /-- HDIST (R324): H stream Hamming distance pushed into qhs. -/
  | hdist (l : Lane)
  /-- HNEAR (R325): H stream geode search for the nearest entry. -/
  | hnear (l : Lane)
  /-- HNEAR2 (R325): H stream geode search for the two nearest entries. -/
  | hnear2 (l : Lane)
  /-- HMOV (R319): H stream hypervector move. -/
  | hmov (l : Lane)
  /-- HCLR (R319): H stream clear of an h or k register. -/
  | hclr (l : Lane)
  /-- HNOT (R319): H stream hypervector complement. -/
  | hnot (l : Lane)
  /-- HLD (R329): H stream load of an h or k image. -/
  | hld (l : Lane)
  /-- HST (R329): H stream store of an h or k image. -/
  | hst (l : Lane)
  /-- HGDSET (R327): H stream write of a geode descriptor or HVCTL, always long form. -/
  | hgdset (l : Lane)
  /-- HGPUT (R328): H stream write of a geode entry, setting its valid bit. -/
  | hgput (l : Lane)
  /-- HGPUT_INV (R328): H stream clear of a geode entry's valid bit. -/
  | hgputInv (l : Lane)
  /-- HSEMW (R330): H stream semaphore wait. -/
  | hsemw (l : Lane)
  /-- HSEMS (R330): H stream semaphore signal. -/
  | hsems (l : Lane)
  /-- T_NOP (R353): Tile no-operation accepted at a port, retiring after earlier ones. -/
  | tNop (t : Tile)
  /-- T_MMA (R354): Tile matrix multiply, split and staged among children. -/
  | tMma (t : Tile)
  /-- T_MMAS (R355): Tile two-level scaled matrix multiply. -/
  | tMmas (t : Tile)
  /-- T_EW (R356): Tile element-wise operation. -/
  | tEw (t : Tile)
  /-- T_ACT (R357): Tile activation function. -/
  | tAct (t : Tile)
  /-- T_RED (R358): Tile reduction along N. -/
  | tRed (t : Tile)
  /-- T_CVT (R359): Tile format conversion. -/
  | tCvt (t : Tile)
  /-- T_SCALE (R359): Tile block quantisation. -/
  | tScale (t : Tile)
  /-- T_MOVE (R360): Tile copy with conversion. -/
  | tMove (t : Tile)
  /-- T_FILL (R360): Tile fill from a value. -/
  | tFill (t : Tile)
  /-- T_TRANS (R360): Tile transpose. -/
  | tTrans (t : Tile)
  /-- T_GATH (R360): Tile gather of rows by index. -/
  | tGath (t : Tile)
  /-- T_HVENC (R361): Tile hypervector encoding of index rows. -/
  | tHvenc (t : Tile)
  /-- T_HVNEAR (R362): Tile nearest-entry hypervector search. -/
  | tHvnear (t : Tile)
  /-- T_BAR (R353): Tile barrier performing a boundary at every core below the port. -/
  | tBar (t : Tile)
  /-- T_FENCE (R353): Tile fence at every core below the port. -/
  | tFence (t : Tile)
  /-- CBLK (R178): Control core queues a block with a repetition count. -/
  | cblk (rs1 rs2 : XReg)
  /-- CEVT (R180): Control core pops an event record, waiting if empty. -/
  | cevt (rd : XReg)
  /-- CEVT_NB (R180): Control core pops an event record or reads 0. -/
  | cevtNb (rd : XReg)
  /-- CSEM_SIG (R181): Control core signals a semaphore. -/
  | csemSig (rs1 rs2 : XReg)
  /-- CSEM_WAIT (R181): Control core waits on a semaphore. -/
  | csemWait (rs1 rs2 : XReg)
  /-- CSEM_TRY (R181): Control core tries a semaphore wait once. -/
  | csemTry (rd rs1 rs2 : XReg)
  /-- CSEM_RD (R181): Control core reads a semaphore count. -/
  | csemRd (rd rs1 : XReg)
  /-- CSEM_SET (R181): Control core sets a semaphore count. -/
  | csemSet (rs1 rs2 : XReg)
  /-- CPHASE (R182): Control core phase boundary of a scope. -/
  | cphase (scope : BitVec 4)
  /-- CFENCE (R182): Control core fence of a scope. -/
  | cfence (scope : BitVec 4)
  /-- CFRAME_REP (R183): Control core sends the frame's fault to Feldspar as a service request. -/
  | cframeRep (rd : XReg)
  /-- CFRAME_END (R184): Control core ends the task with a status. -/
  | cframeEnd (rs1 : XReg)
  /-- CWID (R186): Control core reads the work identifier. -/
  | cwid (rd : XReg)
  /-- CTIS (R187): Control core reads a tile-port word. -/
  | ctis (rd rs1 : XReg)
  /-- CPDS (R188): Control core reads a power-state register. -/
  | cpds (rd rs1 : XReg)
  /-- RV64_INSTRUCTION (R151): A standard RV64IMAC, Zicsr or Zifencei instruction of the control core. -/
  | rv64Instruction (i : RvIns)
  /-- NFLAGS_WRITE (R155): CSR write to NFLAGS clearing the flags set in its operand or mask. -/
  | nflagsWrite (op : CsrOp) (rd : XReg) (src : CsrSrc)
  /-- DBGCTL_WRITE (R92): CSR write to DBGCTL, effective at the next block's t0. -/
  | dbgctlWrite (op : CsrOp) (rd : XReg) (src : CsrSrc)
  /-- CTIMECMP_WRITE (R155): CSR write of the timer compare value. -/
  | ctimecmpWrite (op : CsrOp) (rd : XReg) (src : CsrSrc)
  /-- CBANK_WRITE (R155): CSR write of a constant-bank entry, effective at the next block's t0. -/
  | cbankWrite (n : BitVec 5) (op : CsrOp) (rd : XReg) (src : CsrSrc)
  /-- LINE_VALIDATE (R55): A native line entering the block store is checked for its tag and structure. -/
  | lineValidate (core index : Nat) (line : BitVec 256) (tag : W64)
  /-- WALK_COMPLETE (R168): A translation walk resolves, ending a hold or recording a shadow fault. -/
  | walkComplete (core : Nat) (walk : Nat)
  /-- LDG_ARRIVAL (R202): Open-class load data arrives and clears the pending register. -/
  | ldgArrival (core : Nat) (load : Nat)
  /-- STG_ACK (R203): An open-class global write is acknowledged at its destination. -/
  | stgAck (core : Nat) (store : Nat)
  /-- ATOM_RETURN (R205): An open-class atomic's old value returns to the core. -/
  | atomReturn (core : Nat) (load : Nat)
  /-- DOMAIN_ON (R115): A WAKING power domain becomes ON after its wake latency. -/
  | domainOn (dom : DomRef)
  /-- DEFERRED_SLEEP (R118): A domain enters its sleep state once its scheduled writes have landed. -/
  | deferredSleep (dom : DomRef)
  /-- JOINT_START (R273): All members' notices reach the driver and the joint operation starts at J. -/
  | jointStart (quad : Nat)
  /-- RING_REFILL (R266): The operand fetcher raises a refill copy for a bound ring. -/
  | ringRefill (core ring : Nat)
  /-- COPY_COMPLETE (R304): A copy completes; its pennant is incremented and its record produced. -/
  | copyComplete (core entry : Nat)
  /-- OPEN_ROW_ARRIVAL (R299): An open copy row arrives or is acknowledged, sending the next row. -/
  | openRowArrival (core entry row : Nat)
  /-- COPY_ROW_FAULT (R300): An open copy row meets a translation, permission or peer fault and the copy stops. -/
  | copyRowFault (core entry row : Nat) (code : Byte) (detail : W32) (addr : W64)
  /-- WATERMARK_FIRE (R303): An armed channel's MARK reaches its threshold and the pennant rises. -/
  | watermarkFire (core chan : Nat)
  /-- BARRIER_ARRIVAL (R214): An arrival reaches a barrier, which may complete or starve. -/
  | barrierArrival (core : Nat) (bar : BarRef)
  /-- BARRIER_COMPLETION (R147): A barrier's completion reaches a waiting core, with a refresh. -/
  | barrierCompletion (core : Nat) (bar : BarRef)
  /-- LINGER_RELEASE (R149): A lingering stream is released when its pennant thresholds are met. -/
  | lingerRelease (core : Nat) (st : Stream)
  /-- TILE_RETIRE (R341): A tile instruction retires at a port once children retire and gathers land. -/
  | tileRetire (port : PortRef)
  /-- TILE_RECORD (R350): A child's fault record reaches its parent port. -/
  | tileRecord (port : PortRef)
  /-- SERVICE_REPLY (R183): Feldspar answers a cframe.rep request with a TYPE 0x4 event. -/
  | serviceReply (core : Nat) (tag : BitVec 16) (code : Byte)
  /-- QNOTIFY_WRITE (R369): Host write of a queue's notify register making packets available. -/
  | qnotifyWrite (fn queue : Nat) (value : W32)
  /-- QUEUE_ENABLE (R372): Writing QCTL.EN 1 loads and verifies the configuration block and queue code. -/
  | queueEnable (fn queue : Nat)
  /-- QUEUE_DISABLE (R368): Writing QCTL.EN 0 abandons a parked packet and turns the queue off. -/
  | queueDisable (fn queue : Nat)
  /-- REGISTER_WRITE (R4): A write to a register that has no row of its own. -/
  | registerWrite (fn offset : Nat) (value : W64)
  /-- QC_NOP (R384): Queue code no-operation. -/
  | qcNop (q : QWord)
  /-- QC_LD (R383): Queue code load from a window. -/
  | qcLd (q : QWord)
  /-- QC_ST (R383): Queue code store to a window. -/
  | qcSt (q : QWord)
  /-- QC_ADD (R383): Queue code add. -/
  | qcAdd (q : QWord)
  /-- QC_SUB (R383): Queue code subtract. -/
  | qcSub (q : QWord)
  /-- QC_AND (R383): Queue code AND. -/
  | qcAnd (q : QWord)
  /-- QC_OR (R383): Queue code OR. -/
  | qcOr (q : QWord)
  /-- QC_SHL (R383): Queue code shift by a signed amount. -/
  | qcShl (q : QWord)
  /-- QC_CMP (R383): Queue code compare. -/
  | qcCmp (q : QWord)
  /-- BRF (R384): Queue code forward branch. -/
  | qBrf (q : QWord)
  /-- LOOP (R376): Queue code counted loop over a body. -/
  | qLoop (q : QWord)
  /-- SIGWAIT (R385): Queue code test of a signal, parking on its halyard if false. -/
  | qSigwait (q : QWord)
  /-- SIGSET (R385): Queue code atomic write of a signal and walk of its halyard. -/
  | qSigset (q : QWord)
  /-- SIGADD (R385): Queue code atomic add to a signal and walk of its halyard. -/
  | qSigadd (q : QWord)
  /-- LAUNCH (R386): Queue code launch of a task from a job card. -/
  | qLaunch (q : QWord)
  /-- LAUNCH_RI (R365): Queue code re-issue of a failed tile command, with an optional resume word. -/
  | qLaunchRi (q : QWord)
  /-- LAUNCH_KILL (R421): Queue code KILL of a task. -/
  | qLaunchKill (q : QWord)
  /-- LAUNCH_INV (R417): Queue code INV.S2 of a guest physical range. -/
  | qLaunchInv (q : QWord)
  /-- TXB (R394): Queue code start of a transaction. -/
  | qTxb (q : QWord)
  /-- TXE (R394): Queue code commit of a transaction's buffered operations. -/
  | qTxe (q : QWord)
  /-- POST (R387): Queue code append of a value to a host ring. -/
  | qPost (q : QWord)
  /-- IRQ (R388): Queue code MSI-X interrupt. -/
  | qIrq (q : QWord)
  /-- REARM (R390): Queue code marks the current packet re-armed. -/
  | qRearm (q : QWord)
  /-- WAITTASK (R389): Queue code wait for a command's completion status. -/
  | qWaittask (q : QWord)
  /-- END (R384): Queue code end of the packet with a status. -/
  | qEnd (q : QWord)
  /-- TASK_BIND (R407): Feldspar binds a ready task's replicas and the dispatch hardware starts the cores. -/
  | taskBind (task : Nat) (choice : BindChoice)
  /-- INV_S2_COMPLETE (R417): An INV.S2 completes once entries are removed and their writes acknowledged. -/
  | invS2Complete (seq : Nat)
  /-- PAGE_PULL (R419): A pulled page lands and its leaf is written with M = 0. -/
  | pagePull (fn : Nat) (gpa : Nat)
  /-- F_PULLLOST (R420): A page pull is refused, loses its links or times out. -/
  | fPulllost (fn : Nat)
  /-- FUNCTION_LEVEL_RESET (R423): Function-level reset of one function. -/
  | functionLevelReset (fn : Nat)
  /-- POWER_ON (R435): Input in range with PWR_EN high starts rail bring-up and boot. -/
  | powerOn (hostUp : Bool) (boot : BootResult)
  /-- POWER_OFF (R435): PWR_EN low, a rail fault, THERMTRIP or undervoltage powers the module off. -/
  | powerOff (cause : PowerCause)
  /-- RAIL_FAULT (R435): A rail out of tolerance for 50 µs latches RAILFLT and powers off. -/
  | railFault (rail : Nat)
  /-- THROTTLE_UPDATE (R440): The power controller sets each group's throttle level from power, temperature and Feldspar. -/
  | throttleUpdate (temp power : BitVec 16) (held : Nat) (feldspar : List Nat)
  /-- THRCTL_WRITE (R107): Write of a throttle group's control register. -/
  | thrctlWrite (group : Nat) (value : W32)
  /-- PCAP_WRITE (R440): Write of the module power limit, ignored out of range. -/
  | pcapWrite (value : W32)
  /-- FLIT_RECEIVE (R430): A Dolcor flit arrives, is checked and accepted or replayed. -/
  | flitReceive (link : Nat) (flit : Flit)
  /-- LINK_DOWN (R430): A Dolcor link goes down and its unacknowledged flits move to another link. -/
  | linkDown (link : Nat)
  /-- UNCORRECTABLE_ERROR (R432): An uncorrectable memory error in a word a task reads ends the task. -/
  | uncorrectableError (task : Nat)
  /-- LINK_RETRAIN (R430): Feldspar retrains a Dolcor link that went down, and its DLSTAT bit sets again. -/
  | linkRetrain (link : Nat)
  /-- CBLKW (R179): Control core waits until every queued block is finished. -/
  | cblkw
  /-- CRESUME (R175): Control core delivers a shadow fault or restarts the stopped streams. -/
  | cresume
  /-- TIMER_INTERRUPT (R166): mcycle reaches CTIMECMP with MTIE and MIE set, stopping the streams and taking interrupt 7. -/
  | timerInterrupt
  /-- CORE_TRAP_INTERRUPT (R157): The control core takes interrupt 24 for a pending core trap. -/
  | coreTrapInterrupt
  /-- EVENT_INTERRUPT (R157): The control core takes interrupt 16 for a non-empty event queue. -/
  | eventInterrupt
  /-- BLOCK_START (R160): The head block of the block queue starts at its t0, or traps if absent or rejected. -/
  | blockStart
  /-- FRAME_COMPLETE (R169): The trap frame finishes writing; HELD is set and CTIP raised for a fault. -/
  | frameComplete
  /-- RESULT_LAND (R6): A result scheduled by its fixed latency is written at its write cycle. -/
  | resultLand
  /-- ARRAY_RETIRE (R261): An array operation retires and pops its rings. -/
  | arrayRetire
  /-- CHAIN_ISSUE (R271): A chained command in the chain slot issues as an array operation. -/
  | chainIssue
  /-- SEARCH_PUSH (R325): A geode search pushes its result words into qhs. -/
  | searchPush
  /-- PACKET_START (R373): A queue starts an available or re-armed packet, loading g0 to g7. -/
  | packetStart
  /-- QUEUE_RESUME (R378): A parked queue resumes after its cause is satisfied. -/
  | queueResume
  /-- F_BUDGET (R377): A packet that would take its 257th step ends with F.BUDGET. -/
  | fBudget
  /-- TASK_COMPLETE (R398): A task completes: .sys boundary, CSIG, COMPLETE entry, edge release. -/
  | taskComplete
  /-- COMMAND_SUBMIT (R397): The queue engine submits the next command of a chain at P. -/
  | commandSubmit
  /-- JOURNAL_RETRY (R400): A journal entry blocked by a stage-2 fault is retried every 1 ms. -/
  | journalRetry
  /-- SLICE_EXPIRY (R408): A bound task's slice ends while another function's task waits for cores. -/
  | sliceExpiry
  /-- PREEMPT_GRAPH (R410): Graph-boundary pre-emption at the retirement of a chain command. -/
  | preemptGraph
  /-- PREEMPT_TIMEOUT (R410): A chain command not retired 4 ms after the request forces full-state pre-emption. -/
  | preemptTimeout
  /-- PREEMPT_FULL (R411): Full-state pre-emption stops, drains and saves a task. -/
  | preemptFull
  /-- WATCHDOG_LIMIT (R409): A task's bound time passes the partition's watchdog limit and it is killed. -/
  | watchdogLimit
  /-- LAYOUT (R405): Mailbox command committing a layout record in two phases. -/
  | mbLayout
  /-- SAVE (R413): Mailbox command pausing and saving a function. -/
  | mbSave
  /-- RESTORE (R414): Mailbox command restoring a saved function. -/
  | mbRestore
  /-- RELEASE (R413): Mailbox command unregistering a save image. -/
  | mbRelease
  /-- S2ROOT (R416): Mailbox command setting a function's stage-2 root. -/
  | mbS2root
  /-- CODEKEY (R424): Mailbox command setting a function's code key. -/
  | mbCodekey
  /-- HOSTWIN (R416): Mailbox command configuring a host window. -/
  | mbHostwin
  /-- PEER (R416): Mailbox command configuring a peer entry. -/
  | mbPeer
  /-- POLICY (R408): Mailbox command setting a partition's slice, watchdog and weights. -/
  | mbPolicy
  /-- FWACT (R415): Mailbox command verifying and activating a firmware image. -/
  | mbFwact
  /-- ATTEST (R425): Mailbox command writing a signed attestation report. -/
  | mbAttest
  /-- MGMT_WATCHDOG_RESET (R406): Watchdog reset of the management core, rolling a layout forward or discarding it. -/
  | mgmtWatchdogReset
  /-- PERST_N (R436): PERST_N low resets the host link and every function. -/
  | perstN
  /-- MOD_RESET_N (R436): MOD_RESET_N low resets the whole module. -/
  | modResetN
  /-- THERMTRIP_N (R435): Die temperature reaches 115 °C and the module powers off. -/
  | thermtripN
  /-- PERST_N_RELEASE (R435): PERST_N going high releases the host link for training once the earlier bring-up steps have passed. -/
  | perstNRelease
  deriving DecidableEq, Repr

end Sys2Proof
end

