-- ==== Sys2Proof/Machine/State.lean ====
section
/-! DEFINITION. The state of a Choholt 96 module: 96 cores, the quad and die scratchpads, device and host memory, and the hub.
Plain data only. Lists of fixed length hold register files; sparse memories are lists of cells in canonical form. -/
namespace Sys2Proof.Machine

/-- A sparse byte memory: addresses strictly rising, no byte equal to zero (an unlisted byte reads 0, log entry 6). -/
abbrev Memory := List Host.Cell

/-- A physical scratchpad: of a core, of a quad (0–23) or of a die (R9, R124). -/
inductive Pad where
  | core (n : Nat)
  | quad (n : Nat)
  | die (n : Nat)
  deriving DecidableEq, Repr

/-- A place that holds bytes. -/
inductive Place where
  | pad (p : Pad) (off : Nat)
  | dev (addr : Nat)
  | host (addr : Nat)
  | peer (num : Nat) (addr : Nat)
  deriving DecidableEq, Repr

/-- A fault met by an instruction: code of R53, detail word and address. -/
structure Trap where
  code   : Byte
  detail : W32
  addr   : W64
  deriving DecidableEq, Repr

/-- An atomic to be performed at its controller (R143). `op`: 0 add, 1 min, 2 max, 3 swap, 4 cas, 5 fadd. -/
structure AtomOp where
  op    : BitVec 3
  w64   : Bool
  unsig : Bool
  val   : W64
  cmp   : W64
  deriving DecidableEq, Repr

/-- One block of an L-level tile instruction in flight (R346): its instruction, rows and columns, and where each row of its result lies. -/
structure TileBlock where
  top  : Nat
  tile : Tile
  row0 : Nat
  rows : Nat
  col0 : Nat
  cols : Nat
  out  : List (Place × Nat)
  deriving DecidableEq, Repr

/-- Where a result in flight is written, and what it writes. -/
inductive Dest where
  | s (n : BitVec 5) (v : W64)
  | sLoad (n : BitVec 5) (bytes : Nat) (signed : Bool)
  | sAcq (n : BitVec 5) (v : W64) (scope : BitVec 4)
  | p (n : BitVec 3) (v : Bool)
  | v (n : BitVec 5) (img : BitVec 32768) (mask : BitVec 1024)
  | m (n : BitVec 3) (img : BitVec 1024) (mask : BitVec 1024)
  | h (n : BitVec 4) (img : BitVec 8192) (mask : BitVec 1024)
  | kBundle (n : BitVec 2) (src : BitVec 8192) (mask : BitVec 1024) (weight : Nat) (form : BitVec 2) (tie : BitVec 2)
  | kImage (n : BitVec 2) (img : BitVec 65536) (mask : BitVec 1024)
  | kClear (n : BitVec 2) (mask : BitVec 1024)
  | q (code : BitVec 3) (v : W64)
  | pad (p : Pad) (bytes : Memory)
  | hgput (gd : BitVec 2) (idx : Nat) (off : Nat) (bytes : Memory)
  | valid (gd : BitVec 2) (idx : Nat) (on : Bool)
  | gd (n : BitVec 2) (w0 w1 : W64)
  | hvctl (v : W64)
  | ring (n : BitVec 3) (w0 w1 : W64)
  | ringCount (n : BitVec 3) (k : Nat)
  | fmt (space : BitVec 2) (idx : Nat) (fmt : BitVec 5) (cls : Bool)
  | acc (n : BitVec 2) (img : BitVec 32768)
  | accPair (n : BitVec 2) (img : BitVec 65536)
  | accZero (mask : BitVec 4)
  | ba (n : BitVec 2) (v : BitVec 16)
  | bb (n : BitVec 2) (v : BitVec 16)
  | array (op : Nat) (l : Lane) (k : Nat) (passes : Nat) (quadrant : Option Nat)
  | search (gd : BitVec 2) (two : Bool) (query dm mask : BitVec 8192) (count : Nat)
  | atom (pl : Place) (a : AtomOp) (dst : BitVec 5) (ret : Nat) (acq : Option (BitVec 4))
  | tile (b : TileBlock)
  | sem (n : BitVec 5) (k : Nat)
  deriving DecidableEq, Repr

/-- A read that a result in flight still has to make: `len` bytes of `pad` at `off` in cycle `cyc`, kept at position `pos` of its
buffer; with `valid`, the VALID bits of four entries of that geode from index `pos / 1024` on (R325). -/
structure LateRead where
  cyc   : Nat
  pad   : Pad
  off   : Nat
  len   : Nat
  pos   : Nat
  valid : Option (BitVec 2)
  deriving DecidableEq, Repr

/-- A result in flight (R6, R91): its write cycle, issue cycle, the cycle it leaves the core for good, stream (5: the tile port), destination and sticky flags, the
reads it still makes and the bytes they gathered; `lane`, `ext`: the words of an M or H operation, `ext` of a vector store the bytes of its
image (R254); `src`: the memory that an S load or atomic reads (R142). -/
structure Result where
  w      : Nat
  issued : Nat
  dep    : Option Nat
  st     : Nat
  dest   : Dest
  nfl    : BitVec 6
  reads  : List LateRead
  buf    : Memory
  lane   : W32
  ext    : W32
  src    : Option Place := none
  deriving DecidableEq, Repr

/-- The states of a power domain (R113). -/
inductive DomState where
  | off
  | retain
  | waking (fromOff : Bool) (till : Nat)
  | on
  deriving DecidableEq, Repr

/-- A power domain: its state, a sleep deferred for it (R118): the earliest cycle and whether the mode is off; `slept`: the cycle in which
that sleep was issued, in which the domain may still be used. -/
structure Dom where
  st   : DomState
  pend : Option (Nat × Bool)
  slept : Nat
  deriving DecidableEq, Repr

/-- What the control core waits in without taking an interrupt: wfi (R151), or a boundary or fence of a scope, for what was issued before
cycle `cut`, in which it was executed (R182). -/
inductive CtlWait where
  | wfi
  | mem (fence : Bool) (scope : BitVec 4) (cut : Nat)
  deriving DecidableEq, Repr

/-- The control core (R151 to R155). `nset`: the flags set in a cycle, which a clearing write in it leaves (R69). `tdue`: MTIP, MTIE and
MIE were all 1 as the cycle began (R166). -/
structure Ctl where
  x        : List W64
  pc       : W64
  mstatus  : W64
  mie      : W64
  mtvec    : W64
  mepc     : W64
  mcause   : W64
  mtval    : W64
  mscratch : W64
  minstret : W64
  mcBase   : Int
  nflags   : BitVec 6
  nset     : Nat × BitVec 6
  dbg      : BitVec 2
  dbgNext  : BitVec 2
  timecmp  : W64
  cbank    : List W32
  cbankT0  : List W32
  resv     : Option Nat
  ready    : Nat
  wait     : Option CtlWait
  ctip     : Bool
  tdue     : Bool
  ended    : Bool
  repTag   : BitVec 16
  requests : List (BitVec 16 × W32 × W32 × W64)
  deriving DecidableEq, Repr

/-- A directory entry of the block store (R159): first line, line count, and its rejection: code, line and detail (R55). -/
structure DirEntry where
  first    : Nat
  count    : Nat
  rejected : Option (Byte × Nat × Nat)
  deriving DecidableEq, Repr

/-- A queued block (R160): number, repetitions, and the execution cycle of its `cblk`. -/
structure QBlock where
  num   : Nat
  count : Nat
  cyc   : Nat
  deriving DecidableEq, Repr

/-- A line fetch still to make (R46): block, next line, repetitions left after this one. -/
structure FetchJob where
  num  : Nat
  line : Nat
  left : Nat
  deriving DecidableEq, Repr

/-- A stream's sequencer (R45, R46, R162): the micro-PC, its repetition, the cycle its next lane is due, the end of a WAIT.C's
occupancy, the fetch queue's fill now and at the start of the cycle, and the cycle it finished the current block. -/
structure StreamSt where
  line   : Nat
  lane   : Nat
  rep    : Nat
  next   : Nat
  occ    : Nat
  fill   : Nat
  fill0  : Nat
  doneAt : Option Nat
  deriving DecidableEq, Repr

/-- The fetch unit, block store, block queue and sequencers (R45, R46, R158 to R162). `loading`: the native lines that are still to enter
the block store, with their tags (R55, R57), the next of them from cycle `loadAt` on. -/
structure Seq where
  lines   : List (Nat × BitVec 256)
  dir     : List (Nat × DirEntry)
  loading : List (Nat × BitVec 256 × W64)
  queue   : List QBlock
  loadAt  : Nat
  cur     : Option QBlock
  jobs    : List FetchJob
  streams : List StreamSt
  deriving DecidableEq, Repr

/-- A stop of the streams (R166 to R175). `hold`: the load of a translation hold. `shadow`: the fault of a load (code, line, lane,
address, detail). `frameAt`: the cycle its frame completes, once known. `restart`: the restart cycle of R175. `mrec`: the M progress record
as of the end of the stop cycle (R281), empty before. -/
structure Stop where
  cyc     : Nat
  trap    : Option (Nat × Trap)
  intr    : Bool
  preempt : Bool
  hold    : Option Nat
  held    : Bool
  frameAt : Option Nat
  shadow  : Option (Byte × Nat × Nat × W64 × W32)
  reissue : Option (Nat × Nat × W64)
  restart : Option Nat
  mrec    : List Byte
  deriving DecidableEq, Repr

/-- The scalar registers, queue registers, semaphores and pennants (R165, R189, R191, R304). `block`: the cycle or the load before
which no S lane issues (R205); `phase`: the PHASE that took effect latest (R209); `freed`: pops with their queue and cycle,
whose places are free from the next cycle on (R191); `rel`: the cycle in which the boundary of the held release access took
effect (R205, R291), for the S and the X stream; `ended`: the S accesses that completed in a cycle: their places, and whether they
write (R142). -/
structure Scal where
  s     : List W64
  p     : BitVec 8
  q     : List (List W64)
  sem   : List Nat
  pn    : List Nat
  block : Option Nat
  phase : Option (Nat × BitVec 4)
  freed : List (Nat × Nat)
  rel   : Option Nat × Option Nat
  ended : Nat × List (Place × Bool)
  deriving DecidableEq, Repr

/-- The event queue and the records that wait for room (R163, R164); `fresh`: a cycle and how many of the last records were raised in it. -/
structure Events where
  q     : List W64
  held  : List W64
  fresh : Nat × Nat
  deriving DecidableEq, Repr

/-- Bytes of a row of an open copy on their way to a scratchpad (R102): the copy's entry and number, the row, their place, and whether they are
elements (or scales). -/
structure OpenWrite where
  entry : Nat
  num   : BitVec 16
  row   : Nat
  pad   : Pad
  off   : Nat
  bytes : List Byte
  elems : Bool
  deriving DecidableEq, Repr

/-- The core scratchpad: bytes, format registers, the port cycles booked (group, cycle, whether a stop freezes it), and what waits to be written
through the open ports, in the order of its arrival (R102). -/
structure Scratch where
  mem   : Memory
  fmt   : List W32
  ports : List (Nat × Nat × Bool)
  opens : List OpenWrite
  deriving DecidableEq, Repr

/-- The V stream's registers (R220, R221). -/
structure Vec where
  v : List (BitVec 32768)
  m : List (BitVec 1024)
  deriving DecidableEq, Repr

/-- A ring descriptor (R210) with the fault that stopped its refilling (R266) and the next handle row of the fetcher (R348). -/
structure Ring where
  w0   : W64
  w1   : W64
  dead : Option Byte
  row  : Nat
  deriving DecidableEq, Repr

/-- An outstanding array operation (R261): lane, first pass, cycles per pass, passes, retirement cycle, the rings it pops. A joint operation
has no B ring; a stop does not freeze it (R276). -/
structure ArrayOp where
  lane   : W32
  ext    : W32
  f      : Nat
  cpp    : Nat
  passes : Nat
  retire : Nat
  write  : Nat
  ringA  : Nat
  ringB  : Option Nat
  popA   : Bool
  popB   : Bool
  deriving DecidableEq, Repr

/-- A joint lane that is due (R273): the cycle its notice left, OP, its fields, and, after a restart, the cycle in which it counts as
issued (R276). -/
structure JointDue where
  cyc   : Nat
  op    : Nat
  lane  : Lane
  count : Option Nat
  deriving DecidableEq, Repr

/-- The matrix engine (R268, R272). `chainAt`: the cycle from which the chain slot is tried again. `due`: the member's joint lane that is due; `joint`: the
fixed start J; `jheld`: the latest cycle in which a due joint lane waited for the array (R271, R273). -/
structure Mx where
  acc   : List (BitVec 32768)
  ba    : List (BitVec 16)
  bb    : List (BitVec 16)
  rings : List Ring
  ops   : List ArrayOp
  chain : Option ChainCmd
  chainAt : Nat
  jseq  : Nat
  due   : Option JointDue
  joint : Option Nat
  jheld : Option Nat
  deriving DecidableEq, Repr

/-- One unit of a copy (R297): row, elements [e0, e1), the bytes it reads and the bytes it will write (places and lengths), its
cycles (`askAt`: the read's slot; `haveAt`: its bytes are at the core), the runs to be written once its bytes are read, and whether they are written. -/
structure CopyUnit where
  row     : Nat
  e0      : Nat
  e1      : Nat
  src     : Option (Place × Nat)
  dst     : List (Place × Nat)
  askAt   : Nat
  readAt  : Nat
  haveAt  : Nat
  depAt   : Nat
  writeAt : Nat
  newAt   : Option Nat
  puts    : Option (List (Place × List Byte))
  written : Bool
  deriving DecidableEq, Repr

/-- One row of an open copy that is outstanding (R299); `here`: its bytes wait at the open port. -/
structure CopyRow where
  row    : Nat
  sentAt : Nat
  data   : List Byte
  here   : Bool
  deriving DecidableEq, Repr

/-- A copy in flight (R290). `op` is 1 to 6 as the opcode; a refill names its ring. `sent`: rows sent; `rows`: those outstanding;
`fault`: row, code, detail and address (R300); `doneAt`: its completion cycle, once known; `nfl`: the flags its conversions set (R90);
`writes`: global bytes landed, of the global write `gid`; `told`: its pennant and record are done, and its chained command waits for the chain slot. -/
structure Copy where
  entry  : Nat
  num    : BitVec 16
  op     : Nat
  fn     : BitVec 3
  refill : Option Nat
  pn     : BitVec 4
  inc    : Byte
  evt    : Bool
  acq    : Option (BitVec 4)
  rm     : BitVec 2
  chan   : BitVec 3
  desc   : BitVec 512
  dsrc   : W64
  ddst   : W64
  idx    : List Nat
  timed  : Bool
  issued : Nat
  units  : List CopyUnit
  sent   : Nat
  rows   : List CopyRow
  fault  : Option (Nat × Byte × W32 × W64)
  doneAt : Option Nat
  chain  : Option ChainCmd
  nfl    : BitVec 6
  writes : List (Nat × Byte)
  gid    : Nat
  told   : Bool
  deriving DecidableEq, Repr

/-- A channel (R128 to R130, R303): direction, buffer and its state (1 FILLING, 2 FULL, 3 DRAINING; a buffer without channel is EMPTY), bytes
landed or sent and acknowledged as spans, MARK, the rows that a closing channel still waits for (copy number and row), arming (threshold,
pennant, increment, first cycle). -/
structure Chan where
  outbound : Bool
  base     : Nat
  len      : Nat
  st       : Nat
  got      : List (Nat × Nat)
  mark     : Nat
  closing  : Option (List (BitVec 16 × Nat))
  arm      : Option (Nat × Nat × Nat × Nat)
  deriving DecidableEq, Repr

/-- The copy engine (R290). -/
structure Xe where
  copies : List Copy
  next   : BitVec 16
  chans  : List (Option Chan)
  deriving DecidableEq, Repr

/-- The hypervector unit (R314 to R316). -/
structure Hv where
  h     : List (BitVec 8192)
  k     : List (BitVec 65536)
  gd    : List (W64 × W64 × BitVec 1536)
  hvctl : W64
  deriving DecidableEq, Repr

/-- An outstanding global load or open-class atomic (R202, R205). `va` its address, `pa` its device address once translated,
`gpa` the guest pages of the entry that translated it, as base and size, `walk` its walk in progress, `doneAt` the cycle it arrived or faulted. -/
structure GLoad where
  id     : Nat
  dst    : BitVec 5
  va     : Nat
  pa     : Option Nat
  bytes  : Nat
  signed : Bool
  atom   : Option AtomOp
  acq    : Option (BitVec 4)
  issued : Nat
  line   : Nat
  lane   : Nat
  walk   : Bool
  doneAt : Option Nat
  gpa    : Option (Nat × Nat) := none
  deriving DecidableEq, Repr

/-- A global write of a core (R137, R138): its bytes by device address, whether acknowledged, the widest scope it is published
to and the number of that publication, whether it was issued after the core's latest refresh, its issue cycle, and the guest pages of the entries it was
translated through, as base and size (R417). -/
structure GWrite where
  id    : Nat
  bytes : List (Nat × Byte)
  stg   : Bool
  acked : Bool
  dead  : Bool
  pub   : Option (BitVec 4)
  pubNo : Nat
  fresh : Bool
  issued : Nat
  gpas  : List (Nat × Nat)
  deriving DecidableEq, Repr

/-- A translation (R307): task page base, device page base, size and permissions, with the guest page for INV.S2, the rights of the
stage-1 leaf and the levels of both leaves (R309). -/
structure TlbEntry where
  va   : Nat
  pa   : Nat
  gpa  : Nat
  size : Nat
  r    : Bool
  w    : Bool
  d    : Bool
  r1   : Bool
  w1   : Bool
  l1   : Nat
  l2   : Nat
  deriving DecidableEq, Repr

/-- A walk in progress for an STG or an LDG or ATOM (R168, R203): its address and whether the access writes, or is an atomic. -/
structure Walk where
  id     : Nat
  va     : Nat
  write  : Bool
  atomic : Bool
  done   : Bool
  fault  : Option (Byte × W32)
  deriving DecidableEq, Repr

/-- A core's side of global memory (R138 to R140, R310). `view`: memory as of the latest refresh; `seen`: publications read; `refreshed`: the
cycle of that refresh; `bounds`: boundaries that still wait for acknowledgements: scope, cycle. -/
structure Glb where
  view   : Memory
  seen   : Nat
  writes : List GWrite
  loads  : List GLoad
  tlb    : List TlbEntry
  walks  : List Walk
  nextId : Nat
  refreshed : Option Nat
  bounds : List (BitVec 4 × Nat)
  deriving DecidableEq, Repr

/-- A forked L-level tile instruction (R215, R346): sequence number, lane clusters, retirement cycle, event wish, the mask bits of the
domains its port woke, the lane clusters whose shares fault with the first rows of those, the code of its record, whether it has
retired in this cycle, and the cycle from which it shows in LCBUSY (R215). -/
structure LTile where
  seq    : Nat
  lcm    : BitVec 4
  retire : Nat
  evt    : Bool
  woke   : List Nat
  bad    : List (Nat × Nat)
  code   : Byte
  gone   : Bool
  since  : Nat
  deriving DecidableEq, Repr

/-- The tile port of a core (R187, R338, R349). `seqNo`: tile instructions accepted; `wakes`: domain wakes still to start (R123, R346), by
cycle and mask bit. -/
structure Port where
  seqNo  : Nat
  descs  : List (Nat × BitVec 128)
  hnds   : List (Nat × BitVec 512)
  tiles  : List LTile
  record : Option (W64 × W64 × W64)
  failed : BitVec 4
  active : Bool
  wakes  : List (Nat × Nat)
  deriving DecidableEq, Repr

/-- A footprint region (R17, R395): start, length, read and write marks. -/
structure Region where
  start : Nat
  len   : Nat
  r     : Bool
  w     : Bool
  deriving DecidableEq, Repr

/-- A host window (R403, R416). -/
structure HostWin where
  num  : Nat
  base : Nat
  len  : Nat
  r    : Bool
  w    : Bool
  deriving DecidableEq, Repr

/-- A peer entry (R403, R416). -/
structure PeerEntry where
  num   : Nat
  links : BitVec 16
  ctx   : BitVec 64
  deriving DecidableEq, Repr

/-- The bind record of a core (R20, R25, R311, R441): task, replica, function, partition, work identifier, logical numbers within
the partition and the block, the task's cores, the partition's quads, route period and origin, pinned windows, owned segments,
footprint, translation roots, and the host windows, peers and code key in force. `endStat`: the status of cframe.end; from then on `left` are the
streams that still belong to the task and `release` those whose thresholds are met (R148, R149). `begin`: the cycle of the control core's
first instruction; `out`: the core has left the task's barriers (R29); `seat`: the place that gives its route slots (R412, R441). -/
structure Bind where
  task     : Nat
  replica  : Nat
  fn       : Nat
  part     : Nat
  chain    : Bool
  wid      : W64
  widSpec  : W64
  linear   : Nat
  begin    : Nat
  members  : List Nat
  quads    : BitVec 24
  hslots   : Nat
  tstk     : BitVec 8
  cperiod  : Nat
  origin   : Nat
  pins     : List PinWin
  ownQ     : BitVec 16
  ownD     : BitVec 32
  foot     : List Region
  s1root   : Nat
  s2root   : Nat
  hostWins : List HostWin
  peers    : List PeerEntry
  key      : Option (BitVec 128)
  trailer  : BitVec 256
  endStat  : Option Byte
  left     : List Nat
  release  : List Nat
  out      : Bool
  seat     : Nat
  deriving DecidableEq, Repr

/-- One core. `hold`: a translation hold to begin (cycle, load) under R168; `slots`: route slots booked (route, write, cycle,
whether a stop freezes it); `doms`: the domains by mask bit of R112; `preempt`: the cycle in which a pre-emption stops the streams (R166). -/
structure Core where
  bound  : Option Bind
  ctl    : Ctl
  frame  : Memory
  cstore : Memory
  marked : List Nat
  seq    : Seq
  stop   : Option Stop
  hold   : Option (Nat × Nat)
  scal   : Scal
  events : Events
  pad    : Scratch
  slots  : List (Nat × Bool × Nat × Bool)
  doms   : List Dom
  vec    : Vec
  mx     : Mx
  xe     : Xe
  hv     : Hv
  flight : List Result
  glb    : Glb
  port   : Port
  preempt : Option Nat
  deriving DecidableEq, Repr

/-- A quad or die scratchpad: bytes, formats and segment domains (R9, R87, R110). -/
structure Shared where
  mem  : Memory
  fmt  : List W32
  doms : List Dom
  deriving DecidableEq, Repr

/-- A write published (R138, R140): its number, its core (none: an agent outside), the widest scope it is published to, the bytes, the cycle of its
first publication, which fixes its place among the others (log entry 41), and of its widest, and the linear number of its core. -/
structure Pub where
  no    : Nat
  core  : Option Nat
  task  : Nat
  part  : Nat
  scope : BitVec 4
  bytes : List (Nat × Byte)
  cyc   : Nat
  wide  : Nat
  lin   : Nat
  deriving DecidableEq, Repr

/-- A barrier of a task (R212): count, tracking, members, arrivals counted, generation, arrivals under way (cycle, core), changes
under way (cycle, core, join), the last generation each core arrived in, the generation completed at each core, completions under
way (cycle, core, generation, starved), waiters. -/
structure Barrier where
  ref     : BarRef
  expect  : Nat
  track   : Bool
  members : List Nat
  arrived : Nat
  gen     : Nat
  coming  : List (Nat × Nat)
  last    : List (Nat × Nat)
  reached : List (Nat × Nat)
  going   : List (Nat × Nat × Nat × Bool)
  waiting : List Nat
  deriving DecidableEq, Repr

/-- A window of a queue (R371). -/
structure QWin where
  space : BitVec 4
  base  : Nat
  len   : Nat
  perm  : BitVec 3
  wr    : W32
  deriving DecidableEq, Repr

/-- An operation buffered in a transaction (R394): 0 store, 1 SIGSET, 2 SIGADD. -/
structure TxOp where
  kind  : Nat
  place : Place
  bytes : Nat
  val   : W64
  dst   : Nat
  deriving DecidableEq, Repr

/-- What a parked queue waits for (R368, R385, R386, R389, R400); `go` (with the PARK code) and `done` (with the
value of a register): its cause is satisfied. -/
inductive Park where
  | signal (addr : Nat) (fn : Nat) (mask cmp : W64)
  | launch
  | task (seq : Nat) (reg : Nat)
  | journal
  | go (code : Nat)
  | done (reg : Nat) (v : W64)
  deriving DecidableEq, Repr

/-- A packet in progress (R373, R377, R390): index, next instruction, steps, loop (first, last, runs left), transaction, re-arm
mark. -/
structure Packet where
  index : Nat
  pc    : Nat
  steps : Nat
  loop  : Option (Nat × Nat × Nat)
  tx    : Option (List TxOp)
  rearm : Bool
  deriving DecidableEq, Repr

/-- A queue's STATE of QSTAT (R368). -/
inductive QState where
  | off | idle | run | parked | stopped | rejected
  deriving DecidableEq, Repr

/-- A queue (R367 to R373). `closing`: EN was written 0 while a packet runs. -/
structure Queue where
  qcb    : W64
  en     : Bool
  notify : W32
  cons   : W32
  ldet   : Byte
  lidx   : Nat
  state  : QState
  park   : Option Park
  parkNo : Nat
  wake   : Nat
  g      : List W64
  ring   : W64
  rlog   : Nat
  code   : List W32
  wins   : List QWin
  pkt    : Option Packet
  rearmed : Bool
  closing : Bool
  deriving DecidableEq, Repr

/-- A journal entry (R399) that is written or waits: kind, status, sequence number, REF, INFO and the fault record. -/
structure JEntry where
  kind   : Nat
  status : Byte
  seq    : Nat
  ref    : W64
  info   : W64
  frec   : W64 × W64 × W64
  time   : Nat
  held   : Bool
  deriving DecidableEq, Repr

/-- A command of a function and what is known of its end (R389). -/
structure Command where
  seq    : Nat
  status : Option Byte
  deriving DecidableEq, Repr

/-- Post-copy mode (R403, R419, R420): source peer, timeout in µs, lost-page list and its length, and the vector of the RESTORE. -/
structure Pull where
  peer    : Nat
  timeout : Nat
  list    : Nat
  len     : Nat
  vec     : Nat
  deriving DecidableEq, Repr

/-- A function (R367, R403, R416, R423, R424). `heldJ`: COMPLETE places held; `resetJ`: the index of a RESET entry in the kept place; `waitJ`: entries
whose write met a fault, in order, tried again at `retryAt`; `roomJ`: entries that wait for room (R400). `cmds`: commands, the completed ones in the order
of their completion. `pull`: post-copy mode of a RESTORE; `pulls`: pages being pulled, with the cycle each was asked for, and `ownPull` the one that
Feldspar pulls of itself (R419, R420). `coreTime`: bound core-time (R408). `resetP`: a reset is pending; `quiet`: it leaves no RESET entry (R423, R436). -/
structure Fn where
  jbase    : W64
  jsize    : W32
  jwr      : W32
  jrd      : W32
  heldJ    : Nat
  resetJ   : Option Nat
  waitJ    : List JEntry
  roomJ    : List JEntry
  retryAt  : Nat
  cmds     : List Command
  queues   : List (Nat × Queue)
  s2root   : Option Nat
  key      : Option (BitVec 128)
  hostWins : List HostWin
  peers    : List PeerEntry
  coreTime : Nat
  paused   : Bool
  resetP   : Bool
  quiet    : Bool
  dropped  : Nat
  pull     : Option Pull
  pulls    : List (Nat × Nat)
  ownPull  : Option (Nat × Nat)
  deriving DecidableEq, Repr

/-- How far a task has come (R398, R410, R411). `ending`: it ends without a bind; `done`: its COMPLETE entry is still to be written. -/
inductive TaskState where
  | ready
  | bound
  | saved
  | restoring
  | ending
  | done
  deriving DecidableEq, Repr

/-- A chain command at P (R341, R365, R397): sequence number, index within the chain, its words, of a re-issue the resume word and what names the path
of the record it answers (its word 3 bits 63:55, and in bits 31:0 its ROW and COL), the cycle from which it may retire, with whether it retires in that
very cycle (R104, R345), and whether a T.BAR has performed its boundary (R353). -/
structure ChainCmdP where
  seqNo  : Nat
  index  : Nat
  words  : BitVec 128
  resume : W64
  path   : W64
  endAt  : Option (Nat × Bool)
  bar    : Bool
  deriving DecidableEq, Repr

/-- The port of a quad, or of a die, of a command-block task: its number, sequence number, record (R340, R349, R350), and the descriptors its
parent wrote (R338); every port of the task holds the handle table of P. -/
structure SubPort where
  quad   : Bool
  num    : Nat
  seqNo  : BitVec 32
  record : Option (W64 × W64 × W64)
  descs  : List (Nat × BitVec 128)
  deriving DecidableEq, Repr

/-- The P port of a command-block task and its chain (R336, R341, R397). `reissue`: a re-issue accepted for the failed command: its number,
its queue and its resume word (R365). `subs`: the ports of dies and quads; `kept`: by die, the results its children gathered of an
instruction that a fault ended there (R350); `wake`: the cycle from which the next submission, or the task's completion
signal, is tried; `woke`: the domains the ports woke for the instruction that runs (R346). -/
structure PPort where
  block  : Nat
  inBlk  : Nat
  index  : Nat
  seqNo  : Nat
  pending : Option ChainCmdP
  running : List ChainCmdP
  record : Option (W64 × W64 × W64)
  failed : Option ChainCmdP
  reissue : Option (Nat × Nat × W64)
  subs   : List SubPort
  kept   : List (Nat × List (Nat × Nat × Nat) × List (Nat × Nat × Nat))
  hnds   : List (BitVec 512)
  descs  : List (BitVec 128)
  wake   : Nat
  done   : Bool
  woke   : List DomRef
  deriving DecidableEq, Repr

/-- An edge from an earlier task (R18): its number, and the kinds that apply. -/
structure Edge where
  seq : Nat
  raw : Bool
  war : Bool
  waw : Bool
  deriving DecidableEq, Repr

/-- A task (R18, R398): an accepted launch. `seq` names it within the hub, and `num` is its sequence number, the same but for a task that a RESTORE has
carried here (R414). `pulls`: pages that were being pulled for its function when it was killed (R421). `edges`: earlier tasks it waits for; `preempt`: when
its pre-emption was asked for, and whether of its full state; `killers`: KILL commands (number, queue) that end with it; `saved`, `segs` (owned segments:
bytes, format register and domain), `barriers`, `savedAt`: what a full-state pre-emption saved, and when (R411). -/
structure Task where
  seq     : Nat
  num     : Nat
  fn      : Nat
  queue   : Nat
  part    : Nat
  prio    : Nat
  native  : Bool
  ver     : Nat
  repl    : Nat
  iter    : W64
  widSpec : W64
  image   : Nat
  imgLen  : Nat
  tokens  : W64
  csig    : Nat
  card    : W64
  regions : List Region
  edges   : List Edge
  state   : TaskState
  cores   : List Nat
  boundAt : Nat
  ran     : Nat
  killed  : Option Byte
  killers : List (Nat × Nat)
  pulls   : List Nat
  preempt : Option (Nat × Bool)
  port    : PPort
  saved   : List (Nat × Core)
  segs    : List (Pad × Nat × Memory × W32 × Dom)
  barriers : List Barrier
  savedAt : Nat
  deriving DecidableEq, Repr

/-- A partition (R404, R408). -/
structure Part where
  num    : Nat
  quads  : BitVec 24
  hslots : Nat
  slice  : Nat
  watch  : Nat
  weights : List Nat
  deriving DecidableEq, Repr

/-- An INV.S2 in progress (R417): function, its sequence number, guest page range, the writes it waits for. -/
structure Inv where
  fn    : Nat
  seq   : Nat
  gpa   : Nat
  pages : Nat
  queue : Nat
  waits : List (Nat × Nat)
  deriving DecidableEq, Repr

/-- A saved function (R413): save area, function, version, shape, the bytes of the image, whether it is registered, whether a host has written
to it since (R414), and what was saved. -/
structure SaveImage where
  area  : Nat
  fn    : Nat
  ver   : Nat
  shape : W64
  bytes : List Byte
  reg   : Bool
  spoilt : Bool
  func  : Fn
  tasks : List Task
  deriving DecidableEq, Repr

/-- What a flit on its way to a peer is for (R429): the `part`-th flit of a row of an open copy, the request of a page to be pulled (R419), bytes that a
request of the peer has read here, or the acknowledgement or refusal of a flit of the peer (R416). -/
inductive FlitLoad where
  | row (core entry row part : Nat)
  | pull (fn gpa : Nat)
  | answer (bytes : List Byte)
  | taken (ok : Bool)
  deriving DecidableEq, Repr

/-- A flit sent and not yet acknowledged (R429, R430): its SEQ, its TYPE, the peer entry it goes to, which holds its CTX, and what it is for. -/
structure OutFlit where
  seq  : BitVec 16
  type : BitVec 16
  peer : PeerEntry
  load : FlitLoad
  deriving DecidableEq, Repr

/-- A Dolcor link (R429, R430): whether it is up, the highest SEQ received intact, the highest ACK received, consecutive replays of the flit that
is due, the SEQ sent last, and the flits sent and not yet acknowledged, in SEQ order. -/
structure Link where
  up      : Bool
  got     : BitVec 16
  acked   : BitVec 16
  replays : Nat
  last    : BitVec 16
  out     : List OutFlit
  deriving DecidableEq, Repr

/-- The steps of a bring-up and of a power-off (R435): the 6 V bus and a rail (0 VDDM, 1 VDDL, 2 VDDX, 3 VDDQ) rise or fall, MOD_RESET_N is
released, the boot stage verifies Feldspar, trains the HBM stacks, then the ports and links, the host link is released, or a step fails. -/
inductive PowerStep where
  | bus (up : Bool)
  | rail (k : Nat) (up : Bool)
  | release
  | firmware
  | hbm
  | ports
  | ready
  | fail (railst : W32)
  deriving DecidableEq, Repr

/-- The management registers and Feldspar's own state (R402 to R425). `at_`: the cycle of the next step of the command in progress; `laying`: a prepared
layout record, and `flipped` whether its bank has been taken; `layout`, `fmap`, `tstk`, `parts`: the active layout; `args`: the argument block of that
command, read as it starts; `reads`: the oldest and newest save-image versions; `svn`, `fwHash`: of the running firmware. -/
structure Mgmt where
  mbcmd   : W32
  mbarg   : W64
  mbstat  : W32
  at_     : Nat
  args    : BitVec 512
  gen     : W32
  prep    : Bool
  bank    : Bool
  laying  : Option (BitVec 4096)
  flipped : Bool
  layout  : BitVec 4096
  fmap    : List Nat
  tstk    : BitVec 8
  parts   : List Part
  images  : List SaveImage
  reads   : Nat × Nat
  svn     : Nat
  fwHash  : BitVec 256
  deriving DecidableEq, Repr

/-- The module's power, reset and link registers (R107, R437 to R440). `plan`: the steps of bring-up and power-off still to come, with their cycles;
`boot`: what the bring-up under way comes to; `feld`: Feldspar's own levels; `hot`: the levels that TEMP demands, counted up to cycle `hotAt` (R440);
`outs`: the rails out of tolerance, with the cycle since when (R435); `hdm`: of an enabled CXL type-2 device, the decoder of each stack, as base and bytes
on the host link (R427). -/
structure Module where
  powered : Bool
  plan    : List (Nat × PowerStep)
  boot    : BootResult
  pwrEn   : Bool
  bootst  : W32
  railst  : W32
  railflt : W32
  temp    : W32
  pcap    : W32
  pwrnow  : W32
  memerr  : W64
  thrctl  : List W32
  feld    : List Nat
  hot     : Nat
  links   : List Link
  perst   : Bool
  hotAt   : Nat
  outs    : List (Nat × Nat)
  hdm     : Option (List (Nat × Nat))
  deriving DecidableEq, Repr

/-- The hub (R11): functions, tasks, publications, barriers, commands in progress and the management core. -/
structure Hub where
  fns      : List Fn
  tasks    : List Task
  nextSeq  : Nat
  parkNo   : Nat
  invs     : List Inv
  msix     : List (Nat × Nat)
  mgmt     : Mgmt
  deriving DecidableEq, Repr

/-- What an agent outside writes (R141): the memory of this package, by a host or a peer, with its acknowledgement; host memory; or the memory
of a peer, as published there to .fab; or a save image carried here from another module (R418), its bytes in this package's memory; or single-bit
errors that a stack or bank has corrected (R432); the host's switch of the CXL type-2 device with its decoders, and what it writes through CXL.mem at an
address of its own (R427); or a rail, by its RAILST bit, that leaves or regains its tolerance (R437, R439). -/
inductive Arrival where
  | dev (bytes : List (Nat × Byte))
  | host (bytes : List (Nat × Byte))
  | peer (num : Nat) (bytes : List (Nat × Byte))
  | image (x : SaveImage)
  | corrected (errors : Nat)
  | cxl (hdm : Option (List (Nat × Nat)))
  | mem (addr : Nat) (bytes : List Byte)
  | rail (n : Nat) (within : Bool)
  deriving DecidableEq, Repr

/-- The machine without its restore point. `now`: the cycle; `phase`: how far the cycle has come in the order of log entry 1; `cur`: the core being served;
`active`: the bound cores; `inbox`: happenings outside the device with their cycle; `arrivals`: writes of agents outside, with theirs; `cores`: the 96
cores, and behind them a place for each in which an ended task's streams linger while the next task is bound (R150); `curQ`: the queue or function being
served; `curP`: the task being served; `sys`: device memory as published to .sys (R141). -/
structure Mach where
  now    : Nat
  phase  : Nat
  cur    : Nat
  curQ   : Nat × Nat
  curP   : Option Nat
  active : List Nat
  inbox  : List (Nat × Instr)
  arrivals : List (Nat × Arrival)
  free   : Nat
  cores  : List Core
  quads  : List Shared
  dies   : List Shared
  hbm    : List (Nat × Nat × Nat)
  dev    : Memory
  sys    : Memory
  host   : Memory
  peers  : List (Nat × Memory)
  pubs   : List Pub
  bars   : List Barrier
  hub    : Hub
  module : Module
  deriving DecidableEq, Repr

/-- The state of the model: the machine, the machine as it stood when core `cur` began issuing in cycle `now`, to which a stop at that
cycle returns it, and the cores as they stood before results of their own landed in this cycle, which a stop at it takes back (R167). -/
structure State where
  m    : Mach
  base : Option (Nat × Nat × Mach)
  undo : List (Nat × Core)
  deriving DecidableEq, Repr

/-- A power domain that is OFF. -/
def Dom.offDom : Dom := ⟨.off, none, 0⟩

/-- The control core at its first instruction (R92, R152, R155); CSRs the spec gives no reset value read 0 (log entry 4). -/
def Ctl.reset : Ctl :=
  { x := List.replicate 32 0, pc := 0x01000000, mstatus := 0x1800, mie := 0, mtvec := 0, mepc := 0, mcause := 0, mtval := 0,
    mscratch := 0, minstret := 0, mcBase := 0, nflags := 0, nset := (0, 0), dbg := 0, dbgNext := 0, timecmp := 0xFFFFFFFFFFFFFFFF,
    cbank := List.replicate 32 0, cbankT0 := List.replicate 32 0, resv := none, ready := 0, wait := none, ctip := false, tdue := false,
    ended := false, repTag := 0, requests := [] }

/-- An idle stream. -/
def StreamSt.idle : StreamSt := { line := 0, lane := 0, rep := 0, next := 0, occ := 0, fill := 0, fill0 := 0, doneAt := some 0 }

/-- An empty block store, block queue and fetch unit. -/
def Seq.reset : Seq :=
  { lines := [], dir := [], loading := [], queue := [], loadAt := 0, cur := none, jobs := [],
    streams := List.replicate 5 StreamSt.idle }

/-- The scalar side of a core at task start (R165, R189, R304); queue registers start empty, without tokens. -/
def Scal.reset : Scal :=
  { s := List.replicate 32 0, p := 1, q := List.replicate 8 [], sem := List.replicate 32 0, pn := List.replicate 16 0,
    block := none, phase := none, freed := [], rel := (none, none), ended := (0, []) }

/-- A ring descriptor at reset (R210). -/
def Ring.reset : Ring := ⟨0, 0, none, 0⟩

/-- A core at reset: unbound, every domain OFF (R121), every register at its task-start value. -/
def Core.reset : Core :=
  { bound := none, ctl := Ctl.reset, frame := [], cstore := [], marked := [], seq := Seq.reset, stop := none, hold := none,
    scal := Scal.reset, events := ⟨[], [], (0, 0)⟩, pad := ⟨[], List.replicate 48 0, [], []⟩, slots := [],
    doms := List.replicate 55 Dom.offDom,
    vec := ⟨List.replicate 32 0, BitVec.allOnes 1024 :: List.replicate 7 0⟩,
    mx := { acc := List.replicate 4 0, ba := List.replicate 4 0, bb := List.replicate 4 0,
            rings := List.replicate 8 Ring.reset, ops := [], chain := none, chainAt := 0, jseq := 0, due := none, joint := none, jheld := none },
    xe := { copies := [], next := 0, chans := List.replicate 8 none },
    hv := { h := List.replicate 16 0, k := List.replicate 4 0, gd := List.replicate 4 (0, 0, 0), hvctl := 0 },
    flight := [],
    glb := { view := [], seen := 0, writes := [], loads := [], tlb := [], walks := [], nextId := 0, refreshed := none, bounds := [] },
    port := { seqNo := 0, descs := [], hnds := [], tiles := [], record := none, failed := 0, active := false, wakes := [] },
    preempt := none }

/-- A quad scratchpad at reset. -/
def Shared.quadReset : Shared := ⟨[], List.replicate 16 0, List.replicate 16 Dom.offDom⟩

/-- A die scratchpad at reset. -/
def Shared.dieReset : Shared := ⟨[], List.replicate 32 0, List.replicate 32 Dom.offDom⟩

/-- A function at reset (R367, R423). -/
def Fn.reset : Fn :=
  { jbase := 0, jsize := 0, jwr := 0, jrd := 0, heldJ := 0, resetJ := none, waitJ := [], roomJ := [], retryAt := 0, cmds := [], queues := [],
    s2root := none, key := none, hostWins := [], peers := [], coreTime := 0, paused := false, resetP := false, quiet := false,
    dropped := 0, pull := none, pulls := [], ownPull := none }

/-- The management core's state at reset (R402). -/
def Mgmt.reset : Mgmt :=
  { mbcmd := 0, mbarg := 0, mbstat := 0, at_ := 0, args := 0, gen := 0, prep := false, bank := false, laying := none, flipped := false, layout := 0,
    fmap := List.replicate 25 0xFF, tstk := 0, parts := [], images := [], reads := (1, 2), svn := 0, fwHash := 0 }

/-- The module registers at reset (R107, R437 to R440). -/
def Module.reset : Module :=
  { powered := false, plan := [], boot := ⟨0, 0, 0, 0⟩, pwrEn := false, bootst := 0, railst := 0, railflt := 0, temp := 0, pcap := 3000, pwrnow := 0, memerr := 0,
    thrctl := [0xF00, 0, 0, 0], feld := [0, 0, 0, 0], hot := 0,
    links := List.replicate 16 ⟨false, 0, 0, 0, 0, []⟩, perst := false, hotAt := 0, outs := [], hdm := none }

/-- The hub at reset. -/
def Hub.reset : Hub :=
  { fns := List.replicate 25 Fn.reset, tasks := [], nextSeq := 0, parkNo := 0, invs := [], msix := [],
    mgmt := Mgmt.reset }

/-- The machine at reset. -/
def Mach.reset : Mach :=
  { now := 0, phase := 0, cur := 0, curQ := (0, 0), curP := none, active := [], inbox := [], arrivals := [], free := 0, cores := List.replicate 192 Core.reset,
    quads := List.replicate 24 Shared.quadReset, dies := List.replicate 4 Shared.dieReset, hbm := [], dev := [], sys := [], host := [],
    peers := [], pubs := [], bars := [], hub := Hub.reset, module := Module.reset }

/-- The machine right after reset: no task, no core bound, memory empty. -/
def State.reset : State := { m := Mach.reset, base := none, undo := [] }

/-- Faults of a step. -/
inductive Fault where
  /-- Raised by no meaning of this model: a placeholder for a machine that stops for good; safe. -/
  | halted
  deriving DecidableEq, Repr

/-- Refusals of a step. -/
inductive Refusal where
  /-- Raised by Dispatch for an instruction without a meaning; safe. -/
  | notModelled (mnemonic : String)
  deriving DecidableEq, Repr

end Sys2Proof.Machine
end

