-- ==== Sys2Proof/Machine/Memory.lean ====
section
/-! DEFINITION. Operations on sparse byte memories (R3): one read, one write of a run of bytes, little-endian values. -/
namespace Sys2Proof.Machine

/-- The canonical form of a memory: addresses strictly rising, no byte equal to what an unlisted address reads as. -/
abbrev Memory.Wf (m : Memory) : Prop := m.Pairwise (fun x y => x.1 < y.1) ∧ ∀ c ∈ m, c.2 ≠ 0

/-- What a byte that is not listed reads as (R116, R170; log entry 6). -/
def Memory.unlisted : Byte := 0

/-- The byte at an address. -/
def Memory.read (m : Memory) (a : Nat) : Byte :=
  match m with
  | [] => Memory.unlisted
  | (k, b) :: r => if k = a then b else Memory.read r a

/-- `n` bytes from address `a` on, of a memory whose first listed address is at or beyond `a`. -/
def Memory.run : Memory → Nat → Nat → List Byte
  | _, _, 0 => []
  | [], _, n + 1 => Memory.unlisted :: Memory.run [] 0 n
  | (k, b) :: r, a, n + 1 => if k = a then b :: Memory.run r (a + 1) n else Memory.unlisted :: Memory.run ((k, b) :: r) (a + 1) n

/-- `n` bytes from address `a` on. -/
def Memory.readBlock (m : Memory) (a n : Nat) : List Byte :=
  Memory.run (m.filter fun c => decide (a ≤ c.1)) a n

/-- The cells of a run of bytes, those reading as unlisted left out. -/
def Memory.cells : Nat → List Byte → Memory
  | _, [] => []
  | a, b :: r => if b = Memory.unlisted then Memory.cells (a + 1) r else (a, b) :: Memory.cells (a + 1) r

/-- A run of bytes written at address `a`. -/
def Memory.writeBlock (m : Memory) (a : Nat) (bs : List Byte) : Memory :=
  m.filter (fun c => decide (c.1 < a)) ++ Memory.cells a bs ++ m.filter (fun c => decide (a + bs.length ≤ c.1))

/-- One byte written. -/
def Memory.write (m : Memory) (a : Nat) (b : Byte) : Memory := Memory.writeBlock m a [b]

/-- A list of bytes by address as runs of consecutive addresses. -/
def byteRuns (ws : List (Nat × Byte)) : List (Nat × List Byte) :=
  ws.foldr (fun w rs => match rs with
    | (a, bs) :: r => if a = w.1 + 1 then (w.1, w.2 :: bs) :: r else (w.1, [w.2]) :: (a, bs) :: r
    | [] => [(w.1, [w.2])]) []

/-- Bytes by address written in list order. -/
def Memory.overlay (m : Memory) (ws : List (Nat × Byte)) : Memory :=
  (byteRuns ws).foldl (fun m r => Memory.writeBlock m r.1 r.2) m

/-- The value of bytes, the first least significant (R3). -/
def leValue : List Byte → Nat
  | [] => 0
  | b :: r => b.toNat + 256 * leValue r

/-- The `n` bytes of a value, least significant first (R3). -/
def leBytes : Nat → Nat → List Byte
  | 0, _ => []
  | n + 1, v => BitVec.ofNat 8 v :: leBytes n (v / 256)

/-- `n` bytes with their addresses from `a` on. -/
def atAddr (a : Nat) (bs : List Byte) : List (Nat × Byte) := (List.range bs.length).zipWith (fun i b => (a + i, b)) bs

/-- The value of `n` bytes at `a` (R3). -/
def Memory.value (m : Memory) (a n : Nat) : Nat := leValue (m.readBlock a n)

/-- The bits of an image of `8n` bits as bytes. -/
def imageBytes {w : Nat} (img : BitVec w) : List Byte := leBytes (w / 8) img.toNat

/-- Bytes as an image, the first byte in bits 7:0. -/
def bytesImage (w : Nat) (bs : List Byte) : BitVec w := BitVec.ofNat w (leValue bs)

/-- Element `i` of a list, or a default beyond its end. -/
abbrev nth {α : Type} (l : List α) (i : Nat) (d : α) : α := l.getD i d

end Sys2Proof.Machine
end

