-- ==== Sys2Proof/Machine/Numbers.lean ====
section
/-! DEFINITION. Number formats, exact values, rounding, conversion, quantisation and the sticky flags (R62 to R90). -/
namespace Sys2Proof.Machine

/-- The sticky flags of R69, bit 0 INV to bit 5 ISAT. -/
abbrev Flags := BitVec 6

/-- INV (R69). -/
def Flags.inv : Flags := 0b000001
/-- DVZ (R69). -/
def Flags.dvz : Flags := 0b000010
/-- OVF (R69). -/
def Flags.ovf : Flags := 0b000100
/-- UNF (R69). -/
def Flags.unf : Flags := 0b001000
/-- INX (R69). -/
def Flags.inx : Flags := 0b010000
/-- ISAT (R69). -/
def Flags.isat : Flags := 0b100000

/-- `f` where the condition holds, else no flag. -/
def Flags.when (c : Bool) (f : Flags) : Flags := if c then f else 0

/-- An exact value (R70): NaN, an infinity, or `m × 2^e`; `neg0` is the sign of a zero. -/
inductive Val where
  | nan
  | inf (neg : Bool)
  | fin (neg0 : Bool) (m : Int) (e : Int)
  deriving DecidableEq, Repr

/-- A floating format (R64, R65): exponent and mantissa bits, bias, whether it has infinities and NaNs. -/
structure FloatFmt where
  ebits  : Nat
  mbits  : Nat
  bias   : Nat
  hasInf : Bool
  hasNan : Bool
  deriving DecidableEq, Repr

/-- The formats of R87 by their FMT code. -/
abbrev Fmt := Nat

/-- The floating formats by FMT code (R65, R87). -/
def floatFmt : Fmt → Option FloatFmt
  | 0x0B => some ⟨11, 52, 1023, true, true⟩
  | 0x0C => some ⟨8, 23, 127, true, true⟩
  | 0x0D => some ⟨8, 7, 127, true, true⟩
  | 0x0E => some ⟨5, 10, 15, true, true⟩
  | 0x0F => some ⟨4, 3, 7, false, true⟩
  | 0x10 => some ⟨5, 2, 15, true, true⟩
  | 0x11 => some ⟨3, 2, 3, false, false⟩
  | 0x12 => some ⟨2, 3, 1, false, false⟩
  | 0x13 => some ⟨2, 1, 1, false, false⟩
  | _ => none

/-- FP32 (R65). -/
def fp32 : FloatFmt := ⟨8, 23, 127, true, true⟩
/-- FP64 (R65). -/
def fp64 : FloatFmt := ⟨11, 52, 1023, true, true⟩
/-- BF16 (R65). -/
def bf16 : FloatFmt := ⟨8, 7, 127, true, true⟩

/-- The integer formats by FMT code: bits and signedness (R62, R87). -/
def intFmt : Fmt → Option (Nat × Bool)
  | 0x01 => some (32, true)
  | 0x02 => some (32, false)
  | 0x03 => some (16, true)
  | 0x04 => some (16, false)
  | 0x05 => some (8, true)
  | 0x06 => some (8, false)
  | 0x07 => some (6, true)
  | 0x08 => some (6, false)
  | 0x09 => some (4, true)
  | 0x0A => some (4, false)
  | _ => none

/-- Element bits of a format (R62, R65, R79); RAW counts bytes. -/
def elemBits : Fmt → Nat
  | 0x01 | 0x02 | 0x0C => 32
  | 0x03 | 0x04 | 0x0D | 0x0E => 16
  | 0x07 | 0x08 | 0x11 | 0x12 => 6
  | 0x09 | 0x0A | 0x13 => 4
  | 0x0B => 64
  | _ => 8

/-- Bits an element's place takes in a lane or in memory: a 6-bit element takes eight (R76). -/
def slotBits (f : Fmt) : Nat := if elemBits f = 6 then 8 else elemBits f

/-- Bits of an element in a copy or a tile view: a hypervector is one element (R89, R337). -/
def tileBits (f : Fmt) : Nat := if f = 0x15 then 8192 else slotBits f

namespace FloatFmt

/-- Bits of a pattern. -/
def bits (f : FloatFmt) : Nat := 1 + f.ebits + f.mbits

/-- The greatest exponent field. -/
def emax (f : FloatFmt) : Nat := 2 ^ f.ebits - 1

/-- The exponent and mantissa fields of the largest finite value, as one number (R65). -/
def maxMag (f : FloatFmt) : Nat :=
  if f.hasInf then f.emax * 2 ^ f.mbits - 1
  else if f.hasNan then f.emax * 2 ^ f.mbits + (2 ^ f.mbits - 2)
  else f.emax * 2 ^ f.mbits + (2 ^ f.mbits - 1)

/-- The canonical NaN (R66). -/
def nanBits (f : FloatFmt) : Nat :=
  if f.hasInf then f.emax * 2 ^ f.mbits + 2 ^ (f.mbits - 1) else f.emax * 2 ^ f.mbits + (2 ^ f.mbits - 1)

/-- A sign and a magnitude pattern. -/
def signed (f : FloatFmt) (neg : Bool) (mag : Nat) : Nat := (if neg then 2 ^ (f.ebits + f.mbits) else 0) + mag

/-- An infinity's pattern. -/
def infBits (f : FloatFmt) (neg : Bool) : Nat := f.signed neg (f.emax * 2 ^ f.mbits)

/-- The value of a pattern (R64, R65). -/
def dec (f : FloatFmt) (p : Nat) : Val :=
  let neg := p / 2 ^ (f.ebits + f.mbits) % 2 == 1
  let e := p / 2 ^ f.mbits % 2 ^ f.ebits
  let m := p % 2 ^ f.mbits
  if f.hasInf && e == f.emax then (if m == 0 then .inf neg else .nan)
  else if f.hasNan && e == f.emax && m == 2 ^ f.mbits - 1 then .nan
  else
    let sig : Nat := if e == 0 then m else 2 ^ f.mbits + m
    let ex : Int := (max e 1 : Nat) - (f.bias : Int) - (f.mbits : Int)
    .fin neg (if neg then -(sig : Int) else sig) ex

end FloatFmt

/-- The value of an integer pattern of `n` bits (R62). -/
def decInt (n : Nat) (signed : Bool) (p : Nat) : Int :=
  let q := p % 2 ^ n
  if signed && 2 ^ (n - 1) ≤ q then (q : Int) - 2 ^ n else q

/-- The pattern of an integer in `n` bits: WRAP of R70. -/
def encInt (n : Nat) (v : Int) : Nat := (v % (2 ^ n : Int)).toNat

/-- An integer as a value. -/
def Val.ofInt (v : Int) : Val := .fin false v 0

/-- DEC of R70 for any numeric format. -/
def dec (f : Fmt) (p : Nat) : Val :=
  match floatFmt f with
  | some ff => ff.dec p
  | none => match intFmt f with
    | some (n, s) => Val.ofInt (decInt n s p)
    | none => Val.ofInt p

/-- The value of a UE3M5 code (R79). -/
def decScale (c : Nat) : Val :=
  let e := c / 32 % 8
  let m := c % 32
  if e = 0 then .fin false m (-8) else .fin false ((32 + m : Nat) : Int) ((e : Int) - 9)

namespace Val

/-- Whether a value is negative, a negative zero included. -/
def neg : Val → Bool
  | nan => false
  | inf n => n
  | fin n0 m _ => if m == 0 then n0 else m < 0

/-- Whether a value is a zero. -/
def isZero : Val → Bool
  | fin _ m _ => m == 0
  | _ => false

/-- Whether a value is NaN. -/
def isNan : Val → Bool
  | nan => true
  | _ => false

/-- The value with its sign turned. -/
def negate : Val → Val
  | nan => nan
  | inf n => inf (!n)
  | fin n m e => fin (!n) (-m) e

/-- The magnitude. -/
def abs : Val → Val
  | nan => nan
  | inf _ => inf false
  | fin _ m e => fin false m.natAbs e

/-- EXACT product (R70). -/
def mul : Val → Val → Val
  | nan, _ | _, nan => nan
  | inf n, inf k => inf (n != k)
  | inf n, fin k m e => if m == 0 then nan else inf (n != (fin k m e).neg)
  | fin k m e, inf n => if m == 0 then nan else inf (n != (fin k m e).neg)
  | fin k m e, fin k' m' e' => fin ((fin k m e).neg != (fin k' m' e').neg) (m * m') (e + e')

/-- Exact sum of two finite values as mantissa and exponent. -/
def addFin (m e m' e' : Int) : Int × Int :=
  if e ≤ e' then (m + m' * 2 ^ (e' - e).toNat, e) else (m * 2 ^ (e - e').toNat + m', e')

/-- EXACT sum of two values; a zero sum has the sign of R67, where `down` says the mode is RDN. -/
def add (down : Bool) : Val → Val → Val
  | nan, _ | _, nan => nan
  | inf n, inf k => if n == k then inf n else nan
  | inf n, fin _ _ _ | fin _ _ _, inf n => inf n
  | fin k m e, fin k' m' e' =>
    let r := addFin m e m' e'
    let z := if m == 0 && m' == 0 && k == k' then k else down
    fin z r.1 r.2

/-- Comparison of two values that are not NaN: less, equal or greater, zeros of both signs equal (R67). -/
def cmp : Val → Val → Ordering
  | nan, _ | _, nan => .eq
  | inf n, inf k => if n == k then .eq else if n then .lt else .gt
  | inf n, fin _ _ _ => if n then .lt else .gt
  | fin _ _ _, inf k => if k then .gt else .lt
  | fin _ m e, fin _ m' e' =>
    let d := (addFin m e (-m') e').1
    if d == 0 then .eq else if d < 0 then .lt else .gt

/-- MINNUM of R70. -/
def minNum (x y : Val) : Val :=
  if x.isNan then y else if y.isNan then x
  else match cmp x y with
    | .lt => x
    | .gt => y
    | .eq => if x.neg then x else y

/-- MAXNUM of R70. -/
def maxNum (x y : Val) : Val :=
  if x.isNan then y else if y.isNan then x
  else match cmp x y with
    | .lt => y
    | .gt => x
    | .eq => if x.neg then y else x

end Val

/-- EXACT sum of a list of values (R67, R70), where `down` says the mode is RDN. -/
def sumVals (down : Bool) : List Val → Val
  | [] => .fin false 0 0
  | v :: r => r.foldl (Val.add down) v

/-- A rounding mode (R68): 0 RNE, 1 RTZ, 2 RDN, 3 RUP. -/
abbrev Mode := BitVec 2

/-- Whether a magnitude with the given quotient and remainder over `den` rounds away from zero. -/
def roundsUp (mode : Mode) (neg : Bool) (quot rem den : Nat) : Bool :=
  match mode.toNat with
  | 0 => den < 2 * rem || (den == 2 * rem && quot % 2 == 1)
  | 1 => false
  | 2 => neg && rem != 0
  | _ => !neg && rem != 0

/-- Floor of log2 of the positive rational n/d. -/
def log2Ratio (n d : Nat) : Int :=
  let k : Int := (Nat.log2 n : Int) - (Nat.log2 d : Int)
  let ge := if k ≥ 0 then decide (d * 2 ^ k.toNat ≤ n) else decide (d ≤ n * 2 ^ (-k).toNat)
  if ge then k else k - 1

/-- The magnitude n/d × 2^e rounded to a multiple of 2^q: the multiple and whether it differs. -/
def roundTo (mode : Mode) (neg : Bool) (n d : Nat) (e q : Int) : Nat × Bool :=
  let s := e - q
  let num := if s ≥ 0 then n * 2 ^ s.toNat else n
  let den := if s ≥ 0 then d else d * 2 ^ (-s).toNat
  let quot := num / den
  let rem := num % den
  (if roundsUp mode neg quot rem den then quot + 1 else quot, rem != 0)

/-- RND and CVT of a non-zero magnitude n/d × 2^e into a float format (R68, R71, R72): pattern and flags. -/
def roundMag (f : FloatFmt) (mode : Mode) (sat : Bool) (neg : Bool) (n d : Nat) (e : Int) : Nat × Flags :=
  let k := log2Ratio n d + e
  let emin : Int := 1 - (f.bias : Int)
  let q := max (k - f.mbits) (emin - f.mbits)
  let (sig, inexact) := roundTo mode neg n d e q
  -- the pattern without its sign: the exponent field counts quanta of 2^q above the subnormal one
  let mag : Nat := ((q - (emin - f.mbits)).toNat) * 2 ^ f.mbits + sig
  if f.maxMag < mag then
    let toInf := f.hasInf && !sat && (match mode.toNat with | 0 => true | 1 => false | 2 => neg | _ => !neg)
    (if toInf then f.infBits neg else f.signed neg f.maxMag, Flags.ovf ||| Flags.inx)
  else
    let (sigU, _) := roundTo mode neg n d e (k - f.mbits)
    let tiny := k < emin && !(k + 1 == emin && sigU == 2 ^ (f.mbits + 1))
    (f.signed neg mag, Flags.when inexact Flags.inx ||| Flags.when (tiny && inexact) Flags.unf)

/-- CVT of a value into a float format (R71, R72). -/
def cvtFloat (f : FloatFmt) (mode : Mode) (sat : Bool) : Val → Nat × Flags
  | .nan => if sat || !f.hasNan then (0, Flags.inv) else (f.nanBits, 0)
  | .inf neg => (if sat || !f.hasInf then f.signed neg f.maxMag else f.infBits neg, 0)
  | .fin z m e => if m == 0 then (f.signed z 0, 0) else roundMag f mode sat (m < 0) m.natAbs 1 e

/-- SAT of an integer (R63): the clamped value and whether it changed. -/
def satInt (n : Nat) (signed : Bool) (v : Int) : Int × Bool :=
  let lo : Int := if signed then -(2 ^ (n - 1)) else 0
  let hi : Int := if signed then 2 ^ (n - 1) - 1 else 2 ^ n - 1
  if v < lo then (lo, true) else if hi < v then (hi, true) else (v, false)

/-- A finite value rounded to an integer (R68). -/
def toInteger (mode : Mode) (m e : Int) : Int × Bool :=
  let (q, inexact) := roundTo mode (m < 0) m.natAbs 1 e 0
  (if m < 0 then -(q : Int) else q, inexact)

/-- CVT of a value into an integer format (R73); `fromFloat` says the input is a float. -/
def cvtInt (n : Nat) (signed : Bool) (mode : Mode) (fromFloat : Bool) : Val → Nat × Flags
  | .nan => (0, Flags.inv)
  | .inf neg => (encInt n (satInt n signed (if neg then -(2 ^ 80) else 2 ^ 80)).1, Flags.isat ||| Flags.inv)
  | .fin _ m e =>
    let (v, inexact) := toInteger mode m e
    let (c, clamped) := satInt n signed v
    (encInt n c,
      if clamped then Flags.isat ||| Flags.when fromFloat Flags.inv else Flags.when (inexact && fromFloat) Flags.inx)

/-- CVT of R70 into the format of a code; `src` is the source's format code. -/
def cvt (src dst : Fmt) (mode : Mode) (sat : Bool) (v : Val) : Nat × Flags :=
  match floatFmt dst with
  | some f => cvtFloat f mode sat v
  | none => match intFmt dst with
    | some (n, s) => cvtInt n s mode (floatFmt src).isSome v
    | none => (0, 0)

/-- RNE into FP32 (R70). -/
def rne32 (v : Val) : Nat × Flags := cvtFloat fp32 0 false v

/-- INV where an operation gave NaN although no operand was NaN (R67). -/
def invalid (operands : List Val) (r : Val) : Flags := Flags.when (r.isNan && !(operands.any Val.isNan)) Flags.inv

/-- TREE of R86 over FP32 patterns, by levels. -/
def treeLevel : List Nat → List Nat × Flags
  | a :: b :: r =>
    let v := Val.add false (fp32.dec a) (fp32.dec b)
    let s := rne32 v
    let t := treeLevel r
    (s.1 :: t.1, s.2 ||| invalid [fp32.dec a, fp32.dec b] v ||| t.2)
  | l => (l, 0)

/-- TREE of R86: `fuel` levels are enough for `2^fuel` partials. -/
def tree : Nat → List Nat → Nat × Flags
  | 0, l => (nth l 0 0, 0)
  | n + 1, l => match l with
    | [] => (0, 0)
    | [a] => (a, 0)
    | l => let t := treeLevel l; let u := tree n t.1; (u.1, t.2 ||| u.2)

/-- The first scale code from `s` on that suffices, or 0xFF (R81): big ≤ max × band × scale, with big = m × 2^e. -/
def scaleFrom (max band : Val) (big : Val) : Nat → Nat → Nat
  | 0, _ => 0xFF
  | n + 1, s =>
    match Val.cmp big (Val.mul max (Val.mul band (decScale s))) with
    | .gt => scaleFrom max band big n (s + 1)
    | _ => s

/-- An exact quotient rounded into a float format by RNE with saturation (R81). -/
def quotRound (f : FloatFmt) (x y : Val) : Nat × Flags :=
  match x, y with
  | .fin z m e, .fin _ m' e' =>
    if m == 0 then (f.signed z 0, 0)
    else if m' == 0 then (f.signed (m < 0) f.maxMag, Flags.ovf ||| Flags.inx)
    else roundMag f 0 true ((m < 0) != (m' < 0)) m.natAbs m'.natAbs (e - e')
  | _, _ => (0, 0)

/-- Quantisation of a block (R81): the scale code, the element patterns and the flags. `band` is the BF16 pattern. -/
def quantise (f : FloatFmt) (band : Nat) (vs : List Val) : Nat × List Nat × Flags :=
  let bv := bf16.dec band
  let normal := band / 2 ^ 15 % 2 == 0 && band / 2 ^ 7 % 2 ^ 8 != 0 && band / 2 ^ 7 % 2 ^ 8 != 255
  if !normal then (0, vs.map fun _ => 0, Flags.inv)
  else
    let nanFlag := Flags.when (vs.any Val.isNan) Flags.inv
    let vs := vs.map fun v => if v.isNan then Val.fin false 0 0 else v
    if vs.all Val.isZero then (0, vs.map fun _ => 0, nanFlag)
    else
      let fins := (vs.filter fun v => match v with | .fin _ m _ => m != 0 | _ => false).map Val.abs
      let big := fins.foldl Val.maxNum (.fin false 0 0)
      let scale := if fins.isEmpty then 0xFF else scaleFrom (f.dec f.maxMag) bv big 255 0
      let dv := Val.mul bv (decScale scale)
      let es := vs.map fun v => match v with
        | .inf neg => (f.signed neg f.maxMag, (0 : Flags))
        | v => quotRound f v dv
      (scale, es.map Prod.fst, es.foldl (fun a e => a ||| e.2) nanFlag)

end Sys2Proof.Machine
end

