-- ==== Sys2Proof/Machine/Flags.lean ====
section
/-! DEFINITION. Fault codes (R53) and the flag computations of integer results (R63, R69, R194, R195). -/
namespace Sys2Proof.Machine

namespace Code
/-- F.BLOCK (R53). -/
abbrev block : Byte := 0x01
/-- F.MAC. -/
abbrev mac : Byte := 0x02
/-- F.SLEEP. -/
abbrev sleep : Byte := 0x03
/-- F.INRUSH. -/
abbrev inrush : Byte := 0x04
/-- F.OWNER. -/
abbrev owner : Byte := 0x05
/-- F.STALE. -/
abbrev stale : Byte := 0x06
/-- F.GROUPCLASH. -/
abbrev groupclash : Byte := 0x07
/-- F.BUFSTATE. -/
abbrev bufstate : Byte := 0x08
/-- F.BANKFMT. -/
abbrev bankfmt : Byte := 0x09
/-- F.SPRANGE. -/
abbrev sprange : Byte := 0x0A
/-- F.SCALECOUNT. -/
abbrev scalecount : Byte := 0x0B
/-- F.RING. -/
abbrev ring : Byte := 0x0C
/-- F.JOINT. -/
abbrev joint : Byte := 0x0D
/-- F.BARSTARVE. -/
abbrev barstarve : Byte := 0x0E
/-- F.FOOTPRINT. -/
abbrev footprint : Byte := 0x10
/-- F.XLATE. -/
abbrev xlate : Byte := 0x11
/-- F.PERM. -/
abbrev perm : Byte := 0x12
/-- F.TIMEDMISS. -/
abbrev timedmiss : Byte := 0x13
/-- F.PULLLOST. -/
abbrev pulllost : Byte := 0x14
/-- F.TILE. -/
abbrev tile : Byte := 0x18
/-- F.BUDGET. -/
abbrev budget : Byte := 0x19
end Code

/-- An exact S result written wrapped, or clamped to s64 with ISAT (R63, R194). -/
def fit64 (sat : Bool) (x : Int) : W64 × Flags :=
  if sat then
    let r := satInt 64 true x
    (BitVec.ofInt 64 r.1, Flags.when r.2 Flags.isat)
  else (BitVec.ofInt 64 x, 0)

/-- The upper half of a product (R195): 0 signed, 1 unsigned, else A signed and B unsigned. -/
def mulHigh (fn : Nat) (a b : W64) : W64 :=
  let x : Int := if fn = 1 then a.toNat else a.toInt
  let y : Int := if fn = 0 then b.toInt else b.toNat
  BitVec.ofInt 64 (x * y / 2 ^ 64)

/-- DIVQ (R195): 0 signed quotient, 1 unsigned quotient, 2 signed remainder, 3 unsigned remainder. -/
def divq (fn : Nat) (a b : W64) : W64 :=
  match fn with
  | 0 => if b = 0 then BitVec.allOnes 64 else BitVec.ofInt 64 (a.toInt.tdiv b.toInt)
  | 1 => if b = 0 then BitVec.allOnes 64 else BitVec.ofNat 64 (a.toNat / b.toNat)
  | 2 => if b = 0 then a else BitVec.ofInt 64 (a.toInt.tmod b.toInt)
  | _ => if b = 0 then a else BitVec.ofNat 64 (a.toNat % b.toNat)

/-- The condition of an S compare (R198). -/
def condS (fn : Nat) (a b : W64) : Bool :=
  match fn with
  | 0 => a == b
  | 1 => a != b
  | 2 => a.toInt < b.toInt
  | 3 => b.toInt ≤ a.toInt
  | 4 => a.toNat < b.toNat
  | _ => b.toNat ≤ a.toNat

end Sys2Proof.Machine
end

