-- ==== Sys2Proof/Decode.lean ====
section
/-! DEFINITION. Decoding and the load-time checks of R55: lanes (R36 to R49 and each stream's encoding table), lines
(R32 to R35), tile instructions (R50, R334), the control core (R151, R177) and queue code (R374, R375). A decoder answers
an instruction or the detail code of the check that fails. The encoder stands at the end. -/
namespace Sys2Proof

/-! ### Fields -/

/-- `len` bits of `w` from bit `lo` (R3). -/
abbrev bits {n : Nat} (w : BitVec n) (lo len : Nat) : BitVec len := w.extractLsb' lo len

/-- The extension word's fields (R37). -/
def Ext.ofWord (w : W32) : Ext :=
  { ka := bits w 30 2, kc := bits w 28 2, c := bits w 23 5, rm := bits w 21 2, sat := w.getLsbD 20, imm := bits w 0 16 }

/-- The word of an extension (R37). -/
def Ext.toWord (e : Ext) : W32 :=
  e.ka ++ e.kc ++ e.c ++ e.rm ++ (BitVec.ofBool e.sat) ++ 0#4 ++ e.imm

/-- The opcode of a lane word (R36). -/
def laneOp (w : W32) : BitVec 7 := bits w 20 7

/-- The lane word's fields (R36). -/
def Lane.ofWords (w : W32) (e : Option W32) : Lane :=
  { d := bits w 30 2, p := bits w 27 3, dst := bits w 15 5, a := bits w 10 5, kb := bits w 8 2, b := bits w 3 5,
    fn := bits w 0 3, ext := e.map Ext.ofWord }

/-- The lane word of opcode `op` (R36). -/
def Lane.toWord (op : BitVec 7) (l : Lane) : W32 :=
  l.d ++ l.p ++ op ++ l.dst ++ l.a ++ l.kb ++ l.b ++ l.fn

namespace Lane

/-- A long form (R37). -/
def long (l : Lane) : Bool := l.ext.isSome
/-- KA; 00 in the short form (R37). -/
def ka (l : Lane) : BitVec 2 := (l.ext.map Ext.ka).getD 0
/-- KC; 00 in the short form (R37). -/
def kc (l : Lane) : BitVec 2 := (l.ext.map Ext.kc).getD 0
/-- C; 0 in the short form (R37). -/
def c (l : Lane) : BitVec 5 := (l.ext.map Ext.c).getD 0
/-- RM; 00 in the short form (R37). -/
def rm (l : Lane) : BitVec 2 := (l.ext.map Ext.rm).getD 0
/-- SAT; 0 in the short form (R37). -/
def sat (l : Lane) : Bool := (l.ext.map Ext.sat).getD false
/-- IMM16; 0 in the short form (R37). -/
def imm (l : Lane) : BitVec 16 := (l.ext.map Ext.imm).getD 0
/-- The unsigned value of a kind-11 literal in B: the field in the short form, IMM16 in the long form (R41). -/
def litU (l : Lane) : Nat := if l.long then l.imm.toNat else l.b.toNat

end Lane

/-! ### The checks of R55, as lists of the detail codes that fail -/

/-- One check: its detail code when it fails. -/
def need (ok : Bool) (code : Nat) : List Nat := if ok then [] else [code]

/-- The lowest failing code (R55). -/
def lowest : List Nat → Option Nat
  | [] => none
  | c :: cs => match lowest cs with
    | none => some c
    | some d => some (min c d)

namespace LaneCheck

/-- The kinds an operand accepts (0x08). -/
def kind (k : BitVec 2) (allowed : List Nat) : List Nat := need (allowed.contains k.toNat) 0x08
/-- A register field below the size of its file (0x09). -/
def reg (f : BitVec 5) (size : Nat) : List Nat := need (f.toNat < size) 0x09
/-- A field without meaning (0x0A). -/
def zero {n : Nat} (f : BitVec n) : List Nat := need (f == 0) 0x0A
/-- FN within the values the entry allows (0x07). -/
def fn (l : Lane) (allowed : List Nat) : List Nat := need (allowed.contains l.fn.toNat) 0x07
/-- FN = 000 (R49). -/
def fn0 (l : Lane) : List Nat := fn l [0]
/-- FN of the F family (R43): every value. -/
def fnF (_ : Lane) : List Nat := []
/-- FN of the S and Z families (R43). -/
def fnSZ (l : Lane) : List Nat := fn l [0, 1, 2, 3, 4]
/-- KC and C without use. -/
def noC (l : Lane) : List Nat := kind l.kc [0] ++ zero l.c
/-- KA = 00. -/
def ka0 (l : Lane) : List Nat := kind l.ka [0]
/-- An A operand that is absent. -/
def noA (l : Lane) : List Nat := ka0 l ++ zero l.a
/-- A B operand that is absent. -/
def noB (l : Lane) : List Nat := kind l.kb [0] ++ zero l.b
/-- RM without use (R44). -/
def noRm (l : Lane) : List Nat := zero l.rm
/-- SAT without use (R44). -/
def noSat (l : Lane) : List Nat := need (!l.sat) 0x0A
/-- IMM16 without use (R44). -/
def noImm (l : Lane) : List Nat := zero l.imm
/-- P without meaning (R36). -/
def noP (l : Lane) : List Nat := zero l.p
/-- The long form's literal in B: the B field is zero and IMM16 holds it; with another kind IMM16 is zero (R41, R44). -/
def litB (l : Lane) : List Nat :=
  if l.kb == 3 then (if l.long then zero l.b else []) else noImm l
/-- A kind-01 operand of the S stream: a queue the S stream reads (R39). -/
def queue (f : BitVec 5) : List Nat :=
  need (f.toNat < 8) 0x09 ++ need (f.toNat ≥ 8 || [1, 3, 5, 7].contains f.toNat) 0x08
/-- A of any kind in the S stream. -/
def sA (l : Lane) : List Nat := if l.ka == 1 then queue l.a else []
/-- B of any kind in the S stream. -/
def sB (l : Lane) : List Nat := (if l.kb == 1 then queue l.b else []) ++ litB l
/-- A count, threshold or literal B of the given kinds. -/
def bKinds (l : Lane) (ks : List Nat) : List Nat := kind l.kb ks ++ litB l
/-- The mode field of R200 and R250: level in bits 1:0, bit 2 the stepped or post-increment form, bits 4:3 zero. -/
def mode (f : BitVec 5) : List Nat :=
  need ((bits f 0 2) != 3) 0x08 ++ need (bits f 3 2 == 0) 0x0A
/-- A scope in A (R135). -/
def scope (f : BitVec 5) : List Nat :=
  need (bits f 4 1 == 0) 0x0A ++ need ((bits f 0 4).toNat ≤ 8) 0x08
/-- An always-long instruction (R59). -/
def always (l : Lane) : List Nat := need l.long 0x0B
/-- No use of KC, C, RM, SAT. -/
def plain (l : Lane) : List Nat := noC l ++ noRm l ++ noSat l

end LaneCheck

open LaneCheck in
/-- NOP and WAIT.C (R47), in every stream. -/
def waitNopFails (l : Lane) : List Nat :=
  noP l ++ plain l ++ zero l.dst ++ noA l ++
  (if l.fn == 1 then kind l.kb [3] ++ (if l.long then zero l.b else [])
   else need (l.fn == 0) 0x07 ++ zero l.kb ++ zero l.b ++ noImm l)

open LaneCheck in
/-- The S stream (R193). RDWID names its field with any IMM16: whether a long literal above 31 is rejected the spec does not say, and the model's choice
is that it is not (log entry 79). -/
def sLaneFails (op : Nat) (l : Lane) : List Nat :=
  match op with
  | 0x00 => waitNopFails l
  | 0x01 | 0x02 | 0x03 => fn0 l ++ sA l ++ sB l ++ noC l ++ noRm l
  | 0x04 => fn l [0, 1, 2] ++ sA l ++ sB l ++ plain l
  | 0x05 => fn l [0, 1, 2, 3] ++ sA l ++ sB l ++ plain l
  | 0x06 | 0x07 | 0x08 | 0x09 | 0x0A | 0x0B | 0x0F => fn0 l ++ sA l ++ sB l ++ plain l
  | 0x0C | 0x0D => fn l [0, 1] ++ sA l ++ sB l ++ plain l
  | 0x0E => fn l [0, 1, 2, 3] ++ noA l ++ bKinds l [3] ++ plain l ++ (if l.fn == 0 then [] else always l ++ zero l.b)
  | 0x10 => fn l [0, 1, 2, 3, 4, 5] ++ sA l ++ sB l ++ plain l ++ reg l.dst 8 ++ need (l.dst != 0) 0x09
  | 0x11 => fn l [0, 1, 2, 3, 4, 5] ++ ka0 l ++ kind l.kb [0] ++ plain l ++ noImm l ++ reg l.dst 8 ++
      need (l.dst != 0) 0x09 ++ (if l.fn.toNat < 5 then reg l.a 8 ++ reg l.b 8 else zero l.b)
  | 0x12 => fn0 l ++ noA l ++ bKinds l [0, 3] ++ plain l ++ (if l.kb == 0 then zero l.b else [])
  | 0x30 => fn l [0, 1, 2, 3, 4, 5, 6] ++ ka0 l ++ kind l.kb [0] ++ mode l.b ++ plain l
  | 0x31 => fn l [0, 1, 2, 3] ++ ka0 l ++ kind l.kb [0] ++ mode l.b ++ plain l
  | 0x32 => fn l [0, 1, 2, 3, 4, 5, 6] ++ ka0 l ++ kind l.kb [0] ++ mode l.b ++ need (bits l.b 0 2 == 0) 0x08 ++ plain l
  | 0x33 => fn l [0, 1, 2, 3] ++ ka0 l ++ kind l.kb [0] ++ mode l.b ++ need (bits l.b 0 2 == 0) 0x08 ++ plain l
  | 0x34 => always l ++ fn l [0, 1, 2, 3, 4, 5] ++ ka0 l ++ kind l.kb [0, 2] ++ noRm l ++ noSat l ++
      zero (bits l.imm 0 6) ++ kind l.kc [0, 2] ++ (if l.fn == 4 then [] else zero l.kc ++ zero l.c) ++
      need ((bits l.imm 12 4).toNat ≤ 8) 0x08 ++
      (if bits l.imm 10 2 == 0 then zero (bits l.imm 12 4) else []) ++
      (if l.fn == 5 then need (bits l.imm 8 2 == 0) 0x08 else [])
  | 0x35 => fn0 l ++ need (l.dst.toNat < 8) 0x09 ++ need (8 ≤ l.dst.toNat || l.dst.toNat % 2 == 0) 0x08 ++
      noA l ++ bKinds l [0, 2, 3] ++ plain l
  | 0x36 | 0x37 => fn0 l ++ noA l ++ bKinds l [0, 3] ++ plain l
  | 0x38 => fn0 l ++ reg l.dst 16 ++ noA l ++ bKinds l [3] ++ plain l
  | 0x39 => fn l [0, 1, 2] ++ zero l.dst ++ ka0 l ++ scope l.a ++ noB l ++ plain l ++ noImm l
  | 0x3A => fn0 l ++ zero l.dst ++ ka0 l ++ scope l.a ++ noB l ++ plain l ++ noImm l
  | 0x3B => fn0 l ++ reg l.dst 8 ++ ka0 l ++ kind l.kb [0] ++ plain l ++ noImm l
  | 0x3C => fn l [0, 1, 2, 3, 5, 6] ++ reg l.dst 16 ++ ka0 l ++ need (bits l.a 4 1 == 0) 0x0A ++
      need ([2, 3, 4, 5].contains (bits l.a 0 4).toNat) 0x08 ++ plain l ++
      kind l.kb [0, 3] ++
      (if l.fn == 0 then litB l else zero l.kb ++ zero l.b ++ noImm l)
  | 0x3D => fn0 l ++ zero l.dst ++ noA l ++ bKinds l [3] ++ plain l ++ need (l.litU ≤ 15 || l.kb != 3) 0x08
  | 0x3E => fn l [0, 1] ++ ka0 l ++ kind l.kb [0] ++ plain l ++ noImm l ++ (if l.fn == 0 then zero l.dst else zero l.b)
  | 0x40 => fn0 l ++ zero l.dst ++ ka0 l ++ noB l ++ plain l ++ noImm l
  | 0x41 => fn l [0, 1] ++ zero l.dst ++ ka0 l ++ noB l ++ plain l ++ noImm l
  | 0x42 => fn0 l ++ noA l ++ bKinds l [3] ++ plain l ++
      need (l.kb != 3 || (l.litU < 16 && l.litU % 4 != 3 && l.litU / 4 != 3)) 0x08
  | _ => [0x06]

/-- Sub-elements of an element format per 32-bit lane, counted in halves so that FP64 counts as one half (R76, R240). -/
def subHalves (fmt : Nat) : Nat :=
  match fmt with
  | 0x01 | 0x02 | 0x0C => 2
  | 0x03 | 0x04 | 0x0D | 0x0E => 4
  | 0x05 | 0x06 | 0x07 | 0x08 | 0x0F | 0x10 | 0x11 | 0x12 => 8
  | 0x09 | 0x0A | 0x13 => 16
  | 0x0B => 1
  | _ => 2

open LaneCheck in
/-- VCVT (R238, R240). -/
def vcvtFails (l : Lane) : List Nat :=
  let dstT := (bits l.imm 0 5).toNat
  let srcT := (bits l.imm 5 5).toNat
  let typeOk (t : Nat) := 0x01 ≤ t && t ≤ 0x13
  let f64 := dstT == 0x0B || srcT == 0x0B
  let narrowOk (t : Nat) := t == 0x0B || t == 0x01 || t == 0x02 || t == 0x0C
  let big := max (subHalves dstT) (subHalves srcT)
  let small := min (subHalves dstT) (subHalves srcT)
  always l ++ kind l.ka [0, 1, 2] ++ noB l ++ noC l ++ zero (bits l.imm 10 6) ++
  need (!l.long || typeOk dstT && typeOk srcT) 0x08 ++
  (if l.long && typeOk dstT && typeOk srcT then
    need (!f64 || (narrowOk dstT && narrowOk srcT && !(dstT == 0x0B && srcT == 0x0B))) 0x08 ++ need (!f64 || l.ka == 0) 0x08 ++
    need (l.fn.toNat < big / small) 0x07
   else [])

/-- The element types a reduction or scan accepts (R248). -/
def redTypeOk (fn t : Nat) : Bool :=
  if fn ≤ 2 then (1 ≤ t && t ≤ 6) || (0x0C ≤ t && t ≤ 0x0E) else t == 0

open LaneCheck in
/-- The V stream (R229, R245). -/
def vLaneFails (op : Nat) (l : Lane) : List Nat :=
  match op with
  | 0x00 => waitNopFails l
  | 0x01 | 0x02 | 0x03 => fnF l ++ litB l ++ noC l
  | 0x04 => fnF l ++ litB l
  | 0x05 | 0x06 => fnF l ++ litB l ++ plain l
  | 0x07 => fnF l ++ noB l ++ plain l ++ noImm l
  | 0x08 | 0x09 | 0x0A | 0x0D | 0x0E | 0x0F => fnSZ l ++ litB l ++ noC l ++ noRm l
  | 0x0B | 0x0C | 0x10 | 0x11 => fnSZ l ++ litB l ++ plain l
  | 0x12 | 0x13 | 0x14 | 0x1C => fn0 l ++ litB l ++ plain l
  | 0x15 => fn0 l ++ noB l ++ plain l ++ noImm l
  | 0x16 | 0x17 | 0x18 => fnSZ l ++ litB l ++ plain l
  | 0x19 => fnF l ++ litB l ++ plain l ++ need (bits l.dst 0 3 != 0) 0x09
  | 0x1A | 0x1B => fnSZ l ++ litB l ++ plain l ++ need (bits l.dst 0 3 != 0) 0x09
  | 0x1D => vcvtFails l
  | 0x1E => fn l [0, 1, 2, 3, 4, 5] ++ ka0 l ++ kind l.kb [0] ++ noC l ++ noRm l ++ noImm l
  | 0x1F => fn l [0, 1, 2, 3, 4, 5] ++ ka0 l ++ bKinds l [3] ++ plain l ++ need (l.kb != 3 || l.litU ≤ 1) 0x08
  | 0x20 | 0x21 | 0x22 | 0x23 => fnF l ++ noB l ++ noC l ++ noImm l
  | 0x24 => fn0 l ++ noB l ++ plain l ++ (if l.ka == 3 then zero l.a else noImm l)
  | 0x25 => fn0 l ++ ka0 l ++ kind l.kb [0] ++ plain l ++ noImm l ++ need (bits l.dst 0 3 != 0) 0x09 ++
      need ((bits l.dst 3 2).toNat ≤ 1) 0x08 ++ reg l.a 8 ++ reg l.b 8
  | 0x26 => fn0 l ++ ka0 l ++ kind l.kb [0] ++ plain l ++ noImm l ++ need (bits l.dst 0 3 != 0) 0x09 ++
      need ((bits l.dst 3 2).toNat ≤ 2) 0x08 ++ reg l.a 8 ++ reg l.b 8
  | 0x27 => fn0 l ++ ka0 l ++ noB l ++ plain l ++ noImm l ++ need (bits l.dst 0 3 != 0) 0x09 ++
      need ((bits l.dst 3 2).toNat ≤ 0) 0x0A ++ reg l.a 8
  | 0x28 | 0x29 | 0x2A | 0x2B => fn0 l ++ ka0 l ++ bKinds l [1, 2, 3] ++ plain l
  | 0x2C | 0x2D | 0x2E | 0x2F =>
      fn l [0, 1, 2, 3, 4, 5] ++ ka0 l ++ kind l.kb [3] ++ noC l ++ noImm l ++
      need (l.fn.toNat > 5 || l.kb != 3 || redTypeOk l.fn.toNat l.b.toNat) 0x08 ++
      (if l.fn == 0 && 0x0C ≤ l.b.toNat then [] else noRm l) ++ (if l.fn == 0 then [] else noSat l)
  | 0x30 | 0x31 => fn0 l ++ ka0 l ++ mode l.a ++ kind l.kb [0, 1] ++ plain l
  | 0x32 | 0x33 => fn0 l ++ ka0 l ++ kind l.kb [0, 1] ++ plain l
  | 0x34 => fn0 l ++ noA l ++ bKinds l [3] ++ plain l ++ need (l.kb != 3 || l.litU ≤ 1) 0x08
  | 0x35 => fn0 l ++ zero l.dst ++ ka0 l ++ noB l ++ plain l ++ noImm l
  | 0x36 | 0x37 => fn0 l ++ noA l ++ bKinds l [1, 3] ++ plain l
  | _ => [0x06]

open LaneCheck in
/-- The M stream (R269). -/
def mLaneFails (op : Nat) (l : Lane) : List Nat :=
  let common := ka0 l ++ noC l
  match op with
  | 0x00 => waitNopFails l
  | 0x01 => common ++ fnF l ++ reg l.dst 4 ++ reg l.a 8 ++ kind l.kb [0] ++ reg l.b 8 ++ noRm l ++ noSat l
  | 0x02 => common ++ fn l [0, 1, 2, 3, 4, 5] ++ reg l.dst 4 ++ reg l.a 8 ++ kind l.kb [0] ++ reg l.b 8 ++ noRm l
  | 0x03 => common ++ fn0 l ++ reg l.dst 4 ++ need (l.dst.toNat % 2 == 0) 0x09 ++ reg l.a 8 ++ kind l.kb [0] ++
      reg l.b 8 ++ noRm l ++ noSat l
  | 0x04 => common ++ fn l [3, 4, 5, 6, 7] ++ reg l.dst 4 ++ reg l.a 8 ++ kind l.kb [0] ++ reg l.b 8 ++ noRm l ++ noSat l
  | 0x05 => common ++ fn l [1, 2, 3, 4, 5, 6, 7] ++ reg l.dst 4 ++ reg l.a 8 ++ kind l.kb [0] ++ noRm l ++ noSat l ++
      zero (bits l.p 0 1)
  | 0x06 => common ++ fn l [3, 4, 5, 6, 7] ++ reg l.dst 4 ++ reg l.a 8 ++ kind l.kb [0] ++ noRm l ++ noSat l ++
      zero (bits l.p 0 1)
  | 0x07 => common ++ fn0 l ++ noP l ++ zero l.dst ++ zero l.a ++ bKinds l [3] ++ noRm l ++ noSat l ++
      need (l.kb != 3 || l.litU ≤ 15) 0x08
  | 0x08 => common ++ fnF l ++ reg l.dst 4 ++ mode l.a ++ kind l.kb [1] ++ zero (bits l.p 0 1)
  | 0x09 | 0x0A => common ++ fn0 l ++ noP l ++ reg l.dst 4 ++ zero l.a ++ bKinds l [1, 2, 3] ++ noRm l ++ noSat l
  | 0x30 | 0x31 => common ++ fn0 l ++ reg l.dst 4 ++ need (bits l.p 2 1 == 0 || l.dst.toNat % 2 == 0) 0x09 ++
      mode l.a ++ kind l.kb [1] ++ noRm l ++ noSat l ++ zero (bits l.p 0 2)
  | 0x32 | 0x33 => common ++ fn0 l ++ noP l ++ zero l.a ++ bKinds l [1, 3] ++ noRm l ++ noSat l
  | _ => [0x06]

open LaneCheck in
/-- The X stream (R288, R289). -/
def xLaneFails (op : Nat) (l : Lane) : List Nat :=
  match op with
  | 0x00 => waitNopFails l
  | 0x01 | 0x02 | 0x03 | 0x04 | 0x05 | 0x06 =>
      (if op == 0x04 then fn l [0, 1, 2, 3] else fn0 l) ++ reg l.dst 16 ++
      kind l.ka [1] ++ kind l.kc [1] ++ kind l.kb [1] ++ noSat l ++
      need ((bits l.imm 4 4).toNat ≤ 8) 0x08 ++ (if bits l.imm 2 2 == 0 then zero (bits l.imm 4 4) else [])
  | 0x30 => fn l [0, 1] ++ zero l.dst ++ kind l.ka [1] ++ kind l.kb [1] ++ plain l ++ noImm l
  | 0x31 => fn0 l ++ zero l.dst ++ noA l ++ noB l ++ plain l ++ noImm l
  | 0x32 => fn0 l ++ reg l.dst 16 ++ kind l.ka [1] ++ noB l ++ plain l ++
      zero (bits l.imm 0 8)
  | 0x33 => fn l [0, 1] ++ zero l.dst ++ noA l ++ noB l ++ plain l ++ noImm l
  | 0x34 | 0x35 => fn0 l ++ noP l ++ noA l ++ bKinds l [1, 3] ++ plain l
  | 0x36 => fn l [0, 1, 2] ++ noP l ++ zero l.dst ++ ka0 l ++ scope l.a ++ noB l ++ plain l ++ noImm l
  | _ => [0x06]

open LaneCheck in
/-- The H stream (R318). -/
def hLaneFails (op : Nat) (l : Lane) : List Nat :=
  let hk (f : BitVec 5) := reg f 20
  let kOnly (f : BitVec 5) := need (16 ≤ f.toNat && f.toNat < 20) 0x09
  match op with
  | 0x00 => waitNopFails l
  | 0x01 => fn0 l ++ reg l.dst 16 ++ ka0 l ++ reg l.a 16 ++ kind l.kb [0] ++ reg l.b 16 ++ plain l ++ noImm l
  | 0x02 => fn l [0, 1] ++ reg l.dst 16 ++ ka0 l ++ reg l.a 16 ++ bKinds l [1, 3] ++ plain l ++
      need (l.kb != 3 || l.litU ≤ 8191) 0x08
  | 0x03 => fn l [0, 1, 2] ++ kOnly l.dst ++ ka0 l ++ (if l.fn == 2 then zero l.a else reg l.a 16) ++ bKinds l [3] ++
      plain l ++ need (l.kb != 3 || (1 ≤ l.litU && l.litU ≤ 15)) 0x08
  | 0x04 => fn0 l ++ reg l.dst 16 ++ ka0 l ++ kOnly l.a ++ noB l ++ plain l ++ noImm l
  | 0x05 => fn0 l ++ zero l.dst ++ ka0 l ++ reg l.a 16 ++ kind l.kb [0] ++ reg l.b 16 ++ plain l ++ noImm l
  | 0x06 | 0x07 => fn0 l ++ zero l.dst ++ ka0 l ++ reg l.a 4 ++ kind l.kb [0] ++ reg l.b 16 ++ plain l ++ noImm l
  | 0x08 | 0x0A => fn0 l ++ reg l.dst 16 ++ ka0 l ++ reg l.a 16 ++ noB l ++ plain l ++ noImm l
  | 0x09 => fn0 l ++ hk l.dst ++ noA l ++ noB l ++ plain l ++ noImm l
  | 0x30 | 0x31 => fn0 l ++ hk l.dst ++ ka0 l ++ mode l.a ++ kind l.kb [1] ++ plain l
  | 0x32 => always l ++ fn0 l ++ need (l.dst.toNat < 4 || l.dst.toNat == 16) 0x09 ++
      (if l.long then kind l.ka [1] else []) ++ kind l.kb [1] ++ plain l ++ noImm l ++ (if l.dst == 16 then zero l.b else [])
  | 0x33 => fn0 l ++ need (bits l.dst 2 2 == 0) 0x09 ++ ka0 l ++
      (if l.dst.getLsbD 4 then zero l.a else reg l.a 16) ++ bKinds l [1, 3] ++ plain l ++
      need (l.kb != 3 || l.litU ≤ 1535) 0x08
  | 0x34 | 0x35 => fn0 l ++ noA l ++ bKinds l [1, 3] ++ plain l
  | _ => [0x06]

/-- The checks of R55 on a lane of stream `st`, but for the extension's own reserved bits. -/
def laneFails (st : Stream) (op : BitVec 7) (l : Lane) : List Nat :=
  match st with
  | .s => sLaneFails op.toNat l
  | .v => vLaneFails op.toNat l
  | .m => mLaneFails op.toNat l
  | .x => xLaneFails op.toNat l
  | .h => hLaneFails op.toNat l

/-- Bits 19:16 of an extension word are zero (R37). -/
def extRsvFails : Option W32 → List Nat
  | none => []
  | some w => need (bits w 16 4 == 0) 0x0A

/-! ### From fields to an instruction -/

/-- The instruction of an S lane by its opcode (R48); none where the opcode is unassigned. -/
def sLaneInstr (op : Nat) (l : Lane) : Option Instr :=
  match op with
  | 0x00 => some (if l.fn == 1 then .waitC .s l else .nop .s l)
  | 0x01 => some (.sAdd l)
  | 0x02 => some (.sSub l)
  | 0x03 => some (.sMul l)
  | 0x04 => some (.sMulh l)
  | 0x05 => some (.sDivq l)
  | 0x06 => some (.sAnd l)
  | 0x07 => some (.sOr l)
  | 0x08 => some (.sXor l)
  | 0x09 => some (.sShl l)
  | 0x0A => some (.sShr l)
  | 0x0B => some (.sSra l)
  | 0x0C => some (.sMin l)
  | 0x0D => some (.sMax l)
  | 0x0E => some (if l.fn == 0 then .sMovi l else .sMoviH l)
  | 0x0F => some (.sSel l)
  | 0x10 => some (.sCmp l)
  | 0x11 => some (.sPset l)
  | 0x12 => some (.sRdwid l)
  | 0x30 => some (.sLd l)
  | 0x31 => some (.sSt l)
  | 0x32 => some (.sLdg l)
  | 0x33 => some (.sStg l)
  | 0x34 => some (.sAtom l)
  | 0x35 => some (.sQpush l)
  | 0x36 => some (.sSemw l)
  | 0x37 => some (.sSems l)
  | 0x38 => some (.sPnwait l)
  | 0x39 => some (.sFence l)
  | 0x3A => some (.sPhase l)
  | 0x3B => some (.sRingset l)
  | 0x3C => match l.fn.toNat with
    | 0 => some (.sBarInit l) | 6 => some (.sBarInitt l) | 1 => some (.sBarJoin l) | 5 => some (.sBarLeave l)
    | 2 => some (.sBarArr l) | 3 => some (.sBarWait l) | _ => none
  | 0x3D => some (.sTjoin l)
  | 0x3E => some (if l.fn == 0 then .sBkfmtSet l else .sBkfmtGet l)
  | 0x40 => some (.sWake l)
  | 0x41 => some (.sSleep l)
  | 0x42 => some (.sPdq l)
  | _ => none

/-- The instruction of an V lane by its opcode (R48); none where the opcode is unassigned. -/
def vLaneInstr (op : Nat) (l : Lane) : Option Instr :=
  match op with
  | 0x00 => some (if l.fn == 1 then .waitC .v l else .nop .v l)
  | 0x01 => some (.vaddF l)
  | 0x02 => some (.vsubF l)
  | 0x03 => some (.vmulF l)
  | 0x04 => some (.vfma l)
  | 0x05 => some (.vminF l)
  | 0x06 => some (.vmaxF l)
  | 0x07 => some (.vabs l)
  | 0x08 => some (.vaddS l)
  | 0x09 => some (.vsubS l)
  | 0x0A => some (.vmulS l)
  | 0x0B => some (.vminS l)
  | 0x0C => some (.vmaxS l)
  | 0x0D => some (.vaddZ l)
  | 0x0E => some (.vsubZ l)
  | 0x0F => some (.vmulZ l)
  | 0x10 => some (.vminZ l)
  | 0x11 => some (.vmaxZ l)
  | 0x12 => some (.vand l)
  | 0x13 => some (.vor l)
  | 0x14 => some (.vxor l)
  | 0x15 => some (.vnot l)
  | 0x16 => some (.vshl l)
  | 0x17 => some (.vshrZ l)
  | 0x18 => some (.vshrS l)
  | 0x19 => some (.vcmpF l)
  | 0x1A => some (.vcmpS l)
  | 0x1B => some (.vcmpZ l)
  | 0x1C => some (.vsel l)
  | 0x1D => some (.vcvt l)
  | 0x1E => some (.vpack l)
  | 0x1F => some (.vunpk l)
  | 0x20 => some (.vrcp l)
  | 0x21 => some (.vrsq l)
  | 0x22 => some (.vexp2 l)
  | 0x23 => some (.vlog2 l)
  | 0x24 => some (.vmov l)
  | 0x25 => some (.vmand l)
  | 0x26 => some (.vmor l)
  | 0x27 => some (.vmnot l)
  | 0x28 => some (.vrotr l)
  | 0x29 => some (.vrotc l)
  | 0x2A => some (.vbcr l)
  | 0x2B => some (.vbcc l)
  | 0x2C => some (.vredr l)
  | 0x2D => some (.vredc l)
  | 0x2E => some (.vscanr l)
  | 0x2F => some (.vscanc l)
  | 0x30 => some (.vld l)
  | 0x31 => some (.vst l)
  | 0x32 => some (.vldx l)
  | 0x33 => some (.vstx l)
  | 0x34 => some (.vins l)
  | 0x35 => some (.vext l)
  | 0x36 => some (.vsemw l)
  | 0x37 => some (.vsems l)
  | _ => none

/-- The instruction of an M lane by its opcode (R48); none where the opcode is unassigned. -/
def mLaneInstr (op : Nat) (l : Lane) : Option Instr :=
  match op with
  | 0x00 => some (if l.fn == 1 then .waitC .m l else .nop .m l)
  | 0x01 => some (.mma l)
  | 0x02 => some (.mmai l)
  | 0x03 => some (.mmad l)
  | 0x04 => some (.mmas l)
  | 0x05 => some (.mmaj l)
  | 0x06 => some (.mmajs l)
  | 0x07 => some (.mzero l)
  | 0x08 => some (.mdrain l)
  | 0x09 => some (.msba l)
  | 0x0A => some (.msbb l)
  | 0x30 => some (.mldacc l)
  | 0x31 => some (.mstacc l)
  | 0x32 => some (.msemw l)
  | 0x33 => some (.msems l)
  | _ => none

/-- The instruction of an X lane by its opcode (R48); none where the opcode is unassigned. -/
def xLaneInstr (op : Nat) (l : Lane) (ch : Option ChainCmd) : Option Instr :=
  match op with
  | 0x00 => some (if l.fn == 1 then .waitC .x l else .nop .x l)
  | 0x01 => some (.xcopy l ch)
  | 0x02 => some (.xgath l ch)
  | 0x03 => some (.xscat l ch)
  | 0x04 => some (.xred l ch)
  | 0x05 => some (.xmcast l ch)
  | 0x06 => some (.xfill l ch)
  | 0x30 => some (.xopen l)
  | 0x31 => some (.xclose l)
  | 0x32 => some (.xwmset l)
  | 0x33 => some (if l.fn == 0 then .xbufRel l else .xbufQ l)
  | 0x34 => some (.xsemw l)
  | 0x35 => some (.xsems l)
  | 0x36 => some (.xfence l)
  | _ => none

/-- The instruction of an H lane by its opcode (R48); none where the opcode is unassigned. -/
def hLaneInstr (op : Nat) (l : Lane) : Option Instr :=
  match op with
  | 0x00 => some (if l.fn == 1 then .waitC .h l else .nop .h l)
  | 0x01 => some (.hbind l)
  | 0x02 => some (.hperm l)
  | 0x03 => some (.hbund l)
  | 0x04 => some (.hthr l)
  | 0x05 => some (.hdist l)
  | 0x06 => some (.hnear l)
  | 0x07 => some (.hnear2 l)
  | 0x08 => some (.hmov l)
  | 0x09 => some (.hclr l)
  | 0x0A => some (.hnot l)
  | 0x30 => some (.hld l)
  | 0x31 => some (.hst l)
  | 0x32 => some (.hgdset l)
  | 0x33 => some (if l.dst.getLsbD 4 then .hgputInv l else .hgput l)
  | 0x34 => some (.hsemw l)
  | 0x35 => some (.hsems l)
  | _ => none

/-- The stream, opcode and fields of a lane instruction, with a copy's chained command (R48). -/
def Instr.lane? : Instr → Option (Stream × BitVec 7 × Lane × Option ChainCmd)
  | .nop st l => some (st, 0x00, l, none)
  | .waitC st l => some (st, 0x00, l, none)
  | .hbind l => some (.h, 0x01, l, none)
  | .hperm l => some (.h, 0x02, l, none)
  | .hbund l => some (.h, 0x03, l, none)
  | .hthr l => some (.h, 0x04, l, none)
  | .hdist l => some (.h, 0x05, l, none)
  | .hnear l => some (.h, 0x06, l, none)
  | .hnear2 l => some (.h, 0x07, l, none)
  | .hmov l => some (.h, 0x08, l, none)
  | .hclr l => some (.h, 0x09, l, none)
  | .hnot l => some (.h, 0x0A, l, none)
  | .hld l => some (.h, 0x30, l, none)
  | .hst l => some (.h, 0x31, l, none)
  | .hgdset l => some (.h, 0x32, l, none)
  | .hgput l => some (.h, 0x33, l, none)
  | .hgputInv l => some (.h, 0x33, l, none)
  | .hsemw l => some (.h, 0x34, l, none)
  | .hsems l => some (.h, 0x35, l, none)
  | .mma l => some (.m, 0x01, l, none)
  | .mmai l => some (.m, 0x02, l, none)
  | .mmad l => some (.m, 0x03, l, none)
  | .mmas l => some (.m, 0x04, l, none)
  | .mmaj l => some (.m, 0x05, l, none)
  | .mmajs l => some (.m, 0x06, l, none)
  | .mzero l => some (.m, 0x07, l, none)
  | .mdrain l => some (.m, 0x08, l, none)
  | .msba l => some (.m, 0x09, l, none)
  | .msbb l => some (.m, 0x0A, l, none)
  | .mldacc l => some (.m, 0x30, l, none)
  | .mstacc l => some (.m, 0x31, l, none)
  | .msemw l => some (.m, 0x32, l, none)
  | .msems l => some (.m, 0x33, l, none)
  | .sAdd l => some (.s, 0x01, l, none)
  | .sSub l => some (.s, 0x02, l, none)
  | .sMul l => some (.s, 0x03, l, none)
  | .sMulh l => some (.s, 0x04, l, none)
  | .sDivq l => some (.s, 0x05, l, none)
  | .sAnd l => some (.s, 0x06, l, none)
  | .sOr l => some (.s, 0x07, l, none)
  | .sXor l => some (.s, 0x08, l, none)
  | .sShl l => some (.s, 0x09, l, none)
  | .sShr l => some (.s, 0x0A, l, none)
  | .sSra l => some (.s, 0x0B, l, none)
  | .sMin l => some (.s, 0x0C, l, none)
  | .sMax l => some (.s, 0x0D, l, none)
  | .sMovi l => some (.s, 0x0E, l, none)
  | .sMoviH l => some (.s, 0x0E, l, none)
  | .sSel l => some (.s, 0x0F, l, none)
  | .sCmp l => some (.s, 0x10, l, none)
  | .sPset l => some (.s, 0x11, l, none)
  | .sRdwid l => some (.s, 0x12, l, none)
  | .sLd l => some (.s, 0x30, l, none)
  | .sSt l => some (.s, 0x31, l, none)
  | .sLdg l => some (.s, 0x32, l, none)
  | .sStg l => some (.s, 0x33, l, none)
  | .sAtom l => some (.s, 0x34, l, none)
  | .sQpush l => some (.s, 0x35, l, none)
  | .sSemw l => some (.s, 0x36, l, none)
  | .sSems l => some (.s, 0x37, l, none)
  | .sPnwait l => some (.s, 0x38, l, none)
  | .sFence l => some (.s, 0x39, l, none)
  | .sPhase l => some (.s, 0x3A, l, none)
  | .sRingset l => some (.s, 0x3B, l, none)
  | .sBarInit l => some (.s, 0x3C, l, none)
  | .sBarInitt l => some (.s, 0x3C, l, none)
  | .sBarJoin l => some (.s, 0x3C, l, none)
  | .sBarLeave l => some (.s, 0x3C, l, none)
  | .sBarArr l => some (.s, 0x3C, l, none)
  | .sBarWait l => some (.s, 0x3C, l, none)
  | .sTjoin l => some (.s, 0x3D, l, none)
  | .sBkfmtSet l => some (.s, 0x3E, l, none)
  | .sBkfmtGet l => some (.s, 0x3E, l, none)
  | .sWake l => some (.s, 0x40, l, none)
  | .sSleep l => some (.s, 0x41, l, none)
  | .sPdq l => some (.s, 0x42, l, none)
  | .vaddF l => some (.v, 0x01, l, none)
  | .vsubF l => some (.v, 0x02, l, none)
  | .vmulF l => some (.v, 0x03, l, none)
  | .vfma l => some (.v, 0x04, l, none)
  | .vminF l => some (.v, 0x05, l, none)
  | .vmaxF l => some (.v, 0x06, l, none)
  | .vabs l => some (.v, 0x07, l, none)
  | .vaddS l => some (.v, 0x08, l, none)
  | .vsubS l => some (.v, 0x09, l, none)
  | .vmulS l => some (.v, 0x0A, l, none)
  | .vminS l => some (.v, 0x0B, l, none)
  | .vmaxS l => some (.v, 0x0C, l, none)
  | .vaddZ l => some (.v, 0x0D, l, none)
  | .vsubZ l => some (.v, 0x0E, l, none)
  | .vmulZ l => some (.v, 0x0F, l, none)
  | .vminZ l => some (.v, 0x10, l, none)
  | .vmaxZ l => some (.v, 0x11, l, none)
  | .vand l => some (.v, 0x12, l, none)
  | .vor l => some (.v, 0x13, l, none)
  | .vxor l => some (.v, 0x14, l, none)
  | .vnot l => some (.v, 0x15, l, none)
  | .vshl l => some (.v, 0x16, l, none)
  | .vshrZ l => some (.v, 0x17, l, none)
  | .vshrS l => some (.v, 0x18, l, none)
  | .vcmpF l => some (.v, 0x19, l, none)
  | .vcmpS l => some (.v, 0x1A, l, none)
  | .vcmpZ l => some (.v, 0x1B, l, none)
  | .vsel l => some (.v, 0x1C, l, none)
  | .vcvt l => some (.v, 0x1D, l, none)
  | .vpack l => some (.v, 0x1E, l, none)
  | .vunpk l => some (.v, 0x1F, l, none)
  | .vrcp l => some (.v, 0x20, l, none)
  | .vrsq l => some (.v, 0x21, l, none)
  | .vexp2 l => some (.v, 0x22, l, none)
  | .vlog2 l => some (.v, 0x23, l, none)
  | .vmov l => some (.v, 0x24, l, none)
  | .vmand l => some (.v, 0x25, l, none)
  | .vmor l => some (.v, 0x26, l, none)
  | .vmnot l => some (.v, 0x27, l, none)
  | .vrotr l => some (.v, 0x28, l, none)
  | .vrotc l => some (.v, 0x29, l, none)
  | .vbcr l => some (.v, 0x2A, l, none)
  | .vbcc l => some (.v, 0x2B, l, none)
  | .vredr l => some (.v, 0x2C, l, none)
  | .vredc l => some (.v, 0x2D, l, none)
  | .vscanr l => some (.v, 0x2E, l, none)
  | .vscanc l => some (.v, 0x2F, l, none)
  | .vld l => some (.v, 0x30, l, none)
  | .vst l => some (.v, 0x31, l, none)
  | .vldx l => some (.v, 0x32, l, none)
  | .vstx l => some (.v, 0x33, l, none)
  | .vins l => some (.v, 0x34, l, none)
  | .vext l => some (.v, 0x35, l, none)
  | .vsemw l => some (.v, 0x36, l, none)
  | .vsems l => some (.v, 0x37, l, none)
  | .xcopy l ch => some (.x, 0x01, l, ch)
  | .xgath l ch => some (.x, 0x02, l, ch)
  | .xscat l ch => some (.x, 0x03, l, ch)
  | .xred l ch => some (.x, 0x04, l, ch)
  | .xmcast l ch => some (.x, 0x05, l, ch)
  | .xfill l ch => some (.x, 0x06, l, ch)
  | .xopen l => some (.x, 0x30, l, none)
  | .xclose l => some (.x, 0x31, l, none)
  | .xwmset l => some (.x, 0x32, l, none)
  | .xbufRel l => some (.x, 0x33, l, none)
  | .xbufQ l => some (.x, 0x33, l, none)
  | .xsemw l => some (.x, 0x34, l, none)
  | .xsems l => some (.x, 0x35, l, none)
  | .xfence l => some (.x, 0x36, l, none)
  | _ => none

/-- The instruction of a lane by stream and opcode (R48), unchecked. -/
def laneInstr (st : Stream) (op : BitVec 7) (l : Lane) (ch : Option ChainCmd) : Option Instr :=
  match st with
  | .s => sLaneInstr op.toNat l
  | .v => vLaneInstr op.toNat l
  | .m => mLaneInstr op.toNat l
  | .x => xLaneInstr op.toNat l ch
  | .h => hLaneInstr op.toNat l

/-- An X copy command whose control field has CH set (R289). -/
def wantsChain (st : Stream) (op : BitVec 7) (l : Lane) : Bool :=
  st == .x && 1 ≤ op.toNat && op.toNat ≤ 6 && l.imm.getLsbD 0

/-- The load-time checks of a chained command (R271, R292): an MMA, MMAI, MMAD or MMAS lane with D = 0. -/
def chainFails (c : ChainCmd) : List Nat :=
  let op := laneOp c.word
  need (1 ≤ op.toNat && op.toNat ≤ 4 && bits c.word 30 2 == 0) 0x0A ++
  laneFails .m op (Lane.ofWords c.word c.ext) ++ extRsvFails c.ext

/-- All checks of R55 on one lane instruction given as words. -/
def laneWordFails (st : Stream) (w : W32) (e : Option W32) (ch : Option ChainCmd) : List Nat :=
  let l := Lane.ofWords w e
  laneFails st (laneOp w) l ++ extRsvFails e ++
  (if wantsChain st (laneOp w) l then match ch with
    | none => [0x0A]
    | some c => chainFails c
   else need ch.isNone 0x0A)

/-- Decode one lane instruction of a stream: the instruction, or the detail code of R55. -/
def decodeLane (st : Stream) (w : W32) (e : Option W32) (ch : Option ChainCmd) : Except Nat Instr :=
  match lowest (laneWordFails st w e ch) with
  | some d => .error d
  | none => match laneInstr st (laneOp w) (Lane.ofWords w e) ch with
    | some i => .ok i
    | none => .error 0x06

/-! ### Tile instructions (R50, R51, R334) -/

/-- The fields of a tile instruction's four words. -/
def Tile.ofWords (w0 w1 w2 w3 : W32) : Tile :=
  { d := bits w0 30 2, p := bits w0 27 3, lvl := bits w0 19 3, ver := bits w0 17 2, dfmt := bits w0 12 5,
    sub := bits w0 8 4, ksplit := w0.getLsbD 7, abort := w0.getLsbD 6, acc := w0.getLsbD 5, ovl := w0.getLsbD 4,
    rm := bits w0 2 2, sat := w0.getLsbD 1, evt := w0.getLsbD 0,
    tdd := bits w1 22 10, tda := bits w1 12 10, tdb := bits w1 2 10,
    m := bits w2 16 16, n := bits w2 0 16, k := bits w3 16 16, ksf := bits w3 12 4, auxb := bits w3 4 8, lcm := bits w3 0 4 }

/-- Word 0 of a tile instruction. -/
def Tile.word0 (top : BitVec 5) (t : Tile) : W32 :=
  t.d ++ t.p ++ top ++ t.lvl ++ t.ver ++ t.dfmt ++ t.sub ++ BitVec.ofBool t.ksplit ++ BitVec.ofBool t.abort ++
  BitVec.ofBool t.acc ++ BitVec.ofBool t.ovl ++ t.rm ++ BitVec.ofBool t.sat ++ BitVec.ofBool t.evt
/-- Word 1. -/
def Tile.word1 (t : Tile) : W32 := t.tdd ++ t.tda ++ t.tdb ++ 0#2
/-- Word 2. -/
def Tile.word2 (t : Tile) : W32 := t.m ++ t.n
/-- Word 3. -/
def Tile.word3 (t : Tile) : W32 := t.k ++ t.ksf ++ t.auxb ++ t.lcm

/-- The tile instruction of an opcode (R51); none where TOP is unassigned. -/
def tileInstr (top : BitVec 5) (t : Tile) : Option Instr :=
  match top.toNat with
  | 0x00 => some (.tNop t) | 0x01 => some (.tMma t) | 0x02 => some (.tMmas t) | 0x03 => some (.tEw t)
  | 0x04 => some (.tAct t) | 0x05 => some (.tRed t) | 0x06 => some (.tCvt t) | 0x07 => some (.tScale t)
  | 0x08 => some (.tMove t) | 0x09 => some (.tFill t) | 0x0A => some (.tTrans t) | 0x0B => some (.tGath t)
  | 0x0C => some (.tHvenc t) | 0x0D => some (.tHvnear t) | 0x0E => some (.tBar t) | 0x0F => some (.tFence t)
  | _ => none

/-- The opcode and fields of a tile instruction (R51). -/
def Instr.tile? : Instr → Option (BitVec 5 × Tile)
  | .tNop t => some (0x00, t) | .tMma t => some (0x01, t) | .tMmas t => some (0x02, t) | .tEw t => some (0x03, t)
  | .tAct t => some (0x04, t) | .tRed t => some (0x05, t) | .tCvt t => some (0x06, t) | .tScale t => some (0x07, t)
  | .tMove t => some (0x08, t) | .tFill t => some (0x09, t) | .tTrans t => some (0x0A, t) | .tGath t => some (0x0B, t)
  | .tHvenc t => some (0x0C, t) | .tHvnear t => some (0x0D, t) | .tBar t => some (0x0E, t) | .tFence t => some (0x0F, t)
  | _ => none

/-- A tile opcode that level L accepts (R335). -/
def topAtL (top : Nat) : Bool := top == 0 || (3 ≤ top && top ≤ 7)

/-- The checks of R52 on a tile instruction of a native line, all reported as 0x05. -/
def nativeTileFails (w0 w1 : W32) : List Nat :=
  need (bits w0 19 3 == 4 && topAtL (bits w0 22 5).toNat && (bits w0 17 2 == 1 || bits w0 17 2 == 2) && bits w1 0 2 == 0) 0x05

/-- Decode four words as a tile instruction; none where TOP, LVL or VER is not assigned, or word 1 bits 1:0 are not zero. -/
def decodeTile (w0 w1 w2 w3 : W32) : Option Instr :=
  if (bits w0 19 3).toNat ≤ 4 && (bits w0 17 2 == 1 || bits w0 17 2 == 2) && bits w1 0 2 == 0 then
    tileInstr (bits w0 22 5) (Tile.ofWords w0 w1 w2 w3)
  else none

/-! ### Lines (R32 to R35) -/

/-- One instruction of a line, in the lane where it starts. -/
structure LineItem where
  lane  : Nat
  st    : Stream
  instr : Instr
  deriving DecidableEq, Repr

/-- The stream of a lane code 0x1 to 0x5 (R33). -/
def codeStream : Nat → Stream
  | 1 => .s | 2 => .v | 3 => .m | 4 => .x | _ => .h

/-- One decoded lane appended to the parse of the rest of the line. -/
def consItem (pos : Nat) (st : Stream) (r : Except Nat Instr) (rest : List LineItem × List Nat) : List LineItem × List Nat :=
  match r with
  | .ok i => (⟨pos, st, i⟩ :: rest.1, rest.2)
  | .error d => (rest.1, d :: rest.2)

/-- The lanes of a line from lane `pos` on, given as pairs of code and word: the instructions, and the detail codes of the
checks that fail (R33, R34, R52, R55, R292). -/
def parseLanes : Nat → List (Nat × W32) → List LineItem × List Nat
  | _, [] => ([], [])
  | pos, (0, w) :: r => let q := parseLanes (pos + 1) r; (q.1, need (w == 0) 0x03 ++ q.2)
  | pos, (7, w0) :: (6, w1) :: (6, w2) :: (6, w3) :: r =>
      let q := parseLanes (pos + 4) r
      match nativeTileFails w0 w1, decodeTile w0 w1 w2 w3 with
      | [], some i => (⟨pos, .s, i⟩ :: q.1, q.2)
      | _, _ => (q.1, 0x05 :: q.2)
  | pos, (7, _) :: (6, _) :: (6, _) :: r => let q := parseLanes (pos + 3) r; (q.1, 0x05 :: q.2)
  | pos, (7, _) :: (6, _) :: r => let q := parseLanes (pos + 2) r; (q.1, 0x05 :: q.2)
  | pos, (7, _) :: r => let q := parseLanes (pos + 1) r; (q.1, 0x05 :: q.2)
  | pos, (6, _) :: r => let q := parseLanes (pos + 1) r; (q.1, 0x04 :: q.2)
  | pos, (4, w) :: (6, e) :: (3, mw) :: (6, me) :: r =>
      if wantsChain .x (laneOp w) (Lane.ofWords w (some e)) then
        consItem pos .x (decodeLane .x w (some e) (some ⟨mw, some me⟩)) (parseLanes (pos + 4) r)
      else
        consItem pos .x (decodeLane .x w (some e) none)
          (consItem (pos + 2) .m (decodeLane .m mw (some me) none) (parseLanes (pos + 4) r))
  | pos, (4, w) :: (6, e) :: (3, mw) :: r =>
      if wantsChain .x (laneOp w) (Lane.ofWords w (some e)) then
        consItem pos .x (decodeLane .x w (some e) (some ⟨mw, none⟩)) (parseLanes (pos + 3) r)
      else
        consItem pos .x (decodeLane .x w (some e) none)
          (consItem (pos + 2) .m (decodeLane .m mw none none) (parseLanes (pos + 3) r))
  | pos, (c, w) :: (6, e) :: r =>
      if c ≤ 5 then consItem pos (codeStream c) (decodeLane (codeStream c) w (some e) none) (parseLanes (pos + 2) r)
      else let q := parseLanes (pos + 2) r; (q.1, 0x02 :: 0x04 :: q.2)
  | pos, (c, w) :: r =>
      if c ≤ 5 then consItem pos (codeStream c) (decodeLane (codeStream c) w none none) (parseLanes (pos + 1) r)
      else let q := parseLanes (pos + 1) r; (q.1, 0x02 :: q.2)

/-- Word `i` of a line; word 0 is the header (R32). -/
def lineWord (line : BitVec 256) (i : Nat) : W32 := bits line (32 * i) 32

/-- Lanes 1 to 7 of a line with their codes (R32). -/
def lineLanes (line : BitVec 256) : List (Nat × W32) :=
  (List.range 7).map fun i => ((bits (lineWord line 0) (4 * (i + 1)) 4).toNat, lineWord line (i + 1))

/-- The instructions of a line. -/
def lineItems (line : BitVec 256) : List LineItem := (parseLanes 1 (lineLanes line)).1

/-- The detail code of a line that fails R55, or none. -/
def lineDetail (line : BitVec 256) : Option Nat :=
  lowest (need (bits (lineWord line 0) 0 4 == 0) 0x01 ++ (parseLanes 1 (lineLanes line)).2)

/-! ### The control core (R151, R177) -/

/-- A CSR instruction: one of the rows that write a custom CSR (R155), or a standard one. -/
def csrInstr (op : CsrOp) (rd : XReg) (src : CsrSrc) (num : BitVec 12) : Instr :=
  let writes : Bool := op == .rw || (match src with | .reg r => r != 0 | .imm v => v != 0)
  if writes && num == 0x7C0 then .nflagsWrite op rd src
  else if writes && num == 0x7C1 then .dbgctlWrite op rd src
  else if writes && num == 0x7C2 then .ctimecmpWrite op rd src
  else if writes && 0xBC0 ≤ num.toNat && num.toNat ≤ 0xBDF then .cbankWrite (bits num 0 5) op rd src
  else .rv64Instruction ⟨.csr op rd src num, false⟩

/-- The custom instructions in major opcode custom-0 (R177). -/
def decodeCustom (w : W32) : Option Instr :=
  let f7 := (bits w 25 7).toNat
  let rs2 := bits w 20 5
  let rs1 := bits w 15 5
  let rd := bits w 7 5
  match (bits w 12 3).toNat with
  | 0 => if f7 == 0 && rd == 0 then some (.cblk rs1 rs2)
         else if f7 == 1 && rd == 0 && rs1 == 0 && rs2 == 0 then some .cblkw else none
  | 1 => if rs1 == 0 && rs2 == 0 then (if f7 == 0 then some (.cevt rd) else if f7 == 1 then some (.cevtNb rd) else none) else none
  | 2 => if f7 == 0 && rd == 0 then some (.csemSig rs1 rs2)
         else if f7 == 1 && rd == 0 then some (.csemWait rs1 rs2)
         else if f7 == 2 then some (.csemTry rd rs1 rs2)
         else if f7 == 3 && rs2 == 0 then some (.csemRd rd rs1)
         else if f7 == 4 && rd == 0 then some (.csemSet rs1 rs2) else none
  | 3 => if rd == 0 && rs1 == 0 && rs2 == 0 && f7 % 16 ≤ 8 then
           (if f7 / 16 == 0 then some (.cphase (bits w 25 4)) else if f7 / 16 == 1 then some (.cfence (bits w 25 4)) else none)
         else none
  | 4 => if f7 == 0 && rs1 == 0 && rs2 == 0 then some (.cframeRep rd)
         else if f7 == 1 && rd == 0 && rs2 == 0 then some (.cframeEnd rs1) else none
  | 5 => if f7 == 0 && rd == 0 && rs1 == 0 && rs2 == 0 then some .cresume else none
  | 6 => if f7 == 0 && rs1 == 0 && rs2 == 0 then some (.cwid rd)
         else if f7 == 1 && rs2 == 0 then some (.ctis rd rs1)
         else if f7 == 2 && rs2 == 0 then some (.cpds rd rs1) else none
  | _ => none

/-- The register-register operations of the OP and OP-32 major opcodes. -/
def rvAlu (f7 f3 : Nat) : Option RvAlu :=
  match f7, f3 with
  | 0x00, 0 => some .add | 0x20, 0 => some .sub | 0x00, 1 => some .sll | 0x00, 2 => some .slt | 0x00, 3 => some .sltu
  | 0x00, 4 => some .xor | 0x00, 5 => some .srl | 0x20, 5 => some .sra | 0x00, 6 => some .or | 0x00, 7 => some .and
  | _, _ => none

/-- The M extension by funct3. -/
def rvMul : Nat → RvMul
  | 0 => .mul | 1 => .mulh | 2 => .mulhsu | 3 => .mulhu | 4 => .div | 5 => .divu | 6 => .rem | _ => .remu

/-- The A extension by funct5. -/
def rvAmo : Nat → Option RvAmo
  | 0x01 => some .swap | 0x00 => some .add | 0x04 => some .xor | 0x0C => some .and | 0x08 => some .or
  | 0x10 => some .min | 0x14 => some .max | 0x18 => some .minu | 0x1C => some .maxu | _ => none

/-- A 32-bit standard instruction (RV64IMA, Zicsr, Zifencei); none outside the set of R151. -/
def decodeRv32 (w : W32) : Option Instr :=
  let rd := bits w 7 5
  let rs1 := bits w 15 5
  let rs2 := bits w 20 5
  let f3 := (bits w 12 3).toNat
  let f7 := (bits w 25 7).toNat
  let immI := bits w 20 12
  let std (op : Rv) : Option Instr := some (.rv64Instruction ⟨op, false⟩)
  match (bits w 0 7).toNat with
  | 0x37 => std (.lui rd (bits w 12 20))
  | 0x17 => std (.auipc rd (bits w 12 20))
  | 0x6F => std (.jal rd (bits w 31 1 ++ bits w 12 8 ++ bits w 20 1 ++ bits w 21 10 ++ 0#1))
  | 0x67 => if f3 == 0 then std (.jalr rd rs1 immI) else none
  | 0x63 =>
      let off : BitVec 13 := bits w 31 1 ++ bits w 7 1 ++ bits w 25 6 ++ bits w 8 4 ++ 0#1
      match f3 with
      | 0 => std (.branch .eq rs1 rs2 off) | 1 => std (.branch .ne rs1 rs2 off) | 4 => std (.branch .lt rs1 rs2 off)
      | 5 => std (.branch .ge rs1 rs2 off) | 6 => std (.branch .ltu rs1 rs2 off) | 7 => std (.branch .geu rs1 rs2 off)
      | _ => none
  | 0x03 =>
      match f3 with
      | 0 => std (.load .b true rd rs1 immI) | 1 => std (.load .h true rd rs1 immI) | 2 => std (.load .w true rd rs1 immI)
      | 3 => std (.load .d true rd rs1 immI) | 4 => std (.load .b false rd rs1 immI) | 5 => std (.load .h false rd rs1 immI)
      | 6 => std (.load .w false rd rs1 immI) | _ => none
  | 0x23 =>
      let imm : BitVec 12 := bits w 25 7 ++ bits w 7 5
      match f3 with
      | 0 => std (.store .b rs1 rs2 imm) | 1 => std (.store .h rs1 rs2 imm) | 2 => std (.store .w rs1 rs2 imm)
      | 3 => std (.store .d rs1 rs2 imm) | _ => none
  | 0x13 =>
      let sh : BitVec 12 := 0#6 ++ bits w 20 6
      match f3 with
      | 0 => std (.aluImm .add rd rs1 immI) | 2 => std (.aluImm .slt rd rs1 immI) | 3 => std (.aluImm .sltu rd rs1 immI)
      | 4 => std (.aluImm .xor rd rs1 immI) | 6 => std (.aluImm .or rd rs1 immI) | 7 => std (.aluImm .and rd rs1 immI)
      | 1 => if bits w 26 6 == 0 then std (.aluImm .sll rd rs1 sh) else none
      | _ => if bits w 26 6 == 0 then std (.aluImm .srl rd rs1 sh)
             else if bits w 26 6 == 0x10 then std (.aluImm .sra rd rs1 sh) else none
  | 0x1B =>
      let sh : BitVec 12 := 0#7 ++ bits w 20 5
      match f3 with
      | 0 => std (.aluImmW .add rd rs1 immI)
      | 1 => if f7 == 0 then std (.aluImmW .sll rd rs1 sh) else none
      | 5 => if f7 == 0 then std (.aluImmW .srl rd rs1 sh) else if f7 == 0x20 then std (.aluImmW .sra rd rs1 sh) else none
      | _ => none
  | 0x33 =>
      if f7 == 1 then std (.mul (rvMul f3) rd rs1 rs2)
      else match rvAlu f7 f3 with
        | some op => std (.alu op rd rs1 rs2)
        | none => none
  | 0x3B =>
      if f7 == 1 then (if f3 == 0 || 4 ≤ f3 then std (.mulW (rvMul f3) rd rs1 rs2) else none)
      else match rvAlu f7 f3 with
        | some op => if op == .add || op == .sub || op == .sll || op == .srl || op == .sra then std (.aluW op rd rs1 rs2) else none
        | none => none
  | 0x2F =>
      if f3 == 2 || f3 == 3 then
        let w64 := f3 == 3
        let aq := w.getLsbD 26
        let rl := w.getLsbD 25
        match (bits w 27 5).toNat with
        | 0x02 => if rs2 == 0 then std (.lr w64 aq rl rd rs1) else none
        | 0x03 => std (.sc w64 aq rl rd rs1 rs2)
        | f5 => match rvAmo f5 with
          | some op => std (.amo op w64 aq rl rd rs1 rs2)
          | none => none
      else none
  | 0x0F =>
      match f3 with
      | 0 => std (.fence (bits w 28 4) (bits w 24 4) (bits w 20 4) rd rs1)
      | 1 => std (.fenceI rd rs1 immI)
      | _ => none
  | 0x73 =>
      match f3 with
      | 0 => if w == 0x00000073 then std .ecall else if w == 0x00100073 then std .ebreak
             else if w == 0x30200073 then std .mret else if w == 0x10500073 then std .wfi else none
      | 1 => some (csrInstr .rw rd (.reg rs1) immI) | 2 => some (csrInstr .rs rd (.reg rs1) immI)
      | 3 => some (csrInstr .rc rd (.reg rs1) immI) | 5 => some (csrInstr .rw rd (.imm rs1) immI)
      | 6 => some (csrInstr .rs rd (.imm rs1) immI) | 7 => some (csrInstr .rc rd (.imm rs1) immI)
      | _ => none
  | 0x0B => decodeCustom w
  | _ => none

/-- A 16-bit encoding of the C extension, expanded (RV64C, without its floating-point forms). -/
def decodeRv16 (w : BitVec 16) : Option Rv :=
  let r8 (lo : Nat) : XReg := 1#2 ++ bits w lo 3
  let rd := bits w 7 5
  let rs2 := bits w 2 5
  let imm6 : BitVec 6 := bits w 12 1 ++ bits w 2 5
  let simm : BitVec 12 := imm6.signExtend 12
  let sp : XReg := 2
  match (bits w 0 2).toNat, (bits w 13 3).toNat with
  | 0, 0 =>
      let u : BitVec 10 := bits w 7 4 ++ bits w 11 2 ++ bits w 5 1 ++ bits w 6 1 ++ 0#2
      if u == 0 then none else some (.aluImm .add (r8 2) sp (u.zeroExtend 12))
  | 0, 2 => some (.load .w true (r8 2) (r8 7) ((bits w 5 1 ++ bits w 10 3 ++ bits w 6 1 ++ 0#2 : BitVec 7).zeroExtend 12))
  | 0, 3 => some (.load .d true (r8 2) (r8 7) ((bits w 5 2 ++ bits w 10 3 ++ 0#3 : BitVec 8).zeroExtend 12))
  | 0, 6 => some (.store .w (r8 7) (r8 2) ((bits w 5 1 ++ bits w 10 3 ++ bits w 6 1 ++ 0#2 : BitVec 7).zeroExtend 12))
  | 0, 7 => some (.store .d (r8 7) (r8 2) ((bits w 5 2 ++ bits w 10 3 ++ 0#3 : BitVec 8).zeroExtend 12))
  | 1, 0 => some (.aluImm .add rd rd simm)
  | 1, 1 => if rd == 0 then none else some (.aluImmW .add rd rd simm)
  | 1, 2 => some (.aluImm .add rd 0 simm)
  | 1, 3 =>
      if imm6 == 0 then none
      else if rd == 2 then
        some (.aluImm .add sp sp ((bits w 12 1 ++ bits w 3 2 ++ bits w 5 1 ++ bits w 2 1 ++ bits w 6 1 ++ 0#4 : BitVec 10).signExtend 12))
      else some (.lui rd (imm6.signExtend 20))
  | 1, 4 =>
      let d := r8 7
      match (bits w 10 2).toNat with
      | 0 => some (.aluImm .srl d d (imm6.zeroExtend 12))
      | 1 => some (.aluImm .sra d d (imm6.zeroExtend 12))
      | 2 => some (.aluImm .and d d simm)
      | _ => match (bits w 12 1).toNat, (bits w 5 2).toNat with
        | 0, 0 => some (.alu .sub d d (r8 2)) | 0, 1 => some (.alu .xor d d (r8 2))
        | 0, 2 => some (.alu .or d d (r8 2)) | 0, 3 => some (.alu .and d d (r8 2))
        | 1, 0 => some (.aluW .sub d d (r8 2)) | 1, 1 => some (.aluW .add d d (r8 2))
        | _, _ => none
  | 1, 5 =>
      some (.jal 0 ((bits w 12 1 ++ bits w 8 1 ++ bits w 9 2 ++ bits w 6 1 ++ bits w 7 1 ++ bits w 2 1 ++ bits w 11 1 ++
        bits w 3 3 ++ 0#1 : BitVec 12).signExtend 21))
  | 1, 6 => some (.branch .eq (r8 7) 0 ((bits w 12 1 ++ bits w 5 2 ++ bits w 2 1 ++ bits w 10 2 ++ bits w 3 2 ++ 0#1 : BitVec 9).signExtend 13))
  | 1, 7 => some (.branch .ne (r8 7) 0 ((bits w 12 1 ++ bits w 5 2 ++ bits w 2 1 ++ bits w 10 2 ++ bits w 3 2 ++ 0#1 : BitVec 9).signExtend 13))
  | 2, 0 => some (.aluImm .sll rd rd (imm6.zeroExtend 12))
  | 2, 2 => if rd == 0 then none else some (.load .w true rd sp ((bits w 2 2 ++ bits w 12 1 ++ bits w 4 3 ++ 0#2 : BitVec 8).zeroExtend 12))
  | 2, 3 => if rd == 0 then none else some (.load .d true rd sp ((bits w 2 3 ++ bits w 12 1 ++ bits w 5 2 ++ 0#3 : BitVec 9).zeroExtend 12))
  | 2, 4 =>
      if bits w 12 1 == 0 then
        (if rs2 == 0 then (if rd == 0 then none else some (.jalr 0 rd 0)) else some (.alu .add rd 0 rs2))
      else if rs2 == 0 then (if rd == 0 then some .ebreak else some (.jalr 1 rd 0))
      else some (.alu .add rd rd rs2)
  | 2, 6 => some (.store .w sp rs2 ((bits w 7 2 ++ bits w 9 4 ++ 0#2 : BitVec 8).zeroExtend 12))
  | 2, 7 => some (.store .d sp rs2 ((bits w 7 3 ++ bits w 10 3 ++ 0#3 : BitVec 9).zeroExtend 12))
  | _, _ => none

/-- The control-core instruction whose lowest 32 bits at pc are `w`: a 16-bit encoding where bits 1:0 are not 11. -/
def decodeRv (w : W32) : Option Instr :=
  if bits w 0 2 == 3 then decodeRv32 w
  else match decodeRv16 (bits w 0 16) with
    | some op => some (.rv64Instruction ⟨op, true⟩)
    | none => none

/-- As `decodeRv`, with the illegal-instruction form for every other word (R151, R177). -/
def decodeRvTotal (w : W32) : Instr :=
  match decodeRv w with
  | some i => i
  | none => .rv64Instruction ⟨.illegal w, bits w 0 2 != 3⟩

/-! ### Queue code (R374, R375, R381) -/

/-- The fields of a queue-code word. -/
def QWord.ofWord (w : W32) : QWord :=
  { d := bits w 23 4, a := bits w 19 4, fn := bits w 16 3, kb := w.getLsbD 15, b := bits w 0 15 }

/-- The register number of a kind-0 B (R374). -/
def QWord.breg (q : QWord) : BitVec 4 := bits q.b 11 4

/-- The instruction of a queue-code opcode (R381), unchecked. -/
def queueInstr (op : BitVec 5) (q : QWord) : Option Instr :=
  match op.toNat with
  | 0x00 => some (.qcNop q) | 0x01 => some (.qcLd q) | 0x02 => some (.qcSt q) | 0x03 => some (.qcAdd q)
  | 0x04 => some (.qcSub q) | 0x05 => some (.qcAnd q) | 0x06 => some (.qcOr q) | 0x07 => some (.qcShl q)
  | 0x08 => some (.qcCmp q) | 0x09 => some (.qBrf q) | 0x0A => some (.qLoop q) | 0x0B => some (.qSigwait q)
  | 0x0C => some (.qSigset q) | 0x0D => some (.qSigadd q)
  | 0x0E => match q.fn.toNat with
    | 0 => some (.qLaunch q) | 1 => some (.qLaunchRi q) | 2 => some (.qLaunchKill q) | 3 => some (.qLaunchInv q) | _ => none
  | 0x0F => some (.qTxb q) | 0x10 => some (.qTxe q) | 0x11 => some (.qPost q) | 0x12 => some (.qIrq q)
  | 0x13 => some (.qRearm q) | 0x14 => some (.qWaittask q) | 0x15 => some (.qEnd q)
  | _ => none

/-- The opcode and fields of a queue-code instruction. -/
def Instr.queue? : Instr → Option (BitVec 5 × QWord)
  | .qcNop q => some (0x00, q) | .qcLd q => some (0x01, q) | .qcSt q => some (0x02, q) | .qcAdd q => some (0x03, q)
  | .qcSub q => some (0x04, q) | .qcAnd q => some (0x05, q) | .qcOr q => some (0x06, q) | .qcShl q => some (0x07, q)
  | .qcCmp q => some (0x08, q) | .qBrf q => some (0x09, q) | .qLoop q => some (0x0A, q) | .qSigwait q => some (0x0B, q)
  | .qSigset q => some (0x0C, q) | .qSigadd q => some (0x0D, q)
  | .qLaunch q => some (0x0E, q) | .qLaunchRi q => some (0x0E, q) | .qLaunchKill q => some (0x0E, q) | .qLaunchInv q => some (0x0E, q)
  | .qTxb q => some (0x0F, q) | .qTxe q => some (0x10, q) | .qPost q => some (0x11, q) | .qIrq q => some (0x12, q)
  | .qRearm q => some (0x13, q) | .qWaittask q => some (0x14, q) | .qEnd q => some (0x15, q)
  | _ => none

/-- The checks of R375 that concern one instruction by itself: LDET 0x01 and 0x02, and the ranges of LOOP (0x04). -/
def queueFails (op : BitVec 5) (q : QWord) : List Nat :=
  let dz := need (q.d == 0) 0x02
  let az := need (q.a == 0) 0x02
  let fz := need (q.fn == 0) 0x01
  let bAny := need (q.kb || bits q.b 0 11 == 0) 0x02
  let bZero := need (!q.kb && q.b == 0) 0x02
  match op.toNat with
  | 0x00 | 0x0F | 0x10 | 0x13 => dz ++ az ++ fz ++ bZero
  | 0x01 | 0x02 => bAny
  | 0x03 | 0x04 | 0x05 | 0x06 | 0x07 | 0x0D => fz ++ bAny
  | 0x08 => need (q.fn.toNat ≤ 5) 0x01 ++ bAny
  | 0x09 => need (q.fn.toNat ≤ 2) 0x01 ++ dz ++ need (q.kb && !q.b.getLsbD 14) 0x02
  | 0x0A => fz ++ need q.kb 0x02 ++
      need (1 ≤ q.b.toInt && q.b.toInt ≤ 4096 && q.d ++ q.a != (0 : BitVec 8)) 0x04
  | 0x0B => need (q.fn.toNat ≤ 2) 0x01 ++ bAny
  | 0x0C => fz ++ dz ++ bAny
  | 0x0E => need (q.fn.toNat ≤ 3) 0x01 ++ (if q.fn == 2 then need (q.kb && q.b == 0) 0x02 else bAny)
  | 0x11 => need (q.fn.toNat ≤ 3) 0x01 ++ bZero
  | 0x12 | 0x15 => dz ++ az ++ fz ++ bAny
  | 0x14 => fz ++ bZero
  | _ => [0x01]

/-- Decode one queue-code word: the instruction, or the LDET of R375. -/
def decodeQueue (w : W32) : Except Nat Instr :=
  let op : BitVec 5 := bits w 27 5
  match lowest (queueFails op (QWord.ofWord w)) with
  | some d => .error d
  | none => match queueInstr op (QWord.ofWord w) with
    | some i => .ok i
    | none => .error 0x01

/-! ### One word of the opcode table -/

/-- The first of the results that is an instruction. -/
def firstOk : List (Except Nat Instr) → Option Instr
  | [] => none
  | .ok i :: _ => some i
  | .error _ :: r => firstOk r

/-- The instruction of a 32-bit word. The table's words are those of the five streams, of the control core and of queue
code, whose encodings overlap: a lane's stream stands in its line's header, not in its word. The order of preference is S,
V, M, X, H, the control core, queue code (log entry 7). -/
def decodeWord32 (w : W32) : Option Instr :=
  match firstOk [decodeLane .s w none none, decodeLane .v w none none, decodeLane .m w none none, decodeLane .x w none none,
      decodeLane .h w none none] with
  | some i => some i
  | none => match decodeRv32 w with
    | some i => some i
    | none => firstOk [decodeQueue w]

/-- The long form of a lane, in the same order of preference. -/
def decodeWord64 (w e : W32) : Option Instr :=
  firstOk [decodeLane .s w (some e) none, decodeLane .v w (some e) none, decodeLane .m w (some e) none,
    decodeLane .x w (some e) none, decodeLane .h w (some e) none]

/-- The instruction whose bits are `w`, bit 0 the least significant bit of its first word: up to 32 bits one word, up to 64
a lane and its extension, beyond that the four words of a tile instruction. -/
def decodeTableWord (nbits w : Nat) : Option Instr :=
  let w32 (i : Nat) : W32 := BitVec.ofNat 32 (w / 2 ^ (32 * i))
  if nbits ≤ 32 then decodeWord32 (w32 0)
  else if nbits ≤ 64 then decodeWord64 (w32 0) (w32 1)
  else if nbits ≤ 128 then decodeTile (w32 0) (w32 1) (w32 2) (w32 3)
  else none

/-! ### The encoder -/

/-- The words of a lane instruction: the lane, its extension, and the chained command's words (R36, R37, R292). -/
def encodeLane (op : BitVec 7) (l : Lane) (ch : Option ChainCmd) : List W32 :=
  Lane.toWord op l :: (l.ext.map Ext.toWord).toList ++
  (match ch with
   | none => []
   | some c => c.word :: c.ext.toList)

/-- The four words of a tile instruction (R50, R334). -/
def encodeTile (top : BitVec 5) (t : Tile) : List W32 := [t.word0 top, t.word1, t.word2, t.word3]

/-- The word of a queue-code instruction (R374). -/
def encodeQueue (op : BitVec 5) (q : QWord) : W32 :=
  op ++ q.d ++ q.a ++ q.fn ++ BitVec.ofBool q.kb ++ q.b

/-- R-type words of custom-0 (R177). -/
def encodeCustom (f7 : BitVec 7) (rs2 rs1 : XReg) (f3 : BitVec 3) (rd : XReg) : W32 :=
  f7 ++ rs2 ++ rs1 ++ f3 ++ rd ++ 0x0B#7

/-- The funct3 of a Zicsr instruction and its rs1 field. -/
def encodeCsr (op : CsrOp) (rd : XReg) (src : CsrSrc) (num : BitVec 12) : W32 :=
  let f3 : BitVec 3 := match op, src with
    | .rw, .reg _ => 1 | .rs, .reg _ => 2 | .rc, .reg _ => 3 | .rw, .imm _ => 5 | .rs, .imm _ => 6 | .rc, .imm _ => 7
  let f : BitVec 5 := match src with | .reg r => r | .imm v => v
  num ++ f ++ f3 ++ rd ++ 0x73#7

/-- funct7 and funct3 of an RV64I operation. -/
def aluFields : RvAlu → BitVec 7 × BitVec 3
  | .add => (0, 0) | .sub => (0x20, 0) | .sll => (0, 1) | .slt => (0, 2) | .sltu => (0, 3)
  | .xor => (0, 4) | .srl => (0, 5) | .sra => (0x20, 5) | .or => (0, 6) | .and => (0, 7)

/-- funct3 of an M operation. -/
def mulField : RvMul → BitVec 3
  | .mul => 0 | .mulh => 1 | .mulhsu => 2 | .mulhu => 3 | .div => 4 | .divu => 5 | .rem => 6 | .remu => 7

/-- funct5 of an A operation. -/
def amoField : RvAmo → BitVec 5
  | .swap => 0x01 | .add => 0x00 | .xor => 0x04 | .and => 0x0C | .or => 0x08 | .min => 0x10 | .max => 0x14
  | .minu => 0x18 | .maxu => 0x1C

/-- funct3 of a branch. -/
def condField : RvCond → BitVec 3
  | .eq => 0 | .ne => 1 | .lt => 4 | .ge => 5 | .ltu => 6 | .geu => 7

/-- funct3 of an access width, unsigned loads adding 4. -/
def widthField (w : RvWidth) (signed : Bool) : BitVec 3 :=
  match w, signed with
  | .b, true => 0 | .h, true => 1 | .w, true => 2 | .d, _ => 3 | .b, false => 4 | .h, false => 5 | .w, false => 6

/-- The 32-bit word of a standard instruction. -/
def encodeRv (i : Rv) : W32 :=
  match i with
  | .lui rd imm => imm ++ rd ++ 0x37#7
  | .auipc rd imm => imm ++ rd ++ 0x17#7
  | .jal rd off => bits off 20 1 ++ bits off 1 10 ++ bits off 11 1 ++ bits off 12 8 ++ rd ++ 0x6F#7
  | .jalr rd rs1 imm => imm ++ rs1 ++ 0#3 ++ rd ++ 0x67#7
  | .branch c rs1 rs2 off =>
      bits off 12 1 ++ bits off 5 6 ++ rs2 ++ rs1 ++ condField c ++ bits off 1 4 ++ bits off 11 1 ++ 0x63#7
  | .load w s rd rs1 imm => imm ++ rs1 ++ widthField w s ++ rd ++ 0x03#7
  | .store w rs1 rs2 imm => bits imm 5 7 ++ rs2 ++ rs1 ++ widthField w true ++ bits imm 0 5 ++ 0x23#7
  | .aluImm op rd rs1 imm =>
      (if op == .sra then 0x10#6 ++ bits imm 0 6 else imm) ++ rs1 ++ (aluFields op).2 ++ rd ++ 0x13#7
  | .aluImmW op rd rs1 imm =>
      (if op == .sra then 0x20#7 ++ bits imm 0 5 else imm) ++ rs1 ++ (aluFields op).2 ++ rd ++ 0x1B#7
  | .alu op rd rs1 rs2 => (aluFields op).1 ++ rs2 ++ rs1 ++ (aluFields op).2 ++ rd ++ 0x33#7
  | .aluW op rd rs1 rs2 => (aluFields op).1 ++ rs2 ++ rs1 ++ (aluFields op).2 ++ rd ++ 0x3B#7
  | .mul op rd rs1 rs2 => 1#7 ++ rs2 ++ rs1 ++ mulField op ++ rd ++ 0x33#7
  | .mulW op rd rs1 rs2 => 1#7 ++ rs2 ++ rs1 ++ mulField op ++ rd ++ 0x3B#7
  | .lr w aq rl rd rs1 => 0x02#5 ++ BitVec.ofBool aq ++ BitVec.ofBool rl ++ 0#5 ++ rs1 ++ (if w then 3#3 else 2#3) ++ rd ++ 0x2F#7
  | .sc w aq rl rd rs1 rs2 => 0x03#5 ++ BitVec.ofBool aq ++ BitVec.ofBool rl ++ rs2 ++ rs1 ++ (if w then 3#3 else 2#3) ++ rd ++ 0x2F#7
  | .amo op w aq rl rd rs1 rs2 =>
      amoField op ++ BitVec.ofBool aq ++ BitVec.ofBool rl ++ rs2 ++ rs1 ++ (if w then 3#3 else 2#3) ++ rd ++ 0x2F#7
  | .fence fm p s rd rs1 => fm ++ p ++ s ++ rs1 ++ 0#3 ++ rd ++ 0x0F#7
  | .fenceI rd rs1 imm => imm ++ rs1 ++ 1#3 ++ rd ++ 0x0F#7
  | .ecall => 0x00000073
  | .ebreak => 0x00100073
  | .csr op rd src num => encodeCsr op rd src num
  | .mret => 0x30200073
  | .wfi => 0x10500073
  | .illegal w => w

/-- The 32-bit word of a control-core instruction; none for the others and for the 16-bit encodings. -/
def encodeControl : Instr → Option W32
  | .cblk a b => some (encodeCustom 0x00 b a 0 0)
  | .cblkw => some (encodeCustom 0x01 0 0 0 0)
  | .cevt d => some (encodeCustom 0x00 0 0 1 d)
  | .cevtNb d => some (encodeCustom 0x01 0 0 1 d)
  | .csemSig a b => some (encodeCustom 0x00 b a 2 0)
  | .csemWait a b => some (encodeCustom 0x01 b a 2 0)
  | .csemTry d a b => some (encodeCustom 0x02 b a 2 d)
  | .csemRd d a => some (encodeCustom 0x03 0 a 2 d)
  | .csemSet a b => some (encodeCustom 0x04 b a 2 0)
  | .cphase s => some (encodeCustom (0#3 ++ s) 0 0 3 0)
  | .cfence s => some (encodeCustom (1#3 ++ s) 0 0 3 0)
  | .cframeRep d => some (encodeCustom 0x00 0 0 4 d)
  | .cframeEnd a => some (encodeCustom 0x01 0 a 4 0)
  | .cresume => some (encodeCustom 0x00 0 0 5 0)
  | .cwid d => some (encodeCustom 0x00 0 0 6 d)
  | .ctis d a => some (encodeCustom 0x01 0 a 6 d)
  | .cpds d a => some (encodeCustom 0x02 0 a 6 d)
  | .rv64Instruction i => if i.short then none else some (encodeRv i.op)
  | .nflagsWrite op rd src => some (encodeCsr op rd src 0x7C0)
  | .dbgctlWrite op rd src => some (encodeCsr op rd src 0x7C1)
  | .ctimecmpWrite op rd src => some (encodeCsr op rd src 0x7C2)
  | .cbankWrite n op rd src => some (encodeCsr op rd src (0b1011110#7 ++ n))
  | _ => none

/-- The words of an instruction that has an encoding; events have none. -/
def encode (i : Instr) : List W32 :=
  match i.lane? with
  | some (_, op, l, ch) => encodeLane op l ch
  | none => match i.tile? with
    | some (top, t) => encodeTile top t
    | none => match i.queue? with
      | some (op, q) => [encodeQueue op q]
      | none => (encodeControl i).toList

end Sys2Proof
end

