-- ==== Sys2Proof/Machine/Ops.lean ====
section
/-! DEFINITION. The named operations over the machine: cores and scratchpads, banks and domains, results in flight, sequencing of
lanes, stops of the streams (R166, R167), and exceptions of the control core with their return (R151, R157). -/
namespace Sys2Proof.Machine

/-! ### Cores, scratchpads and formats -/

/-- Core `n`. -/
def Mach.core (m : Mach) (n : Nat) : Core := nth m.cores n Core.reset

/-- Core `n` replaced. -/
def Mach.setCore (m : Mach) (n : Nat) (c : Core) : Mach := { m with cores := m.cores.set n c }

/-- Core `n` changed by `f`. -/
def Mach.modCore (m : Mach) (n : Nat) (f : Core → Core) : Mach := m.setCore n (f (m.core n))

/-- The core being served. -/
def Mach.me (m : Mach) : Core := m.core m.cur

/-- The core being served changed by `f`. -/
def Mach.modMe (m : Mach) (f : Core → Core) : Mach := m.modCore m.cur f

/-- The quad of a core, 0 to 23 (R8); core 96 + n is what an ended task has left of core n (R150). -/
def quadOf (core : Nat) : Nat := core % 96 / 4

/-- The die of a core (R8). -/
def dieOf (core : Nat) : Nat := core % 96 / 24

/-- A scratchpad level: 0 core, 1 quad, 2 die, as the level codes of R200 and R250. -/
def padAt (core lvl : Nat) : Pad :=
  match lvl with
  | 0 => .core core
  | 1 => .quad (quadOf core)
  | _ => .die (dieOf core)

/-- Bytes of a scratchpad (R124). -/
def Pad.size : Pad → Nat
  | .core _ => 0x180000
  | .quad _ => 0x400000
  | .die _ => 0x2000000

/-- The bank of a core offset (R99). -/
def bankOf (off : Nat) : Nat := 16 * (off / 0x80000) + off % 0x1000 / 0x100

/-- The bank group of a core offset (R99). -/
def groupOf (off : Nat) : Nat := off / 0x80000

/-- The bank or segment of an offset (R99, R124). -/
def Pad.unit (p : Pad) (off : Nat) : Nat :=
  match p with
  | .core _ => bankOf off
  | .quad _ => off / 0x40000
  | .die _ => off / 0x100000

/-- The banks or segments that bytes [off, off + len) touch, each once. -/
def Pad.units (p : Pad) (off len : Nat) : List Nat :=
  ((List.range ((off + len + 255) / 256 - off / 256)).map fun i => p.unit ((off / 256 + i) * 256)).eraseDups

/-- A scratchpad's bytes. -/
def Mach.padMem (m : Mach) : Pad → Memory
  | .core n => (m.core n).pad.mem
  | .quad n => (nth m.quads n Shared.quadReset).mem
  | .die n => (nth m.dies n Shared.dieReset).mem

/-- A scratchpad's bytes replaced. -/
def Mach.setPadMem (m : Mach) (p : Pad) (b : Memory) : Mach :=
  match p with
  | .core n => m.modCore n fun c => { c with pad := { c.pad with mem := b } }
  | .quad n => { m with quads := m.quads.modify n fun q => { q with mem := b } }
  | .die n => { m with dies := m.dies.modify n fun q => { q with mem := b } }

/-- A format register (R87). -/
def Mach.fmtReg (m : Mach) (p : Pad) (i : Nat) : W32 :=
  match p with
  | .core n => nth (m.core n).pad.fmt i 0
  | .quad n => nth (nth m.quads n Shared.quadReset).fmt i 0
  | .die n => nth (nth m.dies n Shared.dieReset).fmt i 0

/-- A format register written. -/
def Mach.setFmtReg (m : Mach) (p : Pad) (i : Nat) (v : W32) : Mach :=
  match p with
  | .core n => m.modCore n fun c => { c with pad := { c.pad with fmt := c.pad.fmt.set i v } }
  | .quad n => { m with quads := m.quads.modify n fun q => { q with fmt := q.fmt.set i v } }
  | .die n => { m with dies := m.dies.modify n fun q => { q with fmt := q.fmt.set i v } }

/-- FMT of a format register (R87). -/
def fmtOf (v : W32) : Fmt := (bits v 0 5).toNat
/-- CLASS of a format register (R87): open. -/
def classOf (v : W32) : Bool := v.getLsbD 13
/-- BST of a format register (R87). -/
def bstOf (v : W32) : Nat := (bits v 14 2).toNat

/-- The bytes of a scratchpad from an offset on. -/
def Mach.padRead (m : Mach) (p : Pad) (off n : Nat) : List Byte := (m.padMem p).readBlock off n

/-- Bytes by offset written to a scratchpad. -/
def Mach.padWrite (m : Mach) (p : Pad) (ws : List (Nat × Byte)) : Mach := m.setPadMem p ((m.padMem p).overlay ws)

/-! ### Power domains (R110 to R121) -/

/-- The domain that holds a bank or segment. -/
def Pad.dom (p : Pad) (i : Nat) : DomRef :=
  match p with
  | .core n => .core n i
  | .quad n => .quad n i
  | .die n => .die n i

/-- Domain LCk's mask bit (R112). -/
def lcBit (k : Nat) : Nat := 48 + k
/-- Domain MX's mask bit (R112). -/
def mxBit : Nat := 52
/-- Domain XE's mask bit (R112). -/
def xeBit : Nat := 53
/-- Domain HV's mask bit (R112). -/
def hvBit : Nat := 54

/-- A power domain's state. -/
def Mach.dom (m : Mach) : DomRef → Dom
  | .core n b => nth (m.core n).doms b Dom.offDom
  | .quad q s => nth (nth m.quads q Shared.quadReset).doms s Dom.offDom
  | .die d s => nth (nth m.dies d Shared.dieReset).doms s Dom.offDom

/-- A power domain's state replaced. -/
def Mach.setDom (m : Mach) (d : DomRef) (v : Dom) : Mach :=
  match d with
  | .core n b => m.modCore n fun c => { c with doms := c.doms.set b v }
  | .quad q s => { m with quads := m.quads.modify q fun x => { x with doms := x.doms.set s v } }
  | .die k s => { m with dies := m.dies.modify k fun x => { x with doms := x.doms.set s v } }

/-- The space code of a domain (R112). -/
def domSpace : DomRef → Nat
  | .core _ _ => 0
  | .quad _ _ => 1
  | .die _ _ => 2

/-- The mask bit of a domain (R112). -/
def domBit : DomRef → Nat
  | .core _ b => b
  | .quad _ s => s
  | .die _ s => s

/-- A domain an instruction issued in cycle `now` may use: ON with no sleep issued before this cycle pending (R117, R118). -/
def Dom.usable (now : Nat) (d : Dom) : Bool := d.st == .on && (d.pend.isNone || d.slept == now)

/-- F.SLEEP with the detail word of R117. -/
def sleepTrap (now : Nat) (r : DomRef) (d : Dom) : Trap :=
  let st : Nat := match d.st with | .off => 0 | .retain => 1 | .waking _ _ => 2 | .on => 3
  let mode : Nat := match d.st, d.pend with | .on, some (_, true) => 1 | _, _ => 0
  let rem : Nat := match d.st with | .waking _ t => min (t - now) 0xFFFF | _ => 0xFFFF
  ⟨0x03, BitVec.ofNat 32 (domSpace r * 2 ^ 30 + domBit r * 2 ^ 24 + st * 2 ^ 22 + mode * 2 ^ 16 + rem), 0⟩

/-- Whether a domain is held by a lingering stream of a task that has ended (R150). -/
def Mach.lingered (m : Mach) (d : DomRef) : Bool :=
  match d with
  | .core n b => n < 96 && m.active.contains (96 + n) && (nth (m.core (96 + n)).doms b Dom.offDom).st != .off
  | .quad q s => m.active.any fun k => 96 ≤ k && quadOf k == q && ((m.core k).bound.any fun b => b.ownQ.getLsbD s)
  | .die d s => m.active.any fun k => 96 ≤ k && dieOf k == d && ((m.core k).bound.any fun b => b.ownD.getLsbD s)

/-- A domain as the tasks now bound see it: OFF while a lingering stream holds it (R150). -/
def Mach.domSeen (m : Mach) (d : DomRef) : Dom := if m.lingered d then Dom.offDom else m.dom d

/-- F.SLEEP for each domain of the list that is not usable. -/
def Mach.sleepTraps (m : Mach) (ds : List DomRef) : List Trap :=
  (ds.filter fun d => !(m.domSeen d).usable m.now).map fun d => sleepTrap m.now d (m.domSeen d)

/-! ### Results in flight (R6, R91) -/

/-- A result added to the core being served. -/
def Core.fly (c : Core) (r : Result) : Core := { c with flight := c.flight ++ [r] }

/-- A plain result of stream `st` issued now and written `lat` cycles later. -/
def Mach.result (m : Mach) (st : Stream) (lat : Nat) (d : Dest) (nfl : Flags) : Result :=
  { w := m.now + lat, issued := m.now, dep := none, st := st.idx, dest := d, nfl := nfl, reads := [], buf := [],
    lane := 0, ext := 0 }

/-- A plain result put in flight. -/
def Mach.write (m : Mach) (st : Stream) (lat : Nat) (d : Dest) (nfl : Flags) : Mach :=
  m.modMe fun c => c.fly (m.result st lat d nfl)

/-- Sticky flags set in cycle `now` (R69). -/
def Core.flag (c : Core) (now : Nat) (f : Flags) : Core :=
  { c with ctl := { c.ctl with nflags := c.ctl.nflags ||| f,
                               nset := (now, if c.ctl.nset.1 = now then c.ctl.nset.2 ||| f else f) } }

/-! ### Records of the event queue (R163, R164) -/

/-- TYPE of an event record (R163). -/
def recordType (w : W64) : Nat := (bits w 60 4).toNat

/-- A record enters the event queue in cycle `now`, before those of this cycle with a higher TYPE; beyond 128 records the last wait for room
(R164). -/
def Core.raise (c : Core) (now : Nat) (w : W64) : Core :=
  let n := if c.events.fresh.1 = now then c.events.fresh.2 else 0
  let all := c.events.q ++ c.events.held
  let old := all.take (all.length - n)
  let new := all.drop (all.length - n)
  let all := old ++ (new.takeWhile fun x => recordType x ≤ recordType w) ++ w :: new.dropWhile fun x => recordType x ≤ recordType w
  { c with events := { q := all.take 128, held := all.drop 128, fresh := (now, n + 1) } }

/-! ### Port cycles and route slots (R100, R101, R298) -/

/-- Whether a group's timed port is booked in a cycle. -/
def Core.portBusy (c : Core) (group cycle : Nat) : Bool := c.pad.ports.any fun b => b.1 == group && b.2.1 == cycle

/-- A port cycle booked; `own` says a stop of the core freezes it. -/
def Core.bookPort (c : Core) (group cycle : Nat) (own : Bool) : Core :=
  { c with pad := { c.pad with ports := (group, cycle, own) :: c.pad.ports } }

/-- F.GROUPCLASH (R101). -/
def clashTrap : Trap := ⟨0x07, 0, 0⟩

/-- F.GROUPCLASH if any of the port cycles is booked. -/
def Core.clashTraps (c : Core) (ps : List (Nat × Nat)) : List Trap :=
  if ps.any (fun p => c.portBusy p.1 p.2) then [clashTrap] else []

/-- Port cycles booked for an access the core issued. -/
def Core.bookPorts (c : Core) (ps : List (Nat × Nat)) : Core := ps.foldl (fun c p => c.bookPort p.1 p.2 true) c

/-! ### Faults -/

/-- The trap with the lowest code, the earliest of equals (R54). Of several domains that are not ON, the spec says which one F.SLEEP names for
lane clusters only (R224): elsewhere the order of the list is the model's choice (log entry 53). -/
def firstTrap : List Trap → Option Trap
  | [] => none
  | t :: r => match firstTrap r with
    | none => some t
    | some u => some (if u.code.toNat < t.code.toNat then u else t)

/-- A trap of the list if the condition fails. -/
def trapUnless (ok : Bool) (code : Byte) (detail : W32) (addr : Nat) : List Trap :=
  if ok then [] else [⟨code, detail, BitVec.ofNat 64 addr⟩]

/-! ### Lanes of blocks and their sequencing (R27, R45, R46, R162) -/

/-- The delay field of a lane or tile instruction (R36, R50). -/
def instrDelay (i : Instr) : Nat :=
  match i.lane? with
  | some (_, _, l, _) => l.d.toNat
  | none => match i.tile? with
    | some (_, t) => t.d.toNat
    | none => 0

/-- A line of the block store. -/
def Seq.lineAt (q : Seq) (i : Nat) : BitVec 256 := ((q.lines.find? fun p => p.1 == i).map Prod.snd).getD 0

/-- A block's directory entry (R158). -/
def Seq.entry (q : Seq) (num : Nat) : Option DirEntry := (q.dir.find? fun p => p.1 == num).map Prod.snd

/-- The first lane of stream `st` in `n` lines from line `line` of a block on, after lane `after` in the first of them. -/
def Seq.findLane (q : Seq) (first : Nat) (st : Stream) : Nat → Nat → Nat → Option (Nat × LineItem)
  | 0, _, _ => none
  | n + 1, line, after =>
    match (lineItems (q.lineAt (first + line))).find? fun it => it.st == st && after < it.lane with
    | some it => some (line, it)
    | none => Seq.findLane q first st n (line + 1) 0

/-- The first lane of a stream in block `num` at or after line `line`, beyond lane `after` of that line. -/
def Seq.laneFrom (q : Seq) (num : Nat) (st : Stream) (line after : Nat) : Option (Nat × LineItem) :=
  match q.entry num with
  | none => none
  | some e => Seq.findLane q e.first st (e.count - line) line after

/-- The streams in their order. -/
def allStreams : List Stream := [.s, .v, .m, .x, .h]

/-- A stream's sequencer. -/
def Core.stream (c : Core) (st : Stream) : StreamSt := nth c.seq.streams st.idx StreamSt.idle

/-- A stream's sequencer changed. -/
def Core.modStream (c : Core) (st : Stream) (f : StreamSt → StreamSt) : Core :=
  { c with seq := { c.seq with streams := c.seq.streams.modify st.idx f } }

/-- The micro-PC of a stream after its lane issued in cycle `now` and occupied it for `busy` more cycles (R45, R47). -/
def Core.advance (c : Core) (st : Stream) (now busy : Nat) : Core :=
  match c.seq.cur with
  | none => c
  | some b =>
    let s := c.stream st
    let go (line rep : Nat) (it : LineItem) : Core := c.modStream st fun s =>
      { s with line := line, lane := it.lane, rep := rep, fill := s.fill - 1, occ := now + busy,
               next := now + busy + instrDelay it.instr + 1 }
    match c.seq.laneFrom b.num st s.line s.lane with
    | some (line, it) => go line s.rep it
    | none =>
      if s.rep + 1 < b.count then
        match c.seq.laneFrom b.num st 0 0 with
        | some (line, it) => go line (s.rep + 1) it
        | none => c
      else c.modStream st fun s => { s with fill := s.fill - 1, occ := now + busy, doneAt := some (now + busy) }

/-! ### Wakes still to start (R114, R123, R346) -/

/-- Wake latency of a domain from OFF or from RETAIN. -/
def wakeLatency (d : DomRef) (fromOff : Bool) : Nat :=
  match d with
  | .core _ b => if b < 48 then (if fromOff then 16 else 4) else if b < 52 then (if fromOff then 40 else 8)
    else if b = 52 then (if fromOff then 96 else 16) else if b = 53 then (if fromOff then 24 else 6) else (if fromOff then 32 else 8)
  | .quad _ _ => if fromOff then 20 else 5
  | .die _ _ => if fromOff then 24 else 6

/-- The number by which a core keeps a wake still to start: its own domains by mask bit, owned segments above them. -/
def wakeCode : DomRef → Nat
  | .core _ b => b
  | .quad _ s => 64 + s
  | .die _ s => 96 + s

/-- The domain of such a number at a core. -/
def wakeDom (core n : Nat) : DomRef :=
  if n < 64 then .core core n else if n < 96 then .quad (quadOf core) (n - 64) else .die (dieOf core) (n - 96)

/-! ### Stops of the streams (R166, R167) -/

/-- A new stop at cycle `cyc`. -/
def Stop.new (cyc : Nat) : Stop :=
  { cyc := cyc, trap := none, intr := false, preempt := false, hold := none, held := false, frameAt := none, shadow := none,
    reissue := none, restart := none, mrec := [] }

/-- Whether a stop is that of a lane's fault. -/
def Stop.ofLane (p : Stop) : Bool := match p.trap with | some (st, _) => st < 5 | none => false

/-- The point a stop in this cycle returns the core's issues to: the machine before the first lane of core `core` in this cycle. -/
def State.restorePoint (s : State) (core : Nat) : Mach :=
  match s.base with
  | some (c, t, b) => if c = core ∧ t = s.m.now then b else s.m
  | none => s.m

/-- The results in flight of a joint operation that started in cycle `now` (R273). -/
def Core.jointNow (c : Core) (now : Nat) : List Result :=
  c.flight.filter fun r => r.issued == now && (match r.dest with | .array _ _ _ _ q => q.isSome | .sem _ _ => true | _ => false)

/-- A core whose results of cycle `now` are taken back: `u` is the core before them (R160, R167). A block start of the cycle is taken back too,
unless it stands because a lane of a stream faults (`started`). A joint operation that started in this cycle stands, with its signal, and its lane
has issued (R276). -/
def Core.unland (c : Core) (started : Bool) (now : Nat) (u : Core) : Core :=
  { c with
    flight := u.flight ++ c.jointNow now
    scal := u.scal
    vec := u.vec
    mx := { c.mx with acc := u.mx.acc, ba := u.mx.ba, bb := u.mx.bb, rings := u.mx.rings }
    xe := u.xe
    hv := u.hv
    glb := u.glb
    pad := { c.pad with mem := u.pad.mem, fmt := u.pad.fmt }
    seq := if started || !(c.jointNow now).isEmpty then c.seq else { c.seq with cur := u.seq.cur, queue := u.seq.queue, streams := u.seq.streams }
    ctl := { c.ctl with nflags := u.ctl.nflags, nset := u.ctl.nset
                        cbankT0 := if started then c.ctl.cbankT0 else u.ctl.cbankT0
                        dbg := if started then c.ctl.dbg else u.ctl.dbg } }

/-- A landing in this cycle: `f` of the machine. Before the first landing of a core's `own` that a stop would freeze, the core is kept as it
stands; other landings also happen to the cores that are kept (R167). -/
def State.land (s : State) (core : Nat) (own : Bool) (f : Mach → Mach) : State :=
  let kept := s.undo.map fun x => if own && x.1 == core then x else (x.1, (f (s.m.setCore x.1 x.2)).core x.1)
  { s with m := f s.m
           undo := if own && !(s.undo.any fun x => x.1 == core) then (core, s.m.core core) :: kept else kept }

/-- The core's streams stopped in this cycle (R166, R167): no lane issued in this cycle has effect, but for the publication and
refresh of a PHASE (R209), which `again` repeats, and no result due in it has landed. A core already stopped keeps its stop, changed by `f`. -/
def State.stopCore (s : State) (core : Nat) (again : Mach → Nat → BitVec 4 → Mach) (f : Stop → Stop) : State :=
  match (s.m.core core).stop with
  | some st => { s with m := s.m.modCore core fun c => { c with stop := some (f st) } }
  | none =>
    let b := s.restorePoint core
    let b := match (s.m.core core).scal.phase with
      | some (t, x) => if t = s.m.now then again b core x else b
      | none => b
    let p := f (Stop.new s.m.now)
    let b := match s.undo.find? fun x => x.1 == core with
      | some x => b.modCore core fun c => c.unland p.ofLane s.m.now x.2
      | none => b
    let b := b.modCore core fun c => { c with stop := some p }
    { m := { b with cur := s.m.cur }, base := none, undo := s.undo }

/-- The frame's fault of a trap in stream `st` (7: none) joined to a stop; the stream first in order is kept (R54). -/
def Stop.withTrap (st : Nat) (t : Trap) (p : Stop) : Stop :=
  match p.trap with
  | none => { p with trap := some (st, t) }
  | some (st', _) => if st < st' then { p with trap := some (st, t) } else p

/-- How a lane ends in its issue cycle. -/
inductive LaneOut where
  /-- It issues: the machine with its effect, and the further cycles it occupies its stream. -/
  | done (m : Mach) (busy : Nat)
  /-- It is held and tries again in the next cycle. -/
  | hold (m : Mach)
  /-- It traps and has no effect. -/
  | trap (t : Trap)

/-- A lane that is checked: it traps with the first fault of the list (R54), or issues. -/
def checked (ts : List Trap) (go : LaneOut) : LaneOut :=
  match firstTrap ts with
  | some t => .trap t
  | none => go

/-! ### Exceptions of the control core (R151, R157) -/

/-- mstatus.MIE. -/
def Ctl.mieBit (c : Ctl) : Bool := c.mstatus.getLsbD 3

/-- Entry to a trap or interrupt handler: mepc, mcause and mtval written, MPIE := MIE, MIE := 0, and the pc at the handler, as the
RISC-V privileged specification defines for machine mode. -/
def Ctl.enter (c : Ctl) (cause : W64) (tval : W64) (now delay : Nat) : Ctl :=
  let base := c.mtvec &&& 0xFFFFFFFFFFFFFFFC
  let vectored := c.mtvec.getLsbD 0 && cause.getLsbD 63
  { c with
    mepc := c.pc, mcause := cause, mtval := tval,
    mstatus := (c.mstatus &&& 0xFFFFFFFFFFFFFF77) ||| (if c.mieBit then 0x80 else 0) ||| 0x1800,
    pc := if vectored then base + 4 * (cause &&& 0x7FFFFFFFFFFFFFFF) else base,
    ready := now + delay, wait := none }

/-- A synchronous exception of the instruction at pc: one cycle for the instruction, two for the entry (R154). -/
def Ctl.except (c : Ctl) (cause tval : Nat) (now : Nat) : Ctl :=
  c.enter (BitVec.ofNat 64 cause) (BitVec.ofNat 64 tval) now 3

/-- An interrupt taken before the instruction at pc (R154, R157). -/
def Ctl.interrupt (c : Ctl) (code now : Nat) : Ctl :=
  c.enter (BitVec.ofNat 64 (2 ^ 63 + code)) 0 now 2

/-- Return from a handler: mret (R151). -/
def Ctl.mret (c : Ctl) (now : Nat) : Ctl :=
  { c with
    pc := c.mepc,
    mstatus := (c.mstatus &&& 0xFFFFFFFFFFFFFF77) ||| (if c.mstatus.getLsbD 7 then 0x08 else 0) ||| 0x80 ||| 0x1800,
    ready := now + 2 }

/-- The control core changed. -/
def Mach.modCtl (m : Mach) (f : Ctl → Ctl) : Mach := m.modMe fun c => { c with ctl := f c.ctl }

end Sys2Proof.Machine
end

