-- ==== Sys2Proof/Machine/Glob.lean ====
section
/-! DEFINITION. Global memory: publications and views (R137 to R141), footprints (R133), translation (R307 to R311), and atomics at a
controller (R143, R144). -/
namespace Sys2Proof.Machine

/-! ### Scopes, publication and refresh -/

/-- Whether a scope of a core contains another core (R135, R136): `part`, `part'` their partitions. -/
def scopeHas (scope : Nat) (c part c' part' : Nat) : Bool :=
  if scope ≥ 8 then true
  else if scope ≤ 1 then c == c'
  else part == part' && (if scope = 2 then quadOf c == quadOf c' else if scope = 3 then dieOf c == dieOf c' else true)

/-- The partition of a bound core. -/
def Core.part (c : Core) : Nat := (c.bound.map Bind.part).getD 0

/-- Whether a write is published to a scope that contains a core (R138). -/
def Pub.reaches (p : Pub) (c part : Nat) : Bool :=
  match p.core with
  | none => true
  | some k => scopeHas p.scope.toNat k p.part c part

/-- Memory as it stands after every write published to a scope that contains a core (R138). -/
def Mach.viewOf (m : Mach) (core part : Nat) : Memory :=
  (m.pubs.filter fun p => p.reaches core part).foldl (fun v p => v.overlay p.bytes) []

/-- The refresh of R138 at a core: its view takes every write that reaches it, in their order: those it has not read, or all, where one it has read
was published more widely since. -/
def Mach.refresh (m : Mach) (core : Nat) : Mach :=
  m.modCore core fun c =>
    let news := (m.pubs.drop c.glb.seen).filter fun p => p.reaches core c.part
    let wider := (m.pubs.take c.glb.seen).any fun p => !(c.glb.refreshed.any fun t => p.wide ≤ t)
    { c with glb := { c.glb with
        view := if wider then m.viewOf core c.part else news.foldl (fun v p => v.overlay p.bytes) c.glb.view
        seen := m.pubs.length
        refreshed := some m.now
        writes := (c.glb.writes.map fun w => if w.pub.isSome then { w with fresh := false } else w).filter fun w =>
          !w.dead && !(w.pub == some 8 && !w.fresh) } }

/-- Whether a write of a core is still to be published to a scope by a boundary of cycle `cut` (R138). -/
def GWrite.due (w : GWrite) (scope : BitVec 4) (cut : Nat) : Bool :=
  w.issued < cut && w.acked && !w.dead && (match w.pub with | none => true | some x => x.toNat < scope.toNat)

/-- Whether a publication of this cycle takes effect after one of a core of linear number `lin` (R140). -/
def Pub.after (p : Pub) (now lin : Nat) : Bool := p.core.isSome && p.cyc == now && lin < p.lin

/-- The bytes of a publication that none of later ones covers. -/
def Pub.bytesBefore (p : Pub) (later : List Pub) : List (Nat × Byte) :=
  p.bytes.filter fun b => !(later.any fun q => q.bytes.any fun x => x.1 == b.1)

/-- A write is published for the first time: after those of earlier cycles and, within one cycle, in ascending linear core number (R140). It
reaches memory, and at once the cores that have refreshed in this cycle (R138). -/
def Mach.addPub (m : Mach) (p : Pub) : Mach :=
  let later := m.pubs.filter fun q => q.after m.now p.lin
  let rest := m.pubs.filter fun q => !q.after m.now p.lin
  { m with
    pubs := rest ++ p :: later
    dev := m.dev.overlay (p.bytesBefore later)
    sys := if p.core.isNone || 8 ≤ p.scope.toNat then
        m.sys.overlay (p.bytesBefore (later.filter fun q => q.core.isNone || 8 ≤ q.scope.toNat))
      else m.sys
    cores := ((List.range m.cores.length).zip m.cores).map fun x =>
      if x.2.glb.refreshed == some m.now && x.2.bound.isSome then
        { x.2 with glb := { x.2.glb with
            seen := x.2.glb.seen + 1
            view := if p.reaches x.1 x.2.part then
                x.2.glb.view.overlay (p.bytesBefore (later.filter fun q => q.reaches x.1 x.2.part))
              else x.2.glb.view } }
      else x.2 }

/-- Device memory as an observer sees it to whom what is published to `scope` or wider is published: 6 for a host agent (R141). -/
def Mach.observed (m : Mach) (scope : Nat) : Memory :=
  (m.pubs.filter fun p => p.core.isNone || scope ≤ p.scope.toNat).foldl (fun v p => v.overlay p.bytes) []

/-- Published writes become published to a wider scope: they keep their places and gain observers (R138), among them the cores that have
refreshed in this cycle. -/
def Mach.widen (m : Mach) (nos : List Nat) (scope : BitVec 4) : Mach :=
  if nos.isEmpty then m
  else
    let m : Mach := { m with pubs := m.pubs.map fun p => if nos.contains p.no then { p with scope := scope, wide := m.now } else p }
    { m with
      sys := if 8 ≤ scope.toNat then m.observed 8 else m.sys
      cores := ((List.range m.cores.length).zip m.cores).map fun x =>
        if x.2.glb.refreshed == some m.now && x.2.bound.isSome then
          { x.2 with glb := { x.2.glb with view := ({ m with pubs := m.pubs.take x.2.glb.seen } : Mach).viewOf x.1 x.2.part } }
        else x.2 }

/-- The first publication of a core's write, which keeps its number (R138). -/
def Mach.publishNew (m : Mach) (core : Nat) (scope : BitVec 4) (w : GWrite) : Mach :=
  let b := (m.core core).bound
  let no := m.pubs.length
  let m := m.addPub { no := no, core := some core, task := (b.map Bind.task).getD 0, part := (m.core core).part, scope := scope,
                      bytes := w.bytes, cyc := m.now, wide := m.now, lin := (b.map Bind.linear).getD 0 }
  m.modCore core fun c => { c with glb := { c.glb with
    writes := c.glb.writes.map fun x => if x.id == w.id then { x with pub := some scope, pubNo := no } else x } }

/-- The publication of R138 at a core: every acknowledged write issued before cycle `cut` and not yet published to the scope. -/
def Mach.publish (m : Mach) (core : Nat) (scope : BitVec 4) (cut : Nat) : Mach :=
  let ws := (m.core core).glb.writes.filter fun w => w.due scope cut
  let m := m.widen ((ws.filter fun w => w.pub.isSome).map GWrite.pubNo) scope
  let m := (ws.filter fun w => w.pub.isNone).foldl (fun m w => m.publishNew core scope w) m
  m.modCore core fun c => { c with glb := { c.glb with
    writes := c.glb.writes.map fun w => if w.due scope cut then { w with pub := some scope } else w } }

/-- A boundary of a scope at a core for the writes issued before cycle `cut`: publication, then refresh, in one cycle (R138). -/
def Mach.boundaryOf (m : Mach) (core : Nat) (scope : BitVec 4) (cut : Nat) : Mach := (m.publish core scope cut).refresh core

/-- A boundary of a scope at a core for every write issued (R138). -/
def Mach.boundary (m : Mach) (core : Nat) (scope : BitVec 4) : Mach := m.boundaryOf core scope (m.now + 1)

/-- Whether a boundary of a scope waits for a copy, by the SPACE of its destination (R137, R138, R286): one to global memory, other than by
atomics, always; one to host memory or to a peer where the scope covers that memory (R135, R142). -/
def Copy.awaited (k : Copy) (scope : Nat) : Bool :=
  match (bits k.desc 124 4).toNat with
  | 3 => k.op != 4
  | 4 => 6 ≤ scope
  | 5 => 7 ≤ scope
  | _ => false

/-- Whether a boundary of a scope for the writes issued before cycle `cut` waits for none in cycle `now` (R138): each was acknowledged before this
cycle or has faulted, and so was every copy it waits for but those that `but` leaves out. -/
def Core.quietBut (c : Core) (but : Copy → Bool) (scope now cut : Nat) : Bool :=
  (c.glb.writes.all fun w => cut ≤ w.issued || w.acked || w.dead) &&
  c.xe.copies.all fun k => cut ≤ k.issued || !k.awaited scope || (match k.doneAt with | some t => t < now | none => false) || but k

/-- The same for every write and copy (R138). -/
def Core.quietFor (c : Core) (scope now cut : Nat) : Bool := c.quietBut (fun _ => false) scope now cut

/-- Whether a boundary of a scope at the core waits for no write in cycle `now` (R138). -/
def Core.quiet (c : Core) (scope : BitVec 4) (now : Nat) : Bool := c.quietFor scope.toNat now (now + 1)

/-- A boundary that nothing holds back (R137, R138): it takes effect in this cycle if it waits for no write, and else in the cycle after its
last acknowledgement. -/
def Mach.postBoundary (m : Mach) (core : Nat) (scope : BitVec 4) : Mach :=
  if (m.core core).quiet scope m.now then m.boundary core scope
  else m.modCore core fun c => { c with glb := { c.glb with bounds := c.glb.bounds ++ [(scope, m.now + 1)] } }

/-- The posted boundary of a core that takes effect in this cycle. -/
def Core.boundDue (c : Core) (now : Nat) : Option (BitVec 4 × Nat) := c.glb.bounds.find? fun b => c.quietFor b.1.toNat now b.2

/-- A posted boundary takes effect. -/
def Mach.takeBound (m : Mach) (core : Nat) : Mach :=
  match (m.core core).boundDue m.now with
  | none => m
  | some b => (m.modCore core fun c => { c with glb := { c.glb with bounds := c.glb.bounds.erase b } }).boundaryOf core b.1 b.2

/-- A write of an outside agent or of the hub to device memory, published to .sys (R141, R380). -/
def Mach.devWrite (m : Mach) (bytes : List (Nat × Byte)) : Mach :=
  m.addPub { no := m.pubs.length, core := none, task := 0, part := 0, scope := 8, bytes := bytes, cyc := m.now, wide := m.now, lin := 96 }

/-- An atomic's or a walker's change of device memory: in every view at once, and among the publications for cores that take up a
view later (R139, R145). -/
def Mach.devAtomic (m : Mach) (bytes : List (Nat × Byte)) : Mach :=
  let m := m.devWrite bytes
  { m with cores := m.cores.map fun c =>
             if c.bound.isSome then { c with glb := { c.glb with view := c.glb.view.overlay bytes } } else c }

/-- Registered save images that a host's write touches are spoilt (R414). -/
def Mach.spoil (m : Mach) (bytes : List (Nat × Byte)) : Mach :=
  { m with hub := { m.hub with mgmt := { m.hub.mgmt with images := m.hub.mgmt.images.map fun x =>
      if x.reg && (bytes.any fun b => x.area ≤ b.1 && b.1 < x.area + x.bytes.length) then { x with spoilt := true } else x } } }

/-- A save image made by another module is in this package's memory (R418): the loader knows its private part. -/
def Mach.carryImage (m : Mach) (x : SaveImage) : Mach :=
  { m with hub := { m.hub with mgmt := { m.hub.mgmt with images := m.hub.mgmt.images ++ [{ x with reg := false, spoilt := false }] } } }

/-- The device address behind an address of the host link that an HDM decoder of the CXL type-2 device takes (R427): decoder `s` holds the frames of
stack `s` in turn, up to 48 GiB of them (log entry 78). -/
def Mach.hdmAddr (m : Mach) (a : Nat) : Option Nat :=
  let ds := m.module.hdm.getD []
  (List.range 8).findSome? fun s => match ds[s]? with
    | some (base, len) =>
      if base ≤ a && a - base < len && a - base < 0x10000 * Config.stackPages then
        some ((Config.hbmMap.symm (BitVec.ofNat 32 (s * Config.stackPages + (a - base) / 0x10000))).toNat * 0x10000 + (a - base) % 0x10000)
      else none
    | none => none

/-- What a host reads through CXL.mem (R427): as a host agent, device memory as published to .node or wider (R141). -/
def Mach.hdmRead (m : Mach) (a : Nat) : Option Byte := (m.hdmAddr a).map fun d => (m.observed 6).read d

/-- The RAILST bits of the 6 V bus and of every die rail (R439). -/
def railsGood : W32 := 0x17FFFF

/-- A rail that leaves its tolerance, or regains it (R437, R439): its RAILST bit follows, and RAILFLT latches the event. -/
def Module.setRail (x : Module) (n now : Nat) (within : Bool) : Module :=
  if within then
    if x.outs.any fun o => o.1 == n then { x with railst := x.railst ||| BitVec.ofNat 32 (2 ^ n), outs := x.outs.filter fun o => o.1 != n } else x
  else if x.powered && x.railst.getLsbD n && railsGood.getLsbD n then
    { x with railst := x.railst &&& ~~~BitVec.ofNat 32 (2 ^ n), railflt := x.railflt ||| BitVec.ofNat 32 (2 ^ n), outs := x.outs ++ [(n, now)] }
  else x

/-- What comes from an agent outside arrives (R141): a write to device memory is published to .sys as it is acknowledged. -/
def Mach.arrive (m : Mach) (a : Arrival) : Mach :=
  match a with
  | .dev bs => (m.devWrite bs).spoil bs
  | .image x => ((m.devWrite (atAddr x.area x.bytes)).spoil (atAddr x.area x.bytes)).carryImage x
  | .host bs => { m with host := m.host.overlay bs }
  | .peer num bs =>
    let old := ((m.peers.find? fun p => p.1 == num).map Prod.snd).getD []
    { m with peers := (num, old.overlay bs) :: m.peers.filter fun p => p.1 != num }
  | .corrected n => { m with module := { m.module with memerr := (m.module.memerr &&& 0xFFFFFFFF00000000) |||
      ((m.module.memerr.setWidth 32 + BitVec.ofNat 32 n : W32).setWidth 64) } }
  | .cxl hdm => { m with module := { m.module with hdm := hdm } }
  | .mem a bs =>
    let ws := (atAddr a bs).filterMap fun b => (m.hdmAddr b.1).map fun d => (d, b.2)
    (m.devWrite ws).spoil ws
  | .rail n within => { m with module := m.module.setRail n m.now within }

/-- The byte a core's ordinary read of a device address returns (R139): the core's latest own write since its refresh, else its view.
A load sees earlier STGs (`before` bounds their numbers) and completed copies; a copy (no bound) sees what has completed. -/
def Core.globByte (c : Core) (before : Option Nat) (a : Nat) : Byte :=
  let own := c.glb.writes.filter fun w => w.fresh && !w.dead && (match before with
    | some n => if w.stg then w.id < n else w.acked
    | none => w.acked)
  match (own.reverse.flatMap fun w => w.bytes.reverse).find? fun b => b.1 == a with
  | some b => b.2
  | none => c.glb.view.read a

/-- `n` bytes read by a core from a device address. -/
def Core.globRead (c : Core) (before : Option Nat) (a n : Nat) : List Byte :=
  if c.glb.writes.any fun w => w.fresh && !w.dead then (List.range n).map fun i => c.globByte before (a + i)
  else c.glb.view.readBlock a n

/-! ### Footprints (R133) -/

/-- Whether regions that `ok` admits cover `n` bytes from `a` on, in at most `fuel` pieces. -/
def covered (rs : List Region) (ok : Region → Bool) : Nat → Nat → Nat → Bool
  | _, _, 0 => true
  | 0, _, _ => false
  | fuel + 1, a, n =>
    let ends := (rs.filter fun r => ok r && r.start ≤ a && a < r.start + r.len).map fun r => r.start + r.len
    let e := ends.foldl max 0
    if e ≤ a then false else covered rs ok fuel e (n - (e - a))

/-- The three kinds of access of R309. -/
inductive Access where
  | read | write | atomic
  deriving DecidableEq, Repr

/-- The footprint check of R133. -/
def Bind.footOk (b : Bind) (k : Access) (a n : Nat) : Bool :=
  covered b.foot (fun r => match k with | .read => r.r | .write => r.w | .atomic => r.r && r.w) (b.foot.length + 1) a n

/-! ### Translation (R307 to R311) -/

/-- The end of a walk: a leaf (page base, page size, R, W, D, address of the entry), a migrating page, or a fault with its
detail word (R308, R309). -/
inductive WalkEnd where
  | leaf (base size : Nat) (r w d : Bool) (entry : Nat)
  | pull (gpa : Nat)
  | fault (code : Byte) (detail : W32)
  deriving DecidableEq, Repr

/-- Shift of the index of a level (R307). -/
def lvlShift : Nat → Nat | 0 => 39 | 1 => 30 | 2 => 21 | _ => 16
/-- The level of a leaf of a size (R307). -/
def leafLvl (size : Nat) : Nat := if size = 2 ^ 30 then 1 else if size = 2 ^ 21 then 2 else 3
/-- Index bits of a level (R307). -/
def lvlBits : Nat → Nat | 0 => 9 | 1 => 9 | 2 => 9 | _ => 5

/-- DETAIL of a translation fault (R309). -/
def walkDetail (stage lvl : Nat) (k : Access) (tbl : Option Nat) : W32 :=
  BitVec.ofNat 32 ((stage - 1) * 2 ^ 31 + lvl * 2 ^ 28 + (if k = .write then 2 ^ 27 else 0) + (if k = .atomic then 2 ^ 26 else 0) +
    (match tbl with | some l => 2 ^ 25 + l * 2 ^ 22 | none => 0))

/-- Whether a leaf's rights allow an access (R309). -/
def Access.allowed (k : Access) (r w : Bool) : Bool :=
  match k with | .read => r | .write => w | .atomic => r && w

/-- A walk of one stage from level `lvl` on (R307, R308): `entryAt` gives an entry's device address, or the end that reaching it
meets; `need` is the right the leaf must grant, `k` the access that started the translation. -/
def walkStage (dev : Memory) (stage : Nat) (k need : Access) (tbl : Option Nat) (entryAt : Nat → Nat → Except WalkEnd Nat)
    (addr : Nat) : Nat → Nat → Nat → WalkEnd
  | 0, lvl, _ => .fault 0x11 (walkDetail stage lvl k tbl)
  | fuel + 1, lvl, table =>
    let ea := table + 8 * (addr / 2 ^ lvlShift lvl % 2 ^ lvlBits lvl)
    match entryAt lvl ea with
    | .error e => e
    | .ok pe =>
      let e := dev.value pe 8
      let bit (i : Nat) : Bool := e / 2 ^ i % 2 == 1
      let leaf := bit 1
      let next := e / 2 ^ 8 % 2 ^ 40 * 2 ^ 8
      let align := if leaf then 2 ^ lvlShift lvl else if lvl = 2 then 0x100 else 0x1000
      let bad := !bit 0 || e / 2 ^ 48 != 0 || bit 4 || bit 5 || (stage == 1 && (bit 6 || bit 7)) || (leaf && lvl == 0) ||
        (!leaf && (lvl == 3 || bit 6 || bit 7)) || next % align != 0
      if bad then .fault 0x11 (walkDetail stage lvl k tbl)
      else if leaf then
        if stage == 2 && bit 7 then .pull (addr / 2 ^ lvlShift lvl * 2 ^ lvlShift lvl)
        else if !need.allowed (bit 2) (bit 3) then .fault 0x12 (walkDetail stage lvl k tbl)
        else .leaf next (2 ^ lvlShift lvl) (bit 2) (bit 3) (bit 6) pe
      else walkStage dev stage k need tbl entryAt addr fuel (lvl + 1) next

/-- Stage 2 of a guest physical address (R307); `tbl` names the stage-1 level whose table is being reached. -/
def walk2 (dev : Memory) (root gpa : Nat) (k need : Access) (tbl : Option Nat) : WalkEnd :=
  walkStage dev 2 k need tbl (fun _ ea => .ok ea) gpa 4 0 root

/-- A translation found by both walks (R307): device address, page of the smaller stage, rights and D, guest address, and the
stage-2 entry, with the rights of the stage-1 leaf and the levels of both leaves. -/
structure Found where
  pa    : Nat
  size  : Nat
  r     : Bool
  w     : Bool
  d     : Bool
  gpa   : Nat
  entry : Nat
  r1    : Bool
  w1    : Bool
  l1    : Nat
  l2    : Nat
  deriving DecidableEq, Repr

/-- The translation of a task address by both stages (R307): found, or the end of the walk. -/
def walk12 (dev : Memory) (root1 root2 va : Nat) (k : Access) : Except WalkEnd Found :=
  let s1 := walkStage dev 1 k k none (fun lvl ea => match walk2 dev root2 ea k .read (some lvl) with
    | .leaf b sz _ _ _ _ => .ok (b + ea % sz)
    | e => .error e) va 4 0 root1
  match s1 with
  | .leaf b1 sz1 r1 w1 _ _ =>
    let gpa := b1 + va % sz1
    match walk2 dev root2 gpa k k none with
    | .leaf b2 sz2 r2 w2 d2 e2 => .ok ⟨b2 + gpa % sz2, min sz1 sz2, r1 && r2, w1 && w2, d2, gpa, e2, r1, w1, leafLvl sz1, leafLvl sz2⟩
    | e => .error e
  | e => .error e

/-- Whether an access writes. -/
def Access.writes : Access → Bool | .read => false | _ => true

/-! ### Flits to a peer (R429, R430) -/

/-- The links of a peer entry that are up. -/
def Mach.liveLinks (m : Mach) (p : PeerEntry) : List Nat :=
  (List.range 16).filter fun i => p.links.getLsbD i && (m.module.links[i]?).any Link.up

/-- A flit put on a link, under the next SEQ. -/
def Link.put (l : Link) (p : PeerEntry) (type : BitVec 16) (x : FlitLoad) : Link :=
  { l with last := l.last + 1, out := l.out ++ [⟨l.last + 1, type, p, x⟩] }

/-- Flits sent to a peer, all on one of its live links, which is open (log entry 36); none where no link is live. -/
def Mach.sendFlits (m : Mach) (p : PeerEntry) (type : BitVec 16) (xs : List FlitLoad) : Mach :=
  let live := m.liveLinks p
  if live.isEmpty then m
  else
    let i := nth live (Config.freeNat m.free % live.length) 0
    { m with free := m.free + 1, module := { m.module with links := m.module.links.modify i fun l => xs.foldl (fun l x => l.put p type x) l } }

/-- A page pull of a function asked for, unless it is already under way (R419). -/
def Mach.askPull (m : Mach) (f gpa : Nat) : Mach :=
  let x := nth m.hub.fns f Fn.reset
  if x.pulls.any fun p => p.1 == gpa then m
  else
    let m := { m with hub := { m.hub with fns := m.hub.fns.modify f fun x => { x with pulls := x.pulls ++ [(gpa, m.now)] } } }
    match x.pull.bind fun p => x.peers.find? fun e => e.num == p.peer with
    | some e => m.sendFlits e 1 [.pull f gpa]
    | none => m

/-- The walk of a core's access, done to its end: the D bit set for a write (R308) and the translation entered in the micro-TLB,
oldest entry first out (R310; log entry 10), or a fault or a page to be pulled. -/
def Mach.walkCore (m : Mach) (core va : Nat) (k : Access) : Mach × Except WalkEnd Nat :=
  match (m.core core).bound with
  | none => (m, .error (.fault 0x11 0))
  | some b =>
    match walk12 m.dev b.s1root b.s2root va k with
    | .error (.pull g) => (m.askPull b.fn g, .error (.pull g))
    | .error e => (m, .error e)
    | .ok f =>
      let m := if k.writes && !f.d then m.devAtomic (atAddr f.entry (leBytes 8 (m.dev.value f.entry 8 ||| 0x40))) else m
      let t : TlbEntry := { va := va / f.size * f.size, pa := f.pa / f.size * f.size, gpa := f.gpa / f.size * f.size, size := f.size,
                            r := f.r, w := f.w, d := f.d || k.writes, r1 := f.r1, w1 := f.w1, l1 := f.l1, l2 := f.l2 }
      (m.modCore core fun c => { c with glb := { c.glb with
        tlb := (c.glb.tlb.filter fun x => x.va != t.va || x.size != t.size).drop (if c.glb.tlb.length ≥ 32 then 1 else 0) ++ [t] } },
       .ok f.pa)

/-- The micro-TLB's entry for an address (R310). -/
def Core.tlbEntry (c : Core) (va : Nat) : Option TlbEntry := c.glb.tlb.find? fun t => t.va ≤ va && va < t.va + t.size

/-- The micro-TLB's answer (R168, R310): the device address, or none on a miss. A write through an entry whose D is 0 is a miss: the walker
sets D first (R308). -/
def Core.tlbHit (c : Core) (va : Nat) (k : Access) : Option Nat :=
  ((c.tlbEntry va).filter fun t => k.allowed t.r t.w && (!k.writes || t.d)).map fun t => t.pa + (va - t.va)

/-- F.PERM found in the micro-TLB's entry, precise at the access (R168, R203, R309): of the stage-1 leaf, else of the stage-2 leaf. -/
def Core.tlbTraps (c : Core) (va : Nat) (k : Access) : List Trap :=
  match c.tlbEntry va with
  | none => []
  | some t =>
    if k.allowed t.r t.w then []
    else
      let d := if k.allowed t.r1 t.w1 then walkDetail 2 t.l2 k none else walkDetail 1 t.l1 k none
      [⟨0x12, d, BitVec.ofNat 64 va⟩]

/-- The guest pages of the entry by which the micro-TLB translates an address: base and size. -/
def Core.tlbPages (c : Core) (va : Nat) : Option (Nat × Nat) := (c.tlbEntry va).map fun t => (t.gpa, t.size)

/-- The pinned window that holds bytes [va, va + n) (R311). -/
def Bind.pin (b : Bind) (va n : Nat) : Option PinWin :=
  b.pins.find? fun p => (p.r || p.w) && p.vbase ≤ va && va + n ≤ p.vbase + p.units * 0x10000

/-! ### Atomics (R143) -/

/-- The new value of a location of `n` bits (R143), with the flags of fadd. -/
def AtomOp.apply (a : AtomOp) (old : Nat) : Nat × Flags :=
  let n := if a.w64 then 64 else 32
  let v := a.val.toNat % 2 ^ n
  let o := decInt n (!a.unsig) old
  let x := decInt n (!a.unsig) v
  match a.op.toNat with
  | 0 => ((old + v) % 2 ^ n, 0)
  | 1 => (if x < o then v else old, 0)
  | 2 => (if o < x then v else old, 0)
  | 3 => (v, 0)
  | 4 => (if old = a.cmp.toNat % 2 ^ n then v else old, 0)
  | _ =>
    let s := Val.add false (fp32.dec old) (fp32.dec v)
    let r := rne32 s
    (r.1, r.2 ||| invalid [fp32.dec old, fp32.dec v] s)

/-- The value an ATOM writes to its register (R205). -/
def AtomOp.returned (a : AtomOp) (old : Nat) : W64 :=
  if a.w64 then BitVec.ofNat 64 old
  else if a.unsig || a.op == 5 then BitVec.ofNat 64 old else BitVec.ofInt 64 (decInt 32 true old)

end Sys2Proof.Machine
end

