-- ==== Sys2Proof/Machine/Operands.lean ====
section
/-! DEFINITION. Operand forms of the streams (R36 to R44, R189 to R192, R220 to R227, R314, R317), the holds they meet and the
stale-read check of debug mode (R93). -/
namespace Sys2Proof.Machine

/-! ### Locations and stale reads (R93) -/

/-- A location that carries a pending bit in debug mode (R93); `word` is a 32-bit word of the core scratchpad by index. -/
inductive Loc where
  | s (n : Nat)
  | p (n : Nat)
  | v (n : Nat)
  | m (n : Nat)
  | a (n : Nat)
  | ba (n : Nat)
  | bb (n : Nat)
  | h (n : Nat)
  | k (n : Nat)
  | ring (n : Nat)
  | gd (n : Nat)
  | hvctl
  | word (i : Nat)
  deriving DecidableEq, Repr

/-- Whether a result in flight writes a location (words of the core scratchpad apart). -/
def Dest.covers (d : Dest) (x : Loc) : Bool :=
  match d, x with
  | .s n _, .s k => n.toNat == k && k != 0
  | .sLoad n _ _, .s k => n.toNat == k && k != 0
  | .sAcq n _ _, .s k => n.toNat == k && k != 0
  | .atom _ _ n _ _, .s k => n.toNat == k && k != 0
  | .p n _, .p k => n.toNat == k && k != 0
  | .v n _ _, .v k => n.toNat == k
  | .m n _ _, .m k => n.toNat == k && k != 0
  | .h n _ _, .h k => n.toNat == k
  | .kBundle n _ _ _ _ _, .k k => n.toNat == k
  | .kImage n _ _, .k k => n.toNat == k
  | .kClear n _, .k k => n.toNat == k
  | .ring n _ _, .ring k => n.toNat == k
  | .gd n _ _, .gd k => n.toNat == k
  | .valid n _ _, .gd k => n.toNat == k
  | .hgput n _ _ _, .gd k => n.toNat == k
  | .hvctl _, .hvctl => true
  | .acc n _, .a k => n.toNat == k
  | .accPair n _, .a k => n.toNat == k || n.toNat + 1 == k
  | .accZero mask, .a k => mask.getLsbD k
  | .array op l _ _ _, .a k => l.dst.toNat == k || (op == 3 && l.dst.toNat + 1 == k)
  | .ba n _, .ba k => n.toNat == k
  | .bb n _, .bb k => n.toNat == k
  | _, _ => false

/-- The core offsets a result in flight writes, as spans (R93, SPSTALE). -/
def Dest.spans (core : Nat) : Dest → List (Nat × Nat)
  | .pad pd ws => if pd = .core core then (byteRuns ws).map fun r => (r.1, r.2.length) else []
  | .hgput _ _ _ ws => (byteRuns ws).map fun r => (r.1, r.2.length)
  | .tile b => b.out.filterMap fun x => match x.1 with | .pad pd off => if pd = .core core then some (off, x.2) else none | _ => none
  | .atom (.pad pd off) ao _ _ _ => if pd = .core core then [(off, if ao.w64 then 8 else 4)] else []
  | _ => []

/-- Whether a span shares a 32-bit word with a word index. -/
def spanHasWord (sp : Nat × Nat) (i : Nat) : Bool := sp.1 / 4 ≤ i && i ≤ (sp.1 + sp.2 - 1) / 4 && sp.2 != 0

/-- Whether a read of a location in this cycle is stale (R93): a write to it is in flight and not yet due. -/
def Core.isStale (c : Core) (core now : Nat) (x : Loc) : Bool :=
  match x with
  | .word i => c.ctl.dbg.getLsbD 1 && c.flight.any fun r => now < r.w && (r.dest.spans core).any fun sp => spanHasWord sp i
  | x => c.ctl.dbg.getLsbD 0 && c.flight.any fun r => now < r.w && r.dest.covers x

/-- Whether a timed copy of a core has still to write a word of the scratchpad of core `cur` (R93): a refill is no instruction's write. -/
def Core.copyWrites (c : Core) (cur now i : Nat) : Bool :=
  c.xe.copies.any fun k => k.timed && k.refill.isNone && k.units.any fun u => (!u.written || now < u.newAt.getD u.writeAt) &&
    u.dst.any fun d => match d.1 with | .pad (.core n) off => n == cur && spanHasWord (off, d.2) i | _ => false

/-- Whether a read of a location by the core being served is stale (R93): a result in flight, or a timed copy of any core, has still to write
it. -/
def Mach.isStale (m : Mach) (x : Loc) : Bool :=
  m.me.isStale m.cur m.now x ||
  (match x with
   | .word i => m.me.ctl.dbg.getLsbD 1 && m.active.any fun k => (m.core k).copyWrites m.cur m.now i
   | _ => false)

/-- F.STALE for the locations an instruction of the core being served reads; `own` are its destinations (R93). -/
def Mach.staleTraps (m : Mach) (own reads : List Loc) : List Trap :=
  if reads.any fun x => !own.contains x && m.isStale x then [⟨0x06, 0, 0⟩] else []

/-- The words of the core scratchpad in `n` bytes from an offset, as locations. -/
def wordLocs (off n : Nat) : List Loc := (List.range ((off + n + 3) / 4 - off / 4)).map fun i => .word (off / 4 + i)

/-! ### Scalar operands -/

/-- An s register as read: s0 reads 0 (R189). -/
def Core.sreg (c : Core) (n : Nat) : W64 := if n = 0 then 0 else nth c.scal.s n 0

/-- A predicate as read: p0 reads 1 (R189). -/
def Core.preg (c : Core) (n : Nat) : Bool := n == 0 || c.scal.p.getLsbD n

/-- Whether an s register is pending on a load in this cycle (R202): until the cycle after the arrival. -/
def Core.pending (c : Core) (now n : Nat) : Bool :=
  n != 0 && c.glb.loads.any fun g => g.dst.toNat == n && (match g.doneAt with | none => true | some t => now ≤ t)

/-- A constant-bank entry as of the current block's t0 (R155, R190). -/
def Core.const (c : Core) (n : Nat) : W32 := nth c.ctl.cbankT0 n 0

/-- Entries a queue register offers to pops now (R191). -/
def Core.qLen (c : Core) (q : Nat) : Nat := (nth c.scal.q q []).length

/-- Free places of a queue register for pushes issued now (R191, R323): places of entries, of pushes under way, and of pops made in
this cycle are taken. -/
def Core.qFree (c : Core) (now q : Nat) : Nat :=
  let going := c.flight.foldl (fun n r => n + match r.dest with
    | .q code _ => if code.toNat = q then 1 else 0
    | .search _ two _ _ _ _ => if q = 7 then (if two then 2 else 1) else 0
    | _ => 0) 0
  let gone := (c.scal.freed.filter fun f => f.1 == q && f.2 == now).length
  8 - (c.qLen q + going + gone)

/-- The oldest entry of a queue popped. -/
def Core.pop (c : Core) (now q : Nat) : Core :=
  { c with scal := { c.scal with q := c.scal.q.modify q (List.drop 1), freed := (q, now) :: c.scal.freed } }

/-- An operand as read: its value, the queues it pops, and the s registers it reads. -/
structure SOp where
  val  : W64
  pops : List Nat
  regs : List Nat
  deriving DecidableEq, Repr

/-- The literal of B as the S stream and the S family read it (R41): signed. -/
def Lane.litS (l : Lane) : Int := if l.long then l.imm.toInt else l.b.toInt

/-- An S operand of any kind (R38, R190); `skip` entries of the queue are already popped by an operand before it. -/
def Core.sOp (c : Core) (kind : BitVec 2) (f : BitVec 5) (lit : W64) (skip : List Nat) : SOp :=
  match kind.toNat with
  | 0 => ⟨c.sreg f.toNat, [], [f.toNat]⟩
  | 1 => ⟨nth (nth c.scal.q f.toNat []) (skip.count f.toNat) 0, [f.toNat], []⟩
  | 2 => ⟨(c.const f.toNat).setWidth 64, [], []⟩
  | _ => ⟨lit, [], []⟩

/-- The A operand of an S arithmetic lane: its literal is the signed 5-bit field (R193). -/
def Core.sA (c : Core) (l : Lane) : SOp := c.sOp l.ka l.a (BitVec.ofInt 64 l.a.toInt) []

/-- The B operand of an S arithmetic lane, after A (R191); `unsig` for shift amounts and sub-function operands (R41). -/
def Core.sB (c : Core) (l : Lane) (unsig : Bool) : SOp :=
  c.sOp l.kb l.b (if unsig then BitVec.ofNat 64 l.litU else BitVec.ofInt 64 (Lane.litS l)) (c.sA l).pops

/-- A count (R190): bits 15:0 of an S operand, a short literal unsigned. -/
def Core.sCount (c : Core) (l : Lane) : Nat :=
  match l.kb.toNat with
  | 3 => l.litU % 65536
  | 0 => (c.sreg l.b.toNat).toNat % 65536
  | 2 => (c.const l.b.toNat).toNat % 65536
  | _ => 0

/-- A count of the V, M, X or H streams: kind 01 names an s register (R38, R207, R257). -/
def Core.xCount (c : Core) (l : Lane) : Nat :=
  if l.kb = 3 then l.litU % 65536 else (c.sreg l.b.toNat).toNat % 65536

/-- Whether the S stream waits for queues: each queue holds as many entries as the instruction pops (R191). -/
def Core.popsReady (c : Core) (ps : List Nat) : Bool := ps.all fun q => ps.count q ≤ c.qLen q

/-- Queues popped, in order. -/
def Core.popAll (c : Core) (now : Nat) (ps : List Nat) : Core := ps.foldl (fun c q => c.pop now q) c

/-! ### Masks and vector operands -/

/-- A lane mask: m0 reads all ones (R221). -/
def Core.mreg (c : Core) (n : Nat) : BitVec 1024 := if n = 0 then BitVec.allOnes 1024 else nth c.vec.m n 0

/-- A vector register. -/
def Core.vreg (c : Core) (n : Nat) : BitVec 32768 := nth c.vec.v n 0

/-- The lane clusters with a true lane in a mask (R224). -/
def maskClusters (mask : BitVec 1024) : List Nat :=
  (List.range 4).filter fun k => mask.extractLsb' (256 * k) 256 != 0

/-- The lanes of an image, lane `row × 64 + col` in order (R78). -/
def lanesOf (img : BitVec 32768) : List W32 := (List.range 1024).map fun i => img.extractLsb' (32 * i) 32

/-- Words as one number, the first lowest. -/
def packWords : List W32 → Nat
  | [] => 0
  | w :: r => w.toNat + 2 ^ 32 * packWords r

/-- Lanes as an image: the first lane lowest. -/
def lanesImage (ls : List W32) : BitVec 32768 := BitVec.ofNat 32768 (packWords ls)

/-- The lanes of an image that a mask selects, as all ones. -/
def maskLanes (mask : BitVec 1024) : BitVec 32768 :=
  lanesImage ((List.range 1024).map fun i => if mask.getLsbD i then 0xFFFFFFFF else 0)

/-- An image with the lanes of a mask taken from another. -/
def maskImage (mask : BitVec 1024) (new old : BitVec 32768) : BitVec 32768 :=
  let sel := maskLanes mask
  (new &&& sel) ||| (old &&& ~~~sel)

/-- Hypervector bits selected by a mask: bit n governs byte n (R317). -/
def maskBytes (mask : BitVec 1024) : BitVec 8192 :=
  bytesImage 8192 ((List.range 1024).map fun i => if mask.getLsbD i then 0xFF else 0)

/-- An h register. -/
def Core.hreg (c : Core) (n : Nat) : BitVec 8192 := nth c.hv.h n 0

/-- A k register. -/
def Core.kreg (c : Core) (n : Nat) : BitVec 65536 := nth c.hv.k n 0

/-! ### Fields of a ring descriptor (R210) -/

/-- BASE of a ring descriptor (R210). -/
def ringBase (w0 : W64) : Nat := (bits w0 0 21).toNat
/-- SIZE. -/
def ringSize (w0 : W64) : Nat := (bits w0 21 21).toNat
/-- TILE. -/
def ringTile (w1 : W64) : Nat := (bits w1 0 21).toNat
/-- HANDLE. -/
def ringHandle (w1 : W64) : Nat := (bits w1 21 8).toNat
/-- BOUND. -/
def ringBound (w1 : W64) : Bool := w1.getLsbD 29
/-- HEAD. -/
def ringHead (w1 : W64) : Nat := (bits w1 30 13).toNat
/-- COUNT. -/
def ringCount (w1 : W64) : Nat := (bits w1 43 13).toNat

/-! ### Addresses of scratchpad accesses (R200, R250) -/

/-- The level of a mode field. -/
def modeLvl (f : BitVec 5) : Nat := (bits f 0 2).toNat
/-- Bit 2 of a mode field: the stepped or post-increment form. -/
def modeStep (f : BitVec 5) : Bool := f.getLsbD 2

/-- Whether a segment of die `d` lies in a core's partition (R124; log entry 11): every quad of the die is the partition's, or a bound
core of the partition owns the segment. -/
def Mach.segInPart (m : Mach) (core d seg : Nat) : Bool :=
  match (m.core core).bound with
  | none => false
  | some b =>
    bits b.quads (6 * d) 6 == 0x3F ||
    m.active.any fun k => dieOf k == d && (match (m.core k).bound with
      | some bk => bk.part == b.part && bk.ownD.getLsbD seg
      | none => false)

/-- Whether `n` bytes at an offset of a level lie within its range and the partition (R124). -/
def Mach.inRange (m : Mach) (core lvl ea n : Nat) : Bool :=
  let p := padAt core lvl
  ea + n ≤ p.size && (lvl != 2 || (p.units ea n).all fun g => m.segInPart core (dieOf core) g)

/-- The open channels whose buffers share a byte with `n` bytes from a core offset on (R128). -/
def Core.buffersAt (c : Core) (off n : Nat) : List Chan :=
  (c.xe.chans.filterMap id).filter fun ch => off < ch.base + ch.len && ch.base < off + n

/-- The banks of a channel's buffer (R128). -/
def Chan.banks (ch : Chan) : List Nat := (Pad.core 0).units ch.base ch.len

/-- The 256-byte rows of banks that `n` bytes from a core offset on touch: bank, and the end of the bytes touched there. -/
def bankRows (off n : Nat) : List (Nat × Nat) :=
  (List.range ((off + n + 255) / 256 - off / 256)).map fun i =>
    (bankOf ((off / 256 + i) * 256), min (off + n) ((off / 256 + i + 1) * 256))

/-- Whether a timed read of the core scratchpad stalls (R131): it reads in a bank of a FILLING buffer a byte that does not lie below MARK. -/
def Mach.readStalls (m : Mach) (core off n : Nat) : Bool :=
  ((m.core core).xe.chans.filterMap id).any fun ch => ch.st == 1 &&
    (bankRows off n).any fun r => ch.base + ch.mark < r.2 && ch.banks.contains r.1

/-- F.BUFSTATE for a timed write into a bank of a FILLING or DRAINING buffer (R131). -/
def Mach.writeBufTraps (m : Mach) (core off n : Nat) : List Trap :=
  if ((m.core core).xe.chans.filterMap id).any fun ch => (ch.st == 1 || ch.st == 3) && (bankRows off n).any fun r => ch.banks.contains r.1
  then [⟨0x08, 0, BitVec.ofNat 64 off⟩] else []

end Sys2Proof.Machine
end

