-- ==== Sys2Proof/Machine/Stop.lean ====
section
/-! DEFINITION. The trap frame (R169 to R174, R281, R313, R331), the restart of the streams (R175) and the lane runner. -/
namespace Sys2Proof.Machine

/-! ### Freezing and restarting -/

/-- Whether a stop at `S` freezes a result of the stopped core (R167): it is due at S or later and has not left the core. A joint
operation whose start is fixed goes on (R276). -/
def Result.frozen (S : Nat) (r : Result) : Bool :=
  S ≤ r.w && (match r.dep with | some d => S ≤ d | none => true) &&
  (match r.dest with | .array _ _ _ _ (some _) => false | .sem _ _ => false | _ => true)

/-- The cycle in which a result's register is written: of an atomic, when its old value is back (R205). -/
def Result.due (r : Result) : Nat := match r.dest with | .atom _ _ _ ret _ => ret | _ => r.w

/-- Whether a stop at `S` keeps a result's register from being written: frozen, or an atomic on its way whose old value is due at S or later
(R167). -/
def Result.kept (S : Nat) (r : Result) : Bool :=
  r.frozen S || (match r.dest with | .atom _ _ _ ret _ => S ≤ ret | _ => false)

/-- Whether a result's reads are an engine's own, which a stop freezes (R167): of the array, of a search, of a tile block. A load reads on and
keeps only its register write (R254, R331). -/
def Result.engine (r : Result) : Bool :=
  match r.dest with | .array _ _ _ _ _ => true | .search _ _ _ _ _ _ => true | .tile _ => true | _ => false

/-- Whether a stop freezes an engine's late read (R167): one of a core scratchpad due at S or later, one of a quad or die scratchpad whose slot
(8 or 15 cycles before, R296) is at S or later. -/
def LateRead.frozen (S : Nat) (l : LateRead) : Bool :=
  match l.pad with
  | .core _ => S ≤ l.cyc
  | .quad _ => S + 8 ≤ l.cyc
  | .die _ => S + 15 ≤ l.cyc

/-- A cycle moved by a restart if it was at S or later. -/
def moved (S d t : Nat) : Nat := if S ≤ t then t + d else t

/-- A destination moved by a restart: the return of an atomic. -/
def Dest.moved (S d : Nat) : Dest → Dest
  | .atom pl a n ret sc => .atom pl a n (Machine.moved S d ret) sc
  | x => x

/-- A result moved by a restart. -/
def Result.shift (S d : Nat) (r : Result) : Result :=
  if r.frozen S then
    { r with w := r.w + d, dep := r.dep.map (moved S d),
             reads := r.reads.map fun l => if r.engine && l.frozen S then { l with cyc := l.cyc + d } else l,
             dest := r.dest.moved S d }
  else { r with dest := r.dest.moved S d }

/-- A copy unit moved by a restart: units departed keep their landing (R313). -/
def CopyUnit.shift (S d : Nat) (u : CopyUnit) : CopyUnit :=
  if u.depAt < S then u
  else
    let late (t : Nat) : Nat := if S ≤ u.askAt then t + d else t
    { u with askAt := moved S d u.askAt, readAt := late u.readAt, haveAt := late u.haveAt, depAt := u.depAt + d,
             writeAt := moved S d u.writeAt, newAt := u.newAt.map (moved S d) }

/-- The last unit of a timed copy: of an XMCAST what it lands at this core and at the others (R295, R297). -/
def lastUnits (us : List CopyUnit) : List CopyUnit :=
  match us.getLast? with
  | some l => us.filter fun u => u.row == l.row && u.e0 == l.e0
  | none => []

/-- The cycle in which a timed copy completes: w of its last unit (R297). -/
def unitsEnd (us : List CopyUnit) : Nat := (lastUnits us).foldl (fun a u => max a u.writeAt) 0

/-- The core restarted at `r` after a stop at `S` (R175): every frozen cycle moves by r − S, and the stop ends. A joint lane whose
operation has started counts as issued JREM cycles after r (R276). -/
def Core.restart (c : Core) (S r : Nat) : Core :=
  let d := r - S
  let mv := moved S d
  let j := c.mx.joint.map fun t => r + (t - S)
  let c' := { c with
    stop := none
    flight := c.flight.map (Result.shift S d)
    pad := { c.pad with ports := c.pad.ports.map fun b => if b.2.2 then (b.1, mv b.2.1, true) else b }
    slots := c.slots.map fun b => if b.2.2.2 then (b.1, b.2.1, mv b.2.2.1, true) else b
    seq := { c.seq with
      queue := c.seq.queue.map fun q => if q.cyc ≤ S then { q with cyc := q.cyc + d } else q
      streams := c.seq.streams.map fun s => { s with
        next := max s.next S + d, occ := mv s.occ, fill0 := s.fill, doneAt := s.doneAt.map fun t => max (mv t) (r - 1) } }
    scal := { c.scal with block := c.scal.block.map mv }
    mx := { c.mx with
      ops := c.mx.ops.map fun o => if S ≤ o.retire && o.ringB.isSome then
        { o with f := if S ≤ o.f + (o.passes - 1) * o.cpp then o.f + d else o.f, retire := o.retire + d, write := mv o.write } else o
      due := c.mx.due.map fun x => { x with count := j }
      joint := if c.mx.due.isSome then c.mx.joint else none }
    xe := { c.xe with copies := c.xe.copies.map fun k =>
      let us := k.units.map (CopyUnit.shift S d)
      { k with units := us, doneAt := if k.timed && decide (S ≤ k.doneAt.getD 0)
          then some (unitsEnd us)
          else k.doneAt } }
    glb := { c.glb with walks := c.glb.walks.filter fun w => !w.done }
    port := { c.port with tiles := c.port.tiles.map fun t => { t with retire := mv t.retire } } }
  match j with
  | some t => if c.mx.due.isNone then c'.advance .m t 0 else c'
  | none => c'

/-! ### The trap frame -/

/-- Class and register number of a latch (R173); none for a result the frame holds no latch of. -/
def Dest.latch (core : Nat) : Dest → Option (Nat × Nat)
  | .s n _ => some (1, n.toNat)
  | .sLoad n _ _ => some (1, n.toNat)
  | .sAcq n _ _ => some (1, n.toNat)
  | .atom _ _ n _ _ => some (1, n.toNat)
  | .p n _ => some (2, n.toNat)
  | .v n _ _ => some (3, n.toNat)
  | .m n _ _ => some (4, n.toNat)
  | .h n _ _ => some (5, n.toNat)
  | .kBundle n _ _ _ _ _ => some (6, n.toNat)
  | .kImage n _ _ => some (6, n.toNat)
  | .kClear n _ => some (6, n.toNat)
  | .q code _ => some (7, code.toNat)
  | .pad pd _ => if pd = .core core then some (8, 0) else none
  | .hgput g _ _ _ => some (8, 0x10 + g.toNat)
  | _ => none

/-- Bytes a latch holds, each with the bits that the spec gives it (R173, R331; log entry 68). -/
abbrev LatchData := List (Byte × Byte)

/-- Bytes all of whose bits are given. -/
def wholeBytes (bs : List Byte) : LatchData := bs.map fun b => (b, 0xFF)

/-- The bytes of an image under a write mask, a bit for each 1,024th of it, and then the mask's bytes. -/
def latchImage {w : Nat} (img : BitVec w) (mask : BitVec 1024) : LatchData :=
  ((imageBytes img).zipIdx.map fun x => (x.1, if mask.getLsbD (x.2 * 8192 / w) then 0xFF else 0)) ++ wholeBytes (imageBytes mask)

/-- A byte write as its first offset, its bytes over the whole span, and its byte mask (R173, class 0x8): the span of the bytes written, or
the aligned image of `img` bytes that holds them (R254). -/
def spanData (img : Nat) (ws : List (Nat × Byte)) : Nat × LatchData :=
  let lo := ws.foldl (fun a w => min a w.1) ((ws.head?.map Prod.fst).getD 0)
  let hi := ws.foldl (fun a w => max a (w.1 + 1)) lo
  let (lo, hi) := if img = 0 then (lo, hi) else (lo / img * img, lo / img * img + img)
  let bytes : LatchData := (List.range (hi - lo)).map fun i => match ws.find? fun w => w.1 == lo + i with | some w => (w.2, 0xFF) | none => (0, 0)
  let mask := leBytes ((hi - lo + 7) / 8) (ws.foldl (fun a w => a ||| 2 ^ (w.1 - lo)) 0)
  (lo, bytes ++ wholeBytes mask)

/-- VAL of a latch whose data stand elsewhere or nowhere, and its data bytes (R173, R331). -/
def Result.latchData (r : Result) : Nat × LatchData :=
  match r.dest with
  | .s _ v => (v.toNat, [])
  | .sLoad _ n sg => let v := leValue (r.buf.readBlock 0 n); ((if sg then BitVec.ofInt 64 (decInt (8 * n) true v) else BitVec.ofNat 64 v).toNat, [])
  | .sAcq _ v _ => (v.toNat, [])
  | .p _ v => (v.toNat, [])
  | .v _ img mask => (0, latchImage (img ||| bytesImage 32768 (r.buf.readBlock 0 4096)) mask)
  | .m _ img mask => (0, (imageBytes img).zip (imageBytes mask))
  | .h _ img mask => (0, latchImage (img ||| bytesImage 8192 (r.buf.readBlock 0 1024)) mask)
  | .kBundle _ src mask w form tie => (w + 16 * form.toNat + 64 * tie.toNat, wholeBytes (imageBytes src ++ imageBytes mask))
  | .kImage _ img mask => (0x30, latchImage (img ||| bytesImage 65536 (r.buf.readBlock 0 8192)) mask)
  | .kClear _ mask => (0x30, wholeBytes (imageBytes mask))
  | .q _ v => (v.toNat, [])
  | .pad _ ws => spanData r.ext.toNat ws
  | .hgput _ _ _ ws => spanData 0 ws
  | _ => (0, [])

/-- A latch of the frame: its result, VAL, data, first data unit and data units. -/
structure Latch where
  res   : Result
  cls   : Nat
  num   : Nat
  val   : Nat
  data  : LatchData
  first : Nat
  units : Nat

/-- Results in ascending issue cycle, then stream order (R173). -/
def Result.before (a b : Result) : Bool := a.issued < b.issued || (a.issued == b.issued && a.st ≤ b.st)

/-- Results inserted in the order of R173. -/
def insertResult (r : Result) : List Result → List Result
  | [] => [r]
  | a :: l => if Result.before a r then a :: insertResult r l else r :: a :: l

/-- The results a stop at S catches, in the order of R173. -/
def Core.caught (c : Core) (core S : Nat) : List Result :=
  (c.flight.filter fun r => r.kept S && (r.dest.latch core).isSome).foldl (fun l r => insertResult r l) []

/-- Results that a stop at S keeps and for which R173 has no class: held in place, they count in NHELD (R174; log entry 46). The operations of
the array and of a search are counted in their engines' records, and so are the hand-overs of the M stream (R281, R331). -/
def Core.classless (c : Core) (core S : Nat) : Nat :=
  (c.flight.filter fun r => r.kept S && (r.dest.latch core).isNone &&
    (match r.dest with | .pad _ _ => r.st != 2 | .ringCount _ _ => false | .sem _ _ => false | _ => !r.engine)).length

/-- The latches of a frame (R173, R174): results in order while a descriptor and their data units remain. The value of an atomic that has not
returned is open (log entry 68). -/
def takeLatches (core S : Nat) : List Result → Nat → Nat → List Latch
  | [], _, _ => []
  | r :: rest, k, used =>
    let cn := (r.dest.latch core).getD (0, 0)
    let vd := r.latchData
    let units := (vd.2.length + 127) / 128
    if k < 64 && used + units ≤ 464 then
      let val := match r.dest with
        | .atom _ _ _ _ _ => leValue ((List.range 8).map fun i => Config.latchByte core S (0x10000 + 8 * k + i))
        | _ => if units = 0 || cn.1 = 6 || cn.1 = 8 then vd.1 else used
      { res := r, cls := cn.1, num := cn.2, val := val, data := vd.2, first := used, units := units } ::
        takeLatches core S rest (k + 1) (used + units)
    else []

/-- The first data unit of class 0x6 and 0x8 latches is where their descriptors' order puts it (R173); the descriptor (16 bytes). -/
def Latch.desc (l : Latch) (S : Nat) : List Byte :=
  leBytes 8 l.val ++ leBytes 1 l.cls ++ leBytes 1 l.num ++ leBytes 2 (l.res.due - S) ++ leBytes 1 l.res.st ++
  leBytes 1 l.res.nfl.toNat ++ leBytes 2 l.units

/-- The data units of a latch at the stop S (R173; log entry 68). -/
def Latch.dataBytes (core S : Nat) (l : Latch) : List Byte :=
  (l.data ++ List.replicate (128 * l.units - l.data.length) (0, 0xFF)).zipIdx.map fun (x : (Byte × Byte) × Nat) =>
    (x.1.1 &&& x.1.2) ||| (Config.latchByte core S (128 * l.first + x.2) &&& ~~~x.1.2)

/-- The M progress record (R281), of a hand-over once. -/
def Core.recM (c : Core) (S : Nat) : List Byte :=
  let ops := c.mx.ops.filter fun o => S ≤ o.retire
  let ends := ops.map fun o => o.f + o.passes * o.cpp
  let afree := ends.foldl max 0 - S
  let done (o : ArrayOp) := if S ≤ o.f then 0 else min o.passes ((S - o.f + o.cpp - 1) / o.cpp)
  let word (o : ArrayOp) : List Byte :=
    let left := o.passes - done o
    let nxt := if left = 0 then o.write - S else o.f + done o * o.cpp - S
    leBytes 4 o.lane.toNat ++ leBytes 2 left ++ leBytes 2 nxt
  let jst := c.mx.jseq + (if c.mx.joint.isSome then 4 else 0) + (if c.mx.chain.isSome then 8 else 0)
  let hov := ((c.flight.filter fun r => r.st == 2 && r.frozen S && (match r.dest with | .pad (.core _) _ => false | .pad _ _ => true | _ => false)).map
    fun r => (r.issued, (r.dep.getD S) - S)).eraseDups.map Prod.snd
  let pad4 (l : List (List Byte)) (n : Nat) := ((l ++ List.replicate 4 (List.replicate n 0)).take 4).flatten
  leBytes 2 afree ++ leBytes 1 ops.length ++ leBytes 1 jst ++ leBytes 2 ((c.mx.joint.getD S) - S) ++ leBytes 2 0 ++
  pad4 (ops.map word) 8 ++ pad4 (hov.map (leBytes 2)) 2 ++ pad4 (ops.map fun o => leBytes 4 o.ext.toNat) 4

/-- The frozen event cycles of a timed copy (R313): reads with their slots, departures and writes of the units that have not departed. -/
def Copy.events (k : Copy) (S : Nat) : List Nat :=
  (k.units.filter fun u => S ≤ u.depAt).flatMap fun u =>
    ((if u.src.isSome && S ≤ u.askAt then [u.askAt, u.readAt] else []) ++ u.depAt :: u.writeAt :: u.newAt.toList).filter fun t => S ≤ t

/-- The X progress record (R313). A copy that is done and keeps its place for its chained command is in flight (R271). -/
def Core.recX (c : Core) (S : Nat) : List Byte :=
  let live := c.xe.copies.filter fun k => k.entry < 64 && (k.doneAt.isNone || k.timed || k.told)
  let evs := (c.xe.copies.filter Copy.timed).flatMap fun k => k.events S
  let least := match evs with | [] => S | e :: r => r.foldl min e
  let bitsOf (l : List Copy) := l.foldl (fun a k => a ||| 2 ^ k.entry) 0
  let chan (h : Option Chan) : List Byte := match h with
    | none => leBytes 2 0
    | some ch => leBytes 2 (0x8000 + (if ch.outbound then 0x4000 else 0) +
        (match ch.arm with | some (t, _) => 0x2000 + t / 256 % 0x2000 | none => 0))
  leBytes 1 live.length ++ leBytes 1 (live.filter Copy.timed).length ++
  leBytes 1 (c.xe.copies.filter fun k => k.chain.isSome && k.told).length ++ leBytes 1 0 ++
  leBytes 2 (least - S) ++ leBytes 2 (evs.foldl max S - S) ++ leBytes 8 (bitsOf live) ++
  leBytes 8 (bitsOf (live.filter fun k => !k.timed && !k.rows.isEmpty)) ++ (c.xe.chans.flatMap chan) ++ List.replicate 24 0

/-- The H progress record (R331). -/
def Core.recH (c : Core) (S : Nat) : List Byte :=
  let srs := c.flight.filter fun r => match r.dest with | .search _ _ _ _ _ _ => r.frozen S | _ => false
  let rows (r : Result) := r.reads.filter fun l => l.frozen S
  let word (r : Result) : List Byte :=
    let nxt := match rows r with | l :: _ => l.cyc - S | [] => r.w - S
    leBytes 8 (r.lane.toNat + 2 ^ 32 * (rows r).length + 2 ^ 48 * nxt)
  let last := (srs.flatMap rows).foldl (fun a l => max a (l.cyc + 1)) S
  leBytes 1 srs.length ++ leBytes 1 0 ++ leBytes 2 (last - S) ++ leBytes 4 0 ++
  (((srs.map word) ++ List.replicate 2 (List.replicate 8 0)).take 2).flatten ++ List.replicate 40 0

/-- Cycles until the lane at a stream's micro-PC is in its queue (R46): 0 where it is. -/
def Core.untilQueued (c : Core) (s : StreamSt) : Nat :=
  if 0 < s.fill then 0
  else match c.seq.cur, c.seq.jobs with
    | some b, j :: _ => match c.seq.entry b.num with
      | some e => s.rep * e.count + s.line + 1 - ((b.count - 1 - j.left) * e.count + j.line)
      | none => 0
    | _, _ => 0

/-- Whether a stream had finished its block when a stop came (R27, R47): one without a lane in it has finished at t0 itself (R45). -/
def StreamSt.over (s : StreamSt) (S : Nat) : Bool := s.doneAt.any fun t => t < S || (t == S && s.occ < S)

/-- The STREAM word of a stream (R172), whose next lane is in its queue after `late` cycles. A last lane that still waits shows its own place. -/
def StreamSt.word (s : StreamSt) (S : Nat) (running : Bool) (late : Nat) : Nat :=
  let wrem := if S ≤ s.occ then s.occ - S else 0
  let ahead := if s.doneAt.isSome then 0 else max (s.next - S) late
  if s.over S || !running then wrem * 2 ^ 48 + s.fill * 2 ^ 17 + 2 ^ 16
  else wrem * 2 ^ 48 + ahead * 2 ^ 32 + s.fill * 2 ^ 17 + s.lane * 2 ^ 13 + s.line

/-- The M progress record of a frame (R276, R281): as of the end of the stop cycle, but for JST bit 2 and JREM. -/
def Core.recMAt (c : Core) (p : Stop) : List Byte :=
  let r := if p.mrec.isEmpty then c.recM p.cyc else p.mrec
  let j : Byte := if c.mx.joint.isSome then 4 else 0
  r.take 3 ++ [(nth r 3 0 &&& 0xFB) ||| j] ++ leBytes 2 ((c.mx.joint.getD p.cyc) - p.cyc) ++ r.drop 6

/-- mcycle in a cycle (R155). -/
def Ctl.mcycle (c : Ctl) (now : Nat) : W64 := BitVec.ofInt 64 ((now : Int) - c.mcBase)

/-- CAUSE of a stop (R171). -/
def Stop.cause (p : Stop) : Nat :=
  (match p.trap with
    | some (st, t) => t.code.toNat + st * 2 ^ 16
    | none => (if p.intr then 7 * 2 ^ 8 else 0) + 7 * 2 ^ 16) +
  (if p.shadow.isSome then 2 ^ 24 else 0) + (if p.reissue.isSome then 2 ^ 25 else 0)

/-- The frame's bytes from 0x1000 on, but for SREG and PREG which are taken as they stand (R170, R171); the block queue is that of the stop cycle.
Where the streams stand in different repetitions, REPLEFT counts those of the least advanced unfinished one, which is the model's choice (log entry
12). -/
def Core.frameBytes (c : Core) (core : Nat) (p : Stop) : List Byte :=
  let S := p.cyc
  let caught := c.caught core S
  let ls := takeLatches core S caught 0 0
  let trap := (p.trap.map Prod.snd).getD ⟨0, 0, 0⟩
  let running := c.seq.cur.isSome
  let left := match c.seq.cur with
    | some b => b.count - 1 - (c.seq.streams.filter fun s => !s.over S).foldl (fun a s => min a s.rep) (b.count - 1)
    | none => 0
  let queue := c.seq.queue.filter fun e => e.cyc < S
  let q (i : Nat) : List Byte := match queue[i]? with
    | some e => leBytes 8 (2 ^ 63 + e.num * 2 ^ 32 + e.count % 2 ^ 32)
    | none => leBytes 8 0
  let sh := match p.shadow with
    | some (code, line, lane, addr, _) => (line + lane * 2 ^ 13 + code.toNat * 2 ^ 16, addr.toNat)
    | none => match p.reissue with
      | some (line, lane, addr) => (line + lane * 2 ^ 13, addr.toNat)
      | none => (0, 0)
  let header :=
    leBytes 4 p.cause ++ leBytes 4 trap.detail.toNat ++ leBytes 8 trap.addr.toNat ++
    leBytes 8 (c.ctl.mcycle S).toNat ++ leBytes 4 ls.length ++
    leBytes 4 (match c.seq.cur with | some b => 2 ^ 31 + b.num | none => 0) ++ leBytes 4 left ++
    leBytes 4 (caught.length - ls.length + c.classless core S) ++ (q 0 ++ q 1 ++ q 2 ++ q 3) ++
    (c.seq.streams.flatMap fun s => leBytes 8 (s.word S running (c.untilQueued s))) ++
    leBytes 4 sh.1 ++ leBytes 4 0 ++ leBytes 8 sh.2 ++
    ((List.range 32).flatMap fun i => leBytes 8 (c.sreg i).toNat) ++
    leBytes 8 ((List.range 8).foldl (fun a i => a + (if c.preg i then 2 ^ i else 0)) 0) ++
    (c.recMAt p ++ c.recX S ++ c.recH S) ++ List.replicate 440 0
  let descs := ls.flatMap fun l => l.desc S
  header ++ descs ++ List.replicate (1024 - descs.length) 0 ++ ls.flatMap (Latch.dataBytes core S)

/-- Latches written anew whose data came after the frame was complete (R254, R331): of the results that `late` names. -/
def Core.relatch (c : Core) (core : Nat) (late : Result → Bool) : Core :=
  match c.stop with
  | none => c
  | some p =>
    if !p.held then c
    else
      let ls := (takeLatches core p.cyc (c.caught core p.cyc) 0 0).zipIdx.filter fun x => late x.1.res
      { c with frame := ls.foldl (fun f x =>
          (f.overlay (atAddr (0x1400 + 16 * x.2) (x.1.desc p.cyc))).overlay (atAddr (0x1800 + 128 * x.1.first) (x.1.dataBytes core p.cyc))) c.frame }

/-- The cycle in which the writing of a frame has finished (R169; log entry 12): 128 bytes a cycle from S + 16 on, the header, the
descriptors and the data units. -/
def Core.frameEnd (c : Core) (core : Nat) (p : Stop) : Nat :=
  let ls := takeLatches core p.cyc (c.caught core p.cyc) 0 0
  p.cyc + 16 + 8 + (16 * ls.length + 127) / 128 + ls.foldl (fun a l => a + l.units) 0

/-! ### Refetch and restart (R175) -/

/-- The lane after a position of a stream, over the current block and the queued ones: blocks left, repetition, line, lane. -/
def Core.posNext (c : Core) (st : Stream) : List QBlock → Nat → Nat → Nat → Option (List QBlock × Nat × Nat × Nat)
  | [], _, _, _ => none
  | b :: rest, rep, line, lane =>
    match c.seq.laneFrom b.num st line lane with
    | some (l, it) => some (b :: rest, rep, l, it.lane)
    | none =>
      match (if rep + 1 < b.count then c.seq.laneFrom b.num st 0 0 else none) with
      | some (l, it) => some (b :: rest, rep + 1, l, it.lane)
      | none => Core.posNext c st rest 0 0 0

/-- The lines (blocks left, repetition, line) that hold the next `n` lanes of a stream from a position on. -/
def Core.linesOf (c : Core) (st : Stream) : Nat → List QBlock → Nat → Nat → Nat → List (Nat × Nat × Nat)
  | 0, _, _, _, _ => []
  | n + 1, bs, rep, line, lane =>
    (bs.length, rep, line) :: (match c.posNext st bs rep line lane with
      | some (bs', rep', line', lane') => Core.linesOf c st n bs' rep' line' lane'
      | none => [])

/-- Lines refetched at a resume (R175): those that hold the entries of the fetch queues. -/
def Core.refetched (c : Core) : Nat :=
  ((allStreams.flatMap fun st =>
    let s := c.stream st
    match c.seq.cur with
    | some b =>
      if s.doneAt.isNone then c.linesOf st s.fill (b :: c.seq.queue) s.rep s.line s.lane
      else match c.posNext st c.seq.queue 0 0 0 with
        | some (bs, rep, line, lane) => c.linesOf st s.fill bs rep line lane
        | none => []
    | none => match c.posNext st c.seq.queue 0 0 0 with
        | some (bs, rep, line, lane) => c.linesOf st s.fill bs rep line lane
        | none => []).eraseDups).length

/-- The cycle from which a domain no longer wakes (R119). -/
def Dom.wakeEnd (d : Dom) : Nat := match d.st with | .waking _ t => t | _ => 0

/-- The restart cycle of R175 counted from a cycle: x, then the first cycle from x + 1 on congruent to STOP modulo CPERIOD. -/
def Mach.restartCycle (m : Mach) (core from_ : Nat) : Nat :=
  let c := m.core core
  let b := c.bound
  let S := (c.stop.map Stop.cyc).getD m.now
  let wakes := (c.doms.map Dom.wakeEnd) ++ (c.port.wakes.map fun w => let d := wakeDom core w.2; w.1 + wakeLatency d ((m.dom d).st == .off)) ++
    (match b with
     | some b =>
       ((List.range 16).filter b.ownQ.getLsbD).map (fun i => (m.dom (.quad (quadOf core) i)).wakeEnd) ++
       ((List.range 32).filter b.ownD.getLsbD).map (fun i => (m.dom (.die (dieOf core) i)).wakeEnd)
     | none => [])
  let x := wakes.foldl max (from_ + 8 + c.refetched)
  let per := max 1 ((b.map Bind.cperiod).getD 1)
  let r := x + 1
  r + ((S % per + per - r % per) % per)

/-- The streams of a stopped core set to restart, counted from a cycle (R168, R175). -/
def Mach.setRestart (m : Mach) (core from_ : Nat) : Mach :=
  let r := m.restartCycle core from_
  m.modCore core fun c => { c with stop := c.stop.map fun p => { p with restart := some r, held := false } }

/-! ### Running a lane -/

/-- A lane done by the core being served: its stream moves on, or, for the load re-issued before a restart (R175), nothing does. -/
def Core.laneDone (c : Core) (st : Stream) (now busy : Nat) : Core :=
  match c.stop with
  | some p => { c with stop := some { p with reissue := none } }
  | none => c.advance st now busy

/-- The re-issued load met a fault (R175): the core restarts as of r, its S micro-PC back at the load, and stops at r − 1. -/
def Core.backToLoad (c : Core) (now : Nat) : Core :=
  match c.stop with
  | some p => match p.reissue with
    | some (line, lane, _) =>
      let c' := c.restart p.cyc (now + 1)
      c'.modStream .s fun s => { s with
        rep := if line < s.line || (line == s.line && lane < s.lane) || s.doneAt.isSome then s.rep else s.rep - 1,
        line := line, lane := lane, fill := s.fill + 1, next := now, doneAt := none }
    | none => c
  | none => c

/-- A lane of stream `st` of the core being served, run in this cycle: `body` says how it ends. The machine before the core's first
lane of the cycle is kept as its restore point (R167). -/
def runLane (st : Stream) (body : Mach → LaneOut) (s : State) : Host.Outcome State Fault Refusal :=
  let pt := s.restorePoint s.m.cur
  let s1 : State := { s with base := some (s.m.cur, s.m.now, pt) }
  match body s.m with
  | .done m busy => .next { m := m.modMe fun c => c.laneDone st m.now busy, base := s1.base, undo := s.undo }
  | .hold m => .next { m := m.modMe fun c => (c.backToLoad m.now).modStream st fun x => { x with next := m.now + 1 }, base := s1.base, undo := s.undo }
  | .trap t =>
    let s2 : State := { s1 with m := s1.m.modMe fun c => c.backToLoad s.m.now }
    .next (s2.stopCore s.m.cur Mach.boundary (Stop.withTrap st.idx t))

end Sys2Proof.Machine
end

