-- ==== Sys2Proof/Machine/Route.lean ====
section
/-! DEFINITION. Routes, their slots and transit times (R296, R298, R441), and the timing of program accesses. -/
namespace Sys2Proof.Machine

/-- A route that leaves the core (R296). `ch` is a stack and channel of HBM. -/
inductive Reach where
  | quad
  | ring
  | cross
  | hbm (ch : Nat)
  | crossHbm (ch : Nat)
  /-- No slots: to a die of another throttle group (R109), or to what no window pins. -/
  | apart
  deriving DecidableEq, Repr

/-- The number of a core's route slots in its list of bookings: 1 quad network, 2 die ring, 3 cross-die. -/
def Reach.code : Reach → Nat
  | .quad => 1
  | .ring => 2
  | _ => 3

/-- A core's place ℓ among a partition's cores on its die (R441). -/
def placeOf (quads : BitVec 24) (core : Nat) : Nat :=
  4 * ((List.range (quadOf core % 6)).filter fun q => quads.getLsbD (6 * dieOf core + q)).length + core % 4

/-- The first cycle from `t` on at which `ok` holds, stepping by `step`. -/
def firstFrom (ok : Nat → Bool) (step : Nat) : Nat → Nat → Nat
  | 0, t => t
  | n + 1, t => if ok t then t else firstFrom ok step n (t + step)

/-- The first own slot of a route at or after a cycle (R441), booked or not. -/
def Mach.ownSlot (m : Mach) (core : Nat) (r : Reach) (t : Nat) : Nat :=
  match r with
  | .quad => t
  | _ =>
    let b := (m.core core).bound
    let ph := (b.map fun b => b.origin + b.seat).getD 0 % 6
    t + (ph + 6 - t % 6) % 6

/-- The cycles between own slots of a route. -/
def Reach.step : Reach → Nat
  | .quad => 1
  | _ => 6

/-- Whether a core's slot is booked. -/
def Core.slotBusy (c : Core) (r : Reach) (write : Bool) (t : Nat) : Bool :=
  c.slots.any fun b => b.1 == r.code && b.2.1 == write && b.2.2.1 == t

/-- A slot booked; `froze` says that a stop of the core freezes it (R167): not that of an access that has left the core (R254, R283). -/
def Mach.bookSlot (m : Mach) (core : Nat) (r : Reach) (write : Bool) (t : Nat) (froze : Bool := true) : Mach :=
  m.modCore core fun c => { c with slots := (r.code, write, t, froze) :: c.slots }

/-- The first free own slot of a route at or after a cycle (R297). -/
def Mach.freeSlot (m : Mach) (core : Nat) (r : Reach) (write : Bool) (t : Nat) : Nat :=
  let c := m.core core
  firstFrom (fun x => !c.slotBusy r write x) r.step (c.slots.length + 1) (m.ownSlot core r t)

/-- The positions of a partition's channel slots in the period of 64 cycles that its origin begins (R441). -/
def channelSlots (hslots : Nat) : List Nat := (List.range hslots).map fun i => 8 + 56 * i / hslots

/-- The first channel slot of the core's partition at or after a cycle that no booking holds (R441); none where the partition has
no slots. -/
def Mach.channelSlot (m : Mach) (core ch t : Nat) : Option Nat :=
  match (m.core core).bound with
  | none => none
  | some b =>
    if b.hslots = 0 then none
    else
      let ok (x : Nat) : Bool := (channelSlots b.hslots).contains ((x + 64 - b.origin % 64) % 64) &&
        !(m.hbm.any fun h => h.1 == b.part && h.2.1 == ch && h.2.2 == x)
      some (firstFrom ok 1 (64 * (m.hbm.length + 2)) t)

/-- A channel slot booked for the core's partition. -/
def Mach.bookChannel (m : Mach) (core ch t : Nat) : Mach := { m with hbm := ((m.core core).part, ch, t) :: m.hbm }

/-- The slot of a route that an access takes at or after a cycle: the first own one, or the first free one. -/
def Mach.pickSlot (m : Mach) (own : Bool) (core : Nat) (r : Reach) (write : Bool) (t : Nat) : Nat :=
  if own then m.ownSlot core r t else m.freeSlot core r write t

/-- A write that leaves the core at or after cycle `t` (R296): its slots booked, the cycle it departs and the cycle it lands; none
without channel slots. With `own` it takes the first own slots, booked or not (R205). -/
def Mach.sendWrite (m : Mach) (core : Nat) (r : Reach) (t : Nat) (own : Bool := false) : Option (Mach × Nat × Nat) :=
  match r with
  | .quad => let s := m.pickSlot own core r true t; some (m.bookSlot core r true s !own, s, s + 16)
  | .ring => let s := m.pickSlot own core r true t; some (m.bookSlot core r true s !own, s, s + 30)
  | .cross => let s := m.pickSlot own core r true t; some (m.bookSlot core r true s !own, s, s + 60)
  | .hbm ch => (m.channelSlot core ch t).map fun s => (m.bookChannel core ch s, s, s + 56)
  | .crossHbm ch =>
    let x := m.pickSlot own core .cross true t
    (m.channelSlot core ch (x + 30)).map fun s => ((m.bookSlot core .cross true x !own).bookChannel core ch s, x, s + 56)
  | .apart => none

/-- A read whose slot is at or after cycle `t` (R296): its slots booked, the slot, the cycle its bytes are read and the cycle they
are at the core. -/
def Mach.sendRead (m : Mach) (core : Nat) (r : Reach) (t : Nat) (own : Bool := false) : Option (Mach × Nat × Nat × Nat) :=
  match r with
  | .quad => let s := m.pickSlot own core r false t; some (m.bookSlot core r false s !own, s, s + 8, s + 20)
  | .ring => let s := m.pickSlot own core r false t; some (m.bookSlot core r false s !own, s, s + 15, s + 30)
  | .cross => let s := m.pickSlot own core r false t; some (m.bookSlot core r false s !own, s, s + 30, s + 60)
  | .hbm ch => (m.channelSlot core ch t).map fun s => (m.bookChannel core ch s, s, s + 40, s + 80)
  | .crossHbm ch => (m.channelSlot core ch t).map fun s =>
      let x := m.pickSlot own core .cross false (s + 70)
      ((m.bookChannel core ch s).bookSlot core .cross false x !own, s, s + 40, x + 60)
  | .apart => none

/-- Cycles from the slot of a read to its bytes (R296). -/
def Reach.readDelay : Reach → Nat
  | .quad => 8
  | .ring => 15
  | .cross => 30
  | _ => 40

/-- The die of an HBM stack (R10). -/
def stackDie (stack : Nat) : Nat := stack / 2

/-- Whether a device-physical page lies in a stack in timed mode, and not in the CXL tier (R106, R126, R144). -/
def pageTimed (tstk : Byte) (page : Nat) : Bool := !Config.cxlPage page && tstk.getLsbD (Config.hbmChannel page).1.toNat

/-- Whether the stack of a device-physical address is in timed mode. -/
def Bind.timedPage (b : Bind) (pa : Nat) : Bool := pageTimed b.tstk (pa / 0x10000)

/-- Whether every page of a pinned window that is used lies in a timed channel (R127, R311). -/
def PinWin.timed (w : PinWin) (tstk : Byte) : Bool :=
  !(w.r || w.w) || (List.range w.units).all fun i => pageTimed tstk (w.pbase / 0x10000 + i)

/-- Whether an atomic at a translated address is refused with F.PERM (R144): at the CXL tier, or fadd in a channel in timed mode. -/
def Bind.atomPerm (b : Bind) (fadd : Bool) (pa : Nat) : Bool := Config.cxlPage (pa / 0x10000) || (fadd && b.timedPage pa)

/-- The throttle group of a die (R107). -/
def Mach.throttleGroup (m : Mach) (die : Nat) : Nat :=
  ((List.range 4).find? fun g => (nth m.module.thrctl g 0).getLsbD (8 + die)).getD 0

/-- Whether a core has cross-die timed slots to a die: one of its own throttle group (R109). -/
def Mach.linked (m : Mach) (core die : Nat) : Bool := m.throttleGroup (dieOf core) == m.throttleGroup die

/-- The route of a core to a device-physical page in timed HBM (R109, R296, R431); none to the CXL tier (R428). -/
def Mach.hbmReach (m : Mach) (core pa : Nat) : Reach :=
  let sc := Config.hbmChannel (pa / 0x10000)
  let ch := sc.2 * 8 + sc.1.toNat
  let die := stackDie sc.1.toNat
  if 2 ^ 48 ≤ pa || Config.cxlPage (pa / 0x10000) then .apart
  else if die = dieOf core then .hbm ch
  else if m.linked core die then .crossHbm ch else .apart

/-- The route of a core to a scratchpad (R109, R296): none to its own. -/
def Mach.padReach (m : Mach) (core : Nat) (p : Pad) : Option Reach :=
  let far (die : Nat) : Reach := if m.linked core die then .cross else .apart
  match p with
  | .core n => if n = core then none else some .quad
  | .quad q => if q = quadOf core then some .quad else if q / 6 = dieOf core then some .ring else some (far (q / 6))
  | .die d => if d = dieOf core then some .ring else some (far d)

/-- The route of a side at a place. -/
def Mach.placeReach (m : Mach) (core : Nat) (pl : Place) : Option Reach :=
  match pl with
  | .pad p _ => m.padReach core p
  | .dev a => some (m.hbmReach core a)
  | _ => none

/-- The route of a program access to a level: 1 quad, 2 die. -/
def lvlReach (lvl : Nat) : Reach := if lvl = 1 then .quad else .ring

/-- The own slots that the `n` units of a program access leaving the core at `t` use (R298). -/
def Mach.progSlots (m : Mach) (core lvl n t : Nat) : List Nat :=
  let s := m.ownSlot core (lvlReach lvl) t
  (List.range n).map fun k => s + k * (lvlReach lvl).step

/-- F.GROUPCLASH where a slot of a program access is booked (R298). -/
def Core.slotTraps (c : Core) (lvl : Nat) (write : Bool) (ts : List Nat) : List Trap :=
  if ts.any fun t => c.slotBusy (lvlReach lvl) write t then [clashTrap] else []

/-- Slots booked by a program access. -/
def Mach.bookSlots (m : Mach) (core lvl : Nat) (write : Bool) (ts : List Nat) (froze : Bool) : Mach :=
  ts.foldl (fun m t => m.bookSlot core (lvlReach lvl) write t froze) m

/-- The timing of a program access of a core to one of its levels (R100, R201, R298): the port cycles of its own groups, its slots
in route order, and, unit by unit, the cycle its bytes are read (or it departs) and the cycle they are at the core (or land). -/
structure Timing where
  ports : List (Nat × Nat)
  slots : List Nat
  reads : List Nat
  data  : List Nat
  deriving DecidableEq, Repr

/-- The timing of a read of `n` units that leaves the core in cycle `t`; at the core's own level the units of one group row take one
port cycle. -/
def Mach.readTiming (m : Mach) (core lvl off n t : Nat) : Timing :=
  if lvl = 0 then ⟨[(groupOf off, t)], [], List.replicate n t, List.replicate n t⟩
  else
    let ss := m.progSlots core lvl n t
    if lvl = 1 then ⟨[], ss, ss.map (· + 8), ss.map (· + 20)⟩ else ⟨[], ss, ss.map (· + 15), ss.map (· + 30)⟩

/-- The timing of a write of `n` units that leaves the core in cycle `t`: departures and landings. -/
def Mach.writeTiming (m : Mach) (core lvl off n t : Nat) : Timing :=
  if lvl = 0 then ⟨[(groupOf off, t)], [], List.replicate n t, List.replicate n (t + 1)⟩
  else
    let ss := m.progSlots core lvl n t
    if lvl = 1 then ⟨[], ss, ss, ss.map (· + 16)⟩ else ⟨[], ss, ss, ss.map (· + 30)⟩

/-- The greatest of a list. -/
def maxOf (l : List Nat) : Nat := l.foldl max 0

/-- Banks of a core, segments of a quad or of a die (R99, R124). -/
def Pad.count : Pad → Nat
  | .core _ => 48
  | .quad _ => 16
  | .die _ => 32

/-- The banks or segments that `n` bytes touch within a scratchpad and the core's partition. -/
def Mach.unitsIn (m : Mach) (core : Nat) (p : Pad) (off n : Nat) : List Nat :=
  (p.units off n).filter fun u => u < p.count && (match p with | .die d => m.segInPart core d u | _ => true)

/-- F.SLEEP for the banks or segments that `n` bytes touch (R117). -/
def Mach.padSleepTraps (m : Mach) (core : Nat) (p : Pad) (off n : Nat) : List Trap :=
  m.sleepTraps ((m.unitsIn core p off n).map p.dom)

/-- The checks of R124, R200 and R117 on an access of `n` bytes at a level: F.SLEEP of what it touches, and F.SPRANGE. -/
def Mach.accessTraps (m : Mach) (core lvl ea n align : Nat) : List Trap :=
  m.padSleepTraps core (padAt core lvl) ea n ++ trapUnless (m.inRange core lvl ea n && ea % align == 0) Code.sprange 0 ea

/-- F.GROUPCLASH of a timed access (R101, R298). -/
def Core.timingTraps (c : Core) (lvl : Nat) (write : Bool) (t : Timing) : List Trap :=
  c.clashTraps t.ports ++ c.slotTraps lvl write t.slots

/-- A timed access's port cycles and slots booked. -/
def Mach.bookTiming (m : Mach) (core lvl : Nat) (write : Bool) (t : Timing) (froze : Bool := false) : Mach :=
  (m.modCore core fun c => c.bookPorts t.ports).bookSlots core lvl write t.slots froze

/-- The result of a load that is gathered by late reads: 256 bytes a unit from `off` on, written in the cycle after the last unit is
at the core (R298). -/
def Mach.gathered (m : Mach) (st : Stream) (p : Pad) (off n : Nat) (t : Timing) (d : Dest) : Result :=
  let unit (k r : Nat) : LateRead :=
    let a := if k = 0 then off else (off / 256 + k) * 256
    let e := min ((off / 256 + k + 1) * 256) (off + n)
    { cyc := r, pad := p, off := a, len := e - a, pos := a - off, valid := none }
  { m.result st 0 d 0 with w := maxOf t.data + 1, reads := (List.range t.reads.length).zipWith unit t.reads }

end Sys2Proof.Machine
end

