-- ==== Sys2Proof/Machine/CopyDesc.lean ====
section
/-! DEFINITION. The descriptor of a copy (R285 to R287, R294), the logical quads and dies of a partition (R25), and the memory that a
scope covers (R135). -/
namespace Sys2Proof.Machine

/-- SPACE of a copy's source and destination (R285, R286). -/
def Copy.srcSpace (k : Copy) : Nat := (bits k.desc 60 4).toNat
/-- SPACE of a copy's destination. -/
def Copy.dstSpace (k : Copy) : Nat := (bits k.desc 124 4).toNat

/-- Whether a copy is still to complete in cycle `now`. -/
def Copy.open? (k : Copy) (now : Nat) : Bool :=
  match k.doneAt with
  | some t => now ≤ t
  | none => true

/-! ### Descriptor fields (R285) -/

namespace Copy

/-- A field of the descriptor by its byte offset and its bits. -/
def field (k : Copy) (off n : Nat) : Nat := (bits k.desc (8 * off) n).toNat
/-- ADDR of a side. -/
def addr (k : Copy) (dst : Bool) : Nat := k.field (if dst then 8 else 0) 48
/-- QUAL of a side. -/
def qual (k : Copy) (dst : Bool) : Nat := k.field (if dst then 14 else 6) 12
/-- SPACE of a side. -/
def space (k : Copy) (dst : Bool) : Nat := if dst then k.dstSpace else k.srcSpace
/-- The row stride of a side. -/
def stride (k : Copy) (dst : Bool) : Int := (bits k.desc (if dst then 160 else 128) 32).toInt
/-- ROWS. -/
def nrows (k : Copy) : Nat := k.field 0x18 16
/-- SFMT or DFMT. -/
def fmtField (k : Copy) (dst : Bool) : Nat := k.field (if dst then 0x1B else 0x1A) 8
/-- RLEN. -/
def rlen (k : Copy) : Nat := k.field 0x1C 24
/-- BAND. -/
def band (k : Copy) : Nat := k.field 0x26 16
/-- The address of the scales of a quantising copy. -/
def scaleAddr (k : Copy) : Nat := k.field 0x20 48
/-- AUX. -/
def aux (k : Copy) : Nat := k.field 0x28 64
/-- CTL.TIMED. -/
def ctlTimed (k : Copy) : Bool := k.desc.getLsbD (8 * 0x30)
/-- CTL.QUANT. -/
def quant (k : Copy) : Bool := k.desc.getLsbD (8 * 0x30 + 1)

/-- The index that gives the address of row `i` on a side (R294). -/
def rowIdx (k : Copy) (dst : Bool) (i : Nat) : Nat :=
  if (k.op = 2 && !dst) || (k.op = 3 && dst) then nth k.idx i 0 else i

/-- The address of row `i` on a side (R287). -/
def rowAddr (k : Copy) (dst : Bool) (i : Nat) : Int :=
  (k.addr dst : Int) + (if dst then k.ddst else k.dsrc).toInt + (k.rowIdx dst i : Int) * k.stride dst

end Copy

/-! ### Logical quads and dies of a partition (R25) -/

/-- The physical quad of a logical quad of the partition. -/
def Bind.quadNo (b : Bind) (n : Nat) : Option Nat := ((List.range 24).filter b.quads.getLsbD)[n]?

/-- The physical die of a logical die of the partition. -/
def Bind.dieNo (b : Bind) (n : Nat) : Option Nat := ((List.range 4).filter fun d => bits b.quads (6 * d) 6 != 0)[n]?

/-! ### The memory of a side -/

/-- The members that an XMCAST names, as cores (R295). -/
def Copy.castCores (k : Copy) (core : Nat) : List Nat :=
  ((List.range 4).filter fun i => k.aux / 2 ^ i % 2 = 1).map fun i => 4 * quadOf core + i

/-- The scratchpad a side names, if it names one that exists (R286): of an XMCAST's destination the first member's (R295). -/
def Mach.sidePad (m : Mach) (core : Nat) (k : Copy) (dst : Bool) : Option Pad :=
  let q := k.qual dst
  let b := (m.core core).bound
  match k.space dst with
  | 0 => if q = 0 then some (.core (if k.op = 5 && dst then (k.castCores core).headD core else core)) else none
  | 1 => if q = 0 then some (.quad (quadOf core))
    else if q / 32 = 64 then (b.bind fun b => b.quadNo (q % 32)).map Pad.quad else none
  | 2 => if q = 0 then some (.die (dieOf core))
    else if q / 4 = 512 then (b.bind fun b => b.dieNo (q % 4)).map Pad.die else none
  | 6 => if q = 0 then some (.core core) else none
  | _ => none

/-- The access a side makes (R133, R309). -/
def Copy.access (k : Copy) (dst : Bool) : Access := if dst then (if k.op = 4 then .atomic else .write) else .read

/-! ### Memory covered by a scope (R135) -/

/-- Whether a scope of a core covers a place (R135): .lc and .core the core's scratchpad, .quad those of the quad, .die those of the die
with its HBM channels, .part and .pkg all scratchpads and all HBM, .node also the CXL tier and host memory, .fab also peer memory. -/
def coversPlace (core scope : Nat) : Place → Bool
  | .pad (.core n) _ => if scope ≤ 1 then n == core else if scope = 2 then quadOf n == quadOf core else scope != 3 || dieOf n == dieOf core
  | .pad (.quad q) _ => 2 ≤ scope && (if scope = 2 then q == quadOf core else scope != 3 || q / 6 == dieOf core)
  | .pad (.die d) _ => 3 ≤ scope && (scope != 3 || d == dieOf core)
  | .dev a =>
    if Config.cxlPage (a / 0x10000) then 6 ≤ scope
    else 3 ≤ scope && (scope != 3 || stackDie (Config.hbmChannel (a / 0x10000)).1.toNat == dieOf core)
  | .host _ => 6 ≤ scope
  | .peer _ _ => 7 ≤ scope

/-- Whether a scope covers the memory of a task address (log entry 44): where its translation leads, and from .die on where it has none. -/
def Mach.vaCovered (m : Mach) (core scope : Nat) (k : Access) (va : Nat) : Bool :=
  match (m.core core).bound with
  | none => false
  | some b => match walk12 m.dev b.s1root b.s2root va k with
    | .ok f => coversPlace core scope (.dev f.pa)
    | .error _ => 3 ≤ scope

/-- Whether a scope covers the memory of a row of a side of an open copy. -/
def Mach.rowCovered (m : Mach) (core scope : Nat) (k : Copy) (dst : Bool) (row : Nat) : Bool :=
  match m.sidePad core k dst with
  | some p => 2 ≤ scope && coversPlace core scope (.pad p 0)
  | none => match k.space dst with
    | 3 => m.vaCovered core scope (k.access dst) (k.rowAddr dst row).toNat
    | 4 => 6 ≤ scope
    | _ => 7 ≤ scope

end Sys2Proof.Machine
end

