-- ==== Sys2Proof/Machine/Sync.lean ====
section
/-! DEFINITION. Semaphores (R165), fences (R142), barriers (R29, R147, R212 to R214) and the busy lane clusters of a core (R187). -/
namespace Sys2Proof.Machine

/-! ### Semaphores -/

/-- A semaphore's count. -/
def Core.semCount (c : Core) (n : Nat) : Nat := nth c.scal.sem n 0

/-- A semaphore's count replaced. -/
def Core.setSem (c : Core) (n v : Nat) : Core := { c with scal := { c.scal with sem := c.scal.sem.set n v } }

/-- A signal of `k`, saturating at 65,535 (R165). -/
def Core.semSignal (c : Core) (n k : Nat) : Core := c.setSem n (min 65535 (c.semCount n + k))

/-- A wait's subtraction, where the count suffices (R165). -/
def Core.semTake (c : Core) (n k : Nat) : Option Core :=
  if k ≤ c.semCount n then some (c.setSem n (c.semCount n - k)) else none

/-! ### Fences (R142) -/

/-- Whether a fence waits in cycle `now` for a result in flight of the S stream: for the write it makes, or the read that its register
write ends. -/
def Result.fenced (r : Result) (covers : Place → Bool) (reads writes : Bool) : Bool :=
  r.st == 0 && (match r.dest with
    | .pad p bs => writes && bs.any fun b => covers (.pad p b.1)
    | .atom pl _ _ _ _ => (reads || writes) && covers pl
    | _ => reads && r.src.any covers)

/-- Whether a fence waits in cycle `now` for an S access that completed in this cycle: it has effect from the next on. -/
def Scal.fenced (c : Scal) (now : Nat) (covers : Place → Bool) (reads writes : Bool) : Bool :=
  c.ended.1 == now && c.ended.2.any fun a => (if a.2 then writes else reads) && covers a.1

/-- Whether a fence waits in cycle `now` for a unit of a timed copy. What a stop has frozen does not count (R182). -/
def CopyUnit.fenced (u : CopyUnit) (stop : Option Stop) (now : Nat) (covers : Place → Bool) (reads writes : Bool) : Bool :=
  !(stop.any fun p => p.held && p.cyc ≤ u.depAt) &&
  ((reads && now ≤ u.haveAt && u.src.any fun x => covers x.1) || (writes && now ≤ u.newAt.getD u.writeAt && u.dst.any fun x => covers x.1))

/-- Whether a fence waits in cycle `now` for a copy (R142): for the units of a timed one, or for the rows of an open one that are still to
come; arrivals into the core's own buffers count at every scope. -/
def Mach.copyFenced (m : Mach) (core scope : Nat) (reads writes : Bool) (k : Copy) : Bool :=
  let c := m.core core
  let held := c.stop.any Stop.held
  let covers (pl : Place) : Bool := 2 ≤ scope && coversPlace core scope pl
  k.refill.isNone &&
  if k.timed then k.units.any fun u => u.fenced c.stop m.now covers reads writes
  else k.open? m.now && (List.range k.nrows).any fun i =>
    (k.rows.any (fun r => r.row == i) || (k.sent ≤ i && k.fault.isNone && !held)) &&
    ((reads && k.op != 6 && m.rowCovered core scope k false i) || (writes && (m.rowCovered core scope k true i || k.space true == 0)))

/-- Whether a fence of a scope has effect in this cycle (R142) for the accesses issued before cycle `cut`: `kind` 0 reads and writes, 1
writes, 2 reads; `s`: it covers the S stream's own accesses (R209), beside the X stream's copies. -/
def Mach.fenceReady (m : Mach) (core : Nat) (s : Bool) (scope kind cut : Nat) : Bool :=
  let c := m.core core
  let reads := kind != 1
  let writes := kind != 2
  let covers (pl : Place) : Bool := 2 ≤ scope && coversPlace core scope pl
  (!s || ((c.flight.all fun r => !r.fenced covers reads writes) && !c.scal.fenced m.now covers reads writes &&
    (!writes || c.glb.writes.all fun w => !w.stg || w.acked || w.dead || !(w.bytes.any fun b => covers (.dev b.1))) &&
    c.glb.loads.all fun g => !(reads || (writes && g.atom.isSome)) || (match g.doneAt with | some t => t < m.now | none => false) ||
      !(match g.pa with | some a => covers (.dev a) | none => m.vaCovered core scope (if g.atom.isSome then .atomic else .read) g.va))) &&
  c.xe.copies.all fun k => cut ≤ k.issued || !m.copyFenced core scope reads writes k

/-! ### Barriers -/

/-- The barrier instance of a scope code at a core (R212). -/
def barInst (core scope : Nat) : BarInst :=
  match scope with
  | 2 => .quad (quadOf core)
  | 3 => .die (dieOf core)
  | _ => .part

/-- The cycles of an arrival or a completion (R214). -/
def barDelay : BarInst → Nat
  | .quad _ => 4
  | .die _ => 12
  | .part => 40

/-- Whether a core lies in an instance. -/
def barHolds (i : BarInst) (core : Nat) : Bool :=
  match i with
  | .quad q => quadOf core == q
  | .die d => dieOf core == d
  | .part => true

/-- The bound cores of a task within an instance. -/
def Mach.barCores (m : Mach) (ref : BarRef) : List Nat :=
  m.active.filter fun k => barHolds ref.inst k && (match (m.core k).bound with | some b => b.task == ref.task && !b.out | none => false)

/-- A barrier: as it stands, or as at the task's start (R212). -/
def Mach.bar (m : Mach) (ref : BarRef) : Barrier :=
  match m.bars.find? fun b => b.ref == ref with
  | some b => b
  | none =>
    let cs := m.barCores ref
    { ref := ref, expect := cs.length, track := true, members := cs, arrived := 0, gen := 0, coming := [], last := [],
      reached := [], going := [], waiting := [] }

/-- A barrier replaced. -/
def Mach.setBar (m : Mach) (b : Barrier) : Mach :=
  { m with bars := b :: m.bars.filter fun x => x.ref != b.ref }

/-- The generation completed at a core, counted from 1. -/
def Barrier.reachedAt (b : Barrier) (core : Nat) : Nat := ((b.reached.find? fun x => x.1 == core).map Prod.snd).getD 0

/-- The generation of a core's latest arrival, if it has one. -/
def Barrier.lastOf (b : Barrier) (core : Nat) : Option Nat := (b.last.find? fun x => x.1 == core).map Prod.snd

/-- Whether an arrival of the core is under way or its generation has not completed at the core: a generation completes for a core when its
completion has reached it, which is the model's choice for BAR.arr's hold of R213 (log entry 73). -/
def Barrier.unfinished (b : Barrier) (core : Nat) : Bool :=
  (b.coming.any fun x => x.2 == core) || (match b.lastOf core with | some g => b.reachedAt core ≤ g | none => false)

/-- The barrier after a change in cycle `now` (R29, R213, R214): it completes, or its waiters starve, or neither. `cores` are the
task's cores within the instance; a BAR.wait of a core whose streams are stopped has not issued, so that core does not wait (`runs`). -/
def Barrier.settle (b : Barrier) (now : Nat) (cores : List Nat) (runs : Nat → Bool) : Barrier :=
  if 0 < b.arrived && b.expect ≤ b.arrived then
    { b with gen := b.gen + 1, arrived := 0, waiting := [], going := b.going ++ cores.map fun k => (now + barDelay b.ref.inst, k, b.gen, false) }
  else
    let late := (b.coming.filter fun x => b.members.contains x.2).length
    let starved := !b.members.isEmpty && b.members.all (fun k => b.waiting.contains k && runs k) && b.arrived + late < b.expect &&
      !(b.going.any fun x => x.2.2.2)
    if starved then { b with going := b.going ++ (b.waiting.filter runs).map fun k => (now + barDelay b.ref.inst, k, b.gen, true) } else b

/-- Whether a waiting core waits for the generation now open. -/
def Barrier.waitsOpen (b : Barrier) (core : Nat) : Bool :=
  (b.coming.any fun x => x.2 == core) || b.lastOf core == some b.gen

/-- A barrier changed and tested. -/
def Mach.changeBar (m : Mach) (ref : BarRef) (f : Barrier → Barrier) : Mach :=
  m.setBar ((f (m.bar ref)).settle m.now (m.barCores ref) fun k => (m.core k).stop.isNone)

/-- A core waits at a barrier, as its BAR.wait tries to issue (R29, R213). -/
def Barrier.wait (core : Nat) (b : Barrier) : Barrier :=
  if b.waiting.contains core then b else { b with waiting := b.waiting ++ [core] }

/-- A core waits at a barrier no more: its BAR.wait has trapped (R29). -/
def Barrier.unwait (core : Nat) (b : Barrier) : Barrier := { b with waiting := b.waiting.filter (· != core) }

/-- A core joins a barrier (R213). -/
def Barrier.join (core : Nat) (b : Barrier) : Barrier :=
  if b.members.contains core then b
  else { b with members := b.members ++ [core], expect := if b.track then b.expect + 1 else b.expect }

/-- A core leaves a barrier (R29, R213). -/
def Barrier.leave (core : Nat) (b : Barrier) : Barrier :=
  if b.members.contains core then
    { b with members := b.members.filter (· != core), expect := if b.track then b.expect - 1 else b.expect }
  else b

/-- A core's exit: it leaves every barrier of its task and waits at none (R29, R214). -/
def Mach.barExit (m : Mach) (core : Nat) : Mach :=
  match (m.core core).bound with
  | none => m
  | some bd =>
    (m.bars.filter fun b => b.ref.task == bd.task).foldl (fun m b =>
      m.changeBar b.ref fun b =>
        let b := b.leave core
        { b with waiting := b.waiting.filter (· != core), going := b.going.filter fun x => x.2.1 != core })
      (m.modCore core fun c => { c with bound := some { bd with out := true } })

/-! ### Lane clusters that run forked tile instructions (R187, R215) -/

/-- LCBUSY as tested in cycle `now`: from the cycle after an instruction's issue on, and a retirement in this cycle still counts (R215, R216). -/
def Core.lcBusy (c : Core) (now : Nat) : BitVec 4 :=
  c.port.tiles.foldl (fun a t => if t.since ≤ now && now ≤ t.retire then a ||| t.lcm else a) 0

end Sys2Proof.Machine
end

