-- ==== Sys2Proof/Machine/Scalar.lean ====
section
/-! DEFINITION. The S stream (R189 to R214): arithmetic, predicates, scratchpad and global accesses, atomics, queues, semaphores,
pennants, fences, phases, rings and barriers. -/
namespace Sys2Proof.Machine

/-! ### The common part of an S lane -/

/-- What an S lane uses: s registers read, queues popped, s registers written, locations written and further locations read (R93),
whether it is held, and the faults it meets. -/
structure SUse where
  regs  : List Nat
  pops  : List Nat
  wr    : List Nat
  own   : List Loc
  locs  : List Loc
  held  : Bool
  traps : List Trap
  deriving DecidableEq, Repr

/-- Nothing used. -/
def SUse.none : SUse := { regs := [], pops := [], wr := [], own := [], locs := [], held := false, traps := [] }

/-- The use of operands read and of a register written. -/
def SUse.ops (os : List SOp) (dst : Nat) : SUse :=
  { SUse.none with regs := os.flatMap SOp.regs, pops := os.flatMap SOp.pops, wr := [dst], own := [.s dst] }

/-- The uses of both. -/
def SUse.and (a b : SUse) : SUse :=
  { regs := a.regs ++ b.regs, pops := a.pops ++ b.pops, wr := a.wr ++ b.wr, own := a.own ++ b.own, locs := a.locs ++ b.locs,
    held := a.held || b.held, traps := a.traps ++ b.traps }

/-- Whether no S lane issues because an acquire atomic has not written its old value (R205). The rule names the lanes due before that cycle: the model's
choice is that one due in it waits too, until the cycle after (log entry 81). -/
def Core.sBlocked (c : Core) (now : Nat) : Bool :=
  (match c.scal.block with | some t => now < t | none => false) ||
  c.glb.loads.any fun g => g.acq.isSome && (match g.doneAt with | some t => now ≤ t | none => true)

/-- The base register's new value in a post-increment form (R200): register and value. -/
def Lane.postInc (c : Core) (l : Lane) : Option (Nat × W64) :=
  if modeStep l.b then some (l.a.toNat, c.sreg l.a.toNat + l.imm.signExtend 64) else none

/-- The base update put in flight (R200). -/
def Mach.writeBase (m : Mach) (inc : Option (Nat × W64)) : Mach :=
  match inc with
  | some (r, v) => m.write .s 1 (.s (BitVec.ofNat 5 r) v) 0
  | none => m

/-- The address of LD, ST, LDG and STG (R200). -/
def Lane.address (c : Core) (l : Lane) : Nat :=
  let base := c.sreg l.a.toNat
  (if modeStep l.b then base else base + l.imm.signExtend 64).toNat

/-- An S lane: predicated off it only updates a base register (R192); else it is held on pending registers and empty queues (R191,
R202), checked, and acts. -/
def runS (l : Lane) (inc : Core → Option (Nat × W64)) (use : Mach → SUse) (act : Mach → LaneOut) (s : State) :
    Host.Outcome State Fault Refusal :=
  runLane .s (fun m =>
    let c := m.me
    if c.sBlocked m.now then .hold m
    else if !c.preg l.p.toNat then
      match inc c with
      | some (r, v) => if c.pending m.now r then .hold m else .done (m.writeBase (some (r, v))) 0
      | none => .done m 0
    else
      let u := use m
      if u.held || !c.popsReady u.pops || (u.regs ++ u.wr).any (c.pending m.now) then .hold m
      else
        let reads := .p l.p.toNat :: (u.regs.map Loc.s ++ u.locs)
        checked (m.staleTraps u.own reads ++ u.traps)
          (match act m with
           | .done m' n => .done (m'.modMe fun c => c.popAll m.now u.pops) n
           | o => o)) s

/-- No base register. -/
def noInc (_ : Core) : Option (Nat × W64) := none

/-- An S lane that writes an s register after `lat` cycles from its A and B operands (R193). -/
def sArith (l : Lane) (lat : Nat) (unsigB : Bool) (f : W64 → W64 → W64 × Flags) (s : State) : Host.Outcome State Fault Refusal :=
  runS l noInc (fun m => SUse.ops [m.me.sA l, m.me.sB l unsigB] l.dst.toNat)
    (fun m =>
      let r := f (m.me.sA l).val (m.me.sB l unsigB).val
      .done (m.write .s lat (.s l.dst r.1) r.2) 0) s

/-! ### Lanes of every stream (R47) -/

/-- NOP (R47). -/
def execNop (st : Stream) (_ : Lane) (s : State) : Host.Outcome State Fault Refusal :=
  runLane st (fun m => if st == .s && m.me.sBlocked m.now then .hold m else .done m 0) s

/-- WAIT.C (R47). -/
def execWaitC (st : Stream) (l : Lane) (s : State) : Host.Outcome State Fault Refusal :=
  runLane st (fun m => if st == .s && m.me.sBlocked m.now then .hold m else .done m l.litU) s

/-! ### Arithmetic and logic (R194 to R199) -/

/-- ADD (R194). -/
def execSAdd (l : Lane) (s : State) : Host.Outcome State Fault Refusal :=
  sArith l 1 false (fun a b => fit64 l.sat (a.toInt + b.toInt)) s

/-- SUB (R194). -/
def execSSub (l : Lane) (s : State) : Host.Outcome State Fault Refusal :=
  sArith l 1 false (fun a b => fit64 l.sat (a.toInt - b.toInt)) s

/-- MUL (R194). -/
def execSMul (l : Lane) (s : State) : Host.Outcome State Fault Refusal :=
  sArith l 3 false (fun a b => fit64 l.sat (a.toInt * b.toInt)) s

/-- MULH (R195). -/
def execSMulh (l : Lane) (s : State) : Host.Outcome State Fault Refusal :=
  sArith l 3 false (fun a b => (mulHigh l.fn.toNat a b, 0)) s

/-- DIVQ (R195). -/
def execSDivq (l : Lane) (s : State) : Host.Outcome State Fault Refusal :=
  sArith l 18 false (fun a b => (divq l.fn.toNat a b, 0)) s

/-- AND (R194). -/
def execSAnd (l : Lane) (s : State) : Host.Outcome State Fault Refusal := sArith l 1 false (fun a b => (a &&& b, 0)) s

/-- OR (R194). -/
def execSOr (l : Lane) (s : State) : Host.Outcome State Fault Refusal := sArith l 1 false (fun a b => (a ||| b, 0)) s

/-- XOR (R194). -/
def execSXor (l : Lane) (s : State) : Host.Outcome State Fault Refusal := sArith l 1 false (fun a b => (a ^^^ b, 0)) s

/-- SHL (R194). -/
def execSShl (l : Lane) (s : State) : Host.Outcome State Fault Refusal :=
  sArith l 1 true (fun a b => (a <<< (b.toNat % 64), 0)) s

/-- SHR (R194). -/
def execSShr (l : Lane) (s : State) : Host.Outcome State Fault Refusal :=
  sArith l 1 true (fun a b => (a >>> (b.toNat % 64), 0)) s

/-- SRA (R194). -/
def execSSra (l : Lane) (s : State) : Host.Outcome State Fault Refusal :=
  sArith l 1 true (fun a b => (a.sshiftRight (b.toNat % 64), 0)) s

/-- MIN (R196). -/
def execSMin (l : Lane) (s : State) : Host.Outcome State Fault Refusal :=
  sArith l 1 false (fun a b => (if (if l.fn = 0 then a.toInt ≤ b.toInt else a.toNat ≤ b.toNat) then a else b, 0)) s

/-- MAX (R196). -/
def execSMax (l : Lane) (s : State) : Host.Outcome State Fault Refusal :=
  sArith l 1 false (fun a b => (if (if l.fn = 0 then a.toInt ≤ b.toInt else a.toNat ≤ b.toNat) then b else a, 0)) s

/-- MOVI (R197): the literal, sign-extended. -/
def execSMovi (l : Lane) (s : State) : Host.Outcome State Fault Refusal :=
  runS l noInc (fun _ => SUse.ops [] l.dst.toNat)
    (fun m => .done (m.write .s 1 (.s l.dst (BitVec.ofInt 64 (Lane.litS l))) 0) 0) s

/-- A word with 16-bit chunk `h` replaced. -/
def setChunk (v : W64) (h : Nat) (x : BitVec 16) : W64 :=
  (v &&& ~~~((0xFFFF : W64) <<< (16 * h))) ||| (x.setWidth 64 <<< (16 * h))

/-- MOVI.h1 to .h3 (R197): one chunk replaced. -/
def execSMoviH (l : Lane) (s : State) : Host.Outcome State Fault Refusal :=
  runS l noInc (fun _ => { SUse.ops [] l.dst.toNat with regs := [l.dst.toNat] })
    (fun m => .done (m.write .s 1 (.s l.dst (setChunk (m.me.sreg l.dst.toNat) l.fn.toNat l.imm)) 0) 0) s

/-- SEL (R196): P is its selector, so no lane is predicated off. -/
def execSSel (l : Lane) (s : State) : Host.Outcome State Fault Refusal :=
  runS { l with p := 0 } noInc
    (fun m => { SUse.ops [m.me.sA l, m.me.sB l false] l.dst.toNat with locs := [.p l.p.toNat] })
    (fun m => .done (m.write .s 1 (.s l.dst (if m.me.preg l.p.toNat then (m.me.sA l).val else (m.me.sB l false).val)) 0) 0) s

/-- CMP (R198). -/
def execSCmp (l : Lane) (s : State) : Host.Outcome State Fault Refusal :=
  runS l noInc (fun m => { SUse.ops [m.me.sA l, m.me.sB l false] 0 with wr := [], own := [.p (l.dst.toNat % 8)] })
    (fun m => .done (m.write .s 1 (.p (l.dst.setWidth 3) (condS l.fn.toNat (m.me.sA l).val (m.me.sB l false).val)) 0) 0) s

/-- The predicate PSET writes (R198). -/
def psetValue (c : Core) (l : Lane) : Bool :=
  let a := c.preg (l.a.toNat % 8)
  let b := c.preg (l.b.toNat % 8)
  match l.fn.toNat with
  | 0 => a && b
  | 1 => a || b
  | 2 => a != b
  | 3 => a && !b
  | 4 => a || !b
  | _ => c.sreg l.a.toNat != 0

/-- What PSET uses, its holds and faults. -/
def useSPset (l : Lane) (_ : Mach) : SUse :=
  if l.fn.toNat = 5 then { SUse.none with regs := [l.a.toNat], own := [.p (l.dst.toNat % 8)] }
      else { SUse.none with locs := [.p (l.a.toNat % 8), .p (l.b.toNat % 8)], own := [.p (l.dst.toNat % 8)] }

/-- PSET (R198). -/
def execSPset (l : Lane) (s : State) : Host.Outcome State Fault Refusal :=
  runS l noInc
    (useSPset l)
    (fun m => .done (m.write .s 1 (.p (l.dst.setWidth 3) (psetValue m.me l)) 0) 0) s

/-- Entry `f` of a work-identifier specification (R22): width and source. -/
def widEntry (spec : W64) (f : Nat) : Nat × Nat := ((spec.toNat / 2 ^ (10 * f + 4)) % 64, (spec.toNat / 2 ^ (10 * f)) % 16)

/-- Field `f` of a WID, right-justified (R22, R199): 0 for a field without source, for the lane cluster's and beyond field 5. -/
def widField (spec wid : W64) (f : Nat) : W64 :=
  if 6 ≤ f then 0
  else
    let pos := (List.range f).foldl (fun a i => a + (widEntry spec i).1) 0
    let e := widEntry spec f
    if e.2 = 0 || e.2 = 1 then 0 else BitVec.ofNat 64 (wid.toNat / 2 ^ pos % 2 ^ e.1)

/-- RDWID (R199). -/
def execSRdwid (l : Lane) (s : State) : Host.Outcome State Fault Refusal :=
  runS l noInc (fun _ => SUse.ops [] l.dst.toNat)
    (fun m =>
      let v : W64 := match m.me.bound with
        | none => 0
        | some b => if l.kb = 0 then b.wid else widField b.widSpec b.wid l.litU
      .done (m.write .s 1 (.s l.dst v) 0) 0) s

/-! ### Scratchpad loads and stores (R200, R201) -/

/-- Bytes of an access by FN (R201). -/
def accessBytes (fn : BitVec 3) : Nat := 2 ^ (fn.toNat % 4)

/-- Whether a load sign-extends (R201). -/
def accessSigned (fn : BitVec 3) : Bool := fn.toNat ≥ 4

/-- A loaded value extended to 64 bits (R201). -/
def extendLoad (bytes : Nat) (signed : Bool) (v : Nat) : W64 :=
  if signed then BitVec.ofInt 64 (decInt (8 * bytes) true v) else BitVec.ofNat 64 v

/-- What LD uses, its holds and faults. -/
def useSLd (l : Lane) (m : Mach) : SUse :=
  let n := accessBytes l.fn
  let lvl := modeLvl l.b
  let c := m.me
  let ea := Lane.address c l
  let t := m.readTiming m.cur lvl ea 1 m.now
  { regs := [l.a.toNat], pops := [], wr := l.dst.toNat :: (if modeStep l.b then [l.a.toNat] else []),
    own := .s l.dst.toNat :: (if modeStep l.b then [.s l.a.toNat] else []),
    locs := if lvl = 0 then wordLocs ea n else [],
    held := lvl == 0 && m.readStalls m.cur ea n,
    traps := m.accessTraps m.cur lvl ea n n ++ c.timingTraps lvl false t }

/-- LD (R201). -/
def execSLd (l : Lane) (s : State) : Host.Outcome State Fault Refusal :=
  let n := accessBytes l.fn
  let lvl := modeLvl l.b
  runS l (fun c => Lane.postInc c l)
    (useSLd l)
    (fun m =>
      let c := m.me
      let ea := Lane.address c l
      let t := m.readTiming m.cur lvl ea 1 m.now
      let p := padAt m.cur lvl
      let r : Result :=
        if lvl = 0 then m.result .s 4 (.s l.dst (extendLoad n (accessSigned l.fn) ((m.padMem p).value ea n))) 0
        else m.gathered .s p ea n t (.sLoad l.dst n (accessSigned l.fn))
      .done (((m.bookTiming m.cur lvl false t).writeBase (Lane.postInc c l)).modMe fun c => c.fly { r with src := some (.pad p ea) }) 0) s

/-- What ST uses, its holds and faults. -/
def useSSt (l : Lane) (m : Mach) : SUse :=
  let n := accessBytes l.fn
  let lvl := modeLvl l.b
  let c := m.me
  let ea := Lane.address c l
  let t := m.writeTiming m.cur lvl ea 1 m.now
  { regs := [l.a.toNat, l.dst.toNat], pops := [], wr := if modeStep l.b then [l.a.toNat] else [],
    own := if modeStep l.b then [.s l.a.toNat] else [], locs := [],
    held := false,
    traps := m.accessTraps m.cur lvl ea n n ++ (if lvl = 0 then m.writeBufTraps m.cur ea n else []) ++
      c.timingTraps lvl true t }

/-- ST (R201). -/
def execSSt (l : Lane) (s : State) : Host.Outcome State Fault Refusal :=
  let n := accessBytes l.fn
  let lvl := modeLvl l.b
  runS l (fun c => Lane.postInc c l)
    (useSSt l)
    (fun m =>
      let c := m.me
      let ea := Lane.address c l
      let t := m.writeTiming m.cur lvl ea 1 m.now
      let r : Result := { m.result .s 0 (.pad (padAt m.cur lvl) (atAddr ea (leBytes n (c.sreg l.dst.toNat).toNat))) 0 with
        w := maxOf t.data, dep := if lvl = 0 then none else some m.now }
      .done (((m.bookTiming m.cur lvl true t).writeBase (Lane.postInc c l)).modMe fun c => c.fly r) 0) s

/-! ### Global loads and stores (R202, R203) -/

/-- F.SPRANGE of a `glob:` address (R200): alignment and the 48-bit range. -/
def globRange (ea n : Nat) : List Trap :=
  trapUnless (ea % n == 0 && ea + n ≤ 2 ^ 48) Code.sprange 0 ea

/-- F.FOOTPRINT of an access of the core being served (R133), precise at its issue as R168 has it: that it is so for an open-class load too, where R133 and
R53 speak of a shadow fault, is the model's reading (log entry 83). -/
def Core.footTraps (c : Core) (k : Access) (ea n : Nat) : List Trap :=
  trapUnless (match c.bound with | some b => b.footOk k ea n | none => false) Code.footprint 0 ea

/-- Loads and open-class atomics outstanding in a cycle (R202). -/
def Core.loadsOut (c : Core) (now : Nat) : Nat :=
  (c.glb.loads.filter fun g => match g.doneAt with | some t => now ≤ t | none => true).length

/-- An open-class load or atomic issued by the S stream (R168, R202): sent, or, on a micro-TLB miss, with a walk begun and a
translation hold from the next cycle on. -/
def Mach.issueLoad (m : Mach) (l : Lane) (ea bytes : Nat) (signed : Bool) (atom : Option AtomOp) (acq : Option (BitVec 4)) : Mach :=
  m.modMe fun c =>
    let k : Access := if atom.isSome then .atomic else .read
    let pa := c.tlbHit ea k
    let st := c.stream .s
    let pos := match c.stop.bind Stop.reissue with | some (line, lane, _) => (line, lane) | none => (st.line, st.lane)
    let g : GLoad := { id := c.glb.nextId, dst := l.dst, va := ea, pa := pa, bytes := bytes, signed := signed, atom := atom,
                       acq := acq, issued := m.now, line := pos.1, lane := pos.2, walk := pa.isNone, doneAt := none,
                       gpa := if pa.isSome then c.tlbPages ea else none }
    { c with glb := { c.glb with loads := c.glb.loads ++ [g], nextId := c.glb.nextId + 1 },
             hold := if pa.isNone then c.hold.or (some (m.now + 1, g.id)) else c.hold }

/-- What LDG uses, its holds and faults. -/
def useSLdg (l : Lane) (m : Mach) : SUse :=
  let n := accessBytes l.fn
  let c := m.me
  let ea := Lane.address c l
  { regs := [l.a.toNat], pops := [], wr := l.dst.toNat :: (if modeStep l.b then [l.a.toNat] else []),
    own := if modeStep l.b then [.s l.a.toNat] else [], locs := [], held := 16 ≤ c.loadsOut m.now,
    traps := globRange ea n ++ c.footTraps .read ea n ++ c.tlbTraps ea .read }

/-- LDG (R202). -/
def execSLdg (l : Lane) (s : State) : Host.Outcome State Fault Refusal :=
  let n := accessBytes l.fn
  runS l (fun c => Lane.postInc c l)
    (useSLdg l)
    (fun m =>
      let c := m.me
      .done ((m.issueLoad l (Lane.address c l) n (accessSigned l.fn) none none).writeBase (Lane.postInc c l)) 0) s

/-- The walk of an STG's address in progress or just ended. -/
def Core.stgWalk (c : Core) (ea : Nat) : Option Walk := c.glb.walks.find? fun w => w.write && !w.atomic && w.va == ea

/-- What STG uses, its holds and faults. -/
def useSStg (l : Lane) (m : Mach) : SUse :=
  let n := accessBytes l.fn
  let c := m.me
  let ea := Lane.address c l
  { regs := [l.a.toNat, l.dst.toNat], pops := [], wr := if modeStep l.b then [l.a.toNat] else [],
    own := if modeStep l.b then [.s l.a.toNat] else [], locs := [],
    held := 32 ≤ (c.glb.writes.filter fun w => w.stg && !w.acked && !w.dead).length,
    traps := globRange ea n ++ c.footTraps .write ea n ++ c.tlbTraps ea .write ++
      (match c.stgWalk ea with | some { fault := some (code, d), .. } => [⟨code, d, BitVec.ofNat 64 ea⟩] | _ => []) }

/-- STG (R203). -/
def execSStg (l : Lane) (s : State) : Host.Outcome State Fault Refusal :=
  let n := accessBytes l.fn
  runS l (fun c => Lane.postInc c l)
    (useSStg l)
    (fun m =>
      let c := m.me
      let ea := Lane.address c l
      match c.tlbHit ea .write with
      | some pa =>
        let w : GWrite := { id := c.glb.nextId, bytes := atAddr pa (leBytes n (c.sreg l.dst.toNat).toNat), stg := true, acked := false,
                            dead := false, pub := none, pubNo := 0, fresh := true, issued := m.now, gpas := (c.tlbPages ea).toList }
        .done ((m.modMe fun c => { c with glb := { c.glb with
          writes := c.glb.writes ++ [w], nextId := c.glb.nextId + 1, walks := c.glb.walks.filter fun w => w.va != ea } }).writeBase
            (Lane.postInc c l)) 0
      | none =>
        match c.stgWalk ea with
        | some w => if w.done then
            .hold (m.modMe fun c => { c with glb := { c.glb with walks := c.glb.walks.filter fun x => x.id != w.id } })
          else .hold m
        | none =>
          let w : Walk := { id := c.glb.nextId, va := ea, write := true, atomic := false, done := false, fault := none }
          .hold (m.modMe fun c => { c with glb := { c.glb with walks := w :: c.glb.walks, nextId := c.glb.nextId + 1 } })) s

/-! ### Atomics (R204, R205) -/

/-- The scope of an atomic (R204). -/
def atomScope (l : Lane) : BitVec 4 := bits l.imm 12 4

/-- The level of an atomic (R204): 0 `glob:`, else 1 more than the level code of R200. -/
def atomLevel (l : Lane) : Nat := (bits l.imm 6 2).toNat

/-- The operation of an ATOM lane (R204). -/
def Lane.atomOp (c : Core) (l : Lane) : AtomOp :=
  { op := l.fn, w64 := l.imm.getLsbD 9, unsig := l.imm.getLsbD 8,
    val := (c.sOp l.kb l.b 0 []).val, cmp := (c.sOp l.kc l.c 0 []).val }

/-- F.BANKFMT and F.PERM of an atomic at a scratchpad address (R144). -/
def Mach.atomFmtTraps (m : Mach) (p : Pad) (ea : Nat) (w64 fadd : Bool) : List Trap :=
  let f := fmtOf (m.fmtReg p (p.unit ea))
  trapUnless (f == 0 || (!w64 && (f == 1 || f == 2))) Code.bankfmt 0 ea ++ trapUnless (!fadd) Code.perm 0 ea

/-- The slots of an atomic on a route (R205): the machine with them booked, the cycles it departs and lands, and the cycle its old
value is at the core; with `own` in the first own slots, else in the first free ones. -/
def Mach.atomRoute (m : Mach) (own : Bool) (core : Nat) (r : Reach) (t : Nat) : Option (Mach × Nat × Nat × Nat) :=
  match m.sendWrite core r t own with
  | none => none
  | some (m1, dep, land) =>
    match m1.sendRead core r (land - r.readDelay) own with
    | none => none
    | some (m2, _, _, data) => some (m2, dep, land, data)

/-- F.GROUPCLASH of an atomic whose own slot is booked (R205, R298; log entry 72): the first free slots are other than its own. -/
def Mach.atomClash (m : Mach) (core : Nat) (r : Reach) : List Trap :=
  if (m.atomRoute true core r m.now).map Prod.snd == (m.atomRoute false core r m.now).map Prod.snd then [] else [clashTrap]

/-- The effect of an ATOM lane in its issue cycle. -/
def atomAct (l : Lane) (m : Mach) : LaneOut :=
  let c := m.me
  let a := Lane.atomOp c l
  let ea := (c.sreg l.a.toNat).toNat
  let n := if a.w64 then 8 else 4
  let acq := if l.imm.getLsbD 10 then some (atomScope l) else none
  let free (m : Mach) : Mach := m.modMe fun c => { c with scal := { c.scal with rel := (none, c.scal.rel.2) } }
  let timed (m : Mach) (pl : Place) (dep : Option Nat) (land ret : Nat) : LaneOut :=
    let r : Result := { m.result .s 0 (.atom pl a l.dst ret acq) 0 with w := land, dep := dep }
    .done (m.modMe fun c =>
      let c := c.fly r
      if acq.isSome then { c with scal := { c.scal with block := some (ret + 1) } } else c) 0
  let m := free m
  match atomLevel l with
  | 0 =>
    match c.bound.bind (fun b => b.pin ea n) with
    | some w =>
      let pa := w.pbase + (ea - w.vbase)
      match m.atomRoute true m.cur (m.hbmReach m.cur pa) m.now with
      | some (m1, _, land, data) => timed m1 (.dev pa) (some m.now) land (data + 2)
      | none => .trap ⟨Code.timedmiss, 0, BitVec.ofNat 64 ea⟩
    | none => .done (m.issueLoad l ea n (!a.unsig) (some a) acq) 0
  | 1 => timed (m.modMe fun c => c.bookPorts [(groupOf ea, m.now), (groupOf ea, m.now + 2)]) (.pad (.core m.cur) ea) none
      (m.now + 2) (m.now + 4)
  | k =>
    match m.atomRoute true m.cur (lvlReach (k - 1)) m.now with
    | some (m1, _, land, data) => timed m1 (.pad (padAt m.cur (k - 1)) ea) (some m.now) land (data + 2)
    | none => .done m 0

/-- What an ATOM lane uses. -/
def atomUse (l : Lane) (m : Mach) : SUse :=
  let c := m.me
  let a := Lane.atomOp c l
  let ea := (c.sreg l.a.toNat).toNat
  let n := if a.w64 then 8 else 4
  let lvl := atomLevel l
  let pin := if lvl = 0 then c.bound.bind (fun b => b.pin ea n) else none
  { regs := l.a.toNat :: ((c.sOp l.kb l.b 0 []).regs ++ (c.sOp l.kc l.c 0 []).regs), pops := [], wr := [l.dst.toNat],
    own := [.s l.dst.toNat], locs := if lvl = 1 then wordLocs ea n else [],
    held := (lvl == 0 && pin.isNone && 16 ≤ c.loadsOut m.now) || (lvl == 1 && m.readStalls m.cur ea n),
    traps := match lvl with
      | 0 => globRange ea n ++ c.footTraps .atomic ea n ++
          (match pin with
           | some w => trapUnless (w.r && w.w) Code.perm 0 ea ++ trapUnless (a.op != 5 && !Config.cxlPage ((w.pbase + (ea - w.vbase)) / 0x10000)) Code.perm 0 ea ++
               m.atomClash m.cur (m.hbmReach m.cur (w.pbase + (ea - w.vbase)))
           | none => c.tlbTraps ea .atomic ++ trapUnless (match c.tlbHit ea .atomic, c.bound with
               | some pa, some b => !b.atomPerm (a.op == 5) pa
               | _, _ => true) Code.perm 0 ea)
      | k => m.accessTraps m.cur (k - 1) ea n n ++ m.atomFmtTraps (padAt m.cur (k - 1)) ea a.w64 (a.op == 5) ++
          (if k = 1 then m.writeBufTraps m.cur ea n ++ c.clashTraps [(groupOf ea, m.now), (groupOf ea, m.now + 2)]
           else m.atomClash m.cur (lvlReach (k - 1))) }

/-- What ATOM uses, its holds and faults. -/
def useSAtom (l : Lane) (m : Mach) : SUse :=
  let u := atomUse l m
  if l.imm.getLsbD 11 && (match m.me.scal.rel.1 with | some t => m.now ≤ t | none => true) then { u with traps := [], locs := [], own := u.regs.map Loc.s }
  else u

/-- ATOM (R204, R205): with REL it is held until the boundary of its scope has taken effect and issues in the cycle after (R146). -/
def execSAtom (l : Lane) (s : State) : Host.Outcome State Fault Refusal :=
  runS l noInc
    (useSAtom l)
    (fun m =>
      let c := m.me
      if l.imm.getLsbD 11 then
        match c.scal.rel.1 with
        | some t => if t < m.now then atomAct l m else .hold m
        | none =>
          if c.quiet (atomScope l) m.now then
            .hold ((m.boundary m.cur (atomScope l)).modMe fun c => { c with scal := { c.scal with rel := (some m.now, c.scal.rel.2) } })
          else .hold m
      else atomAct l m) s

/-! ### Queues, semaphores and pennants (R206 to R208) -/

/-- The value of a QPUSH (R206). -/
def Core.qpushOp (c : Core) (l : Lane) : SOp := c.sOp l.kb l.b (BitVec.ofInt 64 (Lane.litS l)) []

/-- QPUSH (R206). -/
def execSQpush (l : Lane) (s : State) : Host.Outcome State Fault Refusal :=
  runS l noInc
    (fun m => { SUse.none with regs := (m.me.qpushOp l).regs, held := m.me.qFree m.now l.dst.toNat == 0 })
    (fun m => .done (m.write .s 1 (.q (l.dst.setWidth 3) (m.me.qpushOp l).val) 0) 0) s

/-- SEMW (R207). -/
def execSSemw (l : Lane) (s : State) : Host.Outcome State Fault Refusal :=
  runS l noInc
    (fun m => { SUse.none with regs := if l.kb = 0 then [l.b.toNat] else [],
                               held := (m.me.semTake l.dst.toNat (m.me.sCount l)).isNone })
    (fun m => .done (m.modMe fun c => (c.semTake l.dst.toNat (c.sCount l)).getD c) 0) s

/-- SEMS (R207). -/
def execSSems (l : Lane) (s : State) : Host.Outcome State Fault Refusal :=
  runS l noInc (fun _ => { SUse.none with regs := if l.kb = 0 then [l.b.toNat] else [] })
    (fun m => .done (m.modMe fun c => c.semSignal l.dst.toNat (c.sCount l)) 0) s

/-- PNWAIT (R208). -/
def execSPnwait (l : Lane) (s : State) : Host.Outcome State Fault Refusal :=
  runS l noInc (fun m => { SUse.none with held := nth m.me.scal.pn l.dst.toNat 0 < l.litU % 65536 })
    (fun m => .done (m.modMe fun c => { c with scal := { c.scal with
      pn := c.scal.pn.modify l.dst.toNat fun x => x - l.litU % 65536 } }) 0) s

/-! ### Fences and phases (R209) -/

/-- FENCE (R209). -/
def execSFence (l : Lane) (s : State) : Host.Outcome State Fault Refusal :=
  runS l noInc (fun m => { SUse.none with held := !m.fenceReady m.cur true (l.a.toNat % 16) l.fn.toNat m.now })
    (fun m => .done m 0) s

/-- PHASE (R209). -/
def execSPhase (l : Lane) (s : State) : Host.Outcome State Fault Refusal :=
  runS l noInc (fun m => { SUse.none with held := !m.me.quiet (l.a.setWidth 4) m.now })
    (fun m => .done ((m.boundary m.cur (l.a.setWidth 4)).modMe fun c =>
      { c with scal := { c.scal with phase := some (m.now, l.a.setWidth 4) } }) 0) s

/-! ### Rings (R210, R211) -/

/-- F.RING for the descriptor words of a RINGSET (R211). -/
def ringWordTraps (a b : W64) : List Trap :=
  trapUnless (bits a 42 22 == 0 && bits b 30 34 == 0 &&
    ringBase a % 256 == 0 && ringSize a % 256 == 0 && ringTile b % 256 == 0 &&
    ringTile b != 0 && ringSize a % ringTile b == 0 && ringBase a + ringSize a ≤ 0x180000) Code.ring 0 0

/-- Whether an array operation or a refill in flight uses a ring (R211). -/
def Core.ringInUse (c : Core) (n : Nat) : Bool :=
  (c.mx.ops.any fun o => o.ringA == n || o.ringB == some n) || c.xe.copies.any fun k => k.refill == some n

/-- What RINGSET uses, its holds and faults. -/
def useSRingset (l : Lane) (m : Mach) : SUse :=
  let c := m.me
  { SUse.none with regs := [l.a.toNat, l.b.toNat], own := [.ring (l.dst.toNat % 8)],
                   traps := ringWordTraps (c.sreg l.a.toNat) (c.sreg l.b.toNat) ++
                     trapUnless (!c.ringInUse (l.dst.toNat % 8)) Code.ring 0 0 }

/-- RINGSET (R211). -/
def execSRingset (l : Lane) (s : State) : Host.Outcome State Fault Refusal :=
  runS l noInc
    (useSRingset l)
    (fun m =>
      .done (m.write .s 1 (.ring (l.dst.setWidth 3) (m.me.sreg l.a.toNat) (m.me.sreg l.b.toNat)) 0) 0) s

/-! ### Barriers (R213) -/

/-- The barrier a BAR lane names (R212). -/
def Lane.barRef (m : Mach) (l : Lane) : BarRef :=
  { task := (m.me.bound.map Bind.task).getD 0, inst := barInst m.cur (l.a.toNat % 16), num := l.dst.toNat }

/-- What BAR.init uses, its holds and faults. -/
def useSBarInit (l : Lane) (m : Mach) : SUse :=
  let n := m.me.sCount l
  { SUse.none with regs := if l.kb = 0 then [l.b.toNat] else [], held := (m.bar (Lane.barRef m l)).arrived != 0,
                   traps := trapUnless (1 ≤ n && n ≤ 96) Code.sprange 0 0 }

/-- BAR.init (R213). -/
def execSBarInit (l : Lane) (s : State) : Host.Outcome State Fault Refusal :=
  runS l noInc
    (useSBarInit l)
    (fun m => .done (m.changeBar (Lane.barRef m l) fun b => { b with expect := m.me.sCount l, track := false }) 0) s

/-- BAR.initt (R213). -/
def execSBarInitt (l : Lane) (s : State) : Host.Outcome State Fault Refusal :=
  runS l noInc (fun m => { SUse.none with held := (m.bar (Lane.barRef m l)).arrived != 0 })
    (fun m => .done (m.changeBar (Lane.barRef m l) fun b => { b with track := true, expect := b.members.length }) 0) s

/-- BAR.join (R213). -/
def execSBarJoin (l : Lane) (s : State) : Host.Outcome State Fault Refusal :=
  runS l noInc (fun _ => SUse.none) (fun m => .done (m.changeBar (Lane.barRef m l) (Barrier.join m.cur)) 0) s

/-- BAR.leave (R213). -/
def execSBarLeave (l : Lane) (s : State) : Host.Outcome State Fault Refusal :=
  runS l noInc (fun _ => SUse.none) (fun m => .done (m.changeBar (Lane.barRef m l) (Barrier.leave m.cur)) 0) s

/-- BAR.arr (R147, R213, R214): a boundary of the scope, held until it takes effect and until the core's earlier arrival has
completed; the arrival then travels to the barrier. -/
def execSBarArr (l : Lane) (s : State) : Host.Outcome State Fault Refusal :=
  runS l noInc (fun m => { SUse.none with held := !m.me.quiet (l.a.setWidth 4) m.now || (m.bar (Lane.barRef m l)).unfinished m.cur })
    (fun m =>
      let ref := Lane.barRef m l
      .done ((m.boundary m.cur (l.a.setWidth 4)).changeBar ref fun b =>
        { b with coming := b.coming ++ [(m.now + barDelay ref.inst, m.cur)] }) 0) s

/-- BAR.wait (R147, R213): it issues when the completion has reached the core, with a boundary of the scope. R147 gives that boundary at the
completion, for cores that then wait: one at the issue of a BAR.wait whose generation had completed before is the model's choice (log entry 73). -/
def execSBarWait (l : Lane) (s : State) : Host.Outcome State Fault Refusal :=
  runS l noInc (fun _ => SUse.none)
    (fun m =>
      let ref := Lane.barRef m l
      let b := m.bar ref
      if b.unfinished m.cur then
        if !b.waitsOpen m.cur then .hold m else .hold (m.changeBar ref (Barrier.wait m.cur))
      else if (b.lastOf m.cur).isSome then .done (m.boundary m.cur (l.a.setWidth 4)) 0
      else .done m 0) s

/-! ### Waiting for lane clusters (R216) -/

/-- What TJOIN uses, its holds and faults. -/
def useSTjoin (l : Lane) (m : Mach) : SUse :=
  let mask : BitVec 4 := BitVec.ofNat 4 l.litU
  let bad := m.me.port.failed &&& mask
  { SUse.none with held := (m.me.lcBusy m.now &&& mask) != 0,
                   traps := trapUnless (bad == 0) Code.tile (BitVec.ofNat 32 (2 ^ 30 + bad.toNat)) 0 }

/-- TJOIN (R216). -/
def execSTjoin (l : Lane) (s : State) : Host.Outcome State Fault Refusal :=
  runS l noInc
    (useSTjoin l)
    (fun m => .done m 0) s

end Sys2Proof.Machine
end

