-- ==== Sys2Proof/Machine/Special.lean ====
section
/-! DEFINITION. The special functions of R243: correctly rounded reciprocal, reciprocal square root, exponential and logarithm. A value
that no format holds is rounded from its integer part at 2^60 or more of its quanta and the fact that it is inexact; the exponential
and the logarithm are evaluated in 320-bit fixed point (log entry 14). -/
namespace Sys2Proof.Machine

/-- The integer square root, bit by bit from bit `n − 1`. -/
def isqrtFrom (x : Nat) : Nat → Nat → Nat
  | 0, r => r
  | n + 1, r => isqrtFrom x n (if (r + 2 ^ n) * (r + 2 ^ n) ≤ x then r + 2 ^ n else r)

/-- The integer square root. -/
def isqrt (x : Nat) : Nat := isqrtFrom x (Nat.log2 x / 2 + 1) 0

/-- The fraction bits of the fixed point. -/
def fixBits : Nat := 320

/-- ln 2 in fixed point, rounded down. -/
def fixLn2 : Nat := 0xb17217f7d1cf79abc9e3b39803f2f6af40f343267298b62d8a0d175b8baafa2be7b876206debac98

/-- The sum of the exponential's series from term `t`, of index `k`, on. -/
def expSeries (x : Nat) : Nat → Nat → Nat → Nat
  | 0, _, _ => 0
  | n + 1, k, t => t + expSeries x n (k + 1) (t * x / ((k + 1) * 2 ^ fixBits))

/-- 2^f for a fraction f in fixed point, rounded down but for a few units of the last place. -/
def fixExp2 (f : Nat) : Nat := expSeries (f * fixLn2 / 2 ^ fixBits) 80 0 (2 ^ fixBits)

/-- The sum of the inverse hyperbolic tangent's series: z^(2k+1) / (2k+1) from index `k` on. -/
def atanhSeries (zz : Nat) : Nat → Nat → Nat → Nat
  | 0, _, _ => 0
  | n + 1, k, t => t / (2 * k + 1) + atanhSeries zz n (k + 1) (t * zz / 2 ^ fixBits)

/-- log2 of y in [1, 2) in fixed point, rounded down but for a few units of the last place. -/
def fixLog2 (y : Nat) : Nat :=
  let one := 2 ^ fixBits
  let z := (y - one) * one / (y + one)
  2 * atanhSeries (z * z / one) 110 0 z * one / fixLn2

/-- A positive or negative inexact value `q` or a little more, times 2^e, rounded by CVT. -/
def roundInexact (f : FloatFmt) (mode : Mode) (sat neg : Bool) (q : Nat) (e : Int) : Nat × Flags :=
  roundMag f mode sat neg (2 * q + 1) 1 (e - 1)

/-- VRCP of a finite value above or below 0. -/
def rcpFin (f : FloatFmt) (mode : Mode) (sat : Bool) (m e : Int) : Nat × Flags :=
  roundMag f mode sat (m < 0) 1 m.natAbs (-e)

/-- VRSQ of a finite value above 0: x = m × 2^e. -/
def rsqFin (f : FloatFmt) (mode : Mode) (sat : Bool) (m : Nat) (e : Int) : Nat × Flags :=
  -- an even exponent 2h leaves 1 / √m, computed as the root of 2^(2K) / m
  let m' := if e % 2 = 0 then m else 2 * m
  let h := (e - e % 2) / 2
  let k := 96 + Nat.log2 m'
  let q := isqrt (2 ^ (2 * k) / m')
  if q * q * m' = 2 ^ (2 * k) then roundMag f mode sat false q 1 (-(k : Int) - h)
  else roundInexact f mode sat false q (-(k : Int) - h)

/-- VEXP2 of a finite value other than 0. -/
def exp2Fin (f : FloatFmt) (mode : Mode) (sat : Bool) (m e : Int) : Nat × Flags :=
  -- beyond ±2^16 every format overflows or underflows alike
  let big := 0 ≤ e + Nat.log2 m.natAbs - 16
  let whole : Int := if big then (if m < 0 then -65536 else 65536) else if 0 ≤ e then m * 2 ^ e.toNat else m / 2 ^ (-e).toNat
  let frac : Nat := if big || 0 ≤ e then 0 else (m % 2 ^ (-e).toNat).toNat * 2 ^ fixBits / 2 ^ (-e).toNat
  if frac = 0 && !big then roundMag f mode sat false 1 1 whole
  else if big then roundInexact f mode sat false 1 whole
  else roundInexact f mode sat false (fixExp2 frac / 2 ^ 200) (whole - 120)

/-- VLOG2 of a finite value above 0. -/
def log2Fin (f : FloatFmt) (mode : Mode) (sat : Bool) (m : Nat) (e : Int) : Nat × Flags :=
  let l := Nat.log2 m
  let k : Int := l + e
  if m = 2 ^ l then cvtFloat f mode sat (.fin false k 0)
  else
    let y := m * 2 ^ fixBits / 2 ^ l
    let v : Int := k * 2 ^ fixBits + fixLog2 y
    roundInexact f mode sat (v < 0) (v.natAbs / 2 ^ 200) (-120)

/-- A special function (R243) of a pattern: 0 VRCP, 1 VRSQ, 2 VEXP2, 3 VLOG2. -/
def special (op : Nat) (f : FloatFmt) (mode : Mode) (sat : Bool) (p : Nat) : Nat × Flags :=
  let cv (v : Val) (fl : Flags) : Nat × Flags := let r := cvtFloat f mode sat v; (r.1, r.2 ||| fl)
  match f.dec p, op with
  | .nan, _ => cv .nan 0
  | .inf n, 0 => cv (.fin n 0 0) 0
  | .inf false, 1 => cv (.fin false 0 0) 0
  | .inf true, 2 => cv (.fin false 0 0) 0
  | .inf false, _ => cv (.inf false) 0
  | .inf true, _ => cv .nan Flags.inv
  | .fin z m e, op =>
    if m = 0 then
      match op with
      | 2 => cv (.fin false 1 0) 0
      | 3 => cv (.inf true) Flags.dvz
      | _ => cv (.inf z) Flags.dvz
    else
      match op with
      | 0 => rcpFin f mode sat m e
      | 1 => if m < 0 then cv .nan Flags.inv else rsqFin f mode sat m.toNat e
      | 2 => exp2Fin f mode sat m e
      | _ => if m < 0 then cv .nan Flags.inv else log2Fin f mode sat m.toNat e

end Sys2Proof.Machine
end

