-- ==== Sys2Proof/Machine/Vector.lean ====
section
/-! DEFINITION. The V stream's arithmetic (R220 to R243): masks, lane clusters, packed elements, and one meaning per instruction. -/
namespace Sys2Proof.Machine

/-! ### Types and packed elements (R43, R76, R77) -/

/-- The F family (R43). -/
def typeF (fn : BitVec 3) : Fmt := nth [0x0C, 0x0D, 0x0E, 0x0F, 0x10, 0x11, 0x12, 0x13] fn.toNat 0x0C
/-- The S family. -/
def typeS (fn : BitVec 3) : Fmt := nth [0x01, 0x03, 0x05, 0x07, 0x09] fn.toNat 0x01
/-- The Z family. -/
def typeZ (fn : BitVec 3) : Fmt := nth [0x02, 0x04, 0x06, 0x08, 0x0A] fn.toNat 0x02

/-- Sub-elements of a type in a lane (R76). -/
def subsOf (t : Fmt) : Nat := 32 / slotBits t

/-- Sub-element `j` of a lane. -/
def subOf (t : Fmt) (w : W32) (j : Nat) : Nat := w.toNat / 2 ^ (slotBits t * j) % 2 ^ elemBits t

/-- A lane from the patterns of its first `n` sub-elements, with the flags they set. -/
def packSubs (t : Fmt) (f : Nat → Nat × Flags) (n : Nat) : W32 × Flags :=
  let r := (List.range n).map f
  (BitVec.ofNat 32 (((List.range n).zipWith (fun j x => x.1 % 2 ^ elemBits t * 2 ^ (slotBits t * j)) r).foldl (· + ·) 0),
   r.foldl (fun a x => a ||| x.2) 0)

/-- A lane computed sub-element by sub-element. -/
def perSub (t : Fmt) (f : Nat → Nat × Flags) : W32 × Flags := packSubs t f (subsOf t)

/-- A value in every sub-element of a type (R41, R75): converted by RNE, saturating for floats. -/
def litPattern (t : Fmt) (fromFloat : Bool) (v : Val) : W32 :=
  let p := match floatFmt t with
    | some f => (cvtFloat f 0 true v).1
    | none => match intFmt t with
      | some (n, s) => (cvtInt n s 0 fromFloat v).1
      | none => 0
  (perSub t fun _ => (p, 0)).1

/-- How a literal is read (R41): 0 F family, 1 S family, 2 Z family, 3 a signed pattern of 32 bits. -/
abbrev LitKind := Nat

/-- The lane pattern of a literal: of a 5-bit field, or of IMM16 for B in the long form (R41, R226). -/
def litLane (k : LitKind) (t : Fmt) (f : BitVec 5) (wide : Option (BitVec 16)) : W32 :=
  match k, wide with
  | 0, some i => litPattern t true (bf16.dec i.toNat)
  | 0, none => litPattern t false (Val.ofInt f.toInt)
  | 1, some i => litPattern t false (Val.ofInt i.toInt)
  | 1, none => litPattern t false (Val.ofInt f.toInt)
  | 2, some i => litPattern t false (Val.ofInt i.toNat)
  | 2, none => litPattern t false (Val.ofInt f.toNat)
  | _, some i => i.signExtend 32
  | _, none => f.signExtend 32

/-- A V operand (R226): a register, or one pattern for every lane; the s register and the vector register it reads. -/
structure VOp where
  vec  : Option (BitVec 32768)
  pat  : W32
  regs : List Nat
  vs   : List Nat
  deriving DecidableEq, Repr

/-- A V operand of any kind. -/
def Core.vOp (c : Core) (kind : BitVec 2) (f : BitVec 5) (lit : W32) : VOp :=
  match kind.toNat with
  | 0 => ⟨some (c.vreg f.toNat), 0, [], [f.toNat]⟩
  | 1 => ⟨none, (c.sreg f.toNat).setWidth 32, [f.toNat], []⟩
  | 2 => ⟨none, c.const f.toNat, [], []⟩
  | _ => ⟨none, lit, [], []⟩

/-- Lane `i` of an image (R78). -/
def laneAt (v : BitVec 32768) (i : Nat) : W32 := v.extractLsb' (32 * i) 32

/-- A lane of an operand. -/
def VOp.lane (o : VOp) (i : Nat) : W32 :=
  match o.vec with
  | some v => laneAt v i
  | none => o.pat

/-- The A operand. -/
def Core.vA (c : Core) (l : Lane) (k : LitKind) (t : Fmt) : VOp := c.vOp l.ka l.a (litLane k t l.a none)
/-- The B operand. -/
def Core.vB (c : Core) (l : Lane) (k : LitKind) (t : Fmt) : VOp :=
  c.vOp l.kb l.b (litLane k t l.b (if l.long then some l.imm else none))
/-- The C operand: DST in the short form (R41, R230). -/
def Core.vC (c : Core) (l : Lane) (k : LitKind) (t : Fmt) : VOp :=
  if l.long then c.vOp l.kc l.c (litLane k t l.c none) else c.vOp 0 l.dst 0

/-! ### The common part of a V lane (R223 to R228) -/

/-- F.SLEEP and F.TILE for the lane clusters used (R215, R224). -/
def Mach.lcTraps (m : Mach) (ks : List Nat) : List Trap :=
  let busy := m.me.lcBusy m.now &&& BitVec.ofNat 4 (ks.foldl (fun a k => a + 2 ^ k) 0)
  m.sleepTraps (ks.map fun k => .core m.cur (lcBit k)) ++
  trapUnless (busy == 0) Code.tile (BitVec.ofNat 32 (2 ^ 31 + busy.toNat)) 0

/-- What a V lane uses beyond its lane clusters: s registers and locations read, its destination, holds and faults. -/
structure VUse where
  regs  : List Nat
  locs  : List Loc
  own   : List Loc
  held  : Bool
  traps : List Trap
  deriving DecidableEq, Repr

/-- The use of operands read and a vector register written. -/
def VUse.ops (os : List VOp) (dst : Nat) : VUse :=
  { regs := os.flatMap VOp.regs, locs := (os.flatMap VOp.vs).map Loc.v, own := [.v dst], held := false, traps := [] }

/-- A V lane under its mask: an all-false slot does nothing (R227); else it is held on pending registers, checked, and acts. `lcs` are
the lane clusters it uses. A stale mask P traps (R227) also where a VCMP writes the same mask: which of R93 and R227 holds there the spec does not say, and
the trap is the model's choice (log entry 82). -/
def runV (l : Lane) (lcs : BitVec 1024 → List Nat) (use : Mach → BitVec 1024 → VUse) (act : Mach → BitVec 1024 → LaneOut) (s : State) :
    Host.Outcome State Fault Refusal :=
  runLane .v (fun m =>
    let c := m.me
    let mask := c.mreg l.p.toNat
    let maskStale := m.staleTraps [] [.m l.p.toNat]
    if mask = 0 then checked maskStale (.done m 0)
    else
      let u := use m mask
      if u.held || u.regs.any (c.pending m.now) then .hold m
      else checked (maskStale ++ m.staleTraps u.own (u.regs.map Loc.s ++ u.locs) ++ m.lcTraps (lcs mask) ++ u.traps)
        (act m mask)) s

/-- The lanes of a mask computed, the others zero, with the flags of those computed. -/
def maskedLanes (mask : BitVec 1024) (f : Nat → W32 × Flags) : BitVec 32768 × Flags :=
  let r := (List.range 1024).map fun i => if mask.getLsbD i then f i else (0, 0)
  (lanesImage (r.map Prod.fst), r.foldl (fun a x => a ||| x.2) 0)

/-- A V lane that writes a vector register from its A and B operands, lane by lane. -/
def vLanes (l : Lane) (lat : Nat) (k : LitKind) (t : Fmt) (f : W32 → W32 → W32 × Flags) (s : State) :
    Host.Outcome State Fault Refusal :=
  runV l maskClusters (fun m _ => VUse.ops [m.me.vA l k t, m.me.vB l k t] l.dst.toNat)
    (fun m mask =>
      let a := m.me.vA l k t
      let b := m.me.vB l k t
      let r := maskedLanes mask fun i => f (a.lane i) (b.lane i)
      .done (m.write .v lat (.v l.dst r.1 mask) r.2) 0) s

/-! ### Floating arithmetic (R230, R231) -/

/-- The float format of a type. -/
def fmtF (t : Fmt) : FloatFmt := (floatFmt t).getD fp32

/-- One rounded result of the exact value of an operation (R230). -/
def rounded (t : Fmt) (mode : Mode) (sat : Bool) (operands : List Val) (x : Val) : Nat × Flags :=
  let r := cvtFloat (fmtF t) mode sat x
  (r.1, r.2 ||| invalid operands x)

/-- A float operation of A and B on a lane: 0 add, 1 subtract, 2 multiply. -/
def floatLane (op : Nat) (t : Fmt) (mode : Mode) (sat : Bool) (a b : W32) : W32 × Flags :=
  perSub t fun j =>
    let x := (fmtF t).dec (subOf t a j)
    let y := (fmtF t).dec (subOf t b j)
    rounded t mode sat [x, y] (match op with
      | 0 => Val.add (mode == 2) x y
      | 1 => Val.add (mode == 2) x y.negate
      | _ => Val.mul x y)

/-- VFMA on a lane: one rounding. -/
def fmaLane (t : Fmt) (mode : Mode) (sat : Bool) (a b c : W32) : W32 × Flags :=
  perSub t fun j =>
    let x := (fmtF t).dec (subOf t a j)
    let y := (fmtF t).dec (subOf t b j)
    let z := (fmtF t).dec (subOf t c j)
    rounded t mode sat [x, y, z] (Val.add (mode == 2) (Val.mul x y) z)

/-- MINNUM or MAXNUM on a lane (R231): no flag. -/
def minmaxLane (max : Bool) (t : Fmt) (a b : W32) : W32 × Flags :=
  perSub t fun j =>
    let x := (fmtF t).dec (subOf t a j)
    let y := (fmtF t).dec (subOf t b j)
    ((cvtFloat (fmtF t) 0 false (if max then Val.maxNum x y else Val.minNum x y)).1, 0)

/-- VABS on a lane (R231). -/
def absLane (t : Fmt) (a : W32) : W32 × Flags :=
  perSub t fun j =>
    let p := subOf t a j
    (match (fmtF t).dec p with
     | .nan => (fmtF t).nanBits
     | _ => p % 2 ^ (elemBits t - 1), 0)

/-- VADD of the F family (R230). -/
def execVaddF (l : Lane) (s : State) : Host.Outcome State Fault Refusal :=
  vLanes l 4 0 (typeF l.fn) (floatLane 0 (typeF l.fn) l.rm l.sat) s

/-- VSUB of the F family (R230). -/
def execVsubF (l : Lane) (s : State) : Host.Outcome State Fault Refusal :=
  vLanes l 4 0 (typeF l.fn) (floatLane 1 (typeF l.fn) l.rm l.sat) s

/-- VMUL of the F family (R230). -/
def execVmulF (l : Lane) (s : State) : Host.Outcome State Fault Refusal :=
  vLanes l 4 0 (typeF l.fn) (floatLane 2 (typeF l.fn) l.rm l.sat) s

/-- VFMA (R230). -/
def execVfma (l : Lane) (s : State) : Host.Outcome State Fault Refusal :=
  let t := typeF l.fn
  runV l maskClusters (fun m _ => VUse.ops [m.me.vA l 0 t, m.me.vB l 0 t, m.me.vC l 0 t] l.dst.toNat)
    (fun m mask =>
      let a := m.me.vA l 0 t
      let b := m.me.vB l 0 t
      let c := m.me.vC l 0 t
      let r := maskedLanes mask fun i => fmaLane t l.rm l.sat (a.lane i) (b.lane i) (c.lane i)
      .done (m.write .v 4 (.v l.dst r.1 mask) r.2) 0) s

/-- VMIN of the F family (R231). -/
def execVminF (l : Lane) (s : State) : Host.Outcome State Fault Refusal :=
  vLanes l 2 0 (typeF l.fn) (minmaxLane false (typeF l.fn)) s

/-- VMAX of the F family (R231). -/
def execVmaxF (l : Lane) (s : State) : Host.Outcome State Fault Refusal :=
  vLanes l 2 0 (typeF l.fn) (minmaxLane true (typeF l.fn)) s

/-- A V lane whose only operand is A. -/
def vLanesA (l : Lane) (lat : Nat) (k : LitKind) (t : Fmt) (f : W32 → W32 × Flags) (s : State) : Host.Outcome State Fault Refusal :=
  runV l maskClusters (fun m _ => VUse.ops [m.me.vA l k t] l.dst.toNat)
    (fun m mask =>
      let a := m.me.vA l k t
      let r := maskedLanes mask fun i => f (a.lane i)
      .done (m.write .v lat (.v l.dst r.1 mask) r.2) 0) s

/-- VABS (R231). -/
def execVabs (l : Lane) (s : State) : Host.Outcome State Fault Refusal := vLanesA l 2 0 (typeF l.fn) (absLane (typeF l.fn)) s

/-! ### Integer arithmetic (R232, R233) -/

/-- Bits and signedness of an integer type. -/
def intOf (t : Fmt) : Nat × Bool := (intFmt t).getD (32, true)

/-- The pattern of an exact integer in a type, wrapped or saturated (R63). -/
def fitInt (t : Fmt) (sat : Bool) (x : Int) : Nat × Flags :=
  let n := intOf t
  if sat then
    let r := satInt n.1 n.2 x
    (encInt n.1 r.1, Flags.when r.2 Flags.isat)
  else (encInt n.1 x, 0)

/-- An integer operation on a lane: 0 add, 1 subtract, 2 multiply, 3 minimum, 4 maximum. -/
def intLane (op : Nat) (t : Fmt) (sat : Bool) (a b : W32) : W32 × Flags :=
  let n := intOf t
  perSub t fun j =>
    let x := decInt n.1 n.2 (subOf t a j)
    let y := decInt n.1 n.2 (subOf t b j)
    fitInt t sat (match op with
      | 0 => x + y
      | 1 => x - y
      | 2 => x * y
      | 3 => min x y
      | _ => max x y)

/-- VADD of the S family (R232). -/
def execVaddS (l : Lane) (s : State) : Host.Outcome State Fault Refusal := vLanes l 2 1 (typeS l.fn) (intLane 0 (typeS l.fn) l.sat) s
/-- VSUB of the S family (R232). -/
def execVsubS (l : Lane) (s : State) : Host.Outcome State Fault Refusal := vLanes l 2 1 (typeS l.fn) (intLane 1 (typeS l.fn) l.sat) s
/-- VMUL of the S family (R232). -/
def execVmulS (l : Lane) (s : State) : Host.Outcome State Fault Refusal := vLanes l 4 1 (typeS l.fn) (intLane 2 (typeS l.fn) l.sat) s
/-- VMIN of the S family (R233). -/
def execVminS (l : Lane) (s : State) : Host.Outcome State Fault Refusal := vLanes l 2 1 (typeS l.fn) (intLane 3 (typeS l.fn) false) s
/-- VMAX of the S family (R233). -/
def execVmaxS (l : Lane) (s : State) : Host.Outcome State Fault Refusal := vLanes l 2 1 (typeS l.fn) (intLane 4 (typeS l.fn) false) s
/-- VADD of the Z family (R232). -/
def execVaddZ (l : Lane) (s : State) : Host.Outcome State Fault Refusal := vLanes l 2 2 (typeZ l.fn) (intLane 0 (typeZ l.fn) l.sat) s
/-- VSUB of the Z family (R232). -/
def execVsubZ (l : Lane) (s : State) : Host.Outcome State Fault Refusal := vLanes l 2 2 (typeZ l.fn) (intLane 1 (typeZ l.fn) l.sat) s
/-- VMUL of the Z family (R232). -/
def execVmulZ (l : Lane) (s : State) : Host.Outcome State Fault Refusal := vLanes l 4 2 (typeZ l.fn) (intLane 2 (typeZ l.fn) l.sat) s
/-- VMIN of the Z family (R233). -/
def execVminZ (l : Lane) (s : State) : Host.Outcome State Fault Refusal := vLanes l 2 2 (typeZ l.fn) (intLane 3 (typeZ l.fn) false) s
/-- VMAX of the Z family (R233). -/
def execVmaxZ (l : Lane) (s : State) : Host.Outcome State Fault Refusal := vLanes l 2 2 (typeZ l.fn) (intLane 4 (typeZ l.fn) false) s

/-! ### Logic, shifts, selects and moves (R234 to R236) -/

/-- VAND (R234). -/
def execVand (l : Lane) (s : State) : Host.Outcome State Fault Refusal := vLanes l 1 3 0 (fun a b => (a &&& b, 0)) s
/-- VOR (R234). -/
def execVor (l : Lane) (s : State) : Host.Outcome State Fault Refusal := vLanes l 1 3 0 (fun a b => (a ||| b, 0)) s
/-- VXOR (R234). -/
def execVxor (l : Lane) (s : State) : Host.Outcome State Fault Refusal := vLanes l 1 3 0 (fun a b => (a ^^^ b, 0)) s
/-- VNOT (R234). -/
def execVnot (l : Lane) (s : State) : Host.Outcome State Fault Refusal := vLanesA l 1 3 0 (fun a => (~~~a, 0)) s

/-- A shift on a lane (R236): 0 left, 1 logical right, 2 arithmetic right; `lit` is a literal amount. -/
def shiftLane (op : Nat) (t : Fmt) (lit : Option Nat) (a b : W32) : W32 × Flags :=
  let w := elemBits t
  perSub t fun j =>
    let x := subOf t a j
    let k := match lit with | some k => k | none => subOf t b j
    let v : Int := decInt w (op == 2) x
    (if op = 0 then (if k ≥ w then 0 else x * 2 ^ k % 2 ^ w)
     else if op = 1 then (if k ≥ w then 0 else x / 2 ^ k)
     else encInt w (if k ≥ w then (if v < 0 then -1 else 0) else v / 2 ^ k), 0)

/-- A shift's literal amount (R41, R236): unsigned. -/
def shiftLit (l : Lane) : Option Nat := if l.kb = 3 then some l.litU else none

/-- VSHL (R236). -/
def execVshl (l : Lane) (s : State) : Host.Outcome State Fault Refusal :=
  vLanes l 2 2 (typeZ l.fn) (shiftLane 0 (typeZ l.fn) (shiftLit l)) s
/-- VSHR of the Z family (R236). -/
def execVshrZ (l : Lane) (s : State) : Host.Outcome State Fault Refusal :=
  vLanes l 2 2 (typeZ l.fn) (shiftLane 1 (typeZ l.fn) (shiftLit l)) s
/-- VSHR of the S family (R236). -/
def execVshrS (l : Lane) (s : State) : Host.Outcome State Fault Refusal :=
  vLanes l 2 1 (typeS l.fn) (shiftLane 2 (typeS l.fn) (shiftLit l)) s

/-- VSEL (R235): P is its selector; every lane of the four lane clusters is written. -/
def execVsel (l : Lane) (s : State) : Host.Outcome State Fault Refusal :=
  runV { l with p := 0 } (fun _ => [0, 1, 2, 3])
    (fun m _ =>
      let u := VUse.ops [m.me.vA l 3 0, m.me.vB l 3 0] l.dst.toNat
      { u with locs := .m l.p.toNat :: u.locs })
    (fun m mask =>
      let a := m.me.vA l 3 0
      let b := m.me.vB l 3 0
      let sel := m.me.mreg l.p.toNat
      let r := maskedLanes mask fun i => (if sel.getLsbD i then a.lane i else b.lane i, 0)
      .done (m.write .v 1 (.v l.dst r.1 mask) 0) 0) s

/-- The operand of VMOV (R226, R234): its literal stands in IMM16. -/
def Core.vmovA (c : Core) (l : Lane) : VOp := c.vOp l.ka l.a (l.imm.signExtend 32)

/-- VMOV (R234). -/
def execVmov (l : Lane) (s : State) : Host.Outcome State Fault Refusal :=
  runV l maskClusters (fun m _ => VUse.ops [m.me.vmovA l] l.dst.toNat)
    (fun m mask =>
      let a := m.me.vmovA l
      .done (m.write .v 1 (.v l.dst (maskedLanes mask fun i => (a.lane i, 0)).1 mask) 0) 0) s

/-! ### Compares (R237) -/

/-- The condition of a compare on an ordering: 0 equal, 1 not equal, 2 less, 3 less or equal. -/
def condOrd (k : Nat) (o : Ordering) : Bool :=
  match k with
  | 0 => o == .eq
  | 1 => o != .eq
  | 2 => o == .lt
  | _ => o != .gt

/-- Whether a float condition holds: with a NaN only `.ne` does. -/
def condF (k : Nat) (x y : Val) : Bool := if x.isNan || y.isNan then k == 1 else condOrd k (Val.cmp x y)

/-- A V compare (R237): `cond` on every sub-element of a lane. -/
def vCompare (l : Lane) (k : LitKind) (t : Fmt) (cond : Nat → Nat → Nat → Bool) (s : State) : Host.Outcome State Fault Refusal :=
  runV l maskClusters
    (fun m _ => { VUse.ops [m.me.vA l k t, m.me.vB l k t] 0 with own := [.m (l.dst.toNat % 8)] })
    (fun m mask =>
      let a := m.me.vA l k t
      let b := m.me.vB l k t
      let kind := l.dst.toNat / 8
      let bit (i : Nat) : Bool := (List.range (subsOf t)).all fun j => cond kind (subOf t (a.lane i) j) (subOf t (b.lane i) j)
      let img : BitVec 1024 := BitVec.ofNat 1024 ((List.range 1024).foldr (fun i n => 2 * n + (if mask.getLsbD i && bit i then 1 else 0)) 0)
      .done (m.write .v 2 (.m (l.dst.setWidth 3) img mask) 0) 0) s

/-- VCMP of the F family (R237). -/
def execVcmpF (l : Lane) (s : State) : Host.Outcome State Fault Refusal :=
  vCompare l 0 (typeF l.fn) (fun k x y => condF k ((fmtF (typeF l.fn)).dec x) ((fmtF (typeF l.fn)).dec y)) s

/-- An integer comparison of two patterns. -/
def condInt (t : Fmt) (k x y : Nat) : Bool :=
  let n := intOf t
  condOrd k (compare (decInt n.1 n.2 x) (decInt n.1 n.2 y))

/-- VCMP of the S family (R237). -/
def execVcmpS (l : Lane) (s : State) : Host.Outcome State Fault Refusal := vCompare l 1 (typeS l.fn) (condInt (typeS l.fn)) s
/-- VCMP of the Z family (R237). -/
def execVcmpZ (l : Lane) (s : State) : Host.Outcome State Fault Refusal := vCompare l 2 (typeZ l.fn) (condInt (typeZ l.fn)) s

/-! ### Conversion (R238, R239) -/

/-- The destination code of VCVT (R238). -/
def cvtDst (l : Lane) : Fmt := (bits l.imm 0 5).toNat
/-- The source code of VCVT (R238). -/
def cvtSrc (l : Lane) : Fmt := (bits l.imm 5 5).toNat

/-- VCVT of a lane outside FP64 (R238): `old` is the destination's lane. -/
def cvtLane (src dst : Fmt) (p : Nat) (mode : Mode) (sat : Bool) (old a : W32) : W32 × Flags :=
  let ns := subsOf src
  let nd := subsOf dst
  let cv (j : Nat) : Nat × Flags := cvt src dst mode sat (dec src (subOf src a j))
  if nd ≤ ns then perSub dst fun j => cv (if nd < ns then p * nd + j else j)
  else perSub dst fun j => if p * ns ≤ j && j < (p + 1) * ns then cv (j - p * ns) else (subOf dst old j, 0)

/-- The 64-bit pattern of FP64 element `c` of row `row` (R239). -/
def fp64At (v : BitVec 32768) (row c : Nat) : Nat :=
  (laneAt v (64 * row + 2 * c)).toNat + 2 ^ 32 * (laneAt v (64 * row + 2 * c + 1)).toNat

/-- A lane of VCVT to or from FP64 (R239): its value, flags, and whether it is written. -/
def cvt64Lane (src dst : Fmt) (p : Nat) (mode : Mode) (sat : Bool) (a : BitVec 32768) (i : Nat) : W32 × Flags × Bool :=
  let row := i / 64
  let col := i % 64
  if dst = 0x0B then
    let r := cvt src dst mode sat (dec src (laneAt a (64 * row + 32 * p + col / 2)).toNat)
    (BitVec.ofNat 32 (r.1 / 2 ^ (32 * (col % 2))), r.2, true)
  else if 32 * p ≤ col && col < 32 * p + 32 then
    let r := cvt src dst mode sat (dec src (fp64At a row (col - 32 * p)))
    (BitVec.ofNat 32 r.1, r.2, true)
  else (0, 0, false)

/-- What VCVT uses, its holds and faults. -/
def useVcvt (l : Lane) (m : Mach) (_ : BitVec 1024) : VUse :=
  let src := cvtSrc l
  let dst := cvtDst l
  let wide := src == 0x0B || dst == 0x0B
  let u := VUse.ops [m.me.vA l 3 0] l.dst.toNat
  if !wide && subsOf src < subsOf dst then { u with locs := .v l.dst.toNat :: u.locs } else u

/-- VCVT (R238, R239). -/
def execVcvt (l : Lane) (s : State) : Host.Outcome State Fault Refusal :=
  let src := cvtSrc l
  let dst := cvtDst l
  let wide := src == 0x0B || dst == 0x0B
  runV l maskClusters
    (useVcvt l)
    (fun m mask =>
      let a := m.me.vA l 3 0
      if wide then
        let v := a.vec.getD 0
        let f := cvt64Lane src dst l.fn.toNat l.rm l.sat v
        let wm : BitVec 1024 := mask &&& BitVec.ofNat 1024 ((List.range 1024).foldr (fun i n => 2 * n + (if (f i).2.2 then 1 else 0)) 0)
        let r := maskedLanes wm fun i => ((f i).1, (f i).2.1)
        .done (m.write .v 4 (.v l.dst r.1 wm) r.2) 0
      else
        let old := m.me.vreg l.dst.toNat
        let r := maskedLanes mask fun i => cvtLane src dst l.fn.toNat l.rm l.sat (laneAt old i) (a.lane i)
        .done (m.write .v 4 (.v l.dst r.1 mask) r.2) 0) s

/-! ### Packing and unpacking (R241, R242) -/

/-- The narrow type of a form of VPACK, VUNPK's wide type having twice its width (R241, R242). -/
def packType (form : BitVec 3) : Fmt := nth [0x03, 0x04, 0x05, 0x06, 0x09, 0x0A] form.toNat 0x03

/-- VPACK of a lane (R241). -/
def packLane (form : BitVec 3) (sat : Bool) (a b : W32) : W32 × Flags :=
  let t := packType form
  let n := elemBits t
  let nw := 32 / (2 * n)
  perSub t fun j =>
    let w := if j < nw then a else b
    fitInt t sat (decInt (2 * n) (intOf t).2 (w.toNat / 2 ^ (2 * n * (j % nw)) % 2 ^ (2 * n)))

/-- VPACK (R241). -/
def execVpack (l : Lane) (s : State) : Host.Outcome State Fault Refusal := vLanes l 2 3 0 (packLane l.fn l.sat) s

/-- VUNPK of a lane (R242). -/
def unpackLane (form : BitVec 3) (h : Nat) (a : W32) : W32 × Flags :=
  let t := packType form
  let n := elemBits t
  let nw := 32 / (2 * n)
  let w := (List.range nw).map fun j => encInt (2 * n) (decInt n (intOf t).2 (a.toNat / 2 ^ (n * (h * nw + j)) % 2 ^ n)) * 2 ^ (2 * n * j)
  (BitVec.ofNat 32 (w.foldl (· + ·) 0), 0)

/-- VUNPK (R242). -/
def execVunpk (l : Lane) (s : State) : Host.Outcome State Fault Refusal := vLanesA l 2 3 0 (unpackLane l.fn l.litU) s

/-! ### Special functions (R243) -/

/-- A special function on a lane. -/
def specialLane (op : Nat) (t : Fmt) (mode : Mode) (sat : Bool) (a : W32) : W32 × Flags :=
  perSub t fun j => special op (fmtF t) mode sat (subOf t a j)

/-- VRCP (R243). -/
def execVrcp (l : Lane) (s : State) : Host.Outcome State Fault Refusal := vLanesA l 12 0 (typeF l.fn) (specialLane 0 (typeF l.fn) l.rm l.sat) s
/-- VRSQ (R243). -/
def execVrsq (l : Lane) (s : State) : Host.Outcome State Fault Refusal := vLanesA l 12 0 (typeF l.fn) (specialLane 1 (typeF l.fn) l.rm l.sat) s
/-- VEXP2 (R243). -/
def execVexp2 (l : Lane) (s : State) : Host.Outcome State Fault Refusal := vLanesA l 12 0 (typeF l.fn) (specialLane 2 (typeF l.fn) l.rm l.sat) s
/-- VLOG2 (R243). -/
def execVlog2 (l : Lane) (s : State) : Host.Outcome State Fault Refusal := vLanesA l 12 0 (typeF l.fn) (specialLane 3 (typeF l.fn) l.rm l.sat) s

end Sys2Proof.Machine
end

