-- ==== Sys2Proof/Machine/VAxes.lean ====
section
/-! DEFINITION. The V stream's axes, memory and masks (R244 to R259): rotations, broadcasts, reductions, scans, loads and stores, the
exchange of values with the S stream, semaphores and mask instructions. -/
namespace Sys2Proof.Machine

/-! ### Lanes read (R244) -/

/-- The mask of the lanes whose lane cluster is ON. -/
def Mach.onLanes (m : Mach) : BitVec 1024 :=
  (List.range 4).foldl (fun a k => if (m.domSeen (.core m.cur (lcBit k))).st == .on then a ||| (BitVec.allOnes 256).setWidth 1024 <<< (256 * k) else a) 0

/-- A register image as a V instruction reads it across lane clusters: lanes of a lane cluster that is not ON read zero. -/
def Mach.vRead (m : Mach) (n : Nat) : BitVec 32768 := maskImage m.onLanes (m.me.vreg n) 0

/-- The use of one vector register read and one written. -/
def VUse.one (a dst : Nat) : VUse := { regs := [], locs := [.v a], own := [.v dst], held := false, traps := [] }

/-! ### Rotations and broadcasts (R246, R247) -/

/-- The amount, column or row operand: a literal is unsigned (R245). -/
def Core.vAmount (c : Core) (l : Lane) : VOp := c.vOp l.kb l.b (BitVec.ofNat 32 l.litU)

/-- A V lane that moves lanes of A: lane `i` of the result is lane `from k i` of A, for amount k. -/
def vMove (l : Lane) (lat : Nat) (src : Nat → Nat → Nat) (s : State) : Host.Outcome State Fault Refusal :=
  runV l maskClusters (fun m _ => { VUse.one l.a.toNat l.dst.toNat with regs := (m.me.vAmount l).regs })
    (fun m mask =>
      let a := m.vRead l.a.toNat
      let k := (m.me.vAmount l).pat.toNat
      let r := maskedLanes mask fun i => (laneAt a (src k i), 0)
      .done (m.write .v lat (.v l.dst r.1 mask) 0) 0) s

/-- VROTR (R246). -/
def execVrotr (l : Lane) (s : State) : Host.Outcome State Fault Refusal :=
  vMove l 2 (fun k i => i / 64 * 64 + (i % 64 + 64 - k % 64) % 64) s

/-- VROTC (R246). -/
def execVrotc (l : Lane) (s : State) : Host.Outcome State Fault Refusal :=
  vMove l 5 (fun k i => (i / 64 + 16 - k % 16) % 16 * 64 + i % 64) s

/-- VBCR (R247). -/
def execVbcr (l : Lane) (s : State) : Host.Outcome State Fault Refusal :=
  vMove l 2 (fun k i => i / 64 * 64 + k % 64) s

/-- VBCC (R247). -/
def execVbcc (l : Lane) (s : State) : Host.Outcome State Fault Refusal :=
  vMove l 4 (fun k i => k % 16 * 64 + i % 64) s

/-! ### Reductions and scans (R248, R249) -/

/-- COMBINE of a set of lanes (R249): FN names the operation, `t` the type. -/
def combineLanes (fn : Nat) (t : Fmt) (mode : Mode) (sat : Bool) (ws : List W32) : W32 × Flags :=
  match fn with
  | 3 => (ws.foldl (· &&& ·) (BitVec.allOnes 32), 0)
  | 4 => (ws.foldl (· ||| ·) 0, 0)
  | 5 => (ws.foldl (· ^^^ ·) 0, 0)
  | k => perSub t fun j =>
    let ps := ws.map fun w => subOf t w j
    match floatFmt t with
    | some f =>
      let vs := ps.map f.dec
      if k = 0 then
        let x := sumVals (mode == 2) vs
        let r := cvtFloat f mode sat x
        (r.1, r.2 ||| invalid vs x)
      else
        match vs with
        | [] => (0, 0)
        | v :: r => ((cvtFloat f 0 false (r.foldl (if k = 1 then Val.minNum else Val.maxNum) v)).1, 0)
    | none =>
      let n := intOf t
      match ps.map (decInt n.1 n.2) with
      | [] => (0, 0)
      | x :: r => if k = 0 then fitInt t sat (r.foldl (· + ·) x)
        else fitInt t false (r.foldl (if k = 1 then min else max) x)

/-- The groups of lanes along an axis (R249): rows, or columns, each in order. -/
def laneGroups (cols : Bool) : List (List Nat) :=
  if cols then (List.range 64).map fun c => (List.range 16).map fun r => r * 64 + c
  else (List.range 16).map fun r => (List.range 64).map fun c => r * 64 + c

/-- The non-empty prefixes of a list. -/
def prefixes {α : Type} (l : List α) : List (List α) := (List.range l.length).map fun i => l.take (i + 1)

/-- The results of a group's selected lanes: one for all, or one for each prefix. -/
def groupResults (scan : Bool) (comb : List W32 → W32 × Flags) (ws : List W32) : List (W32 × Flags) :=
  if scan then (prefixes ws).map comb
  else let r := comb ws; ws.map fun _ => r

/-- A reduction or scan of an image under a mask: the results by lane, with the flags. -/
def reduceImage (cols scan : Bool) (comb : List W32 → W32 × Flags) (mask : BitVec 1024) (a : BitVec 32768) : BitVec 32768 × Flags :=
  let rs := (laneGroups cols).map fun g =>
    let sel := g.filter mask.getLsbD
    sel.zip (groupResults scan comb (sel.map (laneAt a)))
  let at' (i : Nat) : W32 :=
    match (nth rs (if cols then i % 64 else i / 64) []).find? fun x => x.1 == i with
    | some x => x.2.1
    | none => 0
  (lanesImage ((List.range 1024).map at'), rs.foldl (fun f g => g.foldl (fun f x => f ||| x.2.2) f) 0)

/-- A V lane that reduces or scans (R248): B is the type. -/
def vReduce (l : Lane) (lat : Nat) (cols scan : Bool) (s : State) : Host.Outcome State Fault Refusal :=
  runV l maskClusters (fun _ _ => VUse.one l.a.toNat l.dst.toNat)
    (fun m mask =>
      let r := reduceImage cols scan (combineLanes l.fn.toNat l.b.toNat l.rm l.sat) mask (m.me.vreg l.a.toNat)
      .done (m.write .v lat (.v l.dst r.1 mask) r.2) 0) s

/-- VREDR (R249). -/
def execVredr (l : Lane) (s : State) : Host.Outcome State Fault Refusal := vReduce l 6 false false s
/-- VREDC (R249). -/
def execVredc (l : Lane) (s : State) : Host.Outcome State Fault Refusal := vReduce l 10 true false s
/-- VSCANR (R249). -/
def execVscanr (l : Lane) (s : State) : Host.Outcome State Fault Refusal := vReduce l 6 false true s
/-- VSCANC (R249). -/
def execVscanc (l : Lane) (s : State) : Host.Outcome State Fault Refusal := vReduce l 10 true true s

/-! ### Loads and stores of images (R250 to R252) -/

/-- The base of a V access: an s register, or lane (0, 0) of a vector register (R250). -/
def Mach.vBase (m : Mach) (l : Lane) : W64 :=
  if l.kb = 1 then m.me.sreg l.b.toNat else (laneAt (m.vRead l.b.toNat) 0).setWidth 64

/-- The registers the base of a V access reads: s registers and locations. -/
def Lane.vBaseUse (l : Lane) : List Nat × List Loc := if l.kb = 1 then ([l.b.toNat], []) else ([], [.v l.b.toNat])

/-- The address of a VLD or VST (R250): the stepped form counts the stream's repetitions of the block. -/
def Mach.vAddress (m : Mach) (l : Lane) : Nat :=
  let off := l.imm.signExtend 64
  (m.vBase l + (if modeStep l.a then BitVec.ofNat 64 (m.me.stream .v).rep * off else off)).toNat

/-- What VLD uses, its holds and faults. -/
def useVld (l : Lane) (m : Mach) (_ : BitVec 1024) : VUse :=
  let lvl := modeLvl l.a
  let ea := m.vAddress l
  { regs := (Lane.vBaseUse l).1, locs := (Lane.vBaseUse l).2 ++ (if lvl = 0 then wordLocs ea 4096 else []), own := [.v l.dst.toNat],
    held := lvl == 0 && m.readStalls m.cur ea 4096,
    traps := m.accessTraps m.cur lvl ea 4096 4096 ++ m.me.timingTraps lvl false (m.readTiming m.cur lvl ea 16 m.now) }

/-- VLD (R250 to R252). -/
def execVld (l : Lane) (s : State) : Host.Outcome State Fault Refusal :=
  let lvl := modeLvl l.a
  runV l maskClusters
    (useVld l)
    (fun m mask =>
      let ea := m.vAddress l
      let t := m.readTiming m.cur lvl ea 16 m.now
      let p := padAt m.cur lvl
      let r : Result :=
        if lvl = 0 then m.result .v 6 (.v l.dst (bytesImage 32768 (m.padRead p ea 4096)) mask) 0
        else m.gathered .v p ea 4096 t (.v l.dst 0 mask)
      .done ((m.bookTiming m.cur lvl false t).modMe fun c => c.fly r) 0) s

/-- The bytes of the selected lanes of a row of an image, stored from an address on. -/
def rowBytes (img : BitVec 32768) (mask : BitVec 1024) (row addr : Nat) : List (Nat × Byte) :=
  (List.range 64).flatMap fun c =>
    if mask.getLsbD (row * 64 + c) then atAddr (addr + 4 * c) (leBytes 4 (laneAt img (row * 64 + c)).toNat) else []

/-- The bytes of the selected lanes of an image stored at an address (R251). -/
def imageWrites (img : BitVec 32768) (mask : BitVec 1024) (ea : Nat) : List (Nat × Byte) :=
  (List.range 16).flatMap fun r => rowBytes img mask r (ea + 256 * r)

/-- What VST uses, its holds and faults. -/
def useVst (l : Lane) (m : Mach) (_ : BitVec 1024) : VUse :=
  let lvl := modeLvl l.a
  let ea := m.vAddress l
  { regs := (Lane.vBaseUse l).1, locs := .v l.dst.toNat :: (Lane.vBaseUse l).2, own := [], held := false,
    traps := m.accessTraps m.cur lvl ea 4096 4096 ++ (if lvl = 0 then m.writeBufTraps m.cur ea 4096 else []) ++
      m.me.timingTraps lvl true (m.writeTiming m.cur lvl ea 16 m.now) }

/-- VST (R250 to R252, R254). -/
def execVst (l : Lane) (s : State) : Host.Outcome State Fault Refusal :=
  let lvl := modeLvl l.a
  runV l maskClusters
    (useVst l)
    (fun m mask =>
      let ea := m.vAddress l
      let t := m.writeTiming m.cur lvl ea 16 m.now
      let r : Result := { m.result .v 6 (.pad (padAt m.cur lvl) (imageWrites (m.me.vreg l.dst.toNat) mask ea)) 0 with
        w := if lvl = 0 then m.now + 6 else maxOf t.data, dep := if lvl = 0 then none else some m.now, ext := 4096 }
      .done ((m.bookTiming m.cur lvl true t).modMe fun c => c.fly r) 0) s

/-! ### Rows by index (R253) -/

/-- The rows with a selected lane. -/
def maskRows (mask : BitVec 1024) : List Nat := (List.range 16).filter fun r => mask.extractLsb' (64 * r) 64 != 0

/-- The address of a row of a VLDX or VSTX. -/
def Mach.rowAddr (m : Mach) (l : Lane) (r : Nat) : Nat :=
  (m.vBase l + l.imm.signExtend 64 + 256 * (laneAt (m.vRead l.a.toNat) (r * 64)).setWidth 64).toNat

/-- The port cycles of a VLDX or VSTX: every group touched, from issue to issue + 3. A row of a misaligned base may touch two. -/
def rowPorts (now : Nat) (eas : List Nat) : List (Nat × Nat) :=
  (eas.flatMap fun ea => [groupOf ea, groupOf (ea + 0xFF)]).eraseDups.flatMap fun g => (List.range 4).map fun i => (g, now + i)

/-- The bytes of a row at an address that lie within the core's scratchpad. -/
def rowInside (ea : Nat) : Nat := min 256 (0x180000 - ea)

/-- The faults of a VLDX or VSTX on its accessed rows: F.SPRANGE, F.SLEEP, F.GROUPCLASH (R253, R259). Which address FADDR then holds the spec does not
say: the model's choice is base + off where that is misaligned, else the address of the lowest row that is out of range (log entry 66). -/
def Mach.rowTraps (m : Mach) (l : Lane) (eas : List Nat) : List Trap :=
  let base := (m.vBase l + l.imm.signExtend 64).toNat
  trapUnless (base % 256 == 0) Code.sprange 0 base ++
  (match eas.find? fun ea => 0x17FFFF < ea + 0xFF with
   | some ea => [⟨Code.sprange, 0, BitVec.ofNat 64 ea⟩]
   | none => []) ++
  m.sleepTraps (((eas.filter fun ea => 0 < rowInside ea).flatMap fun ea => (Pad.core m.cur).units ea (rowInside ea)).eraseDups.map (DomRef.core m.cur)) ++
  m.me.clashTraps ((rowPorts m.now eas).filter fun p => p.1 < 3)

/-- What VLDX uses, its holds and faults. -/
def useVldx (l : Lane) (m : Mach) (mask : BitVec 1024) : VUse :=
  let eas := (maskRows mask).map (m.rowAddr l)
  { regs := (Lane.vBaseUse l).1, locs := .v l.a.toNat :: (Lane.vBaseUse l).2 ++ eas.flatMap (wordLocs · 256), own := [.v l.dst.toNat],
    held := eas.any fun ea => m.readStalls m.cur ea 256, traps := m.rowTraps l eas }

/-- VLDX (R253). -/
def execVldx (l : Lane) (s : State) : Host.Outcome State Fault Refusal :=
  runV l maskClusters
    (useVldx l)
    (fun m mask =>
      let rows := maskRows mask
      let img := bytesImage 32768 ((List.range 16).flatMap fun r =>
        if rows.contains r then m.padRead (.core m.cur) (m.rowAddr l r) 256 else List.replicate 256 0)
      .done (((m.modMe fun c => c.bookPorts (rowPorts m.now (rows.map (m.rowAddr l))))).write .v 9 (.v l.dst img mask) 0) 0) s

/-- What VSTX uses, its holds and faults. -/
def useVstx (l : Lane) (m : Mach) (mask : BitVec 1024) : VUse :=
  let eas := (maskRows mask).map (m.rowAddr l)
  { regs := (Lane.vBaseUse l).1, locs := .v l.dst.toNat :: .v l.a.toNat :: (Lane.vBaseUse l).2, own := [], held := false,
    traps := m.rowTraps l eas ++ eas.flatMap fun ea => m.writeBufTraps m.cur ea (rowInside ea) }

/-- VSTX (R253): of rows at one address the highest lands last. -/
def execVstx (l : Lane) (s : State) : Host.Outcome State Fault Refusal :=
  runV l maskClusters
    (useVstx l)
    (fun m mask =>
      let rows := maskRows mask
      let img := m.me.vreg l.dst.toNat
      let booked := m.modMe fun c => c.bookPorts (rowPorts m.now (rows.map (m.rowAddr l)))
      .done (rows.foldl (fun b r => b.modMe fun c => c.fly { b.result .v 9 (.pad (.core m.cur) (rowBytes img mask r (m.rowAddr l r))) 0 with ext := 256 }) booked) 0) s

/-! ### Values between the V and S streams (R255 to R257) -/

/-- VINS (R255). -/
def execVins (l : Lane) (s : State) : Host.Outcome State Fault Refusal :=
  runV l maskClusters
    (fun m _ => { regs := [], locs := [], own := [.v l.dst.toNat], held := m.me.qLen 0 == 0, traps := [] })
    (fun m mask =>
      let e : W64 := nth (nth m.me.scal.q 0 []) 0 0
      let w : W32 := e.extractLsb' (32 * l.litU) 32
      .done ((m.modMe fun c => c.pop m.now 0).write .v 2 (.v l.dst (maskedLanes mask fun _ => (w, 0)).1 mask) 0) 0) s

/-- VEXT (R256). -/
def execVext (l : Lane) (s : State) : Host.Outcome State Fault Refusal :=
  runV l maskClusters
    (fun m _ => { regs := [], locs := [.v l.a.toNat], own := [], held := m.me.qFree m.now 1 == 0, traps := [] })
    (fun m mask =>
      let i := ((List.range 1024).find? mask.getLsbD).getD 0
      .done (m.write .v 2 (.q 1 ((laneAt (m.me.vreg l.a.toNat) i).setWidth 64)) 0) 0) s

/-- VSEMW (R257). -/
def execVsemw (l : Lane) (s : State) : Host.Outcome State Fault Refusal :=
  runV l maskClusters
    (fun m _ => { regs := if l.kb = 1 then [l.b.toNat] else [], locs := [], own := [],
                  held := (m.me.semTake l.dst.toNat (m.me.xCount l)).isNone, traps := [] })
    (fun m _ => .done (m.modMe fun c => (c.semTake l.dst.toNat (c.xCount l)).getD c) 0) s

/-- VSEMS (R257). -/
def execVsems (l : Lane) (s : State) : Host.Outcome State Fault Refusal :=
  runV l maskClusters
    (fun _ _ => { regs := if l.kb = 1 then [l.b.toNat] else [], locs := [], own := [], held := false, traps := [] })
    (fun m _ => .done (m.modMe fun c => c.semSignal l.dst.toNat (c.xCount l)) 0) s

/-! ### Mask instructions (R258) -/

/-- A V lane that writes a mask from its sources. -/
def vMask (l : Lane) (bIn : Bool) (f : BitVec 1024 → BitVec 1024 → BitVec 1024) (s : State) : Host.Outcome State Fault Refusal :=
  runV l maskClusters
    (fun _ _ => { regs := [], locs := .m (l.a.toNat % 8) :: (if bIn then [.m (l.b.toNat % 8)] else []), own := [.m (l.dst.toNat % 8)],
                  held := false, traps := [] })
    (fun m mask =>
      .done (m.write .v 1 (.m (l.dst.setWidth 3) (f (m.me.mreg (l.a.toNat % 8)) (m.me.mreg (l.b.toNat % 8))) mask) 0) 0) s

/-- VMAND (R258): DST bit 3 is .andn. -/
def execVmand (l : Lane) (s : State) : Host.Outcome State Fault Refusal :=
  vMask l true (fun a b => if l.dst.getLsbD 3 then a &&& ~~~b else a &&& b) s

/-- VMOR (R258): DST bits 4:3 are 00 OR, 01 .orn, 10 .xor. -/
def execVmor (l : Lane) (s : State) : Host.Outcome State Fault Refusal :=
  vMask l true (fun a b => if l.dst.getLsbD 4 then a ^^^ b else if l.dst.getLsbD 3 then a ||| ~~~b else a ||| b) s

/-- VMNOT (R258). -/
def execVmnot (l : Lane) (s : State) : Host.Outcome State Fault Refusal := vMask l false (fun a _ => ~~~a) s

end Sys2Proof.Machine
end

