-- ==== Sys2Proof/Machine/Matrix.lean ====
section
/-! DEFINITION. The M stream (R260 to R282): passes, rings, array operations and their results, joint operations, drains, accumulator
moves, band scales and semaphores. -/
namespace Sys2Proof.Machine

/-! ### The common part of an M lane -/

/-- What an M lane uses: s registers and locations read, locations written, holds and faults. -/
structure MUse where
  regs  : List Nat
  locs  : List Loc
  own   : List Loc
  held  : Bool
  traps : List Trap
  deriving DecidableEq, Repr

/-- Nothing used. -/
def MUse.none : MUse := { regs := [], locs := [], own := [], held := false, traps := [] }

/-- An M lane: held on pending registers; else checked, MX among its domains (R261), and acts. -/
def runM (use : Mach → MUse) (act : Mach → LaneOut) (s : State) : Host.Outcome State Fault Refusal :=
  runLane .m (fun m =>
    let c := m.me
    let u := use m
    if u.held || u.regs.any (c.pending m.now) then .hold m
    else checked (m.staleTraps u.own (u.regs.map Loc.s ++ u.locs) ++ m.sleepTraps [.core m.cur mxBit] ++ u.traps) (act m)) s

/-! ### Types, passes and operand tiles (R260, R262, R264) -/

/-- The element types of A and B of an array operation: `op` 1 MMA, 2 MMAI, 3 MMAD, 4 MMAS, 5 MMAJ, 6 MMAJS (R269). -/
def arrayTypes (op : Nat) (fn : BitVec 3) : Fmt × Fmt :=
  match op with
  | 2 => nth [(5, 5), (6, 6), (5, 6), (9, 9), (10, 10), (9, 10)] fn.toNat (5, 5)
  | 3 => (0x0B, 0x0B)
  | _ => (typeF fn, typeF fn)

/-- Elements per pass, and cycles per pass (R260). -/
def passDepth (t : Fmt) : Nat × Nat :=
  match slotBits t with
  | 4 => (192, 1)
  | 8 => (96, 1)
  | 16 => (48, 1)
  | 32 => (24, 4)
  | _ => (12, 16)

/-- K of an array operation (R269). -/
def Lane.arrayK (op : Nat) (l : Lane) : Nat := if l.imm = 0 then (passDepth (arrayTypes op l.fn).1).1 else l.imm.toNat

/-- Passes of an array operation (R260). -/
def Lane.arrayPasses (op : Nat) (l : Lane) : Nat :=
  let kd := (passDepth (arrayTypes op l.fn).1).1
  (Lane.arrayK op l + kd - 1) / kd

/-- Whether an array operation reads scaled tiles. -/
def scaledOp (op : Nat) : Bool := op == 4 || op == 6

/-- Consecutive groups of `n` of a list. -/
def chunks {α : Type} (n : Nat) (l : List α) : List (List α) :=
  (List.range ((l.length + n - 1) / n)).map fun i => (l.drop (n * i)).take n

/-- The first `n` elements of a run of bytes, placed as R262 places them. -/
def bytesElems (t : Fmt) (bs : List Byte) (n : Nat) : List Nat :=
  match elemBits t with
  | 4 => (bs.flatMap fun b => [b.toNat % 16, b.toNat / 16]).take n
  | 6 => (bs.map fun b => b.toNat % 64).take n
  | w => ((chunks (w / 8) bs).map leValue).take n

/-- Elements placed as R262 places them. -/
def elemsBytes (t : Fmt) (ps : List Nat) : List Byte :=
  match slotBits t with
  | 4 => (chunks 2 ps).map fun p => BitVec.ofNat 8 (p.foldr (fun x a => x % 16 + 16 * a) 0)
  | w => ps.flatMap (leBytes (w / 8))

/-- Vector `v` of a tile (R262). -/
def tileVector (tile : List Byte) (v : Nat) : List Byte := (tile.drop (96 * v)).take 96

/-- Scales of vector `v` of a scaled tile, `n` of them (R262). -/
def tileScales (tile : List Byte) (v n : Nat) : List Nat := ((tile.drop (3072 + 24 * v)).take n).map BitVec.toNat

/-! ### One pass (R82, R85, R270) -/

/-- A vector of A or of B: its elements and its scales. -/
structure PassVec where
  pats   : List Nat
  scales : List Nat
  deriving DecidableEq, Repr

/-- The unscaled exact sum of a pass and the flags it sets. -/
def passSum (t : Fmt) (a b : PassVec) : Val × Flags :=
  let xs := a.pats.map (dec t)
  let ys := b.pats.map (dec t)
  let s := sumVals false (List.zipWith Val.mul xs ys)
  (s, invalid (xs ++ ys) s)

/-- The two-level scaled sum of a pass (R82). -/
def passScaled (t : Fmt) (a b : PassVec) : Val × Flags :=
  let xs := a.pats.map (dec t)
  let ys := b.pats.map (dec t)
  let zero := Val.fin false 0 0
  let blks := (chunks 8 (List.zipWith Val.mul xs ys)).map (List.foldl (Val.add false) zero)
  let sc := List.zipWith (fun x y => (decScale x, decScale y)) a.scales b.scales
  let s := (List.zipWith (fun k p => Val.mul (Val.mul k p.1) p.2) blks sc).foldl (Val.add false) zero
  (s, invalid (xs ++ ys ++ sc.map Prod.fst ++ sc.map Prod.snd) s)

/-- The accumulation of a pass sum: RNE of the sum, then RNE of the addition (R85). -/
def accumulate (w : FloatFmt) (acc : Nat) (s : Val × Flags) : Nat × Flags :=
  let r := cvtFloat w 0 false s.1
  let x := Val.add false (w.dec acc) (w.dec r.1)
  let q := cvtFloat w 0 false x
  (q.1, s.2 ||| r.2 ||| q.2 ||| invalid [w.dec acc, w.dec r.1] x)

/-- One element of the accumulator after a pass. -/
def passElem (op : Nat) (ta tb : Fmt) (sat : Bool) (acc : Nat) (a b : PassVec) : Nat × Flags :=
  match op with
  | 2 =>
    let na := intOf ta
    let nb := intOf tb
    let s := (List.zipWith (fun x y => decInt na.1 na.2 x * decInt nb.1 nb.2 y) a.pats b.pats).foldl (· + ·) 0
    fitInt 0x01 sat (decInt 32 true acc + s)
  | 3 => accumulate fp64 acc (passSum ta a b)
  | _ => accumulate fp32 acc (if scaledOp op then passScaled ta a b else passSum ta a b)

/-- The accumulator after a pass: its 1,024 elements by row, and the flags. -/
def passAcc (op : Nat) (ta tb : Fmt) (sat : Bool) (acc : List Nat) (rows cols : List PassVec) : List Nat × Flags :=
  let rs := List.zipWith (fun x p => passElem op ta tb sat x p.1 p.2) acc (rows.flatMap fun a => cols.map fun b => (a, b))
  (rs.map Prod.fst, rs.foldl (fun f x => f ||| x.2) 0)

/-- The rows of A and the columns of B of a pass from the bytes gathered: two tiles, or the four members' joint tiles (R262, R274). -/
def passVecs (op : Nat) (quadrant : Option Nat) (ta tb : Fmt) (buf : Memory) (k p : Nat) : List PassVec × List PassVec :=
  let kd := (passDepth ta).1
  let n := min kd (k - p * kd)
  let vec (t : Fmt) (tile : List Byte) (v : Nat) : PassVec :=
    ⟨bytesElems t (tileVector tile v) n, if scaledOp op then tileScales tile v ((n + 7) / 8) else []⟩
  match quadrant with
  | none =>
    let a := buf.readBlock (p * 8192) 4096
    let b := buf.readBlock (p * 8192 + 4096) 4096
    ((List.range 32).map (vec ta a), (List.range 32).map (vec tb b))
  | some m =>
    let tiles := (List.range 4).map fun q => buf.readBlock (p * 16384 + 4096 * q) 4096
    let pick (t : Fmt) (base i off : Nat) : PassVec := vec t (nth tiles ((base + i) / 16) []) (off + (base + i) % 16)
    ((List.range 32).map fun i => pick ta (32 * (m / 2)) i 0, (List.range 32).map fun j => pick tb (32 * (m % 2)) j 16)

/-- All passes from `p` on. -/
def passLoop (op : Nat) (l : Lane) (quadrant : Option Nat) (buf : Memory) (k : Nat) : Nat → Nat → List Nat × Flags → List Nat × Flags
  | 0, _, r => r
  | n + 1, p, r =>
    let t := arrayTypes op l.fn
    let v := passVecs op quadrant t.1 t.2 buf k p
    let x := passAcc op t.1 t.2 l.sat r.1 v.1 v.2
    passLoop op l quadrant buf k n (p + 1) (x.1, r.2 ||| x.2)

/-! ### Accumulators (R261, R268) -/

/-- Where the starting value stands in the bytes that an array operation gathers. -/
def startAt : Nat := 2 ^ 24

/-- An accumulator. -/
def Core.accReg (c : Core) (n : Nat) : BitVec 32768 := nth c.mx.acc n 0

/-- An accumulator written. -/
def Core.setAcc (c : Core) (n : Nat) (v : BitVec 32768) : Core := { c with mx := { c.mx with acc := c.mx.acc.set n v } }

/-- The 32-bit lanes of 4,096 bytes. -/
def bytesWords (bs : List Byte) : List Nat := (chunks 4 bs).map leValue

/-- The two accumulators of an FP64 pair from its image, element by element (R268, R278). -/
def splitPair (ws : List Nat) : BitVec 32768 × BitVec 32768 :=
  let ps := chunks 2 ws
  (lanesImage (ps.map fun p => BitVec.ofNat 32 (nth p 0 0)), lanesImage (ps.map fun p => BitVec.ofNat 32 (nth p 1 0)))

/-- The image of an FP64 pair (R278). -/
def joinPair (lo hi : BitVec 32768) : BitVec 65536 :=
  BitVec.ofNat 65536 (packWords ((List.zipWith (fun a b => [a, b]) (lanesOf lo) (lanesOf hi)).flatten))

/-- The accumulators a result writes, with their values: of an array operation from the bytes it gathered. Flags of accumulation are
the third part. -/
def Result.accWrites (r : Result) : List (Nat × BitVec 32768) × Flags :=
  match r.dest with
  | .acc n img => ([(n.toNat, img ||| bytesImage 32768 (r.buf.readBlock 0 4096))], 0)
  | .accPair n img =>
    let p := splitPair (bytesWords (imageBytes (img ||| bytesImage 65536 (r.buf.readBlock 0 8192))))
    ([(n.toNat, p.1), (n.toNat + 1, p.2)], 0)
  | .accZero mask => (((List.range 4).filter mask.getLsbD).map fun n => (n, 0), 0)
  | .array op l k n q =>
    let z := l.p.getLsbD 2
    let lo := if z then List.replicate 1024 0 else bytesWords (r.buf.readBlock startAt 4096)
    if op = 3 then
      let hi := if z then List.replicate 1024 0 else bytesWords (r.buf.readBlock (startAt + 4096) 4096)
      let x := passLoop op l q r.buf k n 0 (List.zipWith (fun a b => a + 2 ^ 32 * b) lo hi, 0)
      ([(l.dst.toNat, lanesImage (x.1.map fun v => BitVec.ofNat 32 v)),
        (l.dst.toNat + 1, lanesImage (x.1.map fun v => BitVec.ofNat 32 (v / 2 ^ 32)))], x.2)
    else
      let x := passLoop op l q r.buf k n 0 (lo, 0)
      ([(l.dst.toNat, lanesImage (x.1.map fun v => BitVec.ofNat 32 v))], x.2)
  | _ => ([], 0)

/-- The starting value that an array operation forwards, with accumulators rewritten by an earlier one's write (R261). -/
def Result.forward (ws : List (Nat × BitVec 32768)) (y : Result) : Result :=
  match y.dest with
  | .array op l _ _ _ =>
    ws.foldl (fun y w =>
      let i := w.1 - l.dst.toNat
      if l.dst.toNat ≤ w.1 && i < (if op = 3 then 2 else 1) then
        { y with buf := y.buf.writeBlock (startAt + 4096 * i) (imageBytes w.2) }
      else y) y
  | _ => y

/-- Where the VALID bits that a search reads stand in the bytes it gathers: one byte for each entry. -/
def validAt : Nat := 2 ^ 24

/-- A late read performed by core `core`: its bytes, and the VALID bits of four entries where it asks for them (R325), joined to those
gathered. -/
def Mach.doRead (m : Mach) (core : Nat) (r : Result) (x : LateRead) : Result :=
  let buf := r.buf.writeBlock x.pos (m.padRead x.pad x.off x.len)
  match x.valid with
  | none => { r with buf := buf }
  | some g =>
    let v := (nth (m.core core).hv.gd g.toNat (0, 0, 0)).2.2
    { r with buf := buf.writeBlock (validAt + x.pos / 1024) ((List.range 4).map fun i => if v.getLsbD (x.pos / 1024 + i) then 1 else 0) }

/-- The writes of an accumulator in flight before an array operation that lands at once (R261): bytes not yet at the core are taken
as they stand (log entry 15), in the order of their write cycles and then of issue (R91). -/
def Mach.pendingAcc (m : Mach) (core : Nat) (c : Core) (y : Result) : List (Nat × BitVec 32768) :=
  ((c.flight.filter fun x => (match x.dest with | .acc _ _ => true | .accPair _ _ => true | _ => false) && x.issued ≤ y.issued).mergeSort
    fun a b => a.w < b.w || (a.w == b.w && a.issued ≤ b.issued)).flatMap
    fun x => (Result.accWrites (x.reads.foldl (m.doRead core) x)).1

/-- A result that writes accumulators, no longer in flight, lands at a core: they are written, the flags set, and the operations
issued later take its values as their start (R261, R268). JSEQ advances with the write of a joint operation (R273). -/
def Mach.landAcc (m : Mach) (core : Nat) (r : Result) : Mach :=
  let c := m.core core
  let r' := match r.dest with | .array _ _ _ _ _ => r.forward (m.pendingAcc core c r) | _ => r
  let ws := r'.accWrites
  m.modCore core fun c =>
    let c := ws.1.foldl (fun c w => c.setAcc w.1 w.2) c
    let later (y : Result) : Result := if r.issued ≤ y.issued then y.forward ws.1 else y
    let joint := match r.dest with | .array _ _ _ _ q => q.isSome | _ => false
    ({ c with flight := c.flight.map later, mx := if joint then { c.mx with jseq := (c.mx.jseq + 1) % 4 } else c.mx } : Core).flag m.now
      (r.nfl ||| ws.2)

/-! ### Rings (R265 to R267) -/

/-- A ring descriptor. -/
def Core.ring (c : Core) (n : Nat) : Ring := nth c.mx.rings n Ring.reset

/-- Slots of a ring that outstanding operations will pop (R265). -/
def Core.reserved (c : Core) (ring : Nat) : Nat :=
  c.mx.ops.foldl (fun a o => a + (if o.popA && o.ringA == ring then o.passes else 0) +
    (if o.popB && o.ringB == some ring then o.passes else 0)) 0

/-- What the checks of a ring give: its faults, whether the operation is held for COUNT, the addresses of its tiles, none where TILE or BASE is
wrong, and the banks that they touch. -/
structure RingUse where
  traps : List Trap
  held  : Bool
  tiles : List Nat
  banks : List Nat
  deriving DecidableEq, Repr

/-- The checks of R265 to R267 on a ring for `n` passes of elements of type `t`. -/
def Core.ringUse (c : Core) (r : Nat) (isB : Bool) (t : Fmt) (n : Nat) : RingUse :=
  let g := c.ring r
  let base := ringBase g.w0
  let cap := ringSize g.w0 / 0x1000
  let count := ringCount g.w1
  let res := c.reserved r
  let bad (why extra : Nat) : Trap := ⟨Code.ring, BitVec.ofNat 32 (r + (if isB then 8 else 0) + 16 * why + 256 * extra), 0⟩
  let wrong := ringTile g.w1 != 0x1000 || base % 0x1000 != 0
  let regs := ((Pad.core 0).units base (ringSize g.w0)).map fun b => nth c.pad.fmt b 0
  let stopped := if ringBound g.w1 then g.dead else none
  let tiles := (List.range n).map fun p => base + (ringHead g.w1 + res + p) % max 1 cap * 0x1000
  let ts :=
    (if wrong then [bad 1 0]
     else (if regs.any classOf then [bad 2 0] else []) ++
      (if !ringBound g.w1 && count < res + n then [bad 3 0] else if cap < res + n then [bad 4 0] else []) ++
      (match stopped with | some code => [bad 5 code.toNat] | none => [])) ++
    trapUnless (regs.all fun f => fmtOf f == 0 || fmtOf f == t) Code.bankfmt 0 base
  { traps := ts, held := !wrong && ringBound g.w1 && stopped.isNone && count < res + n && res + n ≤ cap,
    tiles := if wrong then [] else tiles,
    banks := if cap = 0 then [] else ((tiles.flatMap fun a => (Pad.core 0).units a 4096).filter (· < 48)).eraseDups }

/-- F.SCALECOUNT where a tile's NSC is not what R264 asks for. -/
def Mach.nscTraps (m : Mach) (core : Nat) (t : Fmt) (k : Nat) (tiles : List Nat) : List Trap :=
  let nb := if t = 0x13 then 24 else 12
  let s := (k + 7) / 8
  trapUnless (((List.range tiles.length).zip tiles).all fun p =>
    (m.padMem (.core core)).value (p.2 + 3840) 2 == min nb (s - p.1 * nb)) Code.scalecount 0 0

/-! ### Array operations (R261, R270) -/

/-- The plan of an array operation: first pass, the tiles of A and of B, its port cycles, its holds and its faults. -/
structure ArrayPlan where
  f     : Nat
  a     : List Nat
  b     : List Nat
  ports : List (Nat × Nat)
  held  : Bool
  traps : List Trap
  deriving DecidableEq, Repr

/-- The first pass of an operation that issues now (R261). -/
def Core.arrayFree (c : Core) (now : Nat) : Nat := c.mx.ops.foldl (fun a o => max a (o.f + o.passes * o.cpp)) now

/-- The plan of MMA, MMAI, MMAD or MMAS at the core being served (R261, R265, R270). -/
def Mach.planArray (m : Mach) (op : Nat) (l : Lane) : ArrayPlan :=
  let c := m.me
  let t := arrayTypes op l.fn
  let n := Lane.arrayPasses op l
  let cpp := (passDepth t.1).2
  let f := c.arrayFree m.now
  let ra := c.ringUse l.a.toNat false t.1 n
  let rb := c.ringUse l.b.toNat true t.2 n
  let at' (p : Nat) : Nat := f + p * cpp
  let ports := (List.range n).flatMap fun p => ((ra.tiles[p]?).toList ++ (rb.tiles[p]?).toList).map fun a => (groupOf a, at' p)
  let same := (List.zipWith (fun a b => groupOf a == groupOf b) ra.tiles rb.tiles).any id
  { f := f, a := ra.tiles, b := rb.tiles, ports := ports,
    held := 4 ≤ c.mx.ops.length || (ra.held || rb.held) && (ra.traps ++ rb.traps).isEmpty,
    traps := ra.traps ++ rb.traps ++
      m.sleepTraps ((ra.banks ++ rb.banks).eraseDups.map (DomRef.core m.cur)) ++ c.clashTraps ports ++ (if same then [clashTrap] else []) ++
      (if scaledOp op then m.nscTraps m.cur t.1 (Lane.arrayK op l) ra.tiles ++ m.nscTraps m.cur t.2 (Lane.arrayK op l) rb.tiles else []) }

/-- The reads of the passes of a plan. -/
def ArrayPlan.reads (p : ArrayPlan) (core cpp : Nat) : List LateRead :=
  (List.range p.a.length).flatMap fun i =>
    [{ cyc := p.f + i * cpp, pad := .core core, off := nth p.a i 0, len := 4096, pos := i * 8192, valid := none },
     { cyc := p.f + i * cpp, pad := .core core, off := nth p.b i 0, len := 4096, pos := i * 8192 + 4096, valid := none }]

/-- The starting value as it stands (R261): accumulators as landed. -/
def Core.startBytes (c : Core) (op : Nat) (l : Lane) : Memory :=
  let m : Memory := []
  let m := m.writeBlock startAt (imageBytes (c.accReg l.dst.toNat))
  if op = 3 then m.writeBlock (startAt + 4096) (imageBytes (c.accReg (l.dst.toNat + 1))) else m

/-- The array operation of a plan issues (R261, R270). -/
def Mach.issueArray (m : Mach) (op : Nat) (l : Lane) (p : ArrayPlan) : Mach :=
  let n := Lane.arrayPasses op l
  let cpp := (passDepth (arrayTypes op l.fn).1).2
  let last := p.f + n * cpp - 1
  let word := Lane.toWord (BitVec.ofNat 7 op) l
  let ext := (l.ext.map Ext.toWord).getD 0
  m.modMe fun c =>
    let r : Result := { m.result .m 0 (.array op l (Lane.arrayK op l) n none) 0 with
      w := last + 24, reads := p.reads m.cur cpp, buf := c.startBytes op l, lane := word, ext := ext }
    let o : ArrayOp := { lane := word, ext := ext, f := p.f, cpp := cpp, passes := n, retire := last + 1, write := last + 24,
                         ringA := l.a.toNat, ringB := some l.b.toNat, popA := !l.p.getLsbD 1, popB := !l.p.getLsbD 0 }
    let c := (c.bookPorts p.ports).fly r
    { c with mx := { c.mx with ops := c.mx.ops ++ [o] } }

/-- The locations an array lane reads: its ring descriptors; and its own, its accumulators. -/
def arrayLocs (op : Nat) (l : Lane) : List Loc × List Loc :=
  ([.ring l.a.toNat, .ring l.b.toNat], .a l.dst.toNat :: (if op = 3 then [.a (l.dst.toNat + 1)] else []))

/-- What an array lane uses, its holds and faults. -/
def useArrayLane (op : Nat) (l : Lane) (m : Mach) : MUse :=
  let p := m.planArray op l
  { regs := [], locs := (arrayLocs op l).1, own := (arrayLocs op l).2, held := p.held, traps := p.traps }

/-- An array-operation lane. -/
def arrayLane (op : Nat) (l : Lane) (s : State) : Host.Outcome State Fault Refusal :=
  runM
    (useArrayLane op l)
    (fun m => .done (m.issueArray op l (m.planArray op l)) 0) s

/-- MMA (R270). -/
def execMma (l : Lane) (s : State) : Host.Outcome State Fault Refusal := arrayLane 1 l s
/-- MMAI (R270). -/
def execMmai (l : Lane) (s : State) : Host.Outcome State Fault Refusal := arrayLane 2 l s
/-- MMAD (R270). -/
def execMmad (l : Lane) (s : State) : Host.Outcome State Fault Refusal := arrayLane 3 l s
/-- MMAS (R270). -/
def execMmas (l : Lane) (s : State) : Host.Outcome State Fault Refusal := arrayLane 4 l s

/-- ARRAY_RETIRE (R261, R265): the operations of a core that retire in this cycle pop their rings. -/
def execArrayRetire (s : State) : Host.Outcome State Fault Refusal :=
  let core := s.m.cur
  let m := s.m
  let c := m.core core
  let due (o : ArrayOp) : Bool := o.retire ≤ m.now && (c.stop.isNone || o.ringB.isNone)
  let pop (rs : List Ring) (r n : Nat) : List Ring := rs.modify r fun g =>
    let cap := max 1 (ringSize g.w0 / max 1 (ringTile g.w1))
    let w1 := (g.w1 &&& ~~~((0x3FFFFFF : W64) <<< 30)) |||
      BitVec.ofNat 64 ((ringHead g.w1 + n) % cap * 2 ^ 30 + (ringCount g.w1 - n) * 2 ^ 43)
    { g with w1 := w1 }
  .next { s with m := m.setCore core { c with mx := { c.mx with
    ops := c.mx.ops.filter fun o => !due o
    rings := (c.mx.ops.filter due).foldl (fun rs o =>
      let rs := if o.popA then pop rs o.ringA o.passes else rs
      match o.ringB with
      | some b => if o.popB then pop rs b o.passes else rs
      | none => rs) c.mx.rings } } }

/-! ### Chained commands (R271) -/

/-- A chained command as an array operation: its OP and its fields. -/
def ChainCmd.parts (c : ChainCmd) : Nat × Lane := ((laneOp c.word).toNat, Lane.ofWords c.word c.ext)

/-- CHAIN_ISSUE (R271): the command in the chain slot issues, is held, or meets a fault, which is a core trap of stream M with bit 31
of DETAIL set. -/
def execChainIssue (s : State) : Host.Outcome State Fault Refusal :=
  let core := s.m.cur
  let m := { s.m with cur := core }
  let c := m.me
  match c.mx.chain with
  | none => .next s
  | some ch =>
    let p := m.planArray (ChainCmd.parts ch).1 (ChainCmd.parts ch).2
    if p.held || c.mx.due.isSome || c.mx.joint.isSome || c.mx.jheld == some m.now then
      .next { s with m := m.modMe fun c => { c with mx := { c.mx with chainAt := m.now + 1 } } }
    else
      match firstTrap (m.staleTraps (arrayLocs (ChainCmd.parts ch).1 (ChainCmd.parts ch).2).2 (arrayLocs (ChainCmd.parts ch).1 (ChainCmd.parts ch).2).1 ++
          m.sleepTraps [.core core mxBit] ++ p.traps) with
      | some t => .next (State.stopCore { s with m := m } core Mach.boundary
          (Stop.withTrap 2 { t with detail := t.detail ||| 0x80000000 }))
      | none =>
        let m' := (m.issueArray (ChainCmd.parts ch).1 (ChainCmd.parts ch).2 p).modMe fun c =>
          { c with mx := { c.mx with chain := none } }
        .next { s with m := m', base := some (core, m.now, s.restorePoint core) }

/-! ### Joint operations (R272 to R276) -/

/-- The four cores of a quad. -/
def quadCores (q : Nat) : List Nat := [4 * q, 4 * q + 1, 4 * q + 2, 4 * q + 3]

/-- Whether all cores of the core's quad are bound to its task (R272). -/
def Mach.quadBound (m : Mach) (core : Nat) : Bool :=
  (quadCores (quadOf core)).all fun k => (m.core k).bound.isSome && (m.core k).bound.map Bind.task == (m.core core).bound.map Bind.task

/-- JST bit 2 and JREM of a complete frame (R276, R281): offsets 0x18B and 0x18C of the header. A frame still to be written takes them
from the state (`Core.recMAt`). -/
def Core.patchJoint (c : Core) : Core :=
  match c.stop with
  | none => c
  | some p =>
    if !p.held then c
    else
      let jst := (c.frame.read 0x118B &&& 0xFB) ||| (if c.mx.joint.isSome then 4 else 0)
      { c with frame := c.frame.overlay (atAddr 0x118B (jst :: leBytes 2 ((c.mx.joint.getD p.cyc) - p.cyc))) }

/-- The start is fixed once every member's notice has left (R273). -/
def Mach.fixJoint (m : Mach) (q : Nat) : Mach :=
  let ds := (quadCores q).map fun k => (m.core k).mx.due
  if ds.all Option.isSome && (quadCores q).all fun k => (m.core k).mx.joint.isNone then
    let j := maxOf (ds.filterMap fun d => d.map JointDue.cyc) + 4
    (quadCores q).foldl (fun m k => m.modCore k fun c => ({ c with mx := { c.mx with joint := some j } } : Core).patchJoint) m
  else m

/-- The locations a joint lane reads, its ring descriptor, and its own, its accumulators (R93). -/
def jointLocs (op : Nat) (l : Lane) : List Loc × List Loc := ([.ring l.a.toNat], (arrayLocs op l).2)

/-- What a joint lane meets at a core that does not form a bound quad (R272, R282). -/
def Mach.jointTraps (m : Mach) (op : Nat) (l : Lane) : List Trap :=
  m.staleTraps (jointLocs op l).2 (jointLocs op l).1 ++ m.sleepTraps [.core m.cur mxBit] ++ [⟨Code.joint, 0xFF00, 0⟩]

/-- A joint lane (R272, R273): due once its array has no outstanding operation, it then waits for its start; until then no chained command
enters its array. A lane that is held for COUNT on a bound ring, and so not yet due, keeps chained commands out too, which is the model's choice (log
entry 76). -/
def jointLane (op : Nat) (l : Lane) (s : State) : Host.Outcome State Fault Refusal :=
  runLane .m (fun m =>
    let c := m.me
    let wait : LaneOut := .hold (m.modMe fun c => { c with mx := { c.mx with jheld := some m.now } })
    if c.mx.due.isSome then .hold m
    else if !m.quadBound m.cur then match firstTrap (m.jointTraps op l) with | some t => .trap t | none => .hold m
    else if !c.mx.ops.isEmpty then wait
    else
      let r := c.ringUse l.a.toNat false (arrayTypes op l.fn).1 (Lane.arrayPasses op l)
      if r.held && r.traps.isEmpty then wait
      else .hold ((m.modMe fun c => { c with mx := { c.mx with
        due := some { cyc := m.now, op := op, lane := l, count := none } } }).fixJoint (quadOf m.cur))) s

/-- MMAJ (R273). -/
def execMmaj (l : Lane) (s : State) : Host.Outcome State Fault Refusal := jointLane 5 l s
/-- MMAJS (R273). -/
def execMmajs (l : Lane) (s : State) : Host.Outcome State Fault Refusal := jointLane 6 l s

/-- What the driver compares: OP, FN, K and the semaphore (R275). -/
def JointDue.sig (d : JointDue) : Nat × BitVec 3 × Nat × BitVec 5 := (d.op, d.lane.fn, Lane.arrayK d.op d.lane, d.lane.b)

/-- A member's own checks at J (R275): its tiles, and the faults it meets. -/
def Mach.jointCheck (m : Mach) (core : Nat) (d : JointDue) : RingUse :=
  let c := m.core core
  let t := (arrayTypes d.op d.lane.fn).1
  let u := c.ringUse d.lane.a.toNat false t (Lane.arrayPasses d.op d.lane)
  let ports := (List.range u.tiles.length).zipWith (fun p a => (groupOf a, m.now + p)) u.tiles
  { u with traps := u.traps ++ ({ m with cur := core } : Mach).staleTraps (jointLocs d.op d.lane).2 (jointLocs d.op d.lane).1 ++
      m.sleepTraps (.core core mxBit :: u.banks.map (DomRef.core core)) ++
      c.clashTraps ports ++ (if scaledOp d.op then m.nscTraps core t (Lane.arrayK d.op d.lane) u.tiles else []) ++
      (if u.held then [⟨Code.ring, 0, 0⟩] else []) }

/-- A member's part of a joint operation that starts at J (R273, R274): `tiles` are all members'. -/
def Mach.jointMember (m : Mach) (q : Nat) (tiles : List (List Nat)) (k : Nat) (d : JointDue) : Mach :=
  let core := 4 * q + k
  let n := Lane.arrayPasses d.op d.lane
  let j := m.now
  let word := Lane.toWord (BitVec.ofNat 7 d.op) d.lane
  let ext := (d.lane.ext.map Ext.toWord).getD 0
  let reads := (List.range n).flatMap fun p => (List.range 4).map fun x =>
    ({ cyc := j + p, pad := .core (4 * q + x), off := nth (nth tiles x []) p 0, len := 4096, pos := p * 16384 + 4096 * x,
       valid := none } : LateRead)
  m.modCore core fun c =>
    let c := (List.range n).foldl (fun c p => c.bookPort (groupOf (nth (nth tiles k []) p 0)) (j + p) false) c
    let r : Result := { m.result .m 0 (.array d.op d.lane (Lane.arrayK d.op d.lane) n (some k)) 0 with
      w := j + 27 + n, reads := reads, buf := c.startBytes d.op d.lane, lane := word, ext := ext }
    let sem : Result := { m.result .m 0 (.sem d.lane.b 1) 0 with w := j + 27 + n }
    let o : ArrayOp := { lane := word, ext := ext, f := j + 4, cpp := 1, passes := n, retire := j + 4 + n, write := j + 27 + n,
                         ringA := d.lane.a.toNat, ringB := none, popA := !d.lane.p.getLsbD 1, popB := false }
    let c := (c.fly r).fly sem
    let c := { c with mx := { c.mx with ops := c.mx.ops ++ [o], due := none,
                                        joint := if c.stop.isSome then c.mx.joint else none } }
    if c.stop.isSome then c.patchJoint else c.advance .m (d.count.getD j) 0

/-- A joint operation that fails at J (R275): every member that runs traps, the lane has not issued. -/
def State.jointFail (s : State) (q : Nat) (detail : W32) : State :=
  (quadCores q).foldl (fun s k =>
    let s := { s with m := s.m.modCore k fun c => ({ c with mx := { c.mx with due := none, joint := none } } : Core).patchJoint }
    if (s.m.core k).stop.isSome then s
    else s.stopCore k Mach.boundary (Stop.withTrap 2 ⟨Code.joint, detail, 0⟩)) s

/-- JOINT_START (R273 to R275): the operation of a quad starts, or fails. -/
def execJointStart (quad : Nat) (s : State) : Host.Outcome State Fault Refusal :=
  let m := s.m
  let ds := (quadCores quad).filterMap fun k => (m.core k).mx.due
  if ds.length ≠ 4 then .next s
  else
    let driver := (m.core (4 * quad)).mx.jseq
    let sig := (ds[driver]?).map JointDue.sig
    let differ := (List.range 4).filter fun k => (ds[k]?).map JointDue.sig != sig
    let us := (List.range 4).zipWith (fun k d => m.jointCheck (4 * quad + k) d) ds
    let bad := (List.range 4).filterMap fun k => (firstTrap (nth us k ⟨[], false, [], []⟩).traps).map fun t => (k, t.code.toNat)
    match differ, bad with
    | k :: _, _ => .next (s.jointFail quad (BitVec.ofNat 32 k))
    | [], (k, code) :: _ => .next (s.jointFail quad (BitVec.ofNat 32 (k + 256 * code)))
    | [], [] =>
      let tiles := us.map RingUse.tiles
      .next { s with m := ((List.range 4).zip ds).foldl (fun m kd => m.jointMember quad tiles kd.1 kd.2) m }

/-! ### Drains and accumulator moves (R277, R278) -/

/-- The address of a drain or move (R250, R277): the stepped form counts the M stream's repetitions. -/
def Core.mAddress (c : Core) (l : Lane) : Nat :=
  let off := l.imm.signExtend 64
  (c.sreg l.b.toNat + (if modeStep l.a then BitVec.ofNat 64 (c.stream .m).rep * off else off)).toNat

/-- The converted elements of a drain, with their flags (R277). -/
def drainElems (c : Core) (l : Lane) : List (Nat × Flags) :=
  let t := typeF l.fn
  let isInt := l.p.getLsbD 1
  let ba := bf16.dec (nth c.mx.ba l.dst.toNat 0).toNat
  let bb := bf16.dec (nth c.mx.bb l.dst.toNat 0).toNat
  (lanesOf (c.accReg l.dst.toNat)).map fun w =>
    let x := if isInt then Val.ofInt w.toInt else fp32.dec w.toNat
    let y := if l.p.getLsbD 2 then Val.mul (Val.mul x ba) bb else x
    let r := cvtFloat (fmtF t) l.rm l.sat y
    (r.1, r.2 ||| (if l.p.getLsbD 2 then invalid [x, ba, bb] y else 0))

/-- Bytes of a drain's image (R277). -/
def drainSize (t : Fmt) : Nat := 128 * slotBits t

/-- F.BANKFMT where a bank or segment written has another format (R277). -/
def Mach.fmtTraps (m : Mach) (p : Pad) (ea n : Nat) (t : Fmt) : List Trap :=
  trapUnless ((p.units ea n).all fun u => fmtOf (m.fmtReg p u) == 0 || fmtOf (m.fmtReg p u) == t) Code.bankfmt 0 ea

/-- What MDRAIN uses, its holds and faults. -/
def useMdrain (l : Lane) (m : Mach) : MUse :=
  let lvl := modeLvl l.a
  let t := typeF l.fn
  let n := drainSize t
  let ea := m.me.mAddress l
  let inr := m.inRange m.cur lvl ea n
  { regs := [l.b.toNat],
    locs := .a l.dst.toNat :: (if l.p.getLsbD 2 then [.ba l.dst.toNat, .bb l.dst.toNat] else []), own := [], held := false,
    traps := m.accessTraps m.cur lvl ea n n ++ (if lvl = 0 then m.writeBufTraps m.cur ea n else []) ++
      (if inr then m.fmtTraps (padAt m.cur lvl) ea n t else []) ++
      m.me.timingTraps lvl true (m.writeTiming m.cur lvl ea (n / 256) (m.now + 34)) }

/-- MDRAIN (R277): at issue + 34 it acts as a VST of its image. -/
def execMdrain (l : Lane) (s : State) : Host.Outcome State Fault Refusal :=
  let lvl := modeLvl l.a
  let t := typeF l.fn
  let n := drainSize t
  runM
    (useMdrain l)
    (fun m =>
      let c := m.me
      let ea := c.mAddress l
      let tm := m.writeTiming m.cur lvl ea (n / 256) (m.now + 34)
      let es := drainElems c l
      let r : Result := { m.result .m 40 (.pad (padAt m.cur lvl) (atAddr ea (elemsBytes t (es.map Prod.fst))))
          (es.foldl (fun f e => f ||| e.2) 0) with
        w := if lvl = 0 then m.now + 40 else maxOf tm.data, dep := if lvl = 0 then none else some (m.now + 34) }
      .done ((m.bookTiming m.cur lvl true tm true).modMe fun c => c.fly r) 0) s

/-- The timing of an accumulator move of one or two group rows that leaves the core in cycle `t` (R278). R283's bound of 48 cycles is
missed by a load of 32 units in slots `c + k` (R298), whose register is written at `t` + 52: the model's choice is R298 (log entry 72). -/
def Mach.moveTiming (m : Mach) (write : Bool) (lvl ea rows t : Nat) : Timing :=
  if lvl = 0 then
    let cs := (List.range rows).map fun i => t + i
    ⟨(List.range rows).map fun i => (groupOf (ea + 0x1000 * i), t + i), [], cs, cs⟩
  else if write then m.writeTiming m.cur lvl ea (16 * rows) t
  else m.readTiming m.cur lvl ea (16 * rows) t

/-- The group rows of an accumulator move. -/
def Lane.moveRows (l : Lane) : Nat := if l.p.getLsbD 2 then 2 else 1

/-- The accumulators of a move as locations. -/
def Lane.moveLocs (l : Lane) : List Loc := .a l.dst.toNat :: (if l.p.getLsbD 2 then [.a (l.dst.toNat + 1)] else [])

/-- What MLDACC uses, its holds and faults. -/
def useMldacc (l : Lane) (m : Mach) : MUse :=
  let lvl := modeLvl l.a
  let rows := Lane.moveRows l
  let n := 4096 * rows
  let ea := m.me.mAddress l
  { regs := [l.b.toNat], locs := if lvl = 0 then wordLocs ea n else [], own := Lane.moveLocs l,
    held := lvl == 0 && m.readStalls m.cur ea n,
    traps := m.accessTraps m.cur lvl ea n n ++ m.me.timingTraps lvl false (m.moveTiming false lvl ea rows m.now) }

/-- MLDACC (R278): a pair from the quad scratchpad is written 52 cycles after it leaves the core, by R298 (log entry 72). -/
def execMldacc (l : Lane) (s : State) : Host.Outcome State Fault Refusal :=
  let lvl := modeLvl l.a
  let rows := Lane.moveRows l
  let n := 4096 * rows
  runM
    (useMldacc l)
    (fun m =>
      let ea := m.me.mAddress l
      let tm := m.moveTiming false lvl ea rows m.now
      let p := padAt m.cur lvl
      let d : Dest := if rows = 2 then .accPair (l.dst.setWidth 2) 0 else .acc (l.dst.setWidth 2) 0
      let r : Result :=
        if lvl = 0 then
          { m.result .m (7 + rows) d 0 with
            reads := (List.range rows).map fun i =>
              { cyc := m.now + i, pad := p, off := ea + 0x1000 * i, len := 0x1000, pos := 0x1000 * i, valid := none } }
        else m.gathered .m p ea n tm d
      .done ((m.bookTiming m.cur lvl false tm).modMe fun c => c.fly r) 0) s

/-- What MSTACC uses, its holds and faults. -/
def useMstacc (l : Lane) (m : Mach) : MUse :=
  let lvl := modeLvl l.a
  let rows := Lane.moveRows l
  let n := 4096 * rows
  let ea := m.me.mAddress l
  { regs := [l.b.toNat], locs := Lane.moveLocs l, own := [], held := false,
    traps := m.accessTraps m.cur lvl ea n n ++ (if lvl = 0 then m.writeBufTraps m.cur ea n else []) ++
      m.me.timingTraps lvl true (m.moveTiming true lvl ea rows (m.now + 2)) }

/-- MSTACC (R278): it acts as a VST issued at issue + 2, the second group row of a pair at issue + 3. -/
def execMstacc (l : Lane) (s : State) : Host.Outcome State Fault Refusal :=
  let lvl := modeLvl l.a
  let rows := Lane.moveRows l
  runM
    (useMstacc l)
    (fun m =>
      let c := m.me
      let ea := c.mAddress l
      let tm := m.moveTiming true lvl ea rows (m.now + 2)
      let img := if rows = 2 then imageBytes (joinPair (c.accReg l.dst.toNat) (c.accReg (l.dst.toNat + 1)))
        else imageBytes (c.accReg l.dst.toNat)
      let p := padAt m.cur lvl
      let row (i : Nat) : Result :=
        { m.result .m (8 + i) (.pad p (atAddr (ea + 0x1000 * i) ((img.drop (4096 * i)).take 4096))) 0 with
          w := if lvl = 0 then m.now + 8 + i else maxOf tm.data, dep := if lvl = 0 then none else some (m.now + 2) }
      .done ((m.bookTiming m.cur lvl true tm true).modMe fun c => (List.range rows).foldl (fun c i => c.fly (row i)) c) 0) s

/-! ### Zeroing, band scales and semaphores (R279, R280) -/

/-- MZERO (R279). -/
def execMzero (l : Lane) (s : State) : Host.Outcome State Fault Refusal :=
  runM (fun _ => MUse.none) (fun m => .done (m.write .m 1 (.accZero (BitVec.ofNat 4 l.litU)) 0) 0) s

/-- The value of MSBA and MSBB: a literal is BF16, converted from the short form's integer (R75, R279). -/
def Core.bandValue (c : Core) (l : Lane) : BitVec 16 :=
  match l.kb.toNat with
  | 1 => (c.sreg l.b.toNat).setWidth 16
  | 2 => (c.const l.b.toNat).setWidth 16
  | _ => if l.long then l.imm else (litLane 0 0x0D l.b none).setWidth 16

/-- MSBA (R279). -/
def execMsba (l : Lane) (s : State) : Host.Outcome State Fault Refusal :=
  runM (fun _ => { MUse.none with regs := if l.kb = 1 then [l.b.toNat] else [], own := [.ba l.dst.toNat] })
    (fun m => .done (m.write .m 1 (.ba (l.dst.setWidth 2) (m.me.bandValue l)) 0) 0) s

/-- MSBB (R279). -/
def execMsbb (l : Lane) (s : State) : Host.Outcome State Fault Refusal :=
  runM (fun _ => { MUse.none with regs := if l.kb = 1 then [l.b.toNat] else [], own := [.bb l.dst.toNat] })
    (fun m => .done (m.write .m 1 (.bb (l.dst.setWidth 2) (m.me.bandValue l)) 0) 0) s

/-- MSEMW (R280). -/
def execMsemw (l : Lane) (s : State) : Host.Outcome State Fault Refusal :=
  runM (fun m => { MUse.none with regs := if l.kb = 1 then [l.b.toNat] else [],
                                    held := (m.me.semTake l.dst.toNat (m.me.xCount l)).isNone })
    (fun m => .done (m.modMe fun c => (c.semTake l.dst.toNat (c.xCount l)).getD c) 0) s

/-- MSEMS (R280). -/
def execMsems (l : Lane) (s : State) : Host.Outcome State Fault Refusal :=
  runM (fun _ => { MUse.none with regs := if l.kb = 1 then [l.b.toNat] else [] })
    (fun m => .done (m.modMe fun c => c.semSignal l.dst.toNat (c.xCount l)) 0) s

end Sys2Proof.Machine
end

