-- ==== Sys2Proof/Machine/CopyGeom.lean ====
section
/-! DEFINITION. The geometry of a copy (R285 to R287, R90, R297): descriptor fields, sides, rows, units and the conversion of their bytes. -/
namespace Sys2Proof.Machine

/-! ### Sides -/

/-- A side of a copy: its space, scratchpad and route, FMT, bits of an element, bytes of a row, the first byte of each row (in a ring:
its position from the first tile), the base and tiles of a ring, the banks or segments touched, and where its scales lie. -/
structure Side where
  space : Nat
  num   : Nat
  pad   : Option Pad
  fmt   : Fmt
  bits  : Nat
  len   : Nat
  rows  : List Nat
  ring  : Option (Nat × Nat × Nat)
  units : List Nat
  scale : Nat
  deriving DecidableEq, Repr

/-- The slots of a ring that a copy has still to fill, by their group rows (R287). -/
def Copy.tilesOpen (k : Copy) : List Nat :=
  if k.dstSpace = 6 || k.refill.isSome then
    ((k.units.filter fun u => !u.written).flatMap fun u => u.dst.filterMap fun d => match d.1 with
      | .pad _ off => some (off / 4096)
      | _ => none).eraseDups
  else []

/-- Tiles due to a ring: of copies that name it and of its refills, landed or not, and not yet counted. -/
def Core.ringDue (c : Core) (ring : Nat) : Nat :=
  c.xe.copies.foldl (fun a k =>
    a + (if k.refill = some ring || (k.refill.isNone && k.dstSpace == 6 && k.addr true % 8 == ring) then k.tilesOpen.length else 0)) 0 +
  c.flight.foldl (fun a r => a + (match r.dest with | .ringCount n k => if n.toNat = ring then k else 0 | _ => 0)) 0

/-- The FMT that a side's place gives (R287): of the banks or segments of its first row that lies in the scratchpad, of the ring, or of the
descriptor; a refill moves bytes (R348). -/
def Mach.sideFmt (m : Mach) (core : Nat) (k : Copy) (dst : Bool) : Fmt :=
  if k.refill.isSome then 0
  else match k.space dst with
  | 0 | 1 | 2 => match m.sidePad core k dst with
    | some p =>
      let row := ((List.range k.nrows).find? fun i => 0 ≤ k.rowAddr dst i && k.rowAddr dst i < p.size).getD 0
      fmtOf (m.fmtReg p (p.unit (k.rowAddr dst row).toNat))
    | none => 0
  | 6 => fmtOf (m.fmtReg (.core core) (bankOf (ringBase ((m.core core).ring (k.addr true % 8)).w0)))
  | _ => k.fmtField dst % 32

/-- Bits of an element on a side (R89, R90): a RAW side takes the other's size, two RAW sides take one byte. -/
def sideBits (own other : Fmt) : Nat :=
  if own = 0 then (if other = 0 then 8 else tileBits other) else tileBits own

/-- A side of a copy. Hypervectors, which no copy converts, move as bytes. -/
def Mach.side (m : Mach) (core : Nat) (k : Copy) (dst : Bool) : Side :=
  let c := m.core core
  let own := m.sideFmt core k dst
  let other := if k.op = 6 then own else m.sideFmt core k (!dst)
  let b := sideBits own other
  let len := k.rlen * b / 8
  let b := if b = 8192 then 8 else b
  let n := k.nrows
  let num := k.qual dst
  match k.space dst with
  | 6 =>
    let g := c.ring (k.addr true % 8)
    let base := ringBase g.w0
    let cap := ringSize g.w0 / 4096
    let first := ringHead g.w1 + ringCount g.w1 + c.ringDue (k.addr true % 8)
    let tiles := n * len / 4096
    { space := 6, num := k.addr true % 8, pad := some (.core core), fmt := own, bits := b, len := len,
      rows := (List.range n).map fun i => first * 4096 + i * len, ring := some (base, cap, first),
      units := if cap = 0 then [] else ((List.range tiles).flatMap fun t =>
        (Pad.core core).units (base + (first + t) % cap * 4096) 4096).eraseDups,
      scale := k.scaleAddr }
  | s =>
    let rows := (List.range n).map fun i => (k.rowAddr dst i).toNat
    let pad := m.sidePad core k dst
    let there := (List.range n).filter fun i => 0 ≤ k.rowAddr dst i
    { space := s, num := num, pad := pad, fmt := own, bits := b, len := len, rows := rows, ring := none,
      units := match pad with
        | some p => (there.flatMap fun i => m.unitsIn core p (nth rows i 0) len).eraseDups
        | none => [],
      scale := k.scaleAddr }

/-- Whether a side lies outside scratchpad, in a ring, or in a bank or segment that exists. -/
def Side.placed (s : Side) : Bool := s.pad.isNone || s.ring.isSome || !s.units.isEmpty

/-- Where `n` bytes from byte `off` of row `row` of a scratchpad side lie: a ring maps onto its slots. -/
def Side.runs (s : Side) (row off n : Nat) : List (Place × Nat) :=
  let a := nth s.rows row 0 + off
  match s.ring, s.pad with
  | some (base, cap, _), some p =>
    (List.range ((a + n + 4095) / 4096 - a / 4096)).map fun i =>
      let lo := max a ((a / 4096 + i) * 4096)
      let hi := min (a + n) ((a / 4096 + i + 1) * 4096)
      (.pad p (base + lo / 4096 % max 1 cap * 4096 + lo % 4096), hi - lo)
  | none, some p => [(.pad p a, n)]
  | _, none => match s.space with
    | 4 => [(.host a, n)]
    | 5 => [(.peer s.num a, n)]
    | _ => [(.dev a, n)]

/-! ### Bytes of elements (R90) -/

/-- The values of `n` elements of format `f` from bytes. -/
def bytesOfFmt (f : Fmt) (bs : List Byte) (n : Nat) : List Nat := bytesElems f bs n

/-- Elements converted from one format to another (R90); a RAW side or one format on both sides moves the bytes. -/
def convBytes (sf df : Fmt) (mode : Mode) (bs : List Byte) (n : Nat) : List Byte × Flags :=
  if sf = 0 || df = 0 || sf = df then (bs, 0)
  else
    let rs := (bytesOfFmt sf bs n).map fun p => cvt sf df mode false (dec sf p)
    (elemsBytes df (rs.map Prod.fst), rs.foldl (fun a r => a ||| r.2) 0)

/-- Blocks of eight elements quantised (R81): scales, elements and flags. -/
def quantBytes (sf df : Fmt) (band : Nat) (bs : List Byte) (n : Nat) : List Nat × List Nat × Flags :=
  let f := fmtF df
  let qs := (chunks 8 ((bytesOfFmt sf bs n).map (dec sf))).map (quantise f band)
  (qs.map Prod.fst, qs.flatMap fun q => q.2.1, qs.foldl (fun a q => a ||| q.2.2) 0)

/-- Scales of a row of a quantising copy (R287). -/
def Copy.rowScales (k : Copy) : Nat := (k.rlen + 7) / 8

/-- The elements a unit reads: whole blocks where the copy quantises. -/
def Copy.readSpan (k : Copy) (e0 e1 : Nat) : Nat × Nat :=
  if k.quant then (e0 / 8 * 8, min k.rlen ((e1 + 7) / 8 * 8)) else (e0, e1)

/-- What a unit writes from the bytes it read (R81, R90, R295): the bytes of elements [e0, e1) and, where the copy quantises, the scales
of the blocks that end among them (first block, scales); with the flags. -/
def Copy.unitData (k : Copy) (sf df : Fmt) (e0 e1 : Nat) (bs : List Byte) : List Byte × Nat × List Byte × Flags :=
  if k.quant then
    let lo := e0 / 8 * 8
    let r := quantBytes sf df k.band bs ((k.readSpan e0 e1).2 - lo)
    let b0 := e0 / 8
    let ends := (List.range r.1.length).filter fun i => min (8 * (b0 + i) + 8) k.rlen ≤ e1
    (elemsBytes df ((r.2.1.drop (e0 - lo)).take (e1 - e0)), b0, (ends.map fun i => BitVec.ofNat 8 (nth r.1 i 0)), r.2.2)
  else
    let r := convBytes sf df k.rm bs (e1 - e0)
    (r.1, 0, [], r.2)

/-- XFILL's bytes of a row from byte `off` on (R295): the pattern repeated from the row's first byte. -/
def Copy.fillBytes (k : Copy) (off n : Nat) : List Byte :=
  let pat := leBytes 4 (k.aux % 2 ^ 32)
  (List.range n).map fun i => nth pat ((off + i) % 4) 0

/-- XRED of one element (R143, R295). -/
def Copy.redElem (k : Copy) (fmt : Fmt) (old new : Nat) : Nat × Flags :=
  AtomOp.apply { op := match k.fn.toNat with | 0 => 0 | 1 => 1 | 2 => 2 | _ => 5, w64 := false, unsig := fmt == 2,
                 val := BitVec.ofNat 64 new, cmp := 0 } old

/-- XRED of bytes into bytes. -/
def Copy.redBytes (k : Copy) (fmt : Fmt) (old new : List Byte) : List Byte × Flags :=
  let rs := List.zipWith (fun a b => k.redElem fmt (leValue a) (leValue b)) (chunks 4 old) (chunks 4 new)
  (rs.flatMap fun r => leBytes 4 r.1, rs.foldl (fun a r => a ||| r.2) 0)

/-! ### Units (R297) -/

/-- The 256-byte-aligned spans a side's rows have. -/
def Side.spanCount (s : Side) : Nat := s.rows.foldl (fun n a => n + ((a + s.len + 255) / 256 - a / 256)) 0

/-- The units of one row: element ranges that the spans of the chosen side cut. -/
def rowUnits (a len bits : Nat) (four : Bool) (row : Nat) : List (Nat × Nat × Nat) :=
  let cut (x : Nat) : Nat := if four then x / 2 * 2 else x
  ((List.range ((a + len + 255) / 256 - a / 256)).map fun i =>
    let lo := max a ((a / 256 + i) * 256)
    let hi := (a / 256 + i + 1) * 256
    (row, cut ((lo - a) * 8 / bits), if a + len ≤ hi then len * 8 / bits else cut ((hi - a) * 8 / bits))).filter fun u => u.2.1 < u.2.2

/-- The units of a copy in row order: row and element range (R297). -/
def copyUnits (src : Option Side) (dst : Side) : List (Nat × Nat × Nat) :=
  let pick := match src with | some s => if dst.spanCount < s.spanCount then s else dst | none => dst
  let four := dst.bits = 4 || (match src with | some s => s.bits = 4 | none => false)
  ((List.range pick.rows.length).zip pick.rows).flatMap fun r => rowUnits r.2 pick.len pick.bits four r.1

/-- The places of the scales of blocks [b0, b0 + n) of a row: consecutive from SCL on in the destination's space (R287). -/
def Copy.scalePlace (k : Copy) (dst : Side) (row b0 : Nat) : Place :=
  let a := dst.scale + row * k.rowScales + b0
  match dst.pad with
  | some p => .pad p a
  | none => match dst.space with
    | 4 => .host a
    | 5 => .peer dst.num a
    | _ => .dev a

end Sys2Proof.Machine
end

