-- ==== Sys2Proof/Machine/Copy.lean ====
section
/-! DEFINITION. The X stream (R285 to R313): copy commands and their schedules, open copies, channels, pennants, records, fences and
semaphores. -/
namespace Sys2Proof.Machine

/-! ### The common part of an X lane -/

/-- What an X lane uses: s registers read, holds and faults; `late`: a held release is checked for nothing in this cycle (R291). -/
structure XUse where
  regs  : List Nat
  held  : Bool
  traps : List Trap
  late  : Bool := false
  deriving DecidableEq, Repr

/-- An X lane: held on pending registers; else checked, XE among its domains (R290, R312), and acts. -/
def runX (use : Mach → XUse) (act : Mach → LaneOut) (s : State) : Host.Outcome State Fault Refusal :=
  runLane .x (fun m =>
    let c := m.me
    let u := use m
    if u.held || u.regs.any (c.pending m.now) then .hold m
    else if u.late then act m
    else checked (m.staleTraps [] (u.regs.map Loc.s) ++ m.sleepTraps [.core m.cur xeBit] ++ u.traps) (act m)) s

/-! ### Records and pennants (R163, R164, R304, R305) -/

/-- A pennant raised, saturating (R304). -/
def Core.pennant (c : Core) (n inc : Nat) : Core :=
  { c with scal := { c.scal with pn := c.scal.pn.modify n fun x => min 65535 (x + inc) } }

/-- The completion record of a copy (R163, R305). -/
def Copy.record (k : Copy) : W64 :=
  let code := match k.fault with | some (_, c, _, _) => c.toNat | none => 0
  let row := match k.fault with | some (r, _, _, _) => r | none => k.nrows
  let tag := match k.refill with | some r => r | none => k.num.toNat
  BitVec.ofNat 64 (2 ^ 60 + code * 2 ^ 48 + tag * 2 ^ 32 + k.pn.toNat * 2 ^ 28 + (if k.refill.isSome then 2 ^ 16 else k.inc.toNat * 2 ^ 20) +
    row % 2 ^ 16)

/-! ### Channels (R128 to R130) -/

/-- A channel. -/
def Core.chan (c : Core) (n : Nat) : Option Chan := nth c.xe.chans n none

/-- A channel replaced. -/
def Core.setChan (c : Core) (n : Nat) (h : Option Chan) : Core := { c with xe := { c.xe with chans := c.xe.chans.set n h } }

/-- BST of the banks of a span (R128, R87): the state `st` of the buffer there, or, where it is no more, that of another open buffer which
shares the bank. -/
def Core.setBst (c : Core) (base len st : Nat) : Core :=
  let others := c.xe.chans.filterMap id
  let of (b : Nat) : Nat := if st = 0 then ((others.find? fun h => h.banks.contains b).map Chan.st).getD 0 else st
  { c with pad := { c.pad with fmt := ((Pad.core 0).units base len).foldl (fun f b =>
      f.modify b fun v => (v &&& 0xFFFF3FFF) ||| BitVec.ofNat 32 (of b * 2 ^ 14)) c.pad.fmt } }

/-- A channel's buffer becomes EMPTY and the channel closes (R129). -/
def Core.freeChan (c : Core) (n : Nat) (h : Chan) : Core := (c.setChan n none).setBst h.base h.len 0

/-- The bytes from 0 on that spans cover, in whole 256-byte units (R130). -/
def coveredFrom (spans : List (Nat × Nat)) : Nat → Nat → Nat
  | 0, x => x / 256 * 256
  | n + 1, x =>
    let e := (spans.filter fun s => s.1 ≤ x && x < s.2).foldl (fun a s => max a s.2) x
    if e = x then x / 256 * 256 else coveredFrom spans n e

/-- A channel after bytes [lo, hi) of its buffer landed, or were acknowledged (R129, R130, R302). -/
def Core.chanBytes (c : Core) (n lo hi : Nat) : Core :=
  match c.chan n with
  | none => c
  | some h =>
    let got := h.got ++ [(lo, hi)]
    let upto := coveredFrom got (got.length + 1) 0
    if h.outbound then
      if h.len ≤ upto then c.freeChan n h else c.setChan n (some { h with got := got })
    else
      let mark := min h.len (max h.mark upto)
      let full := mark == h.len
      let c := c.setChan n (some { h with got := got, mark := mark, st := if full then 2 else h.st })
      if full then c.setBst h.base h.len 2 else c

/-- Whether an open copy moves bytes of a channel's buffer. -/
def Copy.names (k : Copy) (n : Nat) : Bool :=
  !k.timed && k.refill.isNone && k.chan.toNat == n && (k.dstSpace == 0 || k.srcSpace == 0)

/-- The rows that are outstanding for a channel: copy number and row. -/
def Core.chanRows (c : Core) (n : Nat) : List (BitVec 16 × Nat) :=
  (c.xe.copies.filter fun k => k.names n).flatMap fun k => k.rows.map fun r => (k.num, r.row)

/-- Whether a closing channel ends: the rows that were outstanding at its XCLOSE are no more (R129). -/
def Core.chanSettled (c : Core) (n : Nat) : Bool :=
  match c.chan n with
  | some { closing := some rs, .. } => rs.all fun r => !(c.chanRows n).contains r
  | _ => false

/-- A closing channel ends if it can (R129; log entry 16). -/
def Core.settleChan (c : Core) (n : Nat) : Core :=
  match c.chan n with
  | some h => if c.chanSettled n then c.freeChan n h else c
  | none => c

/-! ### The checks of a copy command (R286, R287, R290, R293 to R295, R299, R311, R312) -/

/-- A fault of a side: row in DETAIL 15:0, destination in bit 16. -/
def sideTrap (code : Byte) (dst : Bool) (row : Nat) (addr : Nat) : Trap :=
  ⟨code, BitVec.ofNat 32 (row % 65536 + if dst then 2 ^ 16 else 0), BitVec.ofNat 64 addr⟩

/-- A fault of the descriptor itself: DETAIL bit 31, FADDR its offset. -/
def descTrap (code : Byte) (off : Nat) : Trap := ⟨code, 0x80000000, BitVec.ofNat 64 off⟩

/-- Whether SPACE and QUAL of a side name memory (R286). -/
def Mach.spaceOk (m : Mach) (core : Nat) (k : Copy) (dst : Bool) : Bool :=
  let q := k.qual dst
  match k.space dst with
  | 0 | 1 | 2 => (m.sidePad core k dst).isSome
  | 3 => q == 0
  | 4 => q < 64
  | 5 => true
  | 6 => dst && q == 0 && k.addr dst < 8
  | _ => false

/-- Whether a side lies in scratchpad. -/
def Copy.inPad (k : Copy) (dst : Bool) : Bool := k.space dst ≤ 2 || k.space dst == 6

/-- Whether a format code that stands in the descriptor is legal there (R285). -/
def Copy.fmtOk (k : Copy) (dst : Bool) : Bool := if k.inPad dst then k.fmtField dst == 0 else k.fmtField dst ≤ 0x15

/-- F.SPRANGE of the descriptor's fields (R285, R293 to R295). -/
def Mach.descTraps (m : Mach) (core : Nat) (k : Copy) (off : Nat) : List Trap :=
  let auxOk := match k.op with
    | 2 | 3 => k.aux < 2 ^ 21 && k.aux % 4 == 0 && k.nrows ≤ 1024 && k.aux + 4 * k.nrows ≤ 0x180000
    | 5 => k.aux < 16 && k.dstSpace == 0
    | 6 => k.aux < 2 ^ 32 && k.field 0 64 == 0
    | _ => k.aux == 0
  let ok := k.nrows != 0 && k.rlen != 0 && k.field 0x1F 8 == 0 && k.fmtOk true && k.fmtOk false &&
    k.field 0x30 8 < 4 && k.field 0x31 120 == 0 && auxOk && (k.quant || k.field 0x20 64 == 0) &&
    (k.op == 6 || k.space false != 6)
  (if ok then [] else [descTrap Code.sprange off]) ++
  (if k.op = 6 || m.spaceOk core k false then [] else [⟨Code.sprange, 0x80000000, BitVec.ofNat 64 (k.addr false)⟩]) ++
  (if m.spaceOk core k true then [] else [⟨Code.sprange, 0x80010000, BitVec.ofNat 64 (k.addr true)⟩]) ++
  (if k.op = 5 && !((List.range 4).all fun i => k.aux / 2 ^ i % 2 = 0 ||
      ((m.core (4 * quadOf core + i)).bound.map Bind.task).isSome &&
       (m.core (4 * quadOf core + i)).bound.map Bind.task == (m.core core).bound.map Bind.task)
   then [descTrap Code.sprange off] else [])

/-- The faults of `n` bytes at address `a` of a global, host or peer side: a row, or the scales. -/
def Core.extTraps (c : Core) (k : Copy) (dst : Bool) (row : Nat) (a n : Nat) (span : Bool) : List Trap :=
  if 2 ^ 48 < a + n || (span && a / 65536 != (a + n - 1) / 65536) || (k.op = 4 && dst && a % 4 != 0) then [sideTrap Code.sprange dst row a]
  else match k.space dst with
    | 3 =>
      (if c.bound.any fun b => b.footOk (k.access dst) a n then [] else [sideTrap Code.footprint dst row a]) ++
      (if !k.ctlTimed then [] else match c.bound.bind fun b => b.pin a n with
        | none => [sideTrap Code.timedmiss dst row a]
        | some w => if (k.access dst).allowed w.r w.w then [] else [sideTrap Code.perm dst row a])
    | 4 => if c.bound.any fun b => b.hostWins.any fun w => w.num == k.qual dst && w.base ≤ a && a + n ≤ w.base + w.len &&
          (if dst then w.w else w.r) then [] else [sideTrap Code.perm dst row a]
    | _ => []

/-- The faults of the rows of a side (R287, R312); `off` is the offset of the descriptor, whose own faults name it. -/
def Mach.rowsTraps (m : Mach) (core : Nat) (k : Copy) (dst : Bool) (sd : Side) (off : Nat) : List Trap :=
  let c := m.core core
  match sd.ring with
  | some (base, cap, first) =>
    let g := c.ring sd.num
    let tot := sd.len * k.nrows
    let used := first - ringHead g.w1
    trapUnless (tot % 4096 == 0 && k.stride true == 0) Code.sprange 0x80010000 off ++
    (if !ringBound g.w1 && ringTile g.w1 == 0x1000 && base % 4096 == 0 && used + tot / 4096 ≤ cap then []
     else [sideTrap Code.ring true 0 sd.num])
  | none =>
    (List.range k.nrows).flatMap fun i =>
      let a := k.rowAddr dst i
      let es := max 1 (sd.len / k.rlen)
      if a < 0 then [sideTrap Code.sprange dst i 0]
      else
        let a := a.toNat
        match sd.pad with
        | some p =>
          let inp := match p with | .die d => (p.units a sd.len).all (m.segInPart core d) | _ => true
          if p.size < a + sd.len || a % es != 0 || (k.op = 4 && a % 4 != 0) || !inp then [sideTrap Code.sprange dst i a] else []
        | none => c.extTraps k dst i a sd.len true

/-- The scratchpads a side uses: XMCAST's destination at every member (R295). -/
def Copy.sidePads (k : Copy) (core : Nat) (sd : Side) : List Pad :=
  if k.op = 5 && sd.space = 0 then (k.castCores core).map Pad.core else sd.pad.toList

/-- The first row of a side that touches a bank or segment for which `bad` holds, and its address; of a ring row 0 and its number. -/
def Side.rowWhere (sd : Side) (p : Pad) (bad : Nat → Bool) : Nat × Nat :=
  if sd.ring.isSome then (0, sd.num)
  else (((List.range sd.rows.length).zip sd.rows).find? fun r => (p.units r.2 sd.len).any bad).getD (0, nth sd.rows 0 0)

/-- F.SLEEP, F.BANKFMT and F.BUFSTATE of a scratchpad side (R287, R299, R312). -/
def Mach.unitsTraps (m : Mach) (core : Nat) (k : Copy) (dst : Bool) (sd : Side) : List Trap :=
  let c := m.core core
  (if dst then k.sidePads core sd else sd.pad.toList).flatMap fun p =>
    let reg (u : Nat) : W32 := m.fmtReg p u
    let at' (code : Byte) (bad : Nat → Bool) : Trap := let r := sd.rowWhere p bad; sideTrap code dst r.1 r.2
    let opens := sd.units.any fun u => classOf (reg u)
    m.sleepTraps (sd.units.map p.dom) ++
    (if k.refill.isSome || sd.units.all fun u => fmtOf (reg u) == sd.fmt then [] else [at' Code.bankfmt fun u => fmtOf (reg u) != sd.fmt]) ++
    (if !opens then []
     else if sd.space != 0 then [at' Code.bankfmt fun u => classOf (reg u)]
     else
       let within (h : Chan) (a : Nat) : Bool := h.base ≤ a && a + sd.len ≤ h.base + h.len
       match c.chan k.chan.toNat with
       | some h =>
         if p != .core core || h.st != (if dst then 1 else 3) then [at' Code.bufstate fun u => classOf (reg u)]
         else match ((List.range sd.rows.length).zip sd.rows).find? fun r => !within h r.2 with
           | some r => [sideTrap Code.bufstate dst r.1 r.2]
           | none => []
       | none => [at' Code.bufstate fun u => classOf (reg u)])

/-- F.BANKFMT and F.PERM of the pair of formats (R90, R144, R287, R295); `a` is where the destination begins. -/
def pairTraps (k : Copy) (sf df : Fmt) (a : Nat) (timed : Bool) : List Trap :=
  let special (f : Fmt) : Bool := f == 0x14 || f == 0x15
  let ok :=
    if k.op = 6 then !k.quant
    else if k.quant && k.op != 4 then 0x0F ≤ df && df ≤ 0x13 && (sf == 0x0C || sf == 0x0D)
    else if k.op = 4 then !k.quant && sf == df && (if k.fn = 3 then df == 0x0C && !k.inPad true else df == 1 || df == 2) && k.dstSpace != 6
    else sf == 0 || df == 0 || sf == df || !(special sf || special df)
  (if ok then [] else [sideTrap Code.bankfmt true 0 a]) ++
  (if k.op = 4 && (k.dstSpace == 4 || (k.fn = 3 && (k.inPad true || timed || k.ctlTimed))) then [sideTrap Code.perm true 0 (k.addr true)] else [])

/-- The faults of the scales of a quantising copy (R287): their place lies in the destination's space. CLASS and FMT of the banks that receive the
scales are not judged, which is the model's choice (log entry 75). -/
def Mach.scaleTraps (m : Mach) (core : Nat) (k : Copy) (dst : Side) : List Trap :=
  if !k.quant then []
  else
    let n := k.nrows * k.rowScales
    match dst.pad with
    | some p => (k.sidePads core dst).flatMap (fun q => m.padSleepTraps core q k.scaleAddr n) ++
        (if p.size < k.scaleAddr + n then [sideTrap Code.sprange true 0 k.scaleAddr] else [])
    | none => (m.core core).extTraps k true 0 k.scaleAddr n false

/-- Whether a side is timed (R299): of an XMCAST's destination, at every member. -/
def Mach.sideTimed (m : Mach) (core : Nat) (k : Copy) (dst : Bool) (sd : Side) : Bool :=
  match sd.pad with
  | some _ => sd.ring.isSome || !((if dst then k.sidePads core sd else sd.pad.toList).any fun p => sd.units.any fun u => classOf (m.fmtReg p u))
  | none => sd.space == 3 && k.ctlTimed

/-- A timed global side by device address (R311): its rows and its scales; what no window holds lies beyond all memory. -/
def Core.pinned (c : Core) (k : Copy) (sd : Side) : Side :=
  let phys (a n : Nat) : Nat := match c.bound.bind fun b => b.pin a n with
    | some w => w.pbase + (a - w.vbase)
    | none => 2 ^ 48 + a
  if sd.space = 3 then { sd with rows := sd.rows.map fun a => phys a sd.len, scale := phys sd.scale (k.nrows * k.rowScales) } else sd

/-! ### Timed schedules (R297) -/

/-- The state of a schedule (R297): the machine with its slots, the copy's own port cycles, the port cycles at other members, the units so far, the least
cycles for the next unit, whether a slot was missing and for which side and row first, and for a refill its core, whose booked port cycles it passes over
(R266). -/
structure Sched where
  m      : Mach
  own    : List (Nat × Nat)
  others : List (Nat × Nat × Nat)
  units  : List CopyUnit
  k      : Nat
  ready  : Nat
  rd     : Nat
  w      : Nat
  dep    : Nat
  noSlot : Bool
  missed : Bool × Nat := (true, 0)
  soft   : Option Nat := none

/-- book() of R297: the first cycle from `t` on at which the copy has not booked the group itself. -/
def Sched.book (st : Sched) (g t : Nat) : Sched × Nat :=
  let busy (x : Nat) : Bool := match st.soft with | some k => (st.m.core k).portBusy g x | none => false
  let n := match st.soft with | some k => (st.m.core k).pad.ports.length | none => 0
  let x := firstFrom (fun x => !(st.own.contains (g, x)) && !busy x) 1 (st.own.length + n + 1) t
  ({ st with own := (g, x) :: st.own }, x)

/-- A unit that finds no slot for a side's row. -/
def Sched.miss (st : Sched) (dst : Bool) (row : Nat) : Sched :=
  if st.noSlot then st else { st with noSlot := true, missed := (dst, row) }

/-- The source part of a unit: its read's slot, the cycle its bytes are read, and the cycle it is ready. -/
def Sched.source (st : Sched) (core c row : Nat) (src : Option (Place × Nat)) : Sched × Nat × Nat × Nat :=
  match src with
  | none => (st, c + st.k, c + st.k, c + st.k)
  | some (pl, _) => match st.m.placeReach core pl, pl with
    | none, .pad _ off =>
      let r := st.book (groupOf off) (max (c + st.k) st.ready)
      ({ r.1 with ready := r.2 + 1 }, r.2, r.2, r.2)
    | none, _ => (st, st.ready, st.ready, st.ready)
    | some rt, _ => match st.m.sendRead core rt st.rd with
      | some (m, slot, rdAt, data) => ({ st with m := m, rd := slot + 1 }, slot, rdAt, data)
      | none => (st.miss false row, st.rd, st.rd, st.rd)

/-- A unit that lands in the issuing core's scratchpad; XRED's new value is booked too (R295). -/
def Sched.landOwn (st : Sched) (red : Bool) (ready off : Nat) (u : CopyUnit) : Sched :=
  let r := st.book (groupOf off) (max (ready + 1) st.w)
  if red then
    let n := r.1.book (groupOf off) (r.2 + 2)
    { n.1 with w := r.2 + 1, units := n.1.units ++ [{ u with depAt := n.2, writeAt := r.2, newAt := some n.2 }] }
  else { r.1 with w := r.2 + 1, units := r.1.units ++ [{ u with depAt := r.2, writeAt := r.2 }] }

/-- A unit that leaves the core on a route. -/
def Sched.landFar (st : Sched) (core : Nat) (rt : Reach) (ready : Nat) (u : CopyUnit) : Sched :=
  match st.m.sendWrite core rt (max (ready + 1) st.dep) with
  | some (m, dep, land) => { st with m := m, dep := dep + 1, units := st.units ++ [{ u with depAt := dep, writeAt := land }] }
  | none => st.miss true u.row

/-- One unit scheduled (R295, R297). -/
def Sched.step (core c : Nat) (k : Copy) (src : Option Side) (dst : Side) (st : Sched) (u : Nat × Nat × Nat) : Sched :=
  let (row, e0, e1) := u
  let rs := k.readSpan e0 e1
  let sp := src.bind fun s => (s.runs row (rs.1 * s.bits / 8) ((rs.2 - rs.1) * s.bits / 8)).head?
  let lo := e0 * dst.bits / 8
  let n := (e1 - e0) * dst.bits / 8
  let ends := ((List.range ((k.readSpan e0 e1).2 - e0 / 8 * 8 + 7) ).filter fun i => i % 8 == 0 && min (e0 / 8 * 8 + i + 8) k.rlen ≤ e1 &&
    e0 / 8 * 8 + i < k.rlen).length
  let scales := if k.quant && ends != 0 then [(k.scalePlace dst row (e0 / 8), ends)] else []
  let (st1, ask, rdAt, ready) := st.source core c row sp
  let unit (ds : List (Place × Nat)) : CopyUnit :=
    { row := row, e0 := e0, e1 := e1, src := sp, dst := ds, askAt := ask, readAt := rdAt, haveAt := ready, depAt := ready, writeAt := ready, newAt := none,
      puts := if k.op = 6 then some (ds.map fun d => (d.1, k.fillBytes lo d.2)) else none, written := false }
  let st2 :=
    if k.op = 5 then
      let off := nth dst.rows row 0 + lo
      let far := (k.castCores core).filter (· != core)
      let at_ (j : Nat) : List (Place × Nat) := (.pad (.core j) off, n) ::
        scales.map fun x => (match x.1 with | .pad _ a => .pad (.core j) a | pl => pl, x.2)
      let st2 := if (k.castCores core).contains core then st1.landOwn false ready off (unit (at_ core)) else st1
      if far.isEmpty then st2
      else
        let st3 := st2.landFar core .quad ready (unit (far.flatMap at_))
        match st3.units.getLast? with
        | some x => { st3 with others := far.map (fun j => (j, groupOf off, x.writeAt)) ++ st3.others }
        | none => st3
    else
      let ds := dst.runs row lo n
      match ds.head? with
      | some (pl, _) => match st1.m.placeReach core pl, pl with
        | none, .pad _ off => st1.landOwn (k.op = 4) ready off (unit (ds ++ scales))
        | none, _ => st1
        | some rt, _ => st1.landFar core rt ready (unit (ds ++ scales))
      | none => st1
  { st2 with k := st2.k + 1 }

/-- The whole schedule of a timed copy issued now (R297). -/
def Mach.schedule (m : Mach) (core : Nat) (k : Copy) (src : Option Side) (dst : Side) : Sched :=
  let c := m.now
  (copyUnits src dst).foldl (Sched.step core c k src dst)
    { m := m, own := [], others := [], units := [], k := 0, ready := c, rd := c + 1, w := c + 1, dep := c + 1, noSlot := false }

/-- The reads of an open copy's core source of CLASS 0, at the cycles of R297 (R299). -/
def Mach.openReads (m : Mach) (core : Nat) (k : Copy) (src dst : Side) : Sched :=
  let c := m.now
  let us := copyUnits (some src) { dst with rows := if dst.space ≤ 2 then dst.rows else (List.range k.nrows).map fun i => (k.rowAddr true i).toNat }
  us.foldl (fun st u =>
    let lo := u.2.1 * src.bits / 8
    let n := (u.2.2 - u.2.1) * src.bits / 8
    let sp := (src.runs u.1 lo n).head?
    let (st1, ask, rdAt, ready) := st.source core c u.1 sp
    let x : CopyUnit := { row := u.1, e0 := u.2.1, e1 := u.2.2, src := sp, dst := [], askAt := ask, readAt := rdAt, haveAt := ready, depAt := ready,
                          writeAt := ready, newAt := none, puts := none, written := false }
    { st1 with k := st1.k + 1, units := st1.units ++ [x] })
    { m := m, own := [], others := [], units := [], k := 0, ready := c, rd := c + 1, w := c + 1, dep := c + 1, noSlot := false }

/-- F.GROUPCLASH of a schedule: a port cycle booked by an earlier access, at this core or at a member. -/
def Sched.clash (st : Sched) (core : Nat) : Bool :=
  (st.own.any fun p => (st.m.core core).portBusy p.1 p.2) || st.others.any fun o => (st.m.core o.1).portBusy o.2.1 o.2.2

/-- The port cycles of a schedule booked; those at other members are not frozen by a stop of this core. -/
def Sched.booked (st : Sched) (core : Nat) : Mach :=
  let m := st.m.modCore core fun c => c.bookPorts st.own
  st.others.foldl (fun m o => m.modCore o.1 fun c => c.bookPort o.2.1 o.2.2 false) m

/-! ### Issuing a copy command (R289 to R292) -/

/-- The lowest free entry of the copy table of 64 entries (R290), or 64. -/
def Core.freeEntry (c : Core) : Nat := ((List.range 64).find? fun i => !(c.xe.copies.any fun k => k.entry == i)).getD 64

/-- The copies in flight in the copy table (R291), with those that keep their entry for a chained command (R271). A copy that has completed and
has bytes still to land (R295, R297) has left its entry for a place of the model's own, from 64 on. -/
def Core.copiesOut (c : Core) : Nat := (c.xe.copies.filter fun k => k.entry < 64).length

/-- The lowest free of the model's own places. -/
def Core.sparePlace (c : Core) : Nat :=
  ((List.range (c.xe.copies.length + 1)).find? fun i => !(c.xe.copies.any fun k => k.entry == 64 + i)).getD 0 + 64

/-- The copy a command describes, before its schedule is known. -/
def Mach.copyOf (m : Mach) (op : Nat) (l : Lane) (ch : Option ChainCmd) : Copy :=
  let c := m.me
  let off := (c.sreg l.a.toNat).toNat
  let mem := c.pad.mem
  let desc : BitVec 512 := BitVec.ofNat 512 (mem.value off 64)
  let aux := (bits desc 320 64).toNat % 2 ^ 21
  let rows := (bits desc 192 16).toNat
  { entry := c.freeEntry, num := c.xe.next, op := op, fn := l.fn, refill := none, pn := l.dst.setWidth 4, inc := bits l.imm 8 8,
    evt := l.imm.getLsbD 1, acq := if l.imm.getLsbD 2 then some (bits l.imm 4 4) else none, rm := l.rm, chan := l.p, desc := desc,
    dsrc := c.sreg l.b.toNat, ddst := c.sreg l.c.toNat,
    idx := if op = 2 || op = 3 then (chunks 4 (mem.readBlock aux (4 * rows))).map leValue else [],
    timed := true, issued := m.now, units := [], sent := 0, rows := [], fault := none, doneAt := none, chain := ch, nfl := 0, writes := [],
    gid := c.glb.nextId, told := false }

/-- The source side of a copy, if it has one. -/
def Mach.srcSide (m : Mach) (core : Nat) (k : Copy) : Option Side := if k.op = 6 then none else some (m.side core k false)

/-- The faults of a copy command that its schedule does not show (R312), and whether it is timed. -/
def Mach.copyTraps (m : Mach) (k : Copy) (off : Nat) : List Trap × Bool :=
  let core := m.cur
  let dBank := m.padSleepTraps core (.core core) off 64
  let dClass := if (m.unitsIn core (.core core) off 64).any fun u => classOf (m.fmtReg (.core core) u) then [descTrap Code.bankfmt off] else []
  if off % 64 != 0 || 0x180000 < off + 64 then (dBank ++ dClass ++ [descTrap Code.sprange off], true)
  else
    let d := m.descTraps core k off
    let iBank := if k.op = 2 || k.op = 3 then m.padSleepTraps core (.core core) (k.aux % 2 ^ 21) (4 * k.nrows) else []
    let known (dst : Bool) : Bool := m.spaceOk core k dst
    let src := (m.srcSide core k).filter fun _ => known false
    let dst := m.side core k true
    let timed := (match src with | some s => m.sideTimed core k false s | none => true) && m.sideTimed core k true dst
    let four := (dst.bits == 4 || src.any fun s => s.bits == 4) && k.rlen % 2 == 1
    let coreDst := !timed && (dst.space == 6 || (dst.space == 0 && (k.sidePads core dst).any fun p => dst.units.any fun u => !classOf (m.fmtReg p u)))
    (dBank ++ dClass ++ iBank ++ d ++
     (match src with | some s => m.unitsTraps core k false s ++ (if d.isEmpty then m.rowsTraps core k false s off else []) | none => []) ++
     (if known true then m.unitsTraps core k true dst ++ (if d.isEmpty then m.rowsTraps core k true dst off else []) else []) ++
     (if four then [descTrap Code.sprange off] else []) ++
     (if coreDst then [let r := dst.rowWhere (.core core) (fun _ => true); sideTrap Code.bankfmt true r.1 r.2] else []) ++
     (if known true && dst.placed && src.all Side.placed && (k.op = 6 || known false) then
        pairTraps k (match src with | some s => s.fmt | none => dst.fmt) dst.fmt (if dst.ring.isSome then dst.num else nth dst.rows 0 0) timed else []) ++
     (if known true then m.scaleTraps core k dst else []), timed)

/-- A side with the rows that lie before its scratchpad's first byte beyond its last, where nothing is booked. -/
def Copy.inSpace (k : Copy) (dst : Bool) (s : Side) : Side :=
  if s.ring.isSome then s
  else { s with rows := ((List.range s.rows.length).zip s.rows).map fun r => if k.rowAddr dst r.1 < 0 then 2 ^ 48 else r.2 }

/-- The schedule of a copy command that has one: the units of a timed copy, or the reads of an open one. -/
def Mach.copySched (m : Mach) (k : Copy) (timed : Bool) : Option Sched :=
  let core := m.cur
  let src := (m.srcSide core k).map (k.inSpace false)
  let dst := k.inSpace true (m.side core k true)
  if timed then some (m.schedule core k (src.map (m.me.pinned k)) (m.me.pinned k dst))
  else match src with
    | some s => if s.space = 0 && m.sideTimed core k false s then some (m.openReads core k s dst) else none
    | none => none

/-- Whether faults leave no schedule to compute: F.SLEEP, which comes before its own, or a descriptor or sides that cannot be read. -/
def Mach.noSchedule (m : Mach) (k : Copy) (off : Nat) (ts : List Trap) : Bool :=
  (ts.any fun t => t.code == Code.sleep) || off % 64 != 0 || 0x180000 < off + 64 || !m.spaceOk m.cur k true ||
  !(k.op = 6 || m.spaceOk m.cur k false)

/-- All faults of a copy command: F.GROUPCLASH stands beside the others (R54, R312). -/
def Mach.copyFaults (m : Mach) (k : Copy) (off : Nat) : List Trap :=
  let r := m.copyTraps k off
  if m.noSchedule k off r.1 then r.1
  else match m.copySched k r.2 with
    | some st => r.1 ++ (if st.noSlot then [sideTrap Code.timedmiss st.missed.1 st.missed.2 (k.rowAddr st.missed.1 st.missed.2).toNat] else []) ++
        (if st.clash m.cur then [clashTrap] else [])
    | none => r.1

/-- A checked copy command enters the copy table (R290). -/
def Mach.startCopy (m : Mach) (k : Copy) (off : Nat) : Mach :=
  let timed := (m.copyTraps k off).2
  let enter (m : Mach) (us : List CopyUnit) : Mach := m.modMe fun c =>
    let done := if timed then some (unitsEnd us) else none
    { c with xe := { c.xe with next := c.xe.next + 1, copies := c.xe.copies ++ [{ k with timed := timed, units := us, doneAt := done }] },
             scal := { c.scal with rel := (c.scal.rel.1, none) }, glb := { c.glb with nextId := c.glb.nextId + 1 } }
  match m.copySched k timed with
  | some st => enter (st.booked m.cur) st.units
  | none => enter m []

/-- Whether a copy command with REL waits in this cycle for its boundary (R291). -/
def Mach.relWaits (m : Mach) (l : Lane) : Bool :=
  l.imm.getLsbD 3 && (match m.me.scal.rel.2 with | some t => m.now ≤ t | none => true)

/-- What a copy command uses, its holds and faults. -/
def useCopyLane (op : Nat) (l : Lane) (ch : Option ChainCmd) (m : Mach) : XUse :=
  let k := m.copyOf op l ch
  { regs := [l.a.toNat, l.b.toNat, l.c.toNat], held := 64 ≤ m.me.copiesOut, late := m.relWaits l,
    traps := if m.relWaits l then [] else m.copyFaults k (m.me.sreg l.a.toNat).toNat }

/-- A copy command: with REL it is held until the boundary of its scope has taken effect and issues in the cycle after (R291). -/
def copyLane (op : Nat) (l : Lane) (ch : Option ChainCmd) (s : State) : Host.Outcome State Fault Refusal :=
  runX
    (useCopyLane op l ch)
    (fun m =>
      let c := m.me
      if m.relWaits l then
        if c.scal.rel.2.isNone && c.quiet (bits l.imm 4 4) m.now then
          .hold ((m.boundary m.cur (bits l.imm 4 4)).modMe fun c => { c with scal := { c.scal with rel := (c.scal.rel.1, some m.now) } })
        else .hold m
      else .done (m.startCopy (m.copyOf op l ch) (c.sreg l.a.toNat).toNat) 0) s

/-- XCOPY (R293). -/
def execXcopy (l : Lane) (ch : Option ChainCmd) (s : State) : Host.Outcome State Fault Refusal := copyLane 1 l ch s
/-- XGATH (R294). -/
def execXgath (l : Lane) (ch : Option ChainCmd) (s : State) : Host.Outcome State Fault Refusal := copyLane 2 l ch s
/-- XSCAT (R294). -/
def execXscat (l : Lane) (ch : Option ChainCmd) (s : State) : Host.Outcome State Fault Refusal := copyLane 3 l ch s
/-- XRED (R295). -/
def execXred (l : Lane) (ch : Option ChainCmd) (s : State) : Host.Outcome State Fault Refusal := copyLane 4 l ch s
/-- XMCAST (R295). -/
def execXmcast (l : Lane) (ch : Option ChainCmd) (s : State) : Host.Outcome State Fault Refusal := copyLane 5 l ch s
/-- XFILL (R295). -/
def execXfill (l : Lane) (ch : Option ChainCmd) (s : State) : Host.Outcome State Fault Refusal := copyLane 6 l ch s

/-! ### Units read and landed (R297) -/

/-- A copy of a core by its entry. -/
def Core.copy (c : Core) (entry : Nat) : Option Copy := c.xe.copies.find? fun k => k.entry == entry

/-- Whether every unit that a copy is to land has landed; the units of an open copy only read. -/
def Copy.unitsDone (k : Copy) : Bool := (!k.timed && k.refill.isNone) || k.units.all CopyUnit.written

/-- Whether the last unit of a timed copy has landed, with which it completes (R297). -/
def Copy.lastLanded (k : Copy) : Bool := (lastUnits k.units).all CopyUnit.written

/-- A copy changed. -/
def Core.modCopy (c : Core) (entry : Nat) (f : Copy → Copy) : Core :=
  { c with xe := { c.xe with copies := c.xe.copies.map fun k => if k.entry = entry then f k else k } }

/-- Bytes at a place as a core's copy reads them (R139, R141). -/
def Mach.placeBytes (m : Mach) (core : Nat) (pl : Place) (n : Nat) : List Byte :=
  match pl with
  | .pad p off => m.padRead p off n
  | .dev a => (m.core core).globRead none a n
  | .host a => m.host.readBlock a n
  | .peer num a => (((m.peers.find? fun p => p.1 == num).map Prod.snd).getD []).readBlock a n

/-- Bytes cut into the runs of a list of places. -/
def cutRuns : List (Place × Nat) → List Byte → List (Place × List Byte)
  | [], _ => []
  | (p, n) :: r, bs => (p, bs.take n) :: cutRuns r (bs.drop n)

/-- The source of a unit read: what it will write, with the flags. XMCAST's bytes go to every member. -/
def Mach.readUnit (m : Mach) (core : Nat) (k : Copy) (sf df : Fmt) (u : CopyUnit) : CopyUnit × Flags :=
  match u.src with
  | none => (u, 0)
  | some (pl, n) =>
    let bs := m.placeBytes core pl n
    if u.dst.isEmpty then ({ u with puts := some [(pl, bs)] }, 0)
    else
      let r := k.unitData sf df u.e0 u.e1 bs
      let one := r.1 ++ r.2.2.1
      let all := if k.op = 5 then (List.replicate u.dst.length one).flatten else one
      ({ u with puts := some (cutRuns u.dst all) }, r.2.2.2)

/-- Whether a copy is a timed XRED into the core's own scratchpad, which writes each new value after it has completed (R295, R297). -/
def Copy.redOwn (k : Copy) : Bool := k.op == 4 && k.timed && !k.units.isEmpty && k.units.all fun u => u.newAt.isSome

/-- The global bytes that a completed copy has landed become a write of the core, in the order of issue among the others, acknowledged once its last
unit has landed (R137, R139). -/
def Core.copyWrote (c : Core) (entry : Nat) : Core :=
  match c.copy entry with
  | none => c
  | some k =>
    let c := c.modCopy entry fun k => { k with writes := [] }
    let old := c.glb.writes.find? fun w => w.id == k.gid
    if k.writes.isEmpty && old.isNone then c
    else
      let w := old.getD { id := k.gid, bytes := [], stg := false, acked := false, dead := false, pub := none, pubNo := 0, fresh := true,
                          issued := k.issued, gpas := [] }
      let w : GWrite := { w with bytes := w.bytes ++ k.writes, acked := k.unitsDone }
      { c with glb := { c.glb with writes := c.glb.writes.filter (fun x => x.id < w.id) ++ w :: c.glb.writes.filter fun x => w.id < x.id } }

/-- A copy ends in this cycle (R90, R137, R139, R291): its flags are set, its global bytes are an acknowledged write, in the order of
issue among the others, and an acquire refreshes the core's view. -/
def Mach.finishCopy (m : Mach) (core entry : Nat) : Mach :=
  match (m.core core).copy entry with
  | none => m
  | some k =>
    let m := m.modCore core fun c => ((c.flag m.now k.nfl).modCopy entry fun k => { k with doneAt := some m.now }).copyWrote entry
    match k.acq with
    | some _ => if k.fault.isNone then m.refresh core else m
    | none => m

/-- The reads of a core's copies that fall in this cycle, made at its end: sources, and the old values of XRED in core scratchpad. -/
def Mach.copyReads (m : Mach) (core : Nat) : Mach :=
  let c := m.core core
  let late (t : Nat) : Bool := match c.stop with | some p => p.cyc ≤ t | none => false
  let due (u : CopyUnit) : Bool := u.puts.isNone && u.readAt == m.now && !late u.askAt
  let old (k : Copy) (u : CopyUnit) : Bool := k.op == 4 && u.newAt.isSome && u.writeAt == m.now && !late u.writeAt && u.puts.isSome
  let busy (k : Copy) : Bool := k.units.any fun u => due u || old k u
  let go (k : Copy) : Copy :=
    let sf := match m.srcSide core k with | some s => s.fmt | none => 0
    let df := m.sideFmt core k true
    let us := k.units.map fun u =>
      if due u then m.readUnit core k sf df u
      else if old k u then
        let rs := (u.puts.getD []).map fun p => (p.1, k.redBytes df (m.placeBytes core p.1 p.2.length) p.2)
        ({ u with puts := some (rs.map fun r => (r.1, r.2.1)) }, rs.foldl (fun a r => a ||| r.2.2) 0)
      else (u, 0)
    { k with units := us.map Prod.fst, nfl := us.foldl (fun a x => a ||| x.2) k.nfl }
  if c.xe.copies.any busy then
    let m := m.modCore core fun c => { c with xe := { c.xe with copies := c.xe.copies.map fun k => if busy k then go k else k } }
    (c.xe.copies.filter fun k => k.redOwn && k.doneAt == some m.now && !late m.now).foldl (fun m k => m.finishCopy core k.entry) m
  else m

/-- Bytes landed at a place by a copy (R125, R137): global bytes are kept until the copy completes. -/
def Mach.putBytes (m : Mach) (core entry : Nat) (pl : Place) (bs : List Byte) : Mach :=
  match pl with
  | .pad p off => m.padWrite p (atAddr off bs)
  | .dev a => m.modCore core fun c => c.modCopy entry fun k => { k with writes := k.writes ++ atAddr a bs }
  | .host a => { m with host := m.host.writeBlock a bs }
  | .peer num a =>
    let old := ((m.peers.find? fun p => p.1 == num).map Prod.snd).getD []
    { m with peers := (num, old.writeBlock a bs) :: m.peers.filter fun p => p.1 != num }

/-- XRED at a destination outside the core: each element combined where it lies (R143, R145). -/
def Mach.redPut (m : Mach) (core entry : Nat) (k : Copy) (fmt : Fmt) (pl : Place) (bs : List Byte) : Mach :=
  let at' (old : List Byte) : List Byte × Flags := k.redBytes fmt old bs
  let flag (f : Flags) (m : Mach) : Mach := m.modCore core fun c => c.modCopy entry fun k => { k with nfl := k.nfl ||| f }
  match pl with
  | .dev a => let r := at' (m.dev.readBlock a bs.length); flag r.2 (m.devAtomic (atAddr a r.1))
  | pl => let r := at' (m.placeBytes core pl bs.length); flag r.2 (m.putBytes core entry pl r.1)

/-- Whether a copy's units act on what lies at their destination when they land there (R143, R295). -/
def Copy.atomicAt (k : Copy) (u : CopyUnit) : Bool := k.op == 4 && u.newAt.isNone

/-- The units of a core's copies that land in this cycle, the first of each copy: issue cycle, entry and place in the copy's list; those of
atomics, or the others. A stop freezes what has not departed (R313). -/
def Core.landingUnits (c : Core) (now : Nat) (atomic : Bool) : List (Nat × Nat × Nat) :=
  let late (t : Nat) : Bool := match c.stop with | some p => p.cyc ≤ t | none => false
  (c.xe.copies.filter fun k => k.timed || k.refill.isSome).filterMap fun k =>
    ((List.range k.units.length).find? fun i => match k.units[i]? with
      | some u => !u.written && u.newAt.getD u.writeAt ≤ now && !late u.depAt && k.atomicAt u == atomic
      | none => false).map fun i => (k.issued, k.entry, i)

/-- A unit lands (R297): its bytes are written, a ring tile it completes is counted in the next cycle (R265), and the copy ends with
its last unit, even where an earlier one is still to land. -/
def Mach.landUnit (m : Mach) (core entry i : Nat) : Mach :=
  match (m.core core).copy entry with
  | none => m
  | some k =>
    match k.units[i]? with
    | none => m
    | some u =>
      let fmt := m.sideFmt core k true
      let red := k.atomicAt u
      let m := (u.puts.getD []).foldl (fun m p => if red then m.redPut core entry k fmt p.1 p.2 else m.putBytes core entry p.1 p.2) m
      let before := k.tilesOpen.length
      let m := m.modCore core fun c =>
        let c := c.modCopy entry fun k => { k with units := k.units.modify i fun u => { u with written := true } }
        let after := ((c.copy entry).map fun k => k.tilesOpen.length).getD before
        if after < before then
          let ring := match k.refill with | some r => r | none => k.addr true % 8
          c.fly { m.result .x 1 (.ringCount (BitVec.ofNat 3 ring) (before - after)) 0 with st := 3 }
        else c
      match (m.core core).copy entry with
      | none => m
      | some k' =>
        if k.redOwn || !k'.lastLanded then m
        else if k.lastLanded then m.modCore core fun c => c.copyWrote entry
        else m.finishCopy core entry

/-! ### Open copies (R299, R300) -/

/-- Whether a row of an open copy can be sent in the cycle after this one: fewer than eight rows outstanding, and its units read. -/
def Copy.canSend (k : Copy) : Bool :=
  !k.timed && k.refill.isNone && k.doneAt.isNone && k.fault.isNone && k.sent < k.nrows && k.rows.length < 8 &&
  k.units.all fun u => u.row != k.sent || u.puts.isSome

/-- The bytes of a row of a scratchpad source as they stand, or as its units were read. -/
def Mach.sendBytes (m : Mach) (core : Nat) (k : Copy) (row : Nat) : List Byte :=
  if k.op = 6 then []
  else if k.units.isEmpty then
    let s := m.side core k false
    if s.pad.isSome then (s.runs row 0 s.len).flatMap fun r => m.placeBytes core r.1 r.2 else []
  else (k.units.filter fun u => u.row == row).flatMap fun u => (u.puts.getD []).flatMap Prod.snd

/-- The flits of a row of an open copy to or from a peer (R429): data flits of 224 bytes each for what it writes there, a request for what it reads. -/
def Mach.rowFlits (m : Mach) (core : Nat) (k : Copy) (row : Nat) : Mach :=
  let entry (dst : Bool) : Option PeerEntry :=
    if k.space dst == 5 then (m.core core).bound.bind fun b => b.peers.find? fun p => p.num == k.qual dst else none
  match entry true, entry false with
  | some p, _ => m.sendFlits p 2 ((List.range (((m.side core k true).len + 223) / 224)).map (.row core k.entry row))
  | none, some p => m.sendFlits p 1 [.row core k.entry row 0]
  | none, none => m

/-- The flits of the rows that a core's open copies have sent in this cycle. -/
def Mach.sendRows (m : Mach) (core : Nat) : Mach :=
  (m.core core).xe.copies.foldl (fun m k => (k.rows.filter fun r => r.sentAt == m.now).foldl (fun m r => m.rowFlits core k r.row) m) m

/-- The rows of a core's open copies at the end of a cycle: those sent in it take their bytes, and one row of each copy is sent in the
next cycle. A stop takes back a row of its own cycle (R313). -/
def Mach.copySends (m : Mach) (core : Nat) : Mach :=
  let c := m.core core
  let go (k : Copy) : Copy :=
    if k.timed || k.refill.isSome then k
    else
      match c.stop with
      | some p =>
        let back := k.rows.filter fun r => p.cyc ≤ r.sentAt
        { k with rows := k.rows.filter fun r => r.sentAt < p.cyc, sent := k.sent - back.length }
      | none =>
        let fill (r : CopyRow) : CopyRow := if r.sentAt = m.now then { r with data := m.sendBytes core k r.row } else r
        let k := { k with rows := k.rows.map fill }
        if k.canSend then { k with rows := k.rows ++ [{ row := k.sent, sentAt := m.now + 1, data := [], here := false }], sent := k.sent + 1 } else k
  if c.xe.copies.all Copy.timed then m
  else (m.modCore core fun c => { c with xe := { c.xe with copies := c.xe.copies.map go } }).sendRows core

/-- Rows of an open copy that have landed, or whose bytes wait at an open port. -/
def Copy.landed (k : Copy) (row : Nat) : Bool := row < k.sent && !(k.rows.any fun r => r.row == row && !r.here)

/-- DETAIL of F.PERM for a lost link (R430). -/
def lostLink : W32 := 0x40000000

/-- Whether a peer entry has a live link (R430). -/
def Mach.peerLive (m : Mach) (p : PeerEntry) : Bool :=
  !(m.liveLinks p).isEmpty

/-- A row of a global side translated (R307, R310). -/
def Mach.rowPlace (m : Mach) (core : Nat) (k : Copy) (dst : Bool) (row a : Nat) : Mach × Except WalkEnd Place :=
  match k.space dst with
  | 3 => let r := m.walkCore core a (k.access dst)
         (r.1, match r.2 with
          | .ok pa => if k.op = 4 && dst && (r.1.core core).bound.any fun b => b.atomPerm (k.fn == 3) pa
              then .error (.fault Code.perm 0) else .ok (.dev pa)
          | .error e => .error e)
  | 4 => (m, .ok (.host a))
  | 5 => (m, match (m.core core).bound.bind fun b => b.peers.find? fun p => p.num == k.qual dst with
      | some p => if m.peerLive p then .ok (.peer (k.qual dst) a) else .error (.fault Code.perm lostLink)
      | none => .error (.fault Code.perm 0))
  | _ => (m, match ((m.side core k dst).runs row 0 1).head? with | some r => .ok r.1 | none => .ok (.dev a))

/-- The copy's state after one of its rows is outstanding no more: it ends when none is left to send or to come (R299, R300). -/
def Mach.rowEnd (m : Mach) (core entry row : Nat) : Mach :=
  let m := m.modCore core fun c => c.modCopy entry fun k => { k with rows := k.rows.filter fun r => r.row != row }
  match (m.core core).copy entry with
  | none => m
  | some k =>
    match k.fault with
    | some (f, _) => if k.rows.all fun r => f < r.row
        then (m.modCore core fun c => c.modCopy entry fun k => { k with rows := [] }).finishCopy core entry else m
    | none => if k.sent = k.nrows && k.rows.isEmpty then m.finishCopy core entry else m

/-- A row of an open copy meets a fault (R300): the lowest faulting row is kept. -/
def Mach.rowFault (m : Mach) (core entry row : Nat) (code : Byte) (detail : W32) (addr : W64) : Mach :=
  (m.modCore core fun c => c.modCopy entry fun k => { k with fault := match k.fault with
    | some (r, x) => if r ≤ row then some (r, x) else some (row, code, detail, addr)
    | none => some (row, code, detail, addr) }).rowEnd core entry row

/-- Whether the row is outstanding and was sent before this cycle. -/
def Mach.rowOut (m : Mach) (core entry row : Nat) : Option (Copy × CopyRow) :=
  match (m.core core).copy entry with
  | none => none
  | some k => (k.rows.find? fun r => r.row == row && r.sentAt < m.now && !r.here).map fun r => (k, r)

/-- The runs of bytes of a row that no higher row of the copy has written (R294): offset within the row and bytes; `at_` is the offset of the
first of them. -/
def Mach.rowRuns (k : Copy) (row at_ : Nat) (bs : List Byte) : List (Nat × List Byte) :=
  let n := (bs.length : Nat)
  let a0 := (k.rowAddr true row).toNat + at_
  let later := ((List.range k.sent).filter fun i => row < i && k.landed i).map fun i => (k.rowAddr true i).toNat
  let span := a0 + n
  let covered (x : Nat) : Bool := later.any fun a => a ≤ x && x < a + (span - (k.rowAddr true row).toNat)
  if later.isEmpty then [(at_, bs)]
  else byteRuns (((List.range n).filter fun i => !covered (a0 + i)).map fun i => (at_ + i, nth bs i 0))

/-- A place further on. -/
def Place.plus (pl : Place) (n : Nat) : Place :=
  match pl with
  | .pad p o => .pad p (o + n)
  | .dev a => .dev (a + n)
  | .host a => .host (a + n)
  | .peer x a => .peer x (a + n)

/-- Bytes of a row landed at its place, but for those that a higher row of the copy has written (R294). -/
def Mach.landRow (m : Mach) (core entry : Nat) (k : Copy) (row : Nat) (pl : Place) (bs : List Byte) : Mach :=
  (Mach.rowRuns k row 0 bs).foldl (fun m r => m.putBytes core entry (pl.plus r.1) r.2) m

/-- The bytes of a row, from byte `off` on, told to the channel of the copy (R129, R130). -/
def Mach.tellChan (m : Mach) (core : Nat) (k : Copy) (row off n : Nat) : Mach :=
  m.modCore core fun c =>
    match c.chan k.chan.toNat with
    | none => c
    | some h =>
      let side := !h.outbound
      if k.space side != 0 then c
      else
        let a := (k.rowAddr side row).toNat + off
        c.chanBytes k.chan.toNat (a - h.base) (a + n - h.base)

/-- Bytes for a scratchpad cut at its bank rows, one for each cycle of an open port (R102). -/
def openPieces (k : Copy) (row : Nat) (p : Pad) (off : Nat) (elems : Bool) (bs : List Byte) : List OpenWrite :=
  (List.range ((off + bs.length + 255) / 256 - off / 256)).map fun i =>
    let lo := max off ((off / 256 + i) * 256)
    let hi := min (off + bs.length) ((off / 256 + i + 1) * 256)
    { entry := k.entry, num := k.num, row := row, pad := p, off := lo, bytes := (bs.drop (lo - off)).take (hi - lo), elems := elems }

/-- A row's bytes reach their destination: converted, landed or combined, its scales written where `scales` says, and its channel told; those for a
scratchpad wait for an open port (R102). -/
def Mach.arriveRow (m : Mach) (core entry : Nat) (k : Copy) (row : Nat) (bs : List Byte) (pl : Place) (scales : List (Place × Nat)) : Mach :=
  let dst := m.side core k true
  let sf := match m.srcSide core k with | some s => s.fmt | none => dst.fmt
  let r := if k.op = 6 then (k.fillBytes 0 dst.len, 0, [], 0) else k.unitData sf dst.fmt 0 k.rlen bs
  let m := m.modCore core fun c => c.modCopy entry fun k => { k with nfl := k.nfl ||| r.2.2.2 }
  match pl with
  | .pad p off =>
    let more := (cutRuns scales r.2.2.1).flatMap fun x => match x.1 with | .pad p' a => openPieces k row p' a false x.2 | _ => []
    m.modCore core fun c =>
      ({ c with pad := { c.pad with opens := c.pad.opens ++ openPieces k row p off true r.1 ++ more } } : Core).modCopy entry fun k =>
        { k with rows := k.rows.map fun x => if x.row = row then { x with here := true } else x }
  | _ =>
    let m := if k.op = 4 then m.redPut core entry k dst.fmt pl r.1 else m.landRow core entry k row pl r.1
    let m := (cutRuns scales r.2.2.1).foldl (fun m x => m.putBytes core entry x.1 x.2) m
    (m.tellChan core k row 0 (m.side core k false).len).rowEnd core entry row

/-- One write of an open port (R102): a row is over with its last, with which an outbound channel counts the row as acknowledged (R129, R302). -/
def Mach.openWrite (m : Mach) (core : Nat) (w : OpenWrite) : Mach :=
  let m := m.modCore core fun c => { c with pad := { c.pad with opens := c.pad.opens.erase w } }
  match ((m.core core).copy w.entry).filter fun k => k.num == w.num with
  | none => m.padWrite w.pad (atAddr w.off w.bytes)
  | some k =>
    let at_ := w.off - (k.rowAddr true w.row).toNat
    let m :=
      if !w.elems then m.padWrite w.pad (atAddr w.off w.bytes)
      else if k.op = 4 then m.redPut core w.entry k (m.sideFmt core k true) (.pad w.pad w.off) w.bytes
      else (Mach.rowRuns k w.row at_ w.bytes).foldl (fun m r => m.padWrite w.pad (atAddr (w.off + r.1 - at_) r.2)) m
    let out := ((m.core core).chan k.chan.toNat).any Chan.outbound
    let m := if w.elems && !out && (w.pad == .core core) then m.tellChan core k w.row at_ w.bytes.length else m
    if (m.core core).pad.opens.any fun x => x.entry == w.entry && x.num == w.num && x.row == w.row then m
    else (if out then m.tellChan core k w.row 0 (m.side core k false).len else m).rowEnd core w.entry w.row

/-- The open ports of a core in this cycle (R102): one bank row for each of its groups; what goes to a quad or die is not held back. -/
def Mach.openPorts (m : Mach) (core : Nat) : Mach :=
  let ws := (m.core core).pad.opens
  let own (w : OpenWrite) : Bool := w.pad == .core core
  let first (g : Nat) : Option OpenWrite := ws.find? fun w => own w && groupOf w.off == g
  ((List.range 3).filterMap first ++ ws.filter fun w => !own w).foldl (fun m w => m.openWrite core w) m

/-- Where the scales of a row of an open copy go (R287): each piece within one 64 KiB page translated for itself; or the address that fails. -/
def Mach.scaleRuns (m : Mach) (core : Nat) (k : Copy) (row : Nat) : Mach × Except (Nat × WalkEnd) (List (Place × Nat)) :=
  if !k.quant then (m, .ok [])
  else if k.inPad true then (m, .ok [(k.scalePlace (m.side core k true) row 0, k.rowScales)])
  else
    let a0 := k.scaleAddr + row * k.rowScales
    ((List.range ((a0 + k.rowScales + 0xFFFF) / 0x10000 - a0 / 0x10000)).map fun i =>
      (max a0 ((a0 / 0x10000 + i) * 0x10000), min (a0 + k.rowScales) ((a0 / 0x10000 + i + 1) * 0x10000))).foldl
      (fun acc p => match acc.2 with
        | .error e => (acc.1, .error e)
        | .ok l => match acc.1.rowPlace core k true row p.1 with
          | (m', .ok pl) => (m', .ok (l ++ [(pl, p.2 - p.1)]))
          | (m', .error e) => (m', .error (p.1, e))) (m, .ok [])

/-- The bytes of an open refill reach the core (R266): 256 bytes a unit, each landing in the first free cycle of its group's port. -/
def Mach.refillLand (m : Mach) (core entry : Nat) (k : Copy) (bs : List Byte) : Mach :=
  let off := k.addr true
  let g := groupOf off
  let c := m.core core
  let cycles := (List.range ((bs.length + 255) / 256)).foldl (fun (acc : List Nat) _ =>
    acc ++ [firstFrom (fun x => !(c.portBusy g x)) 1 (c.pad.ports.length + 1) (acc.foldl (fun a x => max a (x + 1)) (m.now + 1))]) []
  let us := ((List.range cycles.length).zip cycles).map fun p =>
    let part := (bs.drop (256 * p.1)).take 256
    ({ row := 0, e0 := 256 * p.1, e1 := 256 * p.1 + part.length, src := none, dst := [(.pad (.core core) (off + 256 * p.1), part.length)],
       askAt := m.now, readAt := m.now, haveAt := m.now, depAt := p.2, writeAt := p.2, newAt := none,
       puts := some [(.pad (.core core) (off + 256 * p.1), part)], written := false } : CopyUnit)
  m.modCore core fun c => (c.bookPorts (cycles.map fun x => (g, x))).modCopy entry fun k => { k with rows := [], units := us }

/-- OPEN_ROW_ARRIVAL (R299): a row that is outstanding arrives or is acknowledged; a translation fault ends the copy (R300). A row of a killed task that
meets a page to be pulled ends there, since no further pull is sent (R421). -/
def execOpenRowArrival (core entry row : Nat) (s : State) : Host.Outcome State Fault Refusal :=
  let m := s.m
  match m.rowOut core entry row with
  | none => .next s
  | some (k, cr) =>
    let killed := m.hub.tasks.any fun t => t.killed.isSome && (m.core core).bound.any fun b => b.task == t.seq
    let fail (m' : Mach) (a : Nat) (e : WalkEnd) : State := match e with
      | .fault code d => { s with m := m'.rowFault core entry row code d (BitVec.ofNat 64 a) }
      | _ => { s with m := if killed then m.rowEnd core entry row else m' }
    let sa := (k.rowAddr false row).toNat
    let da := (k.rowAddr true row).toNat
    let src := if k.op = 6 || k.inPad false then (m, Except.ok (Place.dev 0)) else m.rowPlace core k false row sa
    match src.2 with
    | .error e => .next (fail src.1 sa e)
    | .ok sp =>
      let bs := if k.op = 6 || k.inPad false then cr.data else src.1.placeBytes core sp (src.1.side core k false).len
      if k.refill.isSome then .next { s with m := src.1.refillLand core entry k bs }
      else
      let d := src.1.rowPlace core k true row da
      match d.2 with
      | .error e => .next (fail d.1 da e)
      | .ok dp =>
        match d.1.scaleRuns core k row with
        | (m', .error (a, e)) => .next (fail m' a e)
        | (m', .ok scp) => .next { s with m := m'.arriveRow core entry k row bs dp scp }

/-- COPY_ROW_FAULT (R300): an outstanding row meets a fault found outside the core. -/
def execCopyRowFault (core entry row : Nat) (code : Byte) (detail : W32) (addr : W64) (s : State) : Host.Outcome State Fault Refusal :=
  match s.m.rowOut core entry row with
  | none => .next s
  | some _ => .next { s with m := s.m.rowFault core entry row code detail addr }

/-! ### Completion (R304, R305, R271) -/

/-- COPY_COMPLETE (R304, R305): in the cycle after a copy's end its pennant rises and its record is produced; its chained command
enters the chain slot once the copy's last byte has landed, or waits for it. A completed copy with bytes still to land leaves its entry. -/
def execCopyComplete (core entry : Nat) (s : State) : Host.Outcome State Fault Refusal :=
  let m := s.m
  match (m.core core).copy entry with
  | none => .next s
  | some k =>
    match k.doneAt with
    | none => .next s
    | some t =>
      if m.now ≤ t then .next s
      else
        let c := m.core core
        let c :=
          if k.told then c
          else
            let c := if k.fault.isNone && k.refill.isNone then c.pennant k.pn.toNat k.inc.toNat else c
            let c := if (k.evt && k.refill.isNone) || k.fault.isSome then c.raise m.now k.record else c
            match k.refill, k.fault with
            | some r, some (_, code, _, _) =>
              { c with mx := { c.mx with rings := c.mx.rings.modify r fun g => { g with dead := some code } } }
            | _, _ => c
        let chain := if k.fault.isSome then none else k.chain
        let waits := chain.isSome && (c.mx.chain.isSome || !k.unitsDone)
        let c := match chain with
          | some ch => if waits then c else { c with mx := { c.mx with chain := some ch } }
          | none => c
        let c : Core :=
          if k.unitsDone && !waits then { c with xe := { c.xe with copies := c.xe.copies.filter fun x => x.entry != entry } }
          else c.modCopy entry fun k => { k with told := true, chain := if waits then chain else none, entry := if waits then entry else c.sparePlace }
        .next { s with m := m.setCore core c }

/-! ### Channel instructions (R301 to R303) -/

/-- What XOPEN uses, its holds and faults. -/
def useXopen (l : Lane) (m : Mach) : XUse :=
  let out := l.fn == 1
  let c := m.me
  let base := (c.sreg l.a.toNat).toNat
  let len := (c.sreg l.b.toNat).toNat
  let ranged := base % 256 == 0 && len % 256 == 0 && 256 ≤ len && base + len ≤ 0x180000
  let units := if base < 0x180000 && 0 < len then (Pad.core m.cur).units base (min len (0x180000 - base)) else []
  let regs := units.map fun u => nth c.pad.fmt u 0
  let others := c.buffersAt base len
  let takes := match others with
    | [h] => out && h.base == base && h.len == len && h.st == 2
    | _ => false
  { regs := [l.a.toNat, l.b.toNat], held := false,
    traps := m.sleepTraps (units.map (DomRef.core m.cur)) ++
      trapUnless ((c.chan l.p.toNat).isNone && (others.isEmpty || takes)) Code.bufstate 0 base ++
      trapUnless (regs.all fun r => classOf r && fmtOf r == fmtOf (nth regs 0 0)) Code.bankfmt 0 base ++
      trapUnless ranged Code.sprange 0 base }

/-- XOPEN (R301): FN 000 inbound, 001 outbound. -/
def execXopen (l : Lane) (s : State) : Host.Outcome State Fault Refusal :=
  let out := l.fn == 1
  runX
    (useXopen l)
    (fun m =>
      let base := (m.me.sreg l.a.toNat).toNat
      let len := (m.me.sreg l.b.toNat).toNat
      .done (m.modMe fun c =>
        let keep (h : Option Chan) : Option Chan := h.filter fun x => !(x.base == base && x.len == len)
        let c : Core := { c with xe := { c.xe with chans := c.xe.chans.map keep } }
        (c.setChan l.p.toNat (some { outbound := out, base := base, len := len, st := if out then 3 else 1, got := [], mark := if out then len else 0, closing := none,
                                     arm := none })).setBst base len (if out then 3 else 1)) 0) s

/-- What XCLOSE uses, its holds and faults. -/
def useXclose (l : Lane) (m : Mach) : XUse :=
  { regs := [], held := false, traps := trapUnless (m.me.chan l.p.toNat).isSome Code.bufstate 0 0 }

/-- XCLOSE (R302, R129). -/
def execXclose (l : Lane) (s : State) : Host.Outcome State Fault Refusal :=
  runX (useXclose l)
    (fun m =>
      .done (m.modMe fun c =>
        match c.chan l.p.toNat with
        | none => c
        | some h =>
          if h.st = 2 then c.freeChan l.p.toNat h
          else (c.setChan l.p.toNat (some { h with closing := some (c.chanRows l.p.toNat), arm := none })).settleChan l.p.toNat) 0) s

/-- What XWMSET uses, its holds and faults: none for a threshold that is no multiple of 256, which is the model's choice (log entry 75). -/
def useXwmset (l : Lane) (m : Mach) : XUse :=
  let c := m.me
  { regs := [l.a.toNat], held := false,
    traps := trapUnless (match c.chan l.p.toNat with
      | some h => !h.outbound && h.st == 1
      | none => false) Code.bufstate 0 0 }

/-- XWMSET (R303). -/
def execXwmset (l : Lane) (s : State) : Host.Outcome State Fault Refusal :=
  runX
    (useXwmset l)
    (fun m =>
      .done (m.modMe fun c =>
        match c.chan l.p.toNat with
        | none => c
        | some h => c.setChan l.p.toNat (some { h with arm := some ((c.sreg l.a.toNat).toNat % 2 ^ 21, l.dst.toNat,
            (bits l.imm 8 8).toNat, m.now + 2) })) 0) s

/-- WATERMARK_FIRE (R303): in the cycle after MARK is found at or above the threshold. -/
def execWatermarkFire (core chan : Nat) (s : State) : Host.Outcome State Fault Refusal :=
  let fire (c : Core) : Core :=
    match c.chan chan with
    | some h => match h.arm with
      | some (t, pn, inc, since) =>
        if t ≤ h.mark && since ≤ s.m.now then (c.setChan chan (some { h with arm := none })).pennant pn inc else c
      | none => c
    | none => c
  .next { s with m := s.m.modCore core fire }

/-- What XBUF.rel uses, its holds and faults. -/
def useXbufRel (l : Lane) (m : Mach) : XUse :=
  { regs := [], held := false,
                traps := trapUnless (match m.me.chan l.p.toNat with | some h => h.st == 2 | none => false) Code.bufstate 0 0 }

/-- XBUF.rel (R302). -/
def execXbufRel (l : Lane) (s : State) : Host.Outcome State Fault Refusal :=
  runX
    (useXbufRel l)
    (fun m => .done (m.modMe fun c => match c.chan l.p.toNat with
      | some h => c.freeChan l.p.toNat h
      | none => c) 0) s

/-- The status word of a channel (R302). -/
def Core.chanWord (c : Core) (n : Nat) : W64 :=
  match c.chan n with
  | none => 0
  | some h => BitVec.ofNat 64 ((if h.outbound then 2 ^ 35 else 0) + 2 ^ 34 + h.st * 2 ^ 32 + h.mark)

/-- XBUF.q (R302). -/
def execXbufQ (l : Lane) (s : State) : Host.Outcome State Fault Refusal :=
  runX (fun m => { regs := [], held := m.me.qFree m.now 5 == 0, traps := [] })
    (fun m => .done (m.write .x 1 (.q 5 (m.me.chanWord l.p.toNat)) 0) 0) s

/-! ### Fences and semaphores (R306) -/

/-- XSEMW. -/
def execXsemw (l : Lane) (s : State) : Host.Outcome State Fault Refusal :=
  runX (fun m => { regs := if l.kb = 1 then [l.b.toNat] else [], held := (m.me.semTake l.dst.toNat (m.me.xCount l)).isNone, traps := [] })
    (fun m => .done (m.modMe fun c => (c.semTake l.dst.toNat (c.xCount l)).getD c) 0) s

/-- XSEMS. -/
def execXsems (l : Lane) (s : State) : Host.Outcome State Fault Refusal :=
  runX (fun _ => { regs := if l.kb = 1 then [l.b.toNat] else [], held := false, traps := [] })
    (fun m => .done (m.modMe fun c => c.semSignal l.dst.toNat (c.xCount l)) 0) s

/-- XFENCE. -/
def execXfence (l : Lane) (s : State) : Host.Outcome State Fault Refusal :=
  runX (fun m => { regs := [], held := !m.fenceReady m.cur false (l.a.toNat % 16) l.fn.toNat m.now, traps := [] })
    (fun m => .done m 0) s

end Sys2Proof.Machine
end

