-- ==== Sys2Proof/Machine/Hyper.lean ====
section
/-! DEFINITION. The H stream (R314 to R332): hypervectors, bundles, thresholds, the geode and its searches. -/
namespace Sys2Proof.Machine

/-! ### The common part of an H lane (R317) -/

/-- What an H lane uses: s registers and locations read, locations written, holds and faults. -/
structure HUse where
  regs  : List Nat
  locs  : List Loc
  own   : List Loc
  held  : Bool
  traps : List Trap
  deriving DecidableEq, Repr

/-- Nothing used. -/
def HUse.none : HUse := { regs := [], locs := [], own := [], held := false, traps := [] }

/-- An H lane under its mask: an all-false slot does nothing; else it is held, checked, HV among its domains (R318), and acts. -/
def runH (l : Lane) (use : Mach → BitVec 1024 → HUse) (act : Mach → BitVec 1024 → LaneOut) (s : State) : Host.Outcome State Fault Refusal :=
  runLane .h (fun m =>
    let c := m.me
    let mask := c.mreg l.p.toNat
    let maskStale := m.staleTraps [] [.m l.p.toNat]
    if mask = 0 then checked maskStale (.done m 0)
    else
      let u := use m mask
      if u.held || u.regs.any (c.pending m.now) then .hold m
      else checked (maskStale ++ m.staleTraps u.own (u.regs.map Loc.s ++ u.locs) ++ m.sleepTraps [.core m.cur hvBit] ++ u.traps)
        (act m mask)) s

/-! ### Bind, permute, move and clear (R319) -/

/-- An H lane that writes an h register computed from h registers. -/
def hWrite (l : Lane) (lat : Nat) (reads : List Nat) (f : Core → BitVec 8192) (s : State) : Host.Outcome State Fault Refusal :=
  runH l (fun _ _ => { HUse.none with locs := reads.map Loc.h, own := [.h l.dst.toNat] })
    (fun m mask => .done (m.write .h lat (.h (l.dst.setWidth 4) (f m.me) mask) 0) 0) s

/-- HBIND. -/
def execHbind (l : Lane) (s : State) : Host.Outcome State Fault Refusal :=
  hWrite l 1 [l.a.toNat, l.b.toNat] (fun c => c.hreg l.a.toNat ^^^ c.hreg l.b.toNat) s

/-- HNOT. -/
def execHnot (l : Lane) (s : State) : Host.Outcome State Fault Refusal := hWrite l 1 [l.a.toNat] (fun c => ~~~(c.hreg l.a.toNat)) s

/-- HMOV. -/
def execHmov (l : Lane) (s : State) : Host.Outcome State Fault Refusal := hWrite l 1 [l.a.toNat] (fun c => c.hreg l.a.toNat) s

/-- HPERM: FN 000 moves bits toward higher positions, 001 toward lower ones. -/
def execHperm (l : Lane) (s : State) : Host.Outcome State Fault Refusal :=
  runH l (fun _ _ => { HUse.none with regs := if l.kb = 1 then [l.b.toNat] else [], locs := [.h l.a.toNat], own := [.h l.dst.toNat] })
    (fun m mask =>
      let c := m.me
      let k := (if l.kb = 1 then (c.sreg l.b.toNat).toNat else l.litU) % 8192
      let a := c.hreg l.a.toNat
      .done (m.write .h 2 (.h (l.dst.setWidth 4) (if l.fn = 0 then a.rotateLeft k else a.rotateRight k) mask) 0) 0) s

/-- HCLR: an h register, or the counters of a k register. -/
def execHclr (l : Lane) (s : State) : Host.Outcome State Fault Refusal :=
  let isK := l.dst.getLsbD 4
  runH l (fun _ _ => { HUse.none with own := [if isK then .k (l.dst.toNat % 16) else .h l.dst.toNat] })
    (fun m mask =>
      .done (m.write .h 1 (if isK then .kClear (l.dst.setWidth 2) mask else .h (l.dst.setWidth 4) 0 mask) 0) 0) s

/-! ### Bundle and threshold (R320, R321) -/

/-- The tie vector that HVCTL.TIE selects (R315). -/
def Core.tieVector (c : Core) : BitVec 8192 :=
  match (bits c.hv.hvctl 0 2).toNat with
  | 0 => c.hreg 15
  | 1 => 0
  | 2 => BitVec.allOnes 8192
  | _ => bytesImage 8192 (List.replicate 1024 0xAA)

/-- The locations the tie vector reads. -/
def Core.tieLocs (c : Core) : List Loc := .hvctl :: (if bits c.hv.hvctl 0 2 = 0 then [.h 15] else [])

/-- HBUND: FN 000 .add, 001 .sub, 010 .tie. -/
def execHbund (l : Lane) (s : State) : Host.Outcome State Fault Refusal :=
  runH l (fun m _ => { HUse.none with locs := if l.fn = 2 then m.me.tieLocs else [.h l.a.toNat], own := [.k (l.dst.toNat % 16)] })
    (fun m mask =>
      let c := m.me
      let src := if l.fn = 2 then c.tieVector else c.hreg l.a.toNat
      .done (m.write .h 3 (.kBundle (l.dst.setWidth 2) src mask (l.litU % 16) (l.fn.setWidth 2) (bits c.hv.hvctl 0 2)) 0) 0) s

/-- The counters of a k register. -/
def counters (img : BitVec 65536) : List Int := (imageBytes img).map BitVec.toInt

/-- A k image from its counters. -/
def counterImage (cs : List Int) : BitVec 65536 := bytesImage 65536 (cs.map fun c => BitVec.ofInt 8 c)

/-- The counters after a bundle (R320), and whether one was clamped. -/
def bundle (img : BitVec 65536) (src : BitVec 8192) (mask : BitVec 1024) (weight : Nat) (form : BitVec 2) : BitVec 65536 × Flags :=
  let rs := (List.range 8192).zipWith (fun (i : Nat) (c : Int) =>
    if mask.getLsbD (i / 8) then
      let b := src.getLsbD i != (form == 1)
      let x : Int := if b then c + weight else c - weight
      (max (-127) (min 127 x), x < -127 || 127 < x)
    else (c, false)) (counters img)
  (counterImage (rs.map Prod.fst), Flags.when (rs.any Prod.snd) Flags.isat)

/-- The threshold of counters (R321). -/
def threshold (img : BitVec 65536) (tie : BitVec 8192) : BitVec 8192 :=
  let bs := (List.range 8192).zipWith (fun i c => if 0 < c then true else if c < 0 then false else tie.getLsbD i) (counters img)
  bytesImage 8192 ((chunks 8 bs).map fun b => BitVec.ofNat 8 (b.foldr (fun x a => (if x then 1 else 0) + 2 * a) 0))

/-- HTHR. -/
def execHthr (l : Lane) (s : State) : Host.Outcome State Fault Refusal :=
  runH l (fun m _ => { HUse.none with locs := .k (l.a.toNat % 16) :: m.me.tieLocs, own := [.h l.dst.toNat] })
    (fun m mask =>
      let c := m.me
      .done (m.write .h 3 (.h (l.dst.setWidth 4) (threshold (c.kreg (l.a.toNat % 16)) c.tieVector) mask) 0) 0) s

/-! ### Distances and searches (R322 to R326) -/

/-- Ones in a byte. -/
def byteOnes (b : Byte) : Nat := (List.range 8).foldl (fun n i => if b.getLsbD i then n + 1 else n) 0

/-- The distance of two vectors over the counted bits (R322). -/
def distance (a b counted : BitVec 8192) : Nat := (imageBytes ((a ^^^ b) &&& counted)).foldl (fun n x => n + byteOnes x) 0

/-- A result word (R323); none is the NONE word. -/
def distWord (r : Option (Nat × Nat)) : W64 :=
  match r with
  | some (d, i) => BitVec.ofNat 64 (d * 2 ^ 32 + i)
  | none => BitVec.ofNat 64 (2 ^ 63 + 0xFFFF)

/-- HDIST (R324). -/
def execHdist (l : Lane) (s : State) : Host.Outcome State Fault Refusal :=
  runH l (fun m _ => { HUse.none with locs := [.h l.a.toNat, .h l.b.toNat], held := m.me.qFree m.now 7 == 0 })
    (fun m mask =>
      let c := m.me
      .done (m.write .h 6 (.q 7 (distWord (some (distance (c.hreg l.a.toNat) (c.hreg l.b.toNat) (maskBytes mask), 0)))) 0) 0) s

/-- A geode descriptor: W0, W1, VALID. -/
def Core.geode (c : Core) (n : Nat) : W64 × W64 × BitVec 1536 := nth c.hv.gd n (0, 0, 0)

/-- BASE of a geode (R316). -/
def geodeBase (w0 : W64) : Nat := (bits w0 0 21).toNat
/-- COUNT of a geode. -/
def geodeCount (w0 : W64) : Nat := (bits w0 32 12).toNat

/-- The searches of a core that are outstanding. -/
def Core.searches (c : Core) : List Result := c.flight.filter fun r => match r.dest with | .search _ _ _ _ _ _ => true | _ => false

/-- The first row read of a search issued now (R325). -/
def Core.searchStart (c : Core) (now : Nat) : Nat :=
  c.searches.foldl (fun a r => r.reads.foldl (fun a x => max a (x.cyc + 1)) a) (now + 1)

/-- What a search uses, its holds and faults. -/
def useHSearch (l : Lane) (two : Bool) (m : Mach) (_ : BitVec 1024) : HUse :=
  let g := l.a.toNat % 4
  let places := if two then 2 else 1
  let rows (c : Core) : Nat := (geodeCount (c.geode g).1 + 3) / 4
  let offs (c : Core) : List Nat := (List.range (rows c)).map fun q => geodeBase (c.geode g).1 + 4096 * q
  let ports (c : Core) (f : Nat) : List (Nat × Nat) := (List.range (rows c)).zipWith (fun q o => (groupOf o, f + q)) (offs c)
  let c := m.me
  let banks := (offs c).flatMap (fun o => (Pad.core m.cur).units o 4096) |>.eraseDups
  let dm := (c.geode g).2.1
  { regs := [], locs := .gd g :: .h l.b.toNat :: (if dm.getLsbD 4 then [.h (bits dm 0 4).toNat] else []), own := [],
    held := c.qFree m.now 7 < places || 2 ≤ c.searches.length,
    traps := m.sleepTraps (banks.map (DomRef.core m.cur)) ++ c.clashTraps (ports c (c.searchStart m.now)) ++
      trapUnless (banks.all fun b => fmtOf (nth c.pad.fmt b 0) == 0x15 && !classOf (nth c.pad.fmt b 0)) Code.bankfmt 0
        (geodeBase (c.geode g).1) }

/-- A geode search (R325, R326). -/
def hSearch (l : Lane) (two : Bool) (s : State) : Host.Outcome State Fault Refusal :=
  let g := l.a.toNat % 4
  let rows (c : Core) : Nat := (geodeCount (c.geode g).1 + 3) / 4
  let offs (c : Core) : List Nat := (List.range (rows c)).map fun q => geodeBase (c.geode g).1 + 4096 * q
  let ports (c : Core) (f : Nat) : List (Nat × Nat) := (List.range (rows c)).zipWith (fun q o => (groupOf o, f + q)) (offs c)
  runH l
    (useHSearch l two)
    (fun m mask =>
      let c := m.me
      let f := c.searchStart m.now
      let dm := (c.geode g).2.1
      let counted := if dm.getLsbD 4 then c.hreg (bits dm 0 4).toNat else BitVec.allOnes 8192
      let reads := (List.range (rows c)).zipWith (fun q o =>
        ({ cyc := f + q, pad := .core m.cur, off := o, len := 4096, pos := 4096 * q, valid := some (BitVec.ofNat 2 g) } : LateRead)) (offs c)
      let r : Result := { m.result .h 0 (.search (BitVec.ofNat 2 g) two (c.hreg l.b.toNat) counted (maskBytes mask) (geodeCount (c.geode g).1)) 0 with
        w := f + 7 + rows c, reads := reads, lane := Lane.toWord (if two then 7 else 6) l }
      .done (m.modMe fun c => (c.bookPorts (ports c f)).fly r) 0) s

/-- HNEAR. -/
def execHnear (l : Lane) (s : State) : Host.Outcome State Fault Refusal := hSearch l false s
/-- HNEAR2. -/
def execHnear2 (l : Lane) (s : State) : Host.Outcome State Fault Refusal := hSearch l true s

/-- The nearest of a list of distances and indexes: ties go to the lowest index. -/
def nearest : List (Nat × Nat) → Option (Nat × Nat)
  | [] => none
  | x :: r => match nearest r with
    | none => some x
    | some y => some (if y.1 < x.1 || (y.1 == x.1 && y.2 < x.2) then y else x)

/-- The words a search pushes (R323, R325), from the rows it gathered. -/
def Result.searchWords (r : Result) : List W64 :=
  match r.dest with
  | .search _ two query dm mask count =>
    let cands := ((List.range count).filter fun e => r.buf.read (validAt + e) != 0).map fun e =>
      (distance (bytesImage 8192 (r.buf.readBlock (1024 * e) 1024)) query (dm &&& mask), e)
    let best := nearest cands
    let second := nearest (cands.filter fun c => some c != best)
    distWord best :: (if two then [distWord second] else [])
  | _ => []

/-- SEARCH_PUSH (R325): the search of a core that is due pushes its words into qhs. -/
def execSearchPush (s : State) : Host.Outcome State Fault Refusal :=
  let core := s.m.cur
  let m := s.m
  let c := m.core core
  match c.searches.find? fun r => r.w ≤ m.now with
  | none => .next s
  | some r => .next (s.land core true fun m => m.modCore core fun c => { c with
      flight := c.flight.erase r
      scal := { c.scal with q := c.scal.q.modify 7 fun q => q ++ r.searchWords } })

/-! ### Filling the geode (R327, R328) -/

/-- What HGDSET uses, its holds and faults. -/
def useHgdset (l : Lane) (m : Mach) (_ : BitVec 1024) : HUse :=
  let hvctl := l.dst.getLsbD 4
  let g := l.dst.toNat % 4
  let c := m.me
  let a := c.sreg l.a.toNat
  let b := c.sreg l.b.toNat
  let busy := c.flight.any fun r => match r.dest with
    | .search n _ _ _ _ _ => n.toNat == g && !r.reads.isEmpty
    | .hgput n _ _ _ => n.toNat == g
    | _ => false
  { regs := [l.a.toNat, l.b.toNat], locs := [], own := [if hvctl then .hvctl else .gd g], held := !hvctl && busy,
    traps := if hvctl then trapUnless (bits a 2 62 == 0) Code.sprange 0 0
      else trapUnless (bits a 44 20 == 0 && bits a 21 11 == 0 && bits b 6 58 == 0 && geodeBase a % 0x1000 == 0 &&
        geodeCount a ≤ 1536 && geodeBase a + 0x400 * geodeCount a ≤ 0x180000) Code.sprange 0 0 }

/-- HGDSET: DST bit 4 names HVCTL. -/
def execHgdset (l : Lane) (s : State) : Host.Outcome State Fault Refusal :=
  let hvctl := l.dst.getLsbD 4
  let g := l.dst.toNat % 4
  runH l
    (useHgdset l)
    (fun m _ =>
      let c := m.me
      .done (m.write .h 1 (if hvctl then .hvctl (c.sreg l.a.toNat) else .gd (BitVec.ofNat 2 g) (c.sreg l.a.toNat) (c.sreg l.b.toNat)) 0) 0) s

/-- The bytes of an image that a mask selects, stored from an address on: mask bit n governs `per` bytes from `per × n` on. -/
def maskedBytes (bs : List Byte) (mask : BitVec 1024) (per addr : Nat) : List (Nat × Byte) :=
  ((atAddr 0 bs).filter fun b => mask.getLsbD (b.1 / per)).map fun b => (addr + b.1, b.2)

/-- What HGPUT uses, its holds and faults. -/
def useHgput (l : Lane) (m : Mach) (_ : BitVec 1024) : HUse :=
  let g := l.dst.toNat % 4
  let c := m.me
  let w0 := (c.geode g).1
  let i := c.xCount l
  let off := geodeBase w0 + 0x400 * i
  let inr := i < geodeCount w0
  let banks := if inr then (Pad.core m.cur).units off 1024 else []
  { regs := if l.kb = 1 then [l.b.toNat] else [], locs := [.h l.a.toNat, .gd g], own := [.gd g], held := false,
    traps := trapUnless inr Code.sprange 0 off ++ m.sleepTraps (banks.map (DomRef.core m.cur)) ++
      (if inr then c.clashTraps [(groupOf off, m.now)] else []) ++
      trapUnless (banks.all fun b => fmtOf (nth c.pad.fmt b 0) == 0x15 && !classOf (nth c.pad.fmt b 0)) Code.bankfmt 0 off }

/-- HGPUT (R328). -/
def execHgput (l : Lane) (s : State) : Host.Outcome State Fault Refusal :=
  let g := l.dst.toNat % 4
  runH l
    (useHgput l)
    (fun m mask =>
      let c := m.me
      let i := c.xCount l
      let off := geodeBase (c.geode g).1 + 0x400 * i
      .done ((m.modMe fun c => c.bookPorts [(groupOf off, m.now)]).write .h 6
        (.hgput (BitVec.ofNat 2 g) i off (maskedBytes (imageBytes (c.hreg l.a.toNat)) mask 1 off)) 0) 0) s

/-- What HGPUT.inv uses, its holds and faults. -/
def useHgputInv (l : Lane) (m : Mach) (_ : BitVec 1024) : HUse :=
  let g := l.dst.toNat % 4
  let c := m.me
  { regs := if l.kb = 1 then [l.b.toNat] else [], locs := [], own := [.gd g], held := false,
    traps := trapUnless (c.xCount l < geodeCount (c.geode g).1) Code.sprange 0 0 }

/-- HGPUT.inv (R328). -/
def execHgputInv (l : Lane) (s : State) : Host.Outcome State Fault Refusal :=
  let g := l.dst.toNat % 4
  runH l
    (useHgputInv l)
    (fun m _ => .done (m.write .h 1 (.valid (BitVec.ofNat 2 g) (m.me.xCount l) false) 0) 0) s

/-! ### Loads and stores (R329) -/

/-- The address of HLD and HST: the stepped form counts the H stream's repetitions. -/
def Core.hAddress (c : Core) (l : Lane) : Nat :=
  let off := l.imm.signExtend 64
  (c.sreg l.b.toNat + (if modeStep l.a then BitVec.ofNat 64 (c.stream .h).rep * off else off)).toNat

/-- Bytes of the image of an h or k register. -/
def Lane.hBytes (l : Lane) : Nat := if l.dst.getLsbD 4 then 8192 else 1024

/-- The timing of an HLD or HST; a k register from the quad scratchpad is written at 52, by R298 and not R283's bound (log entry 72). -/
def Mach.hTiming (m : Mach) (write : Bool) (lvl ea n : Nat) : Timing :=
  if lvl = 0 && n = 8192 then m.moveTiming write 0 ea 2 m.now
  else if write then m.writeTiming m.cur lvl ea (n / 256) m.now
  else m.readTiming m.cur lvl ea (n / 256) m.now

/-- What HLD uses, its holds and faults. -/
def useHld (l : Lane) (m : Mach) (_ : BitVec 1024) : HUse :=
  let lvl := modeLvl l.a
  let isK := l.dst.getLsbD 4
  let n := Lane.hBytes l
  let ea := m.me.hAddress l
  { regs := [l.b.toNat], locs := if lvl = 0 then wordLocs ea n else [], own := [if isK then .k (l.dst.toNat % 16) else .h l.dst.toNat],
    held := lvl == 0 && m.readStalls m.cur ea n,
    traps := m.accessTraps m.cur lvl ea n n ++ m.me.timingTraps lvl false (m.hTiming false lvl ea n) }

/-- HLD. -/
def execHld (l : Lane) (s : State) : Host.Outcome State Fault Refusal :=
  let lvl := modeLvl l.a
  let isK := l.dst.getLsbD 4
  let n := Lane.hBytes l
  runH l
    (useHld l)
    (fun m mask =>
      let ea := m.me.hAddress l
      let t := m.hTiming false lvl ea n
      let p := padAt m.cur lvl
      let d : Dest := if isK then .kImage (l.dst.setWidth 2) 0 mask else .h (l.dst.setWidth 4) 0 mask
      let r : Result :=
        if lvl = 0 then
          { m.result .h (if isK then 7 else 6) d 0 with
            reads := (List.range ((n + 4095) / 4096)).map fun i =>
              { cyc := m.now + i, pad := p, off := ea + 4096 * i, len := min n 4096, pos := 4096 * i, valid := none } }
        else m.gathered .h p ea n t d
      .done ((m.bookTiming m.cur lvl false t).modMe fun c => c.fly r) 0) s

/-- What HST uses, its holds and faults. -/
def useHst (l : Lane) (m : Mach) (_ : BitVec 1024) : HUse :=
  let lvl := modeLvl l.a
  let isK := l.dst.getLsbD 4
  let n := Lane.hBytes l
  let ea := m.me.hAddress l
  { regs := [l.b.toNat], locs := [if isK then .k (l.dst.toNat % 16) else .h l.dst.toNat], own := [], held := false,
    traps := m.accessTraps m.cur lvl ea n n ++ (if lvl = 0 then m.writeBufTraps m.cur ea n else []) ++
      m.me.timingTraps lvl true (m.hTiming true lvl ea n) }

/-- HST. -/
def execHst (l : Lane) (s : State) : Host.Outcome State Fault Refusal :=
  let lvl := modeLvl l.a
  let isK := l.dst.getLsbD 4
  let n := Lane.hBytes l
  runH l
    (useHst l)
    (fun m mask =>
      let c := m.me
      let ea := c.hAddress l
      let t := m.hTiming true lvl ea n
      let bs := if isK then imageBytes (c.kreg (l.dst.toNat % 16)) else imageBytes (c.hreg l.dst.toNat)
      let ws := maskedBytes bs mask (if isK then 8 else 1) ea
      let p := padAt m.cur lvl
      let rs : List Result :=
        if lvl = 0 then (List.range ((n + 4095) / 4096)).map fun i =>
          m.result .h (6 + i) (.pad p (ws.filter fun w => (w.1 - ea) / 4096 == i)) 0
        else [{ m.result .h 0 (.pad p ws) 0 with w := maxOf t.data, dep := some m.now }]
      .done ((m.bookTiming m.cur lvl true t).modMe fun c => rs.foldl Core.fly c) 0) s

/-! ### Semaphores (R330) -/

/-- HSEMW. -/
def execHsemw (l : Lane) (s : State) : Host.Outcome State Fault Refusal :=
  runH l (fun m _ => { HUse.none with regs := if l.kb = 1 then [l.b.toNat] else [],
                                      held := (m.me.semTake l.dst.toNat (m.me.xCount l)).isNone })
    (fun m _ => .done (m.modMe fun c => (c.semTake l.dst.toNat (c.xCount l)).getD c) 0) s

/-- HSEMS. -/
def execHsems (l : Lane) (s : State) : Host.Outcome State Fault Refusal :=
  runH l (fun _ _ => { HUse.none with regs := if l.kb = 1 then [l.b.toNat] else [] })
    (fun m _ => .done (m.modMe fun c => c.semSignal l.dst.toNat (c.xCount l)) 0) s

/-! ### Landing of H results (R314, R320, R327 to R329) -/

/-- A k image with the counters of a mask taken from another. -/
def maskCounters (mask : BitVec 1024) (new old : BitVec 65536) : BitVec 65536 :=
  let sel := bytesImage 65536 ((List.range 8192).map fun i => if mask.getLsbD (i / 8) then 0xFF else 0)
  (new &&& sel) ||| (old &&& ~~~sel)

/-- A counter byte of 0x80 becomes −127 (R329). -/
def fixCounters (img : BitVec 65536) : BitVec 65536 := bytesImage 65536 ((imageBytes img).map fun b => if b = 0x80 then 0x81 else b)

/-- A result of the H stream lands: its registers and the flags it sets. -/
def Core.landHv (c : Core) (r : Result) : Core × Flags :=
  let setH (n : Nat) (v : BitVec 8192) : Core := { c with hv := { c.hv with h := c.hv.h.set n v } }
  let setK (n : Nat) (v : BitVec 65536) : Core := { c with hv := { c.hv with k := c.hv.k.set n v } }
  let modGd (n : Nat) (f : W64 × W64 × BitVec 1536 → W64 × W64 × BitVec 1536) : Core := { c with hv := { c.hv with gd := c.hv.gd.modify n f } }
  match r.dest with
  | .h n img mask =>
    let sel := maskBytes mask
    (setH n.toNat (((img ||| bytesImage 8192 (r.buf.readBlock 0 1024)) &&& sel) ||| (c.hreg n.toNat &&& ~~~sel)), 0)
  | .kBundle n src mask w form _ =>
    let b := bundle (c.kreg n.toNat) src mask w form
    (setK n.toNat b.1, b.2)
  | .kImage n img mask =>
    (setK n.toNat (maskCounters mask (fixCounters (img ||| bytesImage 65536 (r.buf.readBlock 0 8192))) (c.kreg n.toNat)), 0)
  | .kClear n mask => (setK n.toNat (maskCounters mask 0 (c.kreg n.toNat)), 0)
  | .hgput n i _ ws =>
    let c := modGd n.toNat fun g => (g.1, g.2.1, g.2.2 ||| (1#1536 <<< i))
    ({ c with pad := { c.pad with mem := c.pad.mem.overlay ws } }, 0)
  | .valid n i on => (modGd n.toNat fun g => (g.1, g.2.1, if on then g.2.2 ||| (1#1536 <<< i) else g.2.2 &&& ~~~(1#1536 <<< i)), 0)
  | .gd n w0 w1 =>
    let v : BitVec 1536 := if w1.getLsbD 5 then (BitVec.allOnes 1536) >>> (1536 - geodeCount w0) else 0
    (modGd n.toNat fun _ => (w0, w1, v), 0)
  | .hvctl v => ({ c with hv := { c.hv with hvctl := v } }, 0)
  | _ => (c, 0)

end Sys2Proof.Machine
end

