-- ==== Sys2Proof/Machine/TileView.lean ====
section
/-! DEFINITION. Tile instructions (R334 to R362): handles and views, acceptance, splitting, and the elements each instruction computes. -/
namespace Sys2Proof.Machine

/-! ### Handles and views (R337, R338) -/

/-- A view: the fields of its descriptor and of its handle, the bits of an element's place and those of them that are its value, and the bytes of a
staged row. -/
structure TView where
  fmt    : Fmt
  bits   : Nat
  keep   : Nat
  scaled : Bool
  timed  : Bool
  space  : Nat
  qual   : Nat
  addr   : Nat
  rstr   : Int
  rows   : Nat
  cols   : Nat
  scl    : Nat
  sstr   : Nat
  banda  : Nat
  row0   : Nat
  col0   : Nat
  trans  : Bool
  staged : Bool
  soff   : Nat
  pitch  : Nat
  deriving DecidableEq, Repr

/-- A field of a handle or descriptor by its byte offset and bits. -/
def tableField {w : Nat} (x : BitVec w) (off n : Nat) : Nat := (bits x (8 * off) n).toNat

/-- Whether a handle keeps R337. -/
def handleOk (h : BitVec 512) : Bool :=
  let f := tableField h
  let space := f 7 8 / 16
  let qual := f 6 12
  let fmt := f 0x14 8
  let scaled := f 0x15 8 / 2 % 2 == 1
  space ≤ 3 && (match space with | 1 => qual / 32 == 64 || qual == 0 | 2 => qual / 4 == 512 || qual == 0 | _ => qual == 0) &&
  f 0x0F 8 == 0 && f 0x13 8 == 0 && f 0x0C 24 != 0 && f 0x10 24 != 0 && fmt ≤ 0x15 && f 0x15 8 < 4 && f 0x16 16 == 0 &&
  f 0x24 32 == 0 && f 0x30 128 == 0 && (fmt != 0x15 || f 0x10 24 == 1) &&
  (if scaled then 0x0F ≤ fmt && fmt ≤ 0x13 && (f 0x10 24 + 7) / 8 ≤ f 0x20 32
   else f 0x18 64 == 0 && f 0x20 32 == 0 && f 0x28 64 == 0)

/-- Whether a descriptor keeps R338. -/
def descOk (d : BitVec 128) : Bool :=
  let f := tableField d
  f 1 8 < 4 && f 2 16 == 0 && f 7 8 == 0 && f 11 8 == 0 && f 0xC 32 < 2 ^ 25 && f 0xC 32 % 256 == 0

/-- The view of a descriptor of `cols` columns; none where the tables break R337 or R338. -/
def tileView (h : BitVec 512) (d : BitVec 128) (cols : Nat) : Option TView :=
  let f := tableField h
  let g := tableField d
  let scaled := f 0x15 8 / 2 % 2 == 1
  let trans := g 1 8 % 2 == 1
  let staged := g 1 8 / 2 % 2 == 1
  if handleOk h && descOk d && (!(scaled && trans) || staged) then
    some { fmt := f 0x14 8, bits := tileBits (f 0x14 8), keep := if f 0x14 8 = 0x15 then 8192 else elemBits (f 0x14 8),
           scaled := scaled, timed := f 0x15 8 % 2 == 1, space := f 7 8 / 16, qual := f 6 12, addr := f 0 48,
           rstr := (bits h 64 32).toInt, rows := f 0x0C 24, cols := f 0x10 24, scl := f 0x18 64, sstr := f 0x20 32, banda := f 0x28 64,
           row0 := g 4 24, col0 := g 8 24, trans := trans, staged := staged, soff := g 0xC 32,
           pitch := ((cols * tileBits (f 0x14 8) + 7) / 8 + 255) / 256 * 256 }
  else none

namespace TView

/-- The handle's row and column of element (i, j). -/
def cell (v : TView) (i j : Nat) : Nat × Nat := if v.trans then (v.row0 + j, v.col0 + i) else (v.row0 + i, v.col0 + j)

/-- The address of element (i, j), and the bit of its byte where it begins (R262, R337, R338). -/
def elemAddr (v : TView) (i j : Nat) : Int × Nat :=
  let b := v.bits
  if v.staged then ((v.soff + i * v.pitch + j * b / 8 : Nat), j * b % 8)
  else
    let c := v.cell i j
    ((v.addr : Int) + c.1 * v.rstr + (c.2 * b / 8 : Nat), c.2 * b % 8)

/-- Bytes that hold one element. -/
def elemBytes (v : TView) : Nat := (v.bits + 7) / 8

/-- The space a view's bytes lie in: a staged slice in the port's own scratchpad, a core's at L. -/
def place (v : TView) : Nat := if v.staged then 0 else v.space

/-- The address of the scale of row `i`, block `b` of the view (R337). -/
def scaleAddr (v : TView) (i b : Nat) : Nat := v.scl + (v.row0 + i) * v.sstr + v.col0 / 8 + b

/-- The address of the band scale of row `i` of the view (R337). -/
def bandAddr (v : TView) (i : Nat) : Nat := v.banda + 2 * ((v.row0 + i) / 64)

end TView

/-! ### Acceptance (R335, R340) -/

/-- The extents of the views of an instruction: D, A, B (rows, columns), where it has them (R352 to R362). -/
def tileDims (top : Nat) (t : Tile) : List (Option (Nat × Nat)) :=
  let m := t.m.toNat
  let n := t.n.toNat
  let k := t.k.toNat
  match top with
  | 1 | 2 => [some (m, n), some (m, k), some (n, k)]
  | 3 => [some (m, n), some (m, n), some (if t.auxb.getLsbD 0 then 1 else m, n)]
  | 4 | 6 | 7 | 8 => [some (m, n), some (m, n), none]
  | 5 => [some (m, 1), some (m, n), none]
  | 9 => [some (m, n), none, none]
  | 10 => [some (n, m), some (m, n), none]
  | 11 => [some (m, n), some (1, n), some (m, 1)]
  | 12 => [some (m, 1), some (m, n), some (1, 1)]
  | 13 => [some (m, if t.sub = 1 then 16 else 8), some (m, 1), some (n, 1)]
  | _ => [none, none, none]

/-- The fields an instruction uses (R335): M, N and K, and the least bound of SUB beyond its values. -/
def tileUses (top : Nat) : Bool × Bool × Bool × Nat :=
  match top with
  | 1 | 2 => (true, true, true, 1)
  | 3 => (true, true, false, 8)
  | 4 => (true, true, false, 6)
  | 5 => (true, true, false, 3)
  | 13 => (true, true, false, 2)
  | 0 | 14 | 15 => (false, false, false, 1)
  | _ => (true, true, false, 1)

/-- Whether an instruction uses RM and SAT (R335, R352 to R362). -/
def tileRounds (top : Nat) : Bool := top != 0 && top != 7 && (top ≤ 6 || top == 8)

/-- Detail 0x04 of R340: a field or flag that is not used is not zero, or a sub-operation is refused. -/
def tileUnused (lvl top : Nat) (t : Tile) : Bool :=
  let u := tileUses top
  let d := tileDims top t
  let hasScope := top == 14 || top == 15
  let v1 := t.ver == 1
  (!u.1 && t.m != 0) || (!u.2.1 && t.n != 0) || (!u.2.2.1 && top != 9 && t.k != 0) ||
  (hasScope && (if v1 then t.sub != 0 else t.sub == 0 || 8 < t.sub.toNat)) || (!hasScope && u.2.2.2 ≤ t.sub.toNat) ||
  (d[0]!.isNone && (t.tdd != 0 || t.dfmt != 0)) || (d[1]!.isNone && t.tda != 0) || (d[2]!.isNone && t.tdb != 0) ||
  (!tileRounds top && (t.rm != 0 || t.sat)) || (t.acc && !(top == 1 || top == 2 || (top == 3 && t.sub.toNat ≤ 2))) ||
  (t.ksplit && !(top == 1 || top == 2)) || (top == 0 && (t.abort || t.ovl)) ||
  (match top with | 3 => 2 ≤ t.auxb.toNat | 12 => 4 ≤ t.auxb.toNat | 15 => 3 ≤ t.auxb.toNat | _ => t.auxb != 0) ||
  (lvl != 4 && (t.lcm != 0 || t.d != 0 || t.p != 0)) ||
  (v1 && (t.ksplit || t.ovl || top == 12 || top == 13))

/-- Whether a format holds numbers. -/
def isNumber (f : Fmt) : Bool := (floatFmt f).isSome || (intFmt f).isSome

/-- Formats allowed (R354 to R362). -/
def tileFormats (top : Nat) (t : Tile) (d a b : Option TView) : Bool :=
  match top, d, a, b with
  | 1, some d, some a, some b =>
    if a.fmt = b.fmt && (floatFmt a.fmt).isSome then (if a.fmt = 0x0B then d.fmt == 0x0B && !t.ksplit else (floatFmt d.fmt).isSome)
    else [(5, 5), (6, 6), (5, 6), (9, 9), (10, 10), (9, 10)].contains (a.fmt, b.fmt) && d.fmt == 0x01
  | 2, some d, some a, some b => a.scaled && b.scaled && a.fmt == b.fmt && (floatFmt d.fmt).isSome
  | 3, some d, some a, some b =>
    a.fmt == d.fmt && b.fmt == d.fmt &&
    (if t.sub.toNat < 5 then isNumber d.fmt && d.fmt != 0x0B else d.fmt != 0x14 && d.fmt != 0x15)
  | 4, some d, some a, _ => a.fmt == d.fmt && 0x0C ≤ d.fmt && d.fmt ≤ 0x13
  | 5, some d, some a, _ => a.fmt == d.fmt && ((1 ≤ d.fmt && d.fmt ≤ 6) || (0x0C ≤ d.fmt && d.fmt ≤ 0x0E))
  | 6, some d, some a, _ => isNumber d.fmt && isNumber a.fmt && !d.scaled && !a.scaled
  | 7, some d, some a, _ => (a.fmt == 0x0C || a.fmt == 0x0D) && d.scaled
  | 8, some d, some a, _ => if d.scaled || a.scaled then a.fmt == d.fmt && a.scaled == d.scaled
    else a.fmt == d.fmt || a.fmt == 0 || d.fmt == 0 || (isNumber d.fmt && isNumber a.fmt)
  | 9, some d, _, _ => d.fmt != 0x14
  | 10, some d, some a, _ => a.fmt == d.fmt
  | 11, some d, some a, some b => a.fmt == d.fmt && b.fmt == 0x02
  | 12, some d, some a, some b => d.fmt == 0x15 && a.fmt == 0x02 && b.fmt == 0x15
  | 13, some d, some a, some b => d.fmt == 0x00 && a.fmt == 0x15 && b.fmt == 0x15
  | _, _, _, _ => true

/-- The tables a port reads: handles and descriptors by number. -/
structure TileTables where
  hnd  : Nat → BitVec 512
  desc : Nat → BitVec 128

/-- The views of an instruction: D, A and B; an absent one, or one that breaks the tables, is none. -/
def tileViews (tb : TileTables) (top : Nat) (t : Tile) : List (Option TView) :=
  List.zipWith (fun n (d : Option (Nat × Nat)) =>
    d.bind fun d => let x := tb.desc n; tileView (tb.hnd (tableField x 0 8)) x d.2) [t.tdd.toNat, t.tda.toNat, t.tdb.toNat] (tileDims top t)

/-- The views as an instruction addresses them: a RAW side of a T.MOVE takes the size of the other side's elements, and on both sides every bit of an
element's place is then its value, since bytes are copied unchanged (R90, R360). -/
def tileMoved (top : Nat) (vs : List (Option TView)) : List (Option TView) :=
  let take (v w : Option TView) : Option TView := v.map fun v =>
    let b := if v.fmt = 0 then (w.map TView.bits).getD v.bits else v.bits
    if v.fmt = 0 || (w.map TView.fmt).getD 1 = 0 then { v with bits := b, keep := b } else v
  match top, vs with
  | 8, [d, a, b] => [take d a, take a d, b]
  | _, vs => vs

/-- Whether a view reaches beyond its handle (R340, detail 0x07). -/
def TView.beyond (v : TView) (rows cols : Nat) : Bool :=
  let (r, c) := if v.trans then (cols, rows) else (rows, cols)
  !v.staged && (v.rows < v.row0 + r || v.cols < v.col0 + c)

/-- Whether a view cannot be used at L by its shape (R340, detail 0x0A): rows not 256-aligned, to the bit, or TRANS on a view not staged. -/
def TView.shapeBad (v : TView) : Bool :=
  !v.staged && (v.trans || (v.elemAddr 0 0).1 % 256 != 0 || (v.elemAddr 0 0).2 != 0 || v.rstr % 256 != 0)

/-- The least detail code of R340 that fails at a port of level `lvl` (0 P to 4 L); 0 where the instruction is accepted. `range` tells
whether a view's bytes lie in the range of a scratchpad level it may name. -/
def tileRefusal (lvl top : Nat) (t : Tile) (tb : TileTables) (range : TView → Nat × Nat → Bool) (answered : Bool) (resumeOk : Bool) : Nat :=
  let dims := tileDims top t
  let vs := tileViews tb top t
  let u := tileUses top
  let both := (dims.zip vs).filterMap fun p => match p.1, p.2 with | some d, some v => some (d, v) | _, _ => none
  let missing := (dims.zip vs).any fun p => p.1.isSome && p.2.isNone
  let unusable (d : Nat × Nat) (v : TView) : Bool :=
    (v.staged && lvl < 3) || (!v.staged && (match v.space with | 0 => lvl < 3 | 1 => lvl < 2 | 2 => lvl < 1 | _ => lvl == 4)) ||
    ((lvl == 4 || (lvl == 3 && 3 ≤ top && top ≤ 7)) && v.shapeBad) || !range v d
  let codes := [
    (0x01, 4 < t.lvl.toNat || (t.ver != 1 && t.ver != 2)),
    (0x02, t.lvl.toNat != lvl),
    (0x03, lvl == 4 && !(top == 0 || (3 ≤ top && top ≤ 7))),
    (0x04, tileUnused lvl top t),
    (0x05, (u.1 && t.m == 0) || (u.2.1 && t.n == 0) || (u.2.2.1 && t.k == 0) || (lvl == 4 && t.lcm == 0)),
    (0x06, missing),
    (0x07, both.any fun p => p.2.beyond p.1.1 p.1.2),
    (0x08, !missing && (!tileFormats top t vs[0]! vs[1]! vs[2]! || (match vs[0]! with | some d => d.fmt != t.dfmt.toNat | none => false))),
    (0x09, t.ksplit == (t.ksf == 0)),
    (0x0A, both.any fun p => unusable p.1 p.2),
    (0x0B, !resumeOk),
    (0x0C, !answered)]
  ((codes.find? fun c => c.2).map Prod.fst).getD 0

/-! ### Splitting (R342) -/

/-- The ranges of an extent split among `c` children by granule `g`: empty ranges included. -/
def splitRange (lo hi c g : Nat) : List (Nat × Nat) :=
  let e := hi - lo
  let s := ((e + c - 1) / c + g - 1) / g * g
  (List.range c).map fun k => (lo + min (k * s) e, lo + min ((k + 1) * s) e)

/-- Whether a port splits along M (R342): `m` rows, `c` children, granule `g`. -/
def splitsM (top m c g : Nat) : Bool := top != 13 && (g * c ≤ m || [5, 7, 11, 12].contains top)

/-! ### Elements (R352 to R362) -/

/-- What an instruction reads: patterns of A, B and D, scale codes by row and block, band scales by row; and A's rows. -/
structure TileSrc where
  a     : Nat → Nat → Nat
  b     : Nat → Nat → Nat
  d     : Nat → Nat → Nat
  sa    : Nat → Nat → Nat
  sb    : Nat → Nat → Nat
  bandA : Nat → Nat
  bandB : Nat → Nat
  bandD : Nat → Nat
  aRows : Nat
  bRows : Nat

/-- What a share computes: elements by row and column, scale codes by row and block, and the flags set; or a fault and its address. -/
structure TileOut where
  elems  : List (Nat × Nat × Nat)
  scales : List (Nat × Nat × Nat)
  flags  : Flags
  deriving DecidableEq, Repr

/-- The operation of R269 that a multiply uses: 1 MMA, 2 MMAI, 3 MMAD, 4 MMAS. -/
def tileArrayOp (top : Nat) (fa : Fmt) : Nat :=
  if top = 2 then 4 else if fa = 0x0B then 3 else if (floatFmt fa).isSome then 1 else 2

/-- The format an operation accumulates in. -/
def tileAccFmt (op : Nat) : Fmt := match op with | 2 => 0x01 | 3 => 0x0B | _ => 0x0C

/-- The accumulated value of element (i, j) over K elements [k0, k1), from a starting pattern (R354, R355). -/
def tileAcc (op : Nat) (fa fb : Fmt) (sat : Bool) (x : TileSrc) (i j k0 k1 start : Nat) : Nat × Flags :=
  let kd := (passDepth fa).1
  (List.range ((k1 - k0 + kd - 1) / kd)).foldl (fun acc p =>
    let lo := k0 + p * kd
    let n := min kd (k1 - lo)
    let vec (e : Nat → Nat → Nat) (sc : Nat → Nat → Nat) (r : Nat) : PassVec :=
      ⟨(List.range n).map fun e' => e r (lo + e'), if op = 4 then (List.range ((n + 7) / 8)).map fun b => sc r (lo / 8 + b) else []⟩
    let r := passElem op fa fb sat acc.1 (vec x.a x.sa i) (vec x.b x.sb j)
    (r.1, acc.2 ||| r.2)) (start, 0)

/-- The starting value of a multiply with ACC (R352). -/
def tileStart (op : Nat) (fd : Fmt) (p : Nat) : Nat × Flags := cvt fd (tileAccFmt op) 0 false (dec fd p)

/-- The result of a multiply from its accumulated value (R354, R355). -/
def tileFinish (op : Nat) (t : Tile) (fd : Fmt) (x : TileSrc) (i j : Nat) (p : Nat) : Nat × Flags :=
  if op = 4 then
    let ba := bf16.dec (x.bandA i)
    let bb := bf16.dec (x.bandB j)
    let st := if t.acc then dec fd (x.d i j) else .fin false 0 0
    let v := Val.add (t.rm == 2) (Val.mul (Val.mul (fp32.dec p) ba) bb) st
    let r := cvt 0x0C fd t.rm t.sat v
    (r.1, r.2 ||| invalid [fp32.dec p, ba, bb, st] v)
  else cvt (tileAccFmt op) fd t.rm t.sat (dec (tileAccFmt op) p)

/-- One element of a T.EW (R356). -/
def tileEw (t : Tile) (f : Fmt) (a b d : Nat) : Nat × Flags :=
  let sub := t.sub.toNat
  match sub with
  | 5 => (a &&& b, 0)
  | 6 => (a ||| b, 0)
  | 7 => (a ^^^ b, 0)
  | _ =>
    match floatFmt f with
    | some g =>
      let x := g.dec a
      let y := g.dec b
      let z := g.dec d
      if sub = 3 then ((cvtFloat g 0 false (Val.minNum x y)).1, 0)
      else if sub = 4 then ((cvtFloat g 0 false (Val.maxNum x y)).1, 0)
      else
        let op := match sub with
          | 0 => Val.add (t.rm == 2) x y
          | 1 => Val.add (t.rm == 2) x y.negate
          | _ => Val.mul x y
        if t.acc then rounded f t.rm t.sat [x, y, z] (Val.add (t.rm == 2) op z) else rounded f t.rm t.sat [x, y] op
    | none =>
      let n := intOf f
      let x := decInt n.1 n.2 a
      let y := decInt n.1 n.2 b
      let st := if t.acc then tileStart 2 f d else (0, 0)
      let z := decInt 32 true st.1
      let fit (v : Int) : Nat × Flags := let r := fitInt f t.sat v; (r.1, r.2 ||| st.2)
      match sub with
      | 0 => fit (x + y + z)
      | 1 => fit (x - y + z)
      | 2 => fit (x * y + z)
      | 3 => (encInt n.1 (min x y), 0)
      | _ => (encInt n.1 (max x y), 0)

/-- One element of a T.ACT (R357). -/
def tileAct (t : Tile) (f : Fmt) (a : Nat) : Nat × Flags :=
  let g := fmtF f
  match t.sub.toNat with
  | 0 => ((cvtFloat g 0 false (Val.maxNum (g.dec a) (.fin false 0 0))).1, 0)
  | 1 => special 2 g t.rm t.sat a
  | 2 => special 3 g t.rm t.sat a
  | 3 => special 0 g t.rm t.sat a
  | 4 => special 1 g t.rm t.sat a
  | _ => (match g.dec a with | .nan => g.nanBits | _ => a % 2 ^ (elemBits f - 1), 0)

/-- A row's value of a T.RED (R358). -/
def tileRed (t : Tile) (f : Fmt) (ps : List Nat) : Nat × Flags :=
  match floatFmt f with
  | some g =>
    let vs := ps.map g.dec
    if t.sub = 0 then
      let x := sumVals (t.rm == 2) vs
      rounded f t.rm t.sat vs x
    else match vs with
      | [] => (0, 0)
      | v :: r => ((cvtFloat g 0 false (r.foldl (if t.sub = 1 then Val.minNum else Val.maxNum) v)).1, 0)
  | none =>
    let n := intOf f
    match ps.map (decInt n.1 n.2) with
    | [] => (0, 0)
    | x :: r => if t.sub = 0 then fitInt f t.sat (r.foldl (· + ·) x)
      else (encInt n.1 (r.foldl (if t.sub = 1 then min else max) x), 0)

/-- One element of a T.CVT (R359): CVT also between equal formats. -/
def tileConvert (t : Tile) (fa fd : Fmt) (a : Nat) : Nat × Flags := cvt fa fd t.rm t.sat (dec fa a)

/-- One element of a T.MOVE (R90, R360): its bits between equal formats and where a side is RAW. -/
def tileMoveElem (t : Tile) (fa fd : Fmt) (a : Nat) : Nat × Flags := if fa = fd || fa = 0 || fd = 0 then (a, 0) else tileConvert t fa fd a

/-- The element of a T.FILL (R360). -/
def tileFillElem (t : Tile) (f : Fmt) : Nat × Flags :=
  let v := t.k
  match floatFmt f with
  | some g => cvtFloat g 0 true (bf16.dec v.toNat)
  | none => match intFmt f with
    | some (_, s) => fitInt f true (if s then v.toInt else v.toNat)
    | none => if f = 0x15 then (leValue (List.flatten (List.replicate 512 (leBytes 2 v.toNat))), 0) else (v.toNat % 256, 0)

/-- A hypervector rotated by `n` bits towards higher numbers (R319). -/
def hvRotate (v n : Nat) : Nat := v * 2 ^ (n % 8192) % 2 ^ 8192 + v / 2 ^ (8192 - n % 8192)

/-- A row of a T.HVENC, with ISAT where a counter was clamped (R320, R361). -/
def tileEncode (t : Tile) (x : TileSrc) (idx : List Nat) : Nat × Flags :=
  let k := ((List.range idx.length).zip idx).foldl (fun k p =>
    let r := bundle k.1 (BitVec.ofNat 8192 (hvRotate (x.b p.2 0) p.1)) (BitVec.allOnes 1024) 1 0
    (r.1, k.2 ||| r.2)) ((0 : BitVec 65536), (0 : Flags))
  let tie : BitVec 8192 := match t.auxb.toNat % 4 with
    | 0 => BitVec.ofNat 8192 (x.b 0 0)
    | 1 => 0
    | 2 => BitVec.allOnes 8192
    | _ => bytesImage 8192 (List.replicate 1024 0xAA)
  ((threshold k.1 tie).toNat, k.2)

/-- Whether the D view of a T.SCALE breaks its rule (R359): F.SCALECOUNT when a share runs. -/
def tileScaleBad (v : TView) (n : Nat) : Bool := v.col0 % 8 != 0 || (n % 8 != 0 && v.col0 + n != v.cols)

/-- Whether a view of a T.MMAS breaks its rule (R355). -/
def tileMmasBad (v : TView) (k : Nat) : Bool := v.col0 % 8 != 0 || ((v.col0 + k) % 8 != 0 && v.col0 + k != v.cols)

/-- A fault of a share: code and address. -/
abbrev TileFault := Byte × Nat

/-- The elements of rows [r0, r1), columns [c0, c1) that an instruction computes (R352 to R362); K elements [k0, k1) of a multiply, whose
accumulated values it gives where `partial'`. For T.TRANS rows and columns are those of A. -/
def tileCompute (top : Nat) (t : Tile) (vd : TView) (va vb : Option TView) (x : TileSrc) (part : Bool) (r0 r1 c0 c1 k0 k1 : Nat) :
    Except TileFault TileOut :=
  let rows := (List.range (r1 - r0)).map (r0 + ·)
  let cells := rows.flatMap fun i => (List.range (c1 - c0)).map fun j => (i, c0 + j)
  let fa := (va.map TView.fmt).getD 0
  let fb := (vb.map TView.fmt).getD 0
  let fd := vd.fmt
  let each (f : Nat → Nat → Nat × Flags) : Except TileFault TileOut :=
    let rs := cells.map fun c => (c, f c.1 c.2)
    .ok { elems := rs.map fun r => (r.1.1, r.1.2, r.2.1), scales := [], flags := rs.foldl (fun a r => a ||| r.2.2) 0 }
  match top with
  | 1 | 2 =>
    if top = 2 && ((va.map fun v => tileMmasBad v t.k.toNat).getD false || (vb.map fun v => tileMmasBad v t.k.toNat).getD false) then
      .error (0x0B, 0)
    else
      let op := tileArrayOp top fa
      each fun i j =>
        let st := if t.acc && op != 4 && k0 = 0 then tileStart op fd (x.d i j) else (0, 0)
        let a := tileAcc op fa fb t.sat x i j k0 k1 st.1
        if part then (a.1, a.2 ||| st.2)
        else let r := tileFinish op t fd x i j a.1; (r.1, r.2 ||| a.2 ||| st.2)
  | 3 => each fun i j => tileEw t fd (x.a i j) (x.b (if t.auxb.getLsbD 0 then 0 else i) j) (x.d i j)
  | 4 => each fun i j => tileAct t fd (x.a i j)
  | 5 =>
    let rs := rows.map fun i => (i, tileRed t fa ((List.range t.n.toNat).map (x.a i)))
    .ok { elems := rs.map fun r => (r.1, 0, r.2.1), scales := [], flags := rs.foldl (fun a r => a ||| r.2.2) 0 }
  | 7 =>
    if tileScaleBad vd t.n.toNat then .error (0x0B, 0)
    else
      let f := fmtF fd
      let blocks := rows.flatMap fun i => (List.range ((c1 - c0 + 7) / 8)).map fun b => (i, c0 + 8 * b)
      let qs := blocks.map fun p =>
        let js := (List.range (min 8 (c1 - p.2))).map (p.2 + ·)
        let vals := js.map (fun j => dec fa (x.a p.1 j)) ++ List.replicate (8 - js.length) (.fin false 0 0)
        (p, js, quantise f (x.bandD p.1) vals)
      .ok { elems := qs.flatMap fun q => List.zipWith (fun j e => (q.1.1, j, e)) q.2.1 q.2.2.2.1,
            scales := qs.map fun q => (q.1.1, q.1.2 / 8, q.2.2.1), flags := qs.foldl (fun a q => a ||| q.2.2.2.2) 0 }
  | 8 =>
    match each fun i j => tileMoveElem t fa fd (x.a i j) with
    | .ok o => .ok { o with scales := if vd.scaled then rows.flatMap fun i => (List.range ((c1 - c0 + 7) / 8)).map fun b =>
        (i, c0 / 8 + b, x.sa i (c0 / 8 + b)) else [] }
    | e => e
  | 9 => each fun _ _ => tileFillElem t fd
  | 10 =>
    .ok { elems := cells.map fun c => (c.2, c.1, x.a c.1 c.2), scales := [], flags := 0 }
  | 11 =>
    match rows.find? fun i => x.aRows ≤ x.b i 0 with
    | some i => .error (0x0A, i)
    | none => each fun i j => (x.a (x.b i 0) j, 0)
  | 12 =>
    let idx (i : Nat) : List Nat := (List.range t.n.toNat).map (x.a i)
    match rows.find? fun i => (idx i).any fun k => x.bRows ≤ k with
    | some i => .error (0x0A, i)
    | none =>
      let rs := rows.map fun i => (i, tileEncode t x (idx i))
      .ok { elems := rs.map fun r => (r.1, 0, r.2.1), scales := [], flags := rs.foldl (fun a r => a ||| r.2.2) 0 }
  | 13 =>
    let rs := rows.map fun i =>
      let cands := (List.range t.n.toNat).map fun e => (distance (BitVec.ofNat 8192 (x.a i 0)) (BitVec.ofNat 8192 (x.b e 0)) (BitVec.allOnes 8192), e)
      let best := nearest cands
      (i, distWord best :: (if t.sub = 1 then [distWord (nearest (cands.filter fun c => some c != best))] else []))
    .ok { elems := rs.flatMap fun r => ((List.range 16).zip (r.2.flatMap fun w => leBytes 8 w.toNat)).map fun b => (r.1, b.1, b.2.toNat),
          scales := [], flags := 0 }
  | _ => each fun i j => tileConvert t fa fd (x.a i j)

end Sys2Proof.Machine
end

