-- ==== Sys2Proof/Machine/Power.lean ====
section
/-! DEFINITION. Power domains (R110 to R123): wakes and their inrush budget, sleeps, the power-state registers; bank formats (R88, R219,
R442); the events DOMAIN_ON and DEFERRED_SLEEP. -/
namespace Sys2Proof.Machine

/-! ### Weights (R114) -/

/-- Inrush weight of a domain. -/
def inrush : DomRef → Nat
  | .core _ b => if b < 48 then 1 else if b < 52 then 4 else if b = 52 then 12 else if b = 53 then 2 else 3
  | .quad _ _ => 2
  | .die _ _ => 4

/-- The domains of a core, its owned quad segments and its owned die segments, in the order of R123. -/
def Mach.coreDoms (m : Mach) (core : Nat) : List DomRef :=
  let b := (m.core core).bound
  (List.range 55).map (DomRef.core core) ++
  (match b with
   | some b => ((List.range 16).filter b.ownQ.getLsbD).map (DomRef.quad (quadOf core)) ++
               ((List.range 32).filter b.ownD.getLsbD).map (DomRef.die (dieOf core))
   | none => [])

/-- Wakes in progress or still to start that count against a core's budget: first cycle, end, weight. -/
def Mach.wakesOf (m : Mach) (core : Nat) : List (Nat × Nat × Nat) :=
  ((m.coreDoms core).filterMap fun d => match (m.dom d).st with
    | .waking _ t => some (0, t, inrush d)
    | _ => none) ++
  (m.core core).port.wakes.map fun w =>
    let d := wakeDom core w.2
    (w.1, w.1 + wakeLatency d ((m.dom d).st == .off), inrush d)

/-- The weight waking in a cycle. -/
def weightAt (ws : List (Nat × Nat × Nat)) (c : Nat) : Nat := ws.foldl (fun a w => if w.1 ≤ c && c < w.2.1 then a + w.2.2 else a) 0

/-- Whether the budget of 16 allows wakes of the given latencies and weights that start in cycle `t` (R115). -/
def wakesFit (ws : List (Nat × Nat × Nat)) (t : Nat) (new : List (Nat × Nat)) : Bool :=
  let all := ws ++ new.map fun n => (t, t + n.1, n.2)
  (List.range (new.foldl (fun a n => max a n.1) 0)).all fun i => weightAt all (t + i) ≤ 16

/-- Latency and weight of a domain as it stands. -/
def Mach.wakeCost (m : Mach) (d : DomRef) : Nat × Nat := (wakeLatency d ((m.dom d).st == .off), inrush d)

/-- A domain that is OFF or in RETAIN starts waking in cycle `t`. -/
def Mach.startWake (m : Mach) (d : DomRef) (t : Nat) : Mach :=
  match (m.dom d).st with
  | .off => m.setDom d { st := .waking true (t + wakeLatency d true), pend := none, slept := 0 }
  | .retain => m.setDom d { st := .waking false (t + wakeLatency d false), pend := none, slept := 0 }
  | _ => m

/-- The starts of wakes taken in order, each as soon as the budget allows and none before the one ahead of it (R123, R346). -/
def wakePlan : List (Nat × Nat × Nat) → Nat → List (DomRef × Nat × Nat) → List (DomRef × Nat)
  | _, _, [] => []
  | ws, t, (d, lat, w) :: r =>
    let s := firstFrom (fun c => wakesFit ws c [(lat, w)]) 1 4096 t
    (d, s) :: wakePlan ((s, s + lat, w) :: ws) s r

/-- Wakes of a core's own domains planned from this cycle on: those that start now have started, the rest wait; with the cycle the last
of them is ON (R346). -/
def Mach.planWakes (m : Mach) (core : Nat) (ds : List DomRef) : Mach × Nat :=
  let plan := wakePlan (m.wakesOf core) m.now (ds.map fun d => (d, m.wakeCost d))
  let on := plan.foldl (fun a p => max a (p.2 + (m.wakeCost p.1).1)) 0
  let m := plan.foldl (fun m p =>
    if p.2 ≤ m.now then m.startWake p.1 m.now
    else m.modCore core fun c => { c with port := { c.port with wakes := c.port.wakes ++ [(p.2, wakeCode p.1)] } }) m
  (m, on)

/-! ### Accesses still to come (R118, R442) -/

/-- The spans of scratchpads that a result in flight writes. -/
def Dest.places (core : Nat) : Dest → List (Pad × Nat × Nat)
  | .pad pd ws => (byteRuns ws).map fun r => (pd, r.1, r.2.length)
  | .hgput _ _ _ ws => (byteRuns ws).map fun r => (.core core, r.1, r.2.length)
  | .atom (.pad pd off) a _ _ _ => [(pd, off, if a.w64 then 8 else 4)]
  | .tile b => b.out.filterMap fun x => match x.1 with | .pad pd off => some (pd, off, x.2) | _ => none
  | _ => []

/-- Whether a span touches a bank or segment. -/
def spanTouches (p : Pad) (u : Nat) (s : Pad × Nat × Nat) : Bool := s.1 == p && (p.units s.2.1 s.2.2).contains u

/-- Whether a row of an open copy is still to be written, or its source still to be read after this cycle (R102, R299, R442). -/
def Copy.rowLeft (k : Copy) (now : Nat) (write : Bool) (i : Nat) : Bool :=
  (k.fault.isNone && k.sent ≤ i) || k.rows.any fun r => r.row == i && (write || now < r.sentAt)

/-- Places in scratchpads as spans. -/
def padSpans (l : List (Place × Nat)) : List (Pad × Nat × Nat) := l.filterMap fun d => match d.1 with | .pad p off => some (p, off, d.2) | _ => none

/-- Whether a copy has still to complete after this cycle, or, frozen by a stop, has units to land (R118). -/
def Copy.running (k : Copy) (now : Nat) : Bool := k.open? (now + 1) || !k.unitsDone

/-- The spans of scratchpads that an open copy still writes. -/
def Mach.openSpans (m : Mach) (core : Nat) (k : Copy) : List (Pad × Nat × Nat) :=
  let s := m.side core k true
  padSpans (((List.range s.rows.length).filter (k.rowLeft m.now true)).flatMap fun i =>
    s.runs i 0 s.len ++ (if k.quant then [(k.scalePlace s i 0, k.rowScales)] else []))

/-- The spans of scratchpads that the copies of a core still write, or read in cycle `from_` or later: elements and scales, and the slot of an open
refill whose bytes are under way. What a stop has frozen is still to be read. -/
def Mach.copySpans (m : Mach) (core : Nat) (write : Bool) (from_ : Nat) : List (Pad × Nat × Nat) :=
  ((m.core core).xe.copies.filter fun k => k.running m.now).flatMap fun k =>
    if k.timed || !k.units.isEmpty then
      if write && (k.timed || k.refill.isSome) then padSpans ((k.units.filter fun u => !u.written).flatMap CopyUnit.dst)
      else if !write then padSpans ((k.units.filter fun u => u.puts.isNone && (from_ ≤ u.readAt || (m.core core).stop.isSome)).filterMap CopyUnit.src)
      else m.openSpans core k
    else if k.refill.isSome then if write then [(.core core, k.addr true, 4096)] else []
    else if write then m.openSpans core k
    else if k.op == 6 then []
    else let s := m.side core k false
         padSpans (((List.range s.rows.length).filter (k.rowLeft m.now false)).flatMap fun i => s.runs i 0 s.len)

/-- Whether a write into a bank or segment is still to land. -/
def Mach.padWriting (m : Mach) (p : Pad) (u : Nat) : Bool :=
  m.active.any fun k =>
    let c := m.core k
    ((c.flight.any fun r => (r.dest.places k).any (spanTouches p u)) || (m.copySpans k true m.now).any (spanTouches p u))

/-- Whether an access still reads or writes a bank or segment after this cycle (R442). -/
def Mach.padUsed (m : Mach) (p : Pad) (u : Nat) : Bool :=
  m.padWriting p u || m.active.any fun k =>
    ((m.core k).flight.any fun r => r.reads.any fun l => (l.cyc != m.now || (m.core k).stop.isSome) && spanTouches p u (l.pad, l.off, l.len)) ||
    (m.copySpans k false (m.now + 1)).any (spanTouches p u)

/-- The same of a bank that a lingering task may hold as well (R150). -/
def Mach.padBusy (m : Mach) (p : Pad) (u : Nat) : Bool :=
  m.padUsed p u || (match p with | .core n => m.padUsed (.core (96 + n)) u | _ => false)

/-- Whether the array or a search has booked a read of a bank still to come, which counts as a write into it (R118, R267, R326). -/
def Mach.engineReads (m : Mach) (p : Pad) (u : Nat) : Bool :=
  m.active.any fun k => (m.core k).flight.any fun r =>
    (match r.dest with | .array _ _ _ _ _ => true | .search _ _ _ _ _ _ => true | _ => false) &&
    r.reads.any fun l => spanTouches p u (l.pad, l.off, l.len)

/-- Whether a domain must stay ON for what is still in flight (R118). -/
def Mach.domBusy (m : Mach) (d : DomRef) : Bool :=
  match d with
  | .quad q s => m.padWriting (.quad q) s
  | .die k s => m.padWriting (.die k) s
  | .core n b =>
    let c := m.core n
    if b < 48 then m.padWriting (.core n) b || m.engineReads (.core n) b
    else if b < 52 then c.flight.any fun r => match r.dest with
      | .v _ _ mask => (maskClusters mask).contains (b - 48)
      | _ => false
    else if b = 52 then c.flight.any fun r => match r.dest with
      | .acc _ _ => true | .accPair _ _ => true | .accZero _ => true | .array _ _ _ _ _ => true | .ba _ _ => true | .bb _ _ => true
      | _ => false
    else if b = 53 then c.xe.copies.any fun k => k.running m.now
    else c.flight.any fun r => match r.dest with
      | .search _ _ _ _ _ _ => true | .hvctl _ => true | .h _ _ _ => true | .kBundle _ _ _ _ _ _ => true | .kImage _ _ _ => true | .kClear _ _ => true | .valid _ _ _ => true
      | .hgput _ _ _ _ => true | .gd _ _ _ => true
      | _ => false

/-- At the end of a cycle: a deferred sleep whose domain still has writes to come moves beyond the next cycle (R118). -/
def Mach.deferSleeps (m : Mach) (ds : List DomRef) : Mach :=
  ds.foldl (fun m d => match (m.dom d).pend with
    | some (t, off) => if (m.dom d).st == .on && m.domBusy d then m.setDom d { (m.dom d) with pend := some (max t (m.now + 2), off) } else m
    | none => m) m

/-! ### Contents of domains (R116) -/

/-- Rows 4k to 4k + 3 of a vector register cleared. -/
def clearCluster (k : Nat) (v : BitVec 32768) : BitVec 32768 :=
  maskImage (BitVec.ofNat 1024 ((2 ^ 256 - 1) * 2 ^ (256 * k))) 0 v

/-- A domain's registers or bytes read zero (R116). -/
def Mach.clearDom (m : Mach) (d : DomRef) : Mach :=
  match d with
  | .quad q s => m.setPadMem (.quad q) ((m.padMem (.quad q)).filter fun c => (Pad.quad q).unit c.1 != s)
  | .die k s => m.setPadMem (.die k) ((m.padMem (.die k)).filter fun c => (Pad.die k).unit c.1 != s)
  | .core n b =>
    if b < 48 then m.setPadMem (.core n) ((m.padMem (.core n)).filter fun c => bankOf c.1 != b)
    else m.modCore n fun c =>
      if b < 52 then { c with vec := { c.vec with v := c.vec.v.map (clearCluster (b - 48)) } }
      else if b = 52 then { c with mx := { c.mx with acc := c.mx.acc.map fun _ => 0, ba := c.mx.ba.map fun _ => 0, bb := c.mx.bb.map fun _ => 0 } }
      else if b = 53 then c
      else { c with hv := { c.hv with h := c.hv.h.map fun _ => 0, k := c.hv.k.map fun _ => 0, gd := c.hv.gd.map fun _ => (0, 0, 0), hvctl := 0 } }

/-- The owned segments of a core become OFF and lose their format (R88, R121), but for those that an ended task still holds (R150). -/
def Mach.segsOff (m : Mach) (core : Nat) : Mach :=
  let off (p : Pad) (m : Mach) (s : Nat) : Mach :=
    if core < 96 && m.lingered (p.dom s) then m else (m.setDom (p.dom s) Dom.offDom).setFmtReg p s 0
  match (m.core core).bound with
  | none => m
  | some b =>
    let m := ((List.range 16).filter b.ownQ.getLsbD).foldl (off (.quad (quadOf core))) m
    ((List.range 32).filter b.ownD.getLsbD).foldl (off (.die (dieOf core))) m

/-- The last lingering stream of core 96 + n is released (R121, R150): what it held becomes OFF, and the control core of the task bound to core n
receives a release event (R163). -/
def Mach.shed (m : Mach) (core : Nat) : Mach :=
  let m := (m.segsOff core).modCore core fun c =>
    { c with doms := List.replicate 55 Dom.offDom, bound := c.bound.map fun b => { b with ownQ := 0, ownD := 0, left := [], release := [] } }
  if (m.core (core - 96)).bound.isSome then m.modCore (core - 96) fun c => c.raise m.now 0x3000000000000000 else m

/-- The domains that what is left of an ended task's core still uses (R150): the engines of its lingering streams, and every bank or segment that
its copies in flight read or write. -/
def Mach.heldDoms (m : Mach) (core : Nat) : List DomRef :=
  let engine (st : Nat) : List Nat := match st with | 1 => [48, 49, 50, 51] | 2 => [52] | 3 => [53] | 4 => [54] | _ => []
  match (m.core core).bound with
  | none => []
  | some b =>
    if b.left.isEmpty then []
    else (b.left.flatMap engine).map (DomRef.core core) ++
      (m.copySpans core true m.now ++ m.copySpans core false m.now).flatMap fun s => (s.1.units s.2.1 s.2.2).map s.1.dom

/-- DOMAIN_ON (R115, R116): a WAKING domain whose latency has passed is ON; woken from OFF, it reads zero. -/
def execDomainOn (d : DomRef) (s : State) : Host.Outcome State Fault Refusal :=
  let m := s.m
  match (m.dom d).st with
  | .waking fromOff t =>
    if t ≤ m.now then
      let m := m.setDom d { (m.dom d) with st := .on }
      .next { s with m := if fromOff then m.clearDom d else m }
    else .next s
  | _ => .next s

/-- DEFERRED_SLEEP (R118): a domain whose sleep is due enters RETAIN or OFF. -/
def execDeferredSleep (d : DomRef) (s : State) : Host.Outcome State Fault Refusal :=
  let m := s.m
  let x := m.dom d
  match x.pend with
  | some (t, off) =>
    if t ≤ m.now then
      let st : DomState := match x.st with | .off => .off | _ => if off then .off else .retain
      let m := m.setDom d { st := st, pend := none, slept := 0 }
      .next { s with m := match x.st with | .waking true _ => m.clearDom d | _ => m }
    else .next s
  | none => .next s

/-! ### WAKE, SLEEP and PDQ (R112 to R120, R217, R218) -/

/-- The domains of a mask at a core (R112); none where its space is 11. -/
def maskDoms (core : Nat) (mask : W64) : Option (List DomRef) :=
  match (bits mask 62 2).toNat with
  | 0 => some (((List.range 55).filter mask.getLsbD).map (DomRef.core core))
  | 1 => some (((List.range 16).filter mask.getLsbD).map (DomRef.quad (quadOf core)))
  | 2 => some (((List.range 32).filter mask.getLsbD).map (DomRef.die (dieOf core)))
  | _ => none

/-- Whether a core owns a domain (R120). -/
def Mach.owns (m : Mach) (core : Nat) (d : DomRef) : Bool :=
  match d, (m.core core).bound with
  | .core _ _, _ => true
  | .quad q s, some b => q == quadOf core && b.ownQ.getLsbD s
  | .die k s, some b => k == dieOf core && b.ownD.getLsbD s
  | _, none => false

/-- F.SPRANGE and F.OWNER of a mask (R112, R120, R150). -/
def Mach.maskTraps (m : Mach) (mask : W64) : List Trap :=
  match maskDoms m.cur mask with
  | none => [⟨Code.sprange, 0, 0⟩]
  | some ds => trapUnless (ds.all fun d => m.owns m.cur d && !m.lingered d) Code.owner 0 0

/-- The domains a WAKE starts: OFF or in RETAIN. -/
def Mach.newWakes (m : Mach) (mask : W64) : List DomRef :=
  ((maskDoms m.cur mask).getD []).filter fun d => (m.dom d).st == .off || (m.dom d).st == .retain

/-- What WAKE uses, its holds and faults. -/
def useSWake (l : Lane) (m : Mach) : SUse :=
  let mask := m.me.sreg l.a.toNat
  { SUse.none with regs := [l.a.toNat],
                   traps := m.maskTraps mask ++
                     trapUnless (wakesFit (m.wakesOf m.cur) m.now ((m.newWakes mask).map m.wakeCost)) Code.inrush 0 0 }

/-- WAKE (R115, R120, R217). It cancels a sleep in its own cycle: lanes of streams after S that issue in it may use the domain (log entry 53). -/
def execSWake (l : Lane) (s : State) : Host.Outcome State Fault Refusal :=
  runS l noInc
    (useSWake l)
    (fun m =>
      let mask := m.me.sreg l.a.toNat
      let new := m.newWakes mask
      let m := ((maskDoms m.cur mask).getD []).foldl (fun m d =>
        if (m.dom d).st == .on then m.setDom d { (m.dom d) with pend := none, slept := 0 } else m) m
      .done (new.foldl (fun m d => m.startWake d m.now) m) 0) s

/-- The state of an open buffer in a bank or segment: BST of its format register. -/
def Mach.bstOfDom (m : Mach) (d : DomRef) : Nat :=
  match d with
  | .core n b => if b < 48 then bstOf (m.fmtReg (.core n) b) else 0
  | .quad q s => bstOf (m.fmtReg (.quad q) s)
  | .die k s => bstOf (m.fmtReg (.die k) s)

/-- What SLEEP uses, its holds and faults. -/
def useSSleep (l : Lane) (m : Mach) : SUse :=
  let mask := m.me.sreg l.a.toNat
  { SUse.none with regs := [l.a.toNat],
                   traps := m.maskTraps mask ++
                     trapUnless (((maskDoms m.cur mask).getD []).all fun d => m.bstOfDom d == 0) Code.bufstate 0 0 }

/-- SLEEP (R118, R120, R217): FN 000 retain, 001 off. -/
def execSSleep (l : Lane) (s : State) : Host.Outcome State Fault Refusal :=
  runS l noInc
    (useSSleep l)
    (fun m =>
      let ds := (maskDoms m.cur (m.me.sreg l.a.toNat)).getD []
      .done (ds.foldl (fun m d => match (m.dom d).st with
        | .off => m
        | .retain => if l.fn == 1 then m.setDom d { (m.dom d) with pend := some (m.now + 1, true) } else m
        | _ => m.setDom d { (m.dom d) with pend := some (m.now + 1, l.fn == 1),
                                           slept := if (m.dom d).pend.isNone then m.now else (m.dom d).slept }) m) 0) s

/-- A power-state register of a core (R113, R150, R188): `sel` bits 1:0 the register, bits 3:2 the space. -/
def Mach.powerReg (m : Mach) (core sel : Nat) : W64 :=
  let space := sel / 4 % 4
  let ds := match space with
    | 0 => (List.range 55).map (DomRef.core core)
    | 1 => (List.range 16).map (DomRef.quad (quadOf core))
    | _ => ((List.range 32).filter (m.segInPart core (dieOf core))).map (DomRef.die (dieOf core))
  let is (d : DomRef) : Bool := match (m.domSeen d).st, sel % 4 with
    | .on, 0 => true
    | .retain, 1 => true
    | .waking _ _, 2 => true
    | _, _ => false
  BitVec.ofNat 64 (space * 2 ^ 62 + ds.foldl (fun a d => a + (if is d then 2 ^ domBit d else 0)) 0)

/-- PDQ (R218). -/
def execSPdq (l : Lane) (s : State) : Host.Outcome State Fault Refusal :=
  runS l noInc (fun _ => SUse.ops [] l.dst.toNat) (fun m => .done (m.write .s 1 (.s l.dst (m.powerReg m.cur l.litU)) 0) 0) s

/-! ### BKFMT (R88, R219, R442) -/

/-- The scratchpad and number that a BKFMT selector names; none where it is out of range (R219). -/
def Mach.fmtSelect (m : Mach) (v : W64) : Option (Pad × Nat) :=
  let n := v.toNat % 64
  let space := v.toNat / 256 % 4
  if v.toNat / 1024 != 0 || v.toNat / 64 % 4 != 0 then none
  else match space with
    | 0 => if n < 48 then some (.core m.cur, n) else none
    | 1 => if n < 16 then some (.quad (quadOf m.cur), n) else none
    | 2 => if n < 32 && m.segInPart m.cur (dieOf m.cur) n then some (.die (dieOf m.cur), n) else none
    | _ => none

/-- The bank or segment that a selector's two fields name, its other bits aside; none where there is no such one. -/
def Mach.fmtNamed (m : Mach) (v : W64) : Option (Pad × Nat) :=
  let n := v.toNat % 64
  match v.toNat / 256 % 4 with
  | 0 => if n < 48 then some (.core m.cur, n) else none
  | 1 => if n < 16 then some (.quad (quadOf m.cur), n) else none
  | 2 => if n < 32 then some (.die (dieOf m.cur), n) else none
  | _ => none

/-- Whether a change of a format register meets an open buffer or an access still to come (R88, R442). -/
def Mach.fmtInUse (m : Mach) (p : Pad) (n : Nat) (v : W64) : Bool :=
  let old := m.fmtReg p n
  (fmtOf old != v.toNat % 32 || classOf old != v.getLsbD 13) && (bstOf old != 0 || m.padBusy p n)

/-- The faults of a BKFMT.set with a selector and a value (R88, R219): R54 picks among all that apply. -/
def Mach.fmtSetTraps (m : Mach) (sel v : W64) : List Trap :=
  trapUnless (match m.fmtNamed sel with | some (p, n) => m.owns m.cur (p.dom n) | none => true) Code.owner 0 0 ++
  trapUnless (v.toNat % 32 ≤ 0x15 && v.toNat / 32 % 256 == 0 && v.toNat / 2 ^ 16 == 0 &&
      !(match m.fmtNamed sel with | some (p, n) => m.fmtInUse p n v | none => false)) Code.bankfmt 0 0 ++
  trapUnless (m.fmtSelect sel).isSome Code.sprange 0 0

/-- The space code of a scratchpad in a format write. -/
def Pad.code : Pad → BitVec 2
  | .core _ => 0
  | .quad _ => 1
  | .die _ => 2

/-- What BKFMT.set uses, its holds and faults. -/
def useSBkfmtSet (l : Lane) (m : Mach) : SUse :=
  { SUse.none with regs := [l.a.toNat, l.b.toNat],
                   traps := m.fmtSetTraps (m.me.sreg l.a.toNat) (m.me.sreg l.b.toNat) }

/-- BKFMT.set (R219). -/
def execSBkfmtSet (l : Lane) (s : State) : Host.Outcome State Fault Refusal :=
  runS l noInc
    (useSBkfmtSet l)
    (fun m =>
      let v := m.me.sreg l.b.toNat
      match m.fmtSelect (m.me.sreg l.a.toNat) with
      | some (p, n) => .done (m.write .s 1 (.fmt p.code n (bits v 0 5) (v.getLsbD 13)) 0) 0
      | none => .done m 0) s

/-- What BKFMT.get uses, its holds and faults. -/
def useSBkfmtGet (l : Lane) (m : Mach) : SUse :=
  { SUse.ops [] l.dst.toNat with regs := [l.a.toNat],
                                 traps := trapUnless (m.fmtSelect (m.me.sreg l.a.toNat)).isSome Code.sprange 0 0 }

/-- BKFMT.get (R219). -/
def execSBkfmtGet (l : Lane) (s : State) : Host.Outcome State Fault Refusal :=
  runS l noInc
    (useSBkfmtGet l)
    (fun m =>
      match m.fmtSelect (m.me.sreg l.a.toNat) with
      | some (p, n) => .done (m.write .s 1 (.s l.dst ((m.fmtReg p n).setWidth 64)) 0) 0
      | none => .done m 0) s

end Sys2Proof.Machine
end

