-- ==== Sys2Proof/Machine/Rv64.lean ====
section
/-! DEFINITION. The standard instructions of the control core: RV64IMAC with Zicsr and Zifencei in machine mode (R151, R152, R154),
its CSRs (R155, R156) and its exceptions (R157). -/
namespace Sys2Proof.Machine

/-! ### Registers and the common part of an instruction -/

/-- An x register as read: x0 reads 0. -/
def Ctl.xr (c : Ctl) (r : XReg) : W64 := if r = 0 then 0 else nth c.x r.toNat 0

/-- An x register written: x0 discards it. -/
def Ctl.setX (c : Ctl) (r : XReg) (v : W64) : Ctl := if r = 0 then c else { c with x := c.x.set r.toNat v }

/-- How an instruction of the control core ends in a cycle. -/
inductive CtlOut where
  /-- It completes: the machine with its effect, the next pc, and its cycles (R154). -/
  | done (m : Mach) (next : W64) (cycles : Nat)
  /-- It raises a synchronous exception (R154, R157). -/
  | except (cause : Nat) (tval : W64)
  /-- It waits and tries again in the next cycle. -/
  | wait (m : Mach)

/-- An instruction of the control core of the core being served (R154). -/
def runCtl (body : Mach → CtlOut) (s : State) : Host.Outcome State Fault Refusal :=
  match body s.m with
  | .done m next n => .next { s with m := m.modCtl fun c =>
      { c with pc := next, ready := s.m.now + n, wait := none, minstret := c.minstret + 1 } }
  | .except k v => .next { s with m := s.m.modCtl fun c => c.except k v.toNat s.m.now }
  | .wait m => .next { s with m := m.modCtl fun c => { c with ready := s.m.now + 1 } }

/-- The address after a 32-bit instruction. -/
def Ctl.pc4 (c : Ctl) : W64 := c.pc + 4

/-- An instruction that completes in `n` cycles with a change of the control core alone. -/
def ctlDone (m : Mach) (n : Nat) (f : Ctl → Ctl) : CtlOut := .done (m.modCtl f) m.me.ctl.pc4 n

/-! ### Arithmetic (RV64I and M) -/

/-- A 32-bit result, sign-extended. -/
def sext32 (v : W32) : W64 := v.signExtend 64

/-- RV64I arithmetic and logic. -/
def RvAlu.eval (op : RvAlu) (a b : W64) : W64 :=
  match op with
  | .add => a + b
  | .sub => a - b
  | .sll => a <<< (b.toNat % 64)
  | .slt => if a.toInt < b.toInt then 1 else 0
  | .sltu => if a.toNat < b.toNat then 1 else 0
  | .xor => a ^^^ b
  | .srl => a >>> (b.toNat % 64)
  | .sra => a.sshiftRight (b.toNat % 64)
  | .or => a ||| b
  | .and => a &&& b

/-- The W forms: on the low words, the result sign-extended. -/
def RvAlu.evalW (op : RvAlu) (a b : W64) : W64 :=
  let x : W32 := a.setWidth 32
  let y : W32 := b.setWidth 32
  match op with
  | .sub => sext32 (x - y)
  | .sll => sext32 (x <<< (y.toNat % 32))
  | .srl => sext32 (x >>> (y.toNat % 32))
  | .sra => sext32 (x.sshiftRight (y.toNat % 32))
  | _ => sext32 (x + y)

/-- The M extension: a division by zero gives all ones or the dividend, and the overflowing one its dividend and 0. -/
def RvMul.eval (op : RvMul) (a b : W64) : W64 :=
  match op with
  | .mul => a * b
  | .mulh => mulHigh 0 a b
  | .mulhsu => mulHigh 2 a b
  | .mulhu => mulHigh 1 a b
  | .div => divq 0 a b
  | .divu => divq 1 a b
  | .rem => divq 2 a b
  | .remu => divq 3 a b

/-- The W forms of the M extension. -/
def RvMul.evalW (op : RvMul) (a b : W64) : W64 :=
  let sx := sext32 (a.setWidth 32)
  let sy := sext32 (b.setWidth 32)
  let ux : W64 := (a.setWidth 32 : W32).setWidth 64
  let uy : W64 := (b.setWidth 32 : W32).setWidth 64
  let r := match op with
    | .div => divq 0 sx sy
    | .divu => divq 1 ux uy
    | .rem => divq 2 sx sy
    | .remu => divq 3 ux uy
    | _ => sx * sy
  sext32 (r.setWidth 32)

/-- Cycles of the M extension (R154). -/
def RvMul.cycles : RvMul → Nat
  | .div => 18
  | .divu => 18
  | .rem => 18
  | .remu => 18
  | _ => 3

/-- Branch conditions. -/
def RvCond.holds (k : RvCond) (a b : W64) : Bool :=
  match k with
  | .eq => a == b
  | .ne => a != b
  | .lt => a.toInt < b.toInt
  | .ge => b.toInt ≤ a.toInt
  | .ltu => a.toNat < b.toNat
  | .geu => b.toNat ≤ a.toNat

/-! ### Memory of the control core (R152, R170) -/

/-- Bytes of an access. -/
def RvWidth.bytes : RvWidth → Nat
  | .b => 1
  | .h => 2
  | .w => 4
  | .d => 8

/-- The control store's first address (R152). -/
def cstoreBase : Nat := 0x01000000

/-- Whether the frame is complete (CSTATE.HELD). -/
def Core.held (c : Core) : Bool := match c.stop with | some p => p.held | none => false

/-- A load (R152): the value, or the cause of its exception. Misaligned accesses raise the standard misaligned exceptions
(log entry 17). `amo`: only frame memory answers. -/
def Core.ctlLoad (c : Core) (a n : Nat) (amo : Bool) : Except Nat Nat :=
  if a % n != 0 then .error 4
  else if a + n ≤ 0x10000 then .ok (c.frame.value a n)
  else if !amo && cstoreBase ≤ a && a + n ≤ cstoreBase + 0x8000 then .ok (c.cstore.value (a - cstoreBase) n)
  else .error 5

/-- Whether a store may write frame memory at an address (R152, R170): program data, or SREG and PREG while HELD is 1. -/
def Core.storable (c : Core) (a n : Nat) : Bool :=
  a + n ≤ 0x1000 || (c.held && 0x1080 ≤ a && a + n ≤ 0x1188)

/-- A store (R152): the core with the bytes written, or the cause of its exception. -/
def Core.ctlStore (c : Core) (a n v : Nat) : Except Nat Core :=
  if a % n != 0 then .error 6
  else if c.storable a n then .ok { c with frame := c.frame.writeBlock a (leBytes n v) }
  else .error 7

/-- The value a read-modify-write leaves, on `n` bits. -/
def RvAmo.eval (op : RvAmo) (n old v : Nat) : Nat :=
  let x := decInt n true old
  let y := decInt n true v
  match op with
  | .swap => v
  | .add => (old + v) % 2 ^ n
  | .xor => old ^^^ v
  | .and => old &&& v
  | .or => old ||| v
  | .min => if x ≤ y then old else v
  | .max => if x ≤ y then v else old
  | .minu => if old ≤ v then old else v
  | .maxu => if old ≤ v then v else old

/-! ### CSRs (R155 to R157) -/

/-- Whether an event of a stream's sequencer leaves CSTATE.BUSY at 1 (R156): a stream that a stop finds in its last lane has not finished
(R27, R47). -/
def Core.busy (c : Core) (now : Nat) : Bool :=
  c.seq.cur.isSome && c.seq.streams.any fun s => match s.doneAt with
    | none => true
    | some t => match c.stop with | some p => p.cyc ≤ t | none => now < t

/-- CSTATE (R156). -/
def Core.cstate (c : Core) (now : Nat) : W64 :=
  let b (x : Bool) (k : Nat) : Nat := if x then 2 ^ k else 0
  let p := c.stop
  BitVec.ofNat 64 (c.seq.queue.length * 32 + b (match p with | some p => p.reissue.isSome && p.held | none => false) 3 +
    b (match p with | some p => p.hold.isSome | none => false) 2 + b c.held 1 + b (c.busy now) 0)

/-- mip in a cycle (R157). -/
def Core.mip (c : Core) (now : Nat) : W64 :=
  (if c.ctl.ctip then 0x1000000 else 0) |||
  (if c.ctl.timecmp.toNat ≤ (c.ctl.mcycle now).toNat then 0x80 else 0) |||
  (if c.events.q.isEmpty then 0 else 0x10000)

/-- The interrupts of R157 as bits of mie and mip. -/
def irqMask : W64 := 0x1010080

/-- The interrupt that is taken before the next instruction (R157): code 24 first, then 7, then 16. -/
def Core.irq (c : Core) (now : Nat) : Option Nat :=
  let p := c.mip now &&& c.ctl.mie
  if !c.ctl.mieBit || c.ctl.wait.isSome then none
  else if p.getLsbD 24 then some 24
  else if p.getLsbD 7 then some 7
  else if p.getLsbD 16 then some 16
  else none

/-- misa of RV64IMAC. -/
def misa : W64 := 0x8000000000001105

/-- A CSR as read in a cycle; none where it does not exist (R155, and the machine-mode CSRs of the RISC-V privileged specification:
mhpmcounters and mhpmevents 3 to 31, mcountinhibit, mconfigptr and the identification registers read 0, and mhartid reads the core's linear number in its
task, so that a run reads the same wherever its partition lies, R105; log entry 4). -/
def Mach.csrRead (m : Mach) (n : Nat) : Option W64 :=
  let c := m.me
  let k := c.ctl
  match n with
  | 0x300 => some (k.mstatus &&& 0x88 ||| 0x1800)
  | 0x301 => some misa
  | 0x304 => some k.mie
  | 0x305 => some k.mtvec
  | 0x320 => some 0
  | 0x340 => some k.mscratch
  | 0x341 => some k.mepc
  | 0x342 => some k.mcause
  | 0x343 => some k.mtval
  | 0x344 => some (c.mip m.now)
  | 0xB00 => some (k.mcycle m.now)
  | 0xB02 => some k.minstret
  | 0xF11 => some 0
  | 0xF12 => some 0
  | 0xF13 => some 0
  | 0xF14 => some (BitVec.ofNat 64 ((c.bound.map Bind.linear).getD 0))
  | 0xF15 => some 0
  | 0x7C0 => some (k.nflags.setWidth 64)
  | 0x7C1 => some (k.dbgNext.setWidth 64)
  | 0x7C2 => some k.timecmp
  | 0xFC0 => some (c.cstate m.now)
  | 0xFC1 => some (BitVec.ofNat 64 c.events.q.length)
  | 0xFC2 => some (BitVec.ofNat 64 ((c.bound.map Bind.cperiod).getD 0))
  | n =>
    if 0xBC0 ≤ n && n ≤ 0xBDF then some ((nth k.cbank (n - 0xBC0) 0).setWidth 64)
    else if (0xB03 ≤ n && n ≤ 0xB1F) || (0x323 ≤ n && n ≤ 0x33F) then some 0
    else none

/-- A standard CSR written: fields without meaning keep their legal value, and read-only contents ignore the write (R151, R157). -/
def Ctl.csrWrite (k : Ctl) (n : Nat) (v : W64) : Ctl :=
  match n with
  | 0x300 => { k with mstatus := (v &&& 0x88) ||| 0x1800 }
  | 0x304 => { k with mie := v &&& irqMask }
  | 0x305 => { k with mtvec := v &&& 0xFFFFFFFFFFFFFFFD }
  | 0x340 => { k with mscratch := v }
  | 0x341 => { k with mepc := v &&& 0xFFFFFFFFFFFFFFFE }
  | 0x342 => { k with mcause := v }
  | 0x343 => { k with mtval := v }
  | _ => k

/-- The operand of a CSR instruction. -/
def CsrSrc.value (s : CsrSrc) (c : Ctl) : W64 :=
  match s with
  | .reg r => c.xr r
  | .imm v => v.setWidth 64

/-- Whether a CSR instruction writes. -/
def csrWrites (op : CsrOp) (src : CsrSrc) : Bool :=
  op == .rw || (match src with | .reg r => r != 0 | .imm v => v != 0)

/-- Whether R155 gives a CSR the access code RO: CSTATE, CEVTN and CPERIOD, whose writes are ignored (R4). -/
def csrIgnores (num : BitVec 12) : Bool := num == 0xFC0 || num == 0xFC1 || num == 0xFC2

/-- Whether a CSR instruction writes a CSR whose number marks it read-only and which R155 does not name: an illegal instruction (R151, log entry 17). -/
def csrRefused (op : CsrOp) (src : CsrSrc) (num : BitVec 12) : Bool := csrWrites op src && bits num 10 2 == 3 && !csrIgnores num

/-- The value a CSR instruction writes. -/
def CsrOp.eval (op : CsrOp) (old src : W64) : W64 :=
  match op with
  | .rw => src
  | .rs => old ||| src
  | .rc => old &&& ~~~src

/-- A CSR instruction on a CSR that exists: `write` stores its new value. -/
def csrOut (m : Mach) (op : CsrOp) (rd : XReg) (src : CsrSrc) (old : W64) (write : Ctl → W64 → Ctl) : CtlOut :=
  ctlDone m 1 fun c =>
    let v := CsrOp.eval op old (CsrSrc.value src c)
    (if csrWrites op src then write c v else c).setX rd old

/-! ### The instructions -/

/-- A branch or jump of an instruction `len` bytes long. -/
def jumpOut (m : Mach) (rd : XReg) (len : Nat) (target : W64) : CtlOut :=
  .done (m.modCtl fun c => c.setX rd (c.pc + BitVec.ofNat 64 len)) target 2

/-- A standard instruction, `len` bytes long (R151, R154). A write of CSTATE, CEVTN or CPERIOD, access RO in R155, is ignored (R4). Three points are
the model's choices, named in log entry 17: a write of any other CSR whose number marks it read-only is an illegal instruction, as Zicsr has it (R151);
an ebreak leaves its pc in mtval; and FENCE and FENCE.I, which R154's table does not list, take 1 cycle. -/
def rvOut (op : Rv) (len : Nat) (m : Mach) : CtlOut :=
  let c := m.me
  let k := c.ctl
  let next := k.pc + BitVec.ofNat 64 len
  let put (n : Nat) (rd : XReg) (v : W64) : CtlOut := .done (m.modCtl fun k => k.setX rd v) next n
  let addr (rs1 : XReg) (imm : BitVec 12) : Nat := (k.xr rs1 + imm.signExtend 64).toNat
  match op with
  | .lui rd imm => put 1 rd (sext32 (imm ++ 0#12))
  | .auipc rd imm => put 1 rd (k.pc + sext32 (imm ++ 0#12))
  | .jal rd off => jumpOut m rd len (k.pc + off.signExtend 64)
  | .jalr rd rs1 imm => jumpOut m rd len ((k.xr rs1 + imm.signExtend 64) &&& 0xFFFFFFFFFFFFFFFE)
  | .branch b rs1 rs2 off =>
    if RvCond.holds b (k.xr rs1) (k.xr rs2) then .done m (k.pc + off.signExtend 64) 2 else .done m next 1
  | .load w sg rd rs1 imm =>
    let a := addr rs1 imm
    match c.ctlLoad a (RvWidth.bytes w) false with
    | .ok v => put 2 rd (if sg then BitVec.ofInt 64 (decInt (8 * (RvWidth.bytes w)) true v) else BitVec.ofNat 64 v)
    | .error e => .except e (BitVec.ofNat 64 a)
  | .store w rs1 rs2 imm =>
    let a := addr rs1 imm
    match c.ctlStore a (RvWidth.bytes w) (k.xr rs2).toNat with
    | .ok c' => .done (m.setCore m.cur c') next 1
    | .error e => .except e (BitVec.ofNat 64 a)
  | .aluImm op rd rs1 imm => put 1 rd (RvAlu.eval op (k.xr rs1) (imm.signExtend 64))
  | .aluImmW op rd rs1 imm => put 1 rd (RvAlu.evalW op (k.xr rs1) (imm.signExtend 64))
  | .alu op rd rs1 rs2 => put 1 rd (RvAlu.eval op (k.xr rs1) (k.xr rs2))
  | .aluW op rd rs1 rs2 => put 1 rd (RvAlu.evalW op (k.xr rs1) (k.xr rs2))
  | .mul op rd rs1 rs2 => put (RvMul.cycles op) rd (RvMul.eval op (k.xr rs1) (k.xr rs2))
  | .mulW op rd rs1 rs2 => put (RvMul.cycles op) rd (RvMul.evalW op (k.xr rs1) (k.xr rs2))
  | .lr w64 _ _ rd rs1 =>
    let n := if w64 then 8 else 4
    let a := (k.xr rs1).toNat
    match c.ctlLoad a n true with
    | .ok v => .done (m.modCtl fun k => { k.setX rd (BitVec.ofInt 64 (decInt (8 * n) true v)) with resv := some a }) next 3
    | .error e => .except e (BitVec.ofNat 64 a)
  | .sc w64 _ _ rd rs1 rs2 =>
    let n := if w64 then 8 else 4
    let a := (k.xr rs1).toNat
    match c.ctlStore a n (k.xr rs2).toNat with
    | .ok c' =>
      let hit := k.resv == some a
      .done ((if hit then m.setCore m.cur c' else m).modCtl fun k => { k.setX rd (if hit then 0 else 1) with resv := none }) next 3
    | .error e => .except e (BitVec.ofNat 64 a)
  | .amo op w64 _ _ rd rs1 rs2 =>
    let n := if w64 then 8 else 4
    let a := (k.xr rs1).toNat
    let old := c.frame.value a n
    match c.ctlStore a n (RvAmo.eval op (8 * n) old ((k.xr rs2).toNat % 2 ^ (8 * n))) with
    | .ok c' => .done ((m.setCore m.cur c').modCtl fun k => k.setX rd (BitVec.ofInt 64 (decInt (8 * n) true old))) next 3
    | .error e => .except e (BitVec.ofNat 64 a)
  | .fence _ _ _ _ _ => .done m next 1
  | .fenceI _ _ _ => .done m next 1
  | .ecall => .except 11 0
  | .ebreak => .except 3 k.pc
  | .csr op rd src num =>
    match m.csrRead num.toNat with
    | some old =>
      if csrRefused op src num then .except 2 ((encodeCsr op rd src num).setWidth 64)
      else csrOut m op rd src old fun k v => k.csrWrite num.toNat v
    | none => .except 2 ((encodeCsr op rd src num).setWidth 64)
  | .mret => .done (m.modCtl fun k => k.mret m.now) k.mepc 2
  | .wfi =>
    if (c.mip m.now &&& k.mie) != 0 then .done m next 1
    else .wait (m.modCtl fun k => { k with wait := some .wfi })
  | .illegal w => .except 2 (if len = 2 then (w.setWidth 16 : BitVec 16).setWidth 64 else w.setWidth 64)

/-- A standard instruction of the control core (R151). -/
def execRv64Instruction (i : RvIns) (s : State) : Host.Outcome State Fault Refusal :=
  runCtl (rvOut i.op (if i.short then 2 else 4)) s

/-- A write of NFLAGS (R69, R155): csrrw clears the flags set in its operand, csrrc those set in its mask, csrrs none; flags set in the
same cycle stay. -/
def execNflagsWrite (op : CsrOp) (rd : XReg) (src : CsrSrc) (s : State) : Host.Outcome State Fault Refusal :=
  runCtl (fun m =>
    ctlDone m 1 fun k =>
      let keep : Flags := if k.nset.1 = m.now then k.nset.2 else 0
      let clear : Flags := if op = .rs then 0 else (CsrSrc.value src k).setWidth 6 &&& ~~~keep
      { k.setX rd (k.nflags.setWidth 64) with nflags := k.nflags &&& ~~~clear }) s

/-- A write of DBGCTL (R92, R155), in force from the next block's t0. -/
def execDbgctlWrite (op : CsrOp) (rd : XReg) (src : CsrSrc) (s : State) : Host.Outcome State Fault Refusal :=
  runCtl (fun m => csrOut m op rd src (m.me.ctl.dbgNext.setWidth 64) fun k v => { k with dbgNext := v.setWidth 2 }) s

/-- A write of CTIMECMP (R155). -/
def execCtimecmpWrite (op : CsrOp) (rd : XReg) (src : CsrSrc) (s : State) : Host.Outcome State Fault Refusal :=
  runCtl (fun m => csrOut m op rd src m.me.ctl.timecmp fun k v => { k with timecmp := v }) s

/-- A write of CBANKn (R155), in force from the next block's t0. -/
def execCbankWrite (n : BitVec 5) (op : CsrOp) (rd : XReg) (src : CsrSrc) (s : State) : Host.Outcome State Fault Refusal :=
  runCtl (fun m => csrOut m op rd src ((nth m.me.ctl.cbank n.toNat 0).setWidth 64) fun k v =>
    { k with cbank := k.cbank.set n.toNat (v.setWidth 32) }) s

end Sys2Proof.Machine
end

