-- ==== Sys2Proof/Machine/Control.lean ====
section
/-! DEFINITION. The custom instructions of the control core (R177 to R188). -/
namespace Sys2Proof.Machine

/-! ### Blocks (R178, R179) -/

/-- Whether every line of a block has entered the block store (R57). -/
def Seq.validated (q : Seq) (num : Nat) : Bool :=
  match q.entry num with
  | some e => q.loading.all fun x => x.1 < e.first || e.first + e.count ≤ x.1
  | none => true

/-- cblk (R57, R178): it waits for its block's validation, and for room; of two bad operands rs1 is the one mtval names (log entry 17). -/
def execCblk (rs1 rs2 : XReg) (s : State) : Host.Outcome State Fault Refusal :=
  runCtl (fun m =>
    let k := m.me.ctl
    let num := (k.xr rs1).toNat
    let count := (k.xr rs2).toNat
    if 1024 ≤ num then .except 24 (k.xr rs1)
    else if 2 ^ 32 ≤ count then .except 24 (k.xr rs2)
    else if count = 0 then ctlDone m 1 id
    else if !m.me.seq.validated num || 4 ≤ m.me.seq.queue.length then .wait m
    else .done (m.modMe fun c => { c with seq := { c.seq with
      queue := c.seq.queue ++ [{ num := num, count := count, cyc := m.now }]
      jobs := c.seq.jobs ++ [{ num := num, line := 0, left := count - 1 }] } }) k.pc4 1) s

/-- cblkw (R179). -/
def execCblkw (s : State) : Host.Outcome State Fault Refusal :=
  runCtl (fun m => if m.me.seq.queue.isEmpty && !m.me.busy m.now && m.me.stop.isNone then ctlDone m 1 id else .wait m) s

/-! ### Events and semaphores (R180, R181) -/

/-- The oldest event popped; a record that waits for room enters the queue (R164). -/
def Core.popEvent (c : Core) : Core :=
  let left := c.events.q.length - 1 + c.events.held.length
  { c with events := { q := c.events.q.drop 1 ++ c.events.held.take 1, held := c.events.held.drop 1,
                       fresh := (c.events.fresh.1, min c.events.fresh.2 left) } }

/-- An event written to rd and popped. -/
def eventOut (m : Mach) (rd : XReg) (w : W64) : CtlOut :=
  .done ((m.modMe Core.popEvent).modCtl fun k => k.setX rd w) m.me.ctl.pc4 1

/-- cevt (R180). -/
def execCevt (rd : XReg) (s : State) : Host.Outcome State Fault Refusal :=
  runCtl (fun m => match m.me.events.q with
    | w :: _ => eventOut m rd w
    | [] => .wait m) s

/-- cevt.nb (R180). -/
def execCevtNb (rd : XReg) (s : State) : Host.Outcome State Fault Refusal :=
  runCtl (fun m => match m.me.events.q with
    | w :: _ => eventOut m rd w
    | [] => ctlDone m 1 fun k => k.setX rd 0) s

/-- A csem instruction with its number and n, after the checks of R181; of two bad operands rs1 is the one mtval names (log entry 17). -/
def semOut (rs1 rs2 : XReg) (f : Mach → Nat → Nat → CtlOut) (s : State) : Host.Outcome State Fault Refusal :=
  runCtl (fun m =>
    let k := m.me.ctl
    if 32 ≤ (k.xr rs1).toNat then .except 24 (k.xr rs1)
    else if 65536 ≤ (k.xr rs2).toNat then .except 24 (k.xr rs2)
    else f m (k.xr rs1).toNat (k.xr rs2).toNat) s

/-- csem.sig (R181). -/
def execCsemSig (rs1 rs2 : XReg) (s : State) : Host.Outcome State Fault Refusal :=
  semOut rs1 rs2 (fun m n k => .done (m.modMe fun c => c.semSignal n k) m.me.ctl.pc4 1) s

/-- csem.wait (R181). -/
def execCsemWait (rs1 rs2 : XReg) (s : State) : Host.Outcome State Fault Refusal :=
  semOut rs1 rs2 (fun m n k => match m.me.semTake n k with
    | some c => .done (m.setCore m.cur c) m.me.ctl.pc4 1
    | none => .wait m) s

/-- csem.try (R181). -/
def execCsemTry (rd rs1 rs2 : XReg) (s : State) : Host.Outcome State Fault Refusal :=
  semOut rs1 rs2 (fun m n k => match m.me.semTake n k with
    | some c => .done ((m.setCore m.cur c).modCtl fun k => k.setX rd 1) m.me.ctl.pc4 1
    | none => ctlDone m 1 fun k => k.setX rd 0) s

/-- csem.rd (R181). -/
def execCsemRd (rd rs1 : XReg) (s : State) : Host.Outcome State Fault Refusal :=
  semOut rs1 0 (fun m n _ => ctlDone m 1 fun k => k.setX rd (BitVec.ofNat 64 (m.me.semCount n))) s

/-- csem.set (R181). -/
def execCsemSet (rs1 rs2 : XReg) (s : State) : Host.Outcome State Fault Refusal :=
  semOut rs1 rs2 (fun m n k => .done (m.modMe fun c => c.setSem n k) m.me.ctl.pc4 1) s

/-! ### Boundaries and fences (R182) -/

/-- Whether a held stop has frozen all that a copy still has to write (R182). -/
def Copy.frozenBy (k : Copy) (stop : Option Stop) : Bool :=
  match stop with
  | some p => p.held && (if k.timed then (match k.doneAt with | some t => p.cyc ≤ t && k.units.all fun u => u.written || p.cyc ≤ u.depAt | none => true) else k.rows.isEmpty)
  | none => false

/-- What a cphase or cfence executed in this cycle waits for (R142, R182): what was issued before it. -/
def State.ctlWait (s : State) (fence : Bool) (scope : BitVec 4) : CtlWait := .mem fence scope s.m.now

/-- Whether the wait of a cphase or cfence is over. -/
def Mach.waitOver (m : Mach) (fence : Bool) (scope : BitVec 4) (cut : Nat) : Bool :=
  if fence then m.fenceReady m.cur false scope.toNat 0 cut
  else m.me.quietBut (fun k => k.frozenBy m.me.stop) scope.toNat m.now cut

/-- cphase and cfence: they wait for the accesses before them and then have effect; no interrupt is taken meanwhile (R182). -/
def memOut (fence : Bool) (scope : BitVec 4) (s : State) : Host.Outcome State Fault Refusal :=
  let w := match s.m.me.ctl.wait with
    | some w => w
    | none => s.ctlWait fence scope
  runCtl (fun m => match w with
    | .mem f x cut =>
      if m.waitOver f x cut then .done (if f then m else m.boundaryOf m.cur x cut) m.me.ctl.pc4 1
      else .wait (m.modCtl fun k => { k with wait := some w })
    | .wfi => .wait m) s

/-- cphase (R182). -/
def execCphase (scope : BitVec 4) (s : State) : Host.Outcome State Fault Refusal := memOut false scope s

/-- cfence (R142, R182). -/
def execCfence (scope : BitVec 4) (s : State) : Host.Outcome State Fault Refusal := memOut true scope s

/-! ### The frame (R175, R183 to R185) -/

/-- cframe.rep (R183): the fault goes to Feldspar as a service request. A core's tags count up from 0, and its exception 24, which rejects no operand,
leaves 0 in mtval: both are the model's choices (log entry 17). -/
def execCframeRep (rd : XReg) (s : State) : Host.Outcome State Fault Refusal :=
  runCtl (fun m =>
    let f := m.me.frame
    if !m.me.held || f.value 0x1000 1 = 0 then .except 24 0
    else ctlDone m 1 fun k =>
      { k.setX rd (k.repTag.setWidth 64) with
        repTag := k.repTag + 1
        requests := k.requests ++ [(k.repTag, BitVec.ofNat 32 (f.value 0x1000 4), BitVec.ofNat 32 (f.value 0x1004 4),
          BitVec.ofNat 64 (f.value 0x1008 8))] }) s

/-- The streams of a core at an end while they are stopped since cycle `S` (R148, R176, R421): the frame, the latches, the results held
in place, the block queue and the frozen engine operations are discarded; what had left the core still lands, and no further row of an open
copy is sent. -/
def Core.discard (c : Core) (S : Nat) : Core :=
  { c with
    stop := none, hold := none, flight := c.flight.filter fun r => !r.frozen S
    seq := { c.seq with queue := [], cur := none, jobs := [], loading := [], streams := List.replicate 5 StreamSt.idle }
    mx := { c.mx with ops := [], chain := none, due := none, joint := none, jheld := none }
    xe := { c.xe with copies := c.xe.copies.filterMap fun k =>
              if k.timed || k.refill.isSome then
                let us := k.units.filter fun u => u.depAt < S
                if us.isEmpty then none else some { k with units := us, chain := none }
              else if k.rows.isEmpty then none
              else some { k with chain := none, fault := k.fault.or (some (k.sent, 0, 0, 0)) } }
    port := { c.port with tiles := [], wakes := [] } }

/-- The end of a control program with a status (R184): no further block starts, and the swap of R148 begins. -/
def Core.endTask (c : Core) (status : Byte) : Core :=
  let c' := match c.stop with | some p => c.discard p.cyc | none => { c with seq := { c.seq with queue := [] } }
  { c' with
    ctl := { c'.ctl with ended := true }
    bound := c'.bound.map fun b => { b with endStat := some status, left := if c.stop.isSome then [] else [0, 1, 2, 3, 4], release := [] } }

/-- cframe.end (R184). -/
def execCframeEnd (rs1 : XReg) (s : State) : Host.Outcome State Fault Refusal :=
  runCtl (fun m =>
    let v := m.me.ctl.xr rs1
    if 256 ≤ v.toNat then .except 24 v
    else .done (m.modMe fun c => c.endTask (v.setWidth 8)) m.me.ctl.pc4 1) s

/-- The scalar registers as the handler left them in SREG and PREG (R171, R175). -/
def Core.reloadScalars (c : Core) : Core :=
  { c with scal := { c.scal with
    s := (List.range 32).map fun i => if i = 0 then 0 else BitVec.ofNat 64 (c.frame.value (0x1080 + 8 * i) 8)
    p := BitVec.ofNat 8 (c.frame.value 0x1180 1) ||| 1 } }

/-- The shadow fault of a frame delivered (R175): CAUSE, DETAIL and FADDR name the load, and its re-issue is pending. -/
def Core.deliverShadow (c : Core) (p : Stop) (code : Byte) (line lane : Nat) (addr : W64) : Core :=
  let cause := c.frame.value 0x1000 4
  let low := cause / 256 % 256 * 256 + code.toNat
  let f := c.frame.writeBlock 0x1000 (leBytes 4 (low + 2 ^ 25) ++ leBytes 4 0 ++ leBytes 8 (c.frame.value 0x1078 8))
  { c with
    frame := f
    stop := some { p with shadow := none, reissue := some (line, lane, addr) }
    ctl := { c.ctl with ctip := true } }

/-- cresume (R175): a shadow fault is delivered first; else the streams are set to restart. Its exception 24 leaves 0 in mtval (log entry 17). -/
def execCresume (s : State) : Host.Outcome State Fault Refusal :=
  runCtl (fun m =>
    let c := m.me
    match c.stop with
    | some p =>
      if !p.held then .except 24 0
      else match p.shadow with
        | some (code, line, lane, addr, _) => .done (m.modMe fun c => c.deliverShadow p code line lane addr) c.ctl.pc4 1
        | none => .done ((m.modMe Core.reloadScalars).setRestart m.cur m.now) c.ctl.pc4 1
    | none => .except 24 0) s

/-! ### Reading identifiers, the tile port and power states (R186 to R188) -/

/-- cwid (R186). -/
def execCwid (rd : XReg) (s : State) : Host.Outcome State Fault Refusal :=
  runCtl (fun m => ctlDone m 1 fun k => k.setX rd ((m.me.bound.map Bind.wid).getD 0)) s

/-- A word of a tile port (R187, R351). -/
def Core.portWord (c : Core) (now n : Nat) : W64 :=
  let r := c.port.record
  match n with
  | 0 => BitVec.ofNat 64 ((c.port.seqNo - 1) % 2 ^ 32 * 2 ^ 32 + (c.lcBusy now).toNat * 16 + (if r.isSome then 8 else 0) + (if c.port.active then 1 else 0))
  | 1 => (r.map fun x => x.1).getD 0
  | 2 => (r.map fun x => x.2.1).getD 0
  | _ => (r.map fun x => x.2.2).getD 0

/-- ctis (R187). -/
def execCtis (rd rs1 : XReg) (s : State) : Host.Outcome State Fault Refusal :=
  runCtl (fun m =>
    let v := m.me.ctl.xr rs1
    if 4 ≤ v.toNat then .except 24 v
    else ctlDone m 1 fun k => k.setX rd (m.me.portWord m.now v.toNat)) s

/-- cpds (R188). -/
def execCpds (rd rs1 : XReg) (s : State) : Host.Outcome State Fault Refusal :=
  runCtl (fun m =>
    let v := m.me.ctl.xr rs1
    if 16 ≤ v.toNat || v.toNat % 4 = 3 || v.toNat / 4 = 3 then .except 24 v
    else ctlDone m 1 fun k => k.setX rd (m.powerReg m.cur v.toNat)) s

end Sys2Proof.Machine
end

