-- ==== Sys2Proof/Machine/Crypto.lean ====
section
/-! DEFINITION. The block cipher SM4 and the hash SM3 (GB/T 32907, GB/T 32905), which the spec names and does not repeat, and the tags of
lines: SM4-CMAC of NIST SP 800-38B (R424; log entry 18). -/
namespace Sys2Proof.Machine

/-! ### SM4 -/

/-- The first half of the S-box of SM4. -/
def sboxLow : List Nat :=
  [0xd6, 0x90, 0xe9, 0xfe, 0xcc, 0xe1, 0x3d, 0xb7, 0x16, 0xb6, 0x14, 0xc2, 0x28, 0xfb, 0x2c, 0x05,
   0x2b, 0x67, 0x9a, 0x76, 0x2a, 0xbe, 0x04, 0xc3, 0xaa, 0x44, 0x13, 0x26, 0x49, 0x86, 0x06, 0x99,
   0x9c, 0x42, 0x50, 0xf4, 0x91, 0xef, 0x98, 0x7a, 0x33, 0x54, 0x0b, 0x43, 0xed, 0xcf, 0xac, 0x62] ++
  [0xe4, 0xb3, 0x1c, 0xa9, 0xc9, 0x08, 0xe8, 0x95, 0x80, 0xdf, 0x94, 0xfa, 0x75, 0x8f, 0x3f, 0xa6,
   0x47, 0x07, 0xa7, 0xfc, 0xf3, 0x73, 0x17, 0xba, 0x83, 0x59, 0x3c, 0x19, 0xe6, 0x85, 0x4f, 0xa8,
   0x68, 0x6b, 0x81, 0xb2, 0x71, 0x64, 0xda, 0x8b, 0xf8, 0xeb, 0x0f, 0x4b, 0x70, 0x56, 0x9d, 0x35] ++
  [0x1e, 0x24, 0x0e, 0x5e, 0x63, 0x58, 0xd1, 0xa2, 0x25, 0x22, 0x7c, 0x3b, 0x01, 0x21, 0x78, 0x87,
   0xd4, 0x00, 0x46, 0x57, 0x9f, 0xd3, 0x27, 0x52, 0x4c, 0x36, 0x02, 0xe7, 0xa0, 0xc4, 0xc8, 0x9e]

/-- The second half of the S-box of SM4. -/
def sboxHigh : List Nat :=
  [0xea, 0xbf, 0x8a, 0xd2, 0x40, 0xc7, 0x38, 0xb5, 0xa3, 0xf7, 0xf2, 0xce, 0xf9, 0x61, 0x15, 0xa1,
   0xe0, 0xae, 0x5d, 0xa4, 0x9b, 0x34, 0x1a, 0x55, 0xad, 0x93, 0x32, 0x30, 0xf5, 0x8c, 0xb1, 0xe3,
   0x1d, 0xf6, 0xe2, 0x2e, 0x82, 0x66, 0xca, 0x60, 0xc0, 0x29, 0x23, 0xab, 0x0d, 0x53, 0x4e, 0x6f] ++
  [0xd5, 0xdb, 0x37, 0x45, 0xde, 0xfd, 0x8e, 0x2f, 0x03, 0xff, 0x6a, 0x72, 0x6d, 0x6c, 0x5b, 0x51,
   0x8d, 0x1b, 0xaf, 0x92, 0xbb, 0xdd, 0xbc, 0x7f, 0x11, 0xd9, 0x5c, 0x41, 0x1f, 0x10, 0x5a, 0xd8,
   0x0a, 0xc1, 0x31, 0x88, 0xa5, 0xcd, 0x7b, 0xbd, 0x2d, 0x74, 0xd0, 0x12, 0xb8, 0xe5, 0xb4, 0xb0] ++
  [0x89, 0x69, 0x97, 0x4a, 0x0c, 0x96, 0x77, 0x7e, 0x65, 0xb9, 0xf1, 0x09, 0xc5, 0x6e, 0xc6, 0x84,
   0x18, 0xf0, 0x7d, 0xec, 0x3a, 0xdc, 0x4d, 0x20, 0x79, 0xee, 0x5f, 0x3e, 0xd7, 0xcb, 0x39, 0x48]

/-- The S-box. -/
def sbox (b : Nat) : Nat := if b < 128 then nth sboxLow b 0 else nth sboxHigh (b - 128) 0

/-- The S-box on each byte of a word. -/
def sboxWord (w : W32) : W32 :=
  BitVec.ofNat 32 (leValue ((leBytes 4 w.toNat).map fun b => BitVec.ofNat 8 (sbox b.toNat)))

/-- The mixing of an encryption round. -/
def sm4Mix (w : W32) : W32 :=
  let b := sboxWord w
  b ^^^ b.rotateLeft 2 ^^^ b.rotateLeft 10 ^^^ b.rotateLeft 18 ^^^ b.rotateLeft 24

/-- The mixing of a key round. -/
def sm4KeyMix (w : W32) : W32 :=
  let b := sboxWord w
  b ^^^ b.rotateLeft 13 ^^^ b.rotateLeft 23

/-- Four words of a block in progress. -/
abbrev Sm4Block := W32 × W32 × W32 × W32

/-- The constant of key round `i`. -/
def sm4Const (i : Nat) : W32 :=
  BitVec.ofNat 32 ((List.range 4).foldl (fun a j => a * 256 + (4 * i + j) * 7 % 256) 0)

/-- Round keys from round `i` on, `n` of them. -/
def sm4KeyLoop : Nat → Nat → Sm4Block → List W32
  | 0, _, _ => []
  | n + 1, i, (a, b, c, d) =>
    let k := a ^^^ sm4KeyMix (b ^^^ c ^^^ d ^^^ sm4Const i)
    k :: sm4KeyLoop n (i + 1) (b, c, d, k)

/-- A big-endian word of bytes. -/
def beWord (bs : List Byte) : W32 := BitVec.ofNat 32 (bs.foldl (fun a b => a * 256 + b.toNat) 0)

/-- The bytes of a word, the highest first. -/
def beBytes (w : W32) : List Byte := (leBytes 4 w.toNat).reverse

/-- Sixteen bytes as a block. -/
def sm4Load (bs : List Byte) : Sm4Block :=
  (beWord (bs.take 4), beWord ((bs.drop 4).take 4), beWord ((bs.drop 8).take 4), beWord ((bs.drop 12).take 4))

/-- The round keys of a 16-byte key. -/
def sm4Keys (key : List Byte) : List W32 :=
  let (a, b, c, d) := sm4Load key
  sm4KeyLoop 32 0 (a ^^^ 0xA3B1BAC6, b ^^^ 0x56AA3350, c ^^^ 0x677D9197, d ^^^ 0xB27022DC)

/-- The encryption of a block under round keys. -/
def sm4Block (ks : List W32) (bs : List Byte) : List Byte :=
  let (a, b, c, d) := ks.foldl (fun x k => match x with
    | (a, b, c, d) => (b, c, d, a ^^^ sm4Mix (b ^^^ c ^^^ d ^^^ k))) (sm4Load bs)
  beBytes d ++ beBytes c ++ beBytes b ++ beBytes a

/-- The exclusive or of two byte strings. -/
def xorBytes (a b : List Byte) : List Byte := a.zipWith (· ^^^ ·) b

/-- The first subkey of CMAC: the encryption of zero, doubled. -/
def cmacSubkey (ks : List W32) : List Byte :=
  let l : BitVec 128 := BitVec.ofNat 128 (leValue (sm4Block ks (List.replicate 16 0)).reverse)
  let d := (l <<< 1) ^^^ (if l.getLsbD 127 then 0x87 else 0)
  (imageBytes d).reverse

/-- The chaining of CMAC over whole blocks, the last one masked. -/
def cmacLoop (ks : List W32) (sub : List Byte) : List (List Byte) → List Byte → List Byte
  | [], x => x
  | [b], x => sm4Block ks (xorBytes (xorBytes x b) sub)
  | b :: r, x => cmacLoop ks sub r (sm4Block ks (xorBytes x b))

/-- The SM4-CMAC of three blocks. -/
def sm4Cmac (key : List Byte) (msg : List Byte) : List Byte :=
  let ks := sm4Keys key
  cmacLoop ks (cmacSubkey ks) [msg.take 16, (msg.drop 16).take 16, (msg.drop 32).take 16] (List.replicate 16 0)

/-- The blocks of a message of any length for CMAC, with whether the last one is whole: at most `n`. -/
def cmacBlocks : Nat → List Byte → List (List Byte) × Bool
  | 0, _ => ([], true)
  | n + 1, bs =>
    if 16 < bs.length then let r := cmacBlocks n (bs.drop 16); (bs.take 16 :: r.1, r.2)
    else if bs.length = 16 then ([bs], true)
    else ([bs ++ [0x80] ++ List.replicate (15 - bs.length) 0], false)

/-- A CMAC subkey doubled. -/
def cmacDouble (k : List Byte) : List Byte :=
  let l : BitVec 128 := BitVec.ofNat 128 (leValue k.reverse)
  (imageBytes ((l <<< 1) ^^^ (if l.getLsbD 127 then 0x87 else 0))).reverse

/-- The SM4-CMAC of a message of any length (R413). -/
def sm4CmacOf (key : List Byte) (msg : List Byte) : List Byte :=
  let ks := sm4Keys key
  let (blocks, whole) := cmacBlocks (msg.length / 16 + 1) msg
  let k1 := cmacSubkey ks
  cmacLoop ks (if whole then k1 else cmacDouble k1) blocks (List.replicate 16 0)

/-- The tag of a line (R424): `dom` 1 for a native line, 2 for a control line; `index` its record. -/
def lineTag (key : BitVec 128) (dom index : Nat) (line : List Byte) : W64 :=
  let msg := leBytes 1 dom ++ List.replicate 7 0 ++ leBytes 8 index ++ line
  BitVec.ofNat 64 (leValue ((sm4Cmac (imageBytes key) msg).take 8))

/-- Whether a line's tag matches (R424): a function without a key fails every tag. -/
def tagOk (key : Option (BitVec 128)) (dom index : Nat) (line : List Byte) (tag : W64) : Bool :=
  match key with
  | some k => lineTag k dom index line == tag
  | none => false

/-! ### SM3 -/

/-- The message expanded from `ws` (latest word first) by `n` words. -/
def sm3Expand : Nat → List W32 → List W32
  | 0, ws => ws
  | n + 1, ws =>
    let x := nth ws 15 0 ^^^ nth ws 8 0 ^^^ (nth ws 2 0).rotateLeft 15
    let y := x ^^^ x.rotateLeft 15 ^^^ x.rotateLeft 23
    sm3Expand n ((y ^^^ (nth ws 12 0).rotateLeft 7 ^^^ nth ws 5 0) :: ws)

/-- One compression round with its words. -/
def sm3Round (v : List W32) (j : Nat) (w w4 : W32) : List W32 :=
  let g (i : Nat) : W32 := nth v i 0
  let t : W32 := (if j < 16 then 0x79CC4519 else 0x7A879D8A : W32).rotateLeft (j % 32)
  let s1 := ((g 0).rotateLeft 12 + g 4 + t).rotateLeft 7
  let s2 := s1 ^^^ (g 0).rotateLeft 12
  let ff := if j < 16 then g 0 ^^^ g 1 ^^^ g 2 else (g 0 &&& g 1) ||| (g 0 &&& g 2) ||| (g 1 &&& g 2)
  let gg := if j < 16 then g 4 ^^^ g 5 ^^^ g 6 else (g 4 &&& g 5) ||| (~~~(g 4) &&& g 6)
  let t1 := ff + g 3 + s2 + (w ^^^ w4)
  let t2 := gg + g 7 + s1 + w
  [t1, g 0, (g 1).rotateLeft 9, g 2, t2 ^^^ t2.rotateLeft 9 ^^^ t2.rotateLeft 17, g 4, (g 5).rotateLeft 19, g 6]

/-- Rounds from `j` on over the expanded words. -/
def sm3Rounds (ws : List W32) : Nat → Nat → List W32 → List W32
  | 0, _, v => v
  | n + 1, j, v => sm3Rounds ws n (j + 1) (sm3Round v j (nth ws j 0) (nth ws (j + 4) 0))

/-- One block of 64 bytes compressed. -/
def sm3Block (v : List W32) (bs : List Byte) : List W32 :=
  let w := (List.range 16).map fun i => beWord ((bs.drop (4 * i)).take 4)
  let ws := (sm3Expand 52 w.reverse).reverse
  (sm3Rounds ws 64 0 v).zipWith (· ^^^ ·) v

/-- Blocks compressed one after the other, at most `n`. -/
def sm3Loop : Nat → List Byte → List W32 → List W32
  | 0, _, v => v
  | n + 1, bs, v => match bs with
    | [] => v
    | _ => sm3Loop n (bs.drop 64) (sm3Block v (bs.take 64))

/-- SM3 of a byte string, as its 32 bytes in order, the first in bits 7:0. -/
def sm3 (bs : List Byte) : BitVec 256 :=
  let pad := (119 - bs.length % 64) % 64
  let msg := bs ++ [(0x80 : Byte)] ++ List.replicate pad 0 ++ (leBytes 8 (8 * bs.length)).reverse
  let v := sm3Loop (msg.length / 64) msg
    [0x7380166f, 0x4914b2b9, 0x172442d7, 0xda8a0600, 0xa96f30bc, 0x163138aa, 0xe38dee4d, 0xb0fb0e4e]
  bytesImage 256 (v.flatMap beBytes)

end Sys2Proof.Machine
end

