-- ==== Sys2Proof/Machine/Tile.lean ====
section
/-! DEFINITION. Tile instructions of level L at a core's port (R215, R342, R346 to R350): acceptance and bookings, blocks, retirement and
records; and the operand fetcher of bound rings (R266, R348). -/
namespace Sys2Proof.Machine

/-! ### A port's plan of an instruction (R346) -/

/-- The tables of a core's port. -/
def Core.tileTables (c : Core) : TileTables :=
  { hnd := fun n => ((c.port.hnds.find? fun h => h.1 == n).map Prod.snd).getD 0
    desc := fun n => ((c.port.descs.find? fun d => d.1 == n).map Prod.snd).getD 0 }

/-- The scratchpad of a view at a core's port, where it may name it (R286, R340). -/
def TView.pad (v : TView) (core : Nat) : Option Pad :=
  match v.place with
  | 0 => some (.core core)
  | 1 => if v.qual = 0 then some (.quad (quadOf core)) else none
  | 2 => if v.qual = 0 then some (.die (dieOf core)) else none
  | _ => none

/-- Bytes of columns [c0, c1) of a view's row. -/
def TView.rowLen (v : TView) (c0 c1 : Nat) : Nat := (c1 * v.bits + 7) / 8 - c0 * v.bits / 8

/-- The scale bytes and band scales of row `i`, columns [c0, c1), that a T.SCALE writes and reads beside its elements (R359): addresses and
lengths. -/
def TView.besides (v : TView) (top i c0 c1 : Nat) : List (Nat × Nat) :=
  if top = 7 && v.scaled then [(v.scaleAddr i (c0 / 8), (c1 - c0 + 7) / 8), (v.bandAddr i, 2)] else []

/-- Whether the bytes of a view, scales and band scales included, lie in its scratchpad's range (R124, R340). -/
def Mach.viewInRange (m : Mach) (core top : Nat) (v : TView) (d : Nat × Nat) : Bool :=
  (v.pad core).isSome && (List.range d.1).all fun i =>
    let a := (v.elemAddr i 0).1
    0 ≤ a && m.inRange core v.place a.toNat (v.rowLen 0 d.2) && (v.besides top i 0 d.2).all fun x => m.inRange core v.place x.1 x.2

/-- The views an instruction reads, in view order: A, B, and D with ACC (R346). -/
def tileSources (t : Tile) (vs : List (Option TView)) : List (Nat × TView) :=
  ((vs[1]!.map fun v => (0, v)).toList ++ (vs[2]!.map fun v => (1, v)).toList ++ (if t.acc then (vs[0]!.map fun v => (2, v)).toList else []))

/-- The rows of a source view that rows [r0, r1) of the work read: one row serves every row of a broadcast view (R356). -/
def tileRows (top : Nat) (t : Tile) (w r0 r1 : Nat) : List Nat :=
  if w = 1 && top = 3 && t.auxb.getLsbD 0 then [0] else (List.range (r1 - r0)).map (r0 + ·)

/-- A block (R346): number, rank of its lane cluster, rows and columns. -/
structure LBlock where
  q    : Nat
  rank : Nat
  r0   : Nat
  r1   : Nat
  c0   : Nat
  c1   : Nat
  deriving DecidableEq, Repr

/-- The blocks of an instruction shared among `n` lane clusters, each taking its share row by row (R342, R346). -/
def tileBlocks (top : Nat) (t : Tile) (n width : Nat) : List LBlock :=
  let m := t.m.toNat
  let byRows := splitsM top m n 4
  let shares := if byRows then splitRange 0 m n 4 else splitRange 0 t.n.toNat n width
  ((List.range n).zip shares).flatMap fun s =>
    let (r0, r1, c0, c1) := if byRows then (s.2.1, s.2.2, 0, t.n.toNat) else (0, m, s.2.1, s.2.2)
    if r1 ≤ r0 || c1 ≤ c0 then []
    else
      let cells := (List.range ((r1 - r0 + 3) / 4)).flatMap fun i => (List.range ((c1 - c0 + width - 1) / width)).map fun j =>
        (r0 + 4 * i, min (r0 + 4 * i + 4) r1, c0 + width * j, min (c0 + width * (j + 1)) c1)
      ((List.range cells.length).zip cells).map fun p => ⟨p.1 * n + s.1, s.1, p.2.1, p.2.2.1, p.2.2.2.1, p.2.2.2.2⟩

/-- Where the bytes of source `w`, row `r` of the view, stand in what a block gathers. -/
def blockAt (w r : Nat) : Nat := w * 2 ^ 22 + r % 4 * 2 ^ 20

/-- The units of a row of a view: 256 bytes each (R346). -/
def unitsPerRow (v : TView) (cols : Nat) : Nat := (v.rowLen 0 cols + 255) / 256

/-- The plan of an accepted instruction: domains to wake, faults, port cycles, slots read and written, results, retirement, faulting shares. -/
structure TilePlan where
  doms   : List DomRef
  traps  : List Trap
  ports  : List (Nat × Nat)
  slotsR : List (Nat × Nat)
  slotsW : List (Nat × Nat)
  res    : List Result
  retire : Nat
  bad    : List (Nat × Nat)

/-- The slots of the far units of the source views, in view order from cycle `t` on: level, view, slots (R298, R346). -/
def Mach.tileMoves (m : Mach) (core : Nat) (dims : Nat → Nat × Nat) : Nat → Nat → List (Nat × TView) → List (Nat × Nat × List Nat)
  | _, _, [] => []
  | tq, td, (w, v) :: r =>
    let n := (dims w).1 * unitsPerRow v (dims w).2
    match v.place with
    | 1 => let ss := m.progSlots core 1 n tq; (1, w, ss) :: Mach.tileMoves m core dims (maxOf ss + 1) td r
    | 2 => let ss := m.progSlots core 2 n td; (2, w, ss) :: Mach.tileMoves m core dims tq (maxOf ss + 1) r
    | _ => Mach.tileMoves m core dims tq td r

/-- Cycles from a read's slot to its bytes, and to the core (R296). -/
def moveRead (lvl : Nat) : Nat × Nat := if lvl = 1 then (8, 20) else (15, 30)

/-- The reads of a block's bytes of one source view: of the core's own banks in cycle `cyc`, or of the units moved. -/
def blockReads (pad : Pad) (v : TView) (w cols : Nat) (moves : List (Nat × Nat × List Nat)) (cyc : Nat) (rows : List Nat) (c0 c1 : Nat) :
    List LateRead :=
  let base (i : Nat) : Nat := (v.elemAddr i 0).1.toNat
  let lo := c0 * v.bits / 8
  let hi := (c1 * v.bits + 7) / 8
  match moves.find? fun x => x.2.1 == w with
  | none => rows.map fun i => { cyc := cyc, pad := pad, off := base i + lo, len := hi - lo, pos := blockAt w i + lo, valid := none }
  | some (lvl, _, ss) =>
    rows.flatMap fun i => (List.range ((hi + 255) / 256 - lo / 256)).map fun u =>
      let a := max lo ((lo / 256 + u) * 256)
      let b := min hi ((lo / 256 + u + 1) * 256)
      { cyc := nth ss (i * unitsPerRow v cols + lo / 256 + u) 0 + (moveRead lvl).1, pad := pad, off := base i + a, len := b - a,
        pos := blockAt w i + a, valid := none : LateRead }

/-- The plan of an instruction that its port accepts (R346): it starts once every earlier one has retired, or with OVL at once, and retires
no earlier than those (R341). -/
def Mach.tilePlan (m : Mach) (core top : Nat) (t : Tile) : TilePlan :=
  let c := m.core core
  let vs := tileViews c.tileTables top t
  let dims := tileDims top t
  let dim (w : Nat) : Nat × Nat := (nth dims (match w with | 0 => 1 | 1 => 2 | _ => 0) none).getD (0, 0)
  let srcs := tileSources t vs
  let dst := nth vs 0 none
  let all := (dst.map fun v => (2, v)).toList ++ srcs.filter fun x => x.1 != 2
  let lcs := (List.range 4).filter t.lcm.getLsbD
  let touched (far : Bool) : List DomRef := (all.flatMap fun x => match x.2.pad core with
    | some p => if (x.2.place != 0) == far then
        (List.range (dim x.1).1).flatMap fun i =>
          (((x.2.elemAddr i 0).1.toNat, x.2.rowLen 0 (dim x.1).2) :: x.2.besides top i 0 (dim x.1).2).flatMap fun y => (p.units y.1 y.2).map p.dom
      else []
    | none => []).eraseDups
  let near := touched false
  let own := ((List.range 48).map (DomRef.core core)).filter near.contains ++ lcs.map fun k => DomRef.core core (lcBit k)
  let wakes := own.filter fun d => (m.dom d).st == .off || (m.dom d).st == .retain
  let on := own.foldl (fun a d => match (m.dom d).st with | .waking _ x => max a x | _ => a) (m.planWakes core wakes).2
  let start := (if t.ovl then m.now else c.port.tiles.foldl (fun a x => max a x.retire) m.now) + 1
  let moves := m.tileMoves core dim start start srcs
  let s := moves.foldl (fun a x => max a (maxOf x.2.2 + (moveRead x.1).2 + 1)) (max start on)
  let width := match (if top = 5 then nth vs 1 none else dst) with | some v => 2048 / v.bits | none => 64
  let n := lcs.length
  let blocks := tileBlocks top t n width
  let step := if t.acc then 4 else 3
  let wr := if t.acc then 15 else 14
  let last := blocks.foldl (fun a b => max a (b.q + 1)) 0
  let whole (b : LBlock) : Bool := top != 5 || b.c1 == t.n.toNat
  let outCols (b : LBlock) : Nat × Nat := if top = 5 then (0, 1) else (b.c0, b.c1)
  let group (v : TView) (i c : Nat) : Nat := groupOf ((v.elemAddr i 0).1.toNat + c * v.bits / 8)
  let ports := blocks.flatMap fun b =>
    (srcs.flatMap fun x => if x.2.place = 0 then ((tileRows top t x.1 b.r0 b.r1).map fun i => (group x.2 i b.c0, s + step * b.q + x.1)).eraseDups else []) ++
    (match dst with
     | some v => if v.place = 0 && whole b then
         ((tileRows top t 2 b.r0 b.r1).map fun i => (group v i (outCols b).1, s + step * b.q + wr)).eraseDups else []
     | none => [])
  let reads (b : LBlock) : List LateRead :=
    let cyc := s + step * b.q
    (srcs.flatMap fun x => match x.2.pad core with
      | some p => blockReads p x.2 x.1 (dim x.1).2 moves (cyc + x.1) (tileRows top t x.1 b.r0 b.r1) b.c0 b.c1
      | none => []) ++
    (match top, dst.bind fun v => (v.pad core).map fun p => (v, p) with
     | 7, some (v, p) => (tileRows top t 2 b.r0 b.r1).map fun i =>
         { cyc := cyc, pad := p, off := v.bandAddr i, len := 2, pos := blockAt 3 i, valid := none : LateRead }
     | _, _ => [])
  let gathered (b : LBlock) : List LateRead := if top = 5 then (blocks.filter fun x => x.r0 == b.r0).flatMap reads else reads b
  let out (v : TView) (p : Pad) (b : LBlock) (i : Nat) : List (Place × Nat) :=
    let cs := outCols b
    (Place.pad p ((v.elemAddr i 0).1.toNat + cs.1 * v.bits / 8), v.rowLen cs.1 cs.2) ::
      (if v.scaled then [(Place.pad p (v.scaleAddr i (cs.1 / 8)), (cs.2 - cs.1 + 7) / 8)] else [])
  let block (b : LBlock) (r0 r1 : Nat) (o : List (Place × Nat)) (w : Nat) (dep : Option Nat) : Result :=
    { w := w, issued := m.now, dep := dep, st := 5,
      dest := .tile { top := top, tile := t, row0 := r0, rows := r1 - r0, col0 := b.c0, cols := b.c1 - b.c0, out := o },
      nfl := 0, reads := gathered b, buf := [], lane := 0, ext := 0 }
  let bad : List (Nat × Nat) := match top, dst with
    | 7, some v => if tileScaleBad v t.n.toNat then
        (lcs.zip (List.range n)).filterMap fun k => (blocks.find? fun b => b.rank == k.2).map fun b => (k.1, b.r0)
      else []
    | _, _ => []
  let writes : List Result × List (Nat × Nat) × Nat := match dst.bind fun v => (v.pad core).map fun p => (v, p) with
    | none => ([], [], 0)
    | some (v, p) =>
      if !bad.isEmpty then ([], [], 0)
      else (blocks.filter whole).foldl (fun acc b =>
        let rows := tileRows top t 2 b.r0 b.r1
        let w := s + step * b.q + wr
        if v.place = 0 then (acc.1 ++ [block b b.r0 b.r1 (rows.flatMap (out v p b)) w none], acc.2)
        else rows.foldl (fun acc i =>
          let rt := lvlReach v.place
          let dep := firstFrom (fun x => !(acc.2.1.contains (v.place, x))) rt.step (acc.2.1.length + 1) (m.ownSlot core rt w)
          let land := dep + (if v.place = 1 then 16 else 30)
          (acc.1 ++ [block b i (i + 1) (out v p b i) land (some dep)], (v.place, dep) :: acc.2.1, max acc.2.2 land)) acc) ([], [], 0)
  let slotsR := moves.flatMap fun x => x.2.2.map fun y => (x.1, y)
  let held := own.filter fun d => (m.dom d).st == .on && (m.dom d).pend.isSome
  { doms := wakes,
    traps := m.sleepTraps (held ++ touched true) ++ c.clashTraps ports ++
      (if slotsR.any (fun x => c.slotBusy (lvlReach x.1) false x.2) || writes.2.1.any (fun x => c.slotBusy (lvlReach x.1) true x.2) then [clashTrap] else []),
    ports := ports, slotsR := slotsR, slotsW := writes.2.1, res := writes.1,
    retire := c.port.tiles.foldl (fun a x => max a x.retire) (max (s + step * last + 12) (if writes.2.2 = 0 then 0 else writes.2.2 + 1)), bad := bad }

/-! ### Tile lanes (R215, R340) -/

/-- The detail code with which a core's port refuses an instruction; 0 where it accepts. -/
def Mach.coreRefusal (m : Mach) (core top : Nat) (t : Tile) : Nat :=
  let c := m.core core
  tileRefusal 4 top t c.tileTables (m.viewInRange core top) c.port.record.isNone true

/-- The cycle in which a T.NOP retires (R353). -/
def Core.nopRetire (c : Core) (now : Nat) : Nat := c.port.tiles.foldl (fun a t => max a t.retire) now + 1

/-- A port takes an accepted instruction: sequence number, bookings, wakes and blocks (R340, R346). -/
def Mach.takeTile (m : Mach) (top : Nat) (t : Tile) : Mach :=
  let core := m.cur
  let seq := m.me.port.seqNo
  let add (m : Mach) (retire : Nat) (woke : List Nat) (bad : List (Nat × Nat)) : Mach := m.modMe fun c => { c with port := { c.port with
    seqNo := seq + 1
    tiles := c.port.tiles ++ [{ seq := seq, lcm := t.lcm, retire := retire, evt := t.evt, woke := woke, bad := bad, code := 0, gone := false, since := m.now + 1 }] } }
  if top = 0 then add m (m.me.nopRetire m.now) [] []
  else
    let p := m.tilePlan core top t
    let m := (m.planWakes core p.doms).1
    let m := m.modMe fun c => { c.bookPorts p.ports with flight := c.flight ++ p.res }
    let m := p.slotsR.foldl (fun m x => m.bookSlot core (lvlReach x.1) false x.2) m
    let m := p.slotsW.foldl (fun m x => m.bookSlot core (lvlReach x.1) true x.2) m
    add m p.retire (p.doms.map domBit) p.bad

/-- The delay and predicate of a tile instruction as an S lane's. -/
def Tile.asLane (t : Tile) : Lane := { d := t.d, p := t.p, dst := 0, a := 0, kb := 0, b := 0, fn := 0, ext := none }

/-- The faults of a tile lane at its core's port (R340, R346). -/
def Mach.tileTraps (m : Mach) (top : Nat) (t : Tile) : List Trap :=
  match m.coreRefusal m.cur top t with
  | 0 => if top = 0 then [] else (m.tilePlan m.cur top t).traps
  | d => [⟨Code.tile, BitVec.ofNat 32 d, 0⟩]

/-- A tile lane of the S stream (R215): held while a lane cluster it names is forked; refused, or taken by the core's port. The wakes that
the port started stand when it then meets F.GROUPCLASH (R346). -/
def tileLane (top : Nat) (t : Tile) (s : State) : Host.Outcome State Fault Refusal :=
  let busy (m : Mach) : Bool := (m.me.lcBusy m.now &&& t.lcm) != 0
  let o := runS (Tile.asLane t) noInc (fun m => { SUse.none with held := busy m, traps := m.tileTraps top t })
    (fun m => .done (m.takeTile top t) 0) s
  let m := s.m
  let clash := !m.me.sBlocked m.now && m.me.preg t.p.toNat && !busy m && firstTrap (m.tileTraps top t) == some clashTrap && m.me.stop.isNone
  match o with
  | .next s' => .next (if clash then { s' with m := (s'.m.planWakes m.cur (m.tilePlan m.cur top t).doms).1 } else s')
  | o => o

/-! ### Blocks landing (R346, R352) -/

/-- What a block's source views hold, by row and column of the view, in the bytes it gathered. -/
def Result.tileElem (r : Result) (v : TView) (w i j : Nat) : Nat :=
  let b := v.bits
  let x := leValue (r.buf.readBlock (blockAt w i + j * b / 8) ((b + 7) / 8)) / 2 ^ (j * b % 8)
  x % 2 ^ v.keep

/-- Elements as bytes joined to old bytes: each places its bits at its position from the first column. -/
def placeElems (f : Fmt) (c0 : Nat) (old : List Byte) (es : List (Nat × Nat)) : List Byte :=
  let b := tileBits f
  let base := c0 * b / 8 * 8
  let put (x : Nat) (e : Nat × Nat) : Nat :=
    let sh := e.1 * b - base
    x - x / 2 ^ sh % 2 ^ b * 2 ^ sh + e.2 % 2 ^ b * 2 ^ sh
  leBytes old.length (es.foldl put (leValue old))

/-- A block of a tile instruction lands at a core (R346, R347): its rows are written and its flags set. -/
def Mach.landTile (m : Mach) (core : Nat) (r : Result) : Mach :=
  match r.dest with
  | .tile b =>
    let c := m.core core
    let vs := tileViews c.tileTables b.top b.tile
    match nth vs 0 none with
    | none => m
    | some vd =>
      let get (w k : Nat) (i j : Nat) : Nat := match nth vs k none with | some v => r.tileElem v w i j | none => 0
      let src : TileSrc := { a := get 0 1, b := get 1 2, d := get 2 0, sa := fun _ _ => 0, sb := fun _ _ => 0, bandA := fun _ => 0,
                             bandB := fun _ => 0, bandD := fun i => leValue (r.buf.readBlock (blockAt 3 i) 2), aRows := 0, bRows := 0 }
      match tileCompute b.top b.tile vd (nth vs 1 none) (nth vs 2 none) src false b.row0 (b.row0 + b.rows) b.col0 (b.col0 + b.cols) 0 0 with
      | .error _ => m
      | .ok o =>
        let c0 := if b.top = 5 then 0 else b.col0
        let per := if vd.scaled then 2 else 1
        let m := (List.range b.rows).foldl (fun m i =>
          let row := b.row0 + i
          let m := match b.out[per * i]? with
            | some (.pad p off, n) => m.padWrite p (atAddr off (placeElems vd.fmt c0 (m.padRead p off n) ((o.elems.filter fun e => e.1 == row).map Prod.snd)))
            | _ => m
          match vd.scaled, b.out[per * i + 1]? with
          | true, some (.pad p off, _) => m.padWrite p (atAddr off ((o.scales.filter fun x => x.1 == row).map fun x => BitVec.ofNat 8 x.2.2))
          | _, _ => m) m
        m.modCore core fun c => c.flag m.now o.flags
  | _ => m

/-! ### Retirement and records (R341, R347, R349, R350) -/

/-- The tile instruction of a core that is due to retire: not frozen by a stop (R167). -/
def Core.dueTile (c : Core) (now : Nat) : Option LTile :=
  c.port.tiles.find? fun t => !t.gone && t.retire ≤ now && (match c.stop with | some p => t.retire < p.cyc | none => true)

/-- The record's words of a fault of lane cluster `lc` at L (R349): OLVL is L. -/
def lcRecord (code : Byte) (seq row lc : Nat) (done : BitVec 4) : W64 × W64 × W64 :=
  (BitVec.ofNat 64 (seq % 65536 * 2 ^ 16 + code.toNat * 256 + 4 * 32), BitVec.ofNat 64 (row * 2 ^ 48 + done.toNat * 2 ^ 24),
   BitVec.ofNat 64 (lc * 2 ^ 55))

/-- The record of an L-level instruction whose shares fault reaches the core's port, in the cycle it retires (R350): that of the lowest lane
cluster is kept, for TJOIN (R216). -/
def Mach.tileRecordL (m : Mach) (core : Nat) : Mach :=
  match (m.core core).dueTile m.now with
  | none => m
  | some t => match t.bad with
    | [] => m
    | (lc, row) :: r =>
      let mask : BitVec 4 := BitVec.ofNat 4 (((lc, row) :: r).foldl (fun a x => a + 2 ^ x.1) 0)
      m.modCore core fun c => { c with port := { c.port with
        record := match c.port.record with | some w => some w | none => some (lcRecord Code.scalecount t.seq row lc (t.lcm &&& ~~~mask))
        failed := c.port.failed ||| mask
        tiles := c.port.tiles.map fun x => if x.seq = t.seq then { x with bad := [], code := Code.scalecount } else x } }

/-- The TYPE 0x2 event of a retirement (R347). -/
def tileEvent (code : Byte) (seq : Nat) (lcm : BitVec 4) : W64 :=
  BitVec.ofNat 64 (2 * 2 ^ 60 + code.toNat * 2 ^ 48 + seq % 65536 * 2 ^ 32 + lcm.toNat * 2 ^ 28)

/-- An L-level instruction of a core retires (R341, R346, R347): its event, the return of the domains it woke, and the .lc boundary. -/
def Mach.tileRetireL (m : Mach) (core : Nat) : Mach :=
  match (m.core core).dueTile m.now with
  | none => m
  | some t =>
    if !t.bad.isEmpty then m
    else
      let m := m.modCore core fun c =>
        let c := { c with port := { c.port with tiles := c.port.tiles.map fun x => if x.seq = t.seq then { x with gone := true } else x } }
        if t.evt || t.code != 0 then c.raise m.now (tileEvent t.code t.seq t.lcm) else c
      let m := t.woke.foldl (fun m b =>
        let d := DomRef.core core b
        if (m.dom d).st == .on then m.setDom d { (m.dom d) with pend := some (m.now, false) } else m) m
      m.postBoundary core 0

/-! ### The operand fetcher (R266, R348) -/

/-- Tiles due to a bound ring and not yet counted: refills whose bytes are still to come, units to land, and counts to rise. -/
def Core.tilesDue (c : Core) (ring : Nat) : Nat :=
  c.ringDue ring + (c.xe.copies.filter fun k => k.refill == some ring && k.units.isEmpty && !k.rows.isEmpty).length

/-- Whether the fetcher has a refill to raise for a ring. -/
def Core.refillDue (c : Core) (now ring : Nat) : Bool :=
  let g := c.ring ring
  let cap := ringSize g.w0 / 4096
  ringBound g.w1 && g.dead.isNone && ringCount g.w1 + c.tilesDue ring < cap && c.copiesOut < 64 && c.stop.isNone &&
  c.xe.copies.all fun k => k.refill != some ring || k.fault.isNone

/-- Whether a handle may be bound to a ring (R348). -/
def fetchable (h : BitVec 512) : Bool :=
  let f := tableField h
  handleOk h && f 0x14 8 == 0 && f 0x10 24 == 4096 && (bits h 64 32).toInt % 4096 == 0

/-- The refill copy of a ring's next tile (R266, R348): one row of 4,096 bytes from the handle's row into the slot at an offset. -/
def Core.refillCopy (c : Core) (now ring row : Nat) (h : BitVec 512) (off : Nat) : Copy :=
  let loc := bits h 0 64
  let src : Int := (bits h 0 48).toNat + (row : Int) * (bits h 64 32).toInt
  let desc : Nat := (loc.toNat / 2 ^ 48 * 2 ^ 48 + (src % 2 ^ 48).toNat) + off * 2 ^ 64 + 2 ^ (8 * 0x18) + 4096 * 2 ^ (8 * 0x1C) +
    (if tableField h 0x15 8 % 2 = 1 then 2 ^ (8 * 0x30) else 0)
  { entry := c.freeEntry, num := c.xe.next, op := 1, fn := 0, refill := some ring, pn := 0, inc := 0, evt := false, acq := none, rm := 0,
    chan := 0, desc := BitVec.ofNat 512 desc, dsrc := 0, ddst := 0, idx := [], timed := true, issued := now, units := [], sent := 0,
    rows := [], fault := none, doneAt := none, chain := none, nfl := 0, writes := [], gid := 0, told := false }

/-- The schedule of a timed refill from this cycle on (R266, R297): the units of its row, read and written in their turn. -/
def Mach.refillSched (m : Mach) (core : Nat) (k : Copy) : Sched :=
  let src := (m.core core).pinned k (m.side core k false)
  let dst := m.side core k true
  (copyUnits (some src) dst).foldl (Sched.step core m.now k (some src) dst)
    { m := m, own := [], others := [], units := [], k := 0, ready := m.now, rd := m.now + 1, w := m.now + 1, dep := m.now + 1,
      noSlot := false, soft := some core }

/-- RING_REFILL (R266): the fetcher raises the refill of a ring's next tile; a refill that cannot run ends with its fault. -/
def execRingRefill (core ring : Nat) (s : State) : Host.Outcome State Fault Refusal :=
  let m := s.m
  let s : State := { s with base := some (core, m.now, s.restorePoint core) }
  let c := m.core core
  if !c.refillDue m.now ring then .next s
  else
    let g := c.ring ring
    let cap := ringSize g.w0 / 4096
    let h := c.tileTables.hnd (ringHandle g.w1)
    let off := ringBase g.w0 + (ringHead g.w1 + ringCount g.w1 + c.tilesDue ring) % cap * 4096
    let k := c.refillCopy m.now ring g.row h off
    let src := m.side core k false
    let dst := m.side core k true
    let timed := m.sideTimed core k false src
    let faults := if !fetchable h then [⟨Code.ring, 0, 0⟩]
      else m.unitsTraps core k false src ++ m.rowsTraps core k false src 0 ++ m.unitsTraps core k true dst ++ m.rowsTraps core k true dst 0
    let enter (m : Mach) (k : Copy) : State := { s with m := m.modCore core fun c => { c with
      xe := { c.xe with copies := c.xe.copies ++ [k] }
      mx := { c.mx with rings := c.mx.rings.modify ring fun g => { g with row := (g.row + 1) % max 1 (tableField h 0x0C 24) } } } }
    match firstTrap faults with
    | some t => .next (enter m { k with fault := some (0, t.code, t.detail, t.addr), doneAt := some m.now, rows := [] })
    | none =>
      if timed then
        let st := m.refillSched core k
        if st.noSlot then .next (enter m { k with fault := some (0, Code.timedmiss, 0, 0), doneAt := some m.now })
        else .next (enter (st.booked core) { k with units := st.units, doneAt := some (unitsEnd st.units) })
      else .next (enter m { k with timed := false, sent := 1, rows := [{ row := 0, sentAt := m.now, data := [], here := false }] })

end Sys2Proof.Machine
end

