-- ==== Sys2Proof/Machine/Events.lean ====
section
/-! DEFINITION. The happenings of a core that no instruction issues: interrupts (R157, R166), block starts and lines (R55, R160, R161),
results that land (R6), open-class arrivals (R202, R203, R205), walks (R168), frames (R169), barriers (R147, R214), lingering streams
(R149) and service replies (R183). -/
namespace Sys2Proof.Machine

/-- A core changed by its event: the next state. -/
def coreNext (s : State) (core : Nat) (f : Core → Core) : Host.Outcome State Fault Refusal :=
  .next { s with m := s.m.modCore core f }

/-! ### Interrupts (R154, R157, R166) -/

/-- Whether the control core can take an interrupt in a cycle. -/
def Core.ctlReady (c : Core) (now : Nat) : Bool :=
  c.bound.isSome && !c.ctl.ended && c.ctl.ready ≤ now && (match c.stop with | some p => !p.preempt | none => true)

/-- Whether a timer stop is due (R166): a stop of this cycle that is no fault's is shared. -/
def Core.timerStop (c : Core) (now : Nat) : Bool :=
  c.ctl.tdue && !c.ctl.ended && (match c.stop with | none => true | some p => p.cyc == now && p.trap.isNone && !p.held && !p.intr && p.restart.isNone)

/-- TIMER_INTERRUPT (R157, R166): the streams stop in the first cycle in which MTIP, MTIE and MIE are all 1, and the control core takes
interrupt 7 before its next instruction. -/
def execTimerInterrupt (s : State) : Host.Outcome State Fault Refusal :=
  let core := s.m.cur
  let take := (s.m.core core).ctlReady s.m.now && (s.m.core core).irq s.m.now == some 7
  let s1 := if (s.m.core core).timerStop s.m.now then s.stopCore core Mach.boundary fun p => { p with intr := true } else s
  coreNext s1 core fun c => { c with ctl := if take then { c.ctl.interrupt 7 s.m.now with tdue := false } else { c.ctl with tdue := false } }

/-- CORE_TRAP_INTERRUPT (R157): interrupt 24, which is no longer pending once taken. -/
def execCoreTrapInterrupt (s : State) : Host.Outcome State Fault Refusal :=
  let core := s.m.cur
  coreNext s core fun c => { c with ctl := { c.ctl.interrupt 24 s.m.now with ctip := false } }

/-- EVENT_INTERRUPT (R157): interrupt 16. -/
def execEventInterrupt (s : State) : Host.Outcome State Fault Refusal :=
  let core := s.m.cur
  coreNext s core fun c => { c with ctl := c.ctl.interrupt 16 s.m.now }

/-! ### Blocks (R55, R92, R155, R160, R161) -/

/-- The streams at the t0 of a block: each at its first lane; a stream without a lane has finished. -/
def Core.startBlock (c : Core) (now : Nat) (b : QBlock) (rest : List QBlock) : Core :=
  let at0 (st : Stream) : StreamSt :=
    let x := c.stream st
    match c.seq.laneFrom b.num st 0 0 with
    | some (line, it) => { x with line := line, lane := it.lane, rep := 0, next := now + instrDelay it.instr, doneAt := none }
    | none => { x with line := 0, lane := 0, rep := 0, doneAt := some now }
  { c with
    seq := { c.seq with cur := some b, queue := rest, streams := allStreams.map at0 }
    ctl := { c.ctl with cbankT0 := c.ctl.cbank, dbg := c.ctl.dbgNext } }

/-- BLOCK_START (R160, R161): the head block starts, or, absent or rejected, leaves the queue with a core trap. -/
def execBlockStart (s : State) : Host.Outcome State Fault Refusal :=
  let core := s.m.cur
  let c := s.m.core core
  match c.seq.queue with
  | [] => .next s
  | b :: rest =>
    let trap (code : Byte) (line detail : Nat) : Host.Outcome State Fault Refusal :=
      let s1 := s.stopCore core Mach.boundary (Stop.withTrap 7 ⟨code, BitVec.ofNat 32 (line + detail * 2 ^ 16), BitVec.ofNat 64 b.num⟩)
      coreNext s1 core fun c => { c with seq := { c.seq with queue := rest } }
    match c.seq.entry b.num with
    | none => trap Code.block 0 0
    | some e => match e.rejected with
      | some (code, line, detail) => trap code line detail
      | none => .next (s.land core true fun m => m.modCore core fun c => c.startBlock m.now b rest)

/-- A directory entry after a line of its block failed (R55): the first failing line is kept. -/
def DirEntry.reject (e : DirEntry) (index : Nat) (code : Byte) (detail : Nat) : DirEntry :=
  if e.first ≤ index && index < e.first + e.count && e.rejected.isNone then { e with rejected := some (code, index - e.first, detail) } else e

/-- A line enters the block store (R55). -/
def Core.enterLine (c : Core) (key : Option (BitVec 128)) (index : Nat) (line : BitVec 256) (tag : W64) : Core :=
  let q := { c.seq with loading := c.seq.loading.filter fun x => x.1 != index }
  let reject (q : Seq) (code : Byte) (detail : Nat) : Seq := { q with dir := q.dir.map fun e => (e.1, e.2.reject index code detail) }
  let q :=
    if !tagOk key 1 index (imageBytes line) tag then reject q Code.mac 0
    else
      let q := { q with lines := (index, line) :: q.lines.filter fun x => x.1 != index }
      match lineDetail line with
      | some d => reject q Code.block d
      | none => q
  { c with seq := q }

/-- LINE_VALIDATE (R55). -/
def execLineValidate (core index : Nat) (line : BitVec 256) (tag : W64) (s : State) : Host.Outcome State Fault Refusal :=
  let key := (s.m.core core).bound.bind Bind.key
  coreNext s core fun c =>
    let c := c.enterLine key index line tag
    { c with seq := { c.seq with loadAt := s.m.now + 1 } }

/-! ### Results that land (R6, R69) -/

/-- A format register with a new format and class, its BST kept (R87, R88). -/
def fmtUpdate (old : W32) (f : BitVec 5) (cls : Bool) : W32 :=
  (old &&& 0xC000) ||| f.setWidth 32 ||| (if cls then 0x2000 else 0)

/-- An s register written: s0 discards it (R189). -/
def Core.setS (c : Core) (n : Nat) (v : W64) : Core :=
  if n = 0 then c else { c with scal := { c.scal with s := c.scal.s.set n v } }

/-- A ring descriptor changed. -/
def Core.modRing (c : Core) (n : Nat) (f : Ring → Ring) : Core := { c with mx := { c.mx with rings := c.mx.rings.modify n f } }

/-- A result, no longer in flight, written to a core. -/
def Core.landPlain (c : Core) (r : Result) : Core × Flags :=
  match r.dest with
  | .s n v => (c.setS n.toNat v, 0)
  | .sLoad n b sg => (c.setS n.toNat (extendLoad b sg (leValue (r.buf.readBlock 0 b))), 0)
  | .sAcq n v _ => (c.setS n.toNat v, 0)
  | .p n v => (if n = 0 then c else { c with scal := { c.scal with p := if v then c.scal.p ||| (1#8 <<< n.toNat) else c.scal.p &&& ~~~(1#8 <<< n.toNat) } }, 0)
  | .v n img mask => ({ c with vec := { c.vec with v := c.vec.v.set n.toNat (maskImage mask (img ||| bytesImage 32768 (r.buf.readBlock 0 4096)) (c.vreg n.toNat)) } }, 0)
  | .m n img mask => ({ c with vec := { c.vec with m := c.vec.m.set n.toNat ((img &&& mask) ||| (c.mreg n.toNat &&& ~~~mask)) } }, 0)
  | .q code v => ({ c with scal := { c.scal with q := c.scal.q.modify code.toNat fun q => q ++ [v] } }, 0)
  | .ba n v => ({ c with mx := { c.mx with ba := c.mx.ba.set n.toNat v } }, 0)
  | .bb n v => ({ c with mx := { c.mx with bb := c.mx.bb.set n.toNat v } }, 0)
  | .ring n w0 w1 => (c.modRing n.toNat fun _ => ⟨w0, w1, none, 0⟩, 0)
  | .ringCount n k => (c.modRing n.toNat fun g => { g with w1 := g.w1 + BitVec.ofNat 64 (k * 2 ^ 43) }, 0)
  | .sem n k => (c.semSignal n.toNat k, 0)
  | _ => c.landHv r

/-- An atomic reaches its controller (R143, R145, R205): the location changes, and the old value returns. -/
def Mach.landAtom (m : Mach) (core : Nat) (r : Result) (pl : Place) (a : AtomOp) (dst : BitVec 5) (ret : Nat) (acq : Option (BitVec 4)) : Mach :=
  let n := if a.w64 then 8 else 4
  let old := leValue (match pl with | .dev pa => m.dev.readBlock pa n | pl => m.placeBytes core pl n)
  let new := leBytes n (a.apply old).1
  let m := match pl with
    | .pad p off => m.padWrite p (atAddr off new)
    | .dev pa => m.devAtomic (atAddr pa new)
    | _ => m
  let v := a.returned old
  let d : Dest := match acq with | some x => .sAcq dst v x | none => .s dst v
  m.modCore core fun c => c.fly { r with w := ret, dep := none, dest := d, nfl := 0, src := some pl }

/-- The place of an S access that a result completes, and whether by its write (R142). -/
def Result.completes (r : Result) : Option (Place × Bool) :=
  if r.st != 0 then none
  else match r.dest with
    | .pad p bs => bs.head?.map fun b => (.pad p b.1, true)
    | .atom pl _ _ _ _ => some (pl, true)
    | _ => r.src.map fun pl => (pl, false)

/-- An S access that completes in cycle `now`. -/
def Core.completed (c : Core) (now : Nat) (r : Result) : Core :=
  match r.completes with
  | none => c
  | some a => { c with scal := { c.scal with ended := (now, a :: if c.scal.ended.1 = now then c.scal.ended.2 else []) } }

/-- An acquire's boundary in the cycle in which its old value is written (R146, R205): where an earlier write is not yet acknowledged, the
refresh happens now and the publication as soon as R138 lets it (log entry 41). -/
def Mach.acquire (m : Mach) (core : Nat) (scope : BitVec 4) : Mach :=
  if (m.core core).quiet scope m.now then m.boundary core scope else (m.refresh core).postBoundary core scope

/-- A result of a core, no longer in flight, lands: its destination is written and its flags set in the same cycle (R69). -/
def Mach.landResult (m : Mach) (core : Nat) (r : Result) : Mach :=
  let m := m.modCore core fun c => c.completed m.now r
  match r.dest with
  | .pad p ws => (m.padWrite p ws).modCore core fun c => c.flag m.now r.nfl
  | .acc _ _ => m.landAcc core r
  | .accPair _ _ => m.landAcc core r
  | .accZero _ => m.landAcc core r
  | .array _ _ _ _ _ => m.landAcc core r
  | .tile _ => m.landTile core r
  | .atom pl a dst ret acq => m.landAtom core r pl a dst ret acq
  | .fmt sp i f cls =>
    let p := padAt core sp.toNat
    m.setFmtReg p i (fmtUpdate (m.fmtReg p i) f cls)
  | .search _ _ _ _ _ _ => m
  | _ =>
    let m := m.modCore core fun c =>
      let x := c.landPlain r
      x.1.flag m.now (r.nfl ||| x.2)
    match r.dest with
    | .sAcq _ _ scope => m.acquire core scope
    | _ => m

/-- Whether a result is written by RESULT_LAND before the streams of its cycle issue. -/
def Dest.early : Dest → Bool
  | .search _ _ _ _ _ _ => false
  | .sem _ _ => false
  | _ => true

/-- Whether a result of a core is due in a cycle: its write cycle has come, and no stop holds it (R167). -/
def Core.isDue (c : Core) (now : Nat) (r : Result) : Bool :=
  r.w ≤ now && (match c.stop with | some p => !r.frozen p.cyc | none => true)

/-- What lands: a result by its place in flight, or a unit of a copy by the copy's entry. -/
inductive Landing where
  | result (i : Nat) (r : Result)
  | unit (entry i : Nat)
  deriving DecidableEq, Repr

/-- Whether a result is an atomic at its controller. -/
def Dest.isAtom : Dest → Bool
  | .atom _ _ _ _ _ => true
  | _ => false

/-- The results and units of a core that are due in a cycle, with issue cycle and stream: atomics, or what is none. -/
def Core.landings (c : Core) (now : Nat) (atomic : Bool) : List (Nat × Nat × Landing) :=
  (((List.range c.flight.length).zip c.flight).filter fun x => c.isDue now x.2 && x.2.dest.early && x.2.dest.isAtom == atomic).map
    (fun x => (x.2.issued, x.2.st, .result x.1 x.2)) ++
  (c.landingUnits now atomic).map fun x => (x.1, 3, .unit x.2.1 x.2.2)

/-- The landing of a core that comes first: by issue cycle and then stream (R91), atomics of one core by stream first (R145). -/
def Core.firstLanding (c : Core) (now : Nat) (atomic : Bool) : Option (Nat × Nat × Landing) :=
  (c.landings now atomic).foldl (fun best x => match best with
    | none => some x
    | some b =>
      let k (y : Nat × Nat × Landing) : Nat × Nat := if atomic then (y.2.1, y.1) else (y.1, y.2.1)
      if (k x).1 < (k b).1 || ((k x).1 == (k b).1 && (k x).2 < (k b).2) then some x else best) none

/-- The least issue cycle of what lands at a core in a cycle, atomics or not. -/
def Core.landSince (c : Core) (now : Nat) (atomic : Bool) : Option Nat :=
  match c.landings now atomic with
  | [] => none
  | x :: r => some (r.foldl (fun a y => min a y.1) x.1)

/-- What lands next at a core: in the order of issue (R91), where an atomic is next that of the first stream (R145). -/
def Core.nextLanding (c : Core) (now : Nat) : Option (Nat × Nat × Landing) :=
  match c.landSince now false, c.landSince now true with
  | some a, some b => c.firstLanding now (decide (b < a))
  | some _, none => c.firstLanding now false
  | none, _ => c.firstLanding now true

/-- A completion signal of a core that is due, by its place in flight. -/
def Core.nextSignal (c : Core) (now : Nat) : Option (Nat × Result) :=
  ((List.range c.flight.length).zip c.flight).find? fun x => c.isDue now x.2 && (match x.2.dest with | .sem _ _ => true | _ => false)

/-- RESULT_LAND (R6): the core's next due result, or unit of a copy, is written; completion signals last. -/
def execResultLand (s : State) : Host.Outcome State Fault Refusal :=
  let core := s.m.cur
  let c := s.m.core core
  let land (i : Nat) (r : Result) : Host.Outcome State Fault Refusal :=
    .next (s.land core (r.frozen s.m.now) fun m =>
      (m.modCore core fun c => { c with flight := c.flight.eraseIdx i }).landResult core r)
  match c.nextLanding s.m.now with
  | some (_, _, .result i r) => land i r
  | some (_, _, .unit entry i) =>
    let own := match (c.copy entry).bind fun k => k.units[i]? with | some u => s.m.now ≤ u.depAt | none => false
    .next (s.land core own fun m => m.landUnit core entry i)
  | none => match c.nextSignal s.m.now with
    | some (i, r) => land i r
    | none => .next s

/-! ### Open-class arrivals (R139, R202, R203, R205) -/

/-- A load of a core. -/
def Core.load (c : Core) (id : Nat) : Option GLoad := c.glb.loads.find? fun g => g.id == id

/-- A load of a core changed. -/
def Core.modLoad (c : Core) (id : Nat) (f : GLoad → GLoad) : Core :=
  { c with glb := { c.glb with loads := c.glb.loads.map fun g => if g.id == id then f g else g } }

/-- LDG_ARRIVAL (R202): the data of a load that has been sent; the register is pending to the end of this cycle. -/
def execLdgArrival (core load : Nat) (s : State) : Host.Outcome State Fault Refusal :=
  match (s.m.core core).load load with
  | some g => match g.pa, g.atom, g.doneAt with
    | some pa, none, none => coreNext s core fun c =>
        let v := extendLoad g.bytes g.signed (leValue (c.globRead (some g.id) pa g.bytes))
        (c.setS g.dst.toNat v).modLoad load fun g => { g with doneAt := some s.m.now }
    | _, _, _ => .next s
  | none => .next s

/-- STG_ACK (R203): a store is acknowledged. -/
def execStgAck (core store : Nat) (s : State) : Host.Outcome State Fault Refusal :=
  coreNext s core fun c => { c with glb := { c.glb with
    writes := c.glb.writes.map fun w => if w.id == store && w.stg then { w with acked := true } else w } }

/-- ATOM_RETURN (R143, R205): an open-class atomic is performed, its old value returns with the flags of fadd (R144), and an acquire
order refreshes. -/
def execAtomReturn (core load : Nat) (s : State) : Host.Outcome State Fault Refusal :=
  match (s.m.core core).load load with
  | some g => match g.pa, g.atom, g.doneAt with
    | some pa, some a, none =>
      let n := if a.w64 then 8 else 4
      let old := leValue (s.m.dev.readBlock pa n)
      let r := a.apply old
      let m := (s.m.devAtomic (atAddr pa (leBytes n r.1))).modCore core fun c =>
        ((c.setS g.dst.toNat (a.returned old)).modLoad load fun g => { g with doneAt := some s.m.now }).flag s.m.now r.2
      .next { s with m := match g.acq with | some x => m.acquire core x | none => m }
    | _, _, _ => .next s
  | none => .next s

/-! ### Walks and translation holds (R168, R307 to R311) -/

/-- A translation hold ends (R168): without another cause of the stop the streams restart, counted from this cycle. -/
def Mach.endHold (m : Mach) (core : Nat) (f : Stop → Stop) : Mach :=
  match (m.core core).stop with
  | none => m
  | some p =>
    let p' := { f p with hold := none }
    let m := m.modCore core fun c => { c with stop := some p' }
    if p'.trap.isNone && !p'.intr && !p'.preempt && p'.shadow.isNone then m.setRestart core m.now else m

/-- The end of a walk of a load: its device address, or its shadow fault, recorded in the stop (R168, R171). -/
def Mach.loadWalked (m : Mach) (core : Nat) (g : GLoad) (e : Except WalkEnd Nat) : Mach :=
  let bad (code : Byte) (detail : W32) : Mach :=
    let m := m.modCore core fun c => { c with glb := { c.glb with loads := c.glb.loads.filter fun x => x.id != g.id } }
    m.endHold core fun p => { p with shadow := some (code, g.line, g.lane, BitVec.ofNat 64 g.va, detail) }
  match e with
  | .ok pa =>
    let c := m.core core
    let perm := match g.atom, c.bound with | some a, some b => b.atomPerm (a.op == 5) pa | _, _ => false
    if perm then bad Code.perm 0
    else
      let m := m.modCore core fun c => c.modLoad g.id fun g => { g with walk := false, pa := some pa, gpa := c.tlbPages g.va }
      if ((m.core core).stop.bind Stop.hold) == some g.id then m.endHold core id else m
  | .error (.fault code detail) => bad code detail
  | .error _ => m

/-- WALK_COMPLETE (R168, R307): a walk of an LDG, ATOM or STG is done. A walk that meets a migrating page goes on until the page has
landed (R419); one whose hold has yet to begin ends in the next cycle. -/
def execWalkComplete (core : Nat) (walk : Nat) (s : State) : Host.Outcome State Fault Refusal :=
  let m := s.m
  let c := m.core core
  match c.load walk with
  | some g =>
    if !g.walk then .next s
    else if c.hold.isSome then .next { s with m := { m with inbox := m.inbox ++ [(m.now + 1, .walkComplete core walk)] } }
    else
      let r := m.walkCore core g.va (if g.atom.isSome then .atomic else .read)
      .next { s with m := r.1.loadWalked core g r.2 }
  | none =>
    match c.glb.walks.find? fun w => w.id == walk && !w.done with
    | none => .next s
    | some w =>
      let r := m.walkCore core w.va .write
      let f : Option (Option (Byte × W32)) := match r.2 with
        | .ok _ => some none
        | .error (.fault code detail) => some (some (code, detail))
        | .error _ => none
      match f with
      | none => .next { s with m := r.1 }
      | some x => .next { s with m := r.1.modCore core fun c => { c with glb := { c.glb with
          walks := c.glb.walks.map fun y => if y.id == walk then { y with done := true, fault := x } else y } } }

/-! ### The frame (R169) -/

/-- Whether the frame of a stopped core completes in a cycle (R169). -/
def Core.frameDue (c : Core) (core now : Nat) : Bool :=
  match c.stop with
  | some p => !p.held && p.hold.isNone && p.restart.isNone && (p.trap.isSome || p.intr || p.shadow.isSome || p.preempt) &&
      (c.glb.loads.all fun g => p.cyc ≤ g.issued || g.doneAt.isSome) && c.frameEnd core p ≤ now
  | none => false

/-- FRAME_COMPLETE (R169 to R171): the frame is written, HELD becomes 1, and a fault raises CTIP. -/
def execFrameComplete (s : State) : Host.Outcome State Fault Refusal :=
  let core := s.m.cur
  coreNext s core fun c => match c.stop with
    | none => c
    | some p => { c with
        frame := c.frame.writeBlock 0x1000 (c.frameBytes core p)
        stop := some { p with held := true, frameAt := some s.m.now }
        ctl := { c.ctl with resv := none, ctip := c.ctl.ctip || p.trap.isSome || p.shadow.isSome } }

/-! ### Barriers (R29, R147, R213, R214) -/

/-- The arrivals that have reached a barrier in this cycle, counted together (R214). -/
def Barrier.countArrivals (now : Nat) (b : Barrier) : Barrier :=
  let due := b.coming.filter fun x => x.1 ≤ now
  { b with coming := b.coming.filter fun x => now < x.1, arrived := b.arrived + due.length,
           last := due.map (fun x => (x.2, b.gen)) ++ b.last.filter fun y => !(due.any fun x => x.2 == y.1) }

/-- BARRIER_ARRIVAL (R214): an arrival of the core reaches the barrier, with all that reach it in the same cycle; it completes with its last
one. -/
def execBarrierArrival (core : Nat) (bar : BarRef) (s : State) : Host.Outcome State Fault Refusal :=
  let m := s.m
  match (m.bar bar).coming.find? fun x => x.2 == core && x.1 ≤ m.now with
  | none => .next s
  | some _ => .next { s with m := m.changeBar bar (Barrier.countArrivals m.now) }

/-- Whether the S stream of a core stands at a BAR.wait of a barrier. -/
def Mach.atWait (m : Mach) (core : Nat) (bar : BarRef) : Bool :=
  let c := m.core core
  let st := c.stream .s
  match c.seq.cur, st.doneAt with
  | some b, none => match c.seq.entry b.num with
    | some e => (lineItems (c.seq.lineAt (e.first + st.line))).any fun it => it.lane == st.lane && (match it.instr with
        | .sBarWait l => Lane.barRef { m with cur := core } l == bar
        | _ => false)
    | none => false
  | _, _ => false

/-- BARRIER_COMPLETION (R29, R147): a completion reaches the core, with a refresh at a waiter; or its starvation, F.BARSTARVE of the
S stream, whose BAR.wait issues again at resume and waits anew. A core whose streams are stopped waits at no barrier (R213). -/
def execBarrierCompletion (core : Nat) (bar : BarRef) (s : State) : Host.Outcome State Fault Refusal :=
  let m := s.m
  let b := m.bar bar
  match b.going.find? fun x => x.2.1 == core && x.1 ≤ m.now with
  | none => .next s
  | some x =>
    let rest := b.going.erase x
    if x.2.2.2 then
      let s' : State := { s with m := m.setBar (Barrier.unwait core { b with going := rest }) }
      if (m.core core).stop.all fun p => p.cyc == m.now then .next (s'.stopCore core Mach.boundary (Stop.withTrap 0 ⟨Code.barstarve, 0, 0⟩))
      else .next s'
    else
      let m' := m.setBar { b with going := rest, reached := (core, x.2.2.1 + 1) :: b.reached.filter fun y => y.1 != core }
      .next { s with m := if m.atWait core bar then m'.refresh core else m' }

/-! ### Lingering streams and service replies (R149, R150, R163, R183) -/

/-- A lingering stream no longer belongs to its task (R149). -/
def Core.releaseStream (st : Stream) (c : Core) : Core :=
  { c with bound := c.bound.map fun b => { b with left := b.left.filter (· != st.idx), release := b.release.filter (· != st.idx) } }

/-- LINGER_RELEASE (R149, R150): a lingering stream no longer belongs to the ended task; with the last of a core that another task may hold by now,
its domains become OFF. -/
def execLingerRelease (core : Nat) (st : Stream) (s : State) : Host.Outcome State Fault Refusal :=
  let left (m : Mach) : Bool := (m.core core).bound.any fun b => !b.left.isEmpty
  let m := s.m.modCore core (Core.releaseStream st)
  .next { s with m := if 96 ≤ core && left s.m && !left m then m.shed core else m }

/-- SERVICE_REPLY (R163, R183): Feldspar's answer to an outstanding request, as a TYPE 0x4 event. -/
def execServiceReply (core : Nat) (tag : BitVec 16) (code : Byte) (s : State) : Host.Outcome State Fault Refusal :=
  coreNext s core fun c =>
    if c.ctl.requests.any fun r => r.1 == tag then
      ({ c with ctl := { c.ctl with requests := c.ctl.requests.filter fun r => r.1 != tag } } : Core).raise s.m.now
        (BitVec.ofNat 64 (4 * 2 ^ 60 + code.toNat * 2 ^ 48 + tag.toNat))
    else c

end Sys2Proof.Machine
end

