-- ==== Sys2Proof/Machine/Journal.lean ====
section
/-! DEFINITION. The hub's common operations: functions and queues, guest physical addresses (R307, R371), signals and halyards (R391), and
the journal (R389, R399, R400). -/
namespace Sys2Proof.Machine

/-! ### Functions, queues and tasks -/

/-- A function. -/
def Mach.fn (m : Mach) (f : Nat) : Fn := nth m.hub.fns f Fn.reset

/-- A function changed. -/
def Mach.modFn (m : Mach) (f : Nat) (g : Fn → Fn) : Mach := { m with hub := { m.hub with fns := m.hub.fns.modify f g } }

/-- A queue at reset (R367, R368). -/
def Queue.reset : Queue :=
  { qcb := 0, en := false, notify := 0, cons := 0, ldet := 0, lidx := 0, state := .off, park := none, parkNo := 0, wake := 0,
    g := List.replicate 16 0, ring := 0, rlog := 0, code := [], wins := [], pkt := none, rearmed := false, closing := false }

/-- A queue of a function. -/
def Fn.queue (x : Fn) (q : Nat) : Queue := ((x.queues.find? fun y => y.1 == q).map Prod.snd).getD Queue.reset

/-- A queue inserted in ascending number. -/
def insertQueue (q : Nat) (v : Queue) : List (Nat × Queue) → List (Nat × Queue)
  | [] => [(q, v)]
  | (k, w) :: r => if q < k then (q, v) :: (k, w) :: r else if q = k then (q, v) :: r else (k, w) :: insertQueue q v r

/-- A queue of a function replaced. -/
def Fn.setQueue (x : Fn) (q : Nat) (v : Queue) : Fn := { x with queues := insertQueue q v x.queues }

/-- A queue of the machine. -/
def Mach.queue (m : Mach) (f q : Nat) : Queue := (m.fn f).queue q

/-- A queue of the machine changed. -/
def Mach.modQueue (m : Mach) (f q : Nat) (g : Queue → Queue) : Mach := m.modFn f fun x => x.setQueue q (g (x.queue q))

/-- A task by its name within the hub. -/
def Mach.task (m : Mach) (seq : Nat) : Option Task := m.hub.tasks.find? fun t => t.seq == seq

/-- The task being served. -/
def Mach.served (m : Mach) : Option Task := m.curP.bind m.task

/-- A task changed. -/
def Mach.modTask (m : Mach) (seq : Nat) (g : Task → Task) : Mach :=
  { m with hub := { m.hub with tasks := m.hub.tasks.map fun t => if t.seq == seq then g t else t } }

/-! ### Guest physical addresses (R307, R371) -/

/-- The device address of a guest physical address of a function, by stage 2 alone; a write sets D (R308). -/
def Mach.gpa (m : Mach) (f a : Nat) (k : Access) : Except WalkEnd (Mach × Nat) :=
  match (m.fn f).s2root with
  | none => .error (.fault 0x11 (walkDetail 2 0 k none))
  | some root => match walk2 m.dev root a k k none with
    | .leaf base size _ _ d entry =>
      let m := if k.writes && !d then m.devAtomic (atAddr entry (leBytes 8 (m.dev.value entry 8 ||| 0x40))) else m
      .ok (m, base + a % size)
    | e => .error e

/-- The pieces of `n` bytes from a guest physical address on that lie each in one 64 KiB page. -/
def pagePieces : Nat → Nat → Nat → List (Nat × Nat)
  | 0, _, _ => []
  | fuel + 1, a, n =>
    if n = 0 then []
    else
      let k := min n (0x10000 - a % 0x10000)
      (a, k) :: pagePieces fuel (a + k) (n - k)

/-- The device addresses of `n` bytes at a guest physical address. -/
def Mach.gpaSpan (m : Mach) (f a n : Nat) (k : Access) : Except WalkEnd (Mach × List (Nat × Nat)) :=
  (pagePieces (n / 0x10000 + 2) a n).foldl (fun r p => match r with
    | .error e => .error e
    | .ok (m, l) => match m.gpa f p.1 k with
      | .error e => .error e
      | .ok (m', pa) => .ok (m', l ++ [(pa, p.2)])) (.ok (m, []))

/-- `n` bytes at a guest physical address of a function, as published to .sys (R141, R383). -/
def Mach.gpaRead (m : Mach) (f a n : Nat) : Except WalkEnd (List Byte) :=
  match m.gpaSpan f a n .read with
  | .error e => .error e
  | .ok (m', l) => .ok (l.flatMap fun p => m'.sys.readBlock p.1 p.2)

/-- Bytes written at a guest physical address of a function, published to .sys (R141, R380). -/
def Mach.gpaWrite (m : Mach) (f a : Nat) (bs : List Byte) : Except WalkEnd Mach :=
  match m.gpaSpan f a bs.length .write with
  | .error e => .error e
  | .ok (m', l) => .ok (l.foldl (fun r p => (Mach.devWrite r.1 (atAddr p.1 (r.2.take p.2)), r.2.drop p.2)) (m', bs)).1

/-- A 64-bit word at a guest physical address changed as by an atomic (R385): its old value. -/
def Mach.gpaAtomic (m : Mach) (f a : Nat) (g : Nat → Nat) : Except WalkEnd (Mach × Nat) :=
  match m.gpa f a .atomic with
  | .error e => .error e
  | .ok (m', pa) =>
    let old := m'.dev.value pa 8
    .ok (m'.devAtomic (atAddr pa (leBytes 8 (g old % 2 ^ 64))), old)

/-! ### Halyards (R391, R392) -/

/-- Whether the condition of a SIGWAIT holds (R385): `k` 0 .ge, 1 .eq, 2 .ne. -/
def sigHolds (k sig : Nat) (mask cmp : W64) : Bool :=
  let x := sig &&& mask.toNat
  let y := cmp.toNat &&& mask.toNat
  match k with
  | 0 => y ≤ x
  | 1 => x == y
  | _ => x != y

/-- The queues parked on a signal of a function's memory, in the order they parked: function, queue, order. -/
def Mach.halyard (m : Mach) (pa : Nat) : List (Nat × Nat × Nat) :=
  let all := (List.range m.hub.fns.length).flatMap fun f => (m.fn f).queues.filterMap fun y =>
    match y.2.park with
    | some (.signal a _ _ _) => if a = pa then some (f, y.1, y.2.parkNo) else none
    | _ => none
  all.foldl (fun l x => l.takeWhile (fun y => y.2.2 < x.2.2) ++ x :: l.dropWhile (fun y => y.2.2 < x.2.2)) []

/-- A signal's halyard walked (R391): each queue whose condition holds of the new value resumes in the next engine cycle. -/
def Mach.walkHalyard (m : Mach) (pa : Nat) : Mach :=
  let sig := m.dev.value pa 8
  (m.halyard pa).foldl (fun m x => m.modQueue x.1 x.2.1 fun q => match q.park with
    | some (.signal _ k mask cmp) => if sigHolds k sig mask cmp then { q with park := some (.go 1), wake := m.now + 1 } else q
    | _ => q) m

/-- A signal changed and its halyard walked: the machine and the old value. -/
def Mach.signal (m : Mach) (f a : Nat) (g : Nat → Nat) : Except WalkEnd (Mach × Nat) :=
  match m.gpaAtomic f a g with
  | .error e => .error e
  | .ok (m', old) => match m'.gpa f a .read with
    | .ok (_, pa) => .ok (m'.walkHalyard pa, old)
    | .error _ => .ok (m', old)

/-! ### Sequence numbers and commands (R16, R389) -/

/-- The next journal sequence number taken. -/
def Mach.takeSeq (m : Mach) : Mach × Nat := ({ m with hub := { m.hub with nextSeq := m.hub.nextSeq + 1 } }, m.hub.nextSeq % 2 ^ 48)

/-- The status of a command as WAITTASK sees it (R389): none while it has not completed. -/
def Fn.cmdStatus (x : Fn) (seq : Nat) : Option Byte :=
  match x.cmds.find? fun c => c.seq == seq with
  | none => some 0x85
  | some c => match c.status with
    | none => none
    | some st =>
      let after := ((x.cmds.dropWhile fun d => d.seq != seq).filter fun d => d.status.isSome).length
      if after ≤ 4096 then some st else some 0x87

/-- A command completed: its status is known, and the queues that wait for it resume in the next engine cycle (R389). -/
def Mach.cmdDone (m : Mach) (f seq : Nat) (st : Byte) : Mach :=
  let m := m.modFn f fun x => { x with cmds := (x.cmds.filter fun c => c.seq != seq) ++ [{ seq := seq, status := some st }] }
  (m.fn f).queues.foldl (fun m y => match y.2.park with
    | some (.task s r) => if s = seq then m.modQueue f y.1 fun q => { q with park := some (.done r (st.setWidth 64)), wake := m.now + 1 } else m
    | _ => m) m

/-! ### The journal (R399, R400) -/

/-- Places of the journal. -/
def Fn.places (x : Fn) : Nat := 2 ^ (x.jsize.toNat % 32)

/-- USED (R400). -/
def Fn.used (x : Fn) : Nat := (x.jwr - x.jrd).toNat

/-- Places that entries behind a fault have taken beyond the held ones and the kept one (R400). -/
def Fn.taken (x : Fn) : Nat := (x.waitJ.filter fun e => !e.held).length

/-- Whether a command can be accepted (R400). -/
def Fn.acceptRoom (x : Fn) : Bool := x.used + x.taken + x.heldJ + 3 ≤ x.places

/-- Whether an entry without a held place can be written (R400). -/
def Fn.entryRoom (x : Fn) : Bool := x.used + x.taken + x.heldJ + 2 ≤ x.places

/-- Whether the place kept for a RESET entry is free (R400): no unread RESET entry stands in it, and none waits for its write there. -/
def Fn.keptFree (x : Fn) : Bool := x.resetJ.isNone && !x.waitJ.any fun e => e.kind == 4 && e.held

/-- REF of an entry (R399). -/
def jref (seq queue fn : Nat) : W64 := BitVec.ofNat 64 (seq % 2 ^ 48 + queue * 2 ^ 48 + fn * 2 ^ 54)

/-- The bytes of an entry (R399). -/
def JEntry.bytes (e : JEntry) : List Byte :=
  leBytes 8 (e.seq % 2 ^ 48 + e.status.toNat * 2 ^ 48 + e.kind * 2 ^ 56) ++ leBytes 8 e.ref.toNat ++ leBytes 8 e.info.toNat ++
  leBytes 8 e.frec.1.toNat ++ leBytes 8 e.frec.2.1.toNat ++ leBytes 8 e.frec.2.2.toNat ++ leBytes 8 e.time ++ leBytes 8 0

/-- An entry of a kind, before its number and time are known. -/
def JEntry.new (kind : Nat) (status : Byte) (ref info : W64) (held : Bool) : JEntry :=
  { kind := kind, status := status, seq := 0, ref := ref, info := info, frec := (0, 0, 0), time := 0, held := held }

/-- The queue of an entry. -/
def JEntry.queue (e : JEntry) : Nat := (bits e.ref 48 6).toNat

/-- The command an entry concerns. -/
def JEntry.cmd (e : JEntry) : Nat := (bits e.ref 0 48).toNat

/-- Whether an entry completes a command that has an ACCEPT entry of its own (R399, R400): it takes that command's held place. (A RESET entry with
`held` takes the kept place.) -/
def JEntry.whole (e : JEntry) : Bool := e.kind == 2 && e.held

/-- What follows once an entry is written: a command is complete, a completed task's edges are released (R398), and the queue that
waited for its entry goes on. -/
def Mach.written (m : Mach) (f : Nat) (e : JEntry) : Mach :=
  let m := if e.whole then m.modFn f fun x => { x with heldJ := x.heldJ - 1 } else m
  let m := if e.whole then
      let ends (t : Task) : Bool := t.fn == f && t.num == e.cmd && t.state == .done
      let gone := (m.hub.tasks.filter ends).map Task.seq
      let m := { m with hub := { m.hub with tasks := (m.hub.tasks.filter fun (t : Task) => !ends t).map fun (t : Task) =>
        { t with edges := t.edges.filter fun x => !gone.contains x.seq } } }
      m.cmdDone f e.cmd e.status
    else m
  if e.kind = 1 || e.kind = 3 then
    m.modQueue f e.queue fun q => match q.park with
      | some .journal => { q with park := some (.go 4), wake := m.now + 1 }
      | _ => q
  else m

/-- One entry written at JWR, or none where its write meets a fault (R400). -/
def Mach.tryEntry (m : Mach) (f : Nat) (e : JEntry) : Option Mach :=
  let x := m.fn f
  let e := { e with time := m.now }
  match m.gpaWrite f (x.jbase.toNat + 64 * (x.jwr.toNat % x.places)) e.bytes with
  | .ok m' => some ((m'.modFn f fun y => { y with jwr := y.jwr + 1, resetJ := if e.kind = 4 && e.held then some y.jwr.toNat else y.resetJ }).written f e)
  | .error _ => none

/-- The page of a function's next entry pulled, where it has yet to migrate (R419). -/
def Mach.pullJournal (m : Mach) (f : Nat) : Mach :=
  let x := m.fn f
  match m.gpaSpan f (x.jbase.toNat + 64 * (x.jwr.toNat % x.places)) 64 .write with
  | .error (.pull g) => m.askPull f g
  | _ => m

/-- An entry of a function: written, or, behind a fault, waiting in order (R400). Kinds other than ACCEPT take a new sequence number. -/
def Mach.journal (m : Mach) (f : Nat) (e : JEntry) : Mach :=
  let (m, e) := if e.kind = 1 then (m, e) else let r := m.takeSeq; (r.1, { e with seq := r.2 })
  let wait (m : Mach) : Mach := m.modFn f fun x => { x with
    waitJ := x.waitJ ++ [e], retryAt := if x.waitJ.isEmpty then m.now + 1400000 else x.retryAt }
  if !(m.fn f).waitJ.isEmpty then wait m
  else match m.tryEntry f e with
    | some m' => m'
    | none => wait (m.pullJournal f)

/-- An entry without a held place (R400): a RESET entry takes the kept place where that is free; another is written if there is room and none waits
for room before it; else it is kept until there is room. -/
def Mach.journalRoom (m : Mach) (f : Nat) (e : JEntry) : Mach :=
  let x := m.fn f
  if e.kind = 4 && x.keptFree then m.journal f { e with held := true }
  else if x.roomJ.isEmpty && x.entryRoom then m.journal f e
  else m.modFn f fun x => { x with roomJ := x.roomJ ++ [e] }

/-- The entries of a function that wait for room, in order, as far as there is room now. -/
def Mach.drainRoom (m : Mach) (f : Nat) : Mach :=
  (m.fn f).roomJ.foldl (fun m e => m.journalRoom f e) (m.modFn f fun x => { x with roomJ := [] })

/-- Whether an entry of a queue waits, so that the queue parks with PARK 4 (R400). -/
def Fn.entryWaits (x : Fn) (q : Nat) : Bool :=
  (x.waitJ ++ x.roomJ).any fun e => (e.kind == 1 || e.kind == 3) && e.queue == q

/-- JOURNAL_RETRY (R400): the waiting entries of a function are written in order as far as their writes succeed. -/
def execJournalRetry (s : State) : Host.Outcome State Fault Refusal :=
  let fn := s.m.curQ.1
  let m := (s.m.fn fn).waitJ.foldl (fun (r : Mach × Bool) e =>
    if r.2 then match r.1.tryEntry fn e with
      | some m' => (m'.modFn fn fun x => { x with waitJ := x.waitJ.drop 1 }, true)
      | none => (r.1.pullJournal fn, false)
    else r) (s.m, true)
  .next { s with m := m.1.modFn fn fun x => { x with retryAt := s.m.now + 1400000 } }

/-- A command accepted (R386, R389, R400): its ACCEPT entry, the held COMPLETE place, and its number. -/
def Mach.accept (m : Mach) (f q : Nat) (info : W64) : Mach × Nat :=
  let (m, seq) := m.takeSeq
  let m := m.modFn f fun x => { x with heldJ := x.heldJ + 1, cmds := x.cmds ++ [{ seq := seq, status := none }] }
  (m.journal f { JEntry.new 1 0 (jref seq q f) info false with seq := seq }, seq)

/-- A command refused (R386): its ACCEPT entry with the status. -/
def Mach.refuse (m : Mach) (f q : Nat) (info : W64) (st : Byte) : Mach × Nat :=
  let (m, seq) := m.takeSeq
  let m := m.modFn f fun x => { x with cmds := x.cmds ++ [{ seq := seq, status := some st }] }
  (m.journal f { JEntry.new 1 st (jref seq q f) info false with seq := seq }, seq)

/-- The COMPLETE entry of a whole command (R399), in its held place. -/
def Mach.complete (m : Mach) (f q seq : Nat) (st : Byte) : Mach :=
  m.journal f (JEntry.new 2 st (jref seq q f) 0xFFFF true)

end Sys2Proof.Machine
end

