-- ==== Sys2Proof/Machine/Card.lean ====
section
/-! DEFINITION. Job cards (R17, R24, R395), native images and their trailers (R149, R159), and the shapes of blocks (R25, R407). -/
namespace Sys2Proof.Machine

/-- The value of `n` bytes of a byte string at an offset. -/
def field (bs : List Byte) (off n : Nat) : Nat := leValue ((bs.drop off).take n)

/-! ### Work-identifier specifications (R22 to R25, R407) -/

/-- The six entries of a specification: width and source. -/
def widEntries (spec : W64) : List (Nat × Nat) := (List.range 6).map (widEntry spec)

/-- The width of the field of a source, if the specification has one. -/
def widWidth (spec : W64) (src : Nat) : Option Nat := ((widEntries spec).find? fun e => e.2 == src && e.2 != 0).map Prod.fst

/-- The rules of R24, with the reserved bits of R22. -/
def widSpecOk (spec : W64) (repl : Nat) : Bool :=
  let es := widEntries spec
  let used := (es.filter fun e => e.2 != 0).map Prod.snd
  bits spec 60 4 == 0 &&
  (es.all fun e => e.2 ≤ 7 && (if e.2 = 0 then e.1 == 0 else e.1 != 0)) &&
  (es.dropWhile fun e => e.2 != 0).all (fun e => e.2 == 0) &&
  es.foldl (fun a e => a + e.1) 0 ≤ 64 &&
  used.eraseDups.length == used.length &&
  (match widWidth spec 1 with | some w => 2 ≤ w | none => true) &&
  (match widWidth spec 5 with | some w => repl ≤ 2 ^ w | none => true)

/-- The cores of a partition in ascending linear number (R25). -/
def Part.cores (p : Part) : List Nat := (List.range 96).filter fun c => p.quads.getLsbD (quadOf c)

/-- The dies of a partition. -/
def Part.dies (p : Part) : List Nat := (List.range 4).filter fun d => bits p.quads (6 * d) 6 != 0

/-- Quads of a partition on each of its dies. -/
def Part.quadsPerDie (p : Part) : Nat :=
  ((p.dies.head?.map fun d => (List.range 6).filter fun q => p.quads.getLsbD (6 * d + q)).getD []).length

/-- Whether a specification shapes its block by die, quad or core fields (R407). -/
def widShapes (spec : W64) : Bool := (widWidth spec 2).isSome || (widWidth spec 3).isSome || (widWidth spec 4).isSome

/-- Dies, quads of each die and cores of each quad of a block (R407). -/
def blockShape (spec : W64) (p : Part) : Nat × Nat × Nat :=
  let lim (src n : Nat) : Nat := match widWidth spec src with | some w => min (2 ^ w) n | none => 1
  (lim 4 p.dies.length, lim 3 p.quadsPerDie, lim 2 4)

/-- The number of cores of a block of a native task (R407). -/
def blockSize (spec : W64) (p : Part) : Nat :=
  if widShapes spec then
    let s := blockShape spec p
    s.1 * s.2.1 * s.2.2
  else match widWidth spec 7 with
    | some w => min (2 ^ w) p.cores.length
    | none => 1

/-- Whether a linear-core field, where there is one, numbers a block of `n` cores (R24, R407). -/
def linearFits (spec : W64) (n : Nat) : Bool := match widWidth spec 7 with | some w => n ≤ 2 ^ w | none => true

/-- Whether a task can be bound at all (R407): its replicas fit the partition, and a linear-core field numbers its block. -/
def bindable (native : Bool) (spec : W64) (repl : Nat) (p : Part) : Bool :=
  if !native then (repl == 1 || p.cores.length == 0) && linearFits spec p.cores.length
  else repl * blockSize spec p ≤ p.cores.length && linearFits spec (blockSize spec p)

/-- The logical numbers of a core counted within a set of cores: die, quad, core, and linear number (R25). -/
def logicalOf (cs : List Nat) (core : Nat) : Nat × Nat × Nat × Nat :=
  let below (l : List Nat) (x : Nat) : Nat := (l.eraseDups.filter (· < x)).length
  let die := below (cs.map dieOf) (dieOf core)
  let quad := below ((cs.filter fun c => dieOf c == dieOf core).map quadOf) (quadOf core)
  let k := below (cs.filter fun c => quadOf c == quadOf core) core
  (die, quad, k, below cs core)

/-- The WID of a core of a block (R22, R23, R26), as the core and its streams see it, or lane cluster `lc` while it runs a tile instruction. A
command-block task takes its whole partition, whose dies, quads or cores may be more than a field of its specification can number: the spec gives no
value there, and the number modulo 2^width is the model's choice (R25; log entry 69). -/
def widValue (spec : W64) (block : List Nat) (core replica : Nat) (iter : W64) (lc : Nat := 0) : W64 :=
  let l := logicalOf block core
  let src (k : Nat) : Nat := match k with
    | 1 => lc
    | 2 => l.2.2.1
    | 3 => l.2.1
    | 4 => l.1
    | 5 => replica
    | 6 => iter.toNat
    | 7 => l.2.2.2
    | _ => 0
  BitVec.ofNat 64 ((widEntries spec).foldl (fun (a : Nat × Nat) e => (a.1 + src e.2 % 2 ^ e.1 * 2 ^ a.2, a.2 + e.1)) (0, 0)).1

/-! ### Native images (R149, R159) -/

/-- Whether a trailer is valid (R149). -/
def trailerOk (t : List Byte) : Bool :=
  let smask := field t 0 1
  let n := field t 1 1
  let pne (i : Nat) : Nat := field t (4 + 4 * i) 4
  let stream (i : Nat) : Nat := pne i / 2 ^ 29
  smask < 32 && n ≤ 7 && field t 2 2 == 0 &&
  ((List.range 7).all fun i =>
    if n ≤ i then pne i == 0
    else stream i ≤ 4 && smask / 2 ^ stream i % 2 == 0 && pne i / 2 ^ 28 % 2 == 0 && pne i / 2 ^ 16 % 256 == 0 && pne i % 65536 != 0) &&
  ((List.range 5).all fun st => smask / 2 ^ st % 2 == 1 || (List.range n).any fun i => stream i == st)

/-- A record of initial values: kind, index and value (R159). -/
structure InitRec where
  kind : Nat
  idx  : Nat
  val  : BitVec 512
  deriving DecidableEq, Repr

/-- Whether a record's index and value keep the rules of its structure (R87, R159, R284, R337, R338). -/
def InitRec.ok (r : InitRec) : Bool :=
  let v := r.val.toNat
  match r.kind with
  | 1 => r.idx < 48 && v % 32 ≤ 0x15 && v / 32 % 256 == 0 && v < 2 ^ 14
  | 2 =>
    let w0 : W64 := BitVec.ofNat 64 v
    let w1 : W64 := BitVec.ofNat 64 (v / 2 ^ 64)
    let cap := ringSize w0 / max 1 (ringTile w1)
    r.idx < 8 && v < 2 ^ 128 && bits w1 56 8 == 0 && (ringWordTraps w0 (w1 &&& 0x3FFFFFFF)).isEmpty && ringHead w1 < cap && ringCount w1 ≤ cap
  | 3 => r.idx < 256 && handleOk r.val
  | 4 => r.idx < 1024 && v < 2 ^ 128 && descOk (BitVec.ofNat 128 v)
  | _ => false

/-- The parts of a native image that are used: directory, native lines and control lines with their tags, initial values and trailer. -/
structure Image where
  dir     : List (Nat × DirEntry)
  native  : List (Nat × BitVec 256 × W64)
  control : List (Nat × List Byte × W64)
  inits   : List InitRec
  trailer : BitVec 256

/-- A directory word (R159): its entry, none if not present; or the word breaks the rules. -/
def dirWord (w nline : Nat) : Option (Option DirEntry) :=
  let first := w % 2 ^ 13
  let count := w / 2 ^ 32 % 2 ^ 14
  if w / 2 ^ 13 % 2 ^ 19 != 0 || w / 2 ^ 46 % 2 ^ 17 != 0 then none
  else if w / 2 ^ 63 = 0 then some none
  else if count = 0 || 8192 < count || nline < first + count then none
  else some (some { first := first, count := count, rejected := none })

/-- A native image at a guest physical address, `len` bytes long, read and checked as R159 says; `get` reads bytes of it. -/
def parseImage (get : Nat → Nat → Option (List Byte)) (len : Nat) : Option Image :=
  match (if len < 0x80 then none else get 0 0x80) with
  | none => none
  | some h =>
    let nblk := field h 4 2
    let nline := field h 8 4
    let nctl := field h 0xC 4
    let dirOff := field h 0x10 8
    let lineOff := field h 0x18 8
    let ctlOff := field h 0x20 8
    let initOff := field h 0x28 8
    let ninit := field h 0x30 4
    let inLen (off n : Nat) : Bool := off % 8 == 0 && off + n ≤ len
    let ok := field h 0 4 == 1 && field h 6 2 == 0 && field h 0x34 12 == 0 && field h 0x60 32 == 0 &&
      1 ≤ nblk && nblk ≤ 1024 && 1 ≤ nline && nline ≤ 8192 && 1 ≤ nctl && nctl ≤ 1024 &&
      inLen dirOff (8 * nblk) && inLen lineOff (40 * nline) && inLen ctlOff (40 * nctl) &&
      (if initOff = 0 then ninit == 0 else inLen initOff (80 * ninit)) && trailerOk ((h.drop 0x40).take 32)
    if !ok then none
    else
      match get dirOff (8 * nblk), get lineOff (40 * nline), get ctlOff (40 * nctl), (if initOff = 0 then some [] else get initOff (80 * ninit)) with
      | some db, some lb, some cb, some ib =>
        let words := (List.range nblk).map fun b => dirWord (field db (8 * b) 8) nline
        let recs := (List.range ninit).map fun i => (ib.drop (80 * i)).take 80
        let inits := recs.map fun r => { kind := field r 0 1, idx := field r 2 2, val := bytesImage 512 (r.drop 16) : InitRec }
        if words.any Option.isNone || recs.any (fun r => field r 1 1 != 0 || field r 4 12 != 0) || inits.any (fun r => !r.ok) then none
        else some
          { dir := ((List.range nblk).zip words).filterMap fun x => (x.2.bind id).map fun e => (x.1, e)
            native := (List.range nline).map fun i => let r := (lb.drop (40 * i)).take 40; (i, bytesImage 256 (r.take 32), BitVec.ofNat 64 (field r 32 8))
            control := (List.range nctl).map fun i => let r := (cb.drop (40 * i)).take 40; (i, r.take 32, BitVec.ofNat 64 (field r 32 8))
            inits := inits
            trailer := bytesImage 256 ((h.drop 0x40).take 32) }
      | _, _, _, _ => none

/-- Bytes of device memory of a function, or none. -/
def Mach.image? (m : Mach) (f base off n : Nat) : Option (List Byte) :=
  match m.gpaRead f (base + off) n with
  | .ok bs => some bs
  | .error _ => none

/-! ### Job cards (R17, R395) -/

/-- A job card as read: its task, the status of its refusal, or a page of it that is still to be pulled. -/
inductive Card where
  | task (t : Task)
  | refused (st : Byte)
  | pulling (gpa : Nat)

/-- A partition by its number (R404). -/
def Mach.part (m : Mach) (n : Nat) : Option Part := m.hub.mgmt.parts.find? fun p => p.num == n

/-- The partition of a function (R404): 0xFF for none. -/
def Mach.fnPart (m : Mach) (f : Nat) : Nat := nth m.hub.mgmt.fmap f 0xFF

/-- A region of a job card, and whether it keeps R395. -/
def cardRegion (bs : List Byte) : Region × Bool :=
  let acc := field bs 8 8 / 2 ^ 62
  let len := field bs 8 8 % 2 ^ 40
  let start := field bs 0 8 % 2 ^ 48
  ({ start := start, len := len, r := acc % 2 == 1, w := acc / 2 == 1 }, acc != 0 && len != 0 && start + len ≤ 2 ^ 48)

/-- An empty P port. -/
def PPort.reset : PPort :=
  { block := 0, inBlk := 0, index := 0, seqNo := 0, pending := none, running := [], record := none, failed := none, reissue := none, subs := [], kept := [], hnds := [], descs := [], wake := 0,
    done := false, woke := [] }

/-- The first page of bytes of a function that is still to be pulled, if any (R419). -/
def Mach.pullOf (m : Mach) (f a n : Nat) : Option Nat :=
  if 2 ^ 30 ≤ n then none else match m.gpaSpan f a n .read with | .error (.pull g) => some g | _ => none

/-- Pages that something waits for, asked of a function (R419). -/
def Mach.askPages (m : Mach) (f : Nat) (ps : List (Option Nat)) : Mach :=
  ps.foldl (fun m p => match p with | some g => m.askPull f g | none => m) m

/-- The job card at a device address, checked in the order of R395: 0x80 before 0x81, and 0x81 before 0x82. -/
def Mach.card (m : Mach) (f q addr : Nat) (iter : W64) (readable : Nat → Nat → Bool) : Card :=
  match m.gpaRead f addr 0x60 with
  | .error (.pull g) => .pulling g
  | .error _ => .refused 0x81
  | .ok h =>
    let ver := field h 0 2
    let nreg := field h 2 1
    let kind := field h 3 1
    let repl := field h 6 2
    let spec : W64 := BitVec.ofNat 64 (field h 8 8)
    let image := field h 0x10 8
    let imgLen := field h 0x18 8
    let tokens := field h 0x20 8
    let htab := field h 0x28 8
    let nhnd := field h 0x30 2
    let ntd := field h 0x32 2
    let tdtab := field h 0x38 8
    let csig := field h 0x40 8
    let regs := match m.gpaRead f (addr + 0x60) (16 * nreg) with | .ok bs => some bs | .error _ => none
    let table (base size n : Nat) : Option (List Byte) := if n = 0 then (if base = 0 then some [] else none) else
      if base < 2 ^ 48 then m.image? f base 0 (size * n) else none
    let fields := addr % 64 == 0 && readable addr (0x60 + 16 * nreg) && nreg ≤ 32 && regs.isSome && 1 ≤ ver && ver ≤ 2 && kind ≤ 1 &&
      field h 4 1 ≤ 7 && 1 ≤ repl && repl ≤ 64 && (ver == 2 || (repl == 1 && csig == 0)) && widSpecOk spec repl &&
      ((List.range 8).all fun i => tokens / 2 ^ (8 * i) % 256 ≤ 8) && nhnd ≤ 256 && ntd ≤ 1024 && field h 0x34 4 == 0 &&
      field h 0x48 24 == 0 && csig % 8 == 0 && csig < 2 ^ 48 && image < 2 ^ 48 &&
      (if kind = 0 then imgLen == 0 && image % 256 == 0 && image != 0
       else image % 64 == 0 && (parseImage (m.image? f image) imgLen).isSome) &&
      (table htab 64 nhnd).isSome && (table tdtab 16 ntd).isSome &&
      ((regs.getD []).length == 16 * nreg && (List.range nreg).all fun i =>
        let r := ((regs.getD []).drop (16 * i)).take 16
        field r 0 8 < 2 ^ 48 && field r 8 8 / 2 ^ 40 % 2 ^ 22 == 0)
    let rs := (List.range nreg).map fun i => cardRegion (((regs.getD []).drop (16 * i)).take 16)
    let hb := (table htab 64 nhnd).getD []
    let tb := (table tdtab 16 ntd).getD []
    let page := [(addr + 0x60, 16 * nreg), (image, if kind = 1 then imgLen else 0), (htab, 64 * nhnd), (tdtab, 16 * ntd)].findSome? fun x => m.pullOf f x.1 x.2
    if let some g := page then .pulling g
    else if field h 5 1 != m.fnPart f || m.fnPart f = 0xFF then .refused 0x80
    else if !fields then .refused 0x81
    else if rs.any (fun r => !r.2) then .refused 0x82
    else .task
      { seq := 0, num := 0, pulls := [], fn := f, queue := q, part := field h 5 1, prio := field h 4 1, native := kind == 1, ver := ver, repl := repl, iter := iter,
        widSpec := spec, image := image, imgLen := imgLen, tokens := BitVec.ofNat 64 tokens, csig := csig, card := BitVec.ofNat 64 addr,
        regions := rs.map Prod.fst, edges := [], state := .ready, cores := [], boundAt := 0, ran := 0, killed := none,
        killers := [], preempt := none,
        port := { PPort.reset with
          block := image
          hnds := (List.range nhnd).map fun i => bytesImage 512 ((hb.drop (64 * i)).take 64)
          descs := (List.range ntd).map fun i => bytesImage 128 ((tb.drop (16 * i)).take 16) },
        saved := [], segs := [], barriers := [], savedAt := 0 }

end Sys2Proof.Machine
end

