-- ==== Sys2Proof/Machine/Sched.lean ====
section
/-! DEFINITION. The task scheduler and the dispatch hardware: edges and the window (R18, R19), binding (R20, R407, R408, R441), the end of
tasks (R398), pre-emption, saves and restores of tasks (R122, R123, R408 to R412), KILL (R421) and INV.S2 (R417). -/
namespace Sys2Proof.Machine

/-! ### Acceptance (R18, R19, R407) -/

/-- Whether two spans of addresses share a byte. -/
def Region.meets (a b : Region) : Bool := a.start < b.start + b.len && b.start < a.start + a.len

/-- The edge from an earlier task to a later one (R18), with every kind that applies: the later reads what the earlier writes, writes what it reads,
writes what it writes. -/
def Task.edgeTo (a b : Task) : Edge :=
  let pairs := (a.regions.flatMap fun x => b.regions.map fun y => (x, y)).filter fun p => p.1.meets p.2
  { seq := a.seq, raw := pairs.any fun p => p.1.w && p.2.r, war := pairs.any fun p => p.1.r && p.2.w, waw := pairs.any fun p => p.1.w && p.2.w }

/-- Whether two tasks conflict (R18). -/
def Task.conflicts (a b : Task) : Bool := let e := a.edgeTo b; e.raw || e.war || e.waw

/-- The unretired tasks of a partition. -/
def Mach.window (m : Mach) (part : Nat) : List Task := m.hub.tasks.filter fun t => t.part == part

/-- Whether the window of a function's partition has a place (R19). -/
def Mach.windowRoom (m : Mach) (f : Nat) : Bool := (m.window (m.fnPart f)).length < 256

/-- An accepted task enters the window: its edges, and, where its partition cannot hold it, its end (R18, R407). -/
def Mach.addTask (m : Mach) (t : Task) : Mach :=
  let edges := ((m.window t.part).filter fun u => u.conflicts t).map fun u => u.edgeTo t
  let ok := match m.part t.part with | some p => bindable t.native t.widSpec t.repl p | none => false
  let t := { t with num := t.seq, edges := edges, state := if ok then .ready else .ending, killed := if ok then none else some 0x81 }
  { m with hub := { m.hub with tasks := m.hub.tasks ++ [t] } }

/-! ### Rank (R408) -/

/-- The POLICY weight of a function in a partition. -/
def Part.weight (p : Part) (f : Nat) : Nat := nth p.weights f 1

/-- The bound core-time of a function. -/
def Mach.coreTime (m : Mach) (f : Nat) : Nat :=
  m.hub.tasks.foldl (fun a t => if t.fn = f && t.state == .bound then a + t.cores.length * (m.now - t.boundAt) else a) (m.fn f).coreTime

/-- Whether a task ranks above another of its partition (R408). -/
def Mach.above (m : Mach) (p : Part) (a b : Task) : Bool :=
  let ka := m.coreTime a.fn * p.weight b.fn
  let kb := m.coreTime b.fn * p.weight a.fn
  b.prio < a.prio || (a.prio == b.prio && (ka < kb || (ka == kb && a.seq < b.seq)))

/-- Whether a task waits to be bound (R398, R408, R411). -/
def Mach.waiting (m : Mach) (p : Part) (t : Task) : Bool :=
  t.part == p.num && ((t.state == .ready && t.edges.isEmpty) || t.state == .saved) && t.killed.isNone && p.weight t.fn != 0 &&
  !(m.fn t.fn).paused

/-- Whether a core of an ended program may be taken for another task (R148, R150): the streams that stop have stopped, and those that linger have
finished their block. -/
def Core.swappable (c : Core) (now : Nat) : Bool :=
  match c.bound with
  | none => false
  | some b => !b.chain && b.endStat.isSome && c.stop.isNone && c.flight.isEmpty && c.port.tiles.isEmpty && c.seq.queue.isEmpty &&
      (c.glb.loads.all fun g => g.doneAt.isSome) && (b.left.all fun st => !b.trailer.getLsbD st) &&
      (c.seq.cur.isNone || c.seq.streams.all fun s => match s.doneAt with | some t => t ≤ now | none => false)

/-- Whether a task lingers (R150): only streams outside its masks are left of it, and no earlier task lingers on its cores. -/
def Mach.swappable (m : Mach) (t : Task) : Bool :=
  t.native && t.state == .bound && t.killed.isNone && t.preempt.isNone &&
  (t.cores.all fun c => c < 96 && (m.core c).swappable m.now && !m.active.contains (96 + c)) &&
  t.cores.any fun c => (m.core c).bound.any fun b => !b.left.isEmpty

/-- The free cores of a partition: unbound, or left by a task that lingers (R150). -/
def Mach.freeCores (m : Mach) (p : Part) : List Nat :=
  let left := (m.hub.tasks.filter m.swappable).flatMap Task.cores
  p.cores.filter fun c => (m.core c).bound.isNone || left.contains c

/-- Cores that a task needs (R407). -/
def Task.need (t : Task) (p : Part) : Nat := if t.native then t.repl * blockSize t.widSpec p else p.cores.length

/-! ### The choice of a bind (R20, R25, R407, R441) -/

/-- Whether cores form a block of a task (R407). -/
def Task.blockOk (t : Task) (p : Part) (b : List Nat) : Bool :=
  if !t.native then b == p.cores
  else b.length == blockSize t.widSpec p && b.all p.cores.contains && b.eraseDups.length == b.length &&
    (!widShapes t.widSpec ||
      let s := blockShape t.widSpec p
      let quads := (b.map quadOf).eraseDups
      (b.map dieOf).eraseDups.length == s.1 && ((b.map dieOf).eraseDups.all fun d => (quads.filter fun q => q / 6 == d).length == s.2.1) &&
      quads.all fun q => (b.filter fun c => quadOf c == q).length == s.2.2)

/-- Cores in ascending order without repeats. -/
def insertCore (c : Nat) : List Nat → List Nat
  | [] => [c]
  | a :: r => if c < a then c :: a :: r else if a = c then a :: r else a :: insertCore c r

/-- The quad segments a choice gives a core. -/
def choiceQuad (ch : BindChoice) (c : Nat) : BitVec 16 := ((ch.quadSegs.find? fun x => x.1 == c).map Prod.snd).getD 0

/-- The die segments a choice gives a core. -/
def choiceDie (ch : BindChoice) (c : Nat) : BitVec 32 := ((ch.dieSegs.find? fun x => x.1 == c).map Prod.snd).getD 0

/-- Where a core goes in a restore: saved core and new core, block by block in ascending order. -/
def coreMap (t : Task) (ch : BindChoice) : List (Nat × Nat) :=
  let sort (l : List Nat) : List Nat := l.foldl (fun a c => insertCore c a) []
  let blocks := (List.range ch.blocks.length).map fun r => sort ((t.saved.filter fun x => match x.2.bound with | some b => b.replica == r | none => false).map Prod.fst)
  (List.zipWith (fun a b => a.zip (sort b)) blocks ch.blocks).flatten

/-- The quad and die segments that a core owns once its task is bound: those of the choice, or, of a saved task, those that it owned (R120, R122). -/
def Task.segsAt (t : Task) (ch : BindChoice) (c : Nat) : BitVec 16 × BitVec 32 :=
  if t.saved.isEmpty then (choiceQuad ch c, choiceDie ch c)
  else match ((coreMap t ch).find? fun x => x.2 == c).bind fun x => (t.saved.find? fun y => y.1 == x.1).bind fun y => y.2.bound with
    | some b => (b.ownQ, b.ownD)
    | none => (0, 0)

/-- Whether the segments of a choice have no other owner (R120); what a lingering task holds may be given (R150). -/
def Mach.segsFree (m : Mach) (t : Task) (ch : BindChoice) (cs : List Nat) : Bool :=
  let own (c : Nat) : BitVec 16 × BitVec 32 := if cs.contains c then t.segsAt ch c else match (m.core c).bound with
    | some b => (b.ownQ, b.ownD)
    | none => (0, 0)
  let others := (m.active.filter (· < 96)) ++ cs
  cs.all fun c => others.all fun k => k == c ||
    ((quadOf k != quadOf c || (own k).1 &&& (own c).1 == 0) && (dieOf k != dieOf c || (own k).2 &&& (own c).2 == 0))

/-- The dies of a set of quads, the quads on the lowest of them, and the slots of a partition: its shape (R412). -/
def shapeKey (quads : BitVec 24) (hslots : Nat) : Nat × Nat × Nat :=
  let p : Part := { num := 0, quads := quads, hslots := hslots, slice := 0, watch := 0, weights := [] }
  (p.dies.length, p.quadsPerDie, hslots)

/-- Whether a partition has the shape that a saved task was bound to (R412). -/
def Task.sameShape (t : Task) (p : Part) : Bool :=
  t.saved.all fun x => x.2.bound.all fun b => shapeKey b.quads b.hslots == shapeKey p.quads p.hslots

/-- The places in a channel's period that a partition takes with an origin (R441). -/
def slotsAt (h : Nat × Nat) : List Nat := (channelSlots h.1).map fun s => (s + h.2) % 64

/-- Whether partitions can be given origins (of their slots: each the number, and the origin where it is fixed) so that no place of a channel's period
is given twice, and none of `used` (R404, R441). -/
def originsFit : List (Nat × Option Nat) → List Nat → Bool
  | [], _ => true
  | (h, o) :: rest, used =>
    (match o with | some x => [x % 64] | none => List.range 64).any fun x =>
      let s := slotsAt (h, x)
      s.eraseDups.length == s.length && s.all (fun y => !used.contains y) && originsFit rest (used ++ s)

/-- The origin of the bound cores of a partition, if it has any. -/
def Mach.originOf (m : Mach) (part : Nat) : Option Nat :=
  (m.active.find? fun c => (m.core c).bound.any fun b => b.part == part).bind fun c => (m.core c).bound.map Bind.origin

/-- Whether a period origin for a partition keeps to what its bound cores have, and leaves every partition its slots of each timed channel beside the
refresh (R404, R441). -/
def Mach.originOk (m : Mach) (p : Part) (origin : Nat) : Bool :=
  m.hub.mgmt.tstk == 0 ||
    ((match m.originOf p.num with | some o => o % 64 == origin % 64 | none => true) &&
     (List.range 64).any fun r => originsFit ((p.hslots, some origin) :: (m.hub.mgmt.parts.filter fun q => q.num != p.num).map fun q => (q.hslots, m.originOf q.num))
       ((List.range 8).map fun i => (r + i) % 64))

/-- Pages under the pinned windows of a choice that are still to be pulled, which is done before the bind (R419). -/
def Mach.pinPages (m : Mach) (t : Task) (ch : BindChoice) : List (Option Nat) :=
  ch.pins.flatMap fun w => (List.range w.units).filterMap fun i =>
    match walk12 m.dev ch.s1root ((m.fn t.fn).s2root.getD 0) (w.vbase + 0x10000 * i) .read with | .error (.pull g) => some (some g) | _ => none

/-- Whether a choice fits a task: blocks of the right number and shape on free cores, disjoint, with segments of their own, an origin
that gives every partition its slots, and pinned windows laid out as R311 says, each page in a timed channel; a saved task in a partition of its shape (R412). -/
def Mach.choiceFits (m : Mach) (t : Task) (p : Part) (ch : BindChoice) : Bool :=
  let cs := ch.blocks.flatten
  ch.blocks.length == (if t.native then t.repl else 1) && ch.blocks.all (t.blockOk p) && cs.eraseDups.length == cs.length &&
  cs.all (m.freeCores p).contains && m.segsFree t ch cs && t.sameShape p && m.originOk p ch.origin && ch.pins.length ≤ 16 && ch.s1root < 2 ^ 48 &&
  (ch.pins.all fun w => w.vbase % 0x10000 == 0 && w.pbase % 0x10000 == 0 && w.vbase < 2 ^ 48 &&
    w.pbase + 0x10000 * w.units ≤ 2 ^ 48 && w.units < 0x10000 && PinWin.timed w m.hub.mgmt.tstk)

/-- Whether Feldspar may bind a task by a choice. -/
def Mach.choiceOk (m : Mach) (t : Task) (p : Part) (ch : BindChoice) : Bool := m.choiceFits t p ch && (m.pinPages t ch).isEmpty

/-- The route period of a partition (R155, R441): the quad network, die ring and cross-die slots repeat every 48 cycles, those of timed
channels every 64. -/
def Mach.cperiod (m : Mach) (p : Part) : Nat := if m.hub.mgmt.tstk != 0 && p.hslots != 0 then 192 else 48

/-- The first cycle after this one congruent to an origin. -/
def Mach.nextPhase (m : Mach) (origin per : Nat) : Nat :=
  let t := m.now + 1
  t + (origin % per + per - t % per) % per

/-- The bind record of a core (R20, R311, R416, R441). -/
def Mach.bindRec (m : Mach) (t : Task) (p : Part) (ch : BindChoice) (trailer : BitVec 256) (r : Nat) (block : List Nat) (core : Nat) : Bind :=
  let per := m.cperiod p
  let f := m.fn t.fn
  { task := t.seq, replica := r, fn := t.fn, part := t.part, chain := !t.native, wid := widValue t.widSpec block core r t.iter,
    widSpec := t.widSpec, linear := (logicalOf p.cores core).2.2.2, begin := m.nextPhase ch.origin per, members := ch.blocks.flatten,
    quads := p.quads, hslots := p.hslots, tstk := m.hub.mgmt.tstk, cperiod := per, origin := ch.origin, pins := ch.pins,
    ownQ := choiceQuad ch core, ownD := choiceDie ch core, foot := t.regions, s1root := ch.s1root, s2root := f.s2root.getD 0,
    hostWins := f.hostWins, peers := f.peers, key := f.key, trailer := trailer, endStat := none, left := [], release := [], out := false,
    seat := placeOf p.quads core }

/-- One initial value loaded (R87, R159, R284, R338). -/
def Core.loadInit (c : Core) (r : InitRec) : Core :=
  let v := r.val.toNat
  match r.kind with
  | 1 => { c with pad := { c.pad with fmt := c.pad.fmt.set r.idx (BitVec.ofNat 32 v) } }
  | 2 => c.modRing r.idx fun _ => ⟨BitVec.ofNat 64 v, BitVec.ofNat 64 (v / 2 ^ 64), none, 0⟩
  | 3 => { c with port := { c.port with hnds := (r.idx, r.val) :: c.port.hnds.filter fun h => h.1 != r.idx } }
  | 4 => { c with port := { c.port with descs := (r.idx, BitVec.ofNat 128 v) :: c.port.descs.filter fun d => d.1 != r.idx } }
  | _ => c

/-- The core of a bind record before an image is loaded: every register as R92, R121, R155, R165 and R189 give it at the first instruction. -/
def Core.bindWith (b : Bind) : Core :=
  { Core.reset with
    bound := some b
    ctl := { Ctl.reset with ready := b.begin, mcBase := b.begin, ended := b.chain } }

/-- The queue registers of a core with the tokens of its job card (R17, R20). -/
def Core.withTokens (c : Core) (tokens : W64) : Core :=
  { c with scal := { c.scal with q := (List.range 8).map fun i => List.replicate (bits tokens (8 * i) 8).toNat 0 } }

/-- An image loaded into a core (R55, R153, R159). -/
def Core.loadImage (c : Core) (im : Image) (key : Option (BitVec 128)) : Core :=
  let c := im.inits.foldl Core.loadInit c
  { c with
    cstore := im.control.foldl (fun s l => s.writeBlock (32 * l.1) l.2.1) []
    marked := (im.control.filter fun l => !tagOk key 2 l.1 l.2.1 l.2.2).map fun l => l.1
    seq := { c.seq with dir := im.dir, loading := im.native } }

/-- A core starts to belong to a task, beside what a lingering stream has booked of its ports and slots (R150). -/
def Mach.occupy (m : Mach) (core : Nat) (c : Core) : Mach :=
  let old := m.core (96 + core)
  let c := { c with slots := old.slots, pad := { c.pad with ports := old.pad.ports } }
  ({ m.setCore core c with active := insertCore core m.active }).segsOff core

/-- The replicas of a ready task bound (R20, R159, R407); every port of a command-block task holds the handle table of its job card (R338). -/
def Mach.bindTask (m : Mach) (t : Task) (p : Part) (ch : BindChoice) (im : Option Image) : Mach :=
  let key := (m.fn t.fn).key
  let trailer : BitVec 256 := (im.map Image.trailer).getD 0x1F
  let hnds := (List.range t.port.hnds.length).zip t.port.hnds
  let m' := ((List.range ch.blocks.length).zip ch.blocks).foldl (fun m' b => b.2.foldl (fun m' core =>
    let c := Core.bindWith (m.bindRec t p ch trailer b.1 b.2 core)
    m'.occupy core ((match im with | some im => c.loadImage im key | none => { c with port := { c.port with hnds := hnds } }).withTokens t.tokens)) m') m
  m'.modTask t.seq fun t => { t with state := .bound, cores := ch.blocks.flatten, boundAt := m.now, preempt := none }

/-! ### Saved tasks bound again (R122, R123, R411, R412) -/

/-- A core under a map. -/
def mapCore (cm : List (Nat × Nat)) (c : Nat) : Nat := ((cm.find? fun x => x.1 == c).map Prod.snd).getD c

/-- A scratchpad under a map of cores: a quad's or die's goes where the first core of the map that lies there goes. -/
def mapPad (cm : List (Nat × Nat)) : Pad → Pad
  | .core c => .core (mapCore cm c)
  | .quad q => .quad (((cm.find? fun x => quadOf x.1 == q).map fun x => quadOf x.2).getD q)
  | .die d => .die (((cm.find? fun x => dieOf x.1 == d).map fun x => dieOf x.2).getD d)

/-- A place under a map of cores. -/
def mapPlace (cm : List (Nat × Nat)) : Place → Place
  | .pad p a => .pad (mapPad cm p) a
  | x => x

/-- A destination under a map of cores. -/
def Dest.remap (cm : List (Nat × Nat)) : Dest → Dest
  | .pad pd b => .pad (mapPad cm pd) b
  | .atom pl a d ret acq => .atom (mapPlace cm pl) a d ret acq
  | .tile b => .tile { b with out := b.out.map fun x => (mapPlace cm x.1, x.2) }
  | x => x

/-- A result moved by `d` cycles to other cores. -/
def Result.remap (cm : List (Nat × Nat)) (d : Nat) (r : Result) : Result :=
  { r with w := r.w + d, issued := r.issued + d, dep := r.dep.map (· + d),
           dest := match r.dest.remap cm with | .atom pl a n ret acq => .atom pl a n (ret + d) acq | x => x,
           src := r.src.map (mapPlace cm),
           reads := r.reads.map fun l => { l with cyc := l.cyc + d, pad := mapPad cm l.pad } }

/-- A copy unit moved likewise. -/
def CopyUnit.remap (cm : List (Nat × Nat)) (d : Nat) (u : CopyUnit) : CopyUnit :=
  { u with src := u.src.map fun x => (mapPlace cm x.1, x.2), dst := u.dst.map fun x => (mapPlace cm x.1, x.2), askAt := u.askAt + d,
           readAt := u.readAt + d, haveAt := u.haveAt + d, depAt := u.depAt + d, writeAt := u.writeAt + d, newAt := u.newAt.map (· + d),
           puts := u.puts.map fun l => l.map fun x => (mapPlace cm x.1, x.2) }

/-- A saved core moved by `d` cycles to other cores: all its own cycles move alike, so the restart keeps every distance (R412). -/
def Core.remap (cm : List (Nat × Nat)) (d : Nat) (c : Core) : Core :=
  let mv (t : Nat) : Nat := t + d
  { c with
    ctl := { c.ctl with ready := mv c.ctl.ready }
    flight := c.flight.map (Result.remap cm d)
    pad := { c.pad with ports := c.pad.ports.map fun b => (b.1, mv b.2.1, b.2.2) }
    slots := c.slots.map fun b => (b.1, b.2.1, mv b.2.2.1, b.2.2.2)
    doms := c.doms.map fun x => { x with pend := x.pend.map fun p => (mv p.1, p.2) }
    stop := c.stop.map fun p => { p with cyc := mv p.cyc, frameAt := p.frameAt.map mv }
    seq := { c.seq with
      queue := c.seq.queue.map fun q => { q with cyc := mv q.cyc }
      streams := c.seq.streams.map fun s => { s with next := mv s.next, occ := mv s.occ, doneAt := s.doneAt.map mv } }
    scal := { c.scal with freed := [], block := c.scal.block.map mv }
    mx := { c.mx with
      ops := c.mx.ops.map fun o => { o with f := mv o.f, retire := mv o.retire, write := mv o.write }
      due := c.mx.due.map fun x => { x with cyc := mv x.cyc, count := x.count.map mv }
      joint := c.mx.joint.map mv }
    xe := { c.xe with
      copies := c.xe.copies.map fun k => { k with issued := mv k.issued, units := k.units.map (CopyUnit.remap cm d), doneAt := k.doneAt.map mv }
      chans := c.xe.chans.map fun h => h.map fun x => { x with arm := x.arm.map fun a => (a.1, a.2.1, a.2.2.1, mv a.2.2.2) } }
    port := { c.port with tiles := c.port.tiles.map fun t => { t with retire := mv t.retire, since := mv t.since } } }

/-- A domain under a map of cores. -/
def mapDom (cm : List (Nat × Nat)) : DomRef → DomRef
  | .core c b => .core (mapCore cm c) b
  | .quad q s => match mapPad cm (.quad q) with | .quad q => .quad q s | _ => .quad q s
  | .die d s => match mapPad cm (.die d) with | .die d => .die d s | _ => .die d s

/-- A P port of a task under a map of cores, with its instruction's cycle moved by `d` (R412). -/
def PPort.remap (cm : List (Nat × Nat)) (d : Nat) (p : PPort) : PPort :=
  { p with woke := p.woke.map (mapDom cm), running := p.running.map fun k => { k with endAt := k.endAt.map fun e => (e.1 + d, e.2) } }

/-- A barrier under a map of cores. -/
def Barrier.remap (cm : List (Nat × Nat)) (b : Barrier) : Barrier :=
  { b with
    ref := { b.ref with inst := match b.ref.inst with
      | .quad q => .quad (((cm.find? fun x => quadOf x.1 == q).map fun x => quadOf x.2).getD q)
      | .die d => .die (((cm.find? fun x => dieOf x.1 == d).map fun x => dieOf x.2).getD d)
      | .part => .part }
    members := b.members.map (mapCore cm)
    coming := b.coming.map fun x => (x.1, mapCore cm x.2)
    last := b.last.map fun x => (mapCore cm x.1, x.2)
    going := b.going.map fun x => (x.1, mapCore cm x.2.1, x.2.2)
    reached := b.reached.map fun x => (mapCore cm x.1, x.2)
    waiting := b.waiting.map (mapCore cm) }

/-! ### Lingering tasks (R148, R150) -/

/-- The bits of those numbers below `w` that a test picks. -/
def bitsOf (w : Nat) (f : Nat → Bool) : BitVec w := BitVec.ofNat w (((List.range w).filter f).foldl (fun a i => a + 2 ^ i) 0)

/-- What is left of core `core` of a lingering task moves to core 96 + `core`: domains that no lingering stream holds become OFF (R150). -/
def Mach.lingerCore (m : Mach) (cm : List (Nat × Nat)) (core : Nat) : Mach :=
  let held := m.heldDoms core
  let bank (i : Nat) : Bool := held.contains (.core core i)
  let x := (m.core core).remap cm 0
  let keepQ := bitsOf 16 fun i => held.contains (.quad (quadOf core) i)
  let keepD := bitsOf 32 fun i => held.contains (.die (dieOf core) i)
  let own (q : BitVec 16) (d : BitVec 32) (c : Core) : Core :=
    { c with bound := c.bound.map fun b => { b with ownQ := b.ownQ &&& q, ownD := b.ownD &&& d } }
  let m := (m.modCore core (own (~~~keepQ) (~~~keepD))).segsOff core
  let x := own keepQ keepD { x with
    doms := (List.range 55).map fun i => if bank i then nth x.doms i Dom.offDom else Dom.offDom
    pad := { x.pad with mem := x.pad.mem.filter fun a => bank (bankOf a.1) } }
  { (m.setCore (96 + core) x).setCore core Core.reset with active := insertCore (96 + core) (m.active.filter (· != core)) }

/-- A lingering task leaves its cores to the next one (R150). -/
def Mach.lingerTask (m : Mach) (t : Task) : Mach :=
  let cm := t.cores.map fun c => (c, 96 + c)
  let m := t.cores.foldl (fun m c => m.lingerCore cm c) m
  let m := { m with
    bars := m.bars.map fun (b : Barrier) => if b.ref.task = t.seq then b.remap cm else b
    pubs := m.pubs.map fun (p : Pub) => if p.task = t.seq then { p with core := p.core.map (mapCore cm) } else p
    hub := { m.hub with invs := m.hub.invs.map fun (v : Inv) => { v with waits := v.waits.map fun (w : Nat × Nat) => (mapCore cm w.1, w.2) } } }
  m.modTask t.seq fun t => { t with cores := t.cores.map (mapCore cm) }

/-- The lingering tasks that hold one of some cores leave them. -/
def Mach.makeRoom (m : Mach) (cs : List Nat) : Mach :=
  (m.hub.tasks.filter fun t => m.swappable t && t.cores.any cs.contains).foldl Mach.lingerTask m

/-- Domains of a saved core that a restore wakes (R123). -/
def Task.wakeList (t : Task) (cm : List (Nat × Nat)) (core : Nat) (c : Core) : List DomRef :=
  let held (x : Dom) : Bool := match x.st with | .on => true | .retain => true | _ => false
  let new := mapCore cm core
  let segs := t.segs.filterMap fun s => match s.1 with
    | .quad q => if q = quadOf core && (match c.bound with | some b => b.ownQ.getLsbD s.2.1 | none => false) && held s.2.2.2.2 then some (DomRef.quad (quadOf new) s.2.1) else none
    | .die k => if k = dieOf core && (match c.bound with | some b => b.ownD.getLsbD s.2.1 | none => false) && held s.2.2.2.2 then some (DomRef.die (dieOf new) s.2.1) else none
    | _ => none
  (((List.range 55).filter fun i => held (nth c.doms i Dom.offDom)).map (DomRef.core new)) ++
  segs.filter (fun s => domSpace s == 1) ++ segs.filter (fun s => domSpace s == 2)

/-- A saved task bound again: its cores are taken, and the domains it needs start to wake (R123, R412). -/
def Mach.startRestore (m : Mach) (t : Task) (p : Part) (ch : BindChoice) : Mach :=
  let cm := coreMap t ch
  let m' := t.saved.foldl (fun m' x =>
    let new := mapCore cm x.1
    match x.2.bound with
    | none => m'
    | some b =>
      let nb := { m.bindRec t p ch b.trailer b.replica (nth ch.blocks b.replica []) new with
        begin := b.begin, wid := b.wid, ownQ := b.ownQ, ownD := b.ownD, endStat := b.endStat, left := b.left, release := b.release, out := b.out,
        seat := b.seat }
      let c := Core.bindWith nb
      let m' := m'.occupy new { c with ctl := { c.ctl with ended := true }
                                       stop := some { Stop.new m.now with preempt := true, held := true } }
      (m'.planWakes new (t.wakeList cm x.1 x.2)).1) m
  m'.modTask t.seq fun t => { t with state := .restoring, cores := ch.blocks.flatten, boundAt := m.now, preempt := none }

/-- Where a restoring task's saved cores go: those saved, to those taken with the same replica and work identifier order. -/
def Mach.restoreMap (m : Mach) (t : Task) : List (Nat × Nat) :=
  let repl (cs : List Nat) (bound : Nat → Option Bind) (r : Nat) : List Nat :=
    (cs.foldl (fun a c => insertCore c a) []).filter fun c => match bound c with | some b => b.replica == r | none => false
  (List.range t.repl).flatMap fun r =>
    (repl (t.saved.map Prod.fst) (fun c => (t.saved.find? fun x => x.1 == c).bind fun x => x.2.bound) r).zip
      (repl t.cores (fun c => (m.core c).bound) r)

/-- Whether every domain a restoring task waits for is ON (R123). -/
def Mach.restoreReady (m : Mach) (t : Task) : Bool :=
  let cm := m.restoreMap t
  t.saved.all fun x => (m.core (mapCore cm x.1)).port.wakes.isEmpty && (t.wakeList cm x.1 x.2).all fun d => (m.dom d).st == .on

/-- The clock base with which mcycle resumes (R155): its saved value, advanced by the least count that keeps the phase. -/
def resumedBase (now savedAt : Nat) (base : Int) (origin per : Nat) : Int :=
  let v : Int := (savedAt : Int) - base
  let b : Int := (now : Int) - v
  b - ((b - (origin : Int)) % (max 1 per : Int))

/-- The contents of a restoring task written back, and its streams restarted (R123, R175, R412): a segment goes to the quad or die of the core that owns
it, and what a core has under way to that of the core. -/
def Mach.finishRestore (m : Mach) (t : Task) : Mach :=
  let cm := m.restoreMap t
  let last := t.saved.foldl (fun a x => max a ((x.2.stop.map Stop.cyc).getD 0)) 0
  let m := t.saved.foldl (fun m x =>
    let new := mapCore cm x.1
    match (m.core new).bound with
    | none => m
    | some nb =>
      let base := resumedBase m.now t.savedAt x.2.ctl.mcBase nb.origin nb.cperiod
      let per : Int := max 1 nb.cperiod
      let want : Nat := ((base - x.2.ctl.mcBase) % per).toNat
      let lo := m.now - last
      let d := lo + (want + nb.cperiod - lo % max 1 nb.cperiod) % max 1 nb.cperiod
      let c := x.2.remap ((x.1, new) :: cm) d
      let left := (x.2.bound.map Bind.left).getD []
      let release := (x.2.bound.map Bind.release).getD []
      let c := { c with bound := some { nb with left := left, release := release }, slots := c.slots ++ (m.core new).slots,
                        pad := { c.pad with ports := c.pad.ports ++ (m.core new).pad.ports },
                        ctl := { c.ctl with mcBase := base, ready := m.now + 1 }, glb := { c.glb with tlb := [] } }
      let m := m.setCore new c
      match c.stop with
      | none => m
      | some p =>
        let m := m.modCore new fun c => { c with stop := some { p with preempt := false } }
        if p.trap.isNone && !p.intr && p.shadow.isNone then m.setRestart new m.now else m) m
  let m := t.segs.foldl (fun m s =>
    let own (x : Nat × Core) : Bool := match s.1 with
      | .quad q => q == quadOf x.1 && x.2.bound.any fun b => b.ownQ.getLsbD s.2.1
      | .die d => d == dieOf x.1 && x.2.bound.any fun b => b.ownD.getLsbD s.2.1
      | .core _ => false
    let p := mapPad (((t.saved.filter own).map fun x => (x.1, mapCore cm x.1)) ++ cm) s.1
    let m := m.setPadMem p ((m.padMem p).overlay s.2.2.1)
    (m.setFmtReg p s.2.1 s.2.2.2.1).setDom (p.dom s.2.1) s.2.2.2.2) m
  let m := { m with bars := m.bars ++ t.barriers.map (Barrier.remap cm) }
  m.modTask t.seq fun t => { t with state := .bound, saved := [], segs := [], barriers := [], port := t.port.remap cm (m.now - last) }

/-- TASK_BIND (R20, R398, R407, R408): Feldspar binds the highest-ranked waiting task of its partition, whole, or not at all. -/
def execTaskBind (task : Nat) (choice : BindChoice) (s : State) : Host.Outcome State Fault Refusal :=
  let m := s.m
  match m.task task with
  | none => .next s
  | some t => match m.part t.part with
    | none => .next s
    | some p =>
      let first := m.waiting p t && m.hub.tasks.all fun u => u.seq == t.seq || !m.waiting p u || m.above p t u
      let fits := first && m.choiceFits t p choice
      let pages := m.pinPages t choice
      let m := m.makeRoom choice.blocks.flatten
      if !fits then .next s
      else if !pages.isEmpty then .next { s with m := s.m.askPages t.fn pages }
      else if t.state == .saved then .next { s with m := m.startRestore t p choice }
      else if !t.native then .next { s with m := m.bindTask t p choice none }
      else match parseImage (m.image? t.fn t.image) t.imgLen with
        | some im => .next { s with m := m.bindTask t p choice (some im) }
        | none => .next { s with m := s.m.askPages t.fn [s.m.pullOf t.fn t.image t.imgLen] }

/-! ### The end of a task (R29, R121, R148, R398) -/

/-- Whether a core of a native task is over (R148, R398): its control program has ended, its last stream has stopped or been released, and
what was in flight has landed. -/
def Core.over (c : Core) (now : Nat) : Bool :=
  match c.bound with
  | some b => b.endStat.isSome && b.left.isEmpty && c.quiet 8 now && c.flight.isEmpty && c.glb.loads.all fun g => g.doneAt.isSome
  | none => true

/-- Whether a killed core has drained (R421): what was sent has completed or faulted, and what had departed has landed. -/
def Core.drained (c : Core) (now : Nat) : Bool :=
  (c.glb.writes.all fun w => w.acked || w.dead) && c.flight.isEmpty && (c.glb.loads.all fun g => g.doneAt.isSome) &&
  c.xe.copies.all fun k => match k.doneAt with | some t => t < now | none => k.rows.isEmpty && k.unitsDone

/-- Whether a task can complete in this cycle (R398, R421). -/
def Mach.taskOver (m : Mach) (t : Task) : Bool :=
  t.port.wake ≤ m.now && match t.state with
  | .ending => true
  | .bound => match t.killed with
    | some _ => (t.cores.all fun c => (m.core c).drained m.now) && t.pulls.all fun g => !((m.fn t.fn).pulls.any fun y => y.1 == g)
    | none => if t.native then t.cores.all fun c => (m.core c).over m.now else t.port.done
  | .ready => t.killed.isSome
  | .saved => t.killed.isSome
  | _ => false

/-- The status of a task (R398): of a kill, else the non-zero status of the lowest replica, and in it of the lowest linear core. -/
def Mach.taskStatus (m : Mach) (t : Task) : Byte :=
  match t.killed with
  | some st => st
  | none =>
    let bs := t.cores.filterMap fun c => (m.core c).bound
    let bad := bs.filter fun b => match b.endStat with | some st => st != 0 | none => false
    match bad with
    | [] => 0
    | b :: r =>
      let low := r.foldl (fun a x => if x.replica < a.replica || (x.replica == a.replica && x.linear < a.linear) then x else a) b
      low.endStat.getD 0

/-- A core no longer belongs to its task: it leaves the barriers, and its domains and owned segments are OFF (R29, R121). -/
def Mach.vacate (m : Mach) (core : Nat) : Mach :=
  let m := (m.barExit core).segsOff core
  let m := if 96 ≤ core && ((m.core core).bound.any fun b => !b.left.isEmpty) then m.shed core else m
  { m.setCore core Core.reset with active := m.active.filter (· != core) }

/-- The cores of a task given back, with their bound time counted (R408, R409). -/
def Mach.unbind (m : Mach) (t : Task) : Mach :=
  let dt := m.now - t.boundAt
  let m := t.cores.foldl Mach.vacate m
  let m := m.modFn t.fn fun x => { x with coreTime := x.coreTime + t.cores.length * dt }
  let m := { m with bars := m.bars.filter fun b => b.ref.task != t.seq }
  m.modTask t.seq fun t => { t with cores := [], ran := t.ran + dt }

/-- The completion signal of a task (R398): a page that migrates is pulled first (R419), and any other fault leaves it out. -/
def Mach.signalEnd (m : Mach) (t : Task) : Except Nat Mach :=
  if t.csig = 0 then .ok m
  else match m.signal t.fn t.csig (· + 1) with
    | .ok r => .ok r.1
    | .error (.pull g) => .error g
    | .error _ => .ok m

/-- A re-issue that was accepted and has not run when its task ends has its COMPLETE entry, with the task's status, in the place held for it (R400). -/
def Mach.reissueOver (m : Mach) (t : Task) (st : Byte) : Mach :=
  match t.port.reissue with
  | some (seq, q, _) => m.journal t.fn (JEntry.new 2 st (jref seq q t.fn) (BitVec.ofNat 64 (t.port.index % 65536)) true)
  | none => m

/-- TASK_COMPLETE (R398, R421): the boundary at every core, the completion signal, the journal entry, and then those of the KILLs. -/
def execTaskComplete (s : State) : Host.Outcome State Fault Refusal :=
  match s.m.served with
  | none => .next s
  | some t =>
    if !s.m.taskOver t then .next s
    else
      let st := s.m.taskStatus t
      let m := (t.cores.foldl (fun a c => insertCore c a) []).foldl (fun m c => m.boundary c 8) s.m
      match (m.unbind t).signalEnd t with
      | .error g => .next { s with m := (s.m.askPull t.fn g).modTask t.seq fun t => { t with port := { t.port with wake := s.m.now + 1 } } }
      | .ok m =>
        let m := m.modTask t.seq fun t => { t with state := .done }
        let m := m.reissueOver t st
        let m := m.complete t.fn t.queue t.num st
        .next { s with m := t.killers.foldl (fun m k => m.complete t.fn k.2 k.1 0) m }

/-! ### KILL (R421, R422) -/

/-- The streams of a core end, and nothing more is sent (R176, R421). -/
def Core.kill (c : Core) (now : Nat) : Core :=
  let S := match c.stop with | some p => p.cyc | none => now + 1
  let c := c.discard S
  { c with
    ctl := { c.ctl with ended := true, wait := none }
    glb := { c.glb with tlb := [], walks := [], loads := c.glb.loads.filter fun g => g.pa.isSome }
    bound := c.bound.map fun b => { b with pins := [], endStat := b.endStat.or (some 0), left := [], release := [] } }

/-- A task killed with a status (R421): its cores stop and drain; its COMPLETE entry follows. -/
def Mach.killTask (m : Mach) (task : Nat) (st : Byte) : Mach :=
  match m.task task with
  | none => m
  | some t =>
    let m := t.cores.foldl (fun m c => m.modCore c fun x => x.kill m.now) m
    m.modTask task fun t => { t with
      killed := t.killed.or (some st)
      state := match t.state with | .restoring => .bound | x => x
      pulls := if t.killed.isSome then t.pulls else (m.fn t.fn).pulls.map Prod.fst
      port := { t.port with pending := none, running := [] } }

/-- Whether the completion of a task is under way (R422): its replicas have ended, with nothing of theirs running or lingering, or its chain has. -/
def Mach.completing (m : Mach) (t : Task) : Bool :=
  t.killed.isNone && t.state == .bound &&
  (if t.native then t.cores.all fun c => (m.core c).bound.any fun b => b.endStat.isSome && b.left.isEmpty else t.port.done)

/-- A KILL command (R421, R422): of a task whose completion is under way it only waits for that; of another it kills. -/
def Mach.killCommand (m : Mach) (f q seq task : Nat) : Mach :=
  match m.task task with
  | none => m
  | some t =>
    if t.state == .done then m.complete f q seq 0
    else (if m.completing t then m else m.killTask task 0x83).modTask task fun t => { t with killers := t.killers ++ [(seq, q)] }

/-! ### Slices, the watchdog and pre-emption (R408 to R411) -/

/-- Cycles in a microsecond (R106). -/
def usCycles : Nat := 1400

/-- Whether a task has its cores to itself, and does not linger on them beside another (R150). -/
def Task.here (t : Task) : Bool := t.cores.all (· < 96)

/-- Whether a task's slice has ended while a task of another function waits for cores (R408). -/
def Mach.sliceDue (m : Mach) (t : Task) : Bool :=
  match m.part t.part with
  | none => false
  | some p =>
    t.state == .bound && t.killed.isNone && t.here && t.boundAt + p.slice * usCycles ≤ m.now &&
    (m.window t.part).all (fun u => u.preempt.isNone) &&
    (m.window t.part).any fun u => u.fn != t.fn && t.prio ≤ u.prio && m.waiting p u && (m.freeCores p).length < u.need p

/-- SLICE_EXPIRY (R408): the bound task of lowest rank is to be pre-empted, at a graph boundary where it allows one. -/
def execSliceExpiry (s : State) : Host.Outcome State Fault Refusal :=
  let m := s.m
  match m.served with
  | none => .next s
  | some t => match m.part t.part with
    | none => .next s
    | some p =>
      if !m.sliceDue t then .next s
      else
        let low := ((m.window t.part).filter fun u => u.state == .bound && u.killed.isNone && u.here).foldl (fun a u => if m.above p a u then u else a) t
        .next { s with m := m.modTask low.seq fun u => { u with preempt := some (m.now, u.native) } }

/-- Whether a task's graph boundary has come (R410). -/
def Task.atBoundary (t : Task) : Bool :=
  !t.native && t.state == .bound && t.killed.isNone && t.port.running.isEmpty && t.port.pending.isNone && t.port.failed.isNone && !t.port.done &&
  (match t.preempt with | some (_, full) => !full | none => false)

/-- PREEMPT_GRAPH (R410): between two commands of its chain a task gives its cores back; the index of its next command is kept. -/
def execPreemptGraph (s : State) : Host.Outcome State Fault Refusal :=
  match s.m.served with
  | none => .next s
  | some t =>
    if !t.atBoundary then .next s
    else .next { s with m := (s.m.unbind t).modTask t.seq fun t => { t with state := .ready, preempt := none, port := { t.port with seqNo := 0, subs := [], woke := [] } } }

/-- Whether a command has not retired 4 ms after the boundary was asked for (R410). -/
def Mach.boundaryLate (m : Mach) (t : Task) : Bool :=
  t.state == .bound && (match t.preempt with | some (at_, full) => !full && at_ + 4000 * usCycles ≤ m.now | none => false)

/-- PREEMPT_TIMEOUT (R410): a full-state pre-emption is taken instead. -/
def execPreemptTimeout (s : State) : Host.Outcome State Fault Refusal :=
  match s.m.served with
  | none => .next s
  | some t =>
    if !s.m.boundaryLate t then .next s
    else .next { s with m := s.m.modTask t.seq fun t => { t with preempt := t.preempt.map fun p => (p.1, true) } }

/-- A pre-emption stop of a core, in the next cycle where its streams run (R166, R411; log entry 21). A core set to restart stops anew. -/
def Core.preemptStop (c : Core) (now : Nat) : Core :=
  match c.stop with
  | none => { c with preempt := some (c.preempt.getD (now + 1)) }
  | some p => { c with stop := some (
      if p.restart.isSome then { p with preempt := true, restart := none, held := false, trap := none, intr := false } else { p with preempt := true }) }

/-- Whether the pre-emption stop of a task is still to be taken. -/
def Mach.toStop (m : Mach) (t : Task) : Bool :=
  t.state == .bound && t.killed.isNone && (match t.preempt with | some (_, full) => full | none => false) &&
  t.cores.any fun c => match (m.core c).stop with | some p => !p.preempt | none => (m.core c).preempt.isNone

/-- Whether a core stopped by a pre-emption can be saved (R122, R411): its frame is complete, what it had sent has ended, walks and page pulls included, no domain is
WAKING, and no sleep waits but for a result that the stop holds. -/
def Mach.savable (m : Mach) (core : Nat) : Bool :=
  let c := m.core core
  (match c.stop with | some p => p.preempt && p.held | none => false) &&
  (c.glb.writes.all fun w => w.acked || w.dead) && (c.glb.loads.all fun g => g.doneAt.isSome) && c.port.wakes.isEmpty &&
  c.glb.walks.all Walk.done && (m.fn ((c.bound.map Bind.fn).getD 0)).pulls.isEmpty &&
  (c.xe.copies.all fun k => k.rows.isEmpty) && (match c.stop with | some p => c.flight.all fun r => r.frozen p.cyc | none => true) &&
  (m.coreDoms core).all fun d => (match (m.dom d).st with | .waking _ _ => false | _ => true) && ((m.dom d).pend.isNone || m.domBusy d)

/-- Whether a task stopped by a pre-emption can be saved: what its barriers had under way has arrived, but for starvations that wait for
stopped streams. -/
def Mach.taskSavable (m : Mach) (t : Task) : Bool :=
  t.state == .bound && t.killed.isNone && (match t.preempt with | some (_, full) => full | none => false) && !m.toStop t &&
  t.cores.all m.savable && (m.bars.all fun b => b.ref.task != t.seq ||
    (b.coming.isEmpty && b.going.all fun x => x.2.2.2 && x.1 ≤ m.now + 1))

/-- The owned segments of a core as a save takes them: what is ON or in RETAIN (R122). -/
def Mach.savedSegs (m : Mach) (core : Nat) : List (Pad × Nat × Memory × W32 × Dom) :=
  let seg (p : Pad) (s : Nat) : Pad × Nat × Memory × W32 × Dom :=
    (p, s, (m.padMem p).filter fun c => p.unit c.1 == s, m.fmtReg p s, m.dom (p.dom s))
  match (m.core core).bound with
  | none => []
  | some b => ((List.range 16).filter b.ownQ.getLsbD).map (seg (.quad (quadOf core))) ++
              ((List.range 32).filter b.ownD.getLsbD).map (seg (.die (dieOf core)))

/-- A stopped task saved: the whole of each core, its segments and its barriers; its cores are given back (R122, R411). -/
def Mach.saveTask (m : Mach) (t : Task) : Mach :=
  let saved := t.cores.map fun c => (c, m.core c)
  let segs := t.cores.flatMap m.savedSegs
  let bars := m.bars.filter fun b => b.ref.task == t.seq
  (m.unbind t).modTask t.seq fun t => { t with state := .saved, saved := saved, segs := segs, barriers := bars, savedAt := m.now, preempt := none }

/-- PREEMPT_FULL (R411): every core of the task stops at one cycle; once frames and requests have ended, the task is saved. -/
def execPreemptFull (s : State) : Host.Outcome State Fault Refusal :=
  let m := s.m
  match m.served with
  | none => .next s
  | some t =>
    if m.toStop t then .next { s with m := t.cores.foldl (fun m' c => m'.modCore c fun x => x.preemptStop m.now) m }
    else if m.taskSavable t then .next { s with m := m.saveTask t }
    else .next s

/-- Whether a task's bound time has passed its partition's watchdog limit (R409). -/
def Mach.watchdogDue (m : Mach) (t : Task) : Bool :=
  t.state == .bound && t.killed.isNone && (match m.part t.part with
    | some p => p.watch != 0 && p.watch * 1000 * usCycles < t.ran + (m.now - t.boundAt)
    | none => false)

/-- WATCHDOG_LIMIT (R409): the task is killed and ends with status 0x84. -/
def execWatchdogLimit (s : State) : Host.Outcome State Fault Refusal :=
  match s.m.served with
  | none => .next s
  | some t => .next { s with m := if s.m.watchdogDue t then s.m.killTask t.seq 0x84 else s.m }

/-! ### INV.S2 (R310, R417) -/

/-- Whether an entry's stage-2 translation lies in a range of guest pages. -/
def TlbEntry.inRange (t : TlbEntry) (gpa pages : Nat) : Bool := t.gpa < gpa + pages * 0x10000 && gpa < t.gpa + t.size

/-- The bound cores of a function. -/
def Mach.fnCores (m : Mach) (f : Nat) : List Nat := m.active.filter fun c => (m.core c).bound.any fun b => b.fn == f

/-- Every entry of a function whose stage-2 translation lies in a range of guest pages is removed at every core (R310, R417). -/
def Mach.dropEntries (m : Mach) (f gpa pages : Nat) : Mach :=
  (m.fnCores f).foldl (fun m c => m.modCore c fun x => { x with glb := { x.glb with tlb := x.glb.tlb.filter fun t => !t.inRange gpa pages } }) m

/-- The writes and atomics under way of a function's cores that used an entry of a range of guest pages (R417). -/
def Mach.invWrites (m : Mach) (f gpa pages : Nat) : List (Nat × Nat) :=
  let hit (g : Nat × Nat) : Bool := g.1 < gpa + pages * 0x10000 && gpa < g.1 + g.2
  (m.fnCores f).flatMap fun c =>
    let x := m.core c
    ((x.glb.writes.filter fun w => !w.acked && !w.dead && w.gpas.any hit).map fun w => (c, w.id)) ++
    ((x.glb.loads.filter fun g => g.atom.isSome && g.doneAt.isNone && g.gpa.any hit).map fun g => (c, g.id))

/-- An accepted INV.S2 (R417): entries of the function in the range are removed at every core; the writes and atomics under way that used one are
awaited. -/
def Mach.startInv (m : Mach) (f q seq gpa pages : Nat) : Mach :=
  let waits := m.invWrites f gpa pages
  let m := m.dropEntries f gpa pages
  { m with hub := { m.hub with invs := m.hub.invs ++ [{ fn := f, seq := seq, gpa := gpa, pages := pages, queue := q, waits := waits }] } }

/-- Whether what an INV.S2 waits for has been acknowledged, what used an entry that was entered since among it. -/
def Mach.invDone (m : Mach) (v : Inv) : Bool :=
  (m.invWrites v.fn v.gpa v.pages).isEmpty &&
  v.waits.all fun w =>
    let c := m.core w.1
    (c.glb.writes.all fun x => x.id != w.2 || x.acked || x.dead) && c.glb.loads.all fun g => g.id != w.2 || g.doneAt.isSome

/-- INV_S2_COMPLETE (R417): what has been entered in the range meanwhile goes too. -/
def execInvS2Complete (seq : Nat) (s : State) : Host.Outcome State Fault Refusal :=
  match s.m.hub.invs.find? fun v => v.seq == seq with
  | none => .next s
  | some v =>
    if !s.m.invDone v then .next s
    else
      let m := s.m.dropEntries v.fn v.gpa v.pages
      let m := { m with hub := { m.hub with invs := m.hub.invs.filter fun x => x.seq != seq } }
      .next { s with m := m.complete v.fn v.queue seq 0 }

end Sys2Proof.Machine
end

