-- ==== Sys2Proof/Machine/Queue.lean ====
section
/-! DEFINITION. The queue engine: the verifier (R375, R376, R393), loading and turning off a queue (R368, R372), packets and steps (R373, R377
to R379), and the instructions of queue code (R381 to R394). -/
namespace Sys2Proof.Machine

/-! ### The verifier (R375, R376, R393) -/

/-- Opcode and fields of word `i` of a program. -/
def codeAt (code : List W32) (i : Nat) : Nat × QWord :=
  let w := nth code i 0
  ((bits w 27 5).toNat, QWord.ofWord w)

/-- LEN of a LOOP: its D and A fields (R381). -/
def loopLen (q : QWord) : Nat := 16 * q.d.toNat + q.a.toNat

/-- The bodies of the LOOPs of a program, as first and last index. -/
def loopBodies (code : List W32) : List (Nat × Nat) :=
  (List.range code.length).filterMap fun i =>
    let x := codeAt code i
    if x.1 = 0x0A && loopLen x.2 != 0 && i + loopLen x.2 < code.length then some (i + 1, i + loopLen x.2) else none

/-- The target of a BRF at index `i`. -/
def brfTarget (i : Nat) (q : QWord) : Int := (i : Int) + 1 + q.b.toInt

/-- R376: where a BRF may go. -/
def brfOk (code : List W32) (bodies : List (Nat × Nat)) (i : Nat) (q : QWord) : Bool :=
  let t := brfTarget i q
  let inside (b : Nat × Nat) (x : Int) : Bool := (b.1 : Int) ≤ x && x ≤ (b.2 : Int)
  (i : Int) < t && t < (code.length : Int) &&
  (match bodies.find? fun b => inside b i with
   | some b => inside b t || t == (b.2 : Int) + 1
   | none => bodies.all fun b => !inside b t)

/-- R376: a LOOP whose body ends in the program and holds no LOOP. -/
def loopOk (code : List W32) (i : Nat) (q : QWord) : Bool :=
  i + loopLen q < code.length && (List.range (loopLen q)).all fun k => (codeAt code (i + 1 + k)).1 != 0x0A

/-- The TXE that ends the transaction begun at `b`. -/
def txEnd (code : List W32) (b : Nat) : Option Nat :=
  ((List.range (code.length - (b + 1))).map (b + 1 + ·)).find? fun i => (codeAt code i).1 == 0x10

/-- The opcodes that may stand inside a transaction (R393). -/
def txAllowed (op : Nat) : Bool := [0x00, 0x01, 0x02, 0x03, 0x04, 0x05, 0x06, 0x07, 0x08, 0x09, 0x0C, 0x0D].contains op

/-- Over the indices of a transaction in order: where control can be, with the greatest number of buffered operations on a path there. -/
def txPaths (code : List W32) (b : Nat) : List Nat → List (Nat × Nat) → List (Nat × Nat)
  | [], at_ => at_
  | i :: r, at_ =>
    match at_.find? fun x => x.1 == i with
    | none => txPaths code b r at_
    | some (_, n) =>
      let x := codeAt code i
      let n' := if x.1 = 0x02 || x.1 = 0x0C || x.1 = 0x0D then n + 1 else n
      let go (at_ : List (Nat × Nat)) (t : Nat) : List (Nat × Nat) :=
        let old := ((at_.find? fun y => y.1 == t).map Prod.snd).getD 0
        (t, max old n') :: at_.filter fun y => y.1 != t
      let next := if x.1 = 0x15 then [] else if x.1 = 0x09 then
          (brfTarget i x.2).toNat :: (if x.2.fn = 0 then [] else [i + 1])
        else [i + 1]
      txPaths code b r (next.foldl go at_)

/-- R393 at one index (log entry 22 says which index a breach is reported at). -/
def txFails (code : List W32) (bodies : List (Nat × Nat)) (i : Nat) : Bool :=
  let x := codeAt code i
  let txs := (List.range code.length).filterMap fun b => if (codeAt code b).1 = 0x0F then (txEnd code b).map fun e => (b, e) else none
  let within := txs.find? fun t => t.1 < i && i < t.2
  (match within with
   | some t => !txAllowed x.1 || (x.1 == 0x09 && (t.2 : Int) < brfTarget i x.2)
   | none => x.1 == 0x09 && txs.any fun t => !(t.1 == i) && (t.1 : Int) < brfTarget i x.2 && brfTarget i x.2 ≤ (t.2 : Int)) ||
  (x.1 == 0x0F && (bodies.any (fun b => b.1 ≤ i && i ≤ b.2) || (match txEnd code i with
    | none => true
    | some e =>
      let ps := txPaths code i ((List.range (e - i - 1)).map (i + 1 + ·)) [(i + 1, 0)]
      (ps.any fun p => p.1 < e && (codeAt code p.1).1 == 0x15) || ps.any fun p => p.1 == e && 16 < p.2))) ||
  (x.1 == 0x10 && !(txs.any fun t => t.2 == i))

/-- Whether a queue has a window of device memory with the permissions of a mask (R382). -/
def winWith (wins : List QWin) (perm : BitVec 3) : Bool := wins.any fun w => w.len != 0 && w.space == 3 && w.perm &&& perm == perm

/-- LDET 0x05 (R375, R382): a window an instruction needs is undeclared or lacks the permission. -/
def winFails (wins : List QWin) (op : Nat) (q : QWord) : Bool :=
  let named (perm : BitVec 3) : Bool := match wins[(bits q.fn 0 2).toNat]? with | some w => w.len == 0 || w.perm &&& perm != perm | none => true
  match op with
  | 0x01 => named 1
  | 0x02 => named 2
  | 0x11 => named 4
  | 0x0B => !winWith wins 1
  | 0x0C => !winWith wins 3
  | 0x0D => !winWith wins 3
  | 0x0E => q.fn == 0 && !winWith wins 1
  | _ => false

/-- The codes of the checks that the instruction at an index fails (R375). -/
def codeFails (code : List W32) (wins : List QWin) (bodies : List (Nat × Nat)) (i : Nat) : List Nat :=
  let x := codeAt code i
  queueFails (BitVec.ofNat 5 x.1) x.2 ++
  (if x.1 = 0x09 && !brfOk code bodies i x.2 then [0x03] else []) ++
  (if x.1 = 0x0A && !loopOk code i x.2 then [0x04] else []) ++
  (if winFails wins x.1 x.2 then [0x05] else []) ++
  (if txFails code bodies i then [0x06] else []) ++
  (if i + 1 = code.length && x.1 != 0x15 then [0x07] else [])

/-- The verifier (R375): the lowest failing index with its lowest code, or none. -/
def verifyCode (code : List W32) (wins : List QWin) : Option (Nat × Nat) :=
  let bodies := loopBodies code
  (List.range code.length).findSome? fun i => (lowest (codeFails code wins bodies i)).map fun c => (c, i)

/-! ### Memory of a queue (R371, R380, R382) -/

/-- Bytes that queue code reads (R383): of device memory as published to .sys, through stage 2, or of the host. -/
def Mach.qRead (m : Mach) (f : Nat) (space : BitVec 4) (a n : Nat) : Except WalkEnd (List Byte) :=
  if space = 4 then .ok (m.host.readBlock a n)
  else match m.gpaSpan f a n .read with
    | .error e => .error e
    | .ok (m', l) => .ok (l.flatMap fun p => m'.sys.readBlock p.1 p.2)

/-- Bytes that queue code writes. -/
def Mach.qWrite (m : Mach) (f : Nat) (space : BitVec 4) (a : Nat) (bs : List Byte) : Except WalkEnd Mach :=
  if space = 4 then .ok { m with host := m.host.writeBlock a bs } else m.gpaWrite f a bs

/-! ### Loading and turning off (R368, R371, R372) -/

/-- A window as a configuration block gives it. -/
def parseWin (bs : List Byte) : QWin :=
  { space := BitVec.ofNat 4 (field bs 0 8 / 2 ^ 60), base := field bs 0 8 % 2 ^ 48, len := field bs 8 4,
    perm := BitVec.ofNat 3 (field bs 12 1), wr := 0 }

/-- Whether a declared window keeps R371; an undeclared one (LEN 0) has no rule to break. -/
def winOk (bs : List Byte) : Bool :=
  let base := field bs 0 8
  let len := field bs 8 4
  len == 0 || ((base / 2 ^ 60 == 3 || base / 2 ^ 60 == 4) && base / 2 ^ 48 % 4096 == 0 && base % 8 == 0 && field bs 12 1 < 8 &&
    field bs 13 3 == 0 && (field bs 12 1 / 4 == 0 || (field bs 12 1 / 2 % 2 == 1 && 72 ≤ len && len % 8 == 0)))

/-- Whether a configuration block keeps R371. -/
def qcbOk (b : List Byte) : Bool :=
  let ring := field b 0 8
  (ring / 2 ^ 60 == 3 || ring / 2 ^ 60 == 4) && ring / 2 ^ 48 % 4096 == 0 && ring % 64 == 0 && 4 ≤ field b 8 1 && field b 8 1 ≤ 16 &&
  field b 9 1 == 0 && 1 ≤ field b 10 2 && field b 10 2 ≤ 512 && field b 12 4 == 0 && field b 16 8 % 4 == 0 && field b 16 8 < 2 ^ 48 &&
  field b 24 8 == 0 && (List.range 4).all (fun i => winOk ((b.drop (0x20 + 16 * i)).take 16)) && field b 0x60 32 == 0

/-- Why the whole of a function's journal cannot be written, if so (R372): the walk's end. -/
def Mach.journalBad (m : Mach) (f : Nat) : Option WalkEnd :=
  let x := m.fn f
  if x.jsize = 0 then some (.fault 0 0)
  else match m.gpaSpan f x.jbase.toNat (64 * x.places) .write with | .ok _ => none | .error e => some e

/-- A queue rejected. -/
def Queue.reject (x : Queue) (ldet : Byte) (idx : Nat) : Queue := { x with state := .rejected, ldet := ldet, lidx := idx }

/-- WR of a RING window, as the load finds it (R387): a page that migrates is pulled first, and a window no page backs leaves it 0. -/
def Mach.ringWr (m : Mach) (f : Nat) (w : QWin) : Except Nat QWin :=
  if !w.perm.getLsbD 2 then .ok w
  else match m.qRead f w.space w.base 4 with
    | .ok bs => .ok { w with wr := BitVec.ofNat 32 (leValue bs) }
    | .error (.pull g) => .error g
    | .error _ => .ok w

/-- The load of an enabled queue (R372): its configuration block and code, checked; IDLE or REJECTED. An access to a page that migrates waits for it
(R419): the queue stays OFF, and loads once the page lands. -/
def Mach.loadQueue (m : Mach) (f q : Nat) : Mach :=
  let x := m.queue f q
  let set (y : Queue) : Mach := m.modQueue f q fun _ => y
  let waits (g : Nat) : Mach := m.askPull f g
  match m.journalBad f with
  | some (.pull g) => waits g
  | some _ => set (x.reject 0x09 0)
  | none => if x.qcb.toNat % 64 != 0 then set (x.reject 0x08 0) else match m.gpaRead f x.qcb.toNat 128 with
    | .error (.pull g) => waits g
    | .error _ => set (x.reject 0x08 0)
    | .ok b =>
      if !qcbOk b then set (x.reject 0x08 0)
      else
        let wins := (List.range 4).map fun i => parseWin ((b.drop (0x20 + 16 * i)).take 16)
        match m.gpaRead f (field b 16 8) (4 * field b 10 2) with
        | .error (.pull g) => waits g
        | .error _ => set (x.reject 0x08 0)
        | .ok cb =>
          let code := (List.range (field b 10 2)).map fun i => BitVec.ofNat 32 (field cb (4 * i) 4)
          match verifyCode code wins, wins.mapM (m.ringWr f) with
          | some (c, i), _ => set (x.reject (BitVec.ofNat 8 c) i)
          | none, .error g => waits g
          | none, .ok wins =>
            set { x with state := .idle, g := x.g.take 8 ++ List.replicate 8 0, ring := BitVec.ofNat 64 (field b 0 8), rlog := field b 8 1,
                         code := code, wins := wins, pkt := none, park := none, rearmed := false }

/-- The loads of a function that waited for a page, tried again once one has landed (R372, R419). -/
def Mach.reloadQueues (m : Mach) (f : Nat) : Mach :=
  (m.fn f).queues.foldl (fun m y => if y.2.en && y.2.state == .off then m.loadQueue f y.1 else m) m

/-- A queue turned off (R368): g8 to g15 and QCONS become 0. -/
def Queue.off (x : Queue) : Queue :=
  { x with state := .off, park := none, pkt := none, cons := 0, g := x.g.take 8 ++ List.replicate 8 0, rearmed := false, closing := false }

/-- Whether a function has a queue of a number (R367). -/
def queueThere (fn queue : Nat) : Bool := fn < 25 && queue < 64

/-- QUEUE_ENABLE (R368, R372): a write of 1 to EN over 0; a queue whose packet still runs is loaded when that has ended. -/
def execQueueEnable (fn queue : Nat) (s : State) : Host.Outcome State Fault Refusal :=
  let m := s.m
  let x := m.queue fn queue
  if !queueThere fn queue || x.en then .next s
  else
    let m := m.modQueue fn queue fun x => { x with en := true }
    .next { s with m := if x.closing then m else m.loadQueue fn queue }

/-- The INFO of a PACKET entry (R399). -/
def packetInfo (p : Packet) : W64 := BitVec.ofNat 64 (p.index % 2 ^ 32 + min p.steps 255 * 2 ^ 32)

/-- The PACKET entry of a packet that ended with a non-zero status (R379, R399). -/
def Mach.packetEntry (m : Mach) (f q : Nat) (p : Packet) (st : Byte) : Mach :=
  m.journalRoom f (JEntry.new 3 st (jref 0 q f) (packetInfo p) false)

/-- QUEUE_DISABLE (R368): a write of 0 to EN. A running packet runs to its end, a parked one is abandoned with status 0x86, also where it parked
after an earlier write of 0. -/
def execQueueDisable (fn queue : Nat) (s : State) : Host.Outcome State Fault Refusal :=
  let m := s.m
  let x := m.queue fn queue
  if !queueThere fn queue || !(x.en || x.closing) then .next s
  else match x.pkt, x.park with
    | some _, none => .next { s with m := m.modQueue fn queue fun x => { x with en := false, closing := true } }
    | some p, some _ => .next { s with m := (m.modQueue fn queue fun x => { x.off with en := false }).packetEntry fn queue p 0x86 }
    | none, _ => .next { s with m := m.modQueue fn queue fun x => { x.off with en := false } }

/-- QNOTIFY_WRITE (R369, R413, R423): packets become available, where the write keeps the outstanding ones within the ring and does not
lower them; a queue under reset drops and counts it. RLOG is that of the latest block loaded; before any is, no ring bounds the write (log entry
58). -/
def execQnotifyWrite (fn queue : Nat) (value : W32) (s : State) : Host.Outcome State Fault Refusal :=
  let m := s.m
  let x := m.queue fn queue
  if !queueThere fn queue then .next s
  else if (m.fn fn).resetP then .next { s with m := m.modFn fn fun y => { y with dropped := y.dropped + 1 } }
  else
    let new := (value - x.cons).toNat
    let old := (x.notify - x.cons).toNat
    if (x.rlog != 0 && 2 ^ x.rlog < new) || new < old then .next s
    else .next { s with m := m.modQueue fn queue fun x => { x with notify := value, wake := max x.wake (m.now + 1) } }

/-! ### Packets (R370, R373, R377 to R379, R390) -/

/-- A packet ends (R370, R379, R390): its entry, QCONS, and the state its queue goes on in. -/
def Mach.endPacket (m : Mach) (f q : Nat) (st : Byte) (fault : Bool) : Mach :=
  let x := m.queue f q
  match x.pkt with
  | none => m
  | some p =>
    let again := st == 0 && p.rearm
    let y := { x with pkt := none, park := none, cons := if again then x.cons else x.cons + 1, rearmed := again,
                      wake := m.now + 1, state := if fault then .stopped else .idle }
    let m := m.modQueue f q fun _ => if x.closing then y.off else y
    let m := if x.closing && x.en then m.loadQueue f q else m
    if st = 0 then m
    else
      let m := m.packetEntry f q p st
      if (m.fn f).entryWaits q && !x.closing then m.modQueue f q fun x => { x with park := some .journal } else m

/-- Whether a queue has a packet to start (R369, R378, R390, R413). -/
def Mach.canStart (m : Mach) (f q : Nat) : Bool :=
  let x := m.queue f q
  x.state == .idle && x.pkt.isNone && x.park.isNone && x.wake ≤ m.now && !(m.fn f).paused && (x.rearmed || x.cons != x.notify)

/-- PACKET_START (R373): g0 to g7 loaded from the packet, whose first step falls in the same engine cycle (R378). -/
def execPacketStart (s : State) : Host.Outcome State Fault Refusal :=
  let fn := s.m.curQ.1
  let queue := s.m.curQ.2
  let m := s.m
  let x := m.queue fn queue
  if !m.canStart fn queue then .next s
  else
    let p : Packet := { index := x.cons.toNat, pc := 0, steps := 0, loop := none, tx := none, rearm := false }
    match m.qRead fn (bits x.ring 60 4) (x.ring.toNat % 2 ^ 48 + 64 * (x.cons.toNat % 2 ^ x.rlog)) 64 with
    | .ok bs => .next { s with m := m.modQueue fn queue fun x => { x with
        state := .run, pkt := some p, rearmed := false, wake := m.now
        g := ((List.range 8).map fun i => BitVec.ofNat 64 (field bs (8 * i) 8)) ++ x.g.drop 8 } }
    | .error (.fault code _) => .next { s with m := (m.modQueue fn queue fun x => { x with pkt := some p }).endPacket fn queue code true }
    | .error e => .next { s with m := (match e with | .pull g => m.askPull fn g | _ => m).modQueue fn queue fun x => { x with wake := m.now + 1 } }

/-- Whether a queue's next step is due (R378). -/
def Mach.stepDue (m : Mach) (f q : Nat) : Bool :=
  let x := m.queue f q
  x.pkt.isSome && x.park.isNone && x.state == .run && x.wake ≤ m.now && !(m.fn f).paused

/-- F_BUDGET (R377): a packet that would take its 257th step ends with F.BUDGET, and its queue stops. -/
def execFBudget (s : State) : Host.Outcome State Fault Refusal :=
  let fn := s.m.curQ.1
  let queue := s.m.curQ.2
  match (s.m.queue fn queue).pkt with
  | some p => if s.m.stepDue fn queue && 256 ≤ p.steps then .next { s with m := s.m.endPacket fn queue 0x19 true } else .next s
  | none => .next s

/-- Whether a parked queue resumes in this cycle (R378). -/
def Mach.resumeDue (m : Mach) (f q : Nat) : Bool :=
  let x := m.queue f q
  x.wake ≤ m.now && !(m.fn f).paused && (match x.park with | some (.go _) => true | some (.done _ _) => true | _ => false)

/-- QUEUE_RESUME (R378, R389): a parked queue resumes; WAITTASK writes the status, which takes the cycle. -/
def execQueueResume (s : State) : Host.Outcome State Fault Refusal :=
  let fn := s.m.curQ.1
  let queue := s.m.curQ.2
  let m := s.m
  if !m.resumeDue fn queue then .next s
  else .next { s with m := m.modQueue fn queue fun x => match x.park with
    | some (.done r v) => { x with park := none, g := x.g.set r v, wake := m.now + 1 }
    | _ => { x with park := none } }

/-! ### Steps (R376 to R380) -/

/-- How a step ends. -/
inductive QOut where
  /-- The packet goes on: at the next instruction, or at a target. -/
  | go (m : Mach) (jump : Option Nat)
  /-- The packet ends with a status; a fault stops the queue. -/
  | stop (m : Mach) (st : Byte) (fault : Bool)
  /-- The queue parks; `taken`: the step is taken, and the packet resumes at the next instruction. -/
  | park (m : Mach) (why : Park) (taken : Bool)
  /-- An access waits for a page; the step is tried again in the next cycle. -/
  | wait (m : Mach)

/-- The instruction after a step of a packet (R376). -/
def Packet.step (p : Packet) (jump : Option Nat) : Packet :=
  let p := { p with steps := p.steps + 1 }
  match jump, p.loop with
  | some t, some (a, b, k) => { p with pc := t, loop := if a ≤ t && t ≤ b then some (a, b, k) else none }
  | some t, none => { p with pc := t }
  | none, some (a, b, k) =>
    if p.pc = b then (if 1 < k then { p with pc := a, loop := some (a, b, k - 1) } else { p with pc := p.pc + 1, loop := none })
    else { p with pc := p.pc + 1 }
  | none, none => { p with pc := p.pc + 1 }

/-- A step of the queue being served. -/
def runQueue (body : Mach → Queue → Packet → QOut) (s : State) : Host.Outcome State Fault Refusal :=
  let m := s.m
  let f := m.curQ.1
  let q := m.curQ.2
  let x := m.queue f q
  let stepped (m' : Mach) (jump : Option Nat) (why : Option Park) : Mach := m'.modQueue f q fun y =>
    { y with pkt := y.pkt.map fun p => p.step jump, wake := m.now + 1, park := why }
  match x.pkt with
  | none => .next s
  | some p => match body m x p with
    | .go m' jump => .next { s with m := stepped m' jump (if (m'.fn f).entryWaits q then some .journal else none) }
    | .stop m' st fault =>
      .next { s with m := (m'.modQueue f q fun y => { y with pkt := y.pkt.map fun p => { p with steps := p.steps + 1 } }).endPacket f q st fault }
    | .park m' why true => .next { s with m := stepped m' none (some why) }
    | .park m' why false => .next { s with m := m'.modQueue f q fun y => { y with park := some why, wake := m.now + 1 } }
    | .wait m' => .next { s with m := m'.modQueue f q fun y => { y with wake := m.now + 1 } }

/-- A g register. -/
def Queue.gr (x : Queue) (n : BitVec 4) : W64 := nth x.g n.toNat 0

/-- The operand B (R374). -/
def Queue.opB (x : Queue) (q : QWord) : W64 := if q.kb then q.b.signExtend 64 else x.gr q.breg

/-- A g register of the queue being served written. -/
def Mach.setG (m : Mach) (n : BitVec 4) (v : W64) : Mach := m.modQueue m.curQ.1 m.curQ.2 fun x => { x with g := x.g.set n.toNat v }

/-- The packet of the queue being served changed. -/
def Mach.modPacket (m : Mach) (g : Packet → Packet) : Mach := m.modQueue m.curQ.1 m.curQ.2 fun x => { x with pkt := x.pkt.map g }

/-- The end of a step whose access met the end of a walk (log entry 23). -/
def walkOut (m : Mach) : WalkEnd → QOut
  | .fault code _ => .stop m code true
  | .pull g => .wait (m.askPull m.curQ.1 g)
  | .leaf _ _ _ _ _ _ => .wait m

/-- F.SPRANGE at run time (R382). -/
def rangeOut (m : Mach) : QOut := .stop m Code.sprange true

/-- An ALU step: gD := the function of gA and B. -/
def aluStep (q : QWord) (f : W64 → W64 → W64) (s : State) : Host.Outcome State Fault Refusal :=
  runQueue (fun m x _ => .go (m.setG q.d (f (x.gr q.a) (x.opB q))) none) s

/-- NOP (R384). -/
def execQcNop (_q : QWord) (s : State) : Host.Outcome State Fault Refusal := runQueue (fun m _ _ => .go m none) s

/-- ADD (R383). -/
def execQcAdd (q : QWord) (s : State) : Host.Outcome State Fault Refusal := aluStep q (· + ·) s

/-- SUB (R383). -/
def execQcSub (q : QWord) (s : State) : Host.Outcome State Fault Refusal := aluStep q (· - ·) s

/-- AND (R383). -/
def execQcAnd (q : QWord) (s : State) : Host.Outcome State Fault Refusal := aluStep q (· &&& ·) s

/-- OR (R383). -/
def execQcOr (q : QWord) (s : State) : Host.Outcome State Fault Refusal := aluStep q (· ||| ·) s

/-- SHL of a value by a signed amount (R383). -/
def shlValue (a b : W64) : W64 :=
  let n := b.toInt
  if 0 ≤ n && n < 64 then a <<< n.toNat
  else if -64 < n && n < 0 then a >>> (-n).toNat
  else 0

/-- SHL (R383). -/
def execQcShl (q : QWord) (s : State) : Host.Outcome State Fault Refusal := aluStep q shlValue s

/-- The condition of a CMP (R383). -/
def cmpHolds (fn : BitVec 3) (a b : W64) : Bool :=
  match fn.toNat with
  | 0 => a == b
  | 1 => a != b
  | 2 => a.toInt < b.toInt
  | 3 => b.toInt ≤ a.toInt
  | 4 => a.toNat < b.toNat
  | _ => b.toNat ≤ a.toNat

/-- CMP (R383). -/
def execQcCmp (q : QWord) (s : State) : Host.Outcome State Fault Refusal := aluStep q (fun a b => if cmpHolds q.fn a b then 1 else 0) s

/-- The window an instruction names (R381). -/
def Queue.win (x : Queue) (q : QWord) : QWin := nth x.wins (bits q.fn 0 2).toNat ⟨3, 0, 0, 0, 0⟩

/-- The width of an LD or ST. -/
def accessWidth (q : QWord) : Nat := if q.fn.getLsbD 2 then 8 else 4

/-- The offset of an LD or ST within its window, where R382 allows it. -/
def Queue.offset (x : Queue) (q : QWord) : Option Nat :=
  let off := (x.gr q.a + x.opB q).toNat
  if off % (accessWidth q) == 0 && off + (accessWidth q) ≤ (x.win q).len then some off else none

/-- LD (R382, R383, R394). -/
def execQcLd (q : QWord) (s : State) : Host.Outcome State Fault Refusal :=
  runQueue (fun m x _ => match x.offset q with
    | none => rangeOut m
    | some off => match m.qRead m.curQ.1 (x.win q).space ((x.win q).base + off) (accessWidth q) with
      | .ok bs => .go (m.setG q.d (BitVec.ofNat 64 (leValue bs))) none
      | .error e => walkOut m e) s

/-- An operation joined to the open transaction. -/
def Mach.buffer (m : Mach) (o : TxOp) : Mach := m.modPacket fun p => { p with tx := p.tx.map fun l => l ++ [o] }

/-- ST (R380, R382, R383, R394). -/
def execQcSt (q : QWord) (s : State) : Host.Outcome State Fault Refusal :=
  runQueue (fun m x p => match x.offset q with
    | none => rangeOut m
    | some off =>
      let w := x.win q
      let a := w.base + off
      if p.tx.isSome then
        .go (m.buffer { kind := 0, place := if w.space = 4 then .host a else .dev a, bytes := (accessWidth q), val := x.gr q.d, dst := 0 }) none
      else match m.qWrite m.curQ.1 w.space a (leBytes (accessWidth q) (x.gr q.d).toNat) with
        | .ok m' => .go m' none
        | .error e => walkOut m e) s

/-- BRF (R384). -/
def execQBrf (q : QWord) (s : State) : Host.Outcome State Fault Refusal :=
  runQueue (fun m x p =>
    let a := x.gr q.a
    let go := match q.fn.toNat with | 0 => true | 1 => a == 0 | _ => a != 0
    .go m (if go then some (brfTarget p.pc q).toNat else none)) s

/-- LOOP (R376). -/
def execQLoop (q : QWord) (s : State) : Host.Outcome State Fault Refusal :=
  runQueue (fun m _ p => .go (m.modPacket fun y => { y with loop := some (p.pc + 1, p.pc + loopLen q, q.b.toNat) }) none) s

/-! ### Signals (R382, R385, R391) -/

/-- The signal address of gA, where R382 allows it. -/
def Queue.signal (x : Queue) (q : QWord) (write : Bool) : Option Nat :=
  let a := (x.gr q.a).toNat % 2 ^ 48
  let need : BitVec 3 := if write then 3 else 1
  if a % 8 == 0 && x.wins.any (fun w => w.len != 0 && w.space == 3 && w.perm &&& need == need && w.base ≤ a && a + 8 ≤ w.base + w.len)
  then some a else none

/-- SIGWAIT (R385, R391). -/
def execQSigwait (q : QWord) (s : State) : Host.Outcome State Fault Refusal :=
  runQueue (fun m x _ => match x.signal q false with
    | none => rangeOut m
    | some a => match m.gpa m.curQ.1 a .read with
      | .error e => walkOut m e
      | .ok (m', pa) =>
        if sigHolds q.fn.toNat (m'.dev.value pa 8) (x.gr q.d) (x.opB q) then .go m' none
        else
          let m' := m'.modQueue m.curQ.1 m.curQ.2 fun y => { y with parkNo := m.hub.parkNo }
          .park { m' with hub := { m'.hub with parkNo := m.hub.parkNo + 1 } } (.signal pa q.fn.toNat (x.gr q.d) (x.opB q)) true) s

/-- SIGSET (R385, R394). -/
def execQSigset (q : QWord) (s : State) : Host.Outcome State Fault Refusal :=
  runQueue (fun m x p => match x.signal q true with
    | none => rangeOut m
    | some a =>
      if p.tx.isSome then .go (m.buffer { kind := 1, place := .dev a, bytes := 8, val := x.opB q, dst := 0 }) none
      else match m.signal m.curQ.1 a (fun _ => (x.opB q).toNat) with
        | .ok r => .go r.1 none
        | .error e => walkOut m e) s

/-- SIGADD (R385, R394). -/
def execQSigadd (q : QWord) (s : State) : Host.Outcome State Fault Refusal :=
  runQueue (fun m x p => match x.signal q true with
    | none => rangeOut m
    | some a =>
      if p.tx.isSome then .go (m.buffer { kind := 2, place := .dev a, bytes := 8, val := x.opB q, dst := q.d.toNat }) none
      else match m.signal m.curQ.1 a (· + (x.opB q).toNat) with
        | .ok r => .go (r.1.setG q.d (BitVec.ofNat 64 r.2)) none
        | .error e => walkOut m e) s

/-! ### Transactions (R393, R394) -/

/-- TXB (R394). -/
def execQTxb (_q : QWord) (s : State) : Host.Outcome State Fault Refusal :=
  runQueue (fun m _ _ => .go (m.modPacket fun p => { p with tx := some [] }) none) s

/-- One buffered operation performed: the machine and the signals updated, in the order of their last update. -/
def Mach.txOp (m : Mach) (f : Nat) (sigs : List Nat) (o : TxOp) : Except WalkEnd (Mach × List Nat) :=
  match o.place with
  | .host a => .ok ({ m with host := m.host.writeBlock a (leBytes o.bytes o.val.toNat) }, sigs)
  | .dev a =>
    if o.kind = 0 then (m.gpaWrite f a (leBytes o.bytes o.val.toNat)).map fun m' => (m', sigs)
    else match m.gpa f a .atomic with
      | .error e => .error e
      | .ok (m', pa) => match m'.gpaAtomic f a (fun old => if o.kind = 1 then o.val.toNat else old + o.val.toNat) with
        | .error e => .error e
        | .ok (m'', old) =>
          let m'' := if o.kind = 2 then m''.setG (BitVec.ofNat 4 o.dst) (BitVec.ofNat 64 old) else m''
          .ok (m'', sigs.filter (· != pa) ++ [pa])
  | _ => .ok (m, sigs)

/-- TXE (R394): the buffered operations in program order, then the halyards; none of them where one meets a translation fault. -/
def execQTxe (_q : QWord) (s : State) : Host.Outcome State Fault Refusal :=
  runQueue (fun m _ p =>
    let r := (p.tx.getD []).foldl (fun (a : Except WalkEnd (Mach × List Nat)) o => match a with
      | .error e => .error e
      | .ok (m', sigs) => m'.txOp m.curQ.1 sigs o) (.ok (m, []))
    match r with
    | .error e => walkOut m e
    | .ok (m', sigs) => .go ((sigs.foldl Mach.walkHalyard m').modPacket fun p => { p with tx := none }) none) s

/-! ### Launches (R365, R386, R395, R417, R421) -/

/-- Whether bytes of device memory lie in a window of the queue with R (R395). -/
def Queue.readable (x : Queue) (a n : Nat) : Bool :=
  x.wins.any fun w => w.len != 0 && w.space == 3 && w.perm.getLsbD 0 && w.base ≤ a && a + n ≤ w.base + w.len

/-- gD of a LAUNCH (R386): number and status. -/
def launchResult (seq : Nat) (st : Byte) : W64 := BitVec.ofNat 64 (seq % 2 ^ 48 + st.toNat * 2 ^ 48)

/-- A command accepted, with what then happens under its number. -/
def acceptStep (m : Mach) (q : QWord) (info : W64) (act : Mach → Nat → Mach) : QOut :=
  let r := m.accept m.curQ.1 m.curQ.2 info
  .go ((act r.1 r.2).setG q.d (launchResult r.2 0)) none

/-- A command refused with a status. -/
def refuseStep (m : Mach) (q : QWord) (info : W64) (st : Byte) : QOut :=
  let r := m.refuse m.curQ.1 m.curQ.2 info st
  .go (r.1.setG q.d (launchResult r.2 st)) none

/-- A command, once the journal has room for it (R386, R400). -/
def launchStep (window : Bool) (body : Mach → Queue → QOut) (s : State) : Host.Outcome State Fault Refusal :=
  runQueue (fun m x _ =>
    if !(m.fn m.curQ.1).acceptRoom || (window && !m.windowRoom m.curQ.1) then .park m .launch false
    else body m x) s

/-- LAUNCH (R17, R386, R395): a task from a job card. -/
def execQLaunch (q : QWord) (s : State) : Host.Outcome State Fault Refusal :=
  launchStep true (fun m x =>
    let a := (x.gr q.a).toNat
    match (if a < 2 ^ 48 then m.card m.curQ.1 m.curQ.2 a (x.opB q) x.readable else .refused 0x81) with
    | .pulling g => .wait (m.askPull m.curQ.1 g)
    | .refused st => refuseStep m q (x.gr q.a) st
    | .task t => acceptStep m q (x.gr q.a) fun m seq => m.addTask { t with seq := seq }) s

/-- The unretired task of the function that a command names (R386). -/
def Mach.named (m : Mach) (x : Queue) (q : QWord) : Option Task :=
  m.hub.tasks.find? fun t => t.num == (x.gr q.a).toNat % 2 ^ 48 && t.fn == m.curQ.1

/-- LAUNCH.ri (R365, R386): the failed command of a chain takes its place again, with a resume word. -/
def execQLaunchRi (q : QWord) (s : State) : Host.Outcome State Fault Refusal :=
  launchStep false (fun m x => match m.named x q with
    | some t =>
      if t.state == .done || t.port.failed.isNone then refuseStep m q (x.gr q.a) 0x85
      else acceptStep m q (x.gr q.a) fun m seq => m.modTask t.seq fun t => { t with port := { t.port with
        failed := none
        reissue := some (seq, m.curQ.2, x.opB q) } }
    | none => refuseStep m q (x.gr q.a) 0x85) s

/-- LAUNCH.kill (R386, R421, R422). -/
def execQLaunchKill (q : QWord) (s : State) : Host.Outcome State Fault Refusal :=
  launchStep false (fun m x => match m.named x q with
    | some t => acceptStep m q (x.gr q.a) fun m' seq => m'.killCommand m.curQ.1 m.curQ.2 seq t.seq
    | none => refuseStep m q (x.gr q.a) 0x85) s

/-- LAUNCH.inv (R386, R417). -/
def execQLaunchInv (q : QWord) (s : State) : Host.Outcome State Fault Refusal :=
  launchStep false (fun m x =>
    let a := (x.gr q.a).toNat
    let n := (x.opB q).toNat
    if a % 0x10000 != 0 || 2 ^ 48 ≤ a || n = 0 || 65535 < n then refuseStep m q (x.gr q.a) 0x81
    else acceptStep m q (x.gr q.a) fun m' seq => m'.startInv m.curQ.1 m.curQ.2 seq a n) s

/-! ### POST, IRQ, REARM, WAITTASK and END (R387 to R390, R401) -/

/-- POST (R387). -/
def execQPost (q : QWord) (s : State) : Host.Outcome State Fault Refusal :=
  runQueue (fun m x _ =>
    let f := m.curQ.1
    let w := x.win q
    let slots := (w.len - 64) / 8
    match m.qRead f w.space (w.base + 8) 4 with
    | .error e => walkOut m e
    | .ok rd =>
      if slots ≤ (w.wr - BitVec.ofNat 32 (leValue rd)).toNat then .go (m.setG q.d 0) none
      else
        let wr := w.wr + 1
        match m.qWrite f w.space (w.base + 64 + 8 * (w.wr.toNat % slots)) (leBytes 8 (x.gr q.a).toNat) with
        | .error e => walkOut m e
        | .ok m1 => match m1.qWrite f w.space w.base (leBytes 4 wr.toNat) with
          | .error e => walkOut m e
          | .ok m2 => .go ((m2.modQueue f m.curQ.2 fun y => { y with
              wins := y.wins.modify (bits q.fn 0 2).toNat fun w => { w with wr := wr } }).setG q.d 1) none) s

/-- IRQ (R388). -/
def execQIrq (q : QWord) (s : State) : Host.Outcome State Fault Refusal :=
  runQueue (fun m x _ =>
    let v := (x.opB q).toNat
    if min 2048 (Config.msixSize m.curQ.1) ≤ v then rangeOut m
    else .go { m with hub := { m.hub with msix := m.hub.msix ++ [(m.curQ.1, v)] } } none) s

/-- REARM (R390). -/
def execQRearm (_q : QWord) (s : State) : Host.Outcome State Fault Refusal :=
  runQueue (fun m _ _ => .go (m.modPacket fun p => { p with rearm := true }) none) s

/-- WAITTASK (R389). -/
def execQWaittask (q : QWord) (s : State) : Host.Outcome State Fault Refusal :=
  runQueue (fun m x _ =>
    let seq := (x.gr q.a).toNat % 2 ^ 48
    match (m.fn m.curQ.1).cmdStatus seq with
    | some st => .go (m.setG q.d (st.setWidth 64)) none
    | none => .park m (.task seq q.d.toNat) true) s

/-- END (R384, R401). -/
def execQEnd (q : QWord) (s : State) : Host.Outcome State Fault Refusal :=
  runQueue (fun m x _ => .stop m ((x.opB q).setWidth 8) false) s

/-- Whether a LAUNCH of a queue lacks room in the scheduler's window alone (R368, PARK 2); else it lacks room in the journal (PARK 4). -/
def Mach.launchCode (m : Mach) (f : Nat) : Nat := if (m.fn f).acceptRoom then 2 else 4

/-- A queue parked on room for its command, tried again (R386): it resumes in the next engine cycle. -/
def Mach.retryLaunch (m : Mach) (f q : Nat) : Mach :=
  let x := m.queue f q
  match x.park, x.pkt with
  | some .launch, some p =>
    let launch := (codeAt x.code p.pc).2.fn == 0
    if (m.fn f).acceptRoom && (!launch || m.windowRoom f) then m.modQueue f q fun y => { y with park := some (.go 2), wake := m.now + 1 } else m
  | _, _ => m

/-- QSTAT (R368). -/
def Mach.qstat (m : Mach) (f q : Nat) : W32 :=
  let x := m.queue f q
  let park : Nat := match x.park with
    | some (.signal _ _ _ _) => 1
    | some .launch => m.launchCode f
    | some (.task _ _) => 3
    | some (.done _ _) => 3
    | some .journal => 4
    | some (.go k) => k
    | none => 0
  let st : Nat := if x.park.isSome then 3 else match x.state with
    | .off => 0 | .idle => 1 | .run => 2 | .parked => 3 | .stopped => 4 | .rejected => 5
  BitVec.ofNat 32 (x.ldet.toNat * 2 ^ 24 + x.lidx % 4096 * 2 ^ 12 + park * 16 + st)

end Sys2Proof.Machine
end

