-- ==== Sys2Proof/Machine/Mgmt.lean ====
section
/-! DEFINITION. Registers of a function's BAR (R4, R367, R402), the mailbox of the management core (R402 to R416, R424, R425), function-level
reset (R423), and page pulls (R419, R420). -/
namespace Sys2Proof.Machine

/-- The management core's state. -/
abbrev Mach.mgmt (m : Mach) : Mgmt := m.hub.mgmt

/-- The management core's state changed. -/
def Mach.modMgmt (m : Mach) (f : Mgmt → Mgmt) : Mach := { m with hub := { m.hub with mgmt := f m.hub.mgmt } }

/-- An MSI-X interrupt of a function, where its table has the vector (R388, R426). -/
def Mach.raiseVec (m : Mach) (f v : Nat) : Mach :=
  if min 2048 (Config.msixSize f) ≤ v then m else { m with hub := { m.hub with msix := m.hub.msix ++ [(f, v)] } }

/-! ### The mailbox (R402, R403) -/

/-- BUSY of MBSTAT. -/
def Mgmt.busy (g : Mgmt) : Bool := g.mbstat.getLsbD 31

/-- CODE of MBCMD. -/
def Mgmt.code (g : Mgmt) : Nat := (bits g.mbcmd 0 16).toNat

/-- Whether a step of a mailbox command is due. -/
def Mach.mbDue (m : Mach) (code : Nat) : Bool := m.mgmt.busy && m.mgmt.code == code && m.mgmt.at_ ≤ m.now

/-- A command ends (R402): STATUS, BUSY clear, and then VEC of function 0. -/
def Mach.mbEnd (m : Mach) (status : Nat) : Mach :=
  (m.modMgmt fun g => { g with mbstat := BitVec.ofNat 32 status }).raiseVec 0 (bits m.mgmt.mbcmd 16 12).toNat

/-- The command's next step falls in the next cycle. -/
def Mach.mbNext (m : Mach) : Mach := m.modMgmt fun g => { g with at_ := m.now + 1 }

/-- The 64 bytes of the argument block, as read when the command started. -/
def Mach.mbArgs (m : Mach) : List Byte := imageBytes m.mgmt.args

/-- Whether an argument block lies where it may and has zeros where no field of the command lies: `fields` are offsets and lengths. -/
def Mach.mbBlockOk (m : Mach) (fields : List (Nat × Nat)) : Bool :=
  m.mgmt.mbarg.toNat % 64 == 0 && m.mgmt.mbarg.toNat < 2 ^ 48 &&
  (List.range 64).all fun i => (fields.any fun f => f.1 ≤ i && i < f.1 + f.2) || nth m.mbArgs i 0 == 0

/-- A mailbox command of one step: BADARG on a bad block or argument, else what the command does: a status, with the machine after OK. -/
def mbCommand (code : Nat) (fields : List (Nat × Nat)) (ok : Mach → List Byte → Bool) (run : Mach → List Byte → Except Nat Mach)
    (s : State) : Host.Outcome State Fault Refusal :=
  let m := s.m
  if !m.mbDue code then .next s
  else if !(m.mbBlockOk fields && ok m m.mbArgs) then .next { s with m := m.mbEnd 1 }
  else match run m m.mbArgs with
    | .ok m' => .next { s with m := m'.mbEnd 0 }
    | .error st => .next { s with m := m.mbEnd st }

/-! ### LAYOUT (R404 to R406) -/

/-- A layout record's fields: GEN, TSTK, FMAP, and QUADS and HSLOTS by partition. -/
structure Layout where
  gen   : Nat
  tstk  : BitVec 8
  fmap  : List Nat
  parts : List (BitVec 32 × Nat)

/-- A layout record read. -/
def layoutOf (r : List Byte) : Layout :=
  { gen := field r 0 4, tstk := BitVec.ofNat 8 (field r 4 1), fmap := (List.range 25).map fun f => field r (8 + f) 1,
    parts := (List.range 16).map fun p => (BitVec.ofNat 32 (field r (0x100 + 16 * p) 4), field r (0x104 + 16 * p) 1) }

/-- Reserved bytes of a layout record are zero (R404). -/
def layoutZeros (r : List Byte) : Bool :=
  field r 5 3 == 0 && field r 0x21 223 == 0 && (List.range 16).all fun p => field r (0x105 + 16 * p) 11 == 0

/-- Whether the dies of a partition that hold quads hold equal numbers of them (R25). -/
def equalQuads (q : BitVec 32) : Bool :=
  let ns := ((List.range 4).map fun d => ((List.range 6).filter fun i => q.getLsbD (6 * d + i)).length).filter (· != 0)
  ns.all fun n => n == nth ns 0 0

/-- Whether a choice of period origins gives every partition of a layout its slots in each timed channel, beside the eight of the refresh (R404, R441). -/
def Layout.originsExist (l : Layout) : Bool :=
  l.tstk == 0 || (List.range 64).any fun r =>
    originsFit ((l.parts.filter fun p => p.1 != 0 && p.2 != 0).map fun p => (p.2, none)) ((List.range 8).map fun i => (r + i) % 64)

/-- R404: whether a layout record is in order. -/
def Mach.layoutOk (m : Mach) (r : List Byte) : Bool :=
  let l := layoutOf r
  layoutZeros r && m.mgmt.gen.toNat < l.gen &&
  (l.parts.all fun p => p.1.toNat < 2 ^ 24 && p.2 ≤ 64 && equalQuads p.1) &&
  ((List.range 24).all fun q => (l.parts.filter fun p => p.1.getLsbD q).length ≤ 1) &&
  l.parts.foldl (fun a p => a + p.2) 0 ≤ 56 &&
  (l.fmap.all fun p => p == 0xFF || (p < 16 && (nth l.parts p (0, 0)).1 != 0)) && l.originsExist &&
  Config.layoutFits (bytesImage 4096 r)

/-- QUADS and HSLOTS of a partition in force. -/
def Mach.partShape (m : Mach) (p : Nat) : BitVec 32 × Nat := match m.part p with | some x => (x.quads.setWidth 32, x.hslots) | none => (0, 0)

/-- Whether a layout changes a partition. -/
def Mach.partChanges (m : Mach) (l : Layout) (p : Nat) : Bool :=
  let new := nth l.parts p (0, 0)
  m.partShape p != (if new.1 = 0 then (0, 0) else new)

/-- Whether a layout concerns the partition of a function (R399, R405). -/
def Mach.layoutConcerns (m : Mach) (l : Layout) (f : Nat) : Bool :=
  m.fnPart f != nth l.fmap f 0xFF || m.partChanges l (m.fnPart f)

/-- INUSE of R405. -/
def Mach.layoutInUse (m : Mach) (l : Layout) : Bool :=
  m.hub.tasks.any fun t => (m.partChanges l t.part && (t.state == .bound || t.state == .restoring)) || m.fnPart t.fn != nth l.fmap t.fn 0xFF

/-- The LAYOUT entries of a phase (R399, R405). -/
def Mach.layoutEntries (m : Mach) (fs : List Nat) (gen phase : Nat) : Mach :=
  fs.foldl (fun m f => m.journalRoom f (JEntry.new 5 0 (jref 0 0 f) (BitVec.ofNat 64 (gen + phase * 2 ^ 32)) false)) m

/-- The functions that a layout concerns. -/
def Mach.layoutFns (m : Mach) (l : Layout) : List Nat := (List.range 25).filter (m.layoutConcerns l)

/-- Phase 1 (R405): the tables are in the spare bank. -/
def Mach.layoutPrepare (m : Mach) (r : List Byte) : Mach :=
  let l := layoutOf r
  (m.modMgmt fun g => { g with prep := true, laying := some (bytesImage 4096 r), flipped := false }).layoutEntries (m.layoutFns l) l.gen 1

/-- The flip of BANK (R405): the readers take the new layout. -/
def Mach.layoutFlip (m : Mach) : Mach :=
  m.modMgmt fun g => { g with bank := !g.bank, flipped := true }

/-- The partitions of a layout; a partition that stays keeps its policy (R408). -/
def Mach.layoutParts (m : Mach) (l : Layout) : List Part :=
  (List.range 16).filterMap fun p =>
    let x := nth l.parts p (0, 0)
    if x.1 = 0 then none
    else some (match m.part p with
      | some old => { old with quads := x.1.setWidth 24, hslots := x.2 }
      | none => { num := p, quads := x.1.setWidth 24, hslots := x.2, slice := 20000, watch := 0, weights := List.replicate 25 1 })

/-- Tasks that a new layout leaves no room to be bound, or to be bound again: each ends at once with status 0x81 (R407). -/
def Mach.endUnbindable (m : Mach) : Mach :=
  let gone (t : Task) : Bool := (t.state == .ready || t.state == .saved) && t.killed.isNone &&
    !(match m.part t.part with | some p => bindable t.native t.widSpec t.repl p | none => false)
  { m with hub := { m.hub with tasks := m.hub.tasks.map fun (t : Task) => if gone t then { t with state := .ending, killed := some 0x81 } else t } }

/-- Phase 2 (R405): the layout is in force. -/
def Mach.layoutCommit (m : Mach) (r : BitVec 4096) : Mach :=
  let l := layoutOf (imageBytes r)
  let fs := m.layoutFns l
  let parts := m.layoutParts l
  (m.modMgmt fun g => { g with prep := false, laying := none, flipped := false, gen := BitVec.ofNat 32 l.gen, layout := r, fmap := l.fmap,
                               tstk := l.tstk, parts := parts }).endUnbindable.layoutEntries fs l.gen 2

/-- LAYOUT (R405), one phase at a time: prepared, flipped, committed. -/
def execMbLayout (s : State) : Host.Outcome State Fault Refusal :=
  let m := s.m
  if !m.mbDue 1 then .next s
  else match m.mgmt.laying with
    | some r => if m.mgmt.flipped then .next { s with m := (m.layoutCommit r).mbEnd 0 } else .next { s with m := m.layoutFlip.mbNext }
    | none =>
      let a := field m.mbArgs 0 8
      let r := m.sys.readBlock a 512
      if !(m.mbBlockOk [(0, 8)] && a < 2 ^ 48 && m.layoutOk r) then .next { s with m := m.mbEnd 1 }
      else if m.layoutInUse (layoutOf r) then .next { s with m := m.mbEnd 2 }
      else .next { s with m := (m.layoutPrepare r).mbNext }

/-- A layout that is being committed is rolled forward, where the readers have taken it, or discarded (R406). -/
def Mach.layoutSettle (m : Mach) : Mach :=
  match m.mgmt.laying with
  | none => m
  | some r =>
    if m.mgmt.flipped then m.layoutCommit r
    else
      let l := layoutOf (imageBytes r)
      let fs := m.layoutFns l
      (m.modMgmt fun g => { g with prep := false, laying := none }).layoutEntries fs l.gen 3

/-- The restart of the management core (R406): a prepared layout is rolled forward or discarded, and its LAYOUT command ends. -/
def Mach.mgmtRestart (m : Mach) : Mach :=
  if m.mgmt.laying.isNone then m else m.layoutSettle.mbEnd (if m.mgmt.flipped then 0 else 1)

/-- MGMT_WATCHDOG_RESET (R406). -/
def execMgmtWatchdogReset (s : State) : Host.Outcome State Fault Refusal := .next { s with m := s.m.mgmtRestart }

/-! ### SAVE, RESTORE and RELEASE (R403, R413, R414) -/

/-- SHAPE of a function's partition (R413). -/
def Mach.shapeOf (m : Mach) (f : Nat) : W64 :=
  match m.part (m.fnPart f) with
  | some p => BitVec.ofNat 64 (p.dies.length + p.quadsPerDie * 256 + p.hslots * 65536)
  | none => 0

/-- Tasks of a function. -/
def Mach.fnTasks (m : Mach) (f : Nat) : List Task := m.hub.tasks.filter fun t => t.fn == f

/-- Whether a function has a bound task. -/
def Mach.fnBound (m : Mach) (f : Nat) : Bool := (m.fnTasks f).any fun t => t.state == .bound || t.state == .restoring

/-- TAG of a save image whose TAG is zero (R413): as of a line (R424), the first 8 bytes of the CMAC (log entry 20). -/
def saveTag (image : List Byte) : List Byte := (sm4CmacOf (imageBytes Config.saveKey) image).take 8

/-- The SECT entries of a save image (R413), the first section at an offset from the image's start, the others one behind the other. -/
def sectEntries (offset : Nat) : List (BitVec 16 × BitVec 16 × List Byte) → List Byte
  | [] => []
  | (type, index, bs) :: rest =>
    leBytes 2 type.toNat ++ leBytes 2 index.toNat ++ leBytes 4 bs.length ++ leBytes 8 offset ++ sectEntries (offset + bs.length) rest

/-- The bytes of a save image (R413): header, with TAG over the image, the SECT entries, and the sections drawn. -/
def saveBytes (ver f : Nat) (shape : W64) (ntask : Nat) (sects : List (BitVec 16 × BitVec 16 × List Byte)) : List Byte :=
  let body := sects.flatMap fun x => x.2.2
  let base := 64 + 16 * sects.length
  let h1 := leBytes 4 ver ++ leBytes 4 f ++ leBytes 8 (base + body.length) ++ leBytes 8 shape.toNat ++ leBytes 4 ntask ++ leBytes 4 sects.length
  let rest := List.replicate 24 (0 : Byte) ++ sectEntries base sects ++ body
  h1 ++ saveTag (h1 ++ leBytes 8 0 ++ rest) ++ rest

/-- Whether the TAG of a save image matches (R413, R414). -/
def saveTagOk (image : List Byte) : Bool :=
  (image.drop 0x20).take 8 == saveTag (image.take 0x20 ++ leBytes 8 0 ++ image.drop 0x28)

/-- A function paused (R413), and its bound tasks, those that linger beside another task (R150) among them, to be pre-empted of their full state. -/
def Mach.pause (m : Mach) (f : Nat) : Mach :=
  let m := m.modFn f fun x => { x with paused := true }
  (m.fnTasks f).foldl (fun m t => m.modTask t.seq fun t =>
    if t.state == .bound && t.killed.isNone then { t with preempt := some ((t.preempt.map Prod.fst).getD m.now, true) } else t) m

/-- What a task holds of its own in a save image: its place in the chain, or the whole state saved. -/
def Task.asSaved (t : Task) : Task := { t with preempt := none }

/-- SAVE (R413): the function is paused and its tasks pre-empted; once none is bound, the image is written and registered. -/
def execMbSave (s : State) : Host.Outcome State Fault Refusal :=
  let m := s.m
  let a := m.mbArgs
  let f := field a 0 8
  let area := field a 8 8
  let len := field a 0x10 8
  if !m.mbDue 2 then .next s
  else if !(m.mbBlockOk [(0, 8), (8, 8), (16, 8)] && f < 25 && area + len ≤ 2 ^ 48) then .next { s with m := m.mbEnd 1 }
  else if !(m.fn f).paused || m.fnBound f then .next { s with m := (m.pause f).mbNext }
  else
    let n := Config.saveBody (Config.freeNat m.free)
    let bs := saveBytes m.mgmt.reads.2 f (m.shapeOf f) (m.fnTasks f).length n
    if len < bs.length then .next { s with m := (m.modFn f fun x => { x with paused := false }).mbEnd 3 }
    else
      let im : SaveImage := { area := area, fn := f, ver := m.mgmt.reads.2, shape := m.shapeOf f, bytes := bs, reg := true, spoilt := false, func := m.fn f,
                              tasks := (m.fnTasks f).map Task.asSaved }
      let m := { m with free := m.free + 1, hub := { m.hub with tasks := m.hub.tasks.filter fun t => t.fn != f } }
      let m := m.devWrite (atAddr area bs)
      .next { s with m := (m.modMgmt fun g => { g with images := g.images ++ [im] }).mbEnd 0 }

/-- The saved image whose bytes stand at an address with a TAG that matches (R414): the latest registered there, unless a host has written to it; else
the latest saved or carried here. -/
def Mach.imageAt (m : Mach) (area : Nat) : Option SaveImage :=
  let there (x : SaveImage) : Bool := m.sys.readBlock area x.bytes.length == x.bytes && saveTagOk x.bytes
  match (m.mgmt.images.filter fun x => x.reg && x.area == area).getLast? with
  | some x => if !x.spoilt && there x then some x else none
  | none => (m.mgmt.images.filter there).getLast?

/-- The tasks of a save image as they come here (R414): of function `f`, each under a name of its own in this hub, by which their edges and barriers name
them; their sequence numbers stay. -/
def Mach.carryTasks (m : Mach) (f : Nat) (ts : List Task) : List Task :=
  let keys := (List.range ts.length).zipWith (fun i (t : Task) => (t.seq, 2 ^ 64 + m.now * 2 ^ 16 + i)) ts
  let key (n : Nat) : Nat := ((keys.find? fun k => k.1 == n).map Prod.snd).getD n
  ts.map fun t => { t with
    seq := key t.seq, fn := f, part := m.fnPart f
    edges := t.edges.map fun e => { e with seq := key e.seq }
    barriers := t.barriers.map fun b => { b with ref := { b.ref with task := key b.ref.task } } }

/-- The migrating leaf (M = 1) over a guest address below a stage-2 table: the address of its entry, the entry, and the bytes it covers. -/
def migratingLeaf (dev : Memory) (gpa : Nat) : Nat → Nat → Nat → Option (Nat × Nat × Nat)
  | 0, _, _ => none
  | fuel + 1, lvl, table =>
    let place := table + 8 * (gpa / 2 ^ lvlShift lvl % 2 ^ lvlBits lvl)
    let e := dev.value place 8
    if e % 2 = 0 then none
    else if e / 2 % 2 = 1 then (if e / 128 % 2 = 1 then some (place, e, 2 ^ lvlShift lvl) else none)
    else migratingLeaf dev gpa fuel (lvl + 1) (e / 256 % 2 ^ 40 * 256)

/-- The guest addresses of leaves marked M = 1 below a stage-2 table, in ascending order. -/
def migrating (dev : Memory) : Nat → Nat → Nat → Nat → List Nat
  | 0, _, _, _ => []
  | fuel + 1, lvl, table, gpa =>
    (List.range (2 ^ lvlBits lvl)).flatMap fun i =>
      let e := dev.value (table + 8 * i) 8
      let g := gpa + i * 2 ^ lvlShift lvl
      if e % 2 = 0 then []
      else if e / 2 % 2 = 1 then (if e / 128 % 2 = 1 then [g] else [])
      else migrating dev fuel (lvl + 1) (e / 256 % 2 ^ 40 * 256) g

/-- The page that Feldspar pulls of itself (R419): the least that remains beside those asked for; it is asked for where it was not. -/
def Mach.ownPull (m : Mach) (f : Nat) : Mach :=
  let x := m.fn f
  match x.pull, x.s2root with
  | some p, some root =>
    let next := (migrating m.dev 4 0 root 0).find? fun g => !(x.pulls.any fun y => y.1 == g)
    if next.isSome && next == x.ownPull.map Prod.fst then m
    else
      let m := m.modFn f fun x => { x with ownPull := next.map fun g => (g, m.now) }
      match next, x.peers.find? fun e => e.num == p.peer with
      | some g, some e => m.sendFlits e 1 [.pull f g]
      | _, _ => m
  | _, _ => m.modFn f fun x => { x with ownPull := none }

/-- RESTORE (R403, R414): the checks in order, then the function's queues, journal registers and tasks; in post-copy mode Feldspar's first pull (R419). -/
def execMbRestore (s : State) : Host.Outcome State Fault Refusal :=
  mbCommand 3 [(0, 8), (8, 8), (16, 8), (24, 8), (32, 8), (40, 8)]
    (fun _ a => field a 0 8 < 25 && field a 8 8 < 2 ^ 48 && (field a 0x10 8 < 4096 || field a 0x10 8 == 0xFFFF) && field a 0x20 8 + field a 0x28 8 ≤ 2 ^ 48)
    (fun m a =>
      let f := field a 0 8
      let peer := field a 0x10 8
      match m.imageAt (field a 8 8) with
      | none => .error 8
      | some im =>
        if im.ver < m.mgmt.reads.1 || m.mgmt.reads.2 < im.ver then .error 1
        else if im.shape != m.shapeOf f then .error 7
        else if !(m.fnTasks f).isEmpty then .error 2
        else
          let old := m.fn f
          let pull : Option Pull := if peer = 0xFFFF then none else
            some { peer := peer, timeout := field a 0x18 8, list := field a 0x20 8, len := field a 0x28 8, vec := (bits m.mgmt.mbcmd 16 12).toNat }
          let m := m.modFn f fun _ => { im.func with
            s2root := old.s2root, key := old.key, hostWins := old.hostWins, peers := old.peers, paused := false, pull := pull, pulls := [], ownPull := none }
          let m := { m with hub := { m.hub with tasks := m.hub.tasks ++ m.carryTasks f im.tasks } }
          .ok ((m.modMgmt fun g => { g with images := g.images.map fun x => if x == im then { x with reg := false } else x }).ownPull f)) s

/-- RELEASE (R403, R413). -/
def execMbRelease (s : State) : Host.Outcome State Fault Refusal :=
  mbCommand 4 [(0, 8)] (fun _ a => field a 0 8 < 2 ^ 48)
    (fun m a => if m.mgmt.images.any fun x => x.reg && x.area == field a 0 8
      then .ok (m.modMgmt fun g => { g with images := g.images.map fun x => if x.area == field a 0 8 then { x with reg := false } else x })
      else .error 9) s

/-! ### A function's configuration (R403, R408, R416, R424) -/

/-- S2ROOT (R416). -/
def execMbS2root (s : State) : Host.Outcome State Fault Refusal :=
  mbCommand 5 [(0, 8), (8, 8)] (fun _ a => field a 0 8 < 25 && field a 8 8 < 2 ^ 48 && field a 8 8 % 4096 == 0)
    (fun m a => if m.fnBound (field a 0 8) then .error 2 else .ok (m.modFn (field a 0 8) fun x => { x with s2root := some (field a 8 8) })) s

/-- CODEKEY (R424). -/
def execMbCodekey (s : State) : Host.Outcome State Fault Refusal :=
  mbCommand 6 [(0, 8), (16, 16)] (fun _ a => field a 0 8 < 25)
    (fun m a => .ok (m.modFn (field a 0 8) fun x => { x with key := some (bytesImage 128 ((a.drop 16).take 16)) })) s

/-- HOSTWIN (R416). -/
def execMbHostwin (s : State) : Host.Outcome State Fault Refusal :=
  mbCommand 7 [(0, 4), (4, 4), (8, 8), (16, 8), (24, 8)] (fun _ a => field a 0 4 < 25 && field a 4 4 < 64 && field a 0x18 8 < 4)
    (fun m a =>
      let w : HostWin := { num := field a 4 4, base := field a 8 8, len := field a 16 8, r := field a 24 1 % 2 == 1, w := field a 24 1 / 2 == 1 }
      .ok (m.modFn (field a 0 4) fun x => { x with hostWins := (x.hostWins.filter fun y => y.num != w.num) ++ [w] })) s

/-- PEER (R416). -/
def execMbPeer (s : State) : Host.Outcome State Fault Refusal :=
  mbCommand 8 [(0, 4), (4, 4), (8, 8), (16, 8)]
    (fun _ a => field a 0 4 < 25 && field a 4 4 < 4096 && field a 8 8 < 65536 && field a 16 8 < 65536)
    (fun m a =>
      let p : PeerEntry := { num := field a 4 4, links := BitVec.ofNat 16 (field a 8 8), ctx := BitVec.ofNat 64 (field a 16 8) }
      .ok (m.modFn (field a 0 4) fun x => { x with peers := (x.peers.filter fun y => y.num != p.num) ++ [p] })) s

/-- POLICY (R408). -/
def execMbPolicy (s : State) : Host.Outcome State Fault Refusal :=
  mbCommand 9 [(0, 4), (4, 4), (8, 8), (16, 25)] (fun m a => (m.part (field a 0 4)).isSome)
    (fun m a =>
      let new (p : Part) : Part :=
        { p with slice := field a 4 4, watch := field a 8 8, weights := (List.range 25).map fun i => field a (16 + i) 1 }
      .ok (m.modMgmt fun g => { g with parts := g.parts.map fun p => if p.num = field a 0 4 then new p else p })) s

/-! ### Firmware and attestation (R415, R425) -/

/-- FWACT (R415): the new Feldspar starts as after a watchdog reset. -/
def execMbFwact (s : State) : Host.Outcome State Fault Refusal :=
  mbCommand 10 [(0, 8)] (fun _ a => field a 0 8 < 2 ^ 48)
    (fun m a =>
      let at_ := field a 0 8
      let bs := m.sys.readBlock at_ (Config.firmwareSize (m.sys.readBlock at_ 64))
      let im := Config.firmwareImage bs
      let hash := sm3 bs
      if !Config.sm2Verify hash im.1 then .error 4
      else if im.2.1 < m.mgmt.svn then .error 5
      else if m.mgmt.images.any fun x => x.reg && (x.ver < im.2.2.1 || im.2.2.2 < x.ver) then .error 6
      else .ok (m.mgmtRestart.modMgmt fun g => { g with svn := im.2.1, fwHash := hash, reads := im.2.2 })) s

/-- The signed part of an attestation report (R425). -/
def reportBody (svn : Nat) (nonce : List Byte) (romh fwh layh keyh : BitVec 256) : List Byte :=
  leBytes 4 1 ++ leBytes 4 svn ++ nonce ++ leBytes 32 romh.toNat ++ leBytes 32 fwh.toNat ++ leBytes 32 layh.toNat ++ leBytes 32 keyh.toNat

/-- ATTEST (R425). The hash of a key that is not set is a free value (log entry 20). -/
def execMbAttest (s : State) : Host.Outcome State Fault Refusal :=
  mbCommand 11 [(0, 8), (8, 8), (0x20, 32)] (fun _ a => field a 0 8 < 25 && field a 8 8 < 2 ^ 48)
    (fun m a =>
      let keyh : BitVec 256 := match (m.fn (field a 0 8)).key with
        | some k => sm3 (imageBytes k)
        | none => BitVec.ofNat 256 (Config.freeNat m.free)
      let body := reportBody m.mgmt.svn ((a.drop 0x20).take 32) Config.bootFirmware.2.2 m.mgmt.fwHash (sm3 (imageBytes m.mgmt.layout)) keyh
      .ok ({ m with free := m.free + 1 }.devWrite (atAddr (field a 8 8) (body ++ leBytes 64 (Config.sm2Sign (sm3 body)).toNat)))) s

/-! ### Function-level reset (R423, R436) -/

/-- Entries of the packets outstanding at a reset, abandoned with status 0x86 (R396, R423). -/
def Mach.abandon (m : Mach) (f q : Nat) : Mach :=
  let x := m.queue f q
  let now : Packet := x.pkt.getD { index := x.cons.toNat, pc := 0, steps := 0, loop := none, tx := none, rearm := false }
  let n := (x.notify - x.cons).toNat
  if x.state == .off || x.state == .rejected then m
  else (List.range n).foldl (fun m i =>
    m.packetEntry f q (if i = 0 then now else { now with index := (x.cons.toNat + i) % 2 ^ 32, steps := 0 }) 0x86) m

/-- A reset of a function begins (R423). -/
def Mach.resetBegin (m : Mach) (f : Nat) (quiet : Bool) : Mach :=
  let m := m.modFn f fun x => { x with resetP := true, quiet := x.quiet || quiet, dropped := 0, paused := false }
  let qs := (m.fn f).queues.map Prod.fst
  let m := qs.foldl (fun m q => m.abandon f q) m
  let m := m.modFn f fun x => { x with queues := x.queues.map fun y => (y.1, { y.2.off with en := false, notify := 0 }) }
  (m.fnTasks f).foldl (fun m t => m.killTask t.seq 0x83) m

/-- Whether a pending reset can complete: every task of the function is gone (R423). -/
def Mach.resetDone (m : Mach) (f : Nat) : Bool := (m.fn f).resetP && (m.fnTasks f).all fun t => t.state == .done

/-- The mailbox registers and LAYST at their reset values (R423): a command under way is over, a layout being committed is rolled forward or discarded
as by R406. PERST_N leaves the layout as it is, and LAYST with it (R436). -/
def Mach.mailReset (m : Mach) (quiet : Bool) : Mach :=
  m.layoutSettle.modMgmt fun g => { g with
    mbcmd := 0, mbarg := 0, mbstat := 0, gen := if quiet then g.gen else 0, prep := false, bank := quiet && g.bank }

/-- A reset of a function completes (R423, R436): registers at their reset values but for the journal's, and the RESET entry. -/
def Mach.resetEnd (m : Mach) (f : Nat) : Mach :=
  let x := m.fn f
  let m := m.modFn f fun x => { x with
    queues := [], resetP := false, quiet := false, dropped := 0
    roomJ := x.roomJ.filter fun e => !(x.quiet && e.kind == 4) }
  let m := if f = 0 then m.mailReset x.quiet else m
  if x.quiet then m else m.journalRoom f (JEntry.new 4 0 (jref 0 0 f) (BitVec.ofNat 64 (x.dropped % 2 ^ 32)) false)

/-- FUNCTION_LEVEL_RESET (R423): begun, or, once its tasks are gone, completed. -/
def execFunctionLevelReset (fn : Nat) (s : State) : Host.Outcome State Fault Refusal :=
  let m := s.m
  if m.resetDone fn then .next { s with m := m.resetEnd fn }
  else if (m.fn fn).resetP then .next s
  else .next { s with m := m.resetBegin fn false }

/-! ### Page pulls (R419, R420) -/

/-- Memory of a peer. -/
def Mach.peerMem (m : Mach) (n : Nat) : Memory := ((m.peers.find? fun p => p.1 == n).map Prod.snd).getD []

/-- Whether the page at a guest address may be the next to land (R419): an access waits for it, or Feldspar pulls it of itself. -/
def Mach.pullMay (m : Mach) (fn base : Nat) : Bool :=
  ((m.fn fn).pulls.any fun y => y.1 == base) || (m.fn fn).ownPull.any fun y => y.1 == base

/-- Whether the peer that a function's pages come from can be reached (R420): no peer entry of it has lost every link. -/
def Mach.pullLinked (m : Mach) (f : Nat) (p : Pull) : Bool :=
  ((m.fn f).peers.find? fun e => e.num == p.peer).all fun e => !(m.liveLinks e).isEmpty

/-- PAGE_PULL (R419, R420): over a live link, the page's bytes land, and its leaf is written with M = 0 and D = 0; what waited for it goes on, and
Feldspar pulls the next page. -/
def execPagePull (fn : Nat) (gpa : Nat) (s : State) : Host.Outcome State Fault Refusal :=
  let m := s.m
  match (m.fn fn).pull, (m.fn fn).s2root with
  | some p, some root => match migratingLeaf m.dev gpa 4 0 root with
    | none => .next s
    | some (entry, e, size) =>
      let base := gpa / size * size
      if !(m.pullMay fn base && m.pullLinked fn p) then .next s
      else
        let bs := (m.peerMem p.peer).readBlock base size
        let e' := e - e / 128 % 2 * 128 - e / 64 % 2 * 64
        let m := (m.devWrite (atAddr (e / 256 % 2 ^ 40 * 256) bs)).devAtomic (atAddr entry (leBytes 8 e'))
        let m := m.modFn fn fun x => { x with pulls := x.pulls.filter fun y => y.1 != base, retryAt := m.now }
        .next { s with m := (m.reloadQueues fn).ownPull fn }
  | _, _ => .next s

/-- Whether a pull of a function has not been answered within its timeout, or has no live link (R420). -/
def Mach.pullLate (m : Mach) (f : Nat) : Bool :=
  match (m.fn f).pull with
  | some p => ((m.fn f).pulls ++ (m.fn f).ownPull.toList).any fun x => x.2 + p.timeout * usCycles ≤ m.now || !m.pullLinked f p
  | none => false

/-- The pulls of a function are lost (R420): its tasks end with status 0x14, its queues stop, and the pages lost are listed. -/
def Mach.losePulls (m : Mach) (fn : Nat) : Mach :=
  match (m.fn fn).pull with
  | none => m
  | some p =>
    let m := ((m.fnTasks fn).filter fun t => t.state == .bound || t.state == .restoring).foldl (fun m t => m.killTask t.seq 0x14) m
    let m := (m.fn fn).queues.foldl (fun m y =>
      if y.2.state == .off || y.2.state == .rejected then m
      else (m.endPacket fn y.1 0x14 true).modQueue fn y.1 fun x => { x with state := .stopped, park := none }) m
    let lost := match (m.fn fn).s2root with | some root => migrating m.dev 4 0 root 0 | none => []
    let room := p.len / 8 - 1
    let cut := decide (room < lost.length)
    let listed := lost.take room
    let bs := leBytes 8 (listed.length + (if cut then 2 ^ 63 else 0)) ++ listed.flatMap (leBytes 8)
    let m := if p.len < 8 then m else m.devWrite (atAddr p.list bs)
    (m.modFn fn fun x => { x with pull := none, pulls := [], ownPull := none }).raiseVec 0 p.vec

/-- F_PULLLOST (R420). -/
def execFPulllost (fn : Nat) (s : State) : Host.Outcome State Fault Refusal := .next { s with m := s.m.losePulls fn }

/-! ### Registers of the BAR (R367, R402, R437) -/

/-- Whether any queue of a function is enabled. -/
def Fn.anyEnabled (x : Fn) : Bool := x.queues.any fun y => y.2.en

/-- PCAP (R440): a power limit outside 500 to 3,000 W is ignored. -/
def Mach.setPcap (m : Mach) (v : W32) : Mach :=
  if 500 ≤ v.toNat % 65536 && v.toNat % 65536 ≤ 3000 then { m with module := { m.module with pcap := BitVec.ofNat 32 (v.toNat % 65536) } } else m

/-- Bits of a W1C register cleared (R4). -/
def w1c (old v : BitVec w) : BitVec w := old &&& ~~~v

/-- A write to the mailbox's command register (R402): a code that names no command ends with BADARG. -/
def Mach.mbWrite (m : Mach) (v : W32) : Mach :=
  if m.mgmt.busy then m
  else
    let m := m.modMgmt fun g => { g with mbcmd := v &&& 0x8FFFFFFF }
    if !v.getLsbD 31 then m
    else
      let m := m.modMgmt fun g => { g with mbstat := g.mbstat ||| 0x80000000, at_ := m.now, args := bytesImage 512 (m.sys.readBlock g.mbarg.toNat 64) }
      if 1 ≤ m.mgmt.code && m.mgmt.code ≤ 11 then m else m.mbEnd 1

/-- A write to a register of function 0 alone (R402, R437). -/
def Mach.writeReg0 (m : Mach) (offset : Nat) (v : W64) : Mach :=
  match offset with
  | 0x0800 => m.mbWrite (v.setWidth 32)
  | 0x0808 => if m.mgmt.busy then m else m.modMgmt fun g => { g with mbarg := v }
  | 0x0908 => { m with module := { m.module with railflt := w1c m.module.railflt (v.setWidth 32) } }
  | 0x0910 => m.setPcap (v.setWidth 32)
  | 0x0918 => { m with module := { m.module with memerr := w1c m.module.memerr v } }
  | _ => m

/-- A write to the journal's registers (R367, R399, R400). -/
def Mach.writeJournalReg (m : Mach) (f offset : Nat) (v : W64) : Mach :=
  match offset with
  | 0x0000 => if (m.fn f).anyEnabled then m else m.modFn f fun x => { x with jbase := v, jwr := 0, resetJ := none }
  | 0x0008 =>
    let k := v.toNat % 32
    if (m.fn f).anyEnabled || k < 8 || 20 < k then m else m.modFn f fun x => { x with jsize := BitVec.ofNat 32 k }
  | 0x0018 => m.modFn f fun x =>
    let jrd : W32 := v.setWidth 32
    { x with jrd := jrd, resetJ := match x.resetJ with
        | some i => if 0 < (jrd - BitVec.ofNat 32 i).toNat && (jrd - BitVec.ofNat 32 i).toNat < 2 ^ 31 then none else some i
        | none => none }
  | _ => m

/-- REGISTER_WRITE (R4, R367, R402, R437): a write to a register of a function's BAR. The spec gives no access widths: the model's choice is that an
access at an offset inside a register, but for its first, reaches no register, so that a write is ignored and a read gives 0 (log entry 77). -/
def execRegisterWrite (fn offset : Nat) (value : W64) (s : State) : Host.Outcome State Fault Refusal :=
  let m := s.m
  let q := (offset - 0x1000) / 0x40
  if 25 ≤ fn then .next s
  else if offset < 0x800 then .next { s with m := m.writeJournalReg fn offset value }
  else if offset < 0x1000 then .next { s with m := if fn = 0 then m.writeReg0 offset value else m }
  else if 64 ≤ q then .next s
  else match (offset - 0x1000) % 0x40 with
    | 0x00 => .next { s with m := m.modQueue fn q fun x => { x with qcb := value } }
    | 0x08 => if value.getLsbD 0 then execQueueEnable fn q s else execQueueDisable fn q s
    | 0x10 => execQnotifyWrite fn q (value.setWidth 32) s
    | _ => .next s

/-- LAYST (R402). -/
def Mach.layst (m : Mach) : W64 :=
  BitVec.ofNat 64 (m.mgmt.gen.toNat * 2 ^ 32 + (if m.mgmt.prep then 2 else 0) + (if m.mgmt.bank then 1 else 0))

end Sys2Proof.Machine
end

