-- ==== Sys2Proof/Machine/Package.lean ====
section
/-! DEFINITION. Power, bring-up, resets, throttling, Dolcor links and memory errors of the module (R107, R426 to R440). -/
namespace Sys2Proof.Machine

/-- The module's registers changed. -/
def Mach.modModule (m : Mach) (f : Module → Module) : Mach := { m with module := f m.module }

/-! ### Bring-up and power-off (R433 to R439) -/

/-- BOOTST (R438). -/
def bootWord (err : Byte) (hwid : BitVec 3) (hgen : BitVec 4) (stage : Nat) : W32 :=
  BitVec.ofNat 32 (err.toNat * 2 ^ 24 + hwid.toNat * 2 ^ 16 + hgen.toNat * 2 ^ 12 + stage)

/-- BOOTST.STAGE. -/
def Module.stage (x : Module) : Nat := (bits x.bootst 0 4).toNat

/-- Dolcor link `i` trained or not. -/
def Module.setLink (x : Module) (i : Nat) (up : Bool) : Module :=
  { x with links := x.links.modify i fun l => { l with up := up, replays := if up then 0 else l.replays } }

/-- DLSTAT (R437). -/
def Module.dlstat (x : Module) : W32 :=
  BitVec.ofNat 32 ((List.range 16).foldl (fun a i => if (x.links[i]?).any Link.up then a + 2 ^ i else a) 0)

/-- A read of a register of a function's BAR at an offset (R4, R367, R402, R437): reserved bits, and offsets without a register, read 0, the offsets inside an
8-byte register among them (log entry 77). -/
def Mach.readReg (m : Mach) (f offset : Nat) : W64 :=
  let x := m.fn f
  let q := m.queue f ((offset - 0x1000) / 0x40)
  if 25 ≤ f || 0x2000 ≤ offset then 0
  else if 0x1000 ≤ offset then match (offset - 0x1000) % 0x40 with
    | 0x00 => q.qcb
    | 0x08 => if q.en then 1 else 0
    | 0x10 => q.notify.setWidth 64
    | 0x18 => q.cons.setWidth 64
    | 0x20 => (m.qstat f ((offset - 0x1000) / 0x40)).setWidth 64
    | _ => 0
  else if 0x800 ≤ offset && f != 0 then 0
  else match offset with
    | 0x0000 => x.jbase
    | 0x0008 => x.jsize.setWidth 64
    | 0x0010 => x.jwr.setWidth 64
    | 0x0018 => x.jrd.setWidth 64
    | 0x0800 => m.mgmt.mbcmd.setWidth 64
    | 0x0808 => m.mgmt.mbarg
    | 0x0810 => m.mgmt.mbstat.setWidth 64
    | 0x0818 => m.layst
    | 0x0900 => m.module.bootst.setWidth 64
    | 0x0904 => m.module.railst.setWidth 64
    | 0x0908 => m.module.railflt.setWidth 64
    | 0x090C => m.module.temp.setWidth 64
    | 0x0910 => m.module.pcap.setWidth 64
    | 0x0914 => m.module.pwrnow.setWidth 64
    | 0x0918 => m.module.memerr
    | 0x0920 => m.module.dlstat.setWidth 64
    | _ => 0

/-- A module whose state is lost: the cycle count, what happens outside, the memories of others and the firmware's counter stay. -/
def Mach.cold (m : Mach) (f : Module → Module) : Mach :=
  { Mach.reset with
    now := m.now, inbox := m.inbox, arrivals := m.arrivals, free := m.free, host := m.host, peers := m.peers
    hub := { Hub.reset with mgmt := { Mgmt.reset with svn := m.mgmt.svn, fwHash := m.mgmt.fwHash } }
    module := f { Module.reset with railflt := m.module.railflt, pwrEn := m.module.pwrEn, perst := m.module.perst } }

/-- Cycles in a millisecond (R106). -/
def msCycles : Nat := 1400000

/-- The RAILST bits of rail `k`, at the compute dies and the hub (R439). -/
def railBits (k : Nat) : W32 :=
  BitVec.ofNat 32 (2 ^ k + 2 ^ (4 + k) + 2 ^ (8 + k) + 2 ^ (12 + k) + if k < 3 then 2 ^ (16 + k) else 0)

/-- Of the rails in the order of their rise, the bits of the first that are not within tolerance in a RAILST (R435, R439). -/
def failedRail (w : W32) : W32 :=
  ((List.range 4).map fun k => railBits k &&& ~~~w).find? (· != 0) |>.getD 0

/-- One step of a bring-up or a power-off (R435), with what RAILST and BOOTST then show. Firmware whose security version lies below the counter is
not verified (R415), and a failed step ends the bring-up; of a failed rail, RAILFLT latches what is out of tolerance (R437). -/
def Mach.powerStep (m : Mach) (st : PowerStep) : Mach :=
  let stage (n : Nat) : Mach := m.modModule fun x => { x with bootst := bootWord 0 0 0 n }
  let rail (w : W32) (up : Bool) : Mach := m.modModule fun x => { x with railst := if up then x.railst ||| w else x.railst &&& ~~~w }
  match st with
  | .bus up => rail 0x100000 up
  | .rail k up => rail (railBits k) up
  | .release => stage 1
  | .firmware =>
    if Config.bootFirmware.1 < m.mgmt.svn then m.modModule fun x => { x with bootst := bootWord 2 0 0 0xF }
    else (stage 2).modMgmt fun g => { g with svn := Config.bootFirmware.1, fwHash := Config.bootFirmware.2.1 }
  | .hbm => if m.module.stage = 0xF then m else stage 3
  | .ports => if m.module.stage = 0xF then m else (List.range 16).foldl (fun m i => m.modModule fun x => x.setLink i (x.boot.links.getLsbD i)) (stage 4)
  | .ready => m.modModule fun x => if x.stage = 4 && !x.perst then { x with bootst := bootWord 0 x.boot.hwid x.boot.hgen 5 } else x
  | .fail w => if m.module.stage = 0xF then m else m.modModule fun x => { x with
      railst := if x.boot.err = 1 then w else x.railst
      railflt := if x.boot.err = 1 then x.railflt ||| failedRail w else x.railflt
      bootst := bootWord x.boot.err 0 0 0xF }

/-- Steps one behind the other from a cycle on, each within its bound of cycles, where it has one, after the one before; the exact time of a step
is open (log entry 35). -/
def planSteps (free at_ : Nat) : List (Option Nat × PowerStep) → List (Nat × PowerStep)
  | [] => []
  | (bound, st) :: rest =>
    let t := at_ + 1 + match bound with | some b => Config.freeNat free % b | none => Config.freeNat free
    (t, st) :: planSteps (free + 1) t rest

/-- The rails' rise (R435): the bus, then each rail within 2 ms of the one before; a failing rail leaves the ones before it good, and itself open. -/
def riseSteps (err : Byte) (d : Nat) : List (Option Nat × PowerStep) :=
  let up (k : Nat) : Option Nat × PowerStep := (some (2 * msCycles), .rail k true)
  let good (n : Nat) : W32 := (List.range n).foldl (fun w k => w ||| railBits k) 0x100000
  if err = 1 then
    let k := d % 4
    (none, .bus true) :: (List.range k).map up ++ [(none, .fail (good k ||| (railBits k &&& BitVec.ofNat 32 (d / 4) &&& ~~~BitVec.ofNat 32 (2 ^ k))))]
  else (none, .bus true) :: (List.range 4).map up

/-- The boot stage's steps (R435), up to the one that fails. -/
def bootSteps (err : Byte) : List (Option Nat × PowerStep) :=
  let all : List (Option Nat × PowerStep) := [(none, .firmware), (none, .hbm), (none, .ports), (none, .ready)]
  if err = 0 then all else all.take (min err.toNat 4 - 2) ++ [(none, .fail 0)]

/-- POWER_ON (R435): the bring-up steps in order, with their result in BOOTST; a failed step leaves the host link untrained. MOD_RESET_N is released
1 ms after the last rail is good. Of a module that stands at STAGE 1, its rails good, the boot stage starts at once. -/
def execPowerOn (hostUp : Bool) (boot : BootResult) (s : State) : Host.Outcome State Fault Refusal :=
  let m := s.m
  let p := m.module
  let boots := p.powered && p.stage == 1 && p.plan.isEmpty && boot.err != 1
  if p.powered && !boots then .next s
  else
    let rise := planSteps (m.free + 1) ((p.plan.getLast?.map Prod.fst).getD m.now) (if boots then [] else riseSteps boot.err (Config.freeNat m.free))
    let good := (rise.getLast?.map Prod.fst).getD m.now
    let release := if boots || boot.err = 1 then [] else [(good + msCycles, .release)]
    let rest := if boot.err = 1 then [] else planSteps (m.free + 8) (if boots then m.now else good + msCycles) (bootSteps boot.err)
    .next { s with m := { m with free := m.free + 16 }.modModule fun x => { x with
      powered := true, pwrEn := true, perst := !hostUp, boot := boot, plan := x.plan ++ rise ++ release ++ rest
      bootst := if boots then x.bootst else 0 } }

/-- The rails' fall (R435): the reverse order of their rise, each within 1 ms of the one before. -/
def fallSteps : List (Option Nat × PowerStep) :=
  [3, 2, 1, 0].map (fun k => (some msCycles, .rail k false)) ++ [(some msCycles, .bus false)]

/-- The module off (R433, R435): what it held is lost at once, and the rails fall. -/
def Mach.off (m : Mach) (cause : PowerCause) : Mach :=
  Mach.cold { m with free := m.free + 8 } fun x => { x with
    pwrEn := x.pwrEn && cause != .pwrEn, railst := m.module.railst
    plan := if m.module.powered then planSteps m.free m.now fallSteps else m.module.plan }

/-- The cycles of the 50 µs for which an out-of-tolerance rail is held before power-off (R106, R435). -/
def railHold : Nat := 70000

/-- The steps of a bring-up or power-off that are due. -/
def Mach.powerSteps (m : Mach) (now : Nat) : Mach :=
  let due := m.module.plan.takeWhile fun x => x.1 ≤ now
  due.foldl (fun m x => m.powerStep x.2) (m.modModule fun x => { x with plan := x.plan.dropWhile fun y => y.1 ≤ now })

/-- The steps that are due; then a rail out of tolerance for 50 µs powers a module off (R435). -/
def Mach.powerDue (m : Mach) (now : Nat) : Mach :=
  let m := m.powerSteps now
  if m.module.powered && m.module.outs.any fun o => o.2 + railHold ≤ now then m.off .rail else m

/-- RAILFLT latches an out-of-tolerance event, whose rail then reads 0 in RAILST (R437, R439). -/
def Mach.latchRail (m : Mach) (rail : Nat) : Mach :=
  m.modModule fun x => { x with railflt := x.railflt ||| BitVec.ofNat 32 (2 ^ rail), railst := x.railst &&& ~~~BitVec.ofNat 32 (2 ^ rail) }

/-- POWER_OFF (R433, R435): of a rail that the cause does not name, which one RAILFLT latches is open (log entry 35). -/
def execPowerOff (cause : PowerCause) (s : State) : Host.Outcome State Fault Refusal :=
  let rails := (List.range 32).filter railsGood.getLsbD
  let m := s.m
  let m := if cause = .rail then { m with free := m.free + 1 }.latchRail (nth rails (Config.freeNat m.free % rails.length) 20) else m
  .next { s with m := m.off cause }

/-- RAIL_FAULT (R435, R437): RAILFLT latches the rail, numbered by its RAILST bit, which reads 0, and the module powers off. -/
def execRailFault (rail : Nat) (s : State) : Host.Outcome State Fault Refusal :=
  if !railsGood.getLsbD rail || 32 ≤ rail then .next s
  else .next { s with m := (s.m.latchRail rail).off .rail }

/-- THERMTRIP_N (R435). -/
def execThermtripN (s : State) : Host.Outcome State Fault Refusal := .next { s with m := s.m.off .therm }

/-- MOD_RESET_N (R435, R436): the whole module is reset, RAILFLT with it, its rails as they are; rails that still rise go on. -/
def execModResetN (s : State) : Host.Outcome State Fault Refusal :=
  let p := s.m.module
  let rails (x : Nat × PowerStep) : Bool := match x.2 with | .bus _ | .rail _ _ | .release => true | _ => false
  .next { s with m := s.m.cold fun x => { x with
    powered := p.powered, railst := p.railst, railflt := 0, outs := p.outs, plan := p.plan.filter rails
    bootst := if p.powered && p.railst == railsGood then bootWord 0 0 0 1 else 0 } }

/-- PERST_N low (R436): the host link, its CXL device with it (R427), and every function are reset, and no RESET entry is kept. -/
def execPerstN (s : State) : Host.Outcome State Fault Refusal :=
  let m := s.m.modModule fun x => { x with perst := true, hdm := none, bootst := if x.stage = 5 then bootWord 0 0 0 4 else x.bootst }
  .next { s with m := (List.range 25).foldl (fun m f => m.resetBegin f true) m }

/-- PERST_N high (R435): the host link trains once every earlier step has passed; what it trains to is open. -/
def execPerstNRelease (s : State) : Host.Outcome State Fault Refusal :=
  let m := s.m.modModule fun x => { x with perst := false }
  if m.module.stage != 4 then .next { s with m := m }
  else
    let d := Config.freeNat m.free
    .next { s with m := { m with free := m.free + 1 }.modModule fun x => { x with
      bootst := bootWord 0 (nth [1, 2, 4] (d % 3) 1) (nth [5, 6, 7] (d / 3 % 3) 5) 5 } }

/-! ### Throttling (R106, R107, R440) -/

/-- LEVEL of a throttle group. -/
def thrLevel (w : W32) : Nat := (bits w 0 3).toNat

/-- LEVEL of a throttle group set. -/
def setLevel (w : W32) (l : Nat) : W32 := (w &&& 0xF00) ||| BitVec.ofNat 32 (min l 6)

/-- Levels that TEMP demands: one more for each full 1 ms at or above 95 °C, one less for each below it (R440). -/
def hotLevels (hot : Nat) (temp : BitVec 16) (ms : Nat) : Nat := if 190 ≤ temp.toNat then min 6 (hot + ms) else hot - ms

/-- Whether TEMP stands at or above 115 °C, where the module asserts THERMTRIP_N (R435). -/
def tripped (temp : BitVec 16) : Bool := 230 ≤ temp.toNat

/-- THROTTLE_UPDATE (R440): each group's LEVEL is the greatest of three demands, among them the full milliseconds that TEMP has stood where it stood.
The level that keeps PWRNOW within PCAP is an open choice where the group is throttled or PWRNOW lies above PCAP. At 115 °C the module powers off.
The milliseconds that the event names (`_held`) are not taken on trust: the model counts them by its own cycles. -/
def execThrottleUpdate (temp power : BitVec 16) (_held : Nat) (feldspar : List Nat) (s : State) : Host.Outcome State Fault Refusal :=
  let m := s.m
  let p := m.module
  let stood := (m.now - p.hotAt) / msCycles
  let hot := hotLevels p.hot (p.temp.setWidth 16) stood
  let crossed := decide (190 ≤ p.temp.toNat) != decide (190 ≤ temp.toNat)
  let feld := (List.range 4).map fun g => min 6 (nth feldspar g (nth p.feld g 0))
  let level (g : Nat) (w : W32) : Nat :=
    let cap := if power.toNat ≤ p.pcap.toNat && thrLevel w == 0 then 0 else Config.freeNat (m.free + g) % 7
    max cap (max hot (nth feld g 0))
  if tripped temp then .next { s with m := m.off .therm }
  else .next { s with m := { m with free := m.free + 4 }.modModule fun x => { x with
    temp := temp.setWidth 32, pwrnow := power.setWidth 32, hot := hot, feld := feld
    hotAt := if crossed then m.now else p.hotAt + stood * msCycles
    thrctl := ((List.range 4).zip x.thrctl).map fun (y : Nat × W32) => setLevel y.2 (level y.1 y.2) } }

/-- DIES of a group (R107). -/
def thrDies (w : W32) : BitVec 4 := bits w 8 4

/-- Whether the groups hold each die exactly once (R107). -/
def diesOnce (ws : List W32) : Bool := (List.range 4).all fun d => (ws.filter fun w => (thrDies w).getLsbD d).length == 1

/-- THRCTL_WRITE (R107, R440): Feldspar's own level is a demand that stands; a write is ignored with LEVEL 7, where a die would be in no group or in two,
or where a die that a partition holds would move. -/
def execThrctlWrite (group : Nat) (value : W32) (s : State) : Host.Outcome State Fault Refusal :=
  let m := s.m
  let old := nth m.module.thrctl group 0
  let ws := m.module.thrctl.set group (value &&& 0xF07)
  let moved := thrDies old ^^^ thrDies value
  let held := m.mgmt.parts.any fun p => p.dies.any fun d => moved.getLsbD d
  if 4 ≤ group || thrLevel value == 7 || !diesOnce ws || held then .next s
  else .next { s with m := m.modModule fun x => { x with thrctl := ws, feld := x.feld.set group (thrLevel value) } }

/-- PCAP_WRITE (R437, R440). -/
def execPcapWrite (value : W32) (s : State) : Host.Outcome State Fault Refusal := .next { s with m := s.m.setPcap value }

/-! ### Dolcor links (R429, R430) -/

/-- What a copy still has under way to a peer that no live link reaches: which side it is on, and the rows. -/
def Mach.lostRows (m : Mach) (core : Nat) : List (Nat × Nat × W64) :=
  let dead (n : Nat) : Bool := match (m.core core).bound.bind fun b => b.peers.find? fun p => p.num == n with
    | some p => !m.peerLive p
    | none => false
  (m.core core).xe.copies.flatMap fun k =>
    let side := if k.space true == 5 && dead (k.qual true) then some true else if k.space false == 5 && dead (k.qual false) then some false else none
    match side with
    | none => []
    | some d => (k.rows.filter fun r => r.sentAt < m.now).map fun r => (k.entry, r.row, BitVec.ofNat 64 (k.rowAddr d r.row).toNat)

/-- An ACK received (R429): the flits up to it, in the numbers modulo 2^16, are acknowledged. -/
def Link.acknowledge (l : Link) (ack : BitVec 16) : Link :=
  let newer := decide ((ack - l.acked).toNat < 2 ^ 15)
  { l with acked := if newer then ack else l.acked, out := if newer then l.out.filter fun f => 2 ^ 15 ≤ (ack - f.seq).toNat else l.out }

/-- The flits that a link had not got acknowledged are sent again, in SEQ order, each on a live link of its peer entry (R430). -/
def Mach.resend (m : Mach) (link : Nat) : Mach :=
  let out := ((m.module.links[link]?).map Link.out).getD []
  out.foldl (fun m f => m.sendFlits f.peer f.type [f.load]) (m.modModule fun x => { x with links := x.links.modify link fun l => { l with out := [] } })

/-- A link down (R430): its unacknowledged flits move to other links; rows outstanding to a peer that no live link reaches fault with F.PERM, and its
page pulls are lost. -/
def Mach.dropLink (m : Mach) (link : Nat) : Mach :=
  let m := (m.modModule fun x => x.setLink link false).resend link
  let m := m.active.foldl (fun m c => (m.lostRows c).foldl (fun m r => m.rowFault c r.1 r.2.1 Code.perm lostLink r.2.2) m) m
  (List.range 25).foldl (fun m f => match (m.fn f).pull with
    | none => m
    | some p => match (m.fn f).peers.find? fun e => e.num == p.peer with
      | some e => if m.peerLive e || (m.fn f).pulls.isEmpty then m else m.losePulls f
      | none => m) m

/-- LINK_DOWN (R430). -/
def execLinkDown (link : Nat) (s : State) : Host.Outcome State Fault Refusal :=
  if 16 ≤ link then .next s else .next { s with m := s.m.dropLink link }

/-- LINK_RETRAIN (R430). -/
def execLinkRetrain (link : Nat) (s : State) : Host.Outcome State Fault Refusal :=
  .next { s with m := s.m.modModule fun x => x.setLink link true }

/-- The bytes of a peer's data records written at addresses of a function, or none where one of them is refused (R416). -/
def Mach.peerWrite (m : Mach) (f : Nat) (bs : List (Nat × Byte)) : Option Mach :=
  let r := bs.foldl (fun (r : Option (Mach × List (Nat × Byte))) b => r.bind fun (m, l) => match m.gpa f b.1 .write with
    | .ok (m', pa) => some (m', l ++ [(pa, b.2)])
    | .error _ => none) (some (m, []))
  r.map fun r => (r.1.devWrite r.2).spoil r.2

/-- What a peer's request records read at addresses of a function, or none where one of them is refused (R416). -/
def Mach.peerRead (m : Mach) (f : Nat) (rs : List (Nat × Nat)) : Option (List (List Byte)) :=
  rs.foldl (fun r x => r.bind fun l => match m.gpaRead f x.1 x.2 with | .ok bs => some (l ++ [bs]) | .error _ => none) (some [])

/-- What a flit of a peer that is due asks of this package's HBM (R416, R429): its CTX is checked against the tables here, its addresses are those of the
function that it names, and what it wrote, read or was refused goes back on its link. -/
def Mach.peerTake (m : Mach) (link : Nat) (flit : Flit) : Mach :=
  let back : PeerEntry := { num := 0, links := BitVec.ofNat 16 (2 ^ link), ctx := flit.ctx.setWidth 64 }
  if flit.writes.isEmpty && flit.reads.isEmpty || !(flit.type == 1 || flit.type == 2) then m
  else match (Config.fabricFn flit.ctx).bind fun f => (m.peerWrite f flit.writes).bind fun m' => (m'.peerRead f flit.reads).map fun l => (m', l) with
  | none => m.sendFlits back 3 [.taken false]
  | some (m', l) => (m'.sendFlits back 2 (l.map .answer)).sendFlits back 3 [.taken true]

/-- FLIT_RECEIVE (R429, R430): a flit whose CHECK fails, or of another TYPE, is discarded; more than eight consecutive replays of the flit that
is due take the link down; the flit due is taken, and a duplicate discarded. -/
def execFlitReceive (link : Nat) (flit : Flit) (s : State) : Host.Outcome State Fault Refusal :=
  let m := s.m
  match m.module.links[link]? with
  | none => .next s
  | some l =>
    let set (l : Link) : Mach := m.modModule fun x => { x with links := x.links.set link l }
    if !l.up then .next s
    else if !flit.ok then
      if 8 ≤ l.replays then .next { s with m := (set { l with replays := 0 }).dropLink link }
      else .next { s with m := set { l with replays := l.replays + 1 } }
    else if flit.type == 0 || 4 < flit.type.toNat then .next s
    else
      let l := l.acknowledge flit.ack
      .next { s with m := if flit.seq = l.got + 1 then (set { l with got := flit.seq, replays := 0 }).peerTake link flit else set l }

/-! ### Memory errors (R432) -/

/-- UNCORRECTABLE_ERROR (R432): counted in MEMERR, and the task that read the word ends as by KILL. -/
def execUncorrectableError (task : Nat) (s : State) : Host.Outcome State Fault Refusal :=
  let m := s.m.modModule fun x => { x with memerr := x.memerr + 0x100000000 }
  .next { s with m := match m.task task with
    | some t => if t.state == .done then m else m.killTask task 0x83
    | none => m }

end Sys2Proof.Machine
end

