-- ==== Sys2Proof/Machine/TilePkg.lean ====
section
/-! DEFINITION. Command-block tile instructions at P, D, Q and C (R336, R340 to R365, R397): submission, acceptance, the split among dies,
quads and cores, staging, write-back and gathers, fault records and re-issue; and the sixteen tile instructions at either kind of port.
An instruction runs as one transaction when its retirement or its record arrives (log entry 24). -/
namespace Sys2Proof.Machine

/-- An outcome that the spec leaves open, drawn. -/
def Mach.draw (m : Mach) : Mach × Nat := ({ m with free := m.free + 1 }, Config.freeNat m.free)

/-! ### Global spans of a task (R133, R307, R311) -/

/-- F.FOOTPRINT of a span. -/
def Mach.spanFoot (m : Mach) (core : Nat) (k : Access) (a n : Nat) : Option Trap :=
  match (m.core core).bound with
  | some b => if b.footOk k a n then none else some ⟨Code.footprint, 0, BitVec.ofNat 64 a⟩
  | none => none

/-- Why a span has no address: a fault, or a page that is still to be pulled (none where its core has no task). -/
inductive SpanEnd where
  | trap (t : Trap)
  | page (gpa : Option Nat)
  deriving DecidableEq, Repr

/-- The device addresses of a span of a task: of a pinned window, or by translation page by page. -/
def Mach.spanAt (m : Mach) (core : Nat) (timed : Bool) (k : Access) (a n : Nat) : Except SpanEnd (List (Nat × Nat)) :=
  match (m.core core).bound with
  | none => .error (.page none)
  | some b =>
    if timed then match b.pin a n with
      | none => .error (.trap ⟨Code.timedmiss, 0, BitVec.ofNat 64 a⟩)
      | some w => if k.allowed w.r w.w then .ok [(w.pbase + (a - w.vbase), n)] else .error (.trap ⟨Code.perm, 0, BitVec.ofNat 64 a⟩)
    else (pagePieces (n / 0x10000 + 2) a n).foldl (fun r p => match r with
      | .error e => .error e
      | .ok l => match walk12 m.dev b.s1root b.s2root p.1 k with
        | .ok f => .ok (l ++ [(f.pa, p.2)])
        | .error (.fault code detail) => .error (.trap ⟨code, detail, BitVec.ofNat 64 p.1⟩)
        | .error (.pull g) => .error (.page (some g))
        | .error (.leaf ..) => .error (.page none)) (.ok [])

/-- The bytes of a span as the core reads them (R139, R341; log entry 24: the first core of the task stands for the port); zeros where it has
no address. -/
def Mach.spanBytes (m : Mach) (core : Nat) (timed : Bool) (a n : Nat) : List Byte :=
  match m.spanAt core timed .read a n with
  | .ok l => l.flatMap fun p => (m.core core).globRead none p.1 p.2
  | .error _ => List.replicate n 0

/-- The first fault, or page to be pulled, of spans accessed in order: footprints first, then translations. -/
def Mach.spansFault (m : Mach) (core : Nat) (timed : Bool) (k : Access) (ss : List (Nat × Nat)) : Option SpanEnd :=
  match ss.findSome? fun s => m.spanFoot core k s.1 s.2 with
  | some t => some (.trap t)
  | none => ss.findSome? fun s => match m.spanAt core timed k s.1 s.2 with
    | .error e => some e
    | .ok _ => none

/-! ### Views of global memory -/

/-- The address of a handle's row, 48 bits. -/
def TView.rowAddr (v : TView) (r : Nat) : Nat := (((v.addr : Int) + r * v.rstr) % 2 ^ 48).toNat

/-- The spans of rows [i0, i1), columns [j0, j1) of a view, one for each handle row. -/
def TView.spans (v : TView) (i0 i1 j0 j1 : Nat) : List (Nat × Nat) :=
  let (r0, r1, c0, c1) := if v.trans then (v.row0 + j0, v.row0 + j1, v.col0 + i0, v.col0 + i1) else (v.row0 + i0, v.row0 + i1, v.col0 + j0, v.col0 + j1)
  let b := v.bits
  if c1 ≤ c0 then [] else (List.range (r1 - r0)).map fun r => (v.rowAddr (r0 + r) + c0 * b / 8, (c1 * b + 7) / 8 - c0 * b / 8)

/-- The spans of block scales and band scales of rows [i0, i1), columns [j0, j1) of a SCALED view. -/
def TView.scaleSpans (v : TView) (i0 i1 j0 j1 : Nat) : List (Nat × Nat) :=
  ((List.range (i1 - i0)).map fun i => (v.scaleAddr (i0 + i) (j0 / 8), (j1 + 7) / 8 - j0 / 8))

/-- The spans of the band scales of rows [i0, i1). -/
def TView.bandSpans (v : TView) (i0 i1 : Nat) : List (Nat × Nat) := ((List.range (i1 - i0)).map fun i => (v.bandAddr (i0 + i), 2)).eraseDups

/-- The pattern of one element of a view, read from memory. -/
def Mach.viewElem (m : Mach) (core : Nat) (v : TView) (i j : Nat) : Nat :=
  let c := v.cell i j
  let b := v.bits
  let x := leValue (m.spanBytes core v.timed (v.rowAddr c.1 + c.2 * b / 8) ((b + 7) / 8)) / 2 ^ (c.2 * b % 8)
  x % 2 ^ v.keep

/-- The elements of a view of `rows` × `cols`, its rows read once. -/
def Mach.viewTable (m : Mach) (core : Nat) (v : TView) (rows cols : Nat) : Nat → Nat → Nat :=
  let vals := (v.spans 0 rows 0 cols).map fun s => leValue (m.spanBytes core v.timed s.1 s.2)
  let b := v.bits
  let lo := v.col0 * b / 8 * 8
  fun i j =>
    let c := v.cell i j
    nth vals (c.1 - v.row0) 0 / 2 ^ (c.2 * b - lo) % 2 ^ v.keep

/-- A byte of a view's scales. -/
def Mach.viewByte (m : Mach) (core : Nat) (v : TView) (a n : Nat) : Nat := leValue (m.spanBytes core v.timed a n)

/-! ### An instruction at P -/

/-- A share or a chunk of it (R342, R345): rows, columns and K elements; the first K element of the running sum it goes on with, whether the sum goes on
in a later chunk, and the half of the staging area it takes. -/
structure Share where
  i0 : Nat
  i1 : Nat
  j0 : Nat
  j1 : Nat
  k0 : Nat
  k1 : Nat
  ks : Nat
  more : Bool
  half : Nat
  deriving DecidableEq, Repr

/-- An instruction that runs: its machine at the start, task, a core of it, fields, views and operands. -/
structure TCmd where
  m    : Mach
  task : Task
  core : Nat
  top  : Nat
  tile : Tile
  vd   : TView
  va   : Option TView
  vb   : Option TView
  src  : TileSrc

/-- The tables of the P port (R338, R364). -/
def PPort.tables (p : PPort) : TileTables := { hnd := fun n => nth p.hnds n 0, desc := fun n => nth p.descs n 0 }

/-- Rows of a view within its handle (R360, R361). -/
def TView.viewRows (v : TView) : Nat := if v.trans then v.cols - v.col0 else v.rows - v.row0

/-- The instruction with the operands its views hold as it starts (R351, R352). -/
def TCmd.start (m : Mach) (t : Task) (core top : Nat) (x : Tile) : Option TCmd :=
  let vs := tileMoved top (tileViews t.port.tables top x)
  let dims := tileDims top x
  let dim (w : Nat) : Nat × Nat := (nth dims w none).getD (0, 0)
  let va := nth vs 1 none
  let vb := nth vs 2 none
  let table (w : Nat) (v : Option TView) : Nat → Nat → Nat := match v with
    | some v => m.viewTable core v (dim w).1 (dim w).2
    | none => fun _ _ => 0
  let direct (v : Option TView) : Nat → Nat → Nat := fun i j => match v with | some v => m.viewElem core v i j | none => 0
  (nth vs 0 none).map fun vd =>
    { m := m, task := t, core := core, top := top, tile := x, vd := vd, va := va, vb := vb,
      src := { a := if top = 11 then direct va else table 1 va
               b := if top = 12 then direct vb else table 2 vb
               d := if x.acc then table 0 (some vd) else fun _ _ => 0
               sa := fun i b => match va with | some v => m.viewByte core v (v.scaleAddr i b) 1 | none => 0
               sb := fun i b => match vb with | some v => m.viewByte core v (v.scaleAddr i b) 1 | none => 0
               bandA := fun i => match va with | some v => m.viewByte core v (v.bandAddr i) 2 | none => 0
               bandB := fun i => match vb with | some v => m.viewByte core v (v.bandAddr i) 2 | none => 0
               bandD := fun i => m.viewByte core vd (vd.bandAddr i) 2
               aRows := (va.map TView.viewRows).getD 0
               bRows := (vb.map TView.viewRows).getD 0 } }

/-- Whether destinations are written back by the cores themselves (R363). -/
def TCmd.passed (c : TCmd) : Bool := !c.tile.acc && !c.tile.ksplit && c.top != 13

/-- What the core of a share computes (R352); of a running sum that goes on, nothing yet (R345). -/
def TCmd.compute (c : TCmd) (s : Share) : Except TileFault TileOut :=
  let nothing : TileOut := { elems := [], scales := [], flags := 0 }
  if c.top = 13 then .ok nothing
  else match tileCompute c.top c.tile c.vd c.va c.vb c.src c.tile.ksplit s.i0 s.i1 s.j0 s.j1 s.ks s.k1 with
    | .ok o => .ok (if s.more then nothing else o)
    | .error e => .error e

/-! ### Destination rows (R300, R344, R363) -/

/-- Whether destination rows go through a pinned window: a write-back by the cores is an open copy whatever the handle says (R363). -/
def TCmd.openD (c : TCmd) : Bool := c.vd.timed && !c.passed

/-- The bytes of one destination row, with their task addresses. -/
def TCmd.rowBytes (c : TCmd) (m : Mach) (o : TileOut) (row : Nat) : List (Nat × Byte) :=
  let v := c.vd
  let b := v.bits
  let put (acc : List (Nat × Byte)) (e : Nat × Nat) : List (Nat × Byte) :=
    let x := v.elemAddr row e.1
    let a := (x.1 % 2 ^ 48).toNat
    if 8 ≤ b then acc ++ atAddr a (leBytes ((b + 7) / 8) e.2)
    else
      let old : Nat := match acc.find? fun y => y.1 == a with
        | some y => y.2.toNat
        | none => leValue (m.spanBytes c.core c.openD a 1)
      let new := old - old / 2 ^ x.2 % 2 ^ b * 2 ^ x.2 + e.2 % 2 ^ b * 2 ^ x.2
      (acc.filter fun y => y.1 != a) ++ [(a, BitVec.ofNat 8 new)]
  ((o.elems.filter fun e => e.1 == row).map fun e => e.2).foldl put [] ++
  ((o.scales.filter fun e => e.1 == row).map fun e => (v.scaleAddr row e.2.1, BitVec.ofNat 8 e.2.2))

/-- The destination rows of a result, in order. -/
def TileOut.rows (o : TileOut) : List Nat :=
  (o.elems.map fun e => e.1).foldl (fun a c => insertCore c a) ((o.scales.map fun e => e.1).foldl (fun a c => insertCore c a) [])

/-- The footprint fault of a write-back, or the first row that meets a translation fault (R133, R300): its place and the fault. -/
def TCmd.writeFault (c : TCmd) (o : TileOut) : Option (Nat × SpanEnd) :=
  let spans (row : Nat) : List (Nat × Nat) := (byteRuns (c.rowBytes c.m o row)).map fun r => (r.1, r.2.length)
  let rows := o.rows
  match (rows.flatMap spans).findSome? fun s => c.m.spanFoot c.core .write s.1 s.2 with
  | some t => some (0, .trap t)
  | none => ((List.range rows.length).zip rows).findSome? fun x =>
      ((spans x.2).findSome? fun s => match c.m.spanAt c.core c.openD .write s.1 s.2 with
        | .error e => some e
        | .ok _ => none).map fun e => (x.1, e)

/-- A row written: through the writing core's translation, which sets D, as an acknowledged global write of it. -/
def TCmd.writeRow (c : TCmd) (m : Mach) (core : Nat) (o : TileOut) (row : Nat) : Mach :=
  let runs := byteRuns (c.rowBytes m o row)
  let m := if c.openD then m else runs.foldl (fun m r => (pagePieces (r.2.length / 0x10000 + 2) r.1 r.2.length).foldl (fun m p =>
    (m.walkCore core p.1 .write).1) m) m
  let bytes := runs.flatMap fun r => match m.spanAt core c.openD .write r.1 r.2.length with
    | .ok l => ((l.foldl (fun (a : List (Nat × Byte) × List Byte) p => (a.1 ++ atAddr p.1 (a.2.take p.2), a.2.drop p.2)) ([], r.2))).1
    | .error _ => []
  m.modCore core fun k => { k with glb := { k.glb with
    nextId := k.glb.nextId + 1
    writes := k.glb.writes ++ [{ id := k.glb.nextId, bytes := bytes, stg := false, acked := true, dead := false, pub := none, pubNo := 0, fresh := true, issued := m.now,
                                 gpas := [] }] } }

/-- Rows written, in order. -/
def TCmd.writeRows (c : TCmd) (m : Mach) (core : Nat) (o : TileOut) (rows : List Nat) : Mach :=
  rows.foldl (fun m r => c.writeRow m core o r) m

/-! ### Fault records (R349, R350, R366) -/

/-- A record on its way up: the fault, its level, the first row and column of the share in P's coordinates, its K share, masks and path. -/
structure TRec where
  trap  : Trap
  olvl  : Nat
  row   : Nat
  col   : Nat
  ksh   : Nat
  rmp   : Nat
  rmd   : Nat
  rmq   : Nat
  rmc   : Nat
  die   : Nat
  quad  : Nat
  core  : Nat
  lc    : Nat
  deriving DecidableEq, Repr

/-- The record of a fault of a share at the level where it arose: masks and path empty (R349). -/
def TRec.new (t : Trap) (olvl row col : Nat) : TRec :=
  { trap := t, olvl := olvl, row := row, col := col, ksh := 0, rmp := 0, rmd := 0, rmq := 0, rmc := 0, die := 0, quad := 0, core := 0, lc := 0 }

/-- A record's words at a port whose range begins at (i0, j0) (R349). -/
def TRec.words (r : TRec) (seq i0 j0 : Nat) : W64 × W64 × W64 :=
  (BitVec.ofNat 64 (r.trap.detail.toNat * 2 ^ 32 + seq % 65536 * 2 ^ 16 + r.trap.code.toNat * 256 + r.olvl * 32),
   BitVec.ofNat 64 ((r.row - i0) * 2 ^ 48 + (r.col - j0) * 2 ^ 32 + r.ksh * 2 ^ 28 + r.rmc * 2 ^ 24 + r.rmq * 2 ^ 20 + r.rmd * 2 ^ 14 + r.rmp * 2 ^ 10),
   BitVec.ofNat 64 (r.die * 2 ^ 62 + r.quad * 2 ^ 59 + r.core * 2 ^ 57 + r.lc * 2 ^ 55 + r.trap.addr.toNat % 2 ^ 48))

/-- What a run gathers: the machine, the results to be gathered at P by die and K share, and the pages that are still to be pulled. -/
structure TRun where
  m    : Mach
  gath : List (Nat × Nat × TileOut)
  pull : List (Option Nat)

/-- A child of a port in one of its child instructions (R343, R345): its index, its K share, its place among those of its child, whether it meets a fault
or a page to be pulled, and its run, cut short or not. -/
structure Kid where
  idx  : Nat
  ksh  : Nat
  ord  : Nat
  bad  : Option SpanEnd
  run  : Bool → TRun → TRun × Option TRec

/-- The child instructions of a child before one of them: it takes them in turn. -/
def Kid.earlier (k : Kid) (kids : List Kid) : List Kid := kids.filter fun q => q.idx == k.idx && q.ord < k.ord

/-- A child of a port runs a child instruction, with what has come of the run so far: the record kept, and the children that did not complete. `kept` is
the one whose record is kept. A child that did not complete one is issued none after it; once the record has come, a further one of another child may
not be issued any more, and with ABORT it may be stopped. -/
def Kid.turn (abort cut : Bool) (kept : Option (Nat × Nat)) (live : List Kid) (a : TRun × Option (Nat × TRec) × List Nat) (k : Kid) :
    TRun × Option (Nat × TRec) × List Nat :=
  let (x, r, lost) := a
  if lost.contains k.idx then a
  else
    let d := x.m.draw
    let other := kept.any fun q => q.1 != k.idx
    let again := other && !(k.earlier live).isEmpty
    let x := if again then { x with m := d.1 } else x
    if again && d.2 / 2 % 2 == 1 then (x, r, k.idx :: lost)
    else if k.bad.isSome then
      let y := k.run cut x
      (y.1, (if kept = some (k.idx, k.ord) then y.2.map fun (t : TRec) => (k.idx, { t with ksh := k.ksh }) else r), k.idx :: lost)
    else if cut || (abort && other) then
      let e := x.m.draw
      let late := cut || e.2 % 2 == 1
      let y := k.run late { x with m := e.1 }
      (y.1, r, if late then k.idx :: lost else lost)
    else
      let y := k.run false x
      (y.1, r, lost)

/-- The children of a port run (R350, R351, R366). `skip` are those a resume word counts as retired. The record kept is the first to arrive, an open
choice; from then on no further share or chunk is issued: none to the child that failed, and of the others' later ones those that had not been issued,
an open choice. With ABORT, each of the others has retired by then or is stopped, an open choice too. The indices that completed every share of
theirs. -/
def runKids (abort cut : Bool) (skip : Nat) (kids : List Kid) (x : TRun) : TRun × Option (Nat × TRec) × Nat :=
  let live := kids.filter fun k => skip / 2 ^ k.idx % 2 == 0
  let bad := live.filter fun k => k.bad.isSome && !((k.earlier live).any fun q => q.bad.isSome)
  let (x, kept) := match bad with
    | [] => (x, none)
    | [k] => (x, some (k.idx, k.ord))
    | _ => let d := x.m.draw; ({ x with m := d.1 }, (bad[d.2 % bad.length]?).map fun (k : Kid) => (k.idx, k.ord))
  let r := live.foldl (Kid.turn abort cut kept live) (x, none, [])
  (r.1, r.2.1, (live.map Kid.idx).eraseDups.foldl (fun a i => if r.2.2.contains i then a else a ||| 2 ^ i) skip)

/-! ### Shares (R14, R342, R343) -/

/-- A share split among `c` children in granules of rows and of columns (R342): child index and share, idle children left out. -/
def Share.splitBy (s : Share) (top c rows cols : Nat) : List (Nat × Share) :=
  let byRows := splitsM top (s.i1 - s.i0) c rows
  let parts := if byRows then splitRange s.i0 s.i1 c rows else splitRange s.j0 s.j1 c cols
  ((List.range c).zip parts).filterMap fun p =>
    if p.2.2 ≤ p.2.1 then none
    else some (p.1, if byRows then { s with i0 := p.2.1, i1 := p.2.2 } else { s with j0 := p.2.1, j1 := p.2.2 })

/-- A share split among `c` dies, quads or cores (R342). -/
def Share.split (s : Share) (top c : Nat) : List (Nat × Share) := s.splitBy top c 32 32

/-- Whether an instruction is vector work, which a core's lane clusters share (R14, R335). -/
def TCmd.vector (c : TCmd) : Bool := 3 ≤ c.top && c.top ≤ 7

/-- The shares of a core's lane clusters (R14, R342). -/
def TCmd.lcShares (c : TCmd) (s : Share) : List (Nat × Share) := s.splitBy c.top 4 4 (2048 / c.vd.bits)

/-- The shares of a quad's cores: index, core and share. -/
def TCmd.coreShares (c : TCmd) (q : Nat) (s : Share) : List (Nat × Nat × Share) := (s.split c.top 4).map fun p => (p.1, 4 * q + p.1, p.2)

/-- The shares of a die's quads: index, quad and share. -/
def TCmd.quadShares (c : TCmd) (p : Part) (d : Nat) (s : Share) : List (Nat × Nat × Share) :=
  let qs := (List.range 6).filter fun q => p.quads.getLsbD (6 * d + q)
  (s.split c.top qs.length).map fun x => (x.1, 6 * d + nth qs x.1 0, x.2)

/-- The shares of the dies: index, die, K share and share, by M or N, or, with KSPLIT, the K shares (R342, R343). -/
def TCmd.dieShares (c : TCmd) (p : Part) : List (Nat × Nat × Nat × Share) :=
  let ds := p.dies
  let t := c.tile
  let all : Share := ⟨0, t.m.toNat, 0, t.n.toNat, 0, t.k.toNat, 0, false, 0⟩
  if t.ksplit then
    let f := t.ksf.toNat + 1
    let kd := (passDepth ((c.va.map TView.fmt).getD 0)).1
    let w := ((t.k.toNat + f - 1) / f + kd - 1) / kd * kd
    (List.range f).filterMap fun s =>
      if t.k.toNat ≤ s * w then none
      else some (s % ds.length, nth ds (s % ds.length) 0, s, { all with k0 := s * w, k1 := min ((s + 1) * w) t.k.toNat, ks := s * w })
  else (all.split c.top ds.length).map fun x => (x.1, nth ds x.1 0, 0, x.2)

/-! ### Staging (R338, R344, R345, R363; log entry 70) -/

/-- A slice of a share: the number of its descriptor and its handle where it has one, the format of its banks and the bits of an element, whether it is
staged and whether results are put there, its rows and columns and its elements; whether its view is timed, the global bytes it holds, and those of them
that a core reads which has no copy of it. -/
structure Slice where
  desc  : Option (Nat × Nat)
  fmt   : Fmt
  bits  : Nat
  fill  : Bool
  land  : Bool
  i0    : Nat
  i1    : Nat
  j0    : Nat
  j1    : Nat
  get   : Nat → Nat → Nat
  timed : Bool
  src   : List (Nat × Nat)
  near  : List (Nat × Nat)

/-- Bytes of a slice's row. -/
def Slice.len (s : Slice) : Nat := ((s.j1 - s.j0) * s.bits + 7) / 8
/-- Bytes from row to row of a slice whose rows hold `n` bytes (R338). -/
def pitchOf (n : Nat) : Nat := (n + 255) / 256 * 256
/-- Bytes that a slice takes. -/
def Slice.size (s : Slice) : Nat := (s.i1 - s.i0) * pitchOf s.len

/-- A slice of rows [i0, i1), columns [j0, j1) of a view. -/
def TView.slice (v : TView) (desc : Nat × Nat) (fill land : Bool) (i0 i1 j0 j1 : Nat) (get : Nat → Nat → Nat) : Slice :=
  let src := if fill then v.spans i0 i1 j0 j1 else []
  { desc := some desc, fmt := v.fmt, bits := v.bits, fill := fill, land := land, i0 := i0, i1 := i1, j0 := j0, j1 := j1, get := get,
    timed := v.timed, src := src, near := src }

/-- The block scales of rows [i0, i1), columns [j0, j1) of a SCALED view as a slice of bytes. -/
def TView.scaleSlice (v : TView) (i0 i1 j0 j1 : Nat) (get : Nat → Nat → Nat) : Slice :=
  let src := v.scaleSpans i0 i1 j0 j1
  { desc := none, fmt := 0, bits := 8, fill := true, land := false, i0 := i0, i1 := i1, j0 := j0 / 8, j1 := (j1 + 7) / 8, get := get,
    timed := v.timed, src := src, near := src }

/-- The band scales of rows [i0, i1) of a view as a slice of one row. -/
def TView.bandSlice (v : TView) (i0 i1 : Nat) (get : Nat → Nat) : Slice :=
  let src := v.bandSpans i0 i1
  { desc := none, fmt := 0x0D, bits := 16, fill := true, land := false, i0 := 0, i1 := 1, j0 := (v.row0 + i0) / 64, j1 := (v.row0 + i1 - 1) / 64 + 1,
    get := fun _ g => get (64 * g - v.row0), timed := v.timed, src := src, near := src }

/-- The rows and columns of D that a share gives (R352 to R362). -/
def TCmd.outRange (c : TCmd) (s : Share) : (Nat × Nat) × (Nat × Nat) :=
  if c.top = 10 then ((s.j0, s.j1), (s.i0, s.i1)) else if c.top = 5 || c.top = 12 then ((s.i0, s.i1), (0, 1)) else ((s.i0, s.i1), (s.j0, s.j1))

/-- The slices of a share in a child's staging area: of A, of B and of D, then the scales they need. T.GATH's A and T.HVENC's B are whole tables, of which a
core without a copy reads the rows named. A destination that is passed through has no slice: the result lies in A's place (R363). -/
def TCmd.slices (c : TCmd) (s : Share) : List Slice :=
  let t := c.tile
  let hnd (td : Nat) : Nat := tableField (c.task.port.tables.desc td) 0 8
  let mk (td : Nat) (v : Option TView) (land : Bool) (i0 i1 j0 j1 : Nat) (get : Nat → Nat → Nat) : List Slice :=
    v.toList.map fun v => v.slice (td, hnd td) true land i0 i1 j0 j1 get
  let a := mk t.tda.toNat c.va c.passed
  let b := mk t.tdb.toNat c.vb false
  let scales (v : Option TView) (i0 i1 : Nat) (get : Nat → Nat → Nat) (band : Nat → Nat) : List Slice :=
    v.toList.flatMap fun v => [v.scaleSlice i0 i1 s.k0 s.k1 get, v.bandSlice i0 i1 band]
  let out := c.outRange s
  let put : List Slice := if c.passed || c.top = 13 then []
    else [c.vd.slice (t.tdd.toNat, hnd t.tdd.toNat) t.acc true out.1.1 out.1.2 out.2.1 out.2.2 c.src.d]
  let named (v : Option TView) (lim j0 j1 : Nat) (xs : List Nat) : List (Nat × Nat) :=
    v.toList.flatMap fun v => (xs.eraseDups.filter (· < lim)).flatMap fun i => v.spans i (i + 1) j0 j1
  let rows : List Nat := (List.range (s.i1 - s.i0)).map (s.i0 + ·)
  let tie : List Nat := if t.auxb.toNat % 4 = 0 then [0] else []
  match c.top with
  | 1 => a s.i0 s.i1 s.k0 s.k1 c.src.a ++ b s.j0 s.j1 s.k0 s.k1 c.src.b ++ put
  | 2 => a s.i0 s.i1 s.k0 s.k1 c.src.a ++ b s.j0 s.j1 s.k0 s.k1 c.src.b ++ put ++
      scales c.va s.i0 s.i1 c.src.sa c.src.bandA ++ scales c.vb s.j0 s.j1 c.src.sb c.src.bandB
  | 3 => a s.i0 s.i1 s.j0 s.j1 c.src.a ++
      (if t.auxb.getLsbD 0 then b 0 1 s.j0 s.j1 c.src.b else b s.i0 s.i1 s.j0 s.j1 c.src.b) ++ put
  | 7 => a s.i0 s.i1 s.j0 s.j1 c.src.a ++ put ++ [c.vd.bandSlice s.i0 s.i1 c.src.bandD]
  | 8 => a s.i0 s.i1 s.j0 s.j1 c.src.a ++ put ++
      (c.va.toList.filter TView.scaled).map fun v => v.scaleSlice s.i0 s.i1 s.j0 s.j1 c.src.sa
  | 9 => put
  | 11 => (a 0 c.src.aRows s.j0 s.j1 c.src.a).map (fun x => { x with near := named c.va c.src.aRows s.j0 s.j1 (rows.map fun i => c.src.b i 0) }) ++
      b s.i0 s.i1 0 1 c.src.b ++ put
  | 12 => a s.i0 s.i1 0 t.n.toNat c.src.a ++
      (b 0 c.src.bRows 0 1 c.src.b).map (fun x => { x with near := named c.vb c.src.bRows 0 1 (tie ++ rows.flatMap fun i => (List.range t.n.toNat).map (c.src.a i)) }) ++ put
  | 13 => a s.i0 s.i1 0 1 c.src.a ++ b s.j0 s.j1 0 1 c.src.b
  | _ => a s.i0 s.i1 s.j0 s.j1 c.src.a ++ put

/-- A half of a staging area (R344, R345) as pieces of consecutive offsets: DS16 to DS31, QS8 to QS15, and, of a core, BK24 to BK31, which are the upper
2 KiB of each 4 KiB of group 1, and BK32 to BK47, group 2 (R99). -/
def Pad.stageArea (p : Pad) (half : Nat) : List (Nat × Nat) :=
  match p with
  | .die _ => [(0x1000000 + 0x800000 * half, 0x800000)]
  | .quad _ => [(0x200000 + 0x100000 * half, 0x100000)]
  | .core _ => ((List.range 64).map fun k => (0x80800 + 0x1000 * (64 * half + k), 0x800)) ++ [(0x100000 + 0x40000 * half, 0x40000)]

/-- Slices with their offsets, each in the first piece that has room for it; none for one that no piece can hold. -/
def placeSlices : List (Nat × Nat) → List Slice → List (Option Nat × Slice)
  | _, [] => []
  | ps, s :: r => match (List.range ps.length).find? fun i => s.size ≤ (nth ps i (0, 0)).2 with
    | some i =>
      let p := nth ps i (0, 0)
      (some p.1, s) :: placeSlices (ps.set i (p.1 + s.size, p.2 - s.size)) r
    | none => (none, s) :: placeSlices ps r

/-- The slices of a share with their places in a child's staging area. -/
def TCmd.places (c : TCmd) (p : Pad) (s : Share) : List (Option Nat × Slice) := placeSlices (p.stageArea s.half) (c.slices s)

/-- Whether a share fits half of a staging area (R345). -/
def TCmd.fits (c : TCmd) (p : Pad) (s : Share) : Bool := (c.places p s).all fun x => x.1.isSome

/-- A range in pieces of `g`. -/
def pieces (lo hi g : Nat) : List (Nat × Nat) := (List.range ((hi - lo + g - 1) / g)).map fun k => (lo + k * g, min hi (lo + (k + 1) * g))

/-- The greatest count, at most `n`, that a test accepts; 0 where it accepts none. -/
def greatest (n : Nat) (ok : Nat → Bool) : Nat := (((List.range n).reverse.map (· + 1)).find? ok).getD 0

/-- The chunks in which a share is issued to a child (R345): one where it fits half the staging area; else whole granules of M, then of N, then passes of
K, as many as fit, the halves of the area in turn. A running sum goes through its K chunks. -/
def TCmd.chunks (c : TCmd) (p : Pad) (s : Share) : List Share :=
  let s := { s with half := 0 }
  if c.fits p s then [s]
  else
    let row (n : Nat) : Share := { s with i1 := min s.i1 (s.i0 + 32 * n) }
    let col (n : Nat) : Share := { row 1 with j1 := min s.j1 (s.j0 + 32 * n) }
    let kd := (passDepth ((c.va.map TView.fmt).getD 0)).1
    let sum (n : Nat) : Share := { col 1 with k1 := min s.k1 (s.k0 + kd * n) }
    let canN := c.top != 5 && c.top != 12
    let nm := greatest ((s.i1 - s.i0 + 31) / 32) fun n => c.fits p (row n)
    let nn := if nm != 0 || !canN then 0 else greatest ((s.j1 - s.j0 + 31) / 32) fun n => c.fits p (col n)
    let nk := if nm != 0 || nn != 0 || !(c.top == 1 || c.top == 2) then 0
      else max 1 (greatest ((s.k1 - s.k0 + kd - 1) / kd) fun n => c.fits p (sum n))
    let ms := pieces s.i0 s.i1 (32 * max 1 nm)
    let ns := if nm != 0 || !canN then [(s.j0, s.j1)] else pieces s.j0 s.j1 (32 * max 1 nn)
    let ks := if nk = 0 then [(s.k0, s.k1)] else pieces s.k0 s.k1 (kd * nk)
    let all := ms.flatMap fun m => ns.flatMap fun n => ks.map fun k =>
      { s with i0 := m.1, i1 := m.2, j0 := n.1, j1 := n.2, k0 := k.1, k1 := k.2, ks := s.ks, more := s.more || k.2 < s.k1 }
    (List.range all.length).zipWith (fun h x => { x with half := h % 2 }) all

/-- The rows of a slice at an offset: row and offset in the scratchpad. -/
def sliceRows (o : Nat) (s : Slice) : List (Nat × Nat) := (List.range (s.i1 - s.i0)).map fun i => (s.i0 + i, o + i * pitchOf s.len)

/-- The slices that have a place, with their offsets. -/
def TCmd.placed (c : TCmd) (p : Pad) (s : Share) : List (Nat × Slice) := (c.places p s).filterMap fun x => x.1.map fun o => (o, x.2)

/-- The first staging fault of a share at P, which copies it from global memory (R344). -/
def TCmd.stageFault (c : TCmd) (p : Pad) (s : Share) : Option SpanEnd :=
  (c.placed p s).findSome? fun x => c.m.spansFault c.core x.2.timed .read x.2.src

/-- The first fault of what a core reads of operands that it has no copy of. -/
def TCmd.readFault (c : TCmd) (p : Pad) (s : Share) : Option SpanEnd :=
  ((c.places p s).filter fun x => x.1.isNone).findSome? fun x => c.m.spansFault c.core x.2.timed .read x.2.near

/-- A child's descriptor of a staged slice (R338). -/
def sliceDesc (o : Nat) (d : Nat × Nat) : Nat × BitVec 128 := (d.1, BitVec.ofNat 128 (d.2 + 2 * 2 ^ 8 + o % 2 ^ 25 * 2 ^ 96))

/-- A descriptor of rows from `r` and columns from `k` on of the view of P's descriptor `td`. -/
def TCmd.rangeDesc (c : TCmd) (td r k : Nat) : Nat × BitVec 128 :=
  let x := c.task.port.tables.desc td
  let (r, k) := if tableField x 1 8 % 2 = 1 then (k, r) else (r, k)
  (td, BitVec.ofNat 128 (tableField x 0 16 + (tableField x 4 24 + r) * 2 ^ 32 + (tableField x 8 24 + k) * 2 ^ 64))

/-- The banks or segments that a share's slices touch in a child's scratchpad. -/
def TCmd.stageUnits (c : TCmd) (p : Pad) (s : Share) : List Nat :=
  ((c.placed p s).flatMap fun x => (sliceRows x.1 x.2).flatMap fun r => p.units r.2 x.2.len).eraseDups

/-- The entries that a parent writes into a child's descriptor table: of a staged slice, and else of the child's own range of the view, as of a destination
that is passed through (R338, R363). -/
def TCmd.childDescs (c : TCmd) (p : Pad) (s : Share) : List (Nat × BitVec 128) :=
  ((c.places p s).filterMap fun x => x.2.desc.map fun d => match x.1 with
    | some o => sliceDesc o d
    | none => c.rangeDesc d.1 x.2.i0 x.2.j0) ++
  (if c.passed then [c.rangeDesc c.tile.tdd.toNat (c.outRange s).1.1 (c.outRange s).2.1] else [])

/-- The descriptors of a table rewritten. -/
def setDescs (ds new : List (Nat × BitVec 128)) : List (Nat × BitVec 128) :=
  new.foldl (fun ds d => d :: ds.filter fun x => x.1 != d.1) ds

/-- A parent copies a share's slices into a child's staging area and sets the formats of its banks or segments (R344). -/
def TCmd.stage (c : TCmd) (m : Mach) (p : Pad) (s : Share) : Mach :=
  (c.placed p s).foldl (fun m x =>
    let b := x.2.bits
    let row (i : Nat) : List Byte := leBytes x.2.len ((List.range (x.2.j1 - x.2.j0)).foldl (fun a j => a + x.2.get i (x.2.j0 + j) % 2 ^ b * 2 ^ (j * b)) 0)
    let rows := sliceRows x.1 x.2
    let m := if x.2.fill then rows.foldl (fun m r => m.padWrite p (atAddr r.2 (row r.1))) m else m
    (rows.flatMap fun r => p.units r.2 x.2.len).eraseDups.foldl (fun m u => m.setFmtReg p u (BitVec.ofNat 32 (x.2.fmt % 32))) m) m

/-- A result's elements, but for partials of a K split (log entry 70), in the place of a share's destination slice of a child, or, where the destination is
passed through, where the slice of A began, drained there at the result's own pitch (R338, R344, R363). -/
def TCmd.landSlice (c : TCmd) (m : Mach) (p : Pad) (s : Share) (o : TileOut) : Mach :=
  let b := c.vd.bits
  match (c.placed p s).find? fun x => x.2.land with
  | none => m
  | some (off, _) =>
    if c.tile.ksplit then m
    else
      let lim := (((p.stageArea s.half).find? fun a => a.1 ≤ off && off < a.1 + a.2).map fun a => a.1 + a.2).getD off
      let out := c.outRange s
      let pitch := pitchOf (((out.2.2 - out.2.1) * b + 7) / 8)
      (o.elems.map Prod.fst).eraseDups.foldl (fun m i =>
        let es := o.elems.filter fun e => e.1 == i && out.2.1 ≤ e.2.1
        let n := es.foldl (fun a e => max a (((e.2.1 - out.2.1 + 1) * b + 7) / 8)) 0
        let a := off + (i - out.1.1) * pitch
        if i < out.1.1 || lim < a + n then m
        else
          let old := (m.padMem p).value a n
          let v := es.foldl (fun v e => let k := (e.2.1 - out.2.1) * b; v - v / 2 ^ k % 2 ^ b * 2 ^ k + e.2.2 % 2 ^ b * 2 ^ k) old
          m.padWrite p (atAddr a (leBytes n v))) m

/-! ### Domains (R335, R346, R363) -/

/-- The engines or lane clusters of a core that a share needs, as mask bits in the order of R123. -/
def TCmd.engines (c : TCmd) (s : Share) : List Nat :=
  let own := if c.vector then (c.lcShares s).map fun p => lcBit p.1 else match c.top with | 1 | 2 => [mxBit] | 12 | 13 => [hvBit] | _ => [xeBit]
  (((List.range 4).map lcBit) ++ [mxBit, xeBit, hvBit]).filter fun b => own.contains b || (c.passed && b == xeBit)

/-- What the dies are issued: die and share or chunk. -/
def TCmd.dieParts (c : TCmd) (p : Part) : List (Nat × Share) :=
  (c.dieShares p).flatMap fun x => (c.chunks (.die x.2.1) x.2.2.2).map fun s => (x.2.1, s)

/-- What the quads are issued. -/
def TCmd.quadParts (c : TCmd) (p : Part) : List (Nat × Share) :=
  (c.dieParts p).flatMap fun d => (c.quadShares p d.1 d.2).flatMap fun x => (c.chunks (.quad x.2.1) x.2.2).map fun s => (x.2.1, s)

/-- What the cores are issued. -/
def TCmd.coreParts (c : TCmd) (p : Part) : List (Nat × Share) :=
  (c.quadParts p).flatMap fun q => (c.coreShares q.1 q.2).flatMap fun x => (c.chunks (.core x.2.1) x.2.2).map fun s => (x.2.1, s)

/-- What the ports of an instruction need ON: by core, its banks and engines in the order of R123, and at the first core of a quad or die the segments of
its staging area. -/
def TCmd.needs (c : TCmd) (p : Part) : List (Nat × List DomRef) :=
  let names (l : List (Nat × Share)) : List Nat := (l.map Prod.fst).eraseDups
  let of (l : List (Nat × Share)) (n : Nat) : List Share := (l.filter fun x => x.1 == n).map Prod.snd
  let ds := c.dieParts p
  let qs := c.quadParts p
  let ks := c.coreParts p
  (names ds).flatMap fun d =>
    ((names qs).filter (· / 6 == d)).flatMap (fun q =>
      ((names ks).filter fun k => quadOf k == q).map (fun k =>
        let ss := of ks k
        let eng := ss.flatMap c.engines
        (k, (((List.range 48).filter (ss.flatMap (c.stageUnits (.core k))).contains) ++ ((List.range 7).map (48 + ·)).filter eng.contains).map (DomRef.core k))) ++
      [(4 * q, ((of qs q).flatMap (c.stageUnits (.quad q))).eraseDups.map (DomRef.quad q))]) ++
    [((p.cores.filter fun k => dieOf k == d).headD 0, ((of ds d).flatMap (c.stageUnits (.die d))).eraseDups.map (DomRef.die d))]

/-- The cycles after which vector work has made the last block of a core's share (R346). -/
def TCmd.blockCycles (c : TCmd) (p : Part) : Nat :=
  if !c.vector then 0
  else
    let width := 2048 / (if c.top = 5 then (c.va.map TView.bits).getD 32 else c.vd.bits)
    let blocks (s : Share) : Nat :=
      (tileBlocks c.top { c.tile with m := BitVec.ofNat 16 (s.i1 - s.i0), n := BitVec.ofNat 16 (s.j1 - s.j0) } 4 width).foldl (fun a b => max a (b.q + 1)) 0
    (c.coreParts p).foldl (fun a x => max a ((if c.tile.acc then 4 else 3) * blocks x.2 + 12)) 0

/-- The domains that an instruction needs woken as its ports accept it (R346), those whose return to RETAIN is under way kept ON: the machine, the
domains, and the cycle the last is ON. -/
def Mach.tileWakes (m : Mach) (ns : List (Nat × List DomRef)) : Mach × List DomRef × Nat :=
  ns.foldl (fun (a : Mach × List DomRef × Nat) n =>
    let (m, woke, on) := a
    let asleep := n.2.filter fun d => (m.dom d).st == .off || (m.dom d).st == .retain
    let going := n.2.filter fun d => (m.dom d).st == .on && (m.dom d).pend.isSome
    let m := going.foldl (fun m d => m.setDom d { (m.dom d) with pend := none, slept := 0 }) m
    let waking := n.2.foldl (fun a d => max a (m.dom d).wakeEnd) 0
    let r := m.planWakes n.1 asleep
    (r.1, woke ++ asleep ++ going, max on (max waking r.2))) (m, [], 0)

/-- The domains that the ports woke return to RETAIN (R346). -/
def Mach.tileSleeps (m : Mach) (ds : List DomRef) : Mach :=
  ds.foldl (fun m d => if (m.dom d).st == .on then m.setDom d { (m.dom d) with pend := some (m.now, false) } else m) m

/-! ### Cores, quads and dies (R342, R343, R350) -/

/-- The port of a quad or die. -/
def PPort.sub (p : PPort) (quad : Bool) (num : Nat) : SubPort := (p.subs.find? fun x => x.quad == quad && x.num == num).getD ⟨quad, num, 0, none, []⟩

/-- The port of a quad or die replaced. -/
def Mach.setSub (m : Mach) (task : Nat) (x : SubPort) : Mach :=
  m.modTask task fun t => { t with port := { t.port with subs := x :: t.port.subs.filter fun y => !(y.quad == x.quad && y.num == x.num) } }

/-- A port of a task as it stands. -/
def Mach.subPort (m : Mach) (task : Nat) (quad : Bool) (num : Nat) : SubPort :=
  ((m.task task).map fun t => t.port.sub quad num).getD ⟨quad, num, 0, none, []⟩

/-- A quad's or die's port takes an instruction: descriptors written, a sequence number taken, its record cleared. -/
def Mach.enterSub (m : Mach) (task : Nat) (quad : Bool) (num : Nat) (ds : List (Nat × BitVec 128)) : Mach × Nat :=
  let x := m.subPort task quad num
  (m.setSub task { x with seqNo := x.seqNo + 1, record := none, descs := setDescs x.descs ds }, x.seqNo.toNat)

/-- A quad's or die's port holds a record. -/
def Mach.holdSub (m : Mach) (task : Nat) (quad : Bool) (num : Nat) (w : W64 × W64 × W64) : Mach :=
  m.setSub task { m.subPort task quad num with record := some w }

/-- The boundary of a port's level at cores, in ascending order (R137). -/
def Mach.boundaryAt (m : Mach) (cores : List Nat) (scope : BitVec 4) : Mach := cores.foldl (fun m c => m.boundary c scope) m

/-- Results of one share joined. -/
def joinOuts (l : List TileOut) : TileOut := { elems := l.flatMap TileOut.elems, scales := l.flatMap TileOut.scales, flags := 0 }

/-- What an earlier run of the instruction has left of a share at its core (R351). -/
def TCmd.keptOf (c : TCmd) (s : Share) : TileOut :=
  let ks := c.task.port.kept
  { elems := (ks.flatMap fun k => k.2.1).filter fun e => s.i0 ≤ e.1 && e.1 < s.i1 && (c.top == 5 || (s.j0 ≤ e.2.1 && e.2.1 < s.j1))
    scales := (ks.flatMap fun k => k.2.2).filter fun e => s.i0 ≤ e.1 && e.1 < s.i1 && s.j0 ≤ 8 * e.2.1 && 8 * e.2.1 < s.j1, flags := 0 }

/-- A lane cluster as a child of its core (R14, R350): it sets its flags (R347), and its result stays with the core. -/
def TCmd.lane (c : TCmd) (core die ksh lc : Nat) (s : Share) : Kid :=
  let bad (f : TileFault) : Trap := ⟨f.1, 0, BitVec.ofNat 64 f.2⟩
  { idx := lc, ksh := 0, ord := 0
    bad := match c.compute s with | .error f => some (.trap (bad f)) | .ok _ => none
    run := fun cut x =>
      if cut then (x, none)
      else match c.compute s with
        | .error f => (x, some (TRec.new (bad f) 4 s.i0 s.j0))
        | .ok o => ({ x with m := x.m.modCore core fun k => k.flag x.m.now o.flags, gath := x.gath ++ [(die, ksh, o)] }, none) }

/-- The first fault of children that are not skipped. -/
def kidsBad (skip : Nat) (kids : List Kid) : Option SpanEnd := (kids.filter fun k => skip / 2 ^ k.idx % 2 == 0).findSome? Kid.bad

/-- The lane clusters of a core's share. -/
def TCmd.lanes (c : TCmd) (core die ksh : Nat) (s : Share) : List Kid := (c.lcShares s).map fun p => c.lane core die ksh p.1 p.2

/-- The result of a core's share, but for lane clusters that a resume word counts as retired, whose results it has kept. -/
def TCmd.result (c : TCmd) (skip : Nat) (s : Share) : Except TileFault TileOut :=
  if !c.vector then c.compute s
  else ((c.lcShares s).filter fun p => skip / 2 ^ p.1 % 2 == 0).foldl (fun r p => match r, c.compute p.2 with
    | .error f, _ => .error f
    | .ok _, .error f => .error f
    | .ok o, .ok q => .ok (joinOuts [o, q])) (.ok (if skip = 0 then joinOuts [] else c.keptOf s))

/-- The fault of a core's share, or a page to be pulled: of what it reads itself, of what it computes, or of its write-back. -/
def TCmd.leafFault (c : TCmd) (core skip : Nat) (s : Share) : Option SpanEnd :=
  (c.readFault (.core core) s).or (match c.result skip s with
  | .error (code, addr) => some (.trap ⟨code, 0, BitVec.ofNat 64 addr⟩)
  | .ok o => if c.passed then (c.writeFault o).map Prod.snd else none)

/-- A core's engine, or its lane clusters, compute its share: the record of a fault, or the result; the flags are set (R347, R350). -/
def TCmd.coreWork (c : TCmd) (core die ksh skip : Nat) (s : Share) (x : TRun) : TRun × Option TRec × Option TileOut :=
  if c.vector then
    let r := runKids c.tile.abort false skip (c.lanes core die ksh s) { x with gath := [] }
    match r.2.1 with
    | some (k, t) => ({ r.1 with gath := x.gath ++ r.1.gath }, some { t with rmc := r.2.2, lc := k }, none)
    | none => ({ r.1 with gath := x.gath }, none,
        some (joinOuts ((if skip = 0 then [] else [c.keptOf s]) ++ r.1.gath.map fun g => g.2.2)))
  else match c.compute s with
    | .error (code, addr) => (x, some (TRec.new ⟨code, 0, BitVec.ofNat 64 addr⟩ 3 s.i0 s.j0), none)
    | .ok o => ({ x with m := x.m.modCore core fun k => k.flag x.m.now o.flags }, none, some o)

/-- A core writes a result back (R300, R363): a write-back that faults has landed the rows before the fault and any of the seven after it. -/
def TCmd.writeBack (c : TCmd) (m : Mach) (core : Nat) (o : TileOut) : Mach × Option Trap × List (Option Nat) :=
  let rows := o.rows
  match c.writeFault o with
  | none => (c.writeRows m core o rows, none, [])
  | some (_, .page g) => (m, none, [g])
  | some (n, .trap t) =>
    if t.code = Code.footprint then (m, some t, [])
    else
      let m := c.writeRows m core o (rows.take n)
      (((rows.drop (n + 1)).take 7).foldl (fun m r =>
        let d := m.draw
        let ok := ((byteRuns (c.rowBytes c.m o r)).all fun y => match c.m.spanAt c.core c.openD .write y.1 y.2.length with | .ok _ => true | .error _ => false)
        if ok && d.2 % 2 == 1 then c.writeRow d.1 core o r else d.1) m, some t, [])

/-- A core's share that a sibling's fault stops (R350): it has drained its result or not, and, once drained, has landed any number of the rows of a
write-back that it can. -/
def TCmd.cutShort (c : TCmd) (core skip : Nat) (s : Share) (x : TRun) : TRun :=
  match (c.readFault (.core core) s).isSome, c.result skip s with
  | false, .ok o =>
    let d := x.m.draw
    let most := if !c.passed then 0 else
      match c.writeFault o with | none => o.rows.length | some (n, .trap t) => if t.code = Code.footprint then 0 else n | some (_, .page _) => 0
    let n := d.2 / 2 % (most + 1)
    let m := if 0 < n || d.2 % 2 == 1 then (c.landSlice d.1 (.core core) s o).modCore core fun k => k.flag x.m.now o.flags else d.1
    { x with m := c.writeRows m core o (o.rows.take n)
             pull := x.pull ++ (match c.passed, c.writeFault o with | true, some (_, .page g) => [g] | _, _ => []) }
  | _, _ => x

/-- A core's port takes its share: descriptors written, slices staged, a sequence number taken, its record cleared (R338, R344). -/
def TCmd.enterCore (c : TCmd) (m : Mach) (core : Nat) (s : Share) : Mach :=
  (c.stage m (.core core) s).modCore core fun k => { k with port := { k.port with
    seqNo := k.port.seqNo + 1, record := none, descs := setDescs k.port.descs (c.childDescs (.core core) s) } }

/-- A core runs its share (R347, R350, R363): it computes, and writes back its rows or hands its result up; a fault leaves a record and an event. -/
def TCmd.runLeaf (c : TCmd) (core die ksh skip : Nat) (s : Share) (cut : Bool) (x : TRun) : TRun × Option TRec :=
  let seq := (x.m.core core).port.seqNo % 2 ^ 32
  let x := { x with m := c.enterCore x.m core s }
  let ended (x : TRun) : TRun := { x with m := x.m.boundary core 1 }
  let report (x : TRun) (r : TRec) : TRun × Option TRec :=
    (ended { x with m := x.m.modCore core fun k =>
      ({ k with port := { k.port with record := some (r.words seq s.i0 s.j0) } } : Core).raise x.m.now (tileEvent r.trap.code seq 0) }, some r)
  if cut then (ended (c.cutShort core skip s x), none)
  else match c.readFault (.core core) s with
  | some (.trap t) => report x (TRec.new t 3 s.i0 s.j0)
  | some (.page g) => ({ x with pull := x.pull ++ [g] }, none)
  | none => match c.coreWork core die ksh skip s x with
    | (x, some r, _) => report x r
    | (x, none, none) => (ended x, none)
    | (x, none, some o) =>
      let x := { x with m := c.landSlice x.m (.core core) s o }
      if !c.passed then (ended { x with gath := x.gath ++ [(die, ksh, o)] }, none)
      else match c.writeBack x.m core o with
        | (m, some t, _) => report { x with m := m } (TRec.new t 3 s.i0 s.j0)
        | (m, none, pull) => (ended { x with m := m, pull := x.pull ++ pull }, none)

/-- The masks and the path of a re-issue (R351), and the row and column of the record it answers. -/
structure Resume where
  rmp  : Nat
  rmd  : Nat
  rmq  : Nat
  rmc  : Nat
  die  : Nat
  quad : Nat
  core : Nat
  row  : Nat
  col  : Nat
  deriving DecidableEq, Repr

/-- The chunks of a share with their places, and of a resume's path what belongs to each: the chunk of the record; none where a running sum goes through
chunks, whose children all run it again (R345, R351). -/
def TCmd.issued (c : TCmd) (p : Pad) (s : Share) (path : Option Resume) : List (Nat × Share × Option Resume) :=
  let cs := c.chunks p s
  (List.range cs.length).zipWith (fun n x => (n, x, path.filter fun r =>
    cs.length == 1 || (x.i0 ≤ r.row && r.row < x.i1 && x.j0 ≤ r.col && r.col < x.j1 && x.k0 == s.k0 && x.k1 == s.k1))) cs

/-- The cores of a quad's share (R342, R351). -/
def TCmd.cores (c : TCmd) (q die ksh : Nat) (path : Option Resume) (s : Share) : List Kid :=
  (c.coreShares q s).flatMap fun p => (c.issued (.core p.2.1) p.2.2 path).map fun x =>
    let skip := match x.2.2 with | some r => if c.vector && r.core = p.1 then r.rmc else 0 | none => 0
    { idx := p.1, ksh := 0, ord := x.1, bad := c.leafFault p.2.1 skip x.2.1, run := c.runLeaf p.2.1 die ksh skip x.2.1 }

/-- A quad or die has run its share: what it gathered lies in its own slice, and its boundary is made (R137, R344). -/
def TCmd.leave (c : TCmd) (p : Pad) (die ksh n : Nat) (s : Share) (cores : List Nat) (scope : BitVec 4) (x : TRun) : TRun :=
  let gs := (x.gath.drop n).filter fun g => g.1 == die && g.2.1 == ksh
  { x with m := (c.landSlice x.m p s (joinOuts (gs.map fun g => g.2.2))).boundaryAt cores scope }

/-- A quad as a child of its die (R342, R350). -/
def TCmd.quad (c : TCmd) (q idx die ksh ord : Nat) (path : Option Resume) (s : Share) : Kid :=
  let kids := c.cores q die ksh path s
  let skip := match path with | some r => r.rmq | none => 0
  { idx := idx, ksh := 0, ord := ord, bad := kidsBad skip kids
    run := fun cut x =>
      let e := (c.stage x.m (.quad q) s).enterSub c.task.seq true q (c.childDescs (.quad q) s)
      let r := runKids c.tile.abort cut skip kids { x with m := e.1 }
      let y := c.leave (.quad q) die ksh x.gath.length s (quadCores q) 2 r.1
      match r.2.1 with
      | none => (y, none)
      | some (k, t) =>
        let t := { t with rmq := r.2.2, core := k }
        ({ y with m := y.m.holdSub c.task.seq true q (t.words e.2 s.i0 s.j0) }, some t) }

/-- A die as a child of P (R342 to R344, R350, R351): P stages its operands, which may fault there. -/
def TCmd.die (c : TCmd) (p : Part) (d idx ksh ord : Nat) (path : Option Resume) (s : Share) : Kid :=
  let kids := (c.quadShares p d s).flatMap fun x => (c.issued (.quad x.2.1) x.2.2 (path.filter fun r => r.quad == x.1)).map fun y =>
    c.quad x.2.1 x.1 idx ksh y.1 y.2.2 y.2.1
  let skip := match path with | some r => r.rmd | none => 0
  let stage := c.stageFault (.die d) s
  { idx := idx, ksh := ksh, ord := ord, bad := stage.or (kidsBad skip kids)
    run := fun cut x => match stage with
      | some (.page g) => ({ x with pull := x.pull ++ [g] }, none)
      | some (.trap t) => (x, some (TRec.new t 0 s.i0 s.j0))
      | none =>
        let e := (c.stage x.m (.die d) s).enterSub c.task.seq false d (c.childDescs (.die d) s)
        let r := runKids c.tile.abort cut skip kids { x with m := e.1 }
        let y := c.leave (.die d) idx ksh x.gath.length s (p.cores.filter fun k => dieOf k == d) 3 r.1
        match r.2.1 with
        | none => (y, none)
        | some (k, t) =>
          let t := { t with rmd := r.2.2, quad := k }
          ({ y with m := y.m.holdSub c.task.seq false d (t.words e.2 s.i0 s.j0) }, some t) }

/-- The dies of an instruction (R342, R343, R351). -/
def TCmd.dies (c : TCmd) (p : Part) (path : Option Resume) : List Kid :=
  (c.dieShares p).flatMap fun x => (c.issued (.die x.2.1) x.2.2.2 (path.filter fun r => r.die == x.1)).map fun y =>
    c.die p x.2.1 x.1 x.2.2.1 (x.2.2.1 * 2 ^ 32 + y.1) y.2.2 y.2.1

/-! ### The gather at P (R343, R344, R350) -/

/-- The partials of a K split combined and converted (R86, R343, R354, R355). -/
def TCmd.combine (c : TCmd) (gs : List (Nat × Nat × TileOut)) : TileOut :=
  let f := c.tile.ksf.toNat + 1
  let fa := (c.va.map TView.fmt).getD 0
  let op := tileArrayOp c.top fa
  let part (s i j : Nat) : Nat := (((gs.filter fun g => g.2.1 == s).flatMap fun g => g.2.2.elems).find? fun e => e.1 == i && e.2.1 == j).map (fun e => e.2.2) |>.getD 0
  let cells := (List.range c.tile.m.toNat).flatMap fun i => (List.range c.tile.n.toNat).map fun j => (i, j)
  let rs := cells.map fun x =>
    let ps := (List.range f).map fun s => part s x.1 x.2
    let r := if op = 2 then (encInt 32 (ps.foldl (fun a y => a + decInt 32 true y) 0), (0 : Flags)) else tree f ps
    let o := tileFinish op c.tile c.vd.fmt c.src x.1 x.2 r.1
    (x, o.1, r.2 ||| o.2)
  { elems := rs.map fun r => (r.1.1, r.1.2, r.2.1), scales := [], flags := rs.foldl (fun a r => a ||| r.2.2) 0 }

/-- The end of a run of an instruction: the machine, and its record. -/
structure TEnd where
  m      : Mach
  record : Option TRec
  pull   : List (Option Nat)

/-- What P gathers: a die's results, where they begin. A gather that meets a fault writes the rows before it and gives a record with the origin of the
die's share; with ABORT none is gathered after it, and else the others are (R344, R350). Which record stands where children reported one too is an open
choice. `mask` are the dies that completed. -/
def TCmd.gather (c : TCmd) (m : Mach) (rec0 : Option TRec) (mask : Nat) (gs : List (Nat × Nat × Nat × TileOut)) : TEnd :=
  let pages := gs.filterMap fun g => match c.writeFault g.2.2.2 with | some (_, .page g) => some g | _ => none
  if !pages.isEmpty then { m := c.m, record := none, pull := pages }
  else
    let r := gs.foldl (fun (a : Mach × Option TRec × Nat) g =>
      let (m, r, done) := a
      let o := g.2.2.2
      if c.tile.abort && r.isSome then (m, r, done &&& (2 ^ 16 - 1 - 2 ^ g.1))
      else match c.writeFault o with
        | some (n, .trap t) =>
          (c.writeRows m c.core o (o.rows.take n), r.or (some { TRec.new t 0 g.2.1 g.2.2.1 with die := g.1 }), done &&& (2 ^ 16 - 1 - 2 ^ g.1))
        | _ => (c.writeRows m c.core o o.rows, r, done)) (m, none, mask)
    match rec0, r.2.1 with
    | none, w => { m := r.1, record := w.map fun t => { t with rmp := r.2.2 }, pull := [] }
    | some t, none => { m := r.1, record := some { t with rmp := r.2.2 }, pull := [] }
    | some t, some w => let d := r.1.draw
                        { m := d.1, record := some { (if d.2 % 2 = 0 then t else w) with rmp := r.2.2 }, pull := [] }

/-- An instruction run from its start to its retirement (R341 to R351). Which core's NFLAGS take the flags of a KSPLIT parent's TREE and CVT the spec
does not say: the model's choice is the task's first core (log entry 80). -/
def TCmd.run (c : TCmd) (p : Part) (path : Option Resume) : TEnd :=
  let skip := if c.tile.ksplit then 0 else match path with | some r => r.rmp | none => 0
  let r := runKids c.tile.abort false skip (c.dies p path) { m := c.m, gath := [], pull := [] }
  if !r.1.pull.isEmpty then { m := c.m, record := none, pull := r.1.pull }
  else
    let rec0 : Option TRec := r.2.1.map fun x => { x.2 with rmp := r.2.2, die := x.1 }
    let bad := r.2.1.map Prod.fst
    let origin (d : Nat) : Nat × Nat := (((c.dieShares p).find? fun x => x.1 == d).map fun x => (x.2.2.2.i0, x.2.2.2.j0)).getD (0, 0)
    let old (d : Nat) : List (Nat × Nat × TileOut) := match path with
      | some q => if q.die = d then (c.task.port.kept.filter fun k => k.1 == d).map fun k => (d, 0, { elems := k.2.1, scales := k.2.2, flags := 0 }) else []
      | none => []
    let keep (m : Mach) (gs : List (Nat × Nat × TileOut)) : Mach := m.modTask c.task.seq fun t => { t with port := { t.port with
      kept := gs.map fun g => (g.1, g.2.2.elems, g.2.2.scales) } }
    let m := keep r.1.m ((match bad with | some d => old d | none => []) ++ r.1.gath.filter fun g => bad == some g.1)
    if c.passed then { m := m, record := rec0, pull := [] }
    else if c.tile.ksplit then
      if rec0.isSome then { m := r.1.m, record := rec0, pull := [] }
      else
        let o := c.combine r.1.gath
        c.gather (r.1.m.modCore c.core fun k => k.flag r.1.m.now o.flags) none r.2.2 [(0, 0, 0, o)]
    else if c.top = 13 then
      if rec0.isSome then { m := r.1.m, record := rec0, pull := [] }
      else match tileCompute 13 c.tile c.vd c.va c.vb c.src false 0 c.tile.m.toNat 0 c.tile.n.toNat 0 0 with
        | .ok o => c.gather r.1.m none 0 [(0, 0, 0, o)]
        | .error _ => { m := r.1.m, record := rec0, pull := [] }
    else
      let done := r.1.gath.filter fun g => bad != some g.1
      let dies := (done.map Prod.fst).eraseDups
      c.gather m rec0 r.2.2 (dies.map fun d =>
        (d, (origin d).1, (origin d).2, joinOuts ((old d ++ done.filter fun g => g.1 == d).map fun g => g.2.2)))

/-! ### Submission and acceptance (R340, R365, R397) -/

/-- The words of a command: word 0 in bits 31:0. -/
def ChainCmdP.word (k : ChainCmdP) (i : Nat) : W32 := bits k.words (32 * i) 32

/-- The opcode and fields of a command's words (R334). -/
def ChainCmdP.tile (k : ChainCmdP) : Nat × Tile :=
  ((bits (k.word 0) 22 5).toNat, Tile.ofWords (k.word 0) (k.word 1) (k.word 2) (k.word 3))

/-- Whether a chain command's COMPLETE entry, or an entry behind a fault, waits, so that the P port starts nothing (R400). -/
def Mach.portWaits (m : Mach) (t : Task) : Bool :=
  let x := m.fn t.fn
  !x.waitJ.isEmpty || x.roomJ.any fun e => e.kind == 2 && e.cmd == t.num

/-- Whether a task's chain has a command to submit, or its end to meet, in this cycle (R341, R397, R410). -/
def Mach.submitDue (m : Mach) (t : Task) : Bool :=
  !t.native && t.state == .bound && t.killed.isNone && t.port.pending.isNone && t.port.running.isEmpty && t.port.failed.isNone && !t.port.done &&
  t.preempt.isNone && t.port.wake ≤ m.now && (t.cores.all fun c => match (m.core c).bound with | some b => b.begin ≤ m.now | none => false)

/-- A chain command ends (R365, R397, R399, R400): its COMPLETE entry where it has one, and the chain goes on or holds; a refused re-issue leaves P its
record. -/
def Mach.endCommand (m : Mach) (t : Task) (k : ChainCmdP) (rec_ : Option (W64 × W64 × W64)) (detail : Nat) : Mach :=
  let failed := rec_.isSome || detail != 0
  let st : Byte := if failed then Code.tile else 0
  let info : W64 := BitVec.ofNat 64 (k.index % 65536 + detail * 2 ^ 16)
  let e (seq q : Nat) (held : Bool) : JEntry := { JEntry.new 2 st (jref seq q t.fn) info held with frec := rec_.getD (0, 0, 0) }
  let m := m.modTask t.seq fun t => { t with port := { t.port with
    running := [], pending := none, record := if t.port.reissue.isSome && detail != 0 then t.port.record else rec_, reissue := none
    failed := if failed then some k else none
    kept := if failed then t.port.kept else []
    inBlk := if failed then t.port.inBlk else t.port.inBlk + 1
    index := if failed then t.port.index else t.port.index + 1 } }
  match t.port.reissue with
  | some (seq, q, _) => m.journal t.fn (e seq q true)
  | none => if (k.word 0).getLsbD 0 || failed then m.journalRoom t.fn (e t.num t.queue false) else m

/-- COMMAND_SUBMIT (R341, R365, R397): the next command of the chain, or the re-issued one, is read from its block and submitted at P. -/
def execCommandSubmit (s : State) : Host.Outcome State Fault Refusal :=
  let m := s.m
  match m.served with
  | none => .next s
  | some t =>
    if !m.submitDue t then .next s
    else
      let p := t.port
      let bad : Host.Outcome State Fault Refusal := .next { s with m := m.killTask t.seq 0x81 }
      if p.block = 0 then .next { s with m := m.modTask t.seq fun t => { t with port := { t.port with done := true } } }
      else match m.gpaRead t.fn p.block 256 with
        | .error (.pull g) => .next { s with m := (m.askPull t.fn g).modTask t.seq fun t => { t with port := { t.port with wake := m.now + 1 } } }
        | .error _ => bad
        | .ok b =>
          let n := field b 8 1
          let next := field b 0 8
          if n = 0 || 15 < n || field b 9 7 != 0 || next % 256 != 0 || 2 ^ 48 ≤ next then bad
          else if n ≤ p.inBlk then .next { s with m := m.modTask t.seq fun t => { t with port := { t.port with block := next, inBlk := 0 } } }
          else if m.portWaits t then .next { s with m := m.modTask t.seq fun t => { t with port := { t.port with wake := m.now + 1 } } }
          else
            let words : BitVec 128 := bytesImage 128 ((b.drop (16 + 16 * p.inBlk)).take 16)
            let resume : W64 := match p.reissue with | some r => r.2.2 | none => 0
            let path : W64 := match p.record with | some r => (r.2.2 &&& 0xFF80000000000000) ||| (r.2.1 >>> 32) | none => 0
            let k : ChainCmdP := { seqNo := 0, index := p.index, words := words, resume := resume, path := path, endAt := none, bar := false }
            if 15 < k.tile.1 then .next { s with m := m.endCommand t k none 0x01 }
            else .next { s with m := m.modTask t.seq fun t => { t with port := { t.port with pending := some k } } }

/-- The masks and path of a resume word, with the path, ROW and COL of the record it answers (R351). -/
def resumeOf (w path : W64) : Option Resume :=
  if w = 0 then none
  else some { rmp := (bits w 10 4).toNat, rmd := (bits w 14 6).toNat, rmq := (bits w 20 4).toNat, rmc := (bits w 24 4).toNat,
              die := (bits path 62 2).toNat, quad := (bits path 59 3).toNat, core := (bits path 57 2).toNat,
              row := (bits path 16 16).toNat, col := (bits path 0 16).toNat }

/-- Detail 0x0B of R340 (R351): reserved bits, or a mask bit of a child the partition lacks. -/
def resumeBad (w : W64) (p : Part) : Bool := bits w 0 10 != 0 || 2 ^ p.dies.length ≤ (bits w 10 4).toNat || 2 ^ p.quadsPerDie ≤ (bits w 14 6).toNat

/-- The detail code with which P refuses a command; 0 where it accepts (R340, R397). -/
def Mach.pkgRefusal (m : Mach) (t : Task) (k : ChainCmdP) (top : Nat) (x : Tile) : Nat :=
  let ver := x.ver.toNat != t.ver
  let d := tileRefusal 0 top x t.port.tables (fun _ _ => true) true (match m.part t.part with | some p => !resumeBad k.resume p | none => true)
  if ver then 0x01
  else if bits (k.word 1) 0 2 != 0 && (d = 0 || 0x04 < d) then 0x04
  else d

/-- The command at a task's P port with its views, where it is one that moves data. -/
def Mach.pkgCmd (m : Mach) (t : Task) (k : ChainCmdP) : Option TCmd := TCmd.start m t (t.cores.foldl min (t.cores.headD 0)) k.tile.1 k.tile.2

/-- Whether a command is timed only (R104, R345): every view it names is timed and no core writes its destination back. -/
def TCmd.timedOnly (c : TCmd) : Bool :=
  ([some c.vd, c.va, c.vb].filterMap id).all (fun v => v.timed || v.place ≤ 2) && !c.passed

/-- The cycle from which an accepted command may retire, its domains ON in cycle `on`, and whether it does so there (R104, R345, R353): T.NOP in the cycle
after its acceptance, every earlier instruction having retired; T.FENCE in the one after that, as T.BAR, whose boundary is made first; of a timed-only one
the bind record's slots fix it; of another, what it waits for outside decides, not before the last block of its vector work (R346, log entry 24). -/
def Mach.pkgEnd (m : Mach) (t : Task) (k : ChainCmdP) (on : Nat) : Nat × Bool :=
  let b := (m.core (t.cores.headD 0)).bound
  let s := max on (m.now + 1)
  let tables := [k.tile.2.tdd, k.tile.2.tda, k.tile.2.tdb].map fun n => let d := t.port.tables.desc n.toNat; (d, t.port.tables.hnd (tableField d 0 8))
  let last := match m.part t.part, m.pkgCmd t k with | some p, some c => c.blockCycles p | _, _ => 0
  let fixed := s + last + 1 + Config.tileCycles k.words tables ((b.map fun b => shapeKey b.quads b.hslots).getD (0, 0, 0))
    ((s + (b.map fun b => b.cperiod - b.origin % max 1 b.cperiod).getD 0) % max 1 ((b.map Bind.cperiod).getD 1))
  match m.pkgCmd t k with
  | none => (m.now + (if k.tile.1 = 15 then 2 else 1), true)
  | some c => if c.timedOnly then (fixed, true) else (s + last, false)

/-- A command accepted at P (R341, R346): its ports wake what they need, and it runs. -/
def Mach.pkgAccept (m : Mach) (t : Task) (k : ChainCmdP) : Mach :=
  let w := match m.part t.part, m.pkgCmd t k with
    | some p, some c => m.tileWakes (c.needs p)
    | _, _ => (m, [], 0)
  let e := m.pkgEnd t k w.2.2
  let m := w.1.modTask t.seq fun t => { t with port := { t.port with
    pending := none, record := none, seqNo := t.port.seqNo + 1, running := [{ k with seqNo := t.port.seqNo, endAt := some e }], woke := w.2.1 } }
  t.cores.foldl (fun m c => m.modCore c fun k => { k with port := { k.port with active := true } }) m

/-- A tile instruction at P (R340, R341): refused, or accepted, with the port's next sequence number. -/
def tilePkg (top : Nat) (x : Tile) (task : Nat) (s : State) : Host.Outcome State Fault Refusal :=
  let m := s.m
  let s' (m : Mach) : Host.Outcome State Fault Refusal := .next { s with m := { m with curP := none } }
  match m.task task with
  | none => s' m
  | some t => match t.port.pending with
    | none => s' m
    | some k => match m.pkgRefusal t k top x with
      | 0 => s' (m.pkgAccept t k)
      | d => s' (m.endCommand t k none d)

/-! ### Retirement at P (R341, R350, R353) -/

/-- The scope of a T.BAR (R353, R397). -/
def tileScope (x : Tile) : BitVec 4 := if x.ver = 1 then 4 else x.sub

/-- The boundary of a scope at every core of a task, in ascending order. -/
def Mach.boundaryAll (m : Mach) (t : Task) (scope : BitVec 4) : Mach :=
  (t.cores.foldl (fun a c => insertCore c a) []).foldl (fun m c => m.boundary c scope) m

/-- An instruction retires at P: the .part boundary at every core, the return of the domains its ports woke, and the command's end. -/
def Mach.retirePkg (m : Mach) (t : Task) (k : ChainCmdP) (r : Option TRec) : Mach :=
  let m := ((m.boundaryAll t 4).tileSleeps t.port.woke).modTask t.seq fun t => { t with port := { t.port with woke := [] } }
  let m := t.cores.foldl (fun m c => m.modCore c fun x => { x with port := { x.port with active := false } }) m
  m.endCommand t k (r.map fun r => r.words k.seqNo 0 0) 0

/-- A T.BAR has performed its boundary: it retires in the next cycle (R353). -/
def Mach.barDone (m : Mach) (t : Task) (k : ChainCmdP) : Mach := m.modTask t.seq fun t => { t with port := { t.port with
  running := [{ k with endAt := some (m.now + 1, true), bar := true }] } }

/-- The run of the instruction at a task's P port, where it has one that moves data. -/
def Mach.pkgRun (m : Mach) (t : Task) (k : ChainCmdP) : Option TEnd :=
  match m.part t.part, m.pkgCmd t k with
  | some p, some c => some (c.run p (if k.tile.2.ksplit then none else resumeOf k.resume k.path))
  | _, _ => none

/-- Whether the instruction at a P port may retire (R346): its earliest cycle has come, and no stop holds the task's cores. -/
def Mach.pkgReady (m : Mach) (t : Task) (k : ChainCmdP) : Bool :=
  t.state == .bound && (match k.endAt with | some (e, _) => e ≤ m.now | none => true) && t.cores.all fun c => (m.core c).stop.isNone

/-- Whether pages have been asked of a function. -/
def Fn.asked (x : Fn) (ps : List (Option Nat)) : Bool :=
  ps.all fun p => match p with | some g => x.pulls.any (fun y => y.1 == g) | none => true

/-- The retirement or the record of an instruction whose cycle is fixed, in that cycle (R104, R345), and, of any, the pulls of the pages it waits for
(R419). -/
def Mach.pkgDue (m : Mach) (t : Task) : Option Instr :=
  match t.port.running with
  | k :: _ =>
    let fixed := match k.endAt with | some (_, fixed) => fixed | none => false
    if !(m.pkgReady t k && (fixed || (m.fn t.fn).pull.isSome)) then none
    else match m.pkgRun t k with
      | none => if fixed then some (.tileRetire (.pkg t.seq)) else none
      | some e =>
        if !e.pull.isEmpty then (if (m.fn t.fn).asked e.pull then none else some (.tileRetire (.pkg t.seq)))
        else if !fixed then none
        else some (if e.record.isSome then .tileRecord (.pkg t.seq) else .tileRetire (.pkg t.seq))
  | [] => none

/-- TILE_RETIRE (R341, R346, R353): the instruction of a port retires, its children having retired without a fault; a T.BAR first performs its boundary and
retires in the next cycle; one that meets a page to be pulled asks for it (R419). -/
def execTileRetire (port : PortRef) (s : State) : Host.Outcome State Fault Refusal :=
  let m := s.m
  match port with
  | .core c => .next { s with m := m.tileRetireL c, base := some (c, m.now, s.restorePoint c) }
  | .pkg task => match m.task task with
    | none => .next s
    | some t => match t.port.running with
      | k :: _ =>
        let x := k.tile
        if !m.pkgReady t k then .next s
        else if x.1 = 14 && !k.bar then .next { s with m := (m.boundaryAll t (tileScope x.2)).barDone t k }
        else match m.pkgRun t k with
          | none => .next { s with m := m.retirePkg t k none }
          | some e =>
            if !e.pull.isEmpty then .next { s with m := m.askPages t.fn e.pull }
            else if e.record.isSome then .next s else .next { s with m := e.m.retirePkg t k none }
      | [] => .next s

/-- TILE_RECORD (R349, R350): a fault record reaches a port, whose instruction retires with it. -/
def execTileRecord (port : PortRef) (s : State) : Host.Outcome State Fault Refusal :=
  let m := s.m
  match port with
  | .core c => .next { s with m := m.tileRecordL c, base := some (c, m.now, s.restorePoint c) }
  | .pkg task => match m.task task with
    | none => .next s
    | some t => match t.port.running with
      | k :: _ =>
        if !m.pkgReady t k then .next s
        else match m.pkgRun t k with
        | some e =>
          if !e.pull.isEmpty then .next { s with m := m.askPages t.fn e.pull }
          else match e.record with
            | some r => .next { s with m := e.m.retirePkg t k (some r) }
            | none => .next s
        | none => .next s
      | [] => .next s

/-! ### The tile instructions (R353 to R362) -/

/-- A tile instruction at the port being served: of a task at P, or of the core whose S stream issues it. -/
def tileAt (top : Nat) (t : Tile) (s : State) : Host.Outcome State Fault Refusal :=
  match s.m.curP with
  | some task => tilePkg top t task s
  | none => tileLane top t s

/-- T.NOP (R353). -/
def execTNop (t : Tile) (s : State) : Host.Outcome State Fault Refusal := tileAt 0 t s
/-- T.MMA (R354). -/
def execTMma (t : Tile) (s : State) : Host.Outcome State Fault Refusal := tileAt 1 t s
/-- T.MMAS (R355). -/
def execTMmas (t : Tile) (s : State) : Host.Outcome State Fault Refusal := tileAt 2 t s
/-- T.EW (R356). -/
def execTEw (t : Tile) (s : State) : Host.Outcome State Fault Refusal := tileAt 3 t s
/-- T.ACT (R357). -/
def execTAct (t : Tile) (s : State) : Host.Outcome State Fault Refusal := tileAt 4 t s
/-- T.RED (R358). -/
def execTRed (t : Tile) (s : State) : Host.Outcome State Fault Refusal := tileAt 5 t s
/-- T.CVT (R359). -/
def execTCvt (t : Tile) (s : State) : Host.Outcome State Fault Refusal := tileAt 6 t s
/-- T.SCALE (R359). -/
def execTScale (t : Tile) (s : State) : Host.Outcome State Fault Refusal := tileAt 7 t s
/-- T.MOVE (R360). -/
def execTMove (t : Tile) (s : State) : Host.Outcome State Fault Refusal := tileAt 8 t s
/-- T.FILL (R360). -/
def execTFill (t : Tile) (s : State) : Host.Outcome State Fault Refusal := tileAt 9 t s
/-- T.TRANS (R360). -/
def execTTrans (t : Tile) (s : State) : Host.Outcome State Fault Refusal := tileAt 10 t s
/-- T.GATH (R360). -/
def execTGath (t : Tile) (s : State) : Host.Outcome State Fault Refusal := tileAt 11 t s
/-- T.HVENC (R361). -/
def execTHvenc (t : Tile) (s : State) : Host.Outcome State Fault Refusal := tileAt 12 t s
/-- T.HVNEAR (R362). -/
def execTHvnear (t : Tile) (s : State) : Host.Outcome State Fault Refusal := tileAt 13 t s
/-- T.BAR (R353). -/
def execTBar (t : Tile) (s : State) : Host.Outcome State Fault Refusal := tileAt 14 t s
/-- T.FENCE (R353). -/
def execTFence (t : Tile) (s : State) : Host.Outcome State Fault Refusal := tileAt 15 t s

end Sys2Proof.Machine
end

