-- ==== Sys2Proof/Machine/Dispatch.lean ====
section
/-! DEFINITION. The dispatch of every instruction and event of spec/opcode_table.json to its meaning. -/
namespace Sys2Proof.Machine

def exec (i : Instr) (s : State) : Host.Outcome State Fault Refusal :=
  match i with
  | .nop st l => Sys2Proof.Machine.execNop st l s
  | .waitC st l => Sys2Proof.Machine.execWaitC st l s
  | .sAdd l => Sys2Proof.Machine.execSAdd l s
  | .sSub l => Sys2Proof.Machine.execSSub l s
  | .sMul l => Sys2Proof.Machine.execSMul l s
  | .sMulh l => Sys2Proof.Machine.execSMulh l s
  | .sDivq l => Sys2Proof.Machine.execSDivq l s
  | .sAnd l => Sys2Proof.Machine.execSAnd l s
  | .sOr l => Sys2Proof.Machine.execSOr l s
  | .sXor l => Sys2Proof.Machine.execSXor l s
  | .sShl l => Sys2Proof.Machine.execSShl l s
  | .sShr l => Sys2Proof.Machine.execSShr l s
  | .sSra l => Sys2Proof.Machine.execSSra l s
  | .sMin l => Sys2Proof.Machine.execSMin l s
  | .sMax l => Sys2Proof.Machine.execSMax l s
  | .sMovi l => Sys2Proof.Machine.execSMovi l s
  | .sMoviH l => Sys2Proof.Machine.execSMoviH l s
  | .sSel l => Sys2Proof.Machine.execSSel l s
  | .sCmp l => Sys2Proof.Machine.execSCmp l s
  | .sPset l => Sys2Proof.Machine.execSPset l s
  | .sRdwid l => Sys2Proof.Machine.execSRdwid l s
  | .sLd l => Sys2Proof.Machine.execSLd l s
  | .sSt l => Sys2Proof.Machine.execSSt l s
  | .sLdg l => Sys2Proof.Machine.execSLdg l s
  | .sStg l => Sys2Proof.Machine.execSStg l s
  | .sAtom l => Sys2Proof.Machine.execSAtom l s
  | .sQpush l => Sys2Proof.Machine.execSQpush l s
  | .sSemw l => Sys2Proof.Machine.execSSemw l s
  | .sSems l => Sys2Proof.Machine.execSSems l s
  | .sPnwait l => Sys2Proof.Machine.execSPnwait l s
  | .sFence l => Sys2Proof.Machine.execSFence l s
  | .sPhase l => Sys2Proof.Machine.execSPhase l s
  | .sRingset l => Sys2Proof.Machine.execSRingset l s
  | .sBarInit l => Sys2Proof.Machine.execSBarInit l s
  | .sBarInitt l => Sys2Proof.Machine.execSBarInitt l s
  | .sBarJoin l => Sys2Proof.Machine.execSBarJoin l s
  | .sBarLeave l => Sys2Proof.Machine.execSBarLeave l s
  | .sBarArr l => Sys2Proof.Machine.execSBarArr l s
  | .sBarWait l => Sys2Proof.Machine.execSBarWait l s
  | .sTjoin l => Sys2Proof.Machine.execSTjoin l s
  | .sBkfmtSet l => Sys2Proof.Machine.execSBkfmtSet l s
  | .sBkfmtGet l => Sys2Proof.Machine.execSBkfmtGet l s
  | .sWake l => Sys2Proof.Machine.execSWake l s
  | .sSleep l => Sys2Proof.Machine.execSSleep l s
  | .sPdq l => Sys2Proof.Machine.execSPdq l s
  | .vaddF l => Sys2Proof.Machine.execVaddF l s
  | .vsubF l => Sys2Proof.Machine.execVsubF l s
  | .vmulF l => Sys2Proof.Machine.execVmulF l s
  | .vfma l => Sys2Proof.Machine.execVfma l s
  | .vminF l => Sys2Proof.Machine.execVminF l s
  | .vmaxF l => Sys2Proof.Machine.execVmaxF l s
  | .vabs l => Sys2Proof.Machine.execVabs l s
  | .vaddS l => Sys2Proof.Machine.execVaddS l s
  | .vsubS l => Sys2Proof.Machine.execVsubS l s
  | .vmulS l => Sys2Proof.Machine.execVmulS l s
  | .vminS l => Sys2Proof.Machine.execVminS l s
  | .vmaxS l => Sys2Proof.Machine.execVmaxS l s
  | .vaddZ l => Sys2Proof.Machine.execVaddZ l s
  | .vsubZ l => Sys2Proof.Machine.execVsubZ l s
  | .vmulZ l => Sys2Proof.Machine.execVmulZ l s
  | .vminZ l => Sys2Proof.Machine.execVminZ l s
  | .vmaxZ l => Sys2Proof.Machine.execVmaxZ l s
  | .vand l => Sys2Proof.Machine.execVand l s
  | .vor l => Sys2Proof.Machine.execVor l s
  | .vxor l => Sys2Proof.Machine.execVxor l s
  | .vnot l => Sys2Proof.Machine.execVnot l s
  | .vshl l => Sys2Proof.Machine.execVshl l s
  | .vshrZ l => Sys2Proof.Machine.execVshrZ l s
  | .vshrS l => Sys2Proof.Machine.execVshrS l s
  | .vcmpF l => Sys2Proof.Machine.execVcmpF l s
  | .vcmpS l => Sys2Proof.Machine.execVcmpS l s
  | .vcmpZ l => Sys2Proof.Machine.execVcmpZ l s
  | .vsel l => Sys2Proof.Machine.execVsel l s
  | .vcvt l => Sys2Proof.Machine.execVcvt l s
  | .vpack l => Sys2Proof.Machine.execVpack l s
  | .vunpk l => Sys2Proof.Machine.execVunpk l s
  | .vrcp l => Sys2Proof.Machine.execVrcp l s
  | .vrsq l => Sys2Proof.Machine.execVrsq l s
  | .vexp2 l => Sys2Proof.Machine.execVexp2 l s
  | .vlog2 l => Sys2Proof.Machine.execVlog2 l s
  | .vmov l => Sys2Proof.Machine.execVmov l s
  | .vmand l => Sys2Proof.Machine.execVmand l s
  | .vmor l => Sys2Proof.Machine.execVmor l s
  | .vmnot l => Sys2Proof.Machine.execVmnot l s
  | .vrotr l => Sys2Proof.Machine.execVrotr l s
  | .vrotc l => Sys2Proof.Machine.execVrotc l s
  | .vbcr l => Sys2Proof.Machine.execVbcr l s
  | .vbcc l => Sys2Proof.Machine.execVbcc l s
  | .vredr l => Sys2Proof.Machine.execVredr l s
  | .vredc l => Sys2Proof.Machine.execVredc l s
  | .vscanr l => Sys2Proof.Machine.execVscanr l s
  | .vscanc l => Sys2Proof.Machine.execVscanc l s
  | .vld l => Sys2Proof.Machine.execVld l s
  | .vst l => Sys2Proof.Machine.execVst l s
  | .vldx l => Sys2Proof.Machine.execVldx l s
  | .vstx l => Sys2Proof.Machine.execVstx l s
  | .vins l => Sys2Proof.Machine.execVins l s
  | .vext l => Sys2Proof.Machine.execVext l s
  | .vsemw l => Sys2Proof.Machine.execVsemw l s
  | .vsems l => Sys2Proof.Machine.execVsems l s
  | .mma l => Sys2Proof.Machine.execMma l s
  | .mmai l => Sys2Proof.Machine.execMmai l s
  | .mmad l => Sys2Proof.Machine.execMmad l s
  | .mmas l => Sys2Proof.Machine.execMmas l s
  | .mmaj l => Sys2Proof.Machine.execMmaj l s
  | .mmajs l => Sys2Proof.Machine.execMmajs l s
  | .mzero l => Sys2Proof.Machine.execMzero l s
  | .mdrain l => Sys2Proof.Machine.execMdrain l s
  | .msba l => Sys2Proof.Machine.execMsba l s
  | .msbb l => Sys2Proof.Machine.execMsbb l s
  | .mldacc l => Sys2Proof.Machine.execMldacc l s
  | .mstacc l => Sys2Proof.Machine.execMstacc l s
  | .msemw l => Sys2Proof.Machine.execMsemw l s
  | .msems l => Sys2Proof.Machine.execMsems l s
  | .xcopy l ch => Sys2Proof.Machine.execXcopy l ch s
  | .xgath l ch => Sys2Proof.Machine.execXgath l ch s
  | .xscat l ch => Sys2Proof.Machine.execXscat l ch s
  | .xred l ch => Sys2Proof.Machine.execXred l ch s
  | .xmcast l ch => Sys2Proof.Machine.execXmcast l ch s
  | .xfill l ch => Sys2Proof.Machine.execXfill l ch s
  | .xopen l => Sys2Proof.Machine.execXopen l s
  | .xclose l => Sys2Proof.Machine.execXclose l s
  | .xwmset l => Sys2Proof.Machine.execXwmset l s
  | .xbufRel l => Sys2Proof.Machine.execXbufRel l s
  | .xbufQ l => Sys2Proof.Machine.execXbufQ l s
  | .xsemw l => Sys2Proof.Machine.execXsemw l s
  | .xsems l => Sys2Proof.Machine.execXsems l s
  | .xfence l => Sys2Proof.Machine.execXfence l s
  | .hbind l => Sys2Proof.Machine.execHbind l s
  | .hperm l => Sys2Proof.Machine.execHperm l s
  | .hbund l => Sys2Proof.Machine.execHbund l s
  | .hthr l => Sys2Proof.Machine.execHthr l s
  | .hdist l => Sys2Proof.Machine.execHdist l s
  | .hnear l => Sys2Proof.Machine.execHnear l s
  | .hnear2 l => Sys2Proof.Machine.execHnear2 l s
  | .hmov l => Sys2Proof.Machine.execHmov l s
  | .hclr l => Sys2Proof.Machine.execHclr l s
  | .hnot l => Sys2Proof.Machine.execHnot l s
  | .hld l => Sys2Proof.Machine.execHld l s
  | .hst l => Sys2Proof.Machine.execHst l s
  | .hgdset l => Sys2Proof.Machine.execHgdset l s
  | .hgput l => Sys2Proof.Machine.execHgput l s
  | .hgputInv l => Sys2Proof.Machine.execHgputInv l s
  | .hsemw l => Sys2Proof.Machine.execHsemw l s
  | .hsems l => Sys2Proof.Machine.execHsems l s
  | .tNop t => Sys2Proof.Machine.execTNop t s
  | .tMma t => Sys2Proof.Machine.execTMma t s
  | .tMmas t => Sys2Proof.Machine.execTMmas t s
  | .tEw t => Sys2Proof.Machine.execTEw t s
  | .tAct t => Sys2Proof.Machine.execTAct t s
  | .tRed t => Sys2Proof.Machine.execTRed t s
  | .tCvt t => Sys2Proof.Machine.execTCvt t s
  | .tScale t => Sys2Proof.Machine.execTScale t s
  | .tMove t => Sys2Proof.Machine.execTMove t s
  | .tFill t => Sys2Proof.Machine.execTFill t s
  | .tTrans t => Sys2Proof.Machine.execTTrans t s
  | .tGath t => Sys2Proof.Machine.execTGath t s
  | .tHvenc t => Sys2Proof.Machine.execTHvenc t s
  | .tHvnear t => Sys2Proof.Machine.execTHvnear t s
  | .tBar t => Sys2Proof.Machine.execTBar t s
  | .tFence t => Sys2Proof.Machine.execTFence t s
  | .cblk rs1 rs2 => Sys2Proof.Machine.execCblk rs1 rs2 s
  | .cblkw => Sys2Proof.Machine.execCblkw s
  | .cevt rd => Sys2Proof.Machine.execCevt rd s
  | .cevtNb rd => Sys2Proof.Machine.execCevtNb rd s
  | .csemSig rs1 rs2 => Sys2Proof.Machine.execCsemSig rs1 rs2 s
  | .csemWait rs1 rs2 => Sys2Proof.Machine.execCsemWait rs1 rs2 s
  | .csemTry rd rs1 rs2 => Sys2Proof.Machine.execCsemTry rd rs1 rs2 s
  | .csemRd rd rs1 => Sys2Proof.Machine.execCsemRd rd rs1 s
  | .csemSet rs1 rs2 => Sys2Proof.Machine.execCsemSet rs1 rs2 s
  | .cphase scope => Sys2Proof.Machine.execCphase scope s
  | .cfence scope => Sys2Proof.Machine.execCfence scope s
  | .cframeRep rd => Sys2Proof.Machine.execCframeRep rd s
  | .cframeEnd rs1 => Sys2Proof.Machine.execCframeEnd rs1 s
  | .cresume => Sys2Proof.Machine.execCresume s
  | .cwid rd => Sys2Proof.Machine.execCwid rd s
  | .ctis rd rs1 => Sys2Proof.Machine.execCtis rd rs1 s
  | .cpds rd rs1 => Sys2Proof.Machine.execCpds rd rs1 s
  | .rv64Instruction r => Sys2Proof.Machine.execRv64Instruction r s
  | .nflagsWrite op rd src => Sys2Proof.Machine.execNflagsWrite op rd src s
  | .dbgctlWrite op rd src => Sys2Proof.Machine.execDbgctlWrite op rd src s
  | .ctimecmpWrite op rd src => Sys2Proof.Machine.execCtimecmpWrite op rd src s
  | .cbankWrite n op rd src => Sys2Proof.Machine.execCbankWrite n op rd src s
  | .timerInterrupt => Sys2Proof.Machine.execTimerInterrupt s
  | .coreTrapInterrupt => Sys2Proof.Machine.execCoreTrapInterrupt s
  | .eventInterrupt => Sys2Proof.Machine.execEventInterrupt s
  | .blockStart => Sys2Proof.Machine.execBlockStart s
  | .lineValidate core index line tag => Sys2Proof.Machine.execLineValidate core index line tag s
  | .walkComplete core walk => Sys2Proof.Machine.execWalkComplete core walk s
  | .frameComplete => Sys2Proof.Machine.execFrameComplete s
  | .resultLand => Sys2Proof.Machine.execResultLand s
  | .ldgArrival core load => Sys2Proof.Machine.execLdgArrival core load s
  | .stgAck core store => Sys2Proof.Machine.execStgAck core store s
  | .atomReturn core load => Sys2Proof.Machine.execAtomReturn core load s
  | .domainOn dom => Sys2Proof.Machine.execDomainOn dom s
  | .deferredSleep dom => Sys2Proof.Machine.execDeferredSleep dom s
  | .arrayRetire => Sys2Proof.Machine.execArrayRetire s
  | .chainIssue => Sys2Proof.Machine.execChainIssue s
  | .jointStart quad => Sys2Proof.Machine.execJointStart quad s
  | .ringRefill core ring => Sys2Proof.Machine.execRingRefill core ring s
  | .copyComplete core entry => Sys2Proof.Machine.execCopyComplete core entry s
  | .openRowArrival core entry row => Sys2Proof.Machine.execOpenRowArrival core entry row s
  | .copyRowFault core entry row code detail addr => Sys2Proof.Machine.execCopyRowFault core entry row code detail addr s
  | .watermarkFire core chan => Sys2Proof.Machine.execWatermarkFire core chan s
  | .searchPush => Sys2Proof.Machine.execSearchPush s
  | .barrierArrival core bar => Sys2Proof.Machine.execBarrierArrival core bar s
  | .barrierCompletion core bar => Sys2Proof.Machine.execBarrierCompletion core bar s
  | .lingerRelease core st => Sys2Proof.Machine.execLingerRelease core st s
  | .tileRetire port => Sys2Proof.Machine.execTileRetire port s
  | .tileRecord port => Sys2Proof.Machine.execTileRecord port s
  | .serviceReply core tag code => Sys2Proof.Machine.execServiceReply core tag code s
  | .qnotifyWrite fn queue value => Sys2Proof.Machine.execQnotifyWrite fn queue value s
  | .queueEnable fn queue => Sys2Proof.Machine.execQueueEnable fn queue s
  | .queueDisable fn queue => Sys2Proof.Machine.execQueueDisable fn queue s
  | .registerWrite fn offset value => Sys2Proof.Machine.execRegisterWrite fn offset value s
  | .packetStart => Sys2Proof.Machine.execPacketStart s
  | .queueResume => Sys2Proof.Machine.execQueueResume s
  | .fBudget => Sys2Proof.Machine.execFBudget s
  | .qcNop q => Sys2Proof.Machine.execQcNop q s
  | .qcLd q => Sys2Proof.Machine.execQcLd q s
  | .qcSt q => Sys2Proof.Machine.execQcSt q s
  | .qcAdd q => Sys2Proof.Machine.execQcAdd q s
  | .qcSub q => Sys2Proof.Machine.execQcSub q s
  | .qcAnd q => Sys2Proof.Machine.execQcAnd q s
  | .qcOr q => Sys2Proof.Machine.execQcOr q s
  | .qcShl q => Sys2Proof.Machine.execQcShl q s
  | .qcCmp q => Sys2Proof.Machine.execQcCmp q s
  | .qBrf q => Sys2Proof.Machine.execQBrf q s
  | .qLoop q => Sys2Proof.Machine.execQLoop q s
  | .qSigwait q => Sys2Proof.Machine.execQSigwait q s
  | .qSigset q => Sys2Proof.Machine.execQSigset q s
  | .qSigadd q => Sys2Proof.Machine.execQSigadd q s
  | .qLaunch q => Sys2Proof.Machine.execQLaunch q s
  | .qLaunchRi q => Sys2Proof.Machine.execQLaunchRi q s
  | .qLaunchKill q => Sys2Proof.Machine.execQLaunchKill q s
  | .qLaunchInv q => Sys2Proof.Machine.execQLaunchInv q s
  | .qTxb q => Sys2Proof.Machine.execQTxb q s
  | .qTxe q => Sys2Proof.Machine.execQTxe q s
  | .qPost q => Sys2Proof.Machine.execQPost q s
  | .qIrq q => Sys2Proof.Machine.execQIrq q s
  | .qRearm q => Sys2Proof.Machine.execQRearm q s
  | .qWaittask q => Sys2Proof.Machine.execQWaittask q s
  | .qEnd q => Sys2Proof.Machine.execQEnd q s
  | .taskBind task choice => Sys2Proof.Machine.execTaskBind task choice s
  | .taskComplete => Sys2Proof.Machine.execTaskComplete s
  | .commandSubmit => Sys2Proof.Machine.execCommandSubmit s
  | .journalRetry => Sys2Proof.Machine.execJournalRetry s
  | .sliceExpiry => Sys2Proof.Machine.execSliceExpiry s
  | .preemptGraph => Sys2Proof.Machine.execPreemptGraph s
  | .preemptTimeout => Sys2Proof.Machine.execPreemptTimeout s
  | .preemptFull => Sys2Proof.Machine.execPreemptFull s
  | .watchdogLimit => Sys2Proof.Machine.execWatchdogLimit s
  | .invS2Complete seq => Sys2Proof.Machine.execInvS2Complete seq s
  | .pagePull fn gpa => Sys2Proof.Machine.execPagePull fn gpa s
  | .fPulllost fn => Sys2Proof.Machine.execFPulllost fn s
  | .mbLayout => Sys2Proof.Machine.execMbLayout s
  | .mbSave => Sys2Proof.Machine.execMbSave s
  | .mbRestore => Sys2Proof.Machine.execMbRestore s
  | .mbRelease => Sys2Proof.Machine.execMbRelease s
  | .mbS2root => Sys2Proof.Machine.execMbS2root s
  | .mbCodekey => Sys2Proof.Machine.execMbCodekey s
  | .mbHostwin => Sys2Proof.Machine.execMbHostwin s
  | .mbPeer => Sys2Proof.Machine.execMbPeer s
  | .mbPolicy => Sys2Proof.Machine.execMbPolicy s
  | .mbFwact => Sys2Proof.Machine.execMbFwact s
  | .mbAttest => Sys2Proof.Machine.execMbAttest s
  | .mgmtWatchdogReset => Sys2Proof.Machine.execMgmtWatchdogReset s
  | .functionLevelReset fn => Sys2Proof.Machine.execFunctionLevelReset fn s
  | .perstN => Sys2Proof.Machine.execPerstN s
  | .modResetN => Sys2Proof.Machine.execModResetN s
  | .powerOn hostUp boot => Sys2Proof.Machine.execPowerOn hostUp boot s
  | .powerOff cause => Sys2Proof.Machine.execPowerOff cause s
  | .railFault rail => Sys2Proof.Machine.execRailFault rail s
  | .thermtripN => Sys2Proof.Machine.execThermtripN s
  | .throttleUpdate temp power held feldspar => Sys2Proof.Machine.execThrottleUpdate temp power held feldspar s
  | .thrctlWrite group value => Sys2Proof.Machine.execThrctlWrite group value s
  | .pcapWrite value => Sys2Proof.Machine.execPcapWrite value s
  | .flitReceive link flit => Sys2Proof.Machine.execFlitReceive link flit s
  | .linkDown link => Sys2Proof.Machine.execLinkDown link s
  | .uncorrectableError task => Sys2Proof.Machine.execUncorrectableError task s
  | .linkRetrain link => Sys2Proof.Machine.execLinkRetrain link s
  | .perstNRelease => Sys2Proof.Machine.execPerstNRelease s

end Sys2Proof.Machine
end

