-- ==== Sys2Proof/Machine/Fetch.lean ====
section
/-! DEFINITION. What happens next: within a cycle the first thing that is due, in one fixed order (log entry 1); and the end of a cycle, which
makes the reads of the cycle, fetches a line for each core (R46), and starts the next cycle. -/
namespace Sys2Proof.Machine

/-- What is due: an instruction or event, at the machine that says which core, queue or port it is of; or a change of the machine's own. -/
inductive Due where
  | run (m : Mach) (i : Instr)
  | own (s : State)

/-! ### Cores (phases 0 to 13) -/

/-- The domains of the bound cores, and the segments of their quads and dies. -/
def Mach.servedDoms (m : Mach) : List DomRef :=
  (m.active.flatMap fun c => (List.range 55).map (DomRef.core c)) ++
  ((m.active.map quadOf).eraseDups.flatMap fun q => (List.range 16).map (DomRef.quad q)) ++
  (m.active.map dieOf).eraseDups.flatMap fun d => (List.range 32).map (DomRef.die d)

/-- The change of a domain that is due (R115, R118). -/
def Mach.domDue (m : Mach) (d : DomRef) : Option Instr :=
  let x := m.dom d
  let asleep : Option Instr := match x.pend with | some (t, _) => if t ≤ m.now then some (.deferredSleep d) else none | none => none
  match x.st with
  | .waking _ t => if t ≤ m.now then some (.domainOn d) else asleep
  | _ => asleep

/-- A lingering stream to be released (R149). -/
def Mach.lingerDue (m : Mach) (c : Nat) : Option Instr :=
  match (m.core c).bound with
  | some b => b.release.head?.map fun i => .lingerRelease c (nth allStreams i .s)
  | none => none

/-- Whether a copy's completion is due (R304): the cycle after its end. -/
def Core.copyDue (c : Core) (now : Nat) (k : Copy) : Bool :=
  match k.doneAt with
  | some t => t < now && (k.unitsDone || (!k.told && k.timed && (if k.redOwn then !(c.stop.any fun p => p.cyc ≤ t) else k.lastLanded))) &&
      !(k.told && k.chain.isSome && c.mx.chain.isSome)
  | none => false

/-- A copy of a core that completes. Of several whose commands wait for the chain slot the one issued first comes first, which is the model's choice
(log entry 50). -/
def Mach.copyCompleteDue (m : Mach) (c : Nat) : Option Instr :=
  ((m.core c).xe.copies.find? fun k => (m.core c).copyDue m.now k).map fun k => .copyComplete c k.entry

/-- A channel of a core whose watermark fires (R303). -/
def Mach.watermarkDue (m : Mach) (c : Nat) : Option Instr :=
  ((List.range 8).find? fun i => match (m.core c).chan i with
    | some h => (match h.arm with | some (t, _, _, since) => t ≤ h.mark && since ≤ m.now | none => false)
    | none => false).map (.watermarkFire c)

/-- An arrival or completion of a barrier (R147, R214). -/
def Mach.barrierDue (m : Mach) : Option Instr :=
  m.bars.findSome? fun b =>
    match b.coming.find? fun x => x.1 ≤ m.now with
    | some x => some (.barrierArrival x.2 b.ref)
    | none => (b.going.find? fun x => x.1 ≤ m.now).map fun x => .barrierCompletion x.2.1 b.ref

/-- The core of least issue cycle among what lands in this cycle, atomics or not, with that cycle. -/
def Mach.firstOf (m : Mach) (atomic : Bool) : Option (Nat × Nat) :=
  m.active.foldl (fun (a : Option (Nat × Nat)) c => match (m.core c).landSince m.now atomic with
    | none => a
    | some t => match a with
      | some (u, _) => if t < u then some (t, c) else a
      | none => some (t, c)) none

/-- What lands before the streams issue, over all cores by issue cycle (R91); where an atomic is next, those of the lowest core come first (R145).
Then their searches. -/
def Mach.landDue (m : Mach) : Option Due :=
  let atoms := m.active.find? fun c => ((m.core c).firstLanding m.now true).isSome
  let next : Option Nat := match m.firstOf false, m.firstOf true with
    | some a, some b => if b.1 < a.1 then atoms else some a.2
    | some a, none => some a.2
    | none, _ => atoms
  match next with
  | some c => some (.run { m with cur := c } .resultLand)
  | none => (m.active.find? fun c => (m.core c).searches.any ((m.core c).isDue m.now)).map fun c => .run { m with cur := c } .searchPush

/-- A native line of a core that enters the block store (R55). -/
def Mach.lineDue (m : Mach) (c : Nat) : Option Instr :=
  match (m.core c).seq.loading with
  | l :: _ => if (m.core c).seq.loadAt ≤ m.now then some (.lineValidate c l.1 l.2.1 l.2.2) else none
  | [] => none

/-- Whether every stream with a lane in a block has its first lane in its queue (R160). -/
def Core.lanesIn (c : Core) (num : Nat) : Bool :=
  allStreams.all fun st => (c.seq.laneFrom num st 0 0).isNone || 0 < (c.stream st).fill

/-- Whether the head block starts (R57, R160, R161). In the cycle in which a translation hold begins none does, but an absent or rejected one
is tried, whose fault shares the stop (R166). -/
def Core.startDue (c : Core) (now : Nat) : Bool :=
  let holding := match c.hold with | some (t, _) => decide (t ≤ now) | none => false
  c.stop.isNone && (match c.seq.queue with
  | [] => false
  | b :: _ => b.cyc + 2 ≤ now && (c.seq.streams.all fun s => match s.doneAt with | some t => t < now | none => false) &&
      c.seq.validated b.num && (match c.seq.entry b.num with
      | some e => e.rejected.isSome || (!holding && c.lanesIn b.num)
      | none => true))

/-- The head block of a core. -/
def Mach.blockDue (m : Mach) (c : Nat) : Option Instr := if (m.core c).startDue m.now then some .blockStart else none

/-- A retirement at a core's tile port, or a refill to be raised (R266, R341). -/
def Mach.portDue (m : Mach) (c : Nat) : Option Instr :=
  let x := m.core c
  match x.dueTile m.now with
  | some t => some (if t.bad.isEmpty then .tileRetire (.core c) else .tileRecord (.core c))
  | none => ((List.range 8).find? fun r => x.refillDue m.now r).map (.ringRefill c)

/-- A joint operation of a quad that starts (R273), before the members' tile ports, whose rank its reads have (R101; log entry 1). -/
def Mach.jointStartDue (m : Mach) (q : Nat) : Option Instr :=
  if (quadCores q).all fun k => (m.core k).mx.due.isSome && (match (m.core k).mx.joint with | some j => j ≤ m.now | none => false)
  then some (.jointStart q) else none

/-- The instruction of a lane of the current block. -/
def Core.laneAt (c : Core) (line lane : Nat) : Option Instr :=
  c.seq.cur.bind fun b => (c.seq.entry b.num).bind fun e =>
    ((lineItems (c.seq.lineAt (e.first + line))).find? fun it => it.lane == lane).map LineItem.instr

/-- A stream's lane that issues, or tries to, in this cycle (R45). -/
def Mach.laneDue (m : Mach) (c : Nat) (st : Stream) : Option Due :=
  let x := m.core c
  let s := x.stream st
  if x.stop.isNone && x.seq.cur.isSome && s.doneAt.isNone && 0 < s.fill && s.next ≤ m.now then
    (x.laneAt s.line s.lane).map (.run { m with cur := c })
  else none

/-- The load re-issued in the cycle before a restart (R175). -/
def Mach.reissueDue (m : Mach) (c : Nat) : Option Due :=
  match (m.core c).stop with
  | some p => match p.restart, p.reissue with
    | some r, some (line, lane, _) => if r = m.now + 1 then ((m.core c).laneAt line lane).map (.run { m with cur := c }) else none
    | _, _ => none
  | none => none

/-- The command in a core's chain slot (R271). -/
def Mach.chainDue (m : Mach) (c : Nat) : Option Due :=
  let x := m.core c
  if x.mx.chain.isSome && x.stop.isNone && x.mx.chainAt ≤ m.now then some (.run { m with cur := c } .chainIssue) else none

/-- Bytes of the instruction at pc: two or four; none outside the control store (R152), with the address of what lies outside. -/
def Core.fetchCtl (c : Core) : Except Nat (Nat × W32) :=
  let a := c.ctl.pc.toNat
  if a < cstoreBase || cstoreBase + 0x8000 ≤ a + 1 then .error a
  else
    let off := a - cstoreBase
    let lo := c.cstore.value off 2
    if lo % 4 != 3 then .ok (2, BitVec.ofNat 32 lo)
    else if cstoreBase + 0x8000 < a + 4 then .error (a + 2)
    else .ok (4, BitVec.ofNat 32 (c.cstore.value off 4))

/-- Whether the instruction at pc lies on a marked line (R153). -/
def Core.fetchMarked (c : Core) : Bool :=
  match c.fetchCtl with
  | .ok (n, _) => let off := c.ctl.pc.toNat - cstoreBase; c.marked.any fun l => l == off / 32 || l == (off + n - 1) / 32
  | .error _ => false

/-- Whether the control core would fetch from a marked line in this cycle: a stop, or its share of one of this cycle that no fault has caused (R153,
R166). -/
def Core.macStop (c : Core) (now : Nat) : Bool :=
  (c.stop.all fun p => p.cyc == now && p.trap.isNone && p.restart.isNone) && c.ctlReady now && (c.irq now).isNone && c.fetchMarked

/-- The stops of a core that come after the lanes of a cycle: a translation hold (R168), the timer (R166), a marked line (R153), a
pre-emption (R411). -/
def State.stopDue (s : State) (c : Nat) : Option Due :=
  let m := s.m
  let x := m.core c
  let later : Option Due :=
    if x.timerStop m.now then some (.run { m with cur := c } .timerInterrupt)
    else if x.macStop m.now then some (.own (s.stopCore c Mach.boundary (Stop.withTrap 7 ⟨Code.mac, 0, x.ctl.pc⟩)))
    else match x.preempt with
      | some t =>
        if t ≤ m.now then
          let s' := s.stopCore c Mach.boundary fun p => { p with preempt := true }
          some (.own { s' with m := s'.m.modCore c fun x => { x with preempt := none } })
        else none
      | none => none
  match x.hold with
  | some (t, id) =>
    if t ≤ m.now then
      let s' := s.stopCore c Mach.boundary fun p => { p with hold := some id }
      some (.own { s' with m := s'.m.modCore c fun x => { x with hold := none } })
    else later
  | none => later

/-- Whether an XMCAST lane of a core is due. -/
def Mach.multicastDue (m : Mach) (c : Nat) : Bool :=
  match m.laneDue c .x with | some (.run _ (.xmcast _ _)) => true | _ => false

/-- The cores in the order in which a cycle serves their streams: by number (R441), of a quad those with a multicast first, whose bookings at the other
members rank as tile-port staging (R101, R295; log entry 1). -/
def Mach.streamOrder (m : Mach) : List Nat :=
  let casts := m.active.filter m.multicastDue
  if casts.isEmpty then m.active else (m.active.flatMap fun c => (casts.filter fun k => quadOf k == quadOf c) ++ [c]).eraseDups

/-- The stream whose lane of this cycle reads a word of the core scratchpad that the lane of a later stream in this cycle is to write (R93). -/
def Core.staleReader (c : Core) (core now : Nat) : Option Nat :=
  if !c.ctl.dbg.getLsbD 1 then none
  else
    let writes (st : Nat) : List (Nat × Nat) :=
      (c.flight.filter fun r => r.issued == now && st < r.st && r.st < 5 && now < r.w).flatMap (fun r => r.dest.spans core) ++
      (if st < 3 then (c.xe.copies.filter fun k => k.issued == now && k.timed && k.refill.isNone).flatMap fun k =>
          (k.units.flatMap CopyUnit.dst).filterMap fun d => match d.1 with | .pad pd off => if pd = .core core then some (off, d.2) else none | _ => none
        else [])
    let reads (r : Result) : List (Nat × Nat) :=
      if r.issued != now || r.engine then []
      else (r.reads.filterMap fun l => if l.pad = .core core then some (l.off, l.len) else none) ++
        (match r.dest with | .atom _ _ _ _ _ => r.dest.spans core | _ => [])
    let clash (a b : Nat × Nat) : Bool := a.2 != 0 && b.2 != 0 && a.1 / 4 ≤ (b.1 + b.2 - 1) / 4 && b.1 / 4 ≤ (a.1 + a.2 - 1) / 4
    (List.range 5).find? fun st => c.flight.any fun r => r.st == st && (reads r).any fun a => (writes st).any (clash a)

/-- F.STALE at a lane of this cycle, once the core's other lanes have issued (R93). -/
def State.staleDue (s : State) (c : Nat) : Option Due :=
  let x := s.m.core c
  if x.stop.isSome then none
  else (x.staleReader c s.m.now).map fun st => .own (s.stopCore c Mach.boundary (Stop.withTrap st ⟨Code.stale, 0, 0⟩))

/-- What a core does in this cycle in the order of R101: its tile port, the streams S, V, M, the chain slot, X, H, and then its stops. -/
def State.streamsDue (s : State) (c : Nat) : Option Due :=
  ((s.m.portDue c).map (.run { s.m with cur := c })).or <| (s.m.reissueDue c).or ((s.m.laneDue c .s).or ((s.m.laneDue c .v).or ((s.m.laneDue c .m).or ((s.m.chainDue c).or
    ((s.m.laneDue c .x).or ((s.m.laneDue c .h).or ((s.staleDue c).or (s.stopDue c))))))))

/-- What the cores' streams do in this cycle: a core that has begun goes on until it has done all. -/
def State.lanesDue (s : State) : Option Due :=
  (match s.base with
   | some (c, t, _) => if t = s.m.now then s.streamsDue c else none
   | none => none).or (s.m.streamOrder.findSome? s.streamsDue)

/-- Completion signals and retirements of a core's array (R261, R271). -/
def Mach.engineDue (m : Mach) (c : Nat) : Option Instr :=
  let x := m.core c
  if (x.nextSignal m.now).isSome then some .resultLand
  else if x.mx.ops.any fun o => o.retire ≤ m.now && (x.stop.isNone || o.ringB.isNone) then some .arrayRetire else none

/-! ### The control core (phase 14) -/

/-- What the control core of a core does in this cycle (R151, R154, R157). -/
def State.controlDue (s : State) (c : Nat) : Option Due :=
  let m := s.m
  let x := m.core c
  if !x.ctlReady m.now then none
  else match x.irq m.now with
    | some 24 => some (.run { m with cur := c } .coreTrapInterrupt)
    | some 7 => some (.run { m with cur := c } .timerInterrupt)
    | some _ => some (.run { m with cur := c } .eventInterrupt)
    | none => match x.fetchCtl with
      | .error a => some (.own { s with m := m.modCore c fun x => { x with ctl := x.ctl.except 1 a m.now } })
      | .ok (_, w) => if x.fetchMarked then none else some (.run { m with cur := c } (decodeRvTotal w))

/-! ### Queues, P ports and the hub (phases 15 to 17) -/

/-- What a queue does in this engine cycle (R373, R377, R378). -/
def State.queueDue (s : State) (f q : Nat) : Option Due :=
  let m := s.m
  let x := m.queue f q
  if m.resumeDue f q then some (.run { m with curQ := (f, q) } .queueResume)
  else if m.canStart f q then some (.run { m with curQ := (f, q) } .packetStart)
  else match x.pkt with
    | some p =>
      if !m.stepDue f q then none
      else if 256 ≤ p.steps then some (.run { m with curQ := (f, q) } .fBudget)
      else match x.code[p.pc]? with
        | some w => match decodeQueue w with
          | .ok i => some (.run { m with curQ := (f, q) } i)
          | .error _ => some (.own { s with m := m.modQueue f q fun y => { y with wake := m.now + 1 } })
        | none => some (.own { s with m := m.modQueue f q fun y => { y with wake := m.now + 1 } })
    | none => none

/-- The tile instruction submitted at a task's P port (R340). -/
def State.pkgDue (s : State) (t : Task) : Option Due :=
  match t.port.pending with
  | none => none
  | some k => match tileInstr (BitVec.ofNat 5 k.tile.1) k.tile.2 with
    | some i => some (.run { s.m with curP := some t.seq } i)
    | none => some (.own { s with m := s.m.modTask t.seq fun t => { t with port := { t.port with pending := none } } })

/-- A mailbox command's next step (R402, R403). -/
def Mach.mailDue (m : Mach) : Option Instr :=
  if !(m.mgmt.busy && m.mgmt.at_ ≤ m.now) then none
  else match m.mgmt.code with
    | 1 => some .mbLayout
    | 2 => some .mbSave
    | 3 => some .mbRestore
    | 4 => some .mbRelease
    | 5 => some .mbS2root
    | 6 => some .mbCodekey
    | 7 => some .mbHostwin
    | 8 => some .mbPeer
    | 9 => some .mbPolicy
    | 10 => some .mbFwact
    | 11 => some .mbAttest
    | _ => none

/-- What a function's journal, reset or pulls need (R400, R420, R423). -/
def Mach.fnDue (m : Mach) (f : Nat) : Option Instr :=
  if !(m.fn f).waitJ.isEmpty && (m.fn f).retryAt ≤ m.now then some .journalRetry
  else if m.resetDone f then some (.functionLevelReset f)
  else if m.pullLate f then some (.fPulllost f)
  else none

/-- What a task needs of the scheduler (R397, R398, R408 to R411). -/
def Mach.taskDue (m : Mach) (t : Task) : Option Instr :=
  if m.taskOver t then some .taskComplete
  else if m.watchdogDue t then some .watchdogLimit
  else if m.sliceDue t then some .sliceExpiry
  else if t.atBoundary then some .preemptGraph
  else if m.boundaryLate t then some .preemptTimeout
  else if m.toStop t || m.taskSavable t then some .preemptFull
  else if m.submitDue t then some .commandSubmit
  else m.pkgDue t

/-- What the hub does in this cycle. -/
def Mach.hubDue (m : Mach) : Option Due :=
  (m.mailDue.map (.run m)).or (((List.range 25).findSome? fun f => (m.fnDue f).map (.run { m with curQ := (f, 0) })).or
    ((m.hub.tasks.findSome? fun t => (m.taskDue t).map (.run { m with curP := some t.seq })).or
      ((m.hub.invs.find? m.invDone).map fun v => .run m (.invS2Complete v.seq))))

/-! ### Happenings outside the device (phase 18) -/

/-- Whether an event comes from outside the part of the device that the model computes. -/
def Instr.outside : Instr → Bool
  | .walkComplete _ _ | .ldgArrival _ _ | .stgAck _ _ | .atomReturn _ _ | .openRowArrival _ _ _ | .copyRowFault _ _ _ _ _ _
  | .serviceReply _ _ _ | .qnotifyWrite _ _ _ | .queueEnable _ _ | .queueDisable _ _ | .registerWrite _ _ _ | .taskBind _ _
  | .pagePull _ _ | .fPulllost _ | .mgmtWatchdogReset | .functionLevelReset _ | .perstN | .modResetN | .powerOn _ _ | .powerOff _
  | .railFault _ | .thermtripN | .throttleUpdate _ _ _ _ | .thrctlWrite _ _ | .pcapWrite _ | .flitReceive _ _ | .linkDown _
  | .uncorrectableError _ | .linkRetrain _ | .perstNRelease => true
  | .tileRetire (.pkg _) | .tileRecord (.pkg _) => true
  | _ => false

/-- The rank of happenings that fall in one cycle: PERST_N before a function-level reset before all others (R423, R436), and
the power controller's update after them, so that a write to PCAP counts in it (R440). -/
def Instr.outRank : Instr → Nat
  | .perstN => 0
  | .functionLevelReset _ => 1
  | .throttleUpdate _ _ _ _ => 3
  | _ => 2

/-- The next happening of this cycle. -/
def State.inboxDue (s : State) : Option Due :=
  let due := s.m.inbox.filter fun x => x.1 ≤ s.m.now
  let best := due.foldl (fun (a : Option (Nat × Instr)) x => match a with
    | none => some x
    | some y => if Instr.outRank x.2 < Instr.outRank y.2 then some x else some y) none
  best.map fun x =>
    let m := { s.m with inbox := s.m.inbox.erase x }
    if Instr.outside x.2 then .run m x.2 else .own { s with m := m }

/-- The next write of an agent outside that arrives in this cycle (R141). -/
def State.arrivalDue (s : State) : Option Due :=
  (s.m.arrivals.find? fun x => x.1 ≤ s.m.now).map fun x =>
    .own { s with m := { s.m with arrivals := s.m.arrivals.erase x }.arrive x.2 }

/-- A channel that closes (R129). -/
def State.chanDue (s : State) : Option Due :=
  s.m.active.findSome? fun c => ((List.range 8).find? (s.m.core c).chanSettled).map fun n =>
    .own { s with m := s.m.modCore c fun x => x.settleChan n }

/-- A posted boundary of a core that takes effect (R138). -/
def State.boundaryDue (s : State) : Option Due :=
  (s.m.active.find? fun c => ((s.m.core c).boundDue s.m.now).isSome).map fun c => .own { s with m := s.m.takeBound c }

/-! ### The order of a cycle -/

/-- What is due in a phase. -/
def State.phaseDue (s : State) (p : Nat) : Option Due :=
  let m := s.m
  let cores (f : Nat → Option Instr) : Option Due := m.active.findSome? fun c => (f c).map (.run { m with cur := c })
  match p with
  | 0 => (m.servedDoms.findSome? m.domDue).map (.run m)
  | 1 => (s.boundaryDue).or (cores m.lingerDue)
  | 2 => cores m.copyCompleteDue
  | 3 => (s.chanDue).or (cores m.watermarkDue)
  | 4 => m.barrierDue.map (.run m)
  | 5 => m.landDue
  | 6 => none
  | 7 => cores m.lineDue
  | 8 => cores m.blockDue
  | 9 => none
  | 10 => ((m.active.map quadOf).eraseDups.findSome? m.jointStartDue).map (.run m)
  | 11 => s.lanesDue
  | 12 => cores m.engineDue
  | 13 => cores fun c => if (m.core c).frameDue c m.now then some .frameComplete else none
  | 14 => m.active.findSome? s.controlDue
  | 15 => (List.range 25).findSome? fun f => (m.fn f).queues.findSome? fun q => s.queueDue f q.1
  | 16 => m.hub.tasks.findSome? s.pkgDue
  | 17 => m.hubDue
  | _ => s.inboxDue.or s.arrivalDue

/-- The phases of a cycle. -/
def phases : List Nat := List.range 19

/-- What is due next in this cycle, with its phase; none at the end of the cycle. -/
def State.due (s : State) : Option (Nat × Due) :=
  phases.findSome? fun p => if p < s.m.phase then none else (s.phaseDue p).map fun d => (p, d)

/-! ### The end of a cycle -/

/-- The reads of a core's results that fall in this cycle (R6): those of an engine that a stop holds back are not made. -/
def Mach.lateReads (m : Mach) (core : Nat) : Mach :=
  let c := m.core core
  let due (r : Result) (l : LateRead) : Bool :=
    l.cyc ≤ m.now && (match c.stop with | some p => !(r.engine && r.frozen p.cyc && l.frozen p.cyc) | none => true)
  let read (r : Result) : Result := { (r.reads.filter (due r)).foldl (m.doRead core) r with reads := r.reads.filter fun l => !due r l }
  if c.flight.any fun r => r.reads.any (due r) then
    let late := (c.flight.filter fun r => r.reads.any (due r)).map read
    m.modCore core fun c => ({ c with flight := c.flight.map read } : Core).relatch core late.contains
  else m

/-- A line fetched (R46): its lanes enter the queues of their streams, if all have room. -/
def Seq.fetch (q : Seq) (now : Nat) : List FetchJob → Seq
  | [] => { q with jobs := [] }
  | j :: rest =>
    match q.entry j.num with
    | none => Seq.fetch q now rest
    | some e =>
      if !q.validated j.num then { q with jobs := j :: rest }
      else if e.rejected.isSome then Seq.fetch q now rest
      else
        let items := lineItems (q.lineAt (e.first + j.line))
        let n (i : Nat) : Nat := (items.filter fun it => it.st.idx == i).length
        let room := (List.range 5).all fun i => (nth q.streams i StreamSt.idle).fill0 + n i ≤ 32
        if !room then { q with jobs := j :: rest }
        else
          let jobs := if j.line + 1 < e.count then { j with line := j.line + 1 } :: rest
            else if 0 < j.left then { j with line := 0, left := j.left - 1 } :: rest else rest
          { q with jobs := jobs, streams := (List.range 5).map fun i =>
              let s := nth q.streams i StreamSt.idle
              { s with fill := s.fill + n i } }

/-- The fetch of a core in this cycle; a stop halts it. -/
def Core.fetchLine (c : Core) (now : Nat) : Core :=
  if c.stop.isSome || c.seq.jobs.isEmpty then c else { c with seq := c.seq.fetch now c.seq.jobs }

/-- The pennant thresholds of a stream in a trailer, all met (R148, R149, R208). -/
def Core.thresholdsMet (c : Core) (trailer : BitVec 256) (st : Nat) : Bool :=
  (List.range (bits trailer 8 8).toNat).all fun i =>
    let e := bits trailer (32 + 32 * i) 32
    (bits e 29 3).toNat != st || (bits e 0 16).toNat ≤ nth c.scal.pn (bits e 24 4).toNat 0

/-- The streams of an ended task that stop, or are released in the next cycle (R148, R149). -/
def Core.linger (c : Core) (now : Nat) : Core :=
  match c.bound with
  | none => c
  | some b =>
    if b.endStat.isNone || b.left.isEmpty then c
    else
      let ended (st : Nat) : Bool := c.seq.cur.isNone || (match (nth c.seq.streams st StreamSt.idle).doneAt with | some t => t ≤ now | none => false)
      let landed (st : Nat) : Bool := (c.flight.all fun r => r.st != st) && (st != 3 || c.xe.copies.all fun k => !k.open? now && k.unitsDone)
      let inMask (st : Nat) : Bool := b.trailer.getLsbD st
      let stopped (st : Nat) : Bool := inMask st && ended st && landed st
      let left := b.left.filter fun st => !stopped st
      let release := left.filter fun st => !inMask st && ended st && c.thresholdsMet b.trailer st
      { c with bound := some { b with left := left, release := release } }

/-- What a core leaves behind at the end of a cycle: retired tile instructions, loads that are done, and bookings that have passed. -/
def Core.prune (c : Core) (now : Nat) : Core :=
  let kept (t : Nat) (own : Bool) : Bool := now < t || (own && (match c.stop with | some p => p.cyc ≤ t | none => false))
  { c with
    pad := { c.pad with ports := c.pad.ports.filter fun b => kept b.2.1 b.2.2 }
    slots := c.slots.filter fun b => kept b.2.2.1 b.2.2.2
    port := { c.port with tiles := c.port.tiles.filter fun t => !t.gone }
    scal := { c.scal with freed := c.scal.freed.filter fun f => now < f.2 }
    glb := { c.glb with loads := c.glb.loads.filter fun g => match g.doneAt with | some t => now < t | none => true } }

/-- The M progress record taken at the end of a stop's cycle (R276, R281). -/
def Core.noteM (c : Core) (now : Nat) : Core :=
  match c.stop with
  | some p => if p.cyc = now then { c with stop := some { p with mrec := c.recM now } } else c
  | none => c

/-- A core as the cycle `next` begins: its queues' fill and its timer condition are taken (R46, R166). -/
def Core.begin (c : Core) (next : Nat) : Core :=
  { c with
    seq := { c.seq with streams := c.seq.streams.map fun s => { s with fill0 := s.fill } }
    ctl := { c.ctl with tdue := c.ctl.mieBit && (c.mip next &&& c.ctl.mie).getLsbD 7 && !c.ctl.ended } }

/-- A stopped core whose restart cycle is `next` runs again (R175). -/
def Core.unstop (c : Core) (next : Nat) : Core :=
  match c.stop with
  | some p => match p.restart with
    | some r => if r ≤ next then c.restart p.cyc r else c
    | none => c
  | none => c

/-- The wakes of a core that start in cycle `next` (R123, R346). -/
def Mach.startWakes (m : Mach) (next core : Nat) : Mach :=
  let ws := (m.core core).port.wakes
  if ws.all fun w => next < w.1 then m
  else
    let m := (ws.filter fun w => w.1 ≤ next).foldl (fun m w => m.startWake (wakeDom core w.2) next) m
    m.modCore core fun c => { c with port := { c.port with wakes := c.port.wakes.filter fun w => next < w.1 } }

/-- Whether every core of an ended task's core is done with it, so that it leaves its barriers (R29). -/
def Core.leaves (c : Core) : Bool :=
  match c.bound with
  | some b => b.endStat.isSome && b.left.isEmpty && !b.out
  | none => false

/-- The end of a cycle at one core. -/
def Mach.tickCore (m : Mach) (core : Nat) : Mach :=
  let next := m.now + 1
  let m := m.modCore core fun c => (((c.fetchLine m.now).linger m.now).prune m.now).noteM m.now
  let m := if (m.core core).leaves then m.barExit core else m
  let m := m.startWakes next core
  let m := m.modCore core fun c => (c.unstop next).begin next
  match (m.core core).bound with
  | some b => if b.begin = next then m.boundary core 8 else m
  | none => m

/-- The hub's own work at the end of a cycle: entries that wait for room (R400), queues that wait for room for a command (R386), restored
tasks whose domains are ON (R412), and the steps of a bring-up or power-off (R435). -/
def Mach.tickHub (m : Mach) : Mach :=
  let m := (List.range 25).foldl (fun m f => if (m.fn f).roomJ.isEmpty then m else m.drainRoom f) m
  let m := (List.range 25).foldl (fun m f => (m.fn f).queues.foldl (fun m q => if q.2.park == some .launch then m.retryLaunch f q.1 else m) m) m
  let m := m.hub.tasks.foldl (fun m t => if t.state == .restoring && t.killed.isNone && m.restoreReady t then m.finishRestore t else m) m
  if m.module.plan.isEmpty && m.module.outs.isEmpty then m else m.powerDue (m.now + 1)

/-- The end of a cycle: its reads, the fetch of each core, and the start of the next cycle. -/
def tick (s : State) : State :=
  let m := s.m
  let m := m.active.foldl Mach.lateReads m
  let m := m.active.foldl Mach.copyReads m
  let m := m.active.foldl Mach.openPorts m
  let m := m.active.foldl Mach.copySends m
  let m := m.deferSleeps m.servedDoms
  let m := m.active.foldl Mach.tickCore m
  let m := m.tickHub
  { m := { m with now := s.m.now + 1, phase := 0, curP := none, hbm := m.hbm.filter fun b => s.m.now < b.2.2 }, base := none, undo := [] }

/-! ### Placing an instruction where the next step fetches it -/

/-- A bind record with nothing but its task and core. -/
def Bind.plain (core : Nat) : Bind :=
  { task := 0, replica := 0, fn := 0, part := 0, chain := false, wid := 0, widSpec := 0, linear := core, begin := 0, members := [core],
    quads := 1, hslots := 0, tstk := 0, cperiod := 48, origin := 0, pins := [], ownQ := 0, ownD := 0, foot := [], s1root := 0, s2root := 0,
    hostWins := [], peers := [], key := none, trailer := 0x1F, endStat := none, left := [], release := [], out := false, seat := core % 4 }

/-- A line that holds one instruction of a stream in its first lane: its words, with the code of the stream or of a tile instruction. -/
def oneLine (code : Nat) (ws : List W32) : BitVec 256 :=
  let n := ws.length
  let head := code * 2 ^ 4 + ((List.range (n - 1)).foldl (fun a i => a + 6 * 2 ^ (8 + 4 * i)) 0)
  bytesImage 256 ((leBytes 4 head) ++ ws.flatMap fun w => leBytes 4 w.toNat)

/-- Core 0 bound, in the middle of a block of one line whose one lane is due. -/
def Core.onLine (c : Core) (now : Nat) (st : Stream) (line : BitVec 256) : Core :=
  { c with
    bound := some (Bind.plain 0)
    stop := none, hold := none
    ctl := { c.ctl with ended := true }
    seq := { c.seq with
      lines := [(0, line)], dir := [(0, ⟨0, 1, none⟩)], loading := [], queue := [], jobs := [], cur := some ⟨0, 1, now⟩
      streams := allStreams.map fun x =>
        if x = st then { line := 0, lane := 1, rep := 0, next := now, occ := 0, fill := 1, fill0 := 1, doneAt := none }
        else { StreamSt.idle with doneAt := some now } } }

/-- Core 0 bound, its control core ready at `pc` with a word there. -/
def Core.onControl (c : Core) (now : Nat) (w : W32) : Core :=
  { c with
    bound := some (Bind.plain 0)
    stop := none, hold := none, marked := []
    cstore := c.cstore.writeBlock (c.ctl.pc.toNat - cstoreBase) (leBytes 4 w.toNat)
    ctl := { c.ctl with ended := false, ready := now, wait := none, ctip := false, tdue := false, mie := 0 } }

/-- The machine with core 0 as the only bound core, changed by `f`, and nothing else due. -/
def State.onlyCore (s : State) (f : Core → Core) : State :=
  { m := { s.m with phase := 11, active := [0], cores := s.m.cores.set 0 (f (s.m.core 0)) }, base := none, undo := [] }

/-- Queue 0 of function 0 with a packet at a one-word program. -/
def State.onQueue (s : State) (w : W32) : State :=
  let q : Queue := { Queue.reset with
    en := true, state := .run, wake := s.m.now, code := [w],
    pkt := some { index := 0, pc := 0, steps := 0, loop := none, tx := none, rearm := false } }
  { m := { s.m.modFn 0 fun x => { x with queues := [(0, q)], paused := false } with phase := 15 }, base := none, undo := [] }

/-- A command-block task whose P port has a tile instruction submitted. -/
def State.onPort (s : State) (words : BitVec 128) : State :=
  let t : Task :=
    { seq := 0, num := 0, pulls := [], fn := 0, queue := 0, part := 0, prio := 0, native := false, ver := 2, repl := 1, iter := 0, widSpec := 0, image := 0,
      imgLen := 0, tokens := 0, csig := 0, card := 0, regions := [], edges := [], state := .bound, cores := [], boundAt := 0, ran := 0,
      killed := none, killers := [], preempt := none,
      port := { PPort.reset with pending := some { seqNo := 0, index := 0, words := words, resume := 0, path := 0, endAt := none, bar := false } },
      saved := [], segs := [], barriers := [], savedAt := 0 }
  { m := { s.m with phase := 16, hub := { s.m.hub with tasks := [t] } }, base := none, undo := [] }

/-- An instruction of the table stored where the machine fetches its next one, with all that this takes (log entry 27). -/
def State.placeWord (s : State) (nbits w : Nat) : State :=
  let w32 (i : Nat) : W32 := BitVec.ofNat 32 (w / 2 ^ (32 * i))
  match decodeTableWord nbits w with
  | none => s.onlyCore fun c => c.onControl s.m.now (w32 0)
  | some i => match i.lane? with
    | some (st, _, l, _) =>
      s.onlyCore fun c => c.onLine s.m.now st (oneLine (st.idx + 1) (if Lane.long l then [w32 0, w32 1] else [w32 0]))
    | none => match i.tile? with
      | some (_, _) =>
        if (nativeTileFails (w32 0) (w32 1)).isEmpty then s.onlyCore fun c => c.onLine s.m.now .s (oneLine 7 [w32 0, w32 1, w32 2, w32 3])
        else s.onPort (BitVec.ofNat 128 w)
      | none => match i.queue? with
        | some _ => s.onQueue (w32 0)
        | none => s.onlyCore fun c => c.onControl s.m.now (w32 0)

end Sys2Proof.Machine
end

