-- ==== Sys2Proof/Machine/Step.lean ====
section
/-! DEFINITION. One step: what is due next happens, or, with nothing due, the cycle ends. -/
namespace Sys2Proof.Machine

/-- One step. -/
def step (s : State) : Host.Outcome State Fault Refusal :=
  match s.due with
  | none => .next (tick s)
  | some (p, .run m i) => exec i { s with m := { m with phase := p } }
  | some (p, .own s') => .next { s' with m := { s'.m with phase := p } }

/-- The state with an instruction of the table where `step` fetches its next one. -/
def State.withFetchWord (s : State) (nbits w : Nat) : State := s.placeWord nbits w

end Sys2Proof.Machine
end

