-- ==== Sys2Proof/Safety.lean ====
section
/-! DEFINITION. What counts as a safe run, and the terms in which claims speak of a lane that issues: every step of a safe run answers a next
state. No meaning of this model ends in a fault or a refusal, so a run that is not safe is one that met an instruction rejected by name. -/
namespace Sys2Proof

/-- Whether an outcome is a next state. -/
def isNext {σ φ ρ : Type} : Host.Outcome σ φ ρ → Bool
  | .next _ => true
  | .fault _ => false
  | .refused _ => false

/-- Whether a step at a state answers a next state. -/
def Machine.State.safe (s : Machine.State) : Prop := ∃ t, Machine.step s = .next t

/-- The states reached from a state by steps. -/
inductive Machine.Run (s : Machine.State) : Machine.State → Prop where
  | here : Machine.Run s s
  | step {t u : Machine.State} : Machine.Run s t → Machine.step t = .next u → Machine.Run s u

/-- A run is safe: no state reached stops. -/
def Machine.State.safeRun (s : Machine.State) : Prop := ∀ t, Machine.Run s t → t.safe

end Sys2Proof

namespace Sys2Proof.Machine

/-! ### Lanes that issue (R45, R54, R191, R202) -/

/-- The state after a lane of stream `st` of the core being served issued: the machine `m` with its effect, the stream moved on, `busy`
cycles occupied beyond the first, and the machine before the core's lanes of this cycle kept (R45, R167). -/
def State.issued (s : State) (st : Stream) (busy : Nat) (m : Mach) : State :=
  { m := m.modMe fun c => c.laneDone st m.now busy, base := some (s.m.cur, s.m.now, s.restorePoint s.m.cur), undo := s.undo }

/-- An S lane with the use `u` issues in this cycle: no acquire holds the stream, its predicate is true, its queues hold what it pops, no
register it reads or writes is pending, no value it reads is stale in debug mode, and it meets no hold and no fault. -/
def SReady (m : Mach) (l : Lane) (u : SUse) : Prop :=
  m.me.sBlocked m.now = false ∧ m.me.preg l.p.toNat = true ∧ u.held = false ∧ m.me.popsReady u.pops = true ∧
  (u.regs ++ u.wr).any (m.me.pending m.now) = false ∧
  m.staleTraps u.own (.p l.p.toNat :: (u.regs.map Loc.s ++ u.locs)) = [] ∧ u.traps = []

/-- The state after an S lane that popped its queues issued with the effect `m`. -/
def State.issuedS (s : State) (u : SUse) (m : Mach) : State :=
  s.issued .s 0 (m.modMe fun c => c.popAll s.m.now u.pops)

/-- A V lane that uses lane clusters `ks` and `u` issues and writes something: its mask selects a lane, the clusters are ON and free of
tile instructions, and it meets no hold and no fault. -/
def VReady (m : Mach) (l : Lane) (ks : List Nat) (u : VUse) : Prop :=
  m.me.mreg l.p.toNat ≠ 0 ∧ u.held = false ∧ u.regs.any (m.me.pending m.now) = false ∧
  m.staleTraps [] [.m l.p.toNat] = [] ∧ m.staleTraps u.own (u.regs.map Loc.s ++ u.locs) = [] ∧
  m.lcTraps ks = [] ∧ u.traps = []

/-- An M lane with the use `u` issues: MX is ON, and it meets no hold and no fault. -/
def MReady (m : Mach) (u : MUse) : Prop :=
  u.held = false ∧ u.regs.any (m.me.pending m.now) = false ∧
  m.staleTraps u.own (u.regs.map Loc.s ++ u.locs) = [] ∧ m.sleepTraps [.core m.cur mxBit] = [] ∧ u.traps = []

/-- An X lane with the use `u` issues: XE is ON, and it meets no hold and no fault. -/
def XReady (m : Mach) (u : XUse) : Prop :=
  u.held = false ∧ u.regs.any (m.me.pending m.now) = false ∧
  m.staleTraps [] (u.regs.map Loc.s) = [] ∧ m.sleepTraps [.core m.cur xeBit] = [] ∧ u.traps = []

/-- An H lane with the use `u` issues and writes something: its mask selects a bit, HV is ON, and it meets no hold and no fault. -/
def HReady (m : Mach) (l : Lane) (u : HUse) : Prop :=
  m.me.mreg l.p.toNat ≠ 0 ∧ u.held = false ∧ u.regs.any (m.me.pending m.now) = false ∧
  m.staleTraps [] [.m l.p.toNat] = [] ∧ m.staleTraps u.own (u.regs.map Loc.s ++ u.locs) = [] ∧
  m.sleepTraps [.core m.cur hvBit] = [] ∧ u.traps = []

/-! ### Instructions of the control core that complete (R154) -/

/-- The state after an instruction of the control core that completed in `cycles` cycles with the effect `m`: the pc at `next`, one more
instruction counted. -/
def State.completed (s : State) (m : Mach) (next : W64) (cycles : Nat) : State :=
  { s with m := m.modCtl fun c => { c with pc := next, ready := s.m.now + cycles, wait := none, minstret := c.minstret + 1 } }

/-- The state after an instruction of the control core that raised a synchronous exception (R154, R157). -/
def State.excepted (s : State) (cause : Nat) (tval : W64) : State :=
  { s with m := s.m.modCtl fun c => c.except cause tval.toNat s.m.now }

/-! ### Steps of a queue (R376 to R379) -/

/-- The queue being served. -/
def Mach.servedQueue (m : Mach) : Queue := m.queue m.curQ.1 m.curQ.2

/-- The state after a step of the queue being served whose packet goes on, with the effect `m`: the packet one step on, at the next instruction
or at `jump`, the next step in the next cycle, the queue parked where an entry of its own waits for room. -/
def State.stepped (s : State) (m : Mach) (jump : Option Nat) : State :=
  { s with m := m.modQueue s.m.curQ.1 s.m.curQ.2 fun x => { x with
      pkt := x.pkt.map fun p => p.step jump, wake := s.m.now + 1
      park := if (m.fn s.m.curQ.1).entryWaits s.m.curQ.2 then some .journal else none } }

/-- The state after a step that parked the queue being served, its packet to go on at the next instruction. -/
def State.parkedStep (s : State) (m : Mach) (why : Park) : State :=
  { s with m := m.modQueue s.m.curQ.1 s.m.curQ.2 fun x => { x with
      pkt := x.pkt.map fun p => p.step none, wake := s.m.now + 1, park := some why } }

end Sys2Proof.Machine
end

