-- ==== Sys2Proof/WellFormed.lean ====
section
/-! DEFINITION. Well-formed instructions: the operand fields an encoding admits (R36 to R55, R271, R334, R375). -/
namespace Sys2Proof

/-- A chained command by its words: an MMA, MMAI, MMAD or MMAS lane with D = 0 that passes its own checks (R271, R292). -/
def ChainCmd.wf (c : ChainCmd) : Bool := (chainFails c).isEmpty

/-- A lane of stream `st` with opcode `op`: the checks of R55 on its fields hold, and a chained command stands exactly where CH
asks for one (R289). -/
def Lane.wf (st : Stream) (op : BitVec 7) (l : Lane) (ch : Option ChainCmd) : Bool :=
  (laneFails st op l).isEmpty &&
  (if wantsChain st op l then (match ch with | some c => c.wf | none => false) else ch.isNone)

/-- A tile instruction: its level and version are assigned (R334). -/
def Tile.wf (t : Tile) : Bool := t.lvl.toNat ≤ 4 && (t.ver == 1 || t.ver == 2)

/-- A standard instruction that has an encoding with these operands. -/
def Rv.wf : Rv → Bool
  | .jal _ off => !off.getLsbD 0
  | .branch _ _ _ off => !off.getLsbD 0
  | .load w s _ _ _ => w != .d || s
  | .aluImm op _ _ imm => op != .sub && (!(op == .sll || op == .srl || op == .sra) || imm.toNat < 64)
  | .aluImmW op _ _ imm => op == .add || ((op == .sll || op == .srl || op == .sra) && imm.toNat < 32)
  | .aluW op _ _ _ => op == .add || op == .sub || op == .sll || op == .srl || op == .sra
  | .mulW op _ _ _ => op != .mulh && op != .mulhsu && op != .mulhu
  | .csr op rd src num => csrInstr op rd src num == .rv64Instruction ⟨.csr op rd src num, false⟩
  | .illegal _ => false
  | _ => true

/-- Whether a CSR instruction writes: its source is not x0, or it is csrrw (Zicsr). -/
def csrChanges (op : CsrOp) (src : CsrSrc) : Bool := op == .rw || (match src with | .reg r => r != 0 | .imm v => v != 0)

/-- A power domain that exists (R110); from 96 on, the cores of a task whose lingering streams hold domains (R150). -/
def DomRef.wf : DomRef → Bool
  | .core n b => n < 192 && b < 55
  | .quad n s => n < 24 && s < 16
  | .die n s => n < 4 && s < 32

/-- The instruction is well formed. Events are well formed when what they name exists. -/
def Instr.wf (i : Instr) : Bool :=
  match i.lane? with
  | some (st, op, l, ch) => Lane.wf st op l ch && laneInstr st op l ch == some i
  | none => match i.tile? with
    | some (_, t) => t.wf
    | none => match i.queue? with
      | some (op, q) => (queueFails op q).isEmpty && queueInstr op q == some i
      | none => match i with
        | .rv64Instruction r => r.op.wf
        | .cphase s => s.toNat ≤ 8
        | .cfence s => s.toNat ≤ 8
        | .nflagsWrite op _ src => csrChanges op src
        | .dbgctlWrite op _ src => csrChanges op src
        | .ctimecmpWrite op _ src => csrChanges op src
        | .cbankWrite _ op _ src => csrChanges op src
        | .lineValidate c i _ _ => c < 192 && i < 8192
        | .walkComplete c _ | .ldgArrival c _ | .stgAck c _ | .atomReturn c _ => c < 192
        | .domainOn d | .deferredSleep d => d.wf
        | .jointStart q => q < 24
        | .ringRefill c r => c < 192 && r < 8
        | .copyComplete c e => c < 192 && e < 64
        | .openRowArrival c e _ | .copyRowFault c e _ _ _ _ => c < 192 && e < 64
        | .watermarkFire c h => c < 192 && h < 8
        | .barrierArrival c _ | .barrierCompletion c _ | .lingerRelease c _ | .serviceReply c _ _ => c < 192
        | .qnotifyWrite f q _ | .queueEnable f q | .queueDisable f q =>
            f < 25 && q < 64
        | .registerWrite f _ _ => f < 25
        | .pagePull f _ | .fPulllost f | .functionLevelReset f => f < 25
        | .thrctlWrite g _ => g < 4
        | .powerOn _ b => b.err.toNat ≤ 5 && (b.err != 0 || (b.hwid == 1 || b.hwid == 2 || b.hwid == 4) && 5 ≤ b.hgen.toNat && b.hgen.toNat ≤ 7)
        | .railFault r => r < 21 && r != 19
        | .flitReceive l _ | .linkDown l | .linkRetrain l => l < 16
        | _ => true

end Sys2Proof
end

