-- ==== Sys2Proof/Certificates/Slice0/Obligations.lean ====
section
/-! DEFINITION. The statements for the provers. Each says what its docstring says; the tables before them name the instructions that a
statement speaks of, each with what the spec says it computes. -/
open Sys2Proof Sys2Proof.Machine

/-! ### The S stream -/

/-- S arithmetic by instruction: the latency, whether a literal B is unsigned, and the value with its flags from the operand values
(R193 to R196). -/
def Claims.scalarOps (l : Lane) : List (Instr × Nat × Bool × (W64 → W64 → W64 × Flags)) :=
  let wrap (x : Int) : W64 × Flags :=
    if l.sat then
      (BitVec.ofInt 64 (max (-2 ^ 63) (min x (2 ^ 63 - 1))), Flags.when (decide (x < -2 ^ 63 ∨ 2 ^ 63 ≤ x)) Flags.isat)
    else (BitVec.ofInt 64 x, 0)
  [(.sAdd l, 1, false, fun a b => wrap (a.toInt + b.toInt)),
   (.sSub l, 1, false, fun a b => wrap (a.toInt - b.toInt)),
   (.sMul l, 3, false, fun a b => wrap (a.toInt * b.toInt)),
   (.sMulh l, 3, false, fun a b => (BitVec.ofInt 64 (match l.fn.toNat with
     | 0 => a.toInt * b.toInt / 2 ^ 64
     | 1 => (a.toNat : Int) * b.toNat / 2 ^ 64
     | _ => a.toInt * b.toNat / 2 ^ 64), 0)),
   (.sDivq l, 18, false, fun a b => (match l.fn.toNat with
     | 0 => if b = 0 then -1 else BitVec.ofInt 64 (a.toInt.tdiv b.toInt)
     | 1 => if b = 0 then -1 else BitVec.ofNat 64 (a.toNat / b.toNat)
     | 2 => if b = 0 then a else BitVec.ofInt 64 (a.toInt.tmod b.toInt)
     | _ => if b = 0 then a else BitVec.ofNat 64 (a.toNat % b.toNat), 0)),
   (.sAnd l, 1, false, fun a b => (a &&& b, 0)),
   (.sOr l, 1, false, fun a b => (a ||| b, 0)),
   (.sXor l, 1, false, fun a b => (a ^^^ b, 0)),
   (.sShl l, 1, true, fun a b => (BitVec.ofNat 64 (a.toNat * 2 ^ (b.toNat % 64)), 0)),
   (.sShr l, 1, true, fun a b => (BitVec.ofNat 64 (a.toNat / 2 ^ (b.toNat % 64)), 0)),
   (.sSra l, 1, true, fun a b => (BitVec.ofInt 64 (a.toInt / 2 ^ (b.toNat % 64)), 0)),
   (.sMin l, 1, false, fun a b => (if l.fn = 0 then (if a.toInt ≤ b.toInt then a else b) else if a.toNat ≤ b.toNat then a else b, 0)),
   (.sMax l, 1, false, fun a b => (if l.fn = 0 then (if a.toInt ≤ b.toInt then b else a) else if a.toNat ≤ b.toNat then b else a, 0))]

/-- S arithmetic issues (R193 to R196): where the lane is ready, the next state is the machine with the value the rule gives put in flight to
the destination, due after the latency of R193, and with the queues popped; nothing else of the machine changes but the stream's place. -/
def Obligations.ScalarArithmeticCompletes : Prop :=
  ∀ (s : State) (l : Lane) (i : Instr) (lat : Nat) (unsig : Bool) (f : W64 → W64 → W64 × Flags),
    (i, lat, unsig, f) ∈ Claims.scalarOps l →
    SReady s.m l (SUse.ops [s.m.me.sA l, s.m.me.sB l unsig] l.dst.toNat) →
    exec i s = .next (s.issuedS (SUse.ops [s.m.me.sA l, s.m.me.sB l unsig] l.dst.toNat)
      (s.m.write .s lat (.s l.dst (f (s.m.me.sA l).val (s.m.me.sB l unsig).val).1) (f (s.m.me.sA l).val (s.m.me.sB l unsig).val).2))

/-- Moves, selects, compares and reads of the machine's state by the S stream: what each uses, and the result it puts in flight for the next
cycle (R88, R196 to R199, R218, R219). -/
def Claims.scalarMoves (l : Lane) (m : Mach) : List (Instr × Lane × SUse × Dest) :=
  let c := m.me
  let a := (c.sA l).val
  let b := (c.sB l false).val
  [(.sMovi l, l, SUse.ops [] l.dst.toNat, .s l.dst (BitVec.ofInt 64 (if l.long then l.imm.toInt else l.b.toInt))),
   (.sMoviH l, l, { SUse.ops [] l.dst.toNat with regs := [l.dst.toNat] }, .s l.dst (setChunk (c.sreg l.dst.toNat) l.fn.toNat l.imm)),
   (.sSel l, { l with p := 0 }, { SUse.ops [c.sA l, c.sB l false] l.dst.toNat with locs := [.p l.p.toNat] },
      .s l.dst (if c.preg l.p.toNat then a else b)),
   (.sCmp l, l, { SUse.ops [c.sA l, c.sB l false] 0 with wr := [], own := [.p (l.dst.toNat % 8)] }, .p (l.dst.setWidth 3) (match l.fn.toNat with
      | 0 => a == b
      | 1 => a != b
      | 2 => a.toInt < b.toInt
      | 3 => b.toInt ≤ a.toInt
      | 4 => a.toNat < b.toNat
      | _ => b.toNat ≤ a.toNat)),
   (.sPset l, l, useSPset l m, .p (l.dst.setWidth 3) (match l.fn.toNat with
      | 0 => c.preg (l.a.toNat % 8) && c.preg (l.b.toNat % 8)
      | 1 => c.preg (l.a.toNat % 8) || c.preg (l.b.toNat % 8)
      | 2 => c.preg (l.a.toNat % 8) != c.preg (l.b.toNat % 8)
      | 3 => c.preg (l.a.toNat % 8) && !c.preg (l.b.toNat % 8)
      | 4 => c.preg (l.a.toNat % 8) || !c.preg (l.b.toNat % 8)
      | _ => c.sreg l.a.toNat != 0)),
   (.sRdwid l, l, SUse.ops [] l.dst.toNat, .s l.dst (match c.bound with
      | none => 0
      | some x => if l.kb = 0 then x.wid else widField x.widSpec x.wid l.litU)),
   (.sPdq l, l, SUse.ops [] l.dst.toNat, .s l.dst (m.powerReg m.cur l.litU))]

/-- S moves, selects, compares and reads issue: where the lane is ready, the next state is the machine with the result of the table put in
flight for the next cycle, without a flag, and with the queues popped. -/
def Obligations.ScalarMovesComplete : Prop :=
  ∀ (s : State) (l : Lane) (i : Instr) (k : Lane) (u : SUse) (d : Dest), (i, k, u, d) ∈ Claims.scalarMoves l s.m →
    SReady s.m k u → exec i s = .next (s.issuedS u (s.m.write .s 1 d 0))

/-- A format register is read and written through BKFMT (R88, R219): where the lane is ready, .get puts the register named by A in flight to
DST and .set puts FMT and CLASS of B in flight to the register named by A, both for the next cycle. -/
def Claims.FormatRegistersComplete : Prop :=
  ∀ (s : State) (l : Lane) (p : Pad) (n : Nat), s.m.fmtSelect (s.m.me.sreg l.a.toNat) = some (p, n) →
    (SReady s.m l (useSBkfmtGet l s.m) → exec (.sBkfmtGet l) s = .next (s.issuedS (useSBkfmtGet l s.m)
      (s.m.write .s 1 (.s l.dst ((s.m.fmtReg p n).setWidth 64)) 0))) ∧
    (SReady s.m l (useSBkfmtSet l s.m) → exec (.sBkfmtSet l) s = .next (s.issuedS (useSBkfmtSet l s.m)
      (s.m.write .s 1 (.fmt p.code n (bits (s.m.me.sreg l.b.toNat) 0 5) ((s.m.me.sreg l.b.toNat).getLsbD 13)) 0)))

/-- Loads and stores of the S stream (R200 to R203), where the lane is ready. LD of a core offset puts its bytes, extended as FN says, in
flight for 4 cycles; LD and ST of the other levels and ST of a core offset put the access in flight on the cycles of its route; LDG is sent, and STG
where the micro-TLB has its page, a miss holding the lane while it is walked; a post-increment form puts the base register's new value in flight as well. -/
def Obligations.ScalarMemoryCompletes : Prop :=
  ∀ (s : State) (l : Lane),
    let m := s.m
    let c := m.me
    let ea := Lane.address c l
    let n := accessBytes l.fn
    let lvl := modeLvl l.b
    let rt := m.readTiming m.cur lvl ea 1 m.now
    let wt := m.writeTiming m.cur lvl ea 1 m.now
    (SReady m l (useSLd l m) → lvl = 0 → exec (.sLd l) s = .next (s.issuedS (useSLd l m)
      (((m.bookTiming m.cur lvl false rt).writeBase (Lane.postInc c l)).modMe fun c => c.fly
        { m.result .s 4 (.s l.dst (extendLoad n (accessSigned l.fn) ((m.padMem (.core m.cur)).value ea n))) 0 with
          src := some (.pad (padAt m.cur lvl) ea) }))) ∧
    (SReady m l (useSLd l m) → lvl ≠ 0 → exec (.sLd l) s = .next (s.issuedS (useSLd l m)
      (((m.bookTiming m.cur lvl false rt).writeBase (Lane.postInc c l)).modMe fun c => c.fly
        { m.gathered .s (padAt m.cur lvl) ea n rt (.sLoad l.dst n (accessSigned l.fn)) with src := some (.pad (padAt m.cur lvl) ea) }))) ∧
    (SReady m l (useSSt l m) → exec (.sSt l) s = .next (s.issuedS (useSSt l m)
      (((m.bookTiming m.cur lvl true wt).writeBase (Lane.postInc c l)).modMe fun x => x.fly
        { m.result .s 0 (.pad (padAt m.cur lvl) (atAddr ea (leBytes n (c.sreg l.dst.toNat).toNat))) 0 with
          w := maxOf wt.data, dep := if lvl = 0 then none else some m.now }))) ∧
    (SReady m l (useSLdg l m) → exec (.sLdg l) s = .next (s.issuedS (useSLdg l m)
      ((m.issueLoad l ea n (accessSigned l.fn) none none).writeBase (Lane.postInc c l)))) ∧
    (SReady m l (useSStg l m) → ∀ pa, c.tlbHit ea .write = some pa → exec (.sStg l) s = .next (s.issuedS (useSStg l m)
      ((m.modMe fun x => { x with glb := { x.glb with
          writes := x.glb.writes ++ [{ id := x.glb.nextId, bytes := atAddr pa (leBytes n (c.sreg l.dst.toNat).toNat), stg := true,
                                       acked := false, dead := false, pub := none, pubNo := 0, fresh := true, issued := m.now,
                                       gpas := (c.tlbPages ea).toList }],
          nextId := x.glb.nextId + 1, walks := x.glb.walks.filter fun w => w.va != ea } }).writeBase (Lane.postInc c l)))) ∧
    (SReady m l (useSStg l m) → c.tlbHit ea .write = none →
      let glb : Glb := match c.stgWalk ea with
        | none => { c.glb with nextId := c.glb.nextId + 1, walks :=
            { id := c.glb.nextId, va := ea, write := true, atomic := false, done := false, fault := none } :: c.glb.walks }
        | some w => if w.done then { c.glb with walks := c.glb.walks.filter fun x => x.id != w.id } else c.glb
      exec (.sStg l) s = .next { m := m.modMe fun x => (({ x with glb := glb } : Core).backToLoad m.now).modStream .s fun x => { x with next := m.now + 1 },
                                 base := some (m.cur, m.now, s.restorePoint m.cur), undo := s.undo })

/-- ATOM (R143, R146, R204, R205). Where the lane is ready and, with REL, the boundary of its scope took effect in an earlier cycle, it issues: on a core
offset its port cycles are booked at issue and issue + 2, it acts on the location at issue + 2 and its old value is at DST at issue + 4; on a quad or die
offset, and on a global address of a pinned window, it goes by the slots of its route and its old value is at DST 2 cycles after it is back at the core;
on any other global address it is sent as an open-class request. With ACQ a timed one holds the S stream until the cycle after its old value is at DST.
With REL before that boundary the lane is held, and in the first cycle in which the core is quiet the boundary takes effect and its cycle is kept. -/
def Obligations.AtomCompletes : Prop :=
  ∀ (s : State) (l : Lane), SReady s.m l (useSAtom l s.m) →
    let c := s.m.me
    let a := Lane.atomOp c l
    let ea := (c.sreg l.a.toNat).toNat
    let n := if a.w64 then 8 else 4
    let acq := if l.imm.getLsbD 10 then some (atomScope l) else none
    let pin := c.bound.bind fun b => b.pin ea n
    let m := s.m.modMe fun c => { c with scal := { c.scal with rel := (none, c.scal.rel.2) } }
    let sent (m : Mach) (pl : Place) (dep : Option Nat) (land ret : Nat) : State := s.issuedS (useSAtom l s.m) (m.modMe fun c =>
      let c := c.fly { m.result .s 0 (.atom pl a l.dst ret acq) 0 with w := land, dep := dep }
      if acq.isSome then { c with scal := { c.scal with block := some (ret + 1) } } else c)
    (l.imm.getLsbD 11 = false ∨ (∃ t, c.scal.rel.1 = some t ∧ t < s.m.now) →
      (atomLevel l = 1 → exec (.sAtom l) s = .next (sent (m.modMe fun c => c.bookPorts [(groupOf ea, m.now), (groupOf ea, m.now + 2)])
        (.pad (.core m.cur) ea) none (m.now + 2) (m.now + 4))) ∧
      (∀ k r, atomLevel l = k + 2 → m.atomRoute true m.cur (lvlReach (k + 1)) m.now = some r →
        exec (.sAtom l) s = .next (sent r.1 (.pad (padAt m.cur (k + 1)) ea) (some m.now) r.2.2.1 (r.2.2.2 + 2))) ∧
      (∀ w r, atomLevel l = 0 → pin = some w → m.atomRoute true m.cur (m.hbmReach m.cur (w.pbase + (ea - w.vbase))) m.now = some r →
        exec (.sAtom l) s = .next (sent r.1 (.dev (w.pbase + (ea - w.vbase))) (some m.now) r.2.2.1 (r.2.2.2 + 2))) ∧
      (atomLevel l = 0 → pin = none →
        exec (.sAtom l) s = .next (s.issuedS (useSAtom l s.m) (m.issueLoad l ea n (!a.unsig) (some a) acq)))) ∧
    (l.imm.getLsbD 11 = true → c.scal.rel.1 = none → c.quiet (atomScope l) s.m.now = true →
      let m' := (s.m.boundary s.m.cur (atomScope l)).modMe fun c => { c with scal := { c.scal with rel := (some s.m.now, c.scal.rel.2) } }
      exec (.sAtom l) s = .next { m := m'.modMe fun c => (c.backToLoad m'.now).modStream .s fun x => { x with next := m'.now + 1 },
                                  base := some (s.m.cur, s.m.now, s.restorePoint s.m.cur), undo := s.undo })

/-- Queue, semaphore, pennant, fence, phase, ring and tile-wait lanes of the S stream: what each uses and the machine after its effect
(R206 to R211, R216). -/
def Claims.scalarSync (l : Lane) (m : Mach) : List (Instr × SUse × Mach) :=
  let c := m.me
  let count := if l.kb = 0 then [l.b.toNat] else []
  [(.sQpush l, { SUse.none with regs := (c.qpushOp l).regs, held := c.qFree m.now l.dst.toNat == 0 },
      m.write .s 1 (.q (l.dst.setWidth 3) (c.qpushOp l).val) 0),
   (.sSemw l, { SUse.none with regs := count, held := decide (c.semCount l.dst.toNat < c.sCount l) },
      m.modMe fun c => c.setSem l.dst.toNat (c.semCount l.dst.toNat - c.sCount l)),
   (.sSems l, { SUse.none with regs := count },
      m.modMe fun c => c.setSem l.dst.toNat (min 65535 (c.semCount l.dst.toNat + c.sCount l))),
   (.sPnwait l, { SUse.none with held := decide (nth c.scal.pn l.dst.toNat 0 < l.litU % 65536) },
      m.modMe fun c => { c with scal := { c.scal with pn := c.scal.pn.modify l.dst.toNat fun x => x - l.litU % 65536 } }),
   (.sFence l, { SUse.none with held := !m.fenceReady m.cur true (l.a.toNat % 16) l.fn.toNat m.now }, m),
   (.sPhase l, { SUse.none with held := !c.quiet (l.a.setWidth 4) m.now },
      (m.boundary m.cur (l.a.setWidth 4)).modMe fun c => { c with scal := { c.scal with phase := some (m.now, l.a.setWidth 4) } }),
   (.sRingset l, useSRingset l m, m.write .s 1 (.ring (l.dst.setWidth 3) (c.sreg l.a.toNat) (c.sreg l.b.toNat)) 0),
   (.sTjoin l, useSTjoin l m, m)]

/-- The synchronising lanes of the S stream issue, where they are ready, with the effect of the table (R206 to R211, R216). -/
def Claims.ScalarSyncCompletes : Prop :=
  ∀ (s : State) (l : Lane) (i : Instr) (u : SUse) (m' : Mach), (i, u, m') ∈ Claims.scalarSync l s.m →
    s.m.cur < s.m.cores.length → SReady s.m l u → exec i s = .next (s.issuedS u m')

/-- The barrier lanes (R147, R212 to R214): where they are ready, BAR.init and BAR.initt set EXPECT and the tracking of members, BAR.join
and BAR.leave change the members, BAR.arr performs the boundary of its scope and sends its arrival on its way, and BAR.wait issues once the
completion of the core's last arrival has reached it, with the boundary of its scope where the core had arrived at all. That BAR.wait has its boundary at
its own issue also where the generation had completed before, and that a second BAR.arr is held until the completion has reached the core, are the model's
choices (log entry 73). -/
def Claims.BarriersComplete : Prop :=
  ∀ (s : State) (l : Lane),
    let m := s.m
    let ref := Lane.barRef m l
    (SReady m l (useSBarInit l m) → exec (.sBarInit l) s = .next (s.issuedS (useSBarInit l m)
      (m.changeBar ref fun b => { b with expect := m.me.sCount l, track := false }))) ∧
    (SReady m l { SUse.none with held := (m.bar ref).arrived != 0 } → exec (.sBarInitt l) s = .next (s.issuedS SUse.none
      (m.changeBar ref fun b => { b with track := true, expect := b.members.length }))) ∧
    (SReady m l SUse.none → exec (.sBarJoin l) s = .next (s.issuedS SUse.none (m.changeBar ref (Barrier.join m.cur)))) ∧
    (SReady m l SUse.none → exec (.sBarLeave l) s = .next (s.issuedS SUse.none (m.changeBar ref (Barrier.leave m.cur)))) ∧
    (SReady m l { SUse.none with held := !m.me.quiet (l.a.setWidth 4) m.now || (m.bar ref).unfinished m.cur } → exec (.sBarArr l) s = .next (s.issuedS SUse.none
      ((m.boundary m.cur (l.a.setWidth 4)).changeBar ref fun b => { b with coming := b.coming ++ [(m.now + barDelay ref.inst, m.cur)] }))) ∧
    (SReady m l SUse.none → (m.bar ref).unfinished m.cur = false → exec (.sBarWait l) s = .next (s.issuedS SUse.none
      (if ((m.bar ref).lastOf m.cur).isSome then m.boundary m.cur (l.a.setWidth 4) else m)))

/-- WAKE and SLEEP (R115, R118, R217), where the lane is ready: WAKE cancels the sleep of each domain of its mask that is ON and starts each
that is OFF or in RETAIN; SLEEP asks each domain of its mask that is not OFF to enter its sleep state from the next cycle on, one in RETAIN
only for the mode off. -/
def Claims.PowerLanesComplete : Prop :=
  ∀ (s : State) (l : Lane),
    let m := s.m
    let ds := (maskDoms m.cur (m.me.sreg l.a.toNat)).getD []
    (SReady m l (useSWake l m) → exec (.sWake l) s = .next (s.issuedS (useSWake l m)
      ((m.newWakes (m.me.sreg l.a.toNat)).foldl (fun x d => x.startWake d m.now)
        (ds.foldl (fun x d => if (x.dom d).st == .on then x.setDom d { (x.dom d) with pend := none, slept := 0 } else x) m)))) ∧
    (SReady m l (useSSleep l m) → exec (.sSleep l) s = .next (s.issuedS (useSSleep l m)
      (ds.foldl (fun x d => match (x.dom d).st with
        | .off => x
        | .retain => if l.fn == 1 then x.setDom d { (x.dom d) with pend := some (x.now + 1, true) } else x
        | _ => x.setDom d { (x.dom d) with pend := some (x.now + 1, l.fn == 1),
                                           slept := if (x.dom d).pend.isNone then x.now else (x.dom d).slept }) m)))

/-- Format registers and power-domain lanes (R88, R112 to R120, R217 to R219, R442): each of the statements above. -/
def Obligations.FormatsAndPowerLanesComplete : Prop := Claims.FormatRegistersComplete ∧ Claims.PowerLanesComplete

/-- NOP and WAIT.C in every stream (R47): where no acquire holds the S stream, NOP changes nothing but its stream's place, and WAIT.C besides
occupies the stream for as many further cycles as its literal says. -/
def Claims.NopAndWaitComplete : Prop :=
  ∀ (s : State) (st : Stream) (l : Lane), (st = .s → s.m.me.sBlocked s.m.now = false) →
    exec (.nop st l) s = .next (s.issued st 0 s.m) ∧ exec (.waitC st l) s = .next (s.issued st l.litU s.m)

/-- Event, semaphore, fence, phase, barrier, NOP and WAIT lanes (R26 to R29, R47, R133 to R147, R207 to R213): each of the statements above. The boundary of
a BAR.wait whose generation had completed before, and until when a second BAR.arr is held, are the model's choices (log entry 73). -/
def Obligations.ScalarSyncAndWaitsComplete : Prop := Claims.ScalarSyncCompletes ∧ Claims.BarriersComplete ∧ Claims.NopAndWaitComplete

/-! ### The V stream -/

/-- The V lanes that write a vector register lane by lane (R230 to R234, R236, R241 to R243): the latency, the operands read, and the value
of a lane with its flags. A float result is the exact value rounded once (R230), an integer result the exact integer wrapped, or saturated
with ISAT (R63, R232). -/
def Claims.vectorLanes (l : Lane) (c : Core) : List (Instr × Nat × List VOp × (Nat → W32 × Flags)) :=
  let tf := typeF l.fn
  let ts := typeS l.fn
  let tz := typeZ l.fn
  let two (i : Instr) (lat : Nat) (k : LitKind) (t : Fmt) (g : W32 → W32 → W32 × Flags) : Instr × Nat × List VOp × (Nat → W32 × Flags) :=
    (i, lat, [c.vA l k t, c.vB l k t], fun n => g ((c.vA l k t).lane n) ((c.vB l k t).lane n))
  let one (i : Instr) (lat : Nat) (k : LitKind) (t : Fmt) (g : W32 → W32 × Flags) : Instr × Nat × List VOp × (Nat → W32 × Flags) :=
    (i, lat, [c.vA l k t], fun n => g ((c.vA l k t).lane n))
  let float (x : Val → Val → Val) (a b : W32) : W32 × Flags := perSub tf fun j =>
    let p := (fmtF tf).dec (subOf tf a j)
    let q := (fmtF tf).dec (subOf tf b j)
    rounded tf l.rm l.sat [p, q] (x p q)
  let int (t : Fmt) (sat : Bool) (x : Int → Int → Int) (a b : W32) : W32 × Flags := perSub t fun j =>
    fitInt t sat (x (decInt (intOf t).1 (intOf t).2 (subOf t a j)) (decInt (intOf t).1 (intOf t).2 (subOf t b j)))
  let down := l.rm == 2
  [two (.vaddF l) 4 0 tf (float fun p q => Val.add down p q),
   two (.vsubF l) 4 0 tf (float fun p q => Val.add down p q.negate),
   two (.vmulF l) 4 0 tf (float Val.mul),
   (.vfma l, 4, [c.vA l 0 tf, c.vB l 0 tf, c.vC l 0 tf], fun n =>
      perSub tf fun j =>
        let p := (fmtF tf).dec (subOf tf ((c.vA l 0 tf).lane n) j)
        let q := (fmtF tf).dec (subOf tf ((c.vB l 0 tf).lane n) j)
        let r := (fmtF tf).dec (subOf tf ((c.vC l 0 tf).lane n) j)
        rounded tf l.rm l.sat [p, q, r] (Val.add down (Val.mul p q) r)),
   two (.vminF l) 2 0 tf (minmaxLane false tf), two (.vmaxF l) 2 0 tf (minmaxLane true tf), one (.vabs l) 2 0 tf (absLane tf),
   two (.vaddS l) 2 1 ts (int ts l.sat (· + ·)), two (.vsubS l) 2 1 ts (int ts l.sat (· - ·)), two (.vmulS l) 4 1 ts (int ts l.sat (· * ·)),
   two (.vminS l) 2 1 ts (int ts false min), two (.vmaxS l) 2 1 ts (int ts false max),
   two (.vaddZ l) 2 2 tz (int tz l.sat (· + ·)), two (.vsubZ l) 2 2 tz (int tz l.sat (· - ·)), two (.vmulZ l) 4 2 tz (int tz l.sat (· * ·)),
   two (.vminZ l) 2 2 tz (int tz false min), two (.vmaxZ l) 2 2 tz (int tz false max),
   two (.vand l) 1 3 0 fun a b => (a &&& b, 0), two (.vor l) 1 3 0 fun a b => (a ||| b, 0), two (.vxor l) 1 3 0 fun a b => (a ^^^ b, 0),
   one (.vnot l) 1 3 0 fun a => (~~~a, 0),
   two (.vshl l) 2 2 tz (shiftLane 0 tz (shiftLit l)), two (.vshrZ l) 2 2 tz (shiftLane 1 tz (shiftLit l)),
   two (.vshrS l) 2 1 ts (shiftLane 2 ts (shiftLit l)),
   (.vmov l, 1, [c.vmovA l], fun n => ((c.vmovA l).lane n, 0)),
   two (.vpack l) 2 3 0 (packLane l.fn l.sat), one (.vunpk l) 2 3 0 (unpackLane l.fn l.litU),
   one (.vrcp l) 12 0 tf (specialLane 0 tf l.rm l.sat), one (.vrsq l) 12 0 tf (specialLane 1 tf l.rm l.sat),
   one (.vexp2 l) 12 0 tf (specialLane 2 tf l.rm l.sat), one (.vlog2 l) 12 0 tf (specialLane 3 tf l.rm l.sat)]

/-- The V lanes of the table issue: where the lane is ready, the next state is the machine with the selected lanes' values put in flight to
the destination under the mask, due after the latency. -/
def Obligations.VectorLanesComplete : Prop :=
  ∀ (s : State) (l : Lane) (i : Instr) (lat : Nat) (os : List VOp) (f : Nat → W32 × Flags), (i, lat, os, f) ∈ Claims.vectorLanes l s.m.me →
    let mask := s.m.me.mreg l.p.toNat
    VReady s.m l (maskClusters mask) (VUse.ops os l.dst.toNat) →
    exec i s = .next (s.issued .v 0 (s.m.write .v lat (.v l.dst (maskedLanes mask f).1 mask) (maskedLanes mask f).2))

/-- Compares, selects and conversions of the V stream (R235, R237 to R239) where the lane is ready. VSEL's P selects between A and B in every one of
the 1,024 lanes, and no mask predicates it. A compare puts in flight, under the mask, a mask whose
bit of a lane says that the condition of DST bits 4:3 holds of every sub-element of it. VCVT puts the converted lanes in flight: from or to
FP64 only the lanes that R239 names, else every selected lane, which keeps those sub-elements of the destination that the part leaves. -/
def Obligations.VectorComparesSelectsAndConversionsComplete : Prop :=
  ∀ (s : State) (l : Lane),
    let c := s.m.me
    let mask := c.mreg l.p.toNat
    (∀ i k t (cond : Nat → Nat → Nat → Bool), (i, k, t, cond) ∈ ([
        (.vcmpF l, 0, typeF l.fn, fun k x y => condF k ((fmtF (typeF l.fn)).dec x) ((fmtF (typeF l.fn)).dec y)),
        (.vcmpS l, 1, typeS l.fn, condInt (typeS l.fn)), (.vcmpZ l, 2, typeZ l.fn, condInt (typeZ l.fn))] :
          List (Instr × LitKind × Fmt × (Nat → Nat → Nat → Bool))) →
      let a := c.vA l k t
      let b := c.vB l k t
      VReady s.m l (maskClusters mask) { VUse.ops [a, b] 0 with own := [.m (l.dst.toNat % 8)] } →
      ∃ img : BitVec 1024,
        (∀ n, n < 1024 → img.getLsbD n = (mask.getLsbD n && (List.range (subsOf t)).all fun j =>
          cond (l.dst.toNat / 8) (subOf t (a.lane n) j) (subOf t (b.lane n) j))) ∧
        exec i s = .next (s.issued .v 0 (s.m.write .v 2 (.m (l.dst.setWidth 3) img mask) 0))) ∧
    (let a := c.vA l 3 0
     let b := c.vB l 3 0
     VReady s.m { l with p := 0 } [0, 1, 2, 3] { VUse.ops [a, b] l.dst.toNat with locs := .m l.p.toNat :: (VUse.ops [a, b] l.dst.toNat).locs } →
     exec (.vsel l) s = .next (s.issued .v 0 (s.m.write .v 1 (.v l.dst
       (maskedLanes (BitVec.allOnes 1024) fun n => (if (c.mreg l.p.toNat).getLsbD n then a.lane n else b.lane n, 0)).1 (BitVec.allOnes 1024)) 0))) ∧
    (VReady s.m l (maskClusters mask) (useVcvt l s.m mask) →
      let src := cvtSrc l
      let dst := cvtDst l
      let a := c.vA l 3 0
      (src ≠ 0x0B → dst ≠ 0x0B → exec (.vcvt l) s = .next (s.issued .v 0 (s.m.write .v 4
        (.v l.dst (maskedLanes mask fun n => cvtLane src dst l.fn.toNat l.rm l.sat (laneAt (c.vreg l.dst.toNat) n) (a.lane n)).1 mask)
        (maskedLanes mask fun n => cvtLane src dst l.fn.toNat l.rm l.sat (laneAt (c.vreg l.dst.toNat) n) (a.lane n)).2))) ∧
      (src = 0x0B ∨ dst = 0x0B → ∃ wm : BitVec 1024,
        let f := cvt64Lane src dst l.fn.toNat l.rm l.sat (a.vec.getD 0)
        (∀ n, n < 1024 → wm.getLsbD n = (mask.getLsbD n && (f n).2.2)) ∧
        exec (.vcvt l) s = .next (s.issued .v 0 (s.m.write .v 4
          (.v l.dst (maskedLanes wm fun n => ((f n).1, (f n).2.1)).1 wm) (maskedLanes wm fun n => ((f n).1, (f n).2.1)).2))))

/-- Rotations and broadcasts (R246, R247) by instruction: latency, and the lane that lane n of the result is taken from, for an amount k. -/
def Claims.laneMoves (l : Lane) : List (Instr × Nat × (Nat → Nat → Nat)) :=
  [(.vrotr l, 2, fun k n => n / 64 * 64 + (n % 64 + 64 - k % 64) % 64), (.vrotc l, 5, fun k n => (n / 64 + 16 - k % 16) % 16 * 64 + n % 64),
   (.vbcr l, 2, fun k n => n / 64 * 64 + k % 64), (.vbcc l, 4, fun k n => k % 16 * 64 + n % 64)]

/-- Reductions and scans (R248, R249) by instruction: latency, whether by columns, and whether a scan. -/
def Claims.reductions (l : Lane) : List (Instr × Nat × Bool × Bool) :=
  [(.vredr l, 6, false, false), (.vredc l, 10, true, false), (.vscanr l, 6, false, true), (.vscanc l, 10, true, true)]

/-- Rotations, broadcasts, reductions and scans issue (R244 to R249) where the lane is ready: lanes moved are those of A as read across lane
clusters, and reductions combine the selected lanes of each row or column by COMBINE. -/
def Obligations.VectorAxesComplete : Prop :=
  ∀ (s : State) (l : Lane),
    let c := s.m.me
    let mask := c.mreg l.p.toNat
    (∀ i lat src, (i, lat, src) ∈ Claims.laneMoves l →
      VReady s.m l (maskClusters mask) { VUse.one l.a.toNat l.dst.toNat with regs := (c.vAmount l).regs } →
      exec i s = .next (s.issued .v 0 (s.m.write .v lat (.v l.dst
        (maskedLanes mask fun n => (laneAt (s.m.vRead l.a.toNat) (src (c.vAmount l).pat.toNat n), 0)).1 mask) 0))) ∧
    (∀ i lat cols scan, (i, lat, cols, scan) ∈ Claims.reductions l →
      VReady s.m l (maskClusters mask) (VUse.one l.a.toNat l.dst.toNat) →
      let r := reduceImage cols scan (combineLanes l.fn.toNat l.b.toNat l.rm l.sat) mask (c.vreg l.a.toNat)
      exec i s = .next (s.issued .v 0 (s.m.write .v lat (.v l.dst r.1 mask) r.2)))

/-- Loads and stores of images (R250 to R252) where the lane is ready. VLD of a core offset puts the 4,096 bytes at its address in flight for 6 cycles; VST
of a core offset stores the bytes of the selected lanes 6 cycles after issue; those of a quad or die go by their route. (The `ext` of a store in flight is
the length of its image, which a latch holds, R173.) -/
def Claims.VectorMemoryCompletes : Prop :=
  ∀ (s : State) (l : Lane),
    let m := s.m
    let mask := m.me.mreg l.p.toNat
    let ea := m.vAddress l
    let lvl := modeLvl l.a
    let pd := padAt m.cur lvl
    let rt := m.readTiming m.cur lvl ea 16 m.now
    let wt := m.writeTiming m.cur lvl ea 16 m.now
    (VReady m l (maskClusters mask) (useVld l m mask) → lvl = 0 → exec (.vld l) s = .next (s.issued .v 0
      ((m.bookTiming m.cur lvl false rt).modMe fun c => c.fly (m.result .v 6 (.v l.dst (bytesImage 32768 (m.padRead pd ea 4096)) mask) 0)))) ∧
    (VReady m l (maskClusters mask) (useVld l m mask) → lvl ≠ 0 → exec (.vld l) s = .next (s.issued .v 0
      ((m.bookTiming m.cur lvl false rt).modMe fun c => c.fly (m.gathered .v pd ea 4096 rt (.v l.dst 0 mask))))) ∧
    (VReady m l (maskClusters mask) (useVst l m mask) → exec (.vst l) s = .next (s.issued .v 0
      ((m.bookTiming m.cur lvl true wt).modMe fun c => c.fly
        { m.result .v 6 (.pad pd (imageWrites (m.me.vreg l.dst.toNat) mask ea)) 0 with
          w := if lvl = 0 then m.now + 6 else maxOf wt.data, dep := if lvl = 0 then none else some m.now, ext := 4096 })))

/-- VLDX and VSTX (R253) where the lane is ready: each group they touch is booked from issue to issue + 3; VLDX puts the rows with a selected
lane in flight from the addresses of their indexes, VSTX the selected lanes of each such row to its address, the highest row last. -/
def Claims.IndexedRowsComplete : Prop :=
  ∀ (s : State) (l : Lane),
    let m := s.m
    let mask := m.me.mreg l.p.toNat
    let rows := maskRows mask
    let booked := m.modMe fun c => c.bookPorts (rowPorts m.now (rows.map (m.rowAddr l)))
    (VReady m l (maskClusters mask) (useVldx l m mask) → exec (.vldx l) s = .next (s.issued .v 0 (booked.write .v 9 (.v l.dst
      (bytesImage 32768 ((List.range 16).flatMap fun r =>
        if rows.contains r then m.padRead (.core m.cur) (m.rowAddr l r) 256 else List.replicate 256 0)) mask) 0))) ∧
    (VReady m l (maskClusters mask) (useVstx l m mask) → exec (.vstx l) s = .next (s.issued .v 0 (rows.foldl (fun b r =>
      b.modMe fun c => c.fly { b.result .v 9 (.pad (.core m.cur) (rowBytes (m.me.vreg l.dst.toNat) mask r (m.rowAddr l r))) 0 with
        ext := 256 }) booked)))

/-- Vector loads and stores, and rows by index (R250 to R253): each of the statements above. -/
def Obligations.VectorMemoryAndRowsComplete : Prop := Claims.VectorMemoryCompletes ∧ Claims.IndexedRowsComplete

/-- VINS, VEXT, VSEMW and VSEMS (R255 to R257) where the lane is ready: VINS pops queue 0 and puts the half of its entry that the literal
names into every selected lane; VEXT pushes the first selected lane to queue 1; the semaphore lanes take or give their count. -/
def Claims.VectorExchangeCompletes : Prop :=
  ∀ (s : State) (l : Lane),
    let m := s.m
    let c := m.me
    let mask := c.mreg l.p.toNat
    let none : VUse := { regs := [], locs := [], own := [], held := false, traps := [] }
    let count := if l.kb = 1 then [l.b.toNat] else []
    (VReady m l (maskClusters mask) { none with own := [.v l.dst.toNat] } → ∀ e r, nth c.scal.q 0 [] = e :: r →
      exec (.vins l) s = .next (s.issued .v 0 ((m.modMe fun c => c.pop m.now 0).write .v 2
        (.v l.dst (maskedLanes mask fun _ => (e.extractLsb' (32 * l.litU) 32, 0)).1 mask) 0))) ∧
    (VReady m l (maskClusters mask) { none with locs := [.v l.a.toNat] } → 0 < c.qFree m.now 1 →
      ∀ n, n < 1024 → mask.getLsbD n = true → (∀ k, k < n → mask.getLsbD k = false) →
      exec (.vext l) s = .next (s.issued .v 0 (m.write .v 2 (.q 1 ((laneAt (c.vreg l.a.toNat) n).setWidth 64)) 0))) ∧
    (VReady m l (maskClusters mask) { none with regs := count } → ∀ c', c.semTake l.dst.toNat (c.xCount l) = some c' →
      exec (.vsemw l) s = .next (s.issued .v 0 (m.modMe fun _ => c'))) ∧
    (VReady m l (maskClusters mask) { none with regs := count } →
      exec (.vsems l) s = .next (s.issued .v 0 (m.modMe fun c => c.semSignal l.dst.toNat (c.xCount l))))

/-- The mask instructions (R258) where the lane is ready: the value of the table's function of the two source masks is put in flight, under the
mask, for the next cycle. VMAND has .andn, VMOR has .orn and .xor as variants of DST. -/
def Claims.MaskLanesComplete : Prop :=
  ∀ (s : State) (l : Lane) (i : Instr) (two : Bool) (f : BitVec 1024 → BitVec 1024 → BitVec 1024),
    (i, two, f) ∈ ([(.vmand l, true, fun a b => if l.dst.getLsbD 3 then a &&& ~~~b else a &&& b),
      (.vmor l, true, fun a b => if l.dst.getLsbD 4 then a ^^^ b else if l.dst.getLsbD 3 then a ||| ~~~b else a ||| b),
      (.vmnot l, false, fun a _ => ~~~a)] : List (Instr × Bool × (BitVec 1024 → BitVec 1024 → BitVec 1024))) →
    let mask := s.m.me.mreg l.p.toNat
    VReady s.m l (maskClusters mask)
      { regs := [], locs := .m (l.a.toNat % 8) :: (if two then [.m (l.b.toNat % 8)] else []), own := [.m (l.dst.toNat % 8)], held := false,
        traps := [] } →
    exec i s = .next (s.issued .v 0 (s.m.write .v 1
      (.m (l.dst.setWidth 3) (f (s.m.me.mreg (l.a.toNat % 8)) (s.m.me.mreg (l.b.toNat % 8))) mask) 0))

/-- Vector exchanges and mask lanes (R255 to R258): each of the statements above. -/
def Obligations.VectorExchangesAndMasksComplete : Prop := Claims.VectorExchangeCompletes ∧ Claims.MaskLanesComplete

/-! ### The M stream -/

/-- The array operations (R261, R269, R270) issue where the lane is ready: one operation joins the outstanding ones with its first pass after
the last pass of those, its tiles' port cycles are booked, and its result, due 24 cycles after its last pass, is in flight. -/
def Obligations.ArrayOperationsComplete : Prop :=
  ∀ (s : State) (l : Lane) (i : Instr) (op : Nat),
    (i, op) ∈ ([(.mma l, 1), (.mmai l, 2), (.mmad l, 3), (.mmas l, 4)] : List (Instr × Nat)) →
    MReady s.m (useArrayLane op l s.m) →
    let m := s.m
    let p := m.planArray op l
    let n := Lane.arrayPasses op l
    let cpp := (passDepth (arrayTypes op l.fn).1).2
    let last := p.f + n * cpp - 1
    let word := Lane.toWord (BitVec.ofNat 7 op) l
    let ext := (l.ext.map Ext.toWord).getD 0
    exec i s = .next (s.issued .m 0 (m.modMe fun c =>
      let c' := (c.bookPorts p.ports).fly
        { m.result .m 0 (.array op l (Lane.arrayK op l) n none) 0 with
          w := last + 24, reads := p.reads m.cur cpp, buf := c.startBytes op l, lane := word, ext := ext }
      { c' with mx := { c'.mx with ops := c'.mx.ops ++
          [{ lane := word, ext := ext, f := p.f, cpp := cpp, passes := n, retire := last + 1, write := last + 24, ringA := l.a.toNat,
             ringB := some l.b.toNat, popA := !l.p.getLsbD 1, popB := !l.p.getLsbD 0 }] } }))

/-- Joint operations (R272 to R275). A joint lane that is ready (no joint lane of its core is due, its quad's cores are all bound to its task, its
array has no outstanding operation and its ring does not hold it) becomes due in this cycle, which fixes the start J at the last member's cycle
+ 4; its stream waits. JOINT_START of a quad whose four members' lanes are due, agree with the driver's in OP, FN, K and semaphore and meet no
fault of their own runs every member's part, on all four members' tiles. Where one of them disagrees with the driver's or meets a fault, JOINT_START fails
(R275): every member that runs stops in this cycle with F.JOINT, whose DETAIL names the first member that disagrees, or else the first at fault and its
lowest code; no member's lane is due any more, and accumulators, rings, semaphores, JSEQ, scratchpads and the quad's other state stay. -/
def Obligations.JointOperationsComplete : Prop :=
  (∀ (s : State) (l : Lane) (i : Instr) (op : Nat), (i, op) ∈ ([(.mmaj l, 5), (.mmajs l, 6)] : List (Instr × Nat)) →
    let m := s.m
    let r := m.me.ringUse l.a.toNat false (arrayTypes op l.fn).1 (Lane.arrayPasses op l)
    m.me.mx.due = none → m.quadBound m.cur = true → m.me.mx.ops = [] → (r.held && r.traps.isEmpty) = false →
    let m' := (m.modMe fun c => { c with mx := { c.mx with
      due := some { cyc := m.now, op := op, lane := l, count := none } } }).fixJoint (quadOf m.cur)
    exec i s = .next { m := m'.modMe fun c => (c.backToLoad m'.now).modStream .m fun x => { x with next := m'.now + 1 },
                       base := some (m.cur, m.now, s.restorePoint m.cur), undo := s.undo }) ∧
  (∀ (s : State) (quad : Nat) (d0 d1 d2 d3 : JointDue),
    let m := s.m
    (quadCores quad).map (fun k => (m.core k).mx.due) = [some d0, some d1, some d2, some d3] →
    d1.sig = d0.sig → d2.sig = d0.sig → d3.sig = d0.sig → (m.core (4 * quad)).mx.jseq < 4 →
    let us := (List.range 4).zipWith (fun k d => m.jointCheck (4 * quad + k) d) [d0, d1, d2, d3]
    (∀ u, u ∈ us → u.traps = []) →
    exec (.jointStart quad) s = .next
      { s with m := ((List.range 4).zip [d0, d1, d2, d3]).foldl (fun m kd => m.jointMember quad (us.map RingUse.tiles) kd.1 kd.2) m }) ∧
  (∀ (s : State) (quad : Nat) (d0 d1 d2 d3 : JointDue) (detail : W32),
    let m := s.m
    (quadCores quad).map (fun k => (m.core k).mx.due) = [some d0, some d1, some d2, some d3] →
    (m.core (4 * quad)).mx.jseq < 4 → 4 * quad + 3 < m.cores.length → s.base = none → s.undo = [] →
    (∀ k ∈ quadCores quad, (m.core k).stop = none ∧ ∀ t x, (m.core k).scal.phase = some (t, x) → t ≠ m.now) →
    let ds := [d0, d1, d2, d3]
    let driver := ds.getD (m.core (4 * quad)).mx.jseq d0
    let faults (k : Nat) : List Trap := (m.jointCheck (4 * quad + k) (ds.getD k d0)).traps
    ((∃ k < 4, (ds.getD k d0).sig ≠ driver.sig ∧ (∀ n < k, (ds.getD n d0).sig = driver.sig) ∧ detail = BitVec.ofNat 32 k) ∨
     ((∀ n < 4, (ds.getD n d0).sig = driver.sig) ∧ ∃ k < 4, ∃ t, firstTrap (faults k) = some t ∧ (∀ n < k, faults n = []) ∧
       detail = BitVec.ofNat 32 (k + 256 * t.code.toNat))) →
    ∃ t, exec (.jointStart quad) s = .next t ∧
      (∀ k ∈ quadCores quad, t.m.core k = { m.core k with
        mx := { (m.core k).mx with due := none, joint := none }
        stop := some { Stop.new m.now with trap := some (2, ⟨Code.joint, detail, 0⟩) } }) ∧
      (∀ n, n ∉ quadCores quad → t.m.core n = m.core n) ∧ t.m.quads = m.quads ∧ t.m.dies = m.dies ∧ t.m.dev = m.dev)

/-- The M lanes that write accumulators, band scales and semaphores (R279, R280): what each uses and the machine after its effect. -/
def Claims.matrixSmall (l : Lane) (m : Mach) : List (Instr × MUse × Mach) :=
  let c := m.me
  let count := if l.kb = 1 then [l.b.toNat] else []
  [(.mzero l, MUse.none, m.write .m 1 (.accZero (BitVec.ofNat 4 l.litU)) 0),
   (.msba l, { MUse.none with regs := count, own := [.ba l.dst.toNat] }, m.write .m 1 (.ba (l.dst.setWidth 2) (c.bandValue l)) 0),
   (.msbb l, { MUse.none with regs := count, own := [.bb l.dst.toNat] }, m.write .m 1 (.bb (l.dst.setWidth 2) (c.bandValue l)) 0),
   (.msemw l, { MUse.none with regs := count, held := decide (c.semCount l.dst.toNat < c.xCount l) },
      m.modMe fun c => c.setSem l.dst.toNat (c.semCount l.dst.toNat - c.xCount l)),
   (.msems l, { MUse.none with regs := count },
      m.modMe fun c => c.setSem l.dst.toNat (min 65535 (c.semCount l.dst.toNat + c.xCount l)))]

/-- MZERO, MSBA, MSBB, MSEMW and MSEMS issue with the effect of the table, where the lane is ready. -/
def Claims.MatrixSmallLanesComplete : Prop :=
  ∀ (s : State) (l : Lane) (i : Instr) (u : MUse) (m' : Mach), (i, u, m') ∈ Claims.matrixSmall l s.m →
    MReady s.m u → exec i s = .next (s.issued .m 0 m')

/-- MDRAIN, MLDACC and MSTACC (R277, R278) where the lane is ready. MDRAIN stores the converted elements 40 cycles after its issue, or by the
route of its level from issue + 34 on. MLDACC of a core offset reads a group row a cycle and writes 8 cycles after the issue, 9 for a pair;
MSTACC stores the accumulator's bytes from issue + 2 on. -/
def Claims.MatrixMovesComplete : Prop :=
  ∀ (s : State) (l : Lane),
    let m := s.m
    let c := m.me
    let lvl := modeLvl l.a
    let ea := c.mAddress l
    let t := typeF l.fn
    let size := drainSize t
    let es := drainElems c l
    let dt := m.writeTiming m.cur lvl ea (size / 256) (m.now + 34)
    let rows := Lane.moveRows l
    let lt := m.moveTiming false lvl ea rows m.now
    let st := m.moveTiming true lvl ea rows (m.now + 2)
    let pd := padAt m.cur lvl
    let d : Dest := if rows = 2 then .accPair (l.dst.setWidth 2) 0 else .acc (l.dst.setWidth 2) 0
    let img := if rows = 2 then imageBytes (joinPair (c.accReg l.dst.toNat) (c.accReg (l.dst.toNat + 1))) else imageBytes (c.accReg l.dst.toNat)
    (MReady m (useMdrain l m) → exec (.mdrain l) s = .next (s.issued .m 0 ((m.bookTiming m.cur lvl true dt true).modMe fun c => c.fly
      { m.result .m 40 (.pad pd (atAddr ea (elemsBytes t (es.map Prod.fst)))) (es.foldl (fun f e => f ||| e.2) 0) with
        w := if lvl = 0 then m.now + 40 else maxOf dt.data, dep := if lvl = 0 then none else some (m.now + 34) }))) ∧
    (MReady m (useMldacc l m) → lvl = 0 → exec (.mldacc l) s = .next (s.issued .m 0 ((m.bookTiming m.cur lvl false lt).modMe fun c => c.fly
      { m.result .m (7 + rows) d 0 with reads := (List.range rows).map fun i =>
          { cyc := m.now + i, pad := pd, off := ea + 0x1000 * i, len := 0x1000, pos := 0x1000 * i, valid := none } }))) ∧
    (MReady m (useMldacc l m) → lvl ≠ 0 → exec (.mldacc l) s = .next (s.issued .m 0 ((m.bookTiming m.cur lvl false lt).modMe fun c =>
      c.fly (m.gathered .m pd ea (4096 * rows) lt d)))) ∧
    (MReady m (useMstacc l m) → exec (.mstacc l) s = .next (s.issued .m 0 ((m.bookTiming m.cur lvl true st true).modMe fun c =>
      (List.range rows).foldl (fun c i => c.fly
        { m.result .m (8 + i) (.pad pd (atAddr (ea + 0x1000 * i) ((img.drop (4096 * i)).take 4096))) 0 with
          w := if lvl = 0 then m.now + 8 + i else maxOf st.data, dep := if lvl = 0 then none else some (m.now + 2) }) c)))

/-- Small matrix lanes and matrix moves (R277 to R280): each of the statements above. -/
def Obligations.MatrixLanesAndMovesComplete : Prop := Claims.MatrixSmallLanesComplete ∧ Claims.MatrixMovesComplete

/-- The slots of a ring that operations pop as they retire (R265): one a pass for each side that names the ring and does not keep it. -/
def Claims.popped (ops : List ArrayOp) (ring : Nat) : Nat :=
  (ops.map fun o => (if o.popA ∧ o.ringA = ring then o.passes else 0) + (if o.popB ∧ o.ringB = some ring then o.passes else 0)).sum

/-- ARRAY_RETIRE (R261, R265): at the core being served the operations whose retirement cycle has come leave the outstanding ones, those of a
stopped core only where they are joint operations. They pop their rings: HEAD of a ring moves on, round its slots, by the passes of the sides that name it
and do not keep it, COUNT falls by as many, and every other field of the descriptor stays. Accumulators, scalar registers, scratchpad and other cores stay.
CHAIN_ISSUE (R271): the command in the chain slot issues as the array operation of its words, and the slot is empty, where nothing holds it, no joint lane
of its core is due or waits for the array, and it meets no fault. (The state kept beside is the machine that a stop of this cycle returns to, R167.) -/
def Obligations.ArrayRetireAndChainIssueComplete : Prop :=
  ∀ (s : State),
    let m := s.m
    (m.cur < m.cores.length → ∃ t, exec .arrayRetire s = .next t ∧
      t.m.me.mx.ops = m.me.mx.ops.filter (fun o => !(decide (o.retire ≤ m.now) && (m.me.stop.isNone || o.ringB.isNone))) ∧
      t.m.me.mx.acc = m.me.mx.acc ∧ t.m.me.scal = m.me.scal ∧ t.m.me.pad = m.me.pad ∧
      (∀ n, n ≠ m.cur → t.m.core n = m.core n) ∧
      t.m.me.mx.rings.length = m.me.mx.rings.length ∧
      ∀ n, n < m.me.mx.rings.length →
        let g := m.me.ring n
        let k := Claims.popped (m.me.mx.ops.filter fun o => decide (o.retire ≤ m.now) && (m.me.stop.isNone || o.ringB.isNone)) n
        let cap := ringSize g.w0 / ringTile g.w1
        0 < cap → cap ≤ 8192 → ringHead g.w1 < cap → k ≤ ringCount g.w1 →
        ringHead (t.m.me.ring n).w1 = (ringHead g.w1 + k) % cap ∧ ringCount (t.m.me.ring n).w1 = ringCount g.w1 - k ∧
        (t.m.me.ring n).w0 = g.w0 ∧ (t.m.me.ring n).w1 &&& ~~~((0x3FFFFFF : W64) <<< 30) = g.w1 &&& ~~~((0x3FFFFFF : W64) <<< 30)) ∧
    (∀ ch : ChainCmd,
      let p := m.planArray (ChainCmd.parts ch).1 (ChainCmd.parts ch).2
      let locs := arrayLocs (ChainCmd.parts ch).1 (ChainCmd.parts ch).2
      m.me.mx.chain = some ch → p.held = false → m.me.mx.due = none → m.me.mx.joint = none → m.me.mx.jheld ≠ some m.now →
      m.staleTraps locs.2 locs.1 = [] → m.sleepTraps [.core m.cur mxBit] = [] → p.traps = [] →
      exec .chainIssue s = .next { s with
        m := (m.issueArray (ChainCmd.parts ch).1 (ChainCmd.parts ch).2 p).modMe fun c => { c with mx := { c.mx with chain := none } }
        base := some (m.cur, m.now, s.restorePoint m.cur) })

/-! ### The X stream -/

/-- The copy commands (R290 to R295) where the lane is ready. Without REL, or once the boundary of its scope took effect in an earlier cycle, the
checked copy enters the copy table with the fields of its descriptor. With REL before that the lane is held (R291) and nothing of it is checked yet; in
the first cycle in which the core is quiet the boundary takes effect and its cycle is kept. -/
def Obligations.CopyCommandsComplete : Prop :=
  ∀ (s : State) (l : Lane) (ch : Option ChainCmd) (i : Instr) (op : Nat),
    (i, op) ∈ ([(.xcopy l ch, 1), (.xgath l ch, 2), (.xscat l ch, 3), (.xred l ch, 4), (.xmcast l ch, 5), (.xfill l ch, 6)] :
      List (Instr × Nat)) →
    let u := useCopyLane op l ch s.m
    (XReady s.m u → (l.imm.getLsbD 3 = false ∨ ∃ t, s.m.me.scal.rel.2 = some t ∧ t < s.m.now) →
      exec i s = .next (s.issued .x 0 (s.m.startCopy (s.m.copyOf op l ch) (s.m.me.sreg l.a.toNat).toNat))) ∧
    (u.held = false → u.regs.any (s.m.me.pending s.m.now) = false → l.imm.getLsbD 3 = true → s.m.me.scal.rel.2 = none →
      s.m.me.quiet (bits l.imm 4 4) s.m.now = true →
      let m' := (s.m.boundary s.m.cur (bits l.imm 4 4)).modMe fun c => { c with scal := { c.scal with rel := (c.scal.rel.1, some s.m.now) } }
      exec i s = .next { m := m'.modMe fun c => (c.backToLoad m'.now).modStream .x fun x => { x with next := m'.now + 1 },
                         base := some (s.m.cur, s.m.now, s.restorePoint s.m.cur), undo := s.undo })

/-- The channel, fence and semaphore lanes of the X stream (R301 to R303, R306): what each uses and the machine after its effect. -/
def Claims.channelLanes (l : Lane) (m : Mach) (h : Chan) : List (Instr × XUse × Mach) :=
  let c := m.me
  let n := l.p.toNat
  let count := if l.kb = 1 then [l.b.toNat] else []
  let base := (c.sreg l.a.toNat).toNat
  let len := (c.sreg l.b.toNat).toNat
  [(.xclose l, useXclose l m, m.modMe fun c =>
      if h.st = 2 then (c.setChan n none).setBst h.base h.len 0
      else (c.setChan n (some { h with closing := some (c.chanRows n), arm := none })).settleChan n),
   (.xwmset l, useXwmset l m, m.modMe fun c => c.setChan n (some { h with
      arm := some ((c.sreg l.a.toNat).toNat % 2 ^ 21, l.dst.toNat, (bits l.imm 8 8).toNat, m.now + 2) })),
   (.xbufRel l, useXbufRel l m, m.modMe fun c => (c.setChan n none).setBst h.base h.len 0),
   (.xopen l, useXopen l m, m.modMe fun c =>
      (({ c with xe := { c.xe with chans := c.xe.chans.map fun o => o.filter fun x => !(x.base == base && x.len == len) } } : Core).setChan n
        (some { outbound := l.fn == 1, base := base, len := len, st := if l.fn == 1 then 3 else 1, got := [],
                mark := if l.fn == 1 then len else 0, closing := none, arm := none })).setBst
        base len (if l.fn == 1 then 3 else 1)),
   (.xbufQ l, { regs := [], held := c.qFree m.now 5 == 0, traps := [] }, m.write .x 1 (.q 5 (c.chanWord n)) 0),
   (.xsemw l, { regs := count, held := decide (c.semCount l.dst.toNat < c.xCount l), traps := [] },
      m.modMe fun c => c.setSem l.dst.toNat (c.semCount l.dst.toNat - c.xCount l)),
   (.xsems l, { regs := count, held := false, traps := [] },
      m.modMe fun c => c.setSem l.dst.toNat (min 65535 (c.semCount l.dst.toNat + c.xCount l))),
   (.xfence l, { regs := [], held := !m.fenceReady m.cur false (l.a.toNat % 16) l.fn.toNat m.now, traps := [] }, m)]

/-- The channel, fence and semaphore lanes of the X stream issue with the effect of the table, where the lane is ready; XCLOSE, XWMSET and
XBUF.rel act on the channel h that P names. -/
def Obligations.ChannelLanesComplete : Prop :=
  ∀ (s : State) (l : Lane) (h : Chan) (i : Instr) (u : XUse) (m' : Mach), (i, u, m') ∈ Claims.channelLanes l s.m h →
    s.m.cur < s.m.cores.length →
    (i = .xclose l ∨ i = .xwmset l ∨ i = .xbufRel l → s.m.me.chan l.p.toNat = some h) →
    XReady s.m u → exec i s = .next (s.issued .x 0 m')

/-! ### The H stream -/

/-- The H lanes that write a register or push a result word (R319 to R324, R327): what each uses, the latency and the result put in flight. -/
def Claims.hyperLanes (l : Lane) (m : Mach) : List (Instr × HUse × Nat × Dest) :=
  let c := m.me
  let mask := c.mreg l.p.toNat
  let a := c.hreg l.a.toNat
  let b := c.hreg l.b.toNat
  let n : BitVec 4 := l.dst.setWidth 4
  let dsts : List Loc := [.h l.dst.toNat]
  let amount := (if l.kb = 1 then (c.sreg l.b.toNat).toNat else l.litU) % 8192
  [(.hbind l, { HUse.none with locs := [.h l.a.toNat, .h l.b.toNat], own := dsts }, 1, .h n (a ^^^ b) mask),
   (.hnot l, { HUse.none with locs := [.h l.a.toNat], own := dsts }, 1, .h n (~~~a) mask),
   (.hmov l, { HUse.none with locs := [.h l.a.toNat], own := dsts }, 1, .h n a mask),
   (.hperm l, { HUse.none with regs := if l.kb = 1 then [l.b.toNat] else [], locs := [.h l.a.toNat], own := dsts }, 2,
      .h n (if l.fn = 0 then a.rotateLeft amount else a.rotateRight amount) mask),
   (.hclr l, { HUse.none with own := [if l.dst.getLsbD 4 then .k (l.dst.toNat % 16) else .h l.dst.toNat] }, 1,
      if l.dst.getLsbD 4 then .kClear (l.dst.setWidth 2) mask else .h n 0 mask),
   (.hbund l, { HUse.none with locs := if l.fn = 2 then c.tieLocs else [.h l.a.toNat], own := [.k (l.dst.toNat % 16)] }, 3,
      .kBundle (l.dst.setWidth 2) (if l.fn = 2 then c.tieVector else a) mask (l.litU % 16) (l.fn.setWidth 2) (bits c.hv.hvctl 0 2)),
   (.hthr l, { HUse.none with locs := .k (l.a.toNat % 16) :: c.tieLocs, own := dsts }, 3,
      .h n (threshold (c.kreg (l.a.toNat % 16)) c.tieVector) mask),
   (.hdist l, { HUse.none with locs := [.h l.a.toNat, .h l.b.toNat], held := c.qFree m.now 7 == 0 }, 6,
      .q 7 (BitVec.ofNat 64 (distance a b (maskBytes mask) * 2 ^ 32))),
   (.hgdset l, useHgdset l m mask, 1, if l.dst.getLsbD 4 then .hvctl (c.sreg l.a.toNat)
      else .gd (BitVec.ofNat 2 (l.dst.toNat % 4)) (c.sreg l.a.toNat) (c.sreg l.b.toNat)),
   (.hgputInv l, useHgputInv l m mask, 1, .valid (BitVec.ofNat 2 (l.dst.toNat % 4)) (c.xCount l) false)]

/-- The H lanes of the table issue, where the lane is ready, with the result of the table in flight, without a flag. -/
def Obligations.HyperLanesComplete : Prop :=
  ∀ (s : State) (l : Lane) (i : Instr) (u : HUse) (lat : Nat) (d : Dest), (i, u, lat, d) ∈ Claims.hyperLanes l s.m →
    HReady s.m l u → exec i s = .next (s.issued .h 0 (s.m.write .h lat d 0))

/-- HNEAR and HNEAR2 (R325, R326) where the lane is ready: from the first free cycle on one row of four entries is read each cycle, with its
VALID bits, its port cycles are booked, and the search is in flight until seven cycles after its last row. SEARCH_PUSH (R323, R325): the first
search of the core being served that is due pushes its words into queue 7 and is in flight no more. Distance is the number of counted bits that differ
(R322). The words of a search (R323, R325, R326) name the distance and the index of the nearest of the entries that were valid, the lowest of equals, and
for HNEAR2 of the nearest of the others; where there is none, the word is NONE. -/
def Claims.SearchesComplete : Prop :=
  (∀ (s : State) (l : Lane) (two : Bool),
    let m := s.m
    let c := m.me
    let mask := c.mreg l.p.toNat
    let g := c.geode (l.a.toNat % 4)
    let rows := (geodeCount g.1 + 3) / 4
    let row (q : Nat) := geodeBase g.1 + 4096 * q
    let f := c.searchStart m.now
    HReady m l (useHSearch l two m mask) →
    exec (if two then .hnear2 l else .hnear l) s = .next (s.issued .h 0 (m.modMe fun c =>
      (c.bookPorts ((List.range rows).map fun q => (groupOf (row q), f + q))).fly
        { m.result .h 0 (.search (BitVec.ofNat 2 (l.a.toNat % 4)) two (c.hreg l.b.toNat)
            (if g.2.1.getLsbD 4 then c.hreg (bits g.2.1 0 4).toNat else BitVec.allOnes 8192) (maskBytes mask) (geodeCount g.1)) 0 with
          w := f + 7 + rows
          reads := (List.range rows).map fun q =>
            { cyc := f + q, pad := .core m.cur, off := row q, len := 4096, pos := 4096 * q, valid := some (BitVec.ofNat 2 (l.a.toNat % 4)) }
          lane := Lane.toWord (if two then 7 else 6) l }))) ∧
  (∀ (s : State) (r : Result), s.m.me.searches.find? (fun r => decide (r.w ≤ s.m.now)) = some r →
    exec .searchPush s = .next (s.land s.m.cur true fun m => m.modMe fun c =>
      { c with flight := c.flight.erase r, scal := { c.scal with q := c.scal.q.modify 7 fun q => q ++ r.searchWords } })) ∧
  (∀ a b counted : BitVec 8192,
    distance a b counted = ((List.range 8192).filter fun i => counted.getLsbD i && (a.getLsbD i != b.getLsbD i)).length) ∧
  (∀ (r : Result) (g : BitVec 2) (two : Bool) (query dm mask : BitVec 8192) (count : Nat), r.dest = .search g two query dm mask count →
    let valid (e : Nat) : Prop := e < count ∧ r.buf.read (validAt + e) ≠ 0
    let d (e : Nat) : Nat := distance (bytesImage 8192 (r.buf.readBlock (1024 * e) 1024)) query (dm &&& mask)
    let near (p : Nat → Prop) (e : Nat) : Prop := p e ∧ ∀ n, p n → d e < d n ∨ (d e = d n ∧ e ≤ n)
    let word (e : Nat) : W64 := BitVec.ofNat 64 (d e * 2 ^ 32 + e)
    r.searchWords.length = (if two then 2 else 1) ∧
    ((∀ e, ¬ valid e) → ∀ w ∈ r.searchWords, w = 0x800000000000FFFF) ∧
    ∀ e, near valid e → r.searchWords[0]? = some (word e) ∧
      (two = true → ((∀ n, valid n → n = e) → r.searchWords[1]? = some 0x800000000000FFFF) ∧
        ∀ n, near (fun k => valid k ∧ k ≠ e) n → r.searchWords[1]? = some (word n)))

/-- HGPUT, HLD, HST and the semaphore lanes of the H stream (R328 to R330) where the lane is ready. HGPUT stores the selected bytes at its
entry 6 cycles after the issue; HLD and HST move the image of an h or a k register. -/
def Claims.HyperMemoryCompletes : Prop :=
  ∀ (s : State) (l : Lane),
    let m := s.m
    let c := m.me
    let mask := c.mreg l.p.toNat
    let lvl := modeLvl l.a
    let isK := l.dst.getLsbD 4
    let n := Lane.hBytes l
    let ea := c.hAddress l
    let pd := padAt m.cur lvl
    let rt := m.hTiming false lvl ea n
    let wt := m.hTiming true lvl ea n
    let d : Dest := if isK then .kImage (l.dst.setWidth 2) 0 mask else .h (l.dst.setWidth 4) 0 mask
    let bytes := maskedBytes (if isK then imageBytes (c.kreg (l.dst.toNat % 16)) else imageBytes (c.hreg l.dst.toNat)) mask (if isK then 8 else 1) ea
    let off := geodeBase (c.geode (l.dst.toNat % 4)).1 + 0x400 * c.xCount l
    let count := if l.kb = 1 then [l.b.toNat] else []
    (HReady m l (useHgput l m mask) → exec (.hgput l) s = .next (s.issued .h 0
      ((m.modMe fun c => c.bookPorts [(groupOf off, m.now)]).write .h 6 (.hgput (BitVec.ofNat 2 (l.dst.toNat % 4)) (c.xCount l) off
        (maskedBytes (imageBytes (c.hreg l.a.toNat)) mask 1 off)) 0))) ∧
    (HReady m l (useHld l m mask) → lvl = 0 → exec (.hld l) s = .next (s.issued .h 0 ((m.bookTiming m.cur lvl false rt).modMe fun c => c.fly
      { m.result .h (if isK then 7 else 6) d 0 with reads := (List.range ((n + 4095) / 4096)).map fun i =>
          { cyc := m.now + i, pad := pd, off := ea + 4096 * i, len := min n 4096, pos := 4096 * i, valid := none } }))) ∧
    (HReady m l (useHld l m mask) → lvl ≠ 0 → exec (.hld l) s = .next (s.issued .h 0 ((m.bookTiming m.cur lvl false rt).modMe fun c =>
      c.fly (m.gathered .h pd ea n rt d)))) ∧
    (HReady m l (useHst l m mask) → lvl = 0 → exec (.hst l) s = .next (s.issued .h 0 ((m.bookTiming m.cur lvl true wt).modMe fun c =>
      ((List.range ((n + 4095) / 4096)).map fun i =>
        m.result .h (6 + i) (.pad pd (bytes.filter fun w => (w.1 - ea) / 4096 == i)) 0).foldl Core.fly c))) ∧
    (HReady m l (useHst l m mask) → lvl ≠ 0 → exec (.hst l) s = .next (s.issued .h 0 ((m.bookTiming m.cur lvl true wt).modMe fun c =>
      c.fly { m.result .h 0 (.pad pd bytes) 0 with w := maxOf wt.data, dep := some m.now }))) ∧
    (HReady m l { HUse.none with regs := count } → c.xCount l ≤ c.semCount l.dst.toNat → exec (.hsemw l) s = .next (s.issued .h 0
      (m.modMe fun c => c.setSem l.dst.toNat (c.semCount l.dst.toNat - c.xCount l)))) ∧
    (HReady m l { HUse.none with regs := count } → exec (.hsems l) s = .next (s.issued .h 0
      (m.modMe fun c => c.setSem l.dst.toNat (min 65535 (c.semCount l.dst.toNat + c.xCount l)))))

/-- Hypervector memory lanes and searches (R323, R325, R326, R328 to R330): each of the statements above. -/
def Obligations.HyperMemoryAndSearchesComplete : Prop := Claims.SearchesComplete ∧ Claims.HyperMemoryCompletes

/-! ### Tile instructions -/

/-- The tile instructions with their opcodes (R334, R353 to R362). -/
def Claims.tiles (t : Tile) : List (Instr × Nat) :=
  [(.tNop t, 0), (.tMma t, 1), (.tMmas t, 2), (.tEw t, 3), (.tAct t, 4), (.tRed t, 5), (.tCvt t, 6), (.tScale t, 7), (.tMove t, 8), (.tFill t, 9),
   (.tTrans t, 10), (.tGath t, 11), (.tHvenc t, 12), (.tHvnear t, 13), (.tBar t, 14), (.tFence t, 15)]

/-- A tile instruction issued by an S stream (R215, R340, R346): where the lane is ready (no lane cluster it names is forked) and the core's port
accepts it, the port takes it: the sequence number, the bookings, the wakes and the blocks of its plan. -/
def Claims.TileLanesComplete : Prop :=
  ∀ (s : State) (t : Tile) (i : Instr) (top : Nat), (i, top) ∈ Claims.tiles t → s.m.curP = none →
    let u : SUse := { SUse.none with held := (s.m.me.lcBusy s.m.now &&& t.lcm) != 0, traps := s.m.tileTraps top t }
    SReady s.m (Tile.asLane t) u → exec i s = .next (s.issuedS u (s.m.takeTile top t))

/-- A tile instruction at a task's P port (R340, R341, R346): the pending command that P accepts runs with the port's next sequence number, the
domains that its ports need wake, its end is fixed where it takes a number of cycles that the spec gives, and the port is active at every core of the
task; one that P refuses ends at once with its detail code. -/
def Claims.TilePortCompletes : Prop :=
  ∀ (s : State) (x : Tile) (i : Instr) (top task : Nat) (t : Task) (k : ChainCmdP), (i, top) ∈ Claims.tiles x →
    s.m.curP = some task → s.m.task task = some t → t.port.pending = some k →
    let d := s.m.pkgRefusal t k top x
    let w := match s.m.part t.part, s.m.pkgCmd t k with
      | some p, some c => s.m.tileWakes (c.needs p)
      | _, _ => (s.m, [], 0)
    let e := s.m.pkgEnd t k w.2.2
    (d = 0 →
      let m := w.1.modTask t.seq fun t => { t with port := { t.port with
        pending := none, record := none, seqNo := t.port.seqNo + 1, woke := w.2.1,
        running := [{ k with seqNo := t.port.seqNo, endAt := some e }] } }
      let m := t.cores.foldl (fun m c => m.modCore c fun k => { k with port := { k.port with active := true } }) m
      exec i s = .next { s with m := { m with curP := none } }) ∧
    (d ≠ 0 → exec i s = .next { s with m := { s.m.endCommand t k none d with curP := none } })

/-- Tile instructions at a core and at a task's P port (R215, R340, R341, R346): each of the statements above. -/
def Obligations.TileInstructionsComplete : Prop := Claims.TileLanesComplete ∧ Claims.TilePortCompletes

/-- TILE_RETIRE and TILE_RECORD (R341, R346, R349, R350, R353). At a core the instruction that is due and has no record to come is gone with its
event, the domains its port woke return to sleep, and the .lc boundary is posted; one whose shares fault first has its record kept. At P, from the
cycle on in which its ports have their domains ON and while no core of the task stands in a stop, the command ends with the run of its instruction, or asks
for the pages it waits for (R419); a
T.BAR first performs the boundary of its scope, and ends in the next cycle. That the run at P is one whole transaction, taken at TILE_RETIRE or
TILE_RECORD, is the model's choice (log entry 24). -/
def Obligations.TileEventsComplete : Prop :=
  ∀ (s : State),
    (∀ core t, (s.m.core core).dueTile s.m.now = some t → t.bad = [] →
      let m := s.m.modCore core fun c =>
        let c := { c with port := { c.port with tiles := c.port.tiles.map fun x => if x.seq = t.seq then { x with gone := true } else x } }
        if t.evt || t.code != 0 then c.raise s.m.now (tileEvent t.code t.seq t.lcm) else c
      let m := t.woke.foldl (fun m b =>
        if (m.dom (.core core b)).st == .on then m.setDom (.core core b) { (m.dom (.core core b)) with pend := some (m.now, false) } else m) m
      exec (.tileRetire (.core core)) s = .next { s with m := m.postBoundary core 0, base := some (core, s.m.now, s.restorePoint core) }) ∧
    (∀ core t b r, (s.m.core core).dueTile s.m.now = some t → t.bad = b :: r →
      let mask : BitVec 4 := BitVec.ofNat 4 ((b :: r).foldl (fun a x => a + 2 ^ x.1) 0)
      let recorded (c : Core) : Core := { c with port := { c.port with
        record := c.port.record.orElse fun _ => some (lcRecord 0x0B t.seq b.2 b.1 (t.lcm &&& ~~~mask))
        failed := c.port.failed ||| mask
        tiles := c.port.tiles.map fun x => if x.seq = t.seq then { x with bad := [], code := 0x0B } else x } }
      exec (.tileRecord (.core core)) s = .next { s with m := s.m.modCore core recorded, base := some (core, s.m.now, s.restorePoint core) }) ∧
    (∀ task t k ks, s.m.task task = some t → t.port.running = k :: ks → s.m.pkgReady t k = true →
      let barrier := k.tile.1 = 14 ∧ k.bar = false
      (barrier → exec (.tileRetire (.pkg task)) s = .next { s with m := (s.m.boundaryAll t (tileScope k.tile.2)).modTask t.seq fun t =>
        { t with port := { t.port with running := [{ k with bar := true, endAt := some (s.m.now + 1, true) }] } } }) ∧
      (¬ barrier → s.m.pkgRun t k = none → exec (.tileRetire (.pkg task)) s = .next { s with m := s.m.retirePkg t k none }) ∧
      (∀ e, ¬ barrier → s.m.pkgRun t k = some e → e.pull ≠ [] →
        exec (.tileRetire (.pkg task)) s = .next { s with m := s.m.askPages t.fn e.pull }) ∧
      (∀ e, s.m.pkgRun t k = some e → e.pull = [] →
        (¬ barrier → e.record = none → exec (.tileRetire (.pkg task)) s = .next { s with m := e.m.retirePkg t k none }) ∧
        (∀ r, e.record = some r → exec (.tileRecord (.pkg task)) s = .next { s with m := e.m.retirePkg t k (some r) })))

/-! ### The control core -/

/-- The custom instructions of the control core (R177 to R188): each with what must hold for it to complete, and the machine after its effect. -/
def Claims.controlOps (rd rs1 rs2 : XReg) (m : Mach) : List (Instr × Prop × Mach) :=
  let c := m.me
  let a := c.ctl.xr rs1
  let b := c.ctl.xr rs2
  let sem := a.toNat < 32 ∧ b.toNat < 65536
  let count := c.semCount a.toNat
  let put (m : Mach) (v : W64) : Mach := m.modCtl fun k => k.setX rd v
  [(.cblk rs1 rs2, a.toNat < 1024 ∧ 0 < b.toNat ∧ b.toNat < 2 ^ 32 ∧ c.seq.validated a.toNat = true ∧ c.seq.queue.length < 4, m.modMe fun c => { c with seq := { c.seq with
      queue := c.seq.queue ++ [{ num := a.toNat, count := b.toNat, cyc := m.now }]
      jobs := c.seq.jobs ++ [{ num := a.toNat, line := 0, left := b.toNat - 1 }] } }),
   (.cblk rs1 rs2, a.toNat < 1024 ∧ b = 0, m),
   (.cblkw, c.seq.queue = [] ∧ c.busy m.now = false ∧ c.stop = none, m),
   (.cevt rd, c.events.q ≠ [], put (m.modMe Core.popEvent) (c.events.q.headD 0)),
   (.cevtNb rd, c.events.q ≠ [], put (m.modMe Core.popEvent) (c.events.q.headD 0)),
   (.cevtNb rd, c.events.q = [], put m 0),
   (.csemSig rs1 rs2, sem, m.modMe fun c => c.setSem a.toNat (min 65535 (c.semCount a.toNat + b.toNat))),
   (.csemWait rs1 rs2, sem ∧ b.toNat ≤ count, m.modMe fun c => c.setSem a.toNat (c.semCount a.toNat - b.toNat)),
   (.csemTry rd rs1 rs2, sem ∧ b.toNat ≤ count, put (m.modMe fun c => c.setSem a.toNat (c.semCount a.toNat - b.toNat)) 1),
   (.csemTry rd rs1 rs2, sem ∧ count < b.toNat, put m 0),
   (.csemRd rd rs1, a.toNat < 32, put m (BitVec.ofNat 64 count)),
   (.csemSet rs1 rs2, sem, m.modMe fun c => c.setSem a.toNat b.toNat),
   (.cframeRep rd, c.held = true ∧ c.frame.value 0x1000 1 ≠ 0, m.modCtl fun k => { k.setX rd (k.repTag.setWidth 64) with
      repTag := k.repTag + 1
      requests := k.requests ++ [(k.repTag, BitVec.ofNat 32 (c.frame.value 0x1000 4), BitVec.ofNat 32 (c.frame.value 0x1004 4),
        BitVec.ofNat 64 (c.frame.value 0x1008 8))] }),
   (.cframeEnd rs1, a.toNat < 256, m.modMe fun c => c.endTask (a.setWidth 8)),
   (.cwid rd, True, put m ((c.bound.map Bind.wid).getD 0)),
   (.ctis rd rs1, a.toNat < 4, put m (c.portWord m.now a.toNat)),
   (.cpds rd rs1, a.toNat < 12 ∧ a.toNat % 4 ≠ 3, put m (m.powerReg m.cur a.toNat))]

/-- The operands that the custom instructions reject with exception 24, and what mtval then holds (R178, R181, R183 to R185, R187, R188): of two bad operands
rs1, and 0 where none is rejected, which are the model's choices (log entry 17). -/
def Claims.controlRejects (rd rs1 rs2 : XReg) (m : Mach) : List (Instr × Prop × W64) :=
  let c := m.me
  let a := c.ctl.xr rs1
  let b := c.ctl.xr rs2
  let loose := ∀ p, c.stop = some p → p.held = false
  [(.cblk rs1 rs2, 1024 ≤ a.toNat, a), (.cblk rs1 rs2, a.toNat < 1024 ∧ 2 ^ 32 ≤ b.toNat, b),
   (.csemSig rs1 rs2, 32 ≤ a.toNat, a), (.csemSig rs1 rs2, a.toNat < 32 ∧ 65536 ≤ b.toNat, b),
   (.csemWait rs1 rs2, 32 ≤ a.toNat, a), (.csemWait rs1 rs2, a.toNat < 32 ∧ 65536 ≤ b.toNat, b),
   (.csemTry rd rs1 rs2, 32 ≤ a.toNat, a), (.csemTry rd rs1 rs2, a.toNat < 32 ∧ 65536 ≤ b.toNat, b),
   (.csemRd rd rs1, 32 ≤ a.toNat, a), (.csemSet rs1 rs2, 32 ≤ a.toNat, a), (.csemSet rs1 rs2, a.toNat < 32 ∧ 65536 ≤ b.toNat, b),
   (.cframeRep rd, c.held = false ∨ c.frame.value 0x1000 1 = 0, 0), (.cframeEnd rs1, 256 ≤ a.toNat, a), (.cresume, loose, 0),
   (.ctis rd rs1, 4 ≤ a.toNat, a), (.cpds rd rs1, 12 ≤ a.toNat ∨ a.toNat % 4 = 3, a)]

/-- The custom instructions complete in one cycle with the effect of the table, where its condition holds, and raise exception 24 where they reject
an operand (R154, R177 to R188). -/
def Obligations.ControlInstructionsComplete : Prop :=
  ∀ (s : State) (rd rs1 rs2 : XReg) (i : Instr),
    (∀ (ok : Prop) (m' : Mach), (i, ok, m') ∈ Claims.controlOps rd rs1 rs2 s.m →
      s.m.cur < s.m.cores.length → ok → exec i s = .next (s.completed m' (s.m.me.ctl.pc + 4) 1)) ∧
    (∀ (bad : Prop) (v : W64), (i, bad, v) ∈ Claims.controlRejects rd rs1 rs2 s.m → bad → exec i s = .next (s.excepted 24 v))

/-- cphase, cfence and cresume (R142, R175, R182). cphase and cfence complete once the accesses issued before them are acknowledged and the copies they
wait for are done: cphase with the boundary of its scope, of the accesses issued before it. cresume of a held core delivers its shadow fault, or takes the
scalar registers from the frame and sets the streams to restart. -/
def Obligations.BoundariesAndResumeComplete : Prop :=
  ∀ (s : State) (scope : BitVec 4),
    let m := s.m
    let pc := m.me.ctl.pc + 4
    (∀ f x cut, m.me.ctl.wait.getD (s.ctlWait false scope) = .mem f x cut → m.waitOver f x cut = true →
      exec (.cphase scope) s = .next (s.completed (if f then m else m.boundaryOf m.cur x cut) pc 1)) ∧
    (∀ f x cut, m.me.ctl.wait.getD (s.ctlWait true scope) = .mem f x cut → m.waitOver f x cut = true →
      exec (.cfence scope) s = .next (s.completed (if f then m else m.boundaryOf m.cur x cut) pc 1)) ∧
    (∀ p, m.me.stop = some p → p.held = true →
      (p.shadow = none → exec .cresume s = .next (s.completed ((m.modMe Core.reloadScalars).setRestart m.cur m.now) pc 1)) ∧
      (∀ code line lane addr detail, p.shadow = some (code, line, lane, addr, detail) →
        exec .cresume s = .next (s.completed (m.modMe fun c => c.deliverShadow p code line lane addr) pc 1)))

/-- The standard instructions that compute or jump (R151, R154), of the RISC-V unprivileged specification: the register written, its value, the
next pc and the cycles. `next` is the address after the instruction. -/
def Claims.rvCompute (k : Ctl) (next : W64) : Rv → Option (XReg × W64 × W64 × Nat)
  | .lui rd imm => some (rd, (imm ++ 0#12).signExtend 64, next, 1)
  | .auipc rd imm => some (rd, k.pc + (imm ++ 0#12).signExtend 64, next, 1)
  | .jal rd off => some (rd, next, k.pc + off.signExtend 64, 2)
  | .jalr rd rs1 imm => some (rd, next, (k.xr rs1 + imm.signExtend 64) &&& 0xFFFFFFFFFFFFFFFE, 2)
  | .aluImm op rd rs1 imm => some (rd, RvAlu.eval op (k.xr rs1) (imm.signExtend 64), next, 1)
  | .aluImmW op rd rs1 imm => some (rd, RvAlu.evalW op (k.xr rs1) (imm.signExtend 64), next, 1)
  | .alu op rd rs1 rs2 => some (rd, RvAlu.eval op (k.xr rs1) (k.xr rs2), next, 1)
  | .aluW op rd rs1 rs2 => some (rd, RvAlu.evalW op (k.xr rs1) (k.xr rs2), next, 1)
  | .mul op rd rs1 rs2 => some (rd, RvMul.eval op (k.xr rs1) (k.xr rs2), next,
      match op with | .mul | .mulh | .mulhsu | .mulhu => 3 | .div | .divu | .rem | .remu => 18)
  | .mulW op rd rs1 rs2 => some (rd, RvMul.evalW op (k.xr rs1) (k.xr rs2), next,
      match op with | .mul | .mulh | .mulhsu | .mulhu => 3 | .div | .divu | .rem | .remu => 18)
  | _ => none

/-- The standard instructions that compute, jump or branch, and the fences (R151, R154): they complete with the register, next pc and cycles of
the table; a branch takes 2 cycles where taken and 1 where not; fence and fence.i have no effect. That they take
one cycle is the model's choice, since R154's table does not list them (log entry 17). -/
def Obligations.RvComputeCompletes : Prop :=
  ∀ (s : State) (op : Rv) (short : Bool),
    let k := s.m.me.ctl
    let next := k.pc + (if short then 2 else 4)
    let i : Instr := .rv64Instruction ⟨op, short⟩
    (∀ rd v pc n, Claims.rvCompute k next op = some (rd, v, pc, n) →
      exec i s = .next (s.completed (s.m.modCtl fun k => k.setX rd v) pc n)) ∧
    (∀ c rs1 rs2 off, op = .branch c rs1 rs2 off → exec i s = .next (if RvCond.holds c (k.xr rs1) (k.xr rs2)
      then s.completed s.m (k.pc + off.signExtend 64) 2 else s.completed s.m next 1)) ∧
    (∀ fm p q rd rs1, op = .fence fm p q rd rs1 → exec i s = .next (s.completed s.m next 1)) ∧
    (∀ rd rs1 imm, op = .fenceI rd rs1 imm → exec i s = .next (s.completed s.m next 1))

/-- Loads, stores and atomics of the control core (R152, R154, R170): frame memory and the control store answer loads; program data, and SREG and
PREG while HELD is 1, take stores; atomics act on what stores may write. A store-conditional writes where the reservation is its address, and
clears the reservation. A misaligned access raises causes 4 and 6, which is the model's choice (log entry 17), and any other outside those places causes 5
and 7, with the address in mtval. -/
def Obligations.RvMemoryCompletes : Prop :=
  ∀ (s : State) (short : Bool),
    let c := s.m.me
    let k := c.ctl
    let next := k.pc + (if short then 2 else 4)
    let run (op : Rv) := exec (.rv64Instruction ⟨op, short⟩) s
    let put (a n v : Nat) : Mach := s.m.setCore s.m.cur { c with frame := c.frame.writeBlock a (leBytes n v) }
    (∀ w sg rd rs1 (imm : BitVec 12),
      let a := (k.xr rs1 + imm.signExtend 64).toNat
      let n := RvWidth.bytes w
      let value (v : Nat) : W64 := if sg then BitVec.ofInt 64 (decInt (8 * n) true v) else BitVec.ofNat 64 v
      a % n = 0 →
      (a + n ≤ 0x10000 → run (.load w sg rd rs1 imm) = .next (s.completed (s.m.modCtl fun k => k.setX rd (value (c.frame.value a n))) next 2)) ∧
      (0x01000000 ≤ a → a + n ≤ 0x01008000 → run (.load w sg rd rs1 imm) =
        .next (s.completed (s.m.modCtl fun k => k.setX rd (value (c.cstore.value (a - 0x01000000) n))) next 2))) ∧
    (∀ w rs1 rs2 (imm : BitVec 12),
      let a := (k.xr rs1 + imm.signExtend 64).toNat
      let n := RvWidth.bytes w
      a % n = 0 → (a + n ≤ 0x1000 ∨ (c.held = true ∧ 0x1080 ≤ a ∧ a + n ≤ 0x1188)) →
      run (.store w rs1 rs2 imm) = .next (s.completed (put a n (k.xr rs2).toNat) next 1)) ∧
    (∀ w64 aq rl rd rs1 rs2,
      let a := (k.xr rs1).toNat
      let n := if w64 then 8 else 4
      let old := c.frame.value a n
      let v := BitVec.ofInt 64 (decInt (8 * n) true old)
      a % n = 0 →
      (a + n ≤ 0x10000 → run (.lr w64 aq rl rd rs1) = .next (s.completed (s.m.modCtl fun k => { k.setX rd v with resv := some a }) next 3)) ∧
      (a + n ≤ 0x1000 ∨ (c.held = true ∧ 0x1080 ≤ a ∧ a + n ≤ 0x1188) →
        (k.resv = some a → run (.sc w64 aq rl rd rs1 rs2) =
          .next (s.completed ((put a n (k.xr rs2).toNat).modCtl fun k => { k.setX rd 0 with resv := none }) next 3)) ∧
        (k.resv ≠ some a → run (.sc w64 aq rl rd rs1 rs2) =
          .next (s.completed (s.m.modCtl fun k => { k.setX rd 1 with resv := none }) next 3)) ∧
        (∀ op, run (.amo op w64 aq rl rd rs1 rs2) = .next (s.completed
          ((put a n (RvAmo.eval op (8 * n) old ((k.xr rs2).toNat % 2 ^ (8 * n)))).modCtl fun k => k.setX rd v) next 3)))) ∧
    (∀ w sg rd rs1 rs2 (imm : BitVec 12),
      let x := k.xr rs1 + imm.signExtend 64
      let a := x.toNat
      let n := RvWidth.bytes w
      (a % n ≠ 0 → run (.load w sg rd rs1 imm) = .next (s.excepted 4 x) ∧ run (.store w rs1 rs2 imm) = .next (s.excepted 6 x)) ∧
      (a % n = 0 → 0x10000 < a + n → a < 0x01000000 ∨ 0x01008000 < a + n → run (.load w sg rd rs1 imm) = .next (s.excepted 5 x)) ∧
      (a % n = 0 → 0x1000 < a + n → c.held = false ∨ a < 0x1080 ∨ 0x1188 < a + n → run (.store w rs1 rs2 imm) = .next (s.excepted 7 x))) ∧
    (∀ w64 aq rl rd rs1 rs2 amo,
      let x := k.xr rs1
      let a := x.toNat
      let n := if w64 then 8 else 4
      (a % n ≠ 0 → run (.lr w64 aq rl rd rs1) = .next (s.excepted 4 x) ∧ run (.sc w64 aq rl rd rs1 rs2) = .next (s.excepted 6 x) ∧
        run (.amo amo w64 aq rl rd rs1 rs2) = .next (s.excepted 6 x)) ∧
      (a % n = 0 → 0x10000 < a + n → run (.lr w64 aq rl rd rs1) = .next (s.excepted 5 x)) ∧
      (a % n = 0 → 0x1000 < a + n → c.held = false ∨ a < 0x1080 ∨ 0x1188 < a + n →
        run (.sc w64 aq rl rd rs1 rs2) = .next (s.excepted 7 x) ∧ run (.amo amo w64 aq rl rd rs1 rs2) = .next (s.excepted 7 x)))

/-- System instructions of the control core (R151, R154 to R157). mret returns to mepc with MIE restored from MPIE; wfi completes once a bit of mip AND
mie is set; a CSR instruction reads the old value into rd and, where it writes, writes the new one; ecall, ebreak, a word outside the set, a CSR
that does not exist and a write of a read-only one other than CSTATE, CEVTN and CPERIOD raise causes 11, 3, 2, 2 and 2. Which standard CSRs exist (log entry
4), that such a write is illegal, and what mtval holds of an illegal word, of ecall (0) and of ebreak (the pc) (log entry 17), are the model's choices. -/
def Claims.RvSystemCompletes : Prop :=
  ∀ (s : State) (short : Bool),
    let c := s.m.me
    let k := c.ctl
    let next := k.pc + (if short then 2 else 4)
    let run (op : Rv) := exec (.rv64Instruction ⟨op, short⟩) s
    (run .mret = .next (s.completed (s.m.modCtl fun k => { k with
      pc := k.mepc, ready := s.m.now + 2,
      mstatus := (k.mstatus &&& 0xFFFFFFFFFFFFFF77) ||| (if k.mstatus.getLsbD 7 then 0x08 else 0) ||| 0x80 ||| 0x1800 }) k.mepc 2)) ∧
    ((c.mip s.m.now &&& k.mie) ≠ 0 → run .wfi = .next (s.completed s.m next 1)) ∧
    (∀ op rd src (num : BitVec 12) old, s.m.csrRead num.toNat = some old → csrRefused op src num = false →
      run (.csr op rd src num) = .next (s.completed (s.m.modCtl fun k =>
        (if csrWrites op src then k.csrWrite num.toNat (CsrOp.eval op old (CsrSrc.value src k)) else k).setX rd old) (k.pc + 4) 1)) ∧
    (∀ op rd src (num : BitVec 12), (s.m.csrRead num.toNat = none ∨ csrRefused op src num = true) →
      run (.csr op rd src num) = .next (s.excepted 2 ((encodeCsr op rd src num).setWidth 64))) ∧
    run .ecall = .next (s.excepted 11 0) ∧ run .ebreak = .next (s.excepted 3 k.pc) ∧
    (∀ w : W32, run (.illegal w) = .next (s.excepted 2 (if short then (w.setWidth 16 : BitVec 16).setWidth 64 else w.setWidth 64)))

/-- Writes of the CSRs of R155 and R69. NFLAGS: csrrw clears the flags set in its operand, csrrc those set in its mask, csrrs none, and a flag set in
this cycle stays. DBGCTL and CBANKn take effect at the next block's t0; CTIMECMP at once. Each reads the old value into rd. -/
def Claims.CsrWritesComplete : Prop :=
  ∀ (s : State) (op : CsrOp) (rd : XReg) (src : CsrSrc) (n : BitVec 5),
    let k := s.m.me.ctl
    let v := CsrSrc.value src k
    let write := csrWrites op src
    let next := k.pc + 4
    let flags : BitVec 6 := if op = .rs then 0 else v.setWidth 6 &&& ~~~(if k.nset.1 = s.m.now then k.nset.2 else 0)
    exec (.nflagsWrite op rd src) s = .next (s.completed (s.m.modCtl fun k =>
      { k.setX rd (k.nflags.setWidth 64) with nflags := k.nflags &&& ~~~flags }) next 1) ∧
    exec (.dbgctlWrite op rd src) s = .next (s.completed (s.m.modCtl fun k =>
      (if write then { k with dbgNext := (CsrOp.eval op (k.dbgNext.setWidth 64) v).setWidth 2 } else k).setX rd (k.dbgNext.setWidth 64)) next 1) ∧
    exec (.ctimecmpWrite op rd src) s = .next (s.completed (s.m.modCtl fun k =>
      (if write then { k with timecmp := CsrOp.eval op k.timecmp v } else k).setX rd k.timecmp) next 1) ∧
    exec (.cbankWrite n op rd src) s = .next (s.completed (s.m.modCtl fun k =>
      (if write then { k with cbank := k.cbank.set n.toNat ((CsrOp.eval op ((nth k.cbank n.toNat 0).setWidth 64) v).setWidth 32) } else k).setX rd
        ((nth k.cbank n.toNat 0).setWidth 64)) next 1)

/-- System instructions and writes of CSRs (R69, R151, R154 to R157): each of the statements above. The standard CSRs that exist (log entry 4), the illegal
write of a read-only one, and mtval of an illegal word, of ecall and of ebreak (log entry 17) are the model's choices. -/
def Obligations.SystemAndCsrInstructionsComplete : Prop := Claims.RvSystemCompletes ∧ Claims.CsrWritesComplete

/-- Interrupts (R154, R157, R166): CORE_TRAP_INTERRUPT and EVENT_INTERRUPT enter the handler with codes 24 and 16, and a core trap is no longer
pending; TIMER_INTERRUPT enters it with code 7 where that is the interrupt to be taken, and stops the streams in the first cycle in which MTIP,
MTIE and MIE are all 1; that a ready control core takes the interrupt in the stop cycle itself is the model's choice (log entry 38). -/
def Claims.InterruptsComplete : Prop :=
  ∀ (s : State),
    let m := s.m
    let c := m.me
    exec .coreTrapInterrupt s = .next { s with m := m.modCtl fun k => { k.interrupt 24 m.now with ctip := false } } ∧
    exec .eventInterrupt s = .next { s with m := m.modCtl fun k => k.interrupt 16 m.now } ∧
    (c.ctlReady m.now = true → c.irq m.now = some 7 → c.timerStop m.now = false →
      exec .timerInterrupt s = .next { s with m := m.modCtl fun k => { k.interrupt 7 m.now with tdue := false } }) ∧
    (c.timerStop m.now = true → (c.ctlReady m.now && c.irq m.now == some 7) = false →
      let t := s.stopCore m.cur Mach.boundary fun p => { p with intr := true }
      exec .timerInterrupt s = .next { t with m := t.m.modCtl fun k => { k with tdue := false } }) ∧
    (c.timerStop m.now = true → c.ctlReady m.now = true → c.irq m.now = some 7 →
      let t := s.stopCore m.cur Mach.boundary fun p => { p with intr := true }
      exec .timerInterrupt s = .next { t with m := t.m.modCtl fun k => { k.interrupt 7 m.now with tdue := false } })

/-- Entry to a handler (R154, R157): mepc holds the pc of the instruction, mcause the cause, mtval the operand rejected, MPIE the old MIE and MIE 0;
the handler's first instruction is at mtvec, or at mtvec + 4 × code for an interrupt in vectored mode, two cycles later (three with the cycle of an
instruction that raised an exception). Nothing else of the control core changes but a wait, which ends. -/
def Claims.HandlerEntry : Prop :=
  ∀ (k : Ctl) (code now : Nat) (tval : Nat), code < 64 →
    let base := k.mtvec &&& 0xFFFFFFFFFFFFFFFC
    let st := (k.mstatus &&& 0xFFFFFFFFFFFFFF77) ||| (if k.mstatus.getLsbD 3 then 0x80 else 0) ||| 0x1800
    k.interrupt code now = { k with
      mepc := k.pc, mcause := BitVec.ofNat 64 (2 ^ 63 + code), mtval := 0, mstatus := st,
      pc := if k.mtvec.getLsbD 0 then base + BitVec.ofNat 64 (4 * code) else base, ready := now + 2, wait := none } ∧
    k.except code tval now = { k with
      mepc := k.pc, mcause := BitVec.ofNat 64 code, mtval := BitVec.ofNat 64 tval, mstatus := st, pc := base, ready := now + 3, wait := none }

/-- Interrupts and the entry to a handler (R154, R157, R166): each of the statements above. That the timer interrupt is taken in the stop cycle itself is
the model's choice (log entry 38). -/
def Obligations.InterruptsAndHandlerEntryComplete : Prop := Claims.InterruptsComplete ∧ Claims.HandlerEntry

/-! ### Happenings of a core -/

/-- BLOCK_START, LINE_VALIDATE, RESULT_LAND and FRAME_COMPLETE (R6, R55, R92, R155, R160, R161, R169 to R171). The head block, where it is complete,
starts: each stream at its first lane, the constant bank and DBGCTL taken over; an absent or rejected one leaves the queue with a core trap. A
line enters the block store, or rejects its block. The result or unit of a copy that lands first is written, by issue cycle (R91), atomics of one core by
stream (R145). A frame is written from 0x1000 on and HELD becomes 1; a fault raises CTIP. That a complete frame clears the control core's reservation (log
entry 17), and what the frame's bytes for REPLEFT hold (log entry 12), are the model's choices. -/
def Obligations.BlockAndResultEventsComplete : Prop :=
  ∀ (s : State),
    let m := s.m
    let core := m.cur
    let c := m.me
    let trap (b : QBlock) (rest : List QBlock) (code : Byte) (line detail : Nat) : State :=
      let t := s.stopCore core Mach.boundary (Stop.withTrap 7 ⟨code, BitVec.ofNat 32 (line + detail * 2 ^ 16), BitVec.ofNat 64 b.num⟩)
      { t with m := t.m.modCore core fun c => { c with seq := { c.seq with queue := rest } } }
    (∀ b rest e, c.seq.queue = b :: rest → c.seq.entry b.num = some e → e.rejected = none →
      exec .blockStart s = .next (s.land core true fun m => m.modCore core fun c => c.startBlock m.now b rest)) ∧
    (∀ b rest, c.seq.queue = b :: rest → c.seq.entry b.num = none → exec .blockStart s = .next (trap b rest 0x01 0 0)) ∧
    (∀ b rest e code line detail, c.seq.queue = b :: rest → c.seq.entry b.num = some e → e.rejected = some (code, line, detail) →
      exec .blockStart s = .next (trap b rest code line detail)) ∧
    (∀ n index line tag, exec (.lineValidate n index line tag) s = .next { s with m := m.modCore n fun c =>
      let c := c.enterLine ((m.core n).bound.bind Bind.key) index line tag
      { c with seq := { c.seq with loadAt := m.now + 1 } } }) ∧
    (∀ t st i r, c.nextLanding m.now = some (t, st, .result i r) →
      exec .resultLand s = .next (s.land core (r.frozen m.now) fun m =>
        (m.modCore core fun c => { c with flight := c.flight.eraseIdx i }).landResult core r)) ∧
    (∀ t st entry i, c.nextLanding m.now = some (t, st, .unit entry i) →
      exec .resultLand s = .next (s.land core (match (c.copy entry).bind fun k => k.units[i]? with | some u => decide (m.now ≤ u.depAt) | none => false)
        fun m => m.landUnit core entry i)) ∧
    (∀ p, c.stop = some p → exec .frameComplete s = .next { s with m := m.modMe fun c => { c with
      frame := c.frame.writeBlock 0x1000 (c.frameBytes core p)
      stop := some { p with held := true, frameAt := some m.now }
      ctl := { c.ctl with resv := none, ctip := c.ctl.ctip || p.trap.isSome || p.shadow.isSome } } })

/-- Open-class arrivals and walks (R139, R143, R168, R202, R203, R205, R307). LDG_ARRIVAL writes the extended bytes the core sees at the load's
address; STG_ACK acknowledges the store; ATOM_RETURN performs the atomic on device memory and returns the old value, with the boundary of an
acquire order; WALK_COMPLETE ends the walk of a load with its address or its fault, and that of a store with its result. That ATOM_RETURN performs the
atomic and returns its value in one step is the model's choice (log entry 65). -/
def Obligations.GlobalArrivalsComplete : Prop :=
  ∀ (s : State) (core id : Nat),
    let m := s.m
    let c := m.core core
    (∀ g pa, c.load id = some g → g.pa = some pa → g.atom = none → g.doneAt = none →
      let m' := m.modCore core fun c =>
        (c.setS g.dst.toNat (extendLoad g.bytes g.signed (leValue (c.globRead (some g.id) pa g.bytes)))).modLoad id fun g =>
          { g with doneAt := some m.now }
      exec (.ldgArrival core id) s = .next { s with m := m' }) ∧
    exec (.stgAck core id) s = .next { s with m := m.modCore core fun c => { c with glb := { c.glb with
      writes := c.glb.writes.map fun w => if w.id == id && w.stg then { w with acked := true } else w } } } ∧
    (∀ g pa a, c.load id = some g → g.pa = some pa → g.atom = some a → g.doneAt = none →
      let n := if a.w64 then 8 else 4
      let old := leValue (m.dev.readBlock pa n)
      let m' := (m.devAtomic (atAddr pa (leBytes n (a.apply old).1))).modCore core fun c =>
        ((c.setS g.dst.toNat (a.returned old)).modLoad id fun g => { g with doneAt := some m.now }).flag m.now (a.apply old).2
      exec (.atomReturn core id) s = .next { s with m := match g.acq with | some x => m'.acquire core x | none => m' }) ∧
    (∀ g, c.load id = some g → g.walk = true → c.hold = none →
      let r := m.walkCore core g.va (if g.atom.isSome then .atomic else .read)
      exec (.walkComplete core id) s = .next { s with m := r.1.loadWalked core g r.2 }) ∧
    (∀ w, c.load id = none → c.glb.walks.find? (fun w => w.id == id && !w.done) = some w →
      let r := m.walkCore core w.va .write
      let end_ (f : Option (Byte × W32)) : Mach := r.1.modCore core fun c => { c with glb := { c.glb with
        walks := c.glb.walks.map fun y => if y.id == id then { y with done := true, fault := f } else y } }
      (∀ pa, r.2 = .ok pa → exec (.walkComplete core id) s = .next { s with m := end_ none }) ∧
      (∀ code detail, r.2 = .error (.fault code detail) → exec (.walkComplete core id) s = .next { s with m := end_ (some (code, detail)) }))

/-- Copies, channels and rings (R265, R266, R271, R299, R300, R303 to R305). COPY_COMPLETE after a copy's end raises its pennant and produces its record,
of a faulted one the record alone, a refill raising neither but leaving its ring unusable where it faulted, and moves its chained command to the chain slot
once its last byte has landed, or waits for that and for room; one with bytes still to land leaves its entry; OPEN_ROW_ARRIVAL of an outstanding row lands
it, converted and with its scales, each piece of them within a page at its own address, a fault of a side being kept and a page being pulled leaving it
outstanding, but of a killed task, whose row ends there (R421). That an open row lands whole and stays outstanding while a page is pulled (log entry 49),
and that a completed copy keeps its entry while its chained command waits (log entry 50), are the model's choices. COPY_ROW_FAULT keeps the lowest faulting
row; WATERMARK_FIRE raises the pennant of an armed channel whose MARK has reached the threshold; RING_REFILL of a timed handle raises the refill with its
schedule, of an open one its row. -/
def Obligations.CopyEventsComplete : Prop :=
  ∀ (s : State) (core entry row : Nat),
    let m := s.m
    let c := m.core core
    (∀ k t, c.copy entry = some k → k.doneAt = some t → t < m.now →
      let first := k.told = false
      let waits := k.fault = none ∧ k.chain ≠ none ∧ (c.mx.chain ≠ none ∨ k.unitsDone = false)
      let c1 := if first ∧ k.fault = none ∧ k.refill = none then c.pennant k.pn.toNat k.inc.toNat else c
      let c2 := if first ∧ (k.fault ≠ none ∨ (k.evt = true ∧ k.refill = none)) then c1.raise m.now k.record else c1
      let c3 : Core := match k.refill, k.fault with
        | some r, some (_, code, _, _) =>
          if first then { c2 with mx := { c2.mx with rings := c2.mx.rings.modify r fun g => { g with dead := some code } } } else c2
        | _, _ => c2
      let c4 : Core := if k.fault = none ∧ k.chain ≠ none ∧ ¬ waits then { c3 with mx := { c3.mx with chain := k.chain } } else c3
      let endsAs (c' : Core) : Prop := exec (.copyComplete core entry) s = .next { s with m := m.setCore core c' }
      (k.unitsDone = true → ¬ waits → endsAs { c4 with xe := { c4.xe with copies := c4.xe.copies.filter fun x => x.entry != entry } }) ∧
      (waits → endsAs (c4.modCopy entry fun x => { x with told := true, chain := k.chain, entry := entry })) ∧
      (k.unitsDone = false → ¬ waits → endsAs (c4.modCopy entry fun x => { x with told := true, chain := none, entry := c4.sparePlace }))) ∧
    (∀ k cr, m.rowOut core entry row = some (k, cr) →
      let run := exec (.openRowArrival core entry row) s
      let out (m : Mach) : Host.Outcome State Fault Refusal := .next { s with m := m }
      let killed := m.hub.tasks.any fun t => t.killed.isSome && (m.core core).bound.any fun b => b.task == t.seq
      let pulled (m' : Mach) : Host.Outcome State Fault Refusal := out (if killed then m.rowEnd core entry row else m')
      let sa := (k.rowAddr false row).toNat
      let da := (k.rowAddr true row).toNat
      let held := k.op = 6 ∨ k.inPad false = true
      let a := m.rowPlace core k false row sa
      let rest (m : Mach) (bs : List Byte) : Prop :=
        let r := m.rowPlace core k true row da
        let q := r.1.scaleRuns core k row
        (k.refill ≠ none → run = out (m.refillLand core entry k bs)) ∧
        (k.refill = none →
          (∀ code d, r.2 = .error (.fault code d) → run = out (r.1.rowFault core entry row code d (BitVec.ofNat 64 da))) ∧
          (∀ g, r.2 = .error (.pull g) → run = pulled r.1) ∧
          (∀ pl, r.2 = .ok pl →
            (k.quant = false → run = out (r.1.arriveRow core entry k row bs pl [])) ∧
            (k.quant = true → k.inPad true = true →
              run = out (r.1.arriveRow core entry k row bs pl [(k.scalePlace (r.1.side core k true) row 0, k.rowScales)])) ∧
            (k.quant = true → k.inPad true = false →
              (∀ ps, q.2 = .ok ps → run = out (q.1.arriveRow core entry k row bs pl ps)) ∧
              (∀ x code d, q.2 = .error (x, .fault code d) → run = out (q.1.rowFault core entry row code d (BitVec.ofNat 64 x))) ∧
              (∀ x g, q.2 = .error (x, .pull g) → run = pulled q.1))))
      (held → rest m cr.data) ∧
      (¬ held →
        (∀ src, a.2 = .ok src → rest a.1 (a.1.placeBytes core src (a.1.side core k false).len)) ∧
        (∀ code d, a.2 = .error (.fault code d) → run = out (a.1.rowFault core entry row code d (BitVec.ofNat 64 sa))) ∧
        (∀ g, a.2 = .error (.pull g) → run = pulled a.1))) ∧
    (∀ x code detail addr, m.rowOut core entry row = some x →
      exec (.copyRowFault core entry row code detail addr) s = .next { s with m := m.rowFault core entry row code detail addr }) ∧
    (∀ h t pn inc since, c.chan entry = some h → h.arm = some (t, pn, inc, since) → t ≤ h.mark → since ≤ m.now →
      exec (.watermarkFire core entry) s = .next { s with m := m.modCore core fun c =>
        (c.setChan entry (some { h with arm := none })).pennant pn inc }) ∧
    (let ring := entry
     let g := c.ring ring
     let h := c.tileTables.hnd (ringHandle g.w1)
     let off := ringBase g.w0 + (ringHead g.w1 + ringCount g.w1 + c.tilesDue ring) % (ringSize g.w0 / 4096) * 4096
     let k := c.refillCopy m.now ring g.row h off
     let src := m.side core k false
     let dst := m.side core k true
     let next (g : Ring) : Ring := { g with row := (g.row + 1) % max 1 (tableField h 0x0C 24) }
     let enter (m : Mach) (k : Copy) : Mach := m.modCore core fun c =>
       { c with xe := { c.xe with copies := c.xe.copies ++ [k] }, mx := { c.mx with rings := c.mx.rings.modify ring next } }
     let point := some (core, m.now, s.restorePoint core)
     c.refillDue m.now ring = true → fetchable h = true →
     m.unitsTraps core k false src ++ m.rowsTraps core k false src 0 ++ m.unitsTraps core k true dst ++ m.rowsTraps core k true dst 0 = [] →
     (m.sideTimed core k false src = false → exec (.ringRefill core ring) s = .next
       { s with m := enter m { k with timed := false, sent := 1, rows := [{ row := 0, sentAt := m.now, data := [], here := false }] }, base := point }) ∧
     (m.sideTimed core k false src = true →
       let st := m.refillSched core k
       st.noSlot = false → exec (.ringRefill core ring) s = .next
         { s with m := enter (st.booked core) { k with units := st.units, doneAt := some (unitsEnd st.units) }, base := point }))

/-- Barriers, domains, lingering streams and service replies (R29, R115, R116, R118, R147, R149, R163, R183, R213, R214). The arrivals of a cycle are
counted together in the generation open; a completion reaches its core, with a refresh at a waiter, or starves it with F.BARSTARVE, its wait over, where
its streams are not stopped already; a waking domain whose latency has passed is ON, reading zero where it was OFF; a sleep that is due takes effect; a
released stream leaves the ended task, and with the last that lingered beside another task its domains are OFF and a release event is raised (R150); a
reply to an outstanding request produces a TYPE 0x4 event. -/
def Obligations.CoreWaitEventsComplete : Prop :=
  ∀ (s : State) (core : Nat),
    let m := s.m
    (∀ bar x, (m.bar bar).coming.find? (fun x => x.2 == core && decide (x.1 ≤ m.now)) = some x →
      let counted (b : Barrier) : Barrier := { b with
        coming := b.coming.filter fun x => m.now < x.1
        arrived := b.arrived + (b.coming.filter fun x => x.1 ≤ m.now).length
        last := (b.coming.filter fun x => x.1 ≤ m.now).map (fun x => (x.2, b.gen)) ++
          b.last.filter fun y => !((b.coming.filter fun x => x.1 ≤ m.now).any fun x => x.2 == y.1) }
      exec (.barrierArrival core bar) s = .next { s with m := m.changeBar bar counted }) ∧
    (∀ bar t n gen starved, (m.bar bar).going.find? (fun x => x.2.1 == core && decide (x.1 ≤ m.now)) = some (t, n, gen, starved) →
      let b := m.bar bar
      let rest := b.going.erase (t, n, gen, starved)
      (starved = false →
        let m' := m.setBar { b with going := rest, reached := (core, gen + 1) :: b.reached.filter fun y => y.1 != core }
        exec (.barrierCompletion core bar) s = .next { s with m := if m.atWait core bar then m'.refresh core else m' }) ∧
      (starved = true →
        let s' : State := { s with m := m.setBar { b with going := rest, waiting := b.waiting.filter (· != core) } }
        ((∀ p, (m.core core).stop = some p → p.cyc = m.now) → exec (.barrierCompletion core bar) s = .next
          (s'.stopCore core Mach.boundary (Stop.withTrap 0 ⟨0x0E, 0, 0⟩))) ∧
        (∀ p, (m.core core).stop = some p → p.cyc ≠ m.now → exec (.barrierCompletion core bar) s = .next s'))) ∧
    (∀ d fromOff t, (m.dom d).st = .waking fromOff t → t ≤ m.now →
      let m' := m.setDom d { (m.dom d) with st := .on }
      exec (.domainOn d) s = .next { s with m := if fromOff then m'.clearDom d else m' }) ∧
    (∀ d t off, (m.dom d).pend = some (t, off) → t ≤ m.now →
      let m' := m.setDom d { st := if (m.dom d).st = .off ∨ off = true then .off else .retain, pend := none, slept := 0 }
      exec (.deferredSleep d) s = .next { s with m := match (m.dom d).st with | .waking true _ => m'.clearDom d | _ => m' }) ∧
    (∀ st,
      let left (m : Mach) : Bool := (m.core core).bound.any fun b => !b.left.isEmpty
      let m' := m.modCore core fun c => { c with bound := c.bound.map fun b =>
        { b with left := b.left.filter (· != st.idx), release := b.release.filter (· != st.idx) } }
      (core < 96 → exec (.lingerRelease core st) s = .next { s with m := m' }) ∧
      (96 ≤ core → (left m = true → left m' = true) → exec (.lingerRelease core st) s = .next { s with m := m' }) ∧
      (96 ≤ core → left m = true → left m' = false → exec (.lingerRelease core st) s = .next { s with m := m'.shed core })) ∧
    (∀ tag code, ((m.core core).ctl.requests.any fun r => r.1 == tag) = true →
      let m' := m.modCore core fun c =>
        ({ c with ctl := { c.ctl with requests := c.ctl.requests.filter fun r => r.1 != tag } } : Core).raise m.now
          (BitVec.ofNat 64 (4 * 2 ^ 60 + code.toNat * 2 ^ 48 + tag.toNat))
      exec (.serviceReply core tag code) s = .next { s with m := m' })

/-! ### Queues -/

/-- QUEUE_ENABLE, QUEUE_DISABLE and QNOTIFY_WRITE (R4, R368, R369, R423). EN 0 to 1 loads the queue, unless its last packet still runs; EN 1 to 0 lets a
running packet end, abandons a parked one with status 0x86 (also where it parked after an earlier write of 0), and turns the queue off; a notify that keeps
what is outstanding within the ring (before a block is loaded none bounds it: the model's choice, log entry 58) and does not lower it is taken, one that
breaks this is ignored, and one under a reset is dropped and counted. -/
def Obligations.QueueDoorbellsComplete : Prop :=
  ∀ (s : State) (fn queue : Nat) (value : W32), fn < 25 → queue < 64 →
    let m := s.m
    let x := m.queue fn queue
    let set (y : Queue) : Mach := m.modQueue fn queue fun _ => y
    let off : Queue := { x with state := .off, park := none, pkt := none, cons := 0, g := x.g.take 8 ++ List.replicate 8 0, rearmed := false, closing := false }
    (x.en = false → x.closing = false → exec (.queueEnable fn queue) s = .next { s with m := (set { x with en := true }).loadQueue fn queue }) ∧
    (x.en = false → x.closing = true → exec (.queueEnable fn queue) s = .next { s with m := set { x with en := true } }) ∧
    (x.en = true → exec (.queueEnable fn queue) s = .next s) ∧
    (x.en = false → x.closing = false → exec (.queueDisable fn queue) s = .next s) ∧
    (x.en = true ∨ x.closing = true → x.pkt = none → exec (.queueDisable fn queue) s = .next { s with m := set { off with en := false } }) ∧
    (∀ p, x.en = true ∨ x.closing = true → x.pkt = some p → x.park = none →
      exec (.queueDisable fn queue) s = .next { s with m := set { x with en := false, closing := true } }) ∧
    (∀ p why, x.en = true ∨ x.closing = true → x.pkt = some p → x.park = some why →
      exec (.queueDisable fn queue) s = .next { s with m := (set { off with en := false }).packetEntry fn queue p 0x86 }) ∧
    ((m.fn fn).resetP = true → exec (.qnotifyWrite fn queue value) s = .next { s with m := m.modFn fn fun y => { y with dropped := y.dropped + 1 } }) ∧
    ((m.fn fn).resetP = false →
      (if (x.rlog = 0 ∨ (value - x.cons).toNat ≤ 2 ^ x.rlog) ∧ (x.notify - x.cons).toNat ≤ (value - x.cons).toNat
       then exec (.qnotifyWrite fn queue value) s = .next { s with m := set { x with notify := value, wake := max x.wake (m.now + 1) } }
       else exec (.qnotifyWrite fn queue value) s = .next s))

/-- PACKET_START, QUEUE_RESUME and F_BUDGET (R370, R373, R377 to R379, R389, R390). A packet that starts loads g0 to g7 from its 64 bytes, or
ends with the fault that reading them meets, or waits for their page; a resumed
queue takes its next step, a WAITTASK first writing the status; a packet that would take its 257th step ends with 0x19, its queue STOPPED, QCONS
advanced and its PACKET entry produced. -/
def Claims.PacketsComplete : Prop :=
  ∀ (s : State),
    let m := s.m
    let f := m.curQ.1
    let q := m.curQ.2
    let x := m.servedQueue
    let set (y : Queue) : Mach := m.modQueue f q fun _ => y
    let first : Packet := { index := x.cons.toNat, pc := 0, steps := 0, loop := none, tx := none, rearm := false }
    let read := m.qRead f (bits x.ring 60 4) (x.ring.toNat % 2 ^ 48 + 64 * (x.cons.toNat % 2 ^ x.rlog)) 64
    (x.state = .idle → x.pkt = none → x.park = none → x.wake ≤ m.now → (m.fn f).paused = false → (x.rearmed = true ∨ x.cons ≠ x.notify) →
      (∀ bs, read = .ok bs → exec .packetStart s = .next { s with m := set { x with
        state := .run, rearmed := false, wake := m.now, pkt := some first
        g := ((List.range 8).map fun i => BitVec.ofNat 64 (field bs (8 * i) 8)) ++ x.g.drop 8 } }) ∧
      (∀ code d, read = .error (.fault code d) → exec .packetStart s = .next { s with m := (set { x with pkt := some first }).endPacket f q code true }) ∧
      (∀ g, read = .error (.pull g) → exec .packetStart s = .next { s with m := (m.askPull f g).modQueue f q fun y => { y with wake := m.now + 1 } })) ∧
    (x.wake ≤ m.now → (m.fn f).paused = false →
      (∀ r v, x.park = some (.done r v) → exec .queueResume s = .next { s with m := set { x with park := none, g := x.g.set r v, wake := m.now + 1 } }) ∧
      (∀ k, x.park = some (.go k) → exec .queueResume s = .next { s with m := set { x with park := none } })) ∧
    (∀ p, x.pkt = some p → x.park = none → x.state = .run → x.wake ≤ m.now → (m.fn f).paused = false → 256 ≤ p.steps →
      (x.closing = true → exec .fBudget s = .next { s with m := m.endPacket f q 0x19 true }) ∧
      (x.closing = false →
      let m' := (set { x with pkt := none, cons := x.cons + 1, rearmed := false, wake := m.now + 1, state := .stopped }).packetEntry f q p 0x19
      exec .fBudget s = .next { s with m := if (m'.fn f).entryWaits q then m'.modQueue f q fun x => { x with park := some .journal } else m' }))

/-- The instructions of queue code that compute, access a window, branch, loop, mark the packet or buffer (R376, R381 to R384, R390, R393, R394):
each with what must hold, the machine after its effect, and where its packet goes on. -/
def Claims.queueOps (q : QWord) (m : Mach) (p : Packet) : List (Instr × Prop × Mach × Option Nat) :=
  let x := m.servedQueue
  let a := x.gr q.a
  let b : W64 := if q.kb then q.b.signExtend 64 else x.gr q.breg
  let put (v : W64) : Mach := m.modQueue m.curQ.1 m.curQ.2 fun x => { x with g := x.g.set q.d.toNat v }
  let packet (g : Packet → Packet) : Mach := m.modQueue m.curQ.1 m.curQ.2 fun x => { x with pkt := x.pkt.map g }
  let target := some ((p.pc : Int) + 1 + q.b.toInt).toNat
  let amount := b.toInt
  let n := if q.fn.getLsbD 2 then 8 else 4
  let off := (a + b).toNat
  let w := x.win q
  let inside := off % n = 0 ∧ off + n ≤ w.len
  let room := match m.qRead m.curQ.1 w.space (w.base + off) n with | .ok bs => some bs | .error _ => none
  let after := match m.qWrite m.curQ.1 w.space (w.base + off) (leBytes n (x.gr q.d).toNat) with | .ok m' => some m' | .error _ => none
  let buffered (o : TxOp) : Mach := packet fun p => { p with tx := p.tx.map fun l => l ++ [o] }
  let compare (holds : Bool) : Mach := put (if holds then 1 else 0)
  [(.qcNop q, True, m, none), (.qcAdd q, True, put (a + b), none), (.qcSub q, True, put (a - b), none), (.qcAnd q, True, put (a &&& b), none),
   (.qcOr q, True, put (a ||| b), none), (.qcShl q, 0 ≤ amount ∧ amount < 64, put (a <<< amount.toNat), none),
   (.qcShl q, -64 < amount ∧ amount < 0, put (a >>> (-amount).toNat), none), (.qcShl q, amount ≤ -64 ∨ 64 ≤ amount, put 0, none),
   (.qcCmp q, q.fn = 0, compare (a == b), none), (.qcCmp q, q.fn = 1, compare (a != b), none),
   (.qcCmp q, q.fn = 2, compare (a.toInt < b.toInt), none), (.qcCmp q, q.fn = 3, compare (b.toInt ≤ a.toInt), none),
   (.qcCmp q, q.fn = 4, compare (a.toNat < b.toNat), none), (.qcCmp q, q.fn = 5, compare (b.toNat ≤ a.toNat), none),
   (.qcLd q, inside ∧ room.isSome, put (BitVec.ofNat 64 (leValue (room.getD []))), none),
   (.qcSt q, inside ∧ p.tx = none ∧ after.isSome, after.getD m, none),
   (.qcSt q, inside ∧ p.tx.isSome,
     buffered { kind := 0, place := if w.space = 4 then .host (w.base + off) else .dev (w.base + off), bytes := n, val := x.gr q.d, dst := 0 }, none),
   (.qBrf q, q.fn = 0, m, target), (.qBrf q, q.fn = 1 ∧ a = 0, m, target), (.qBrf q, q.fn = 1 ∧ a ≠ 0, m, none),
   (.qBrf q, q.fn = 2 ∧ a ≠ 0, m, target), (.qBrf q, q.fn = 2 ∧ a = 0, m, none),
   (.qLoop q, True, packet fun y => { y with loop := some (p.pc + 1, p.pc + (16 * q.d.toNat + q.a.toNat), q.b.toNat) }, none),
   (.qRearm q, True, packet fun p => { p with rearm := true }, none), (.qTxb q, True, packet fun p => { p with tx := some [] }, none)]

/-- A step of queue code takes the effect of the table and goes on (R376, R378, R381 to R384, R390, R394): shifts by 64 or more in either direction
give 0, compares give 1 or 0, a load is of 4 or 8 bytes inside its window and zero-extended, a store inside a transaction is buffered. -/
def Obligations.QueueStepsComplete : Prop :=
  ∀ (s : State) (q : QWord) (p : Packet) (i : Instr) (ok : Prop) (m' : Mach) (jump : Option Nat),
    s.m.servedQueue.pkt = some p → (i, ok, m', jump) ∈ Claims.queueOps q s.m p → ok → exec i s = .next (s.stepped m' jump)

/-- END, and the faults of a step at run time (R379, R382, R384, R401). END ends the packet with the low byte of B, which does not stop the queue; an
access outside its window, a signal outside every window, or a vector beyond the table, ends it with F.SPRANGE, the queue STOPPED; so does one that meets a
stage-2 fault, with its code, and one that meets a page to be pulled (R419) waits and is tried again (log entry 23); of a transaction then nothing is
performed. -/
def Claims.PacketEndsComplete : Prop :=
  ∀ (s : State) (q : QWord) (p : Packet),
    let m := s.m
    let x := m.servedQueue
    let b : W64 := if q.kb then q.b.signExtend 64 else x.gr q.breg
    let n := if q.fn.getLsbD 2 then 8 else 4
    let off := (x.gr q.a + b).toNat
    let out (st : Byte) (fault : Bool) : Host.Outcome State Fault Refusal := .next { s with m :=
      (m.modQueue m.curQ.1 m.curQ.2 fun y => { y with pkt := y.pkt.map fun p => { p with steps := p.steps + 1 } }).endPacket m.curQ.1 m.curQ.2 st fault }
    x.pkt = some p →
    exec (.qEnd q) s = out (b.setWidth 8) false ∧
    (off % n ≠ 0 ∨ (x.win q).len < off + n → exec (.qcLd q) s = out 0x0A true ∧ exec (.qcSt q) s = out 0x0A true) ∧
    (x.signal q false = none → exec (.qSigwait q) s = out 0x0A true) ∧
    (x.signal q true = none → exec (.qSigset q) s = out 0x0A true ∧ exec (.qSigadd q) s = out 0x0A true) ∧
    (min 2048 (Config.msixSize m.curQ.1) ≤ b.toNat → exec (.qIrq q) s = out 0x0A true) ∧
    (let f := m.curQ.1
     let w := x.win q
     let ended (e : WalkEnd) (i : Instr) : Prop := match e with
       | .fault code _ => exec i s = out code true
       | .pull g => exec i s = .next { s with m := (m.askPull f g).modQueue f m.curQ.2 fun y => { y with wake := m.now + 1 } }
       | .leaf .. => True
     let txe (ops : List TxOp) := ops.foldl (fun (r : Except WalkEnd (Mach × List Nat)) o => match r with
       | .error e => .error e | .ok y => y.1.txOp f y.2 o) (.ok (m, []))
     (∀ e, off % n = 0 → off + n ≤ w.len →
       (m.qRead f w.space (w.base + off) n = .error e → ended e (.qcLd q)) ∧
       (p.tx = none → m.qWrite f w.space (w.base + off) (leBytes n (x.gr q.d).toNat) = .error e → ended e (.qcSt q))) ∧
     (∀ a e, x.signal q false = some a → m.gpa f a .read = .error e → ended e (.qSigwait q)) ∧
     (∀ a e, x.signal q true = some a → p.tx = none →
       (m.signal f a (fun _ => b.toNat) = .error e → ended e (.qSigset q)) ∧ (m.signal f a (fun v => v + b.toNat) = .error e → ended e (.qSigadd q))) ∧
     (∀ ops e, p.tx = some ops → txe ops = .error e → ended e (.qTxe q)) ∧
     (∀ e, m.qRead f w.space (w.base + 8) 4 = .error e → ended e (.qPost q)))

/-- Packets of a queue (R370, R373, R377 to R379, R382, R384, R389, R390, R401): each of the statements above. -/
def Obligations.PacketsAndTheirEndsComplete : Prop := Claims.PacketsComplete ∧ Claims.PacketEndsComplete

/-- Signals, transactions, POST, IRQ and WAITTASK (R382, R385, R387 to R389, R391, R394). SIGWAIT goes on where the condition holds of the masked
word and else parks, in order; SIGSET and SIGADD change the word and walk its halyard, SIGADD returning the old value, or are buffered; TXE performs
the buffer in order and then walks the halyards; POST writes gA at the ring's next place, or answers 0 on a full one; IRQ raises a vector of the
table; WAITTASK answers the status known, or parks. -/
def Obligations.QueueSignalsComplete : Prop :=
  ∀ (s : State) (q : QWord) (p : Packet),
    let m := s.m
    let f := m.curQ.1
    let x := m.servedQueue
    let b : W64 := if q.kb then q.b.signExtend 64 else x.gr q.breg
    let put (m : Mach) (v : W64) : Mach := m.modQueue m.curQ.1 m.curQ.2 fun x => { x with g := x.g.set q.d.toNat v }
    let packet (m : Mach) (g : Packet → Packet) : Mach := m.modQueue m.curQ.1 m.curQ.2 fun x => { x with pkt := x.pkt.map g }
    let mask := (x.gr q.d).toNat
    let go (m : Mach) : Host.Outcome State Fault Refusal := .next (s.stepped m none)
    x.pkt = some p →
    (∀ a m' pa, x.signal q false = some a → m.gpa f a .read = .ok (m', pa) →
      let sig := m'.dev.value pa 8 &&& mask
      let cmp := b.toNat &&& mask
      let holds := (q.fn = 0 ∧ cmp ≤ sig) ∨ (q.fn = 1 ∧ sig = cmp) ∨ (q.fn = 2 ∧ sig ≠ cmp)
      (holds → exec (.qSigwait q) s = go m') ∧
      (¬ holds → q.fn.toNat < 3 → exec (.qSigwait q) s = .next (s.parkedStep
        { (m'.modQueue m.curQ.1 m.curQ.2 fun y => { y with parkNo := m.hub.parkNo }) with
          hub := { (m'.modQueue m.curQ.1 m.curQ.2 fun y => { y with parkNo := m.hub.parkNo }).hub with parkNo := m.hub.parkNo + 1 } }
        (.signal pa q.fn.toNat (x.gr q.d) b)))) ∧
    (∀ a, x.signal q true = some a →
      (p.tx = none → ∀ r, m.signal f a (fun _ => b.toNat) = .ok r → exec (.qSigset q) s = go r.1) ∧
      (p.tx = none → ∀ r, m.signal f a (fun v => v + b.toNat) = .ok r → exec (.qSigadd q) s = go (put r.1 (BitVec.ofNat 64 r.2))) ∧
      (p.tx.isSome →
        exec (.qSigset q) s = go (packet m fun p => { p with tx := p.tx.map fun l => l ++ [{ kind := 1, place := .dev a, bytes := 8, val := b, dst := 0 }] }) ∧
        exec (.qSigadd q) s = go (packet m fun p => { p with
          tx := p.tx.map fun l => l ++ [{ kind := 2, place := .dev a, bytes := 8, val := b, dst := q.d.toNat }] }))) ∧
    (∀ ops m' sigs, p.tx = some ops →
      ops.foldl (fun (r : Except WalkEnd (Mach × List Nat)) o => match r with | .error e => .error e | .ok y => y.1.txOp f y.2 o) (.ok (m, [])) =
        .ok (m', sigs) →
      exec (.qTxe q) s = go (packet (sigs.foldl Mach.walkHalyard m') fun p => { p with tx := none })) ∧
    (let w := x.win q
     let slots := (w.len - 64) / 8
     ∀ rd, m.qRead f w.space (w.base + 8) 4 = .ok rd →
      let used := (w.wr - BitVec.ofNat 32 (leValue rd)).toNat
      (slots ≤ used → exec (.qPost q) s = go (put m 0)) ∧
      (∀ m1 m2, used < slots → m.qWrite f w.space (w.base + 64 + 8 * (w.wr.toNat % slots)) (leBytes 8 (x.gr q.a).toNat) = .ok m1 →
        m1.qWrite f w.space w.base (leBytes 4 (w.wr + 1).toNat) = .ok m2 →
        exec (.qPost q) s = go (put (m2.modQueue f m.curQ.2 fun y => { y with
          wins := y.wins.modify (q.fn.toNat % 4) fun w => { w with wr := (x.win q).wr + 1 } }) 1))) ∧
    (b.toNat < min 2048 (Config.msixSize f) → exec (.qIrq q) s = go { m with hub := { m.hub with msix := m.hub.msix ++ [(f, b.toNat)] } }) ∧
    (let seq := (x.gr q.a).toNat % 2 ^ 48
     (∀ st, (m.fn f).cmdStatus seq = some st → exec (.qWaittask q) s = go (put m (st.setWidth 64))) ∧
     ((m.fn f).cmdStatus seq = none → exec (.qWaittask q) s = .next (s.parkedStep m (.task seq q.d.toNat))))

/-- Launches (R17, R365, R386, R395, R417, R421). A command waits, parked, while the journal (or, for LAUNCH, the window) lacks room. With room it is
accepted, gD becoming its number, or refused, gD becoming its number and, in bits 55:48, the status: 0x81 for a card or a range that is not in
order, 0x85 where the form names no task that can take it; a card on a page to be pulled waits for it (R419). -/
def Obligations.LaunchesComplete : Prop :=
  ∀ (s : State) (q : QWord) (p : Packet),
    let m := s.m
    let f := m.curQ.1
    let x := m.servedQueue
    let ga := x.gr q.a
    let b : W64 := if q.kb then q.b.signExtend 64 else x.gr q.breg
    let put (m : Mach) (v : W64) : Mach := m.modQueue m.curQ.1 m.curQ.2 fun x => { x with g := x.g.set q.d.toNat v }
    let refused (st : Byte) : Host.Outcome State Fault Refusal :=
      let r := m.refuse f m.curQ.2 ga st
      .next (s.stepped (put r.1 (BitVec.ofNat 64 (r.2 % 2 ^ 48 + st.toNat * 2 ^ 48))) none)
    let accepted (act : Mach → Nat → Mach) : Host.Outcome State Fault Refusal :=
      let r := m.accept f m.curQ.2 ga
      let m' := act r.1 r.2
      .next (s.stepped (m'.modQueue m'.curQ.1 m'.curQ.2 fun x => { x with g := x.g.set q.d.toNat (BitVec.ofNat 64 (r.2 % 2 ^ 48)) }) none)
    let parked : Host.Outcome State Fault Refusal :=
      .next { s with m := m.modQueue f m.curQ.2 fun y => { y with park := some .launch, wake := m.now + 1 } }
    let named := m.hub.tasks.find? fun t => t.num == ga.toNat % 2 ^ 48 && t.fn == f
    x.pkt = some p →
    ((m.fn f).acceptRoom = false →
      exec (.qLaunch q) s = parked ∧ exec (.qLaunchRi q) s = parked ∧ exec (.qLaunchKill q) s = parked ∧ exec (.qLaunchInv q) s = parked) ∧
    (m.windowRoom f = false → exec (.qLaunch q) s = parked) ∧
    ((m.fn f).acceptRoom = true →
      (m.windowRoom f = true →
        (∀ t, ga.toNat < 2 ^ 48 → m.card f m.curQ.2 ga.toNat b x.readable = .task t →
          exec (.qLaunch q) s = accepted fun m seq => m.addTask { t with seq := seq }) ∧
        (∀ st, ga.toNat < 2 ^ 48 → m.card f m.curQ.2 ga.toNat b x.readable = .refused st → exec (.qLaunch q) s = refused st) ∧
        (∀ g, ga.toNat < 2 ^ 48 → m.card f m.curQ.2 ga.toNat b x.readable = .pulling g →
          exec (.qLaunch q) s = .next { s with m := (m.askPull f g).modQueue f m.curQ.2 fun y => { y with wake := m.now + 1 } }) ∧
        (2 ^ 48 ≤ ga.toNat → exec (.qLaunch q) s = refused 0x81)) ∧
      (∀ t, named = some t → t.state ≠ .done → t.port.failed.isSome →
        exec (.qLaunchRi q) s = accepted fun m seq => m.modTask t.seq fun t => { t with port := { t.port with failed := none, reissue := some (seq, m.curQ.2, b) } }) ∧
      ((∀ t, named = some t → t.state = .done ∨ t.port.failed = none) → exec (.qLaunchRi q) s = refused 0x85) ∧
      (∀ t, named = some t → exec (.qLaunchKill q) s = accepted fun m' seq => m'.killCommand f m.curQ.2 seq t.seq) ∧
      (named = none → exec (.qLaunchKill q) s = refused 0x85) ∧
      (if ga.toNat % 0x10000 = 0 ∧ ga.toNat < 2 ^ 48 ∧ 0 < b.toNat ∧ b.toNat < 65536
       then exec (.qLaunchInv q) s = accepted fun m' seq => m'.startInv f m.curQ.2 seq ga.toNat b.toNat
       else exec (.qLaunchInv q) s = refused 0x81))

/-! ### Tasks -/

/-- COMMAND_SUBMIT (R341, R365, R397): a task whose chain is due meets its end, moves to the next command block, submits the block's next command (with the
resume word of a re-issue and the last record's path) unless an entry still waits for the journal (R400), or, for a word that is no tile instruction, ends
it with detail code 0x01. A block that is
not in order kills the task with status 0x81. -/
def Claims.CommandSubmitCompletes : Prop :=
  ∀ (s : State) (t : Task), s.m.served = some t → s.m.submitDue t = true →
    let m := s.m
    let p := t.port
    let port (g : PPort → PPort) : Mach := m.modTask t.seq fun t => { t with port := g t.port }
    (p.block = 0 → exec .commandSubmit s = .next { s with m := port fun p => { p with done := true } }) ∧
    (∀ code d, p.block ≠ 0 → m.gpaRead t.fn p.block 256 = .error (.fault code d) → exec .commandSubmit s = .next { s with m := m.killTask t.seq 0x81 }) ∧
    (∀ g, p.block ≠ 0 → m.gpaRead t.fn p.block 256 = .error (.pull g) → 
      (let later := (m.askPull t.fn g).modTask t.seq fun t => { t with port := { t.port with wake := m.now + 1 } }
       exec .commandSubmit s = .next { s with m := later })) ∧
    (∀ b, p.block ≠ 0 → m.gpaRead t.fn p.block 256 = .ok b →
      let n := field b 8 1
      let ok := 1 ≤ n ∧ n ≤ 15 ∧ field b 9 7 = 0 ∧ field b 0 8 % 256 = 0 ∧ field b 0 8 < 2 ^ 48
      let k : ChainCmdP := { seqNo := 0, index := p.index, words := bytesImage 128 ((b.drop (16 + 16 * p.inBlk)).take 16),
                             resume := ((p.reissue.map fun r => r.2.2).getD 0)
                             path := ((p.record.map fun (r : W64 × W64 × W64) => (r.2.2 &&& 0xFF80000000000000) ||| (r.2.1 >>> 32)).getD (0 : W64)), endAt := none, bar := false }
      (¬ ok → exec .commandSubmit s = .next { s with m := m.killTask t.seq 0x81 }) ∧
      (ok → n ≤ p.inBlk → exec .commandSubmit s = .next { s with m := port fun p => { p with block := field b 0 8, inBlk := 0 } }) ∧
      (ok → p.inBlk < n → m.portWaits t = true → exec .commandSubmit s = .next { s with m := port fun p => { p with wake := m.now + 1 } }) ∧
      (ok → p.inBlk < n → m.portWaits t = false → 15 < k.tile.1 → exec .commandSubmit s = .next { s with m := m.endCommand t k none 0x01 }) ∧
      (ok → p.inBlk < n → m.portWaits t = false → k.tile.1 ≤ 15 → exec .commandSubmit s = .next { s with m := port fun p => { p with pending := some k } }))

/-- TASK_BIND and TASK_COMPLETE (R20, R398, R407, R408, R412). Feldspar's choice binds the highest-ranked waiting task of its partition whole, with its
image, or starts its restore, a choice that is none changes nothing, and pages of its pinned windows or image that are still to be pulled are asked for
first (R419); ended tasks whose streams linger on those cores make room (R150). A task that is over has the boundary at every core, gives its cores back,
raises its completion signal, has the COMPLETE entry of a re-issue that has not run, its own and then those of its KILLs written; the signal is left out
where its page faults, and waits where its page is pulled (R419). A choice that breaks a rule having no effect is the model's choice (log entry 55), as are
status 0x81 of a command block that is not in order, detail code 0x01 of a word that is no tile instruction (log entry 56) and which pages are asked for
(log entry 32). -/
def Claims.TasksComplete : Prop :=
  ∀ (s : State),
    let m := s.m
    (∀ task choice t p, m.task task = some t → m.part t.part = some p → m.waiting p t = true → m.choiceOk t p choice = true →
      (∀ u ∈ m.hub.tasks, u.seq = t.seq ∨ m.waiting p u = false ∨ m.above p t u = true) →
      let m' := m.makeRoom choice.blocks.flatten
      (t.state = .saved → exec (.taskBind task choice) s = .next { s with m := m'.startRestore t p choice }) ∧
      (t.state ≠ .saved → t.native = false → exec (.taskBind task choice) s = .next { s with m := m'.bindTask t p choice none }) ∧
      (∀ im, t.state ≠ .saved → t.native = true → parseImage (m'.image? t.fn t.image) t.imgLen = some im →
        exec (.taskBind task choice) s = .next { s with m := m'.bindTask t p choice (some im) }) ∧
      (t.state ≠ .saved → t.native = true → parseImage (m'.image? t.fn t.image) t.imgLen = none →
        exec (.taskBind task choice) s = .next { s with m := m.askPages t.fn [m.pullOf t.fn t.image t.imgLen] })) ∧
    (∀ task choice t p, m.task task = some t → m.part t.part = some p → m.waiting p t = true → m.choiceFits t p choice = true → m.pinPages t choice ≠ [] →
      (∀ u ∈ m.hub.tasks, u.seq = t.seq ∨ m.waiting p u = false ∨ m.above p t u = true) →
      exec (.taskBind task choice) s = .next { s with m := m.askPages t.fn (m.pinPages t choice) }) ∧
    (∀ task choice t p, m.task task = some t → m.part t.part = some p → (m.waiting p t = false ∨ m.choiceFits t p choice = false ∨
      ∃ u ∈ m.hub.tasks, u.seq ≠ t.seq ∧ m.waiting p u = true ∧ m.above p t u = false) → exec (.taskBind task choice) s = .next s) ∧
    (∀ t, m.served = some t → m.taskOver t = true →
      let m1 := ((t.cores.foldl (fun a c => insertCore c a) []).foldl (fun m c => m.boundary c 8) m).unbind t
      let finish (m2 : Mach) : Mach :=
        let st := m.taskStatus t
        let m3 := m2.modTask t.seq fun t => { t with state := .done }
        let m4 := (t.port.reissue.map fun r => m3.journal t.fn (JEntry.new 2 st (jref r.1 r.2.1 t.fn) (BitVec.ofNat 64 (t.port.index % 65536)) true)).getD m3
        t.killers.foldl (fun m k => m.complete t.fn k.2 k.1 0) (m4.complete t.fn t.queue t.num st)
      (t.csig = 0 → exec .taskComplete s = .next { s with m := finish m1 }) ∧
      (∀ r, t.csig ≠ 0 → m1.signal t.fn t.csig (fun v => v + 1) = .ok r → exec .taskComplete s = .next { s with m := finish r.1 }) ∧
      (∀ code d, t.csig ≠ 0 → m1.signal t.fn t.csig (fun v => v + 1) = .error (.fault code d) → exec .taskComplete s = .next { s with m := finish m1 }) ∧
      (∀ g, t.csig ≠ 0 → m1.signal t.fn t.csig (fun v => v + 1) = .error (.pull g) → 
        (let later := (m.askPull t.fn g).modTask t.seq fun t => { t with port := { t.port with wake := m.now + 1 } }
         exec .taskComplete s = .next { s with m := later })))

/-- Commands of a chain, and the bind and end of tasks (R20, R341, R365, R397, R398, R407, R408, R412): each of the statements above. -/
def Obligations.TasksAndCommandsComplete : Prop := Claims.CommandSubmitCompletes ∧ Claims.TasksComplete

/-- JOURNAL_RETRY and INV_S2_COMPLETE (R400, R417). Waiting entries are written in order as far as their writes succeed, and tried again 1 ms later;
an INV.S2 whose writes and atomics are all acknowledged ends with its COMPLETE entry, status 0, the translations of its range gone from every core. -/
def Claims.JournalAndInvalidationsComplete : Prop :=
  ∀ (s : State),
    let m := s.m
    let f := m.curQ.1
    let later (m : Mach) : Mach := m.modFn f fun x => { x with retryAt := s.m.now + 1400000 }
    ((m.fn f).waitJ = [] → exec .journalRetry s = .next { s with m := later m }) ∧
    (∀ e es, (m.fn f).waitJ = e :: es → m.tryEntry f e = none → exec .journalRetry s = .next { s with m := later (m.pullJournal f) }) ∧
    (∀ e m', (m.fn f).waitJ = [e] → m.tryEntry f e = some m' →
      exec .journalRetry s = .next { s with m := later (m'.modFn f fun x => { x with waitJ := x.waitJ.drop 1 }) }) ∧
    (∀ e es m', (m.fn f).waitJ = e :: es → m.tryEntry f e = some m' →
      exec .journalRetry s = exec .journalRetry { s with m := m'.modFn f fun x => { x with waitJ := x.waitJ.drop 1 } }) ∧
    (∀ seq v, m.hub.invs.find? (fun v => v.seq == seq) = some v → m.invDone v = true →
      let m1 := m.dropEntries v.fn v.gpa v.pages
      exec (.invS2Complete seq) s = .next { s with m :=
        ({ m1 with hub := { m1.hub with invs := m1.hub.invs.filter fun x => x.seq != seq } } : Mach).complete v.fn v.queue seq 0 })

/-- Slices, pre-emption and the watchdog (R122, R408 to R411). At a slice's end the lowest-ranked bound task is to be pre-empted; a command-block task
gives its cores back between two commands, its ports' sequence numbers starting again at 0; one that has not reached a boundary in time is
pre-empted of its full state: every core stops, and, once all is quiet, the task is saved. A task beyond its limit is killed with status 0x84. -/
def Obligations.PreemptionCompletes : Prop :=
  ∀ (s : State) (t : Task), s.m.served = some t →
    let m := s.m
    (∀ p, m.part t.part = some p → m.sliceDue t = true →
      let low := ((m.window t.part).filter fun u => u.state == .bound && u.killed.isNone && u.here).foldl (fun a u => if m.above p a u then u else a) t
      exec .sliceExpiry s = .next { s with m := m.modTask low.seq fun u => { u with preempt := some (m.now, u.native) } }) ∧
    (t.native = false → t.state = .bound → t.killed = none → t.port.running = [] → t.port.pending = none → t.port.failed = none →
      t.port.done = false → (∃ at_, t.preempt = some (at_, false)) →
      exec .preemptGraph s = .next { s with m := (m.unbind t).modTask t.seq fun t => { t with
        state := .ready, preempt := none, port := { t.port with seqNo := 0, subs := [], woke := [] } } }) ∧
    (∀ at_, t.state = .bound → t.preempt = some (at_, false) → at_ + 5600000 ≤ m.now →
      exec .preemptTimeout s = .next { s with m := m.modTask t.seq fun t => { t with preempt := t.preempt.map fun p => (p.1, true) } }) ∧
    (m.toStop t = true → exec .preemptFull s = .next { s with m := t.cores.foldl (fun m' c => m'.modCore c fun x => x.preemptStop m.now) m }) ∧
    (m.toStop t = false → m.taskSavable t = true →
      exec .preemptFull s = .next { s with m := (m.unbind t).modTask t.seq fun u => { u with
        state := .saved, saved := t.cores.map fun c => (c, m.core c), segs := t.cores.flatMap m.savedSegs
        barriers := m.bars.filter fun b => b.ref.task == t.seq, savedAt := m.now, preempt := none } }) ∧
    (m.watchdogDue t = true → exec .watchdogLimit s = .next { s with m := m.killTask t.seq 0x84 })

/-- Page pulls (R419, R420). A pull that an access waits for, or Feldspar's own of the least page which remains beside those, lands while no peer entry of
the page's peer has lost every link: it writes the page's bytes at the place its leaf names, and the leaf with M = 0 and D = 0, the loads of queues that
waited are tried again, and Feldspar pulls its next page; a pull that is lost ends the function's bound tasks with status 0x14, stops its queues, writes
the lost-page list and raises the vector of the RESTORE. -/
def Claims.PagePullsComplete : Prop :=
  ∀ (s : State) (fn gpa : Nat) (p : Pull), (s.m.fn fn).pull = some p →
    let m := s.m
    (∀ root entry e size, (m.fn fn).s2root = some root → migratingLeaf m.dev gpa 4 0 root = some (entry, e, size) →
      let base := gpa / size * size
      let m1 := m.devWrite (atAddr (e / 256 % 2 ^ 40 * 256) ((m.peerMem p.peer).readBlock base size))
      let m2 := m1.devAtomic (atAddr entry (leBytes 8 (e - e / 128 % 2 * 128 - e / 64 % 2 * 64)))
      let m3 := m2.modFn fn fun x => { x with pulls := x.pulls.filter (fun y => y.1 != base), retryAt := m2.now }
      let asked := (∃ y ∈ (m.fn fn).pulls, y.1 = base) ∨ ∃ t, (m.fn fn).ownPull = some (base, t)
      let linked := ∀ y, (m.fn fn).peers.find? (fun y => y.num == p.peer) = some y → m.liveLinks y ≠ []
      (asked → linked → exec (.pagePull fn gpa) s = .next { s with m := (m3.reloadQueues fn).ownPull fn }) ∧
      (¬ asked ∨ ¬ linked → exec (.pagePull fn gpa) s = .next s)) ∧
    (let m1 := ((m.fnTasks fn).filter fun t => t.state == .bound || t.state == .restoring).foldl (fun m t => m.killTask t.seq 0x14) m
     let m2 := (m1.fn fn).queues.foldl (fun m y => if y.2.state == .off || y.2.state == .rejected then m
       else (m.endPacket fn y.1 0x14 true).modQueue fn y.1 fun x => { x with state := .stopped, park := none }) m1
     let lost := ((m2.fn fn).s2root.map fun root => migrating m2.dev 4 0 root 0).getD []
     let room := p.len / 8 - 1
     let list := leBytes 8 ((lost.take room).length + (if room < lost.length then 2 ^ 63 else 0)) ++ (lost.take room).flatMap (leBytes 8)
     let m3 := if p.len < 8 then m2 else m2.devWrite (atAddr p.list list)
     exec (.fPulllost fn) s = .next { s with m := (m3.modFn fn fun x => { x with pull := none, pulls := [], ownPull := none }).raiseVec 0 p.vec })

/-- Waiting journal entries, INV.S2 and page pulls (R400, R417, R419, R420): each of the statements above. The model's choices are that a pull moves the
whole leaf, that the packets of a function whose pulls are lost end with status 0x14, which pages the lost list names and which page Feldspar pulls of
itself (log entry 32), and that INV.S2 removes the entries of its range again at its completion (log entry 74). -/
def Obligations.JournalAndPagePullsComplete : Prop := Claims.JournalAndInvalidationsComplete ∧ Claims.PagePullsComplete

/-! ### The management core, registers and resets -/

/-- The mailbox commands of one step (R403, R408, R413 to R416, R424, R425): the command, its CODE, the fields of its argument block, and, for arguments
`a`, the status it ends with and the machine after its effect; which values out of range are BADARG is the model's reading (log entry 28). -/
def Claims.mailbox (m : Mach) (a : List Byte) : List (Instr × Nat × List (Nat × Nat) × Prop × Nat × Mach) :=
  let f4 := field a 0 4
  let f := field a 0 8
  let w := field a 8 8
  let setFn (f : Nat) (g : Fn → Fn) : Mach := m.modFn f g
  let registered := m.mgmt.images.any fun x => x.reg && x.area == f
  let win : HostWin := { num := field a 4 4, base := w, len := field a 16 8, r := field a 24 1 % 2 == 1, w := field a 24 1 / 2 == 1 }
  let peer : PeerEntry := { num := field a 4 4, links := BitVec.ofNat 16 w, ctx := BitVec.ofNat 64 (field a 16 8) }
  let policy (p : Part) : Part := { p with slice := field a 4 4, watch := w, weights := (List.range 25).map fun i => field a (16 + i) 1 }
  let fw := m.sys.readBlock f (Config.firmwareSize (m.sys.readBlock f 64))
  let im := Config.firmwareImage fw
  let signed := Config.sm2Verify (sm3 fw) im.1 = true
  let stale := ∃ x ∈ m.mgmt.images, x.reg = true ∧ (x.ver < im.2.2.1 ∨ im.2.2.2 < x.ver)
  let keyh : BitVec 256 := ((m.fn f).key.map fun k => sm3 (imageBytes k)).getD (BitVec.ofNat 256 (Config.freeNat m.free))
  let report := leBytes 4 1 ++ leBytes 4 m.mgmt.svn ++ (a.drop 0x20).take 32 ++ leBytes 32 Config.bootFirmware.2.2.toNat ++
    leBytes 32 m.mgmt.fwHash.toNat ++ leBytes 32 (sm3 (imageBytes m.mgmt.layout)).toNat ++ leBytes 32 keyh.toNat
  [(.mbRelease, 4, [(0, 8)], f < 2 ^ 48 ∧ registered = true, 0, m.modMgmt fun g => { g with
     images := g.images.map fun x => if x.area == f then { x with reg := false } else x }),
   (.mbRelease, 4, [(0, 8)], f < 2 ^ 48 ∧ registered = false, 9, m), (.mbRelease, 4, [(0, 8)], 2 ^ 48 ≤ f, 1, m),
   (.mbS2root, 5, [(0, 8), (8, 8)], 25 ≤ f ∨ 2 ^ 48 ≤ w ∨ w % 4096 ≠ 0, 1, m), (.mbCodekey, 6, [(0, 8), (16, 16)], 25 ≤ f, 1, m),
   (.mbHostwin, 7, [(0, 4), (4, 4), (8, 8), (16, 8), (24, 8)], 25 ≤ f4 ∨ 64 ≤ win.num ∨ 4 ≤ field a 24 8, 1, m),
   (.mbPeer, 8, [(0, 4), (4, 4), (8, 8), (16, 8)], 25 ≤ f4 ∨ 4096 ≤ peer.num ∨ 65536 ≤ w ∨ 65536 ≤ field a 16 8, 1, m),
   (.mbPolicy, 9, [(0, 4), (4, 4), (8, 8), (16, 25)], (m.part f4).isSome = false, 1, m),
   (.mbFwact, 10, [(0, 8)], 2 ^ 48 ≤ f, 1, m), (.mbAttest, 11, [(0, 8), (8, 8), (0x20, 32)], 25 ≤ f ∨ 2 ^ 48 ≤ w, 1, m),
   (.mbS2root, 5, [(0, 8), (8, 8)], f < 25 ∧ w < 2 ^ 48 ∧ w % 4096 = 0 ∧ m.fnBound f = false, 0, setFn f fun x => { x with s2root := some w }),
   (.mbS2root, 5, [(0, 8), (8, 8)], f < 25 ∧ w < 2 ^ 48 ∧ w % 4096 = 0 ∧ m.fnBound f = true, 2, m),
   (.mbCodekey, 6, [(0, 8), (16, 16)], f < 25, 0, setFn f fun x => { x with key := some (bytesImage 128 ((a.drop 16).take 16)) }),
   (.mbHostwin, 7, [(0, 4), (4, 4), (8, 8), (16, 8), (24, 8)], f4 < 25 ∧ win.num < 64 ∧ field a 24 8 < 4, 0,
     setFn f4 fun x => { x with hostWins := (x.hostWins.filter fun y => y.num != win.num) ++ [win] }),
   (.mbPeer, 8, [(0, 4), (4, 4), (8, 8), (16, 8)], f4 < 25 ∧ peer.num < 4096 ∧ w < 65536 ∧ field a 16 8 < 65536, 0,
     setFn f4 fun x => { x with peers := (x.peers.filter fun y => y.num != peer.num) ++ [peer] }),
   (.mbPolicy, 9, [(0, 4), (4, 4), (8, 8), (16, 25)], (m.part f4).isSome = true, 0, m.modMgmt fun g => { g with
     parts := g.parts.map fun p => if p.num = f4 then policy p else p }),
   (.mbFwact, 10, [(0, 8)], f < 2 ^ 48 ∧ ¬ signed, 4, m), (.mbFwact, 10, [(0, 8)], f < 2 ^ 48 ∧ signed ∧ im.2.1 < m.mgmt.svn, 5, m),
   (.mbFwact, 10, [(0, 8)], f < 2 ^ 48 ∧ signed ∧ m.mgmt.svn ≤ im.2.1 ∧ stale, 6, m),
   (.mbFwact, 10, [(0, 8)], f < 2 ^ 48 ∧ signed ∧ m.mgmt.svn ≤ im.2.1 ∧ ¬ stale, 0,
     m.mgmtRestart.modMgmt fun g => { g with svn := im.2.1, fwHash := sm3 fw, reads := im.2.2 }),
   (.mbAttest, 11, [(0, 8), (8, 8), (0x20, 32)], f < 25 ∧ w < 2 ^ 48, 0, { m with free := m.free + 1 }.devWrite
     (atAddr w (report ++ leBytes 64 (Config.sm2Sign (sm3 report)).toNat)))]

/-- A mailbox command that is due and whose block is in order ends with its status and effect, and one whose block is not with BADARG: MBSTAT holds the
status with BUSY clear, and VEC is raised (R402, R403). -/
def Obligations.MailboxCommandsComplete : Prop :=
  ∀ (s : State) (i : Instr) (code : Nat) (fields : List (Nat × Nat)) (ok : Prop) (status : Nat) (m' : Mach),
    (i, code, fields, ok, status, m') ∈ Claims.mailbox s.m s.m.mbArgs → s.m.mbDue code = true →
    (s.m.mbBlockOk fields = true → ok → exec i s = .next { s with m := m'.mbEnd status }) ∧
    (s.m.mbBlockOk fields = false → exec i s = .next { s with m := s.m.mbEnd 1 })

/-- LAYOUT, SAVE and RESTORE (R403 to R405, R413, R414). LAYOUT refuses a record that is not in order or one in use, else prepares, flips and commits it,
one phase a step. SAVE pauses the function until none of its tasks is bound, then writes and registers the image, or refuses a short area. RESTORE checks
that it knows the image, its version, shape and idleness in turn, and takes over queues, journal registers and tasks, which keep their numbers. That a
saved function's tasks leave the hub, that an image is known by its bytes, that the destination's root, key, windows and peers stay, and under which names
tasks come in, is the model's choice (log entry 25); so are the ranges of arguments that answer BADARG (log entry 28). -/
def Obligations.LayoutSaveRestoreComplete : Prop :=
  ∀ (s : State),
    let m := s.m
    let a := m.mbArgs
    (m.mbDue 1 = true →
      let r := m.sys.readBlock (field a 0 8) 512
      let ok := m.mbBlockOk [(0, 8)] = true ∧ field a 0 8 < 2 ^ 48 ∧ m.layoutOk r = true
      (m.mgmt.laying = none → ¬ ok → exec .mbLayout s = .next { s with m := m.mbEnd 1 }) ∧
      (m.mgmt.laying = none → ok → m.layoutInUse (layoutOf r) = true → exec .mbLayout s = .next { s with m := m.mbEnd 2 }) ∧
      (m.mgmt.laying = none → ok → m.layoutInUse (layoutOf r) = false → exec .mbLayout s = .next { s with m := (m.layoutPrepare r).mbNext }) ∧
      (∀ l, m.mgmt.laying = some l →
        (m.mgmt.flipped = false → exec .mbLayout s = .next { s with m := m.layoutFlip.mbNext }) ∧
        (m.mgmt.flipped = true → exec .mbLayout s = .next { s with m := (m.layoutCommit l).mbEnd 0 }))) ∧
    (m.mbDue 2 = true →
      let f := field a 0 8
      let area := field a 8 8
      let len := field a 16 8
      let ok := m.mbBlockOk [(0, 8), (8, 8), (16, 8)] = true ∧ f < 25 ∧ area + len ≤ 2 ^ 48
      let bs := saveBytes m.mgmt.reads.2 f (m.shapeOf f) (m.fnTasks f).length (Config.saveBody (Config.freeNat m.free))
      (¬ ok → exec .mbSave s = .next { s with m := m.mbEnd 1 }) ∧
      (ok → (m.fn f).paused = false ∨ m.fnBound f = true → exec .mbSave s = .next { s with m := (m.pause f).mbNext }) ∧
      (ok → (m.fn f).paused = true → m.fnBound f = false →
        (len < bs.length → exec .mbSave s = .next { s with m := (m.modFn f fun x => { x with paused := false }).mbEnd 3 }) ∧
        (bs.length ≤ len →
          let im : SaveImage := { area := area, fn := f, ver := m.mgmt.reads.2, shape := m.shapeOf f, bytes := bs, reg := true, spoilt := false, func := m.fn f,
                                  tasks := (m.fnTasks f).map fun t => { t with preempt := none } }
          let m1 := ({ m with free := m.free + 1, hub := { m.hub with tasks := m.hub.tasks.filter fun t => t.fn != f } } : Mach).devWrite (atAddr area bs)
          exec .mbSave s = .next { s with m := (m1.modMgmt fun g => { g with
            images := g.images ++ [im] }).mbEnd 0 }))) ∧
    (m.mbDue 3 = true →
      let f := field a 0 8
      let peer := field a 0x10 8
      let ok := m.mbBlockOk [(0, 8), (8, 8), (16, 8), (24, 8), (32, 8), (40, 8)] = true ∧ f < 25 ∧ field a 8 8 < 2 ^ 48 ∧
        (peer < 4096 ∨ peer = 0xFFFF) ∧ field a 0x20 8 + field a 0x28 8 ≤ 2 ^ 48
      let out (st : Nat) : Host.Outcome State Fault Refusal := .next { s with m := m.mbEnd st }
      (¬ ok → exec .mbRestore s = out 1) ∧ (ok → m.imageAt (field a 8 8) = none → exec .mbRestore s = out 8) ∧
      (∀ im, ok → m.imageAt (field a 8 8) = some im →
        let read := m.mgmt.reads.1 ≤ im.ver ∧ im.ver ≤ m.mgmt.reads.2
        let vec := (bits m.mgmt.mbcmd 16 12).toNat
        let pull : Option Pull := if peer = 0xFFFF then none else some ⟨peer, field a 0x18 8, field a 0x20 8, field a 0x28 8, vec⟩
        let m1 := m.modFn f fun old => { im.func with
          s2root := (m.fn f).s2root, key := (m.fn f).key, hostWins := (m.fn f).hostWins, peers := (m.fn f).peers, paused := false, pull := pull, pulls := []
          ownPull := none }
        let m2 : Mach := { m1 with hub := { m1.hub with tasks := m1.hub.tasks ++ m1.carryTasks f im.tasks } }
        (¬ read → exec .mbRestore s = out 1) ∧ (read → im.shape ≠ m.shapeOf f → exec .mbRestore s = out 7) ∧
        (read → im.shape = m.shapeOf f → m.fnTasks f ≠ [] → exec .mbRestore s = out 2) ∧
        (read → im.shape = m.shapeOf f → m.fnTasks f = [] → exec .mbRestore s = .next { s with m :=
          ((m2.modMgmt fun g => { g with images := g.images.map fun x => if x == im then { x with reg := false } else x }).ownPull f).mbEnd 0 })) ∧
      (∀ (m' : Mach) (f : Nat) (ts : List Task) (i : Nat) (t : Task), (m'.carryTasks f ts)[i]? = some t → ∃ u, ts[i]? = some u ∧ t.num = u.num ∧ t.fn = f ∧ t.part = m'.fnPart f ∧ t.state = u.state ∧
        t.port = u.port ∧ t.saved = u.saved))

/-- REGISTER_WRITE (R4, R367, R402, R437, R440): the journal's base and size take a write only while no queue of the function is enabled, JSIZE only 8 to
20, JBASE also setting JWR to 0; the registers of function 0, those of the mailbox only while it is not BUSY, and GO with a CODE that starts a command on
the argument block as it then stands, or, with another CODE, ends it with BADARG; JRD, which frees the kept RESET entry's place once it has passed it (R399,
R400); a queue's QCB, EN and QNOTIFY; a write that is none of these, a read-only register's
among them, changes nothing. The model's choices are that JBASE sets JWR to 0 and that JRD is kept (log entry 31), that an unknown CODE answers BADARG and that the
arguments are read once, at GO (log entry 28), and that JSIZE is judged by its field (log entry 31). -/
def Obligations.RegisterWritesComplete : Prop :=
  ∀ (s : State) (fn : Nat) (v : W64), fn < 25 →
    let m := s.m
    let run (offset : Nat) := exec (.registerWrite fn offset v) s
    let out (m : Mach) : Host.Outcome State Fault Refusal := .next { s with m := m }
    let idle := (m.fn fn).anyEnabled = false
    let k := v.toNat % 32
    (idle → run 0x0000 = out (m.modFn fn fun x => { x with jbase := v, jwr := 0, resetJ := none })) ∧
    (idle → 8 ≤ k → k ≤ 20 → run 0x0008 = out (m.modFn fn fun x => { x with jsize := BitVec.ofNat 32 k })) ∧
    (idle → k < 8 ∨ 20 < k → run 0x0008 = .next s) ∧ (¬ idle → run 0x0000 = .next s ∧ run 0x0008 = .next s) ∧
    (let passed (i : Nat) : Prop := 0 < ((v.setWidth 32 : W32) - BitVec.ofNat 32 i).toNat ∧ ((v.setWidth 32 : W32) - BitVec.ofNat 32 i).toNat < 2 ^ 31
     ((m.fn fn).resetJ = none ∨ (∃ i, (m.fn fn).resetJ = some i ∧ ¬ passed i) → run 0x0018 = out (m.modFn fn fun x => { x with jrd := v.setWidth 32 })) ∧
     (∀ i, (m.fn fn).resetJ = some i → passed i → run 0x0018 = out (m.modFn fn fun x => { x with jrd := v.setWidth 32, resetJ := none }))) ∧
    (fn = 0 → (m.mgmt.busy = false → run 0x0808 = out (m.modMgmt fun g => { g with mbarg := v })) ∧ (m.mgmt.busy = true → run 0x0808 = .next s) ∧
      run 0x0908 = out (m.modModule fun x => { x with railflt := x.railflt &&& ~~~(v.setWidth 32) }) ∧
      run 0x0918 = out (m.modModule fun x => { x with memerr := x.memerr &&& ~~~v }) ∧
      run 0x0910 = exec (.pcapWrite (v.setWidth 32)) s ∧
      (m.mgmt.busy = true → run 0x0800 = .next s) ∧
      (m.mgmt.busy = false → v.getLsbD 31 = true → 1 ≤ v.toNat % 65536 → v.toNat % 65536 ≤ 11 → run 0x0800 = out (m.modMgmt fun g => { g with
        mbcmd := v.setWidth 32 &&& 0x8FFFFFFF, mbstat := g.mbstat ||| 0x80000000, at_ := m.now
        args := bytesImage 512 (m.sys.readBlock g.mbarg.toNat 64) })) ∧
      (m.mgmt.busy = false → v.getLsbD 31 = true → v.toNat % 65536 = 0 ∨ 11 < v.toNat % 65536 → run 0x0800 = out ((m.modMgmt fun g => { g with
        mbcmd := v.setWidth 32 &&& 0x8FFFFFFF, mbstat := g.mbstat ||| 0x80000000, at_ := m.now
        args := bytesImage 512 (m.sys.readBlock g.mbarg.toNat 64) }).mbEnd 1)) ∧
      (m.mgmt.busy = false → v.getLsbD 31 = false → run 0x0800 = out (m.modMgmt fun g => { g with mbcmd := v.setWidth 32 &&& 0x8FFFFFFF }))) ∧
    (fn ≠ 0 → ∀ offset, 0x800 ≤ offset → offset < 0x1000 → run offset = .next s) ∧
    (∀ q < 64, run (0x1000 + 0x40 * q) = out (m.modQueue fn q fun x => { x with qcb := v }) ∧
      run (0x1008 + 0x40 * q) = exec (if v.getLsbD 0 then .queueEnable fn q else .queueDisable fn q) s ∧
      run (0x1010 + 0x40 * q) = exec (.qnotifyWrite fn q (v.setWidth 32)) s ∧
      run (0x1018 + 0x40 * q) = .next s ∧ run (0x1020 + 0x40 * q) = .next s) ∧
    run 0x0010 = .next s

/-- Resets (R406, R423, R436). A watchdog reset of the management core rolls a flipped layout forward, and discards one only prepared with the entries of
phase 3 and BADARG; a function-level reset abandons packets, turns queues off and kills tasks, and, once every task is gone, gives the registers but the
journal's their reset values (function 0's mailbox among them, with LAYST after a layout under way is settled as by the watchdog) and leaves the RESET
entry with the notify writes dropped, or none after PERST_N; PERST_N resets the link, the HDM decoders and every function without one; MOD_RESET_N resets
the module, whose rails stay as they are. How a mailbox command under way ends at function 0's reset is the model's choice (log entries 29 and 30), as are
a second pending reset changing nothing (log entry 30) and what MOD_RESET_N keeps or empties beside (log entry 35). -/
def Obligations.ResetsComplete : Prop :=
  ∀ (s : State) (fn : Nat),
    let m := s.m
    let x := m.fn fn
    (m.mgmt.laying = none → exec .mgmtWatchdogReset s = .next s) ∧
    (∀ r, m.mgmt.laying = some r → m.mgmt.flipped = true → exec .mgmtWatchdogReset s = .next { s with m := (m.layoutCommit r).mbEnd 0 }) ∧
    (∀ r, m.mgmt.laying = some r → m.mgmt.flipped = false →
      let l := layoutOf (imageBytes r)
      exec .mgmtWatchdogReset s = .next { s with m :=
        ((m.modMgmt fun g => { g with prep := false, laying := none }).layoutEntries (m.layoutFns l) l.gen 3).mbEnd 1 }) ∧
    (x.resetP = false →
      let m1 := m.modFn fn fun x => { x with resetP := true, quiet := x.quiet || false, dropped := 0, paused := false }
      let m2 := ((m1.fn fn).queues.map Prod.fst).foldl (fun m q => m.abandon fn q) m1
      let m3 := m2.modFn fn fun x => { x with queues := x.queues.map fun y => (y.1, { y.2.off with en := false, notify := 0 }) }
      exec (.functionLevelReset fn) s = .next { s with m := (m3.fnTasks fn).foldl (fun m t => m.killTask t.seq 0x83) m3 }) ∧
    (x.resetP = true → (∀ t ∈ m.hub.tasks, t.fn = fn → t.state = .done) →
      let m1 := m.modFn fn fun y => { y with
        queues := [], resetP := false, quiet := false, dropped := 0, roomJ := y.roomJ.filter fun e => !(y.quiet && e.kind == 4) }
      let m2 := if fn = 0 then m1.layoutSettle.modMgmt fun g => { g with
        mbcmd := 0, mbarg := 0, mbstat := 0, prep := false, gen := if x.quiet then g.gen else 0, bank := x.quiet && g.bank } else m1
      let entry := JEntry.new 4 0 (jref 0 0 fn) (BitVec.ofNat 64 (x.dropped % 2 ^ 32)) false
      exec (.functionLevelReset fn) s = .next { s with m := if x.quiet then m2 else m2.journalRoom fn entry }) ∧
    (x.resetP = true → (∃ t ∈ m.hub.tasks, t.fn = fn ∧ t.state ≠ .done) → exec (.functionLevelReset fn) s = .next s) ∧
    (let m1 := m.modModule fun x => { x with perst := true, hdm := none, bootst := if x.bootst &&& 0xF = 5 then 0x4 else x.bootst }
     exec .perstN s = .next { s with m := (List.range 25).foldl (fun m f => m.resetBegin f true) m1 }) ∧
    (exec .modResetN s = .next { s with m := m.cold fun x => { x with
      powered := m.module.powered, railst := m.module.railst, railflt := 0, outs := m.module.outs
      plan := m.module.plan.filter fun y => match y.2 with | .bus _ | .rail _ _ | .release => true | _ => false
      bootst := if m.module.powered && m.module.railst == 0x17FFFF then 0x1 else 0 } })

/-! ### Power, links and throttling of the module -/

/-- Bring-up and power-off (R433, R435 to R439). POWER_ON of a module that is off plans the steps of R435 in their order: the bus, the four rails, each
within 2 ms of the one before, MOD_RESET_N's release 1 ms later, firmware, HBM, ports and links, and the host link, or the step that fails in the place of
the first that does; of one whose rails are good it plans the boot stage. Firmware whose security version lies below the counter fails its step (R415).
Each step shows in RAILST and BOOTST: a passed bring-up ends at STAGE 5 with the width and generation the host link trained to, or at STAGE 4 while PERST_N
is low, a failed one at STAGE 0xF with its error, RAILFLT latching a rail that failed. PWR_EN low, a rail fault, which RAILFLT latches, a rail out of
tolerance for 50 µs and THERMTRIP_N power the module off, its rails falling in the reverse order, each within 1 ms. That contents are lost at once, that
POWER_ON of a module at STAGE 1 plans its boot, that milliseconds are counted as cycles and which rail a power-off that names none latches is the model's
choice (log entry 35). -/
def Obligations.PowerSequencesComplete : Prop :=
  ∀ (s : State),
    let m := s.m
    let rails : List PowerStep := [.bus true, .rail 0 true, .rail 1 true, .rail 2 true, .rail 3 true, .release]
    let boot (err : Byte) : List PowerStep := if err = 0 then [.firmware, .hbm, .ports, .ready] else if err = 2 then [.fail 0]
      else if err = 3 then [.firmware, .fail 0] else [.firmware, .hbm, .fail 0]
    let spaced (p : List (Nat × PowerStep)) : Prop := ∀ (i : Nat) (a b : Nat × PowerStep), p[i]? = some a → p[i + 1]? = some b → a.1 ≤ b.1 ∧
      (∀ k, b.2 = .rail k true → b.1 ≤ a.1 + 2 * 1400000) ∧ (b.2 = .release → b.1 = a.1 + 1400000) ∧
      (∀ k, b.2 = .rail k false ∨ b.2 = .bus false → b.1 ≤ a.1 + 1400000)
    let on (hostUp : Bool) (r : BootResult) (p : List (Nat × PowerStep)) (word : W32) : Host.Outcome State Fault Refusal :=
      .next { s with m := { m with free := m.free + 16 }.modModule fun x => { x with
        powered := true, pwrEn := true, perst := !hostUp, boot := r, plan := x.plan ++ p, bootst := word } }
    let fallen (m : Mach) (en : Bool) (p : List (Nat × PowerStep)) : Mach :=
      Mach.cold { m with free := m.free + 8 } fun x => { x with pwrEn := x.pwrEn && en, railst := m.module.railst, plan := p }
    let falls (p : List (Nat × PowerStep)) : Prop :=
      p.map Prod.snd = [.rail 3 false, .rail 2 false, .rail 1 false, .rail 0 false, .bus false] ∧ spaced p
    let off (m : Mach) (en : Bool) (p : List (Nat × PowerStep)) : Host.Outcome State Fault Refusal := .next { s with m := fallen m en p }
    let word (k : Nat) : W32 := if k = 0 then 0x11111 else if k = 1 then 0x22222 else if k = 2 then 0x44444 else 0x8888
    let latched (rail : Nat) := m.modModule fun x => { x with
      railflt := x.railflt ||| BitVec.ofNat 32 (2 ^ rail), railst := x.railst &&& ~~~BitVec.ofNat 32 (2 ^ rail) }
    (∀ hostUp r, m.module.powered = false → r.err = 0 ∨ 2 ≤ r.err.toNat → ∃ p, exec (.powerOn hostUp r) s = on hostUp r p 0 ∧
      p.map Prod.snd = rails ++ boot r.err ∧ spaced p) ∧
    (∀ hostUp r, m.module.powered = false → r.err = 1 → ∃ p k w, exec (.powerOn hostUp r) s = on hostUp r p 0 ∧
      p.map Prod.snd = rails.take (k + 1) ++ [.fail w] ∧ k < 4 ∧ spaced p) ∧
    (∀ hostUp r, m.module.powered = true → m.module.bootst &&& 0xF = 1 → m.module.plan = [] → r.err ≠ 1 →
      ∃ p, exec (.powerOn hostUp r) s = on hostUp r p m.module.bootst ∧ p.map Prod.snd = boot r.err ∧ spaced p) ∧
    (let show_ (st : PowerStep) := (m.powerStep st).module
     (∀ up, (show_ (.bus up)).railst = if up then m.module.railst ||| 0x100000 else m.module.railst &&& ~~~0x100000) ∧
     (∀ k up, k < 4 → (show_ (.rail k up)).railst = if up then m.module.railst ||| word k else m.module.railst &&& ~~~(word k)) ∧
     (show_ .release).bootst = 1 ∧ (show_ .firmware).bootst = (if Config.bootFirmware.1 < m.mgmt.svn then 0x0200000F else 2) ∧
     (m.mgmt.svn ≤ Config.bootFirmware.1 → (m.powerStep .firmware).mgmt.svn = Config.bootFirmware.1) ∧
     (m.module.bootst &&& 0xF = 0xF → m.powerStep .hbm = m ∧ m.powerStep .ports = m ∧ ∀ w, m.powerStep (.fail w) = m) ∧
     (m.module.bootst &&& 0xF ≠ 0xF → (show_ .hbm).bootst = 3 ∧ (show_ .ports).bootst = 4 ∧
       (∀ i l, (show_ .ports).links[i]? = some l → i < 16 → l.up = m.module.boot.links.getLsbD i) ∧
       (∀ w, (show_ (.fail w)).bootst = BitVec.ofNat 32 (m.module.boot.err.toNat * 2 ^ 24 + 0xF)) ∧
       (∀ w k, m.module.boot.err = 1 → k < 4 → (∀ j < k, w &&& word j = word j) → w &&& word k ≠ word k →
         (show_ (.fail w)).railst = w ∧ (show_ (.fail w)).railflt = m.module.railflt ||| (word k &&& ~~~w))) ∧
     (m.module.bootst &&& 0xF = 4 → m.module.perst = false →
       (show_ .ready).bootst = BitVec.ofNat 32 (m.module.boot.hwid.toNat * 2 ^ 16 + m.module.boot.hgen.toNat * 2 ^ 12 + 5)) ∧
     (m.module.perst = true → (show_ .ready).bootst = m.module.bootst)) ∧
    (∀ now t st rest, m.module.plan = (t, st) :: rest → t ≤ now → (∀ x ∈ rest, now < x.1) →
      let m' := (m.modModule fun x => { x with plan := rest }).powerStep st
      (m'.module.powered = false ∨ (∀ o ∈ m'.module.outs, now < o.2 + 70000) → m.powerDue now = m') ∧
      (m'.module.powered = true → (∃ o ∈ m'.module.outs, o.2 + 70000 ≤ now) → ∃ p, falls p ∧ m.powerDue now = fallen m' true p)) ∧
    (m.module.powered = true →
      (∃ p, falls p ∧ exec .thermtripN s = off m true p ∧ (∀ cause, cause ≠ .rail → exec (.powerOff cause) s = off m (cause != .pwrEn) p) ∧
        ∀ rail < 21, rail ≠ 19 → exec (.railFault rail) s = off (latched rail) true p) ∧
      (∃ p rail, rail < 21 ∧ rail ≠ 19 ∧ falls p ∧ exec (.powerOff .rail) s = off { latched rail with free := m.free + 1 } true p)) ∧
    (m.module.powered = false →
      exec .thermtripN s = off m true m.module.plan ∧ (∀ cause, cause ≠ .rail → exec (.powerOff cause) s = off m (cause != .pwrEn) m.module.plan) ∧
      (∀ rail < 21, rail ≠ 19 → exec (.railFault rail) s = off (latched rail) true m.module.plan) ∧
      (∃ rail, rail < 21 ∧ rail ≠ 19 ∧ exec (.powerOff .rail) s = off { latched rail with free := m.free + 1 } true m.module.plan)) ∧
    (m.module.bootst &&& 0xF ≠ 4 → exec .perstNRelease s = .next { s with m := m.modModule fun x => { x with perst := false } }) ∧
    (m.module.bootst &&& 0xF = 4 → ∃ t, exec .perstNRelease s = .next t ∧ t.m.module.perst = false ∧ t.m.module.bootst &&& 0xF = 5 ∧
      bits t.m.module.bootst 24 8 = 0 ∧ (bits t.m.module.bootst 16 3 = 1 ∨ bits t.m.module.bootst 16 3 = 2 ∨ bits t.m.module.bootst 16 3 = 4))

/-- Links and memory errors (R416, R429, R430, R432). A flit in order is taken, what a peer's flit asks for being done in the function that its CTX names
here or refused whole, with its answer, and one out of order is not, and its ACK ends the flits up to it; a ninth bad flit in a row takes the link down,
which sends its unacknowledged flits again on other links of their peer entries, in order, and faults the rows outstanding to peers without a live link; a
link trains again; an uncorrectable error counts in the upper half of MEMERR and kills the task that read the word. The receiver's counting of failing
flits, the SEQ rule and the payload's form are the model's reading (log entry 36). -/
def Claims.LinksAndErrorsComplete : Prop :=
  ∀ (s : State) (link : Nat) (l : Link), s.m.module.links[link]? = some l →
    let m := s.m
    let set (l : Link) : State := { s with m := m.modModule fun x => { x with links := x.links.set link l } }
    let taken (flit : Flit) : Link := if (flit.ack - l.acked).toNat < 2 ^ 15
      then { l with acked := flit.ack, out := l.out.filter fun f => 2 ^ 15 ≤ (flit.ack - f.seq).toNat } else l
    (∀ flit : Flit, l.up = true → flit.ok = true → 1 ≤ flit.type.toNat → flit.type.toNat ≤ 4 →
      (flit.seq = l.got + 1 →
        let m' := (set { taken flit with got := flit.seq, replays := 0 }).m
        let asks := (flit.type = 1 ∨ flit.type = 2) ∧ (flit.writes ≠ [] ∨ flit.reads ≠ [])
        let back : PeerEntry := { num := 0, links := BitVec.ofNat 16 (2 ^ link), ctx := flit.ctx.setWidth 64 }
        let out (m : Mach) : Prop := exec (.flitReceive link flit) s = .next { s with m := m }
        (¬ asks → out m') ∧
        (asks → Config.fabricFn flit.ctx = none → out (m'.sendFlits back 3 [.taken false])) ∧
        (∀ f, asks → Config.fabricFn flit.ctx = some f →
          (m'.peerWrite f flit.writes = none ∨ (∃ m2, m'.peerWrite f flit.writes = some m2 ∧ m2.peerRead f flit.reads = none) →
            out (m'.sendFlits back 3 [.taken false])) ∧
          (∀ m2 r, m'.peerWrite f flit.writes = some m2 → m2.peerRead f flit.reads = some r →
            out ((m2.sendFlits back 2 (r.map .answer)).sendFlits back 3 [.taken true])))) ∧
      (flit.seq ≠ l.got + 1 → exec (.flitReceive link flit) s = .next (set (taken flit)))) ∧
    (∀ flit : Flit, l.up = true → flit.ok = true → (flit.type = 0 ∨ 4 < flit.type.toNat) → exec (.flitReceive link flit) s = .next s) ∧
    (∀ flit : Flit, l.up = true → flit.ok = false →
      (l.replays < 8 → exec (.flitReceive link flit) s = .next (set { l with replays := l.replays + 1 })) ∧
      (8 ≤ l.replays → link < 16 → exec (.flitReceive link flit) s = exec (.linkDown link) (set { l with replays := 0 }))) ∧
    (∀ flit : Flit, l.up = false → exec (.flitReceive link flit) s = .next s) ∧
    (link < 16 →
      let m0 := m.modModule fun x => { x with links := x.links.set link { l with up := false, out := [] } }
      let m1 := l.out.foldl (fun m f => m.sendFlits f.peer f.type [f.load]) m0
      let m2 := m1.active.foldl (fun m c => (m.lostRows c).foldl (fun m r => m.rowFault c r.1 r.2.1 Code.perm lostLink r.2.2) m) m1
      let lost (m : Mach) (f : Nat) : Bool := ((m.fn f).pull.bind fun p => (m.fn f).peers.find? fun e => e.num == p.peer).any fun e =>
        !m.peerLive e && !(m.fn f).pulls.isEmpty
      exec (.linkDown link) s = .next { s with m := (List.range 25).foldl (fun m f => if lost m f then m.losePulls f else m) m2 }) ∧
    (exec (.linkRetrain link) s = .next (set { l with up := true, replays := 0 })) ∧
    (∀ task, let m1 := m.modModule fun x => { x with memerr := x.memerr + 0x100000000 }
      (∀ t, m.task task = some t → t.state ≠ .done → exec (.uncorrectableError task) s = .next { s with m := m1.killTask task 0x83 }) ∧
      (m.task task = none → exec (.uncorrectableError task) s = .next { s with m := m1 }))

/-- Throttling (R107, R440). A power limit of 500 to 3,000 is taken and any other ignored. A write to THRCTLg takes LEVEL and DIES where LEVEL is not 7 and
the groups then hold every die once, no held die moving, LEVEL being Feldspar's demand from then on; else it changes nothing. At an update each group's
LEVEL is at least the demand of the temperature, which rises one level for each full 1 ms that TEMP has stood at or above 95 °C and falls one for each
below it, and Feldspar's, and no more while the group is unthrottled and PWRNOW keeps within PCAP; the level that keeps it so otherwise is the model's free
value (log entry 3). A TEMP of 115 °C powers the module off as THERMTRIP_N does (R435). -/
def Claims.ThrottlingCompletes : Prop :=
  ∀ (s : State),
    let m := s.m
    (∀ v : W32, let cap := v.toNat % 65536
      (500 ≤ cap → cap ≤ 3000 → exec (.pcapWrite v) s = .next { s with m := m.modModule fun x => { x with pcap := BitVec.ofNat 32 cap } }) ∧
      (cap < 500 ∨ 3000 < cap → exec (.pcapWrite v) s = .next s)) ∧
    (∀ g (v : W32), g < 4 →
      let ws := m.module.thrctl.set g (v &&& 0xF07)
      let moved := bits (nth m.module.thrctl g 0) 8 4 ^^^ bits v 8 4
      let once := ∀ d < 4, (ws.filter fun w => (bits w 8 4).getLsbD d).length = 1
      let still := ∀ p ∈ m.mgmt.parts, ∀ d ∈ p.dies, moved.getLsbD d = false
      (bits v 0 3 ≠ 7 → once → still → exec (.thrctlWrite g v) s = .next { s with m := m.modModule fun x => { x with
        thrctl := ws, feld := x.feld.set g (bits v 0 3).toNat } }) ∧
      (bits v 0 3 = 7 ∨ ¬ once ∨ ¬ still → exec (.thrctlWrite g v) s = .next s)) ∧
    (∀ temp power held feldspar, 230 ≤ temp.toNat → exec (.throttleUpdate temp power held feldspar) s = exec .thermtripN s) ∧
    (∀ temp power held feldspar, temp.toNat < 230 → m.module.thrctl.length = 4 → ∃ t, exec (.throttleUpdate temp power held feldspar) s = .next t ∧
      let stood := (m.now - m.module.hotAt) / 1400000
      let old := (m.module.temp.setWidth 16).toNat
      t.m.module.temp = temp.setWidth 32 ∧ t.m.module.pwrnow = power.setWidth 32 ∧ t.m.cores = m.cores ∧ t.m.dev = m.dev ∧
      t.m.module.hot = (if 190 ≤ old then min 6 (m.module.hot + stood) else m.module.hot - stood) ∧
      t.m.module.hotAt = (if (190 ≤ old ↔ 190 ≤ temp.toNat) then m.module.hotAt + stood * 1400000 else m.now) ∧
      (∀ g < 4, let demand := max t.m.module.hot (min 6 (nth feldspar g (nth m.module.feld g 0)))
        nth t.m.module.feld g 0 = min 6 (nth feldspar g (nth m.module.feld g 0)) ∧
        let old := nth m.module.thrctl g 0
        let new := nth t.m.module.thrctl g 0
        bits new 8 4 = bits old 8 4 ∧ min 6 demand ≤ (bits new 0 3).toNat ∧ (bits new 0 3).toNat ≤ 6 ∧
        (power.toNat ≤ m.module.pcap.toNat → bits old 0 3 = 0 → (bits new 0 3).toNat = min 6 demand)))

/-- Dolcor links, memory errors and throttling (R107, R416, R429, R430, R432, R435, R440): each of the statements above. -/
def Obligations.LinksErrorsAndThrottlingComplete : Prop := Claims.LinksAndErrorsComplete ∧ Claims.ThrottlingCompletes

/-! ### Results that land, and what they leave alone -/

/-- Results of the S and V streams land, and those in registers of the M stream (R6, R69, R88, R146, R189, R191, R206, R210, R227): a register takes the value or,
of a vector, the lanes its mask selects, s0 none, p0 stays; a load its bytes, extended; a queue takes the entry at its end; a ring its words or a count; a
semaphore a signal; a format register takes FMT and CLASS and keeps BST; a scratchpad takes the bytes; an acquire then has its boundary. -/
def Claims.RegisterResultsLand : Prop :=
  ∀ (m : Mach) (core : Nat) (r : Result), core < m.cores.length →
    let c := (m.core core).completed m.now r
    let lands (c' : Core) : Prop := m.landResult core r = m.setCore core (c'.flag m.now r.nfl)
    let withS (n : BitVec 5) (v : W64) : Core := { c with scal := { c.scal with s := if n = 0 then c.scal.s else c.scal.s.set n.toNat v } }
    (∀ n v, r.dest = .s n v → lands (withS n v)) ∧
    (∀ n b sg, r.dest = .sLoad n b sg → 1 ≤ b → let x : BitVec (8 * b) := BitVec.ofNat (8 * b) (leValue (r.buf.readBlock 0 b))
      lands (withS n (if sg then x.signExtend 64 else x.setWidth 64))) ∧
    (∀ n v scope, r.dest = .sAcq n v scope → m.landResult core r = (m.setCore core ((withS n v).flag m.now r.nfl)).acquire core scope) ∧
    (∀ n v, r.dest = .p n v → ∃ p' : BitVec 8, lands { c with scal := { c.scal with p := p' } } ∧
      ∀ k < 8, p'.getLsbD k = if k = n.toNat ∧ n ≠ 0 then v else c.scal.p.getLsbD k) ∧
    (∀ n img mask, r.dest = .v n img mask → ∃ w : BitVec 32768, lands { c with vec := { c.vec with v := c.vec.v.set n.toNat w } } ∧
      ∀ i < 1024, laneAt w i = if mask.getLsbD i then laneAt img i ||| BitVec.ofNat 32 (leValue (r.buf.readBlock (4 * i) 4)) else laneAt (c.vreg n.toNat) i) ∧
    (∀ n img mask, r.dest = .m n img mask → ∃ w : BitVec 1024, lands { c with vec := { c.vec with m := c.vec.m.set n.toNat w } } ∧
      ∀ i < 1024, w.getLsbD i = if mask.getLsbD i then img.getLsbD i else (c.mreg n.toNat).getLsbD i) ∧
    (∀ n v, r.dest = .q n v → lands { c with scal := { c.scal with q := c.scal.q.modify n.toNat fun q => q ++ [v] } }) ∧
    (∀ n v, r.dest = .ba n v → lands { c with mx := { c.mx with ba := c.mx.ba.set n.toNat v } }) ∧
    (∀ n v, r.dest = .bb n v → lands { c with mx := { c.mx with bb := c.mx.bb.set n.toNat v } }) ∧
    (∀ n w0 w1, r.dest = .ring n w0 w1 → lands { c with mx := { c.mx with rings := c.mx.rings.modify n.toNat fun _ => ⟨w0, w1, none, 0⟩ } }) ∧
    (∀ n k, r.dest = .ringCount n k → lands { c with mx := { c.mx with
      rings := c.mx.rings.modify n.toNat fun g => { g with w1 := g.w1 + BitVec.ofNat 64 (k * 2 ^ 43) } } }) ∧
    (∀ n k, r.dest = .sem n k → lands { c with scal := { c.scal with sem := c.scal.sem.set n.toNat (min 65535 (c.semCount n.toNat + k)) } }) ∧
    (∀ sp i f cls, r.dest = .fmt sp i f cls → ∃ w : W32, m.landResult core r = (m.setCore core c).setFmtReg (padAt core sp.toNat) i w ∧
      bits w 0 5 = f ∧ w.getLsbD 13 = cls ∧ bits w 14 2 = bits (m.fmtReg (padAt core sp.toNat) i) 14 2 ∧ bits w 5 8 = 0 ∧ bits w 16 16 = 0) ∧
    (∀ p ws, r.dest = .pad p ws → m.landResult core r =
      ((m.setCore core c).setPadMem p ((m.padMem p).overlay ws)).modCore core fun c => c.flag m.now r.nfl)

/-- Counter `i` of the image of a k register. -/
def Claims.counter (img : BitVec 65536) (i : Nat) : Byte := img.extractLsb' (8 * i) 8

/-- Results of the H stream land (R314 to R317, R320, R325, R327 to R329): the selected bytes of an h register; the selected counters of a k register, each
of a bundle changed by the weight, towards the source's bit, clamped to -127 to 127 with ISAT where one was, each of a load with 0x80 as 0x81; an entry of
a geode, which becomes VALID; a descriptor with its VALID bits; HVCTL. A search writes nothing until its words are pushed. -/
def Claims.HyperResultsLand : Prop :=
  ∀ (m : Mach) (core : Nat) (r : Result), core < m.cores.length →
    let c := (m.core core).completed m.now r
    let withHv (h : Hv) (fl : Flags) : Prop := m.landResult core r = m.setCore core (({ c with hv := h } : Core).flag m.now (r.nfl ||| fl))
    let valid (n i : Nat) (on : Bool) (v : BitVec 1536) (h : Hv) : Prop :=
      (∀ k < 1536, v.getLsbD k = if k = i then on else (c.geode n).2.2.getLsbD k) ∧
        h = { c.hv with gd := c.hv.gd.set n ((c.geode n).1, (c.geode n).2.1, v) }
    (∀ n img mask, r.dest = .h n img mask → ∃ w : BitVec 8192, withHv { c.hv with h := c.hv.h.set n.toNat w } 0 ∧
      ∀ i < 8192, w.getLsbD i = if mask.getLsbD (i / 8) then img.getLsbD i || (r.buf.read (i / 8)).getLsbD (i % 8) else (c.hreg n.toNat).getLsbD i) ∧
    (∀ n src mask weight form tie, r.dest = .kBundle n src mask weight form tie →
      let old (i : Nat) : Int := (Claims.counter (c.kreg n.toNat) i).toInt
      let x (i : Nat) : Int := if src.getLsbD i ≠ (form == 1) then old i + weight else old i - weight
      ∃ (w : BitVec 65536) (fl : Flags), withHv { c.hv with k := c.hv.k.set n.toNat w } fl ∧
        (fl = Flags.isat ∨ fl = 0) ∧ (fl = Flags.isat ↔ ∃ i < 8192, mask.getLsbD (i / 8) = true ∧ (x i < -127 ∨ 127 < x i)) ∧
        ∀ i < 8192, Claims.counter w i = if mask.getLsbD (i / 8) then BitVec.ofInt 8 (max (-127) (min 127 (x i))) else Claims.counter (c.kreg n.toNat) i) ∧
    (∀ n img mask, r.dest = .kImage n img mask → ∃ w : BitVec 65536, withHv { c.hv with k := c.hv.k.set n.toNat w } 0 ∧
      ∀ i < 8192, let b := Claims.counter img i ||| r.buf.read i
        Claims.counter w i = if mask.getLsbD (i / 8) then (if b = 0x80 then 0x81 else b) else Claims.counter (c.kreg n.toNat) i) ∧
    (∀ n mask, r.dest = .kClear n mask → ∃ w : BitVec 65536, withHv { c.hv with k := c.hv.k.set n.toNat w } 0 ∧
      ∀ i < 8192, Claims.counter w i = if mask.getLsbD (i / 8) then 0 else Claims.counter (c.kreg n.toNat) i) ∧
    (∀ n i off ws, r.dest = .hgput n i off ws → i < 1536 → ∃ v h, valid n.toNat i true v h ∧ m.landResult core r =
      m.setCore core (({ c with hv := h, pad := { c.pad with mem := c.pad.mem.overlay ws } } : Core).flag m.now r.nfl)) ∧
    (∀ n i on, r.dest = .valid n i on → i < 1536 → ∃ v h, valid n.toNat i on v h ∧ withHv h 0) ∧
    (∀ n w0 w1, r.dest = .gd n w0 w1 → geodeCount w0 ≤ 1536 → ∃ v : BitVec 1536, withHv { c.hv with gd := c.hv.gd.set n.toNat (w0, w1, v) } 0 ∧
      ∀ k < 1536, v.getLsbD k = (w1.getLsbD 5 && decide (k < geodeCount w0))) ∧
    (∀ v, r.dest = .hvctl v → withHv { c.hv with hvctl := v } 0) ∧
    (∀ g two query dm mask count, r.dest = .search g two query dm mask count → m.landResult core r = m.setCore core c)

/-- Element `e` of a vector whose bytes begin at an address (R262). -/
def Claims.passPat (t : Fmt) (buf : Memory) (at_ e : Nat) : Nat :=
  if slotBits t = 4 then (buf.read (at_ + e / 2)).toNat / 16 ^ (e % 2) % 16
  else leValue (buf.readBlock (at_ + slotBits t / 8 * e) (slotBits t / 8)) % 2 ^ elemBits t

/-- Vector `v` of a tile, with its block scales where the operation reads them (R262). -/
def Claims.passVec (op : Nat) (t : Fmt) (buf : Memory) (tile v n : Nat) : PassVec :=
  { pats := (List.range n).map (Claims.passPat t buf (tile + 96 * v))
    scales := if scaledOp op then (List.range ((n + 7) / 8)).map fun b => (buf.read (tile + 3072 + 24 * v + b)).toNat else [] }

/-- Row `i` of A and column `j` of B in a pass, of its two tiles or of the four members' joint tiles, over the elements below K (R262, R263, R270, R274). -/
def Claims.passPair (op : Nat) (q : Option Nat) (ta tb : Fmt) (buf : Memory) (k p i j : Nat) : PassVec × PassVec :=
  let n := min (passDepth ta).1 (k - p * (passDepth ta).1)
  match q with
  | none => (Claims.passVec op ta buf (8192 * p) i n, Claims.passVec op tb buf (8192 * p + 4096) j n)
  | some m =>
    let x := 32 * (m / 2) + i
    let y := 32 * (m % 2) + j
    (Claims.passVec op ta buf (16384 * p + 4096 * (x / 16)) (x % 16) n, Claims.passVec op tb buf (16384 * p + 4096 * (y / 16)) (16 + y % 16) n)

/-- One element of the accumulator after a pass, and the flags (R82, R85, R270): of integers the exact sum added by WRAP or SAT to INT32; of floats the exact
sum, with scales block by block, rounded once to nearest, and then the rounded sum of both. -/
def Claims.passElem (op : Nat) (ta tb : Fmt) (sat : Bool) (acc : Nat) (v : PassVec × PassVec) : Nat × Flags :=
  if op = 2 then
    let product (x y : Nat) : Int := decInt (intOf ta).1 (intOf ta).2 x * decInt (intOf tb).1 (intOf tb).2 y
    fitInt 0x01 sat (decInt 32 true acc + (List.zipWith product v.1.pats v.2.pats).foldl (· + ·) 0)
  else
    let w := if op = 3 then fp64 else fp32
    let s := if scaledOp op then passScaled ta v.1 v.2 else passSum ta v.1 v.2
    let r := cvtFloat w 0 false s.1
    let x := Val.add false (w.dec acc) (w.dec r.1)
    let y := cvtFloat w 0 false x
    (y.1, s.2 ||| r.2 ||| y.2 ||| invalid [w.dec acc, w.dec r.1] x)

/-- Element (i, j) after all passes in order, from its start, with the flags of all of them (R270). -/
def Claims.arrayElem (op : Nat) (l : Lane) (q : Option Nat) (buf : Memory) (k n i j start : Nat) : Nat × Flags :=
  let t := arrayTypes op l.fn
  (List.range n).foldl (fun x p =>
    let y := Claims.passElem op t.1 t.2 l.sat x.1 (Claims.passPair op q t.1 t.2 buf k p i j)
    (y.1, x.2 ||| y.2)) (start, 0)

/-- Accumulators written at a core, forwarded to the operations issued no earlier (R261), with the flags; JSEQ advances with a joint operation (R273). -/
def Claims.accLanded (c : Core) (now : Nat) (r : Result) (ws : List (Nat × BitVec 32768)) (fl : Flags) (joint : Bool) : Core :=
  Core.flag { c with
    mx := { c.mx with acc := ws.foldl (fun a w => a.set w.1 w.2) c.mx.acc, jseq := if joint then (c.mx.jseq + 1) % 4 else c.mx.jseq }
    flight := c.flight.map fun y => if r.issued ≤ y.issued then y.forward ws else y } now (r.nfl ||| fl)

/-- Results of the M stream land (R82, R85, R261, R268 to R270, R273, R274, R278, R279): accumulators loaded or zeroed; and an array operation's, each element
the passes' sums added in order to the starting value, which is 0 with Z, else what the earlier writes leave (bytes that have not reached the core are taken as
they stand: the model's choice, log entry 15); of MMAD the pair. -/
def Claims.MatrixResultsLand : Prop :=
  ∀ (m : Mach) (core : Nat) (r : Result), core < m.cores.length →
    let c := (m.core core).completed m.now r
    let lands (ws : List (Nat × BitVec 32768)) (fl : Flags) (joint : Bool) : Prop :=
      m.landResult core r = m.setCore core (Claims.accLanded c m.now r ws fl joint)
    (∀ n img, r.dest = .acc n img → lands [(n.toNat, img ||| bytesImage 32768 (r.buf.readBlock 0 4096))] 0 false) ∧
    (∀ n img, r.dest = .accPair n img → ∃ lo hi, lands [(n.toNat, lo), (n.toNat + 1, hi)] 0 false ∧
      let w := img ||| bytesImage 65536 (r.buf.readBlock 0 8192)
      ∀ i < 1024, laneAt lo i = w.extractLsb' (64 * i) 32 ∧ laneAt hi i = w.extractLsb' (64 * i + 32) 32) ∧
    (∀ mask, r.dest = .accZero mask → lands (((List.range 4).filter mask.getLsbD).map fun n => (n, 0)) 0 false) ∧
    (∀ op l k n q, r.dest = .array op l k n q → (∀ x, q = some x → x < 4) →
      let buf := (r.forward ((m.setCore core c).pendingAcc core c r)).buf
      let z := l.p.getLsbD 2
      let word (x : Nat) : Nat := if z then 0 else leValue (buf.readBlock (startAt + 4 * x) 4)
      let elem (i j : Nat) : Nat × Flags := Claims.arrayElem op l q buf k n i j
        (if op = 3 then word (32 * i + j) + 2 ^ 32 * word (1024 + 32 * i + j) else word (32 * i + j))
      ∃ fl : Flags, (∀ b < 6, fl.getLsbD b = true ↔ ∃ i < 32, ∃ j < 32, (elem i j).2.getLsbD b = true) ∧
        (op ≠ 3 → ∃ w, lands [(l.dst.toNat, w)] fl q.isSome ∧ ∀ i < 32, ∀ j < 32, laneAt w (32 * i + j) = BitVec.ofNat 32 (elem i j).1) ∧
        (op = 3 → ∃ lo hi, lands [(l.dst.toNat, lo), (l.dst.toNat + 1, hi)] fl q.isSome ∧ ∀ i < 32, ∀ j < 32,
          laneAt lo (32 * i + j) = BitVec.ofNat 32 (elem i j).1 ∧ laneAt hi (32 * i + j) = BitVec.ofNat 32 ((elem i j).1 / 2 ^ 32)))

/-- Atomics and blocks of tile instructions land (R143, R205, R346): an atomic changes its location and sends the old value back, to be written at the cycle fixed; a
block of a tile instruction writes no scratchpad but those its output lies in, and no register but NFLAGS. -/
def Claims.AtomicsAndTilesLand : Prop :=
  ∀ (m : Mach) (core : Nat) (r : Result), core < m.cores.length →
    let c := (m.core core).completed m.now r
    let m1 := m.setCore core c
    (∀ pl a dst ret acq, r.dest = .atom pl a dst ret acq →
      let n := if a.w64 then 8 else 4
      let back (old : Nat) (m : Mach) : Mach := m.modCore core fun c => c.fly { r with
        w := ret, dep := none, dest := (match acq with | some x => .sAcq dst (a.returned old) x | none => .s dst (a.returned old)), nfl := 0, src := some pl }
      (∀ p off, pl = .pad p off → let old := leValue (m.padRead p off n)
        m.landResult core r = back old (m1.padWrite p (atAddr off (leBytes n (a.apply old).1)))) ∧
      (∀ pa, pl = .dev pa → let old := leValue (m.dev.readBlock pa n)
        m.landResult core r = back old (m1.devAtomic (atAddr pa (leBytes n (a.apply old).1))))) ∧
    (∀ b, r.dest = .tile b →
      let t := m.landResult core r
      (∀ p a, (∀ x ∈ b.out, ∀ off, x.1 ≠ .pad p off) → (t.padMem p).read a = (m.padMem p).read a) ∧ t.dev = m.dev ∧ t.host = m.host ∧
      ∀ k, { (t.core k).scal with ended := (m.core k).scal.ended } = (m.core k).scal ∧ (t.core k).vec = (m.core k).vec ∧ (t.core k).mx = (m.core k).mx ∧
        (t.core k).hv = (m.core k).hv ∧ (t.core k).frame = (m.core k).frame ∧ (t.core k).cstore = (m.core k).cstore ∧ (t.core k).ctl.x = (m.core k).ctl.x)

/-- A result lands in its destination and nowhere else, whatever its destination (R6, R69, R261, R270, R320): each of the statements above. The result's flags join
NFLAGS in the same cycle, and every other register, flag and byte of the machine is unchanged, beside the model's own note of the S accesses that complete
in the cycle (R142; the model's choice, log entry 41). -/
def Obligations.ResultsLand : Prop :=
  Claims.RegisterResultsLand ∧ Claims.HyperResultsLand ∧ Claims.MatrixResultsLand ∧ Claims.AtomicsAndTilesLand

/-- Whether the machine has a scratchpad. -/
def Claims.hasPad (m : Mach) : Pad → Prop
  | .core n => n < m.cores.length
  | .quad n => n < m.quads.length
  | .die n => n < m.dies.length

/-- Stores reach their bytes only (R203, R251). A landing store leaves every byte of every scratchpad but its own as it reads, and its own bytes take the
stored values, the later of two to one byte, and no register changes but the model's own note of the accesses ended; the result that ST puts in flight
stores to the bytes from its effective address on, and that of VST to the four bytes of each selected lane. -/
def Obligations.StoresReachTheirBytesOnly : Prop :=
  (∀ (m : Mach) (core : Nat) (r : Result) (p : Pad) (ws : List (Nat × Byte)), r.dest = .pad p ws →
    let t := m.landResult core r
    (∀ q a, q ≠ p ∨ a ∉ ws.map Prod.fst → (t.padMem q).read a = (m.padMem q).read a) ∧
    (Claims.hasPad m p → ∀ before a b after, ws = before ++ (a, b) :: after → a ∉ after.map Prod.fst → (t.padMem p).read a = b) ∧
    t.dev = m.dev ∧ t.host = m.host ∧ (∀ k, { (t.core k).scal with ended := (m.core k).scal.ended } = (m.core k).scal ∧ (t.core k).vec = (m.core k).vec ∧ (t.core k).mx = (m.core k).mx ∧
      (t.core k).hv = (m.core k).hv ∧ (t.core k).frame = (m.core k).frame ∧ (t.core k).cstore = (m.core k).cstore)) ∧
  (∀ (s : State) (l : Lane), s.m.cur < s.m.cores.length →
    let m := s.m
    let mask := m.me.mreg l.p.toNat
    (SReady m l (useSSt l m) → ∃ t r ws, exec (.sSt l) s = .next t ∧ r ∈ t.m.me.flight ∧ r.dest = .pad (padAt m.cur (modeLvl l.b)) ws ∧
      ∀ a, a ∈ ws.map Prod.fst ↔ Lane.address m.me l ≤ a ∧ a < Lane.address m.me l + accessBytes l.fn) ∧
    (VReady m l (maskClusters mask) (useVst l m mask) → ∃ t r ws, exec (.vst l) s = .next t ∧ r ∈ t.m.me.flight ∧
      r.dest = .pad (padAt m.cur (modeLvl l.a)) ws ∧
      ∀ a, a ∈ ws.map Prod.fst ↔ ∃ i < 1024, mask.getLsbD i = true ∧ m.vAddress l + 4 * i ≤ a ∧ a < m.vAddress l + 4 * i + 4))

/-- The registers and memories that a lane leaves alone in its issue cycle. -/
def Claims.sameRegisters (m t : Mach) : Prop :=
  (∀ k, (t.core k).scal.s = (m.core k).scal.s ∧ (t.core k).scal.p = (m.core k).scal.p ∧ (t.core k).vec = (m.core k).vec ∧
    (t.core k).mx.acc = (m.core k).mx.acc ∧ (t.core k).mx.ba = (m.core k).mx.ba ∧ (t.core k).mx.bb = (m.core k).mx.bb ∧
    (t.core k).hv = (m.core k).hv ∧ (t.core k).frame = (m.core k).frame ∧ (t.core k).cstore = (m.core k).cstore ∧
    (t.core k).ctl.x = (m.core k).ctl.x ∧ (t.core k).ctl.pc = (m.core k).ctl.pc ∧ (t.core k).ctl.nflags = (m.core k).ctl.nflags) ∧
  (∀ p, t.padMem p = m.padMem p) ∧ (∀ p i, t.fmtReg p i &&& 0xFFFF3FFF = m.fmtReg p i &&& 0xFFFF3FFF) ∧ t.host = m.host ∧ t.peers = m.peers

/-- The frame of the lanes of all five streams (R6, R91): in its issue cycle a lane that does not stop its core changes no s, p, v, m, h or k register, no
accumulator, BA or BB, no geode descriptor, no flag, no register of a control core, no byte of a scratchpad, of frame memory, of a control store, of the
host or of a peer, and of a format register at most BST, at any core: all of these it changes by results that land later. It is said of states in
which the core served is one of the machine's, and the machine that a stop in this cycle would return to, where one is kept, has as many: those that runs reach. -/
def Obligations.LanesChangeNoRegister : Prop :=
  ∀ (s t : State) (i : Instr) (st : Stream) (op : BitVec 7) (l : Lane) (ch : Option ChainCmd), i.lane? = some (st, op, l, ch) →
    s.m.cur < s.m.cores.length → (∀ b, s.base = some b → b.2.2.cores.length = s.m.cores.length) →
    s.m.me.stop = none → exec i s = .next t → t.m.me.stop = none → Claims.sameRegisters s.m t.m

/-- The x register a standard instruction of the control core writes. -/
def Claims.rvDest : Rv → Option XReg
  | .lui rd _ | .auipc rd _ | .jal rd _ | .jalr rd _ _ | .load _ _ rd _ _ | .aluImm _ rd _ _ | .aluImmW _ rd _ _ | .alu _ rd _ _ | .aluW _ rd _ _
  | .mul _ rd _ _ | .mulW _ rd _ _ | .lr _ _ _ rd _ | .sc _ _ _ rd _ _ | .amo _ _ _ _ rd _ _ | .csr _ rd _ _ => some rd
  | .branch _ _ _ _ | .store _ _ _ _ | .fence _ _ _ _ _ | .fenceI _ _ _ | .ecall | .ebreak | .mret | .wfi | .illegal _ => none

/-- The bytes a standard instruction of the control core stores to: address and number. -/
def Claims.rvStored (k : Ctl) : Rv → Option (Nat × Nat)
  | .store w rs1 _ imm => some ((k.xr rs1 + imm.signExtend 64).toNat, RvWidth.bytes w)
  | .sc w64 _ _ _ rs1 _ => some ((k.xr rs1).toNat, if w64 then 8 else 4)
  | .amo _ w64 _ _ _ rs1 _ => some ((k.xr rs1).toNat, if w64 then 8 else 4)
  | _ => none

/-- The frame of the standard instructions of the control core (R151, R152): whatever the outcome, they change no x register but rd, x0 reads 0, no byte of
frame memory but those stored to, no register of the streams, no byte of a scratchpad, of the control store, of device memory, of the host or of a
peer, no other core, and nothing of the hub or the module. -/
def Obligations.ControlCoreFrame : Prop :=
  ∀ (s t : State) (i : RvIns), exec (.rv64Instruction i) s = .next t →
    let c := s.m.me
    let d := t.m.me
    (∀ n, Claims.rvDest i.op ≠ some n → d.ctl.xr n = c.ctl.xr n) ∧ d.ctl.xr 0 = 0 ∧
    (∀ a, (∀ b n, Claims.rvStored c.ctl i.op = some (b, n) → a < b ∨ b + n ≤ a) → d.frame.read a = c.frame.read a) ∧
    (∀ k, k ≠ s.m.cur → t.m.core k = s.m.core k) ∧
    d.scal = c.scal ∧ d.vec = c.vec ∧ d.mx = c.mx ∧ d.xe = c.xe ∧ d.hv = c.hv ∧ d.pad = c.pad ∧ d.doms = c.doms ∧ d.glb = c.glb ∧ d.port = c.port ∧
    d.cstore = c.cstore ∧ d.seq = c.seq ∧ d.flight = c.flight ∧ d.events = c.events ∧ d.stop = c.stop ∧
    t.m.dev = s.m.dev ∧ t.m.host = s.m.host ∧ t.m.peers = s.m.peers ∧ t.m.quads = s.m.quads ∧ t.m.dies = s.m.dies ∧ t.m.hub = s.m.hub ∧
    t.m.module = s.m.module

/-! ### Lanes without effect, and traps -/

/-- A lane of the S stream whose predicate is 0 (R192): it keeps its issue cycle and has no effect, but that a post-increment form of LD, ST, LDG and STG
updates its base register; SEL's P is a selector, and NOP and WAIT name no predicate. The same holds of a tile instruction of the S stream. -/
def Obligations.PredicatedOffLanes : Prop :=
  ∀ (s : State) (l : Lane), s.m.me.sBlocked s.m.now = false → s.m.me.preg l.p.toNat = false →
    let post := modeStep l.b = true
    (∀ i, i ∈ [Instr.sLd l, .sSt l, .sLdg l, .sStg l] → post → s.m.me.pending s.m.now l.a.toNat = false →
      exec i s = .next (s.issued .s 0 (s.m.write .s 1 (.s l.a (s.m.me.sreg l.a.toNat + l.imm.signExtend 64)) 0))) ∧
    (∀ i op, i.lane? = some (.s, op, l, none) → i ≠ .sSel l → i ≠ .nop .s l → i ≠ .waitC .s l →
      (i ∈ [Instr.sLd l, .sSt l, .sLdg l, .sStg l] → ¬ post) → exec i s = .next (s.issued .s 0 s.m)) ∧
    (∀ i top x, (i, top) ∈ Claims.tiles x → s.m.curP = none → Tile.asLane x = l → exec i s = .next (s.issued .s 0 s.m))

/-- A slot of the V or the H stream whose mask is all false (R227, R317): unless debug mode finds the mask register stale, it keeps its issue cycle and
has no effect whatever its operands; VSEL's P is a selector, and NOP and WAIT name no mask. -/
def Obligations.AllFalseSlotsHaveNoEffect : Prop :=
  ∀ (s : State) (i : Instr) (st : Stream) (op : BitVec 7) (l : Lane), i.lane? = some (st, op, l, none) → (st = .v ∨ st = .h) →
    i ≠ .vsel l → i ≠ .nop st l → i ≠ .waitC st l → s.m.me.mreg l.p.toNat = 0 →
    s.m.staleTraps [] [.m l.p.toNat] = [] → exec i s = .next (s.issued st 0 s.m)

/-- Precise traps and stops (R54, R166, R167). A V lane that meets faults reports one of the lowest code, and stops its core's streams in its issue cycle; a stop
takes the core back to the point before its first lane of the cycle, keeps the cycle and the fault, and a core already stopped keeps its stop. -/
def Obligations.TrapsStopTheStreams : Prop :=
  (∀ (s : State) (l : Lane) (i : Instr) (lat : Nat) (os : List VOp) (f : Nat → W32 × Flags), (i, lat, os, f) ∈ Claims.vectorLanes l s.m.me →
    let m := s.m
    let u := VUse.ops os l.dst.toNat
    let ts := m.staleTraps [] [.m l.p.toNat] ++ m.staleTraps u.own (u.regs.map Loc.s ++ u.locs) ++
      m.lcTraps (maskClusters (m.me.mreg l.p.toNat))
    m.me.stop = none → m.me.mreg l.p.toNat ≠ 0 → u.regs.any (m.me.pending m.now) = false → ts ≠ [] →
    ∃ t ∈ ts, (∀ x ∈ ts, t.code.toNat ≤ x.code.toNat) ∧ exec i s = .next
      (State.stopCore { s with base := some (m.cur, m.now, s.restorePoint m.cur) } m.cur Mach.boundary (Stop.withTrap 1 t))) ∧
  (∀ (s : State) (core : Nat) (again : Mach → Nat → BitVec 4 → Mach) (f : Stop → Stop),
    (∀ p, (s.m.core core).stop = some p →
      s.stopCore core again f = { s with m := s.m.modCore core fun c => { c with stop := some (f p) } }) ∧
    ((s.m.core core).stop = none → (s.m.core core).scal.phase = none → (s.undo.find? fun x => x.1 == core) = none →
      let stopped (b : Mach) : Mach := { (b.modCore core fun c => { c with stop := some (f (Stop.new s.m.now)) }) with cur := s.m.cur }
      (∀ b, s.base = some (core, s.m.now, b) → s.stopCore core again f = { m := stopped b, base := none, undo := s.undo }) ∧
      (s.base = none → s.stopCore core again f = { m := stopped s.m, base := none, undo := s.undo }))) ∧
  (∀ (now st : Nat) (t : Trap), (Stop.withTrap st t (Stop.new now)).cyc = now ∧ (Stop.withTrap st t (Stop.new now)).trap = some (st, t))

/-! ### Packets, by the rules' own words -/

/-- The registers of a queue (R373): of sixteen, g0 to g7 take the packet's words 0 to 7, little-endian, when a packet starts, and g8 to g15 keep their
values, as all sixteen do when a packet of a queue that stays enabled ends. -/
def Obligations.PacketRegisters : Prop :=
  (∀ (s : State) (bs : List Byte),
    let m := s.m
    let f := m.curQ.1
    let q := m.curQ.2
    let x := m.servedQueue
    f < m.hub.fns.length → x.g.length = 16 → m.canStart f q = true →
    m.qRead f (bits x.ring 60 4) (x.ring.toNat % 2 ^ 48 + 64 * (x.cons.toNat % 2 ^ x.rlog)) 64 = .ok bs →
    ∃ t, exec .packetStart s = .next t ∧
      let g := (t.m.queue f q).g
      g.length = 16 ∧ (∀ i < 8, nth g i 0 = BitVec.ofNat 64 (leValue ((bs.drop (8 * i)).take 8))) ∧ ∀ i, 8 ≤ i → nth g i 0 = nth x.g i 0) ∧
  (∀ (m : Mach) (f q : Nat) (st : Byte) (fault : Bool), (m.queue f q).closing = false → ((m.endPacket f q st fault).queue f q).g = (m.queue f q).g)

/-- END's status (R401): the byte B bits 7:0 is the packet's status unchanged; any but 0 is recorded in a PACKET entry with the packet's index and steps;
and the queue goes on, IDLE (R370), with QCONS advanced (R379). That the packet's end and its registers stand while a PACKET entry waits for room in the
journal, where the queue parks, is the model's choice (log entry 59). -/
def Obligations.EndStatusIsKept : Prop :=
  ∀ (s : State) (q : QWord) (p : Packet),
    let m := s.m
    let x := m.servedQueue
    let b : W64 := if q.kb then q.b.signExtend 64 else x.gr q.breg
    let p' := { p with steps := p.steps + 1 }
    let y : Queue := { x with pkt := none, park := none, cons := x.cons + 1, rearmed := false, wake := m.now + 1, state := .idle }
    let m1 := m.modQueue m.curQ.1 m.curQ.2 fun _ => y
    let entry := JEntry.new 3 (b.setWidth 8) (jref 0 m.curQ.2 m.curQ.1) (BitVec.ofNat 64 (p.index % 2 ^ 32 + min (p.steps + 1) 255 * 2 ^ 32)) false
    let m2 := m1.journalRoom m.curQ.1 entry
    x.pkt = some p → x.closing = false → p.rearm = false → m.curQ.1 < m.hub.fns.length →
    (b.setWidth 8 = (0 : Byte) → exec (.qEnd q) s = .next { s with m := m1 }) ∧
    (b.setWidth 8 ≠ (0 : Byte) →
      let m3 := if (m2.fn m.curQ.1).entryWaits m.curQ.2 then m2.modQueue m.curQ.1 m.curQ.2 fun x => { x with park := some .journal } else m2
      exec (.qEnd q) s = .next { s with m := m3 })

/-! ### Reset -/

/-- The canonical form of the memories that every agent shares: device memory, host memory and the peers'. -/
def Claims.canonical (m : Mach) : Prop := m.dev.Wf ∧ m.host.Wf ∧ ∀ p ∈ m.peers, Memory.Wf p.2

/-- The invariant: the shared memories are canonical, also in the machine that a stop in this cycle would return to. -/
def Claims.inv (s : State) : Prop := Claims.canonical s.m ∧ ∀ b, s.base = some b → Claims.canonical b.2.2

/-- The machine after reset, and a core at its task's first instruction (R87, R92, R107, R110, R121, R155, R165, R189, R304, R367, R368, R402, R440). After
reset no core is bound, every domain is OFF, every queue OFF, every BAR register of the functions and of the mailbox 0, PCAP 3,000 W, THRCTL0 holds all
dies and the others none, no memory lists a byte (that an unwritten byte of device, host or peer memory reads 0 is the model's choice, log entry 6), the
core served is one of the machine's and no machine is kept to return to, and the invariant holds; at a bind the scalar registers, semaphores and pennants
are 0 and p0 is 1, the pc is at the control store, x1 to x31, NFLAGS, MIE, mie and mtvec are 0, CTIMECMP is all ones, and every format register of the core
is 0. -/
def Obligations.ResetState : Prop :=
  let m := State.reset.m
  Claims.inv State.reset ∧ m.dev = [] ∧ m.host = [] ∧ m.peers = [] ∧ (∀ p, m.padMem p = []) ∧ m.active = [] ∧ m.now = 0 ∧ m.hub.tasks = [] ∧ m.cur < m.cores.length ∧
  State.reset.base = none ∧
  (∀ k, (m.core k).bound = none ∧ ∀ b < 55, (m.dom (.core k b)).st = .off) ∧ (∀ k s, s < 16 → (m.dom (.quad k s)).st = .off) ∧
  (∀ k s, s < 32 → (m.dom (.die k s)).st = .off) ∧
  (∀ f q, (m.queue f q).state = .off ∧ (m.queue f q).qcb = 0 ∧ (m.queue f q).en = false ∧ (m.queue f q).notify = 0 ∧ (m.queue f q).cons = 0) ∧
  (∀ f, (m.fn f).jbase = 0 ∧ (m.fn f).jsize = 0 ∧ (m.fn f).jwr = 0 ∧ (m.fn f).jrd = 0) ∧
  m.mgmt.mbcmd = 0 ∧ m.mgmt.mbarg = 0 ∧ m.mgmt.mbstat = 0 ∧ m.module.pcap = 3000 ∧ m.module.railflt = 0 ∧ m.module.memerr = 0 ∧
  m.module.thrctl = [0xF00, 0, 0, 0] ∧
  ∀ (b : Bind), let c := Core.bindWith b
    (∀ n, c.sreg n = 0) ∧ c.scal.p = 1 ∧ (∀ n, c.semCount n = 0) ∧ (∀ n, nth c.scal.pn n 0 = 0) ∧ c.ctl.pc = 0x01000000 ∧
    (∀ r, c.ctl.xr r = 0) ∧ c.ctl.nflags = 0 ∧ c.ctl.mieBit = false ∧ c.ctl.mie = 0 ∧ c.ctl.mtvec = 0 ∧ c.ctl.timecmp = BitVec.allOnes 64 ∧
    (∀ i, nth c.pad.fmt i 0 = 0) ∧ c.pad.mem = [] ∧ c.flight = [] ∧ c.seq.queue = [] ∧ c.events.q = []

/-- Every step keeps the shared memories in their canonical form: addresses strictly rising, and no byte listed that reads as an unlisted one. -/
def Obligations.StepKeepsMemoriesCanonical : Prop :=
  ∀ (s t : State), Claims.inv s → Machine.step s = .next t → Claims.inv t

/-! ### Encodings -/

/-- Every lane instruction of the five streams that is well formed is decoded from its own words (R36, R37, R48, R55). -/
def Obligations.LaneEncodingsRoundTrip : Prop :=
  ∀ (i : Instr) (st : Stream) (op : BitVec 7) (l : Lane) (ch : Option ChainCmd), i.lane? = some (st, op, l, ch) → i.wf = true →
    decodeLane st (Lane.toWord op l) (l.ext.map Ext.toWord) ch = .ok i ∧
    encode i = Lane.toWord op l :: (l.ext.map Ext.toWord).toList ++ (match ch with | none => [] | some c => c.word :: c.ext.toList)

/-- Every tile instruction, word of queue code, custom instruction and 32-bit standard instruction of the control core that is well formed is decoded
from its own words (R50, R51, R151, R155, R177, R334, R374, R381). -/
def Obligations.TileQueueAndControlEncodingsRoundTrip : Prop :=
  (∀ (i : Instr) (top : BitVec 5) (t : Tile), i.tile? = some (top, t) → i.wf = true → decodeTile (t.word0 top) t.word1 t.word2 t.word3 = some i) ∧
  (∀ (i : Instr) (op : BitVec 5) (q : QWord), i.queue? = some (op, q) → i.wf = true → decodeQueue (encodeQueue op q) = .ok i) ∧
  (∀ (i : Instr) (w : W32), encodeControl i = some w → i.wf = true → decodeRv w = some i)

/-- Words written out from the encodings of the spec decode to the instructions they stand for (R36, R50, R151, R177, R374): an ADD of the S stream with the
literal 5, T.MMA, custom instructions of the control core, `add`, and words of queue code. -/
def Obligations.WordsDecode : Prop :=
  decodeLane .s 0x40108328#32 none none = .ok (.sAdd ⟨1, 0, 1, 0, 3, 5, 0, none⟩) ∧
  decodeTile 0x0044D001 0x00800004 0x00C00080 0x00300000 =
    some (.tMma ⟨0, 0, 0, 2, 0x0D, 0, false, false, false, false, 0, false, true, 2, 0, 1, 0x00C0, 0x0080, 0x0030, 0, 0, 0⟩) ∧
  decodeRv 0x00B5000B = some (.cblk 10 11) ∧ decodeRv 0x0405E50B = some (.cpds 10 11) ∧ decodeRv 0x0800300B = some (.cphase 4) ∧
  decodeRv 0x2E00300B = some (.cfence 7) ∧ decodeRv 0x0000450B = some (.cframeRep 10) ∧ decodeRv 0x0205400B = some (.cframeEnd 10) ∧
  decodeRv 0x00B50533 = some (.rv64Instruction ⟨.alu .add 10 10 11, false⟩) ∧
  decodeQueue 0x71800800 = .ok (.qLaunch ⟨3, 0, 0, false, 0x0800⟩) ∧ decodeQueue 0x3A20FFC8 = .ok (.qcShl ⟨4, 4, 0, true, 0x7FC8⟩) ∧
  decodeQueue 0x48228003 = .ok (.qBrf ⟨0, 4, 2, true, 3⟩) ∧ decodeQueue 0xA8002000 = .ok (.qEnd ⟨0, 0, 0, false, 0x2000⟩)

/-! ### A step -/

/-- A step runs what is due (R6, R45, R151, R378; the order of the phases of a cycle is log entry 1): the instruction or event at the machine that says which core,
queue or task it is of, with the phase recorded; with nothing due, the cycle ends. The instruction of a stream is that of its lane in the
current block, of a control core the one that the bytes at its pc decode to, of a queue the one that its next word decodes to, and of a P port the
one that its pending command's words say. -/
def Obligations.StepRunsWhatIsDue : Prop :=
  ∀ (s : State),
    (∀ p m i, s.due = some (p, .run m i) → Machine.step s = exec i { s with m := { m with phase := p } }) ∧
    (∀ p s', s.due = some (p, .own s') → Machine.step s = .next { s' with m := { s'.m with phase := p } }) ∧
    (s.due = none → Machine.step s = .next (tick s)) ∧
    (∀ p d, p < 19 → s.m.phase ≤ p → (∀ k, s.m.phase ≤ k → k < p → s.phaseDue k = none) → s.phaseDue p = some d → s.due = some (p, d)) ∧
    (∀ core st b e it, let c := s.m.core core
      let x := c.stream st
      c.stop = none → c.seq.cur = some b → c.seq.entry b.num = some e → x.doneAt = none → 0 < x.fill → x.next ≤ s.m.now →
      ((lineItems (c.seq.lineAt (e.first + x.line))).find? fun y => y.lane == x.lane) = some it →
      s.m.laneDue core st = some (.run { s.m with cur := core } it.instr)) ∧
    (∀ core i w, let c := s.m.core core
      let off := c.ctl.pc.toNat - 0x01000000
      c.ctlReady s.m.now = true → c.irq s.m.now = none → 0x01000000 ≤ c.ctl.pc.toNat → c.ctl.pc.toNat + 4 ≤ 0x01008000 →
      w = BitVec.ofNat 32 (c.cstore.value off (if c.cstore.value off 2 % 4 = 3 then 4 else 2)) → decodeRv w = some i → c.fetchMarked = false →
      s.controlDue core = some (.run { s.m with cur := core } i)) ∧
    (∀ f q p w i, let x := s.m.queue f q
      x.pkt = some p → x.park = none → x.state = .run → x.wake ≤ s.m.now → (s.m.fn f).paused = false → p.steps < 256 → x.code[p.pc]? = some w →
      decodeQueue w = .ok i → s.queueDue f q = some (.run { s.m with curQ := (f, q) } i)) ∧
    (∀ t k i, t.port.pending = some k → tileInstr (BitVec.ofNat 5 k.tile.1) k.tile.2 = some i →
      s.pkgDue t = some (.run { s.m with curP := some t.seq } i))
end

