-- ==== Sys2Proof/Laws/State.lean ====
section
/-! SUPPORT. What each update of the state changes and what it leaves: one lemma per field, so that no proof unfolds a record update. -/
namespace Sys2Proof.Machine

/-! ### Cores of the machine -/

@[simp] theorem Mach.setCore_now (m : Mach) (n : Nat) (c : Core) : (m.setCore n c).now = m.now := rfl
@[simp] theorem Mach.setCore_phase (m : Mach) (n : Nat) (c : Core) : (m.setCore n c).phase = m.phase := rfl
@[simp] theorem Mach.setCore_cur (m : Mach) (n : Nat) (c : Core) : (m.setCore n c).cur = m.cur := rfl
@[simp] theorem Mach.setCore_curQ (m : Mach) (n : Nat) (c : Core) : (m.setCore n c).curQ = m.curQ := rfl
@[simp] theorem Mach.setCore_curP (m : Mach) (n : Nat) (c : Core) : (m.setCore n c).curP = m.curP := rfl
@[simp] theorem Mach.setCore_active (m : Mach) (n : Nat) (c : Core) : (m.setCore n c).active = m.active := rfl
@[simp] theorem Mach.setCore_inbox (m : Mach) (n : Nat) (c : Core) : (m.setCore n c).inbox = m.inbox := rfl
@[simp] theorem Mach.setCore_arrivals (m : Mach) (n : Nat) (c : Core) : (m.setCore n c).arrivals = m.arrivals := rfl
@[simp] theorem Mach.setCore_free (m : Mach) (n : Nat) (c : Core) : (m.setCore n c).free = m.free := rfl
@[simp] theorem Mach.setCore_quads (m : Mach) (n : Nat) (c : Core) : (m.setCore n c).quads = m.quads := rfl
@[simp] theorem Mach.setCore_dies (m : Mach) (n : Nat) (c : Core) : (m.setCore n c).dies = m.dies := rfl
@[simp] theorem Mach.setCore_hbm (m : Mach) (n : Nat) (c : Core) : (m.setCore n c).hbm = m.hbm := rfl
@[simp] theorem Mach.setCore_dev (m : Mach) (n : Nat) (c : Core) : (m.setCore n c).dev = m.dev := rfl
@[simp] theorem Mach.setCore_sys (m : Mach) (n : Nat) (c : Core) : (m.setCore n c).sys = m.sys := rfl
@[simp] theorem Mach.setCore_host (m : Mach) (n : Nat) (c : Core) : (m.setCore n c).host = m.host := rfl
@[simp] theorem Mach.setCore_peers (m : Mach) (n : Nat) (c : Core) : (m.setCore n c).peers = m.peers := rfl
@[simp] theorem Mach.setCore_pubs (m : Mach) (n : Nat) (c : Core) : (m.setCore n c).pubs = m.pubs := rfl
@[simp] theorem Mach.setCore_bars (m : Mach) (n : Nat) (c : Core) : (m.setCore n c).bars = m.bars := rfl
@[simp] theorem Mach.setCore_hub (m : Mach) (n : Nat) (c : Core) : (m.setCore n c).hub = m.hub := rfl
@[simp] theorem Mach.setCore_module (m : Mach) (n : Nat) (c : Core) : (m.setCore n c).module = m.module := rfl

@[simp] theorem Mach.modCore_now (m : Mach) (n : Nat) (f : Core → Core) : (m.modCore n f).now = m.now := rfl
@[simp] theorem Mach.modCore_phase (m : Mach) (n : Nat) (f : Core → Core) : (m.modCore n f).phase = m.phase := rfl
@[simp] theorem Mach.modCore_cur (m : Mach) (n : Nat) (f : Core → Core) : (m.modCore n f).cur = m.cur := rfl
@[simp] theorem Mach.modCore_curQ (m : Mach) (n : Nat) (f : Core → Core) : (m.modCore n f).curQ = m.curQ := rfl
@[simp] theorem Mach.modCore_curP (m : Mach) (n : Nat) (f : Core → Core) : (m.modCore n f).curP = m.curP := rfl
@[simp] theorem Mach.modCore_active (m : Mach) (n : Nat) (f : Core → Core) : (m.modCore n f).active = m.active := rfl
@[simp] theorem Mach.modCore_inbox (m : Mach) (n : Nat) (f : Core → Core) : (m.modCore n f).inbox = m.inbox := rfl
@[simp] theorem Mach.modCore_arrivals (m : Mach) (n : Nat) (f : Core → Core) : (m.modCore n f).arrivals = m.arrivals := rfl
@[simp] theorem Mach.modCore_free (m : Mach) (n : Nat) (f : Core → Core) : (m.modCore n f).free = m.free := rfl
@[simp] theorem Mach.modCore_quads (m : Mach) (n : Nat) (f : Core → Core) : (m.modCore n f).quads = m.quads := rfl
@[simp] theorem Mach.modCore_dies (m : Mach) (n : Nat) (f : Core → Core) : (m.modCore n f).dies = m.dies := rfl
@[simp] theorem Mach.modCore_hbm (m : Mach) (n : Nat) (f : Core → Core) : (m.modCore n f).hbm = m.hbm := rfl
@[simp] theorem Mach.modCore_dev (m : Mach) (n : Nat) (f : Core → Core) : (m.modCore n f).dev = m.dev := rfl
@[simp] theorem Mach.modCore_sys (m : Mach) (n : Nat) (f : Core → Core) : (m.modCore n f).sys = m.sys := rfl
@[simp] theorem Mach.modCore_host (m : Mach) (n : Nat) (f : Core → Core) : (m.modCore n f).host = m.host := rfl
@[simp] theorem Mach.modCore_peers (m : Mach) (n : Nat) (f : Core → Core) : (m.modCore n f).peers = m.peers := rfl
@[simp] theorem Mach.modCore_pubs (m : Mach) (n : Nat) (f : Core → Core) : (m.modCore n f).pubs = m.pubs := rfl
@[simp] theorem Mach.modCore_bars (m : Mach) (n : Nat) (f : Core → Core) : (m.modCore n f).bars = m.bars := rfl
@[simp] theorem Mach.modCore_hub (m : Mach) (n : Nat) (f : Core → Core) : (m.modCore n f).hub = m.hub := rfl
@[simp] theorem Mach.modCore_module (m : Mach) (n : Nat) (f : Core → Core) : (m.modCore n f).module = m.module := rfl

@[simp] theorem Mach.modMe_now (m : Mach) (f : Core → Core) : (m.modMe f).now = m.now := rfl
@[simp] theorem Mach.modMe_phase (m : Mach) (f : Core → Core) : (m.modMe f).phase = m.phase := rfl
@[simp] theorem Mach.modMe_cur (m : Mach) (f : Core → Core) : (m.modMe f).cur = m.cur := rfl
@[simp] theorem Mach.modMe_curQ (m : Mach) (f : Core → Core) : (m.modMe f).curQ = m.curQ := rfl
@[simp] theorem Mach.modMe_curP (m : Mach) (f : Core → Core) : (m.modMe f).curP = m.curP := rfl
@[simp] theorem Mach.modMe_active (m : Mach) (f : Core → Core) : (m.modMe f).active = m.active := rfl
@[simp] theorem Mach.modMe_inbox (m : Mach) (f : Core → Core) : (m.modMe f).inbox = m.inbox := rfl
@[simp] theorem Mach.modMe_arrivals (m : Mach) (f : Core → Core) : (m.modMe f).arrivals = m.arrivals := rfl
@[simp] theorem Mach.modMe_free (m : Mach) (f : Core → Core) : (m.modMe f).free = m.free := rfl
@[simp] theorem Mach.modMe_quads (m : Mach) (f : Core → Core) : (m.modMe f).quads = m.quads := rfl
@[simp] theorem Mach.modMe_dies (m : Mach) (f : Core → Core) : (m.modMe f).dies = m.dies := rfl
@[simp] theorem Mach.modMe_hbm (m : Mach) (f : Core → Core) : (m.modMe f).hbm = m.hbm := rfl
@[simp] theorem Mach.modMe_dev (m : Mach) (f : Core → Core) : (m.modMe f).dev = m.dev := rfl
@[simp] theorem Mach.modMe_sys (m : Mach) (f : Core → Core) : (m.modMe f).sys = m.sys := rfl
@[simp] theorem Mach.modMe_host (m : Mach) (f : Core → Core) : (m.modMe f).host = m.host := rfl
@[simp] theorem Mach.modMe_peers (m : Mach) (f : Core → Core) : (m.modMe f).peers = m.peers := rfl
@[simp] theorem Mach.modMe_pubs (m : Mach) (f : Core → Core) : (m.modMe f).pubs = m.pubs := rfl
@[simp] theorem Mach.modMe_bars (m : Mach) (f : Core → Core) : (m.modMe f).bars = m.bars := rfl
@[simp] theorem Mach.modMe_hub (m : Mach) (f : Core → Core) : (m.modMe f).hub = m.hub := rfl
@[simp] theorem Mach.modMe_module (m : Mach) (f : Core → Core) : (m.modMe f).module = m.module := rfl

@[simp] theorem Mach.modCtl_now (m : Mach) (f : Ctl → Ctl) : (m.modCtl f).now = m.now := rfl
@[simp] theorem Mach.modCtl_phase (m : Mach) (f : Ctl → Ctl) : (m.modCtl f).phase = m.phase := rfl
@[simp] theorem Mach.modCtl_cur (m : Mach) (f : Ctl → Ctl) : (m.modCtl f).cur = m.cur := rfl
@[simp] theorem Mach.modCtl_curQ (m : Mach) (f : Ctl → Ctl) : (m.modCtl f).curQ = m.curQ := rfl
@[simp] theorem Mach.modCtl_curP (m : Mach) (f : Ctl → Ctl) : (m.modCtl f).curP = m.curP := rfl
@[simp] theorem Mach.modCtl_active (m : Mach) (f : Ctl → Ctl) : (m.modCtl f).active = m.active := rfl
@[simp] theorem Mach.modCtl_inbox (m : Mach) (f : Ctl → Ctl) : (m.modCtl f).inbox = m.inbox := rfl
@[simp] theorem Mach.modCtl_arrivals (m : Mach) (f : Ctl → Ctl) : (m.modCtl f).arrivals = m.arrivals := rfl
@[simp] theorem Mach.modCtl_free (m : Mach) (f : Ctl → Ctl) : (m.modCtl f).free = m.free := rfl
@[simp] theorem Mach.modCtl_quads (m : Mach) (f : Ctl → Ctl) : (m.modCtl f).quads = m.quads := rfl
@[simp] theorem Mach.modCtl_dies (m : Mach) (f : Ctl → Ctl) : (m.modCtl f).dies = m.dies := rfl
@[simp] theorem Mach.modCtl_hbm (m : Mach) (f : Ctl → Ctl) : (m.modCtl f).hbm = m.hbm := rfl
@[simp] theorem Mach.modCtl_dev (m : Mach) (f : Ctl → Ctl) : (m.modCtl f).dev = m.dev := rfl
@[simp] theorem Mach.modCtl_sys (m : Mach) (f : Ctl → Ctl) : (m.modCtl f).sys = m.sys := rfl
@[simp] theorem Mach.modCtl_host (m : Mach) (f : Ctl → Ctl) : (m.modCtl f).host = m.host := rfl
@[simp] theorem Mach.modCtl_peers (m : Mach) (f : Ctl → Ctl) : (m.modCtl f).peers = m.peers := rfl
@[simp] theorem Mach.modCtl_pubs (m : Mach) (f : Ctl → Ctl) : (m.modCtl f).pubs = m.pubs := rfl
@[simp] theorem Mach.modCtl_bars (m : Mach) (f : Ctl → Ctl) : (m.modCtl f).bars = m.bars := rfl
@[simp] theorem Mach.modCtl_hub (m : Mach) (f : Ctl → Ctl) : (m.modCtl f).hub = m.hub := rfl
@[simp] theorem Mach.modCtl_module (m : Mach) (f : Ctl → Ctl) : (m.modCtl f).module = m.module := rfl

@[simp] theorem Mach.write_now (m : Mach) (st : Stream) (lat : Nat) (d : Dest) (nfl : Flags) : (m.write st lat d nfl).now = m.now := rfl
@[simp] theorem Mach.write_phase (m : Mach) (st : Stream) (lat : Nat) (d : Dest) (nfl : Flags) : (m.write st lat d nfl).phase = m.phase := rfl
@[simp] theorem Mach.write_cur (m : Mach) (st : Stream) (lat : Nat) (d : Dest) (nfl : Flags) : (m.write st lat d nfl).cur = m.cur := rfl
@[simp] theorem Mach.write_curQ (m : Mach) (st : Stream) (lat : Nat) (d : Dest) (nfl : Flags) : (m.write st lat d nfl).curQ = m.curQ := rfl
@[simp] theorem Mach.write_curP (m : Mach) (st : Stream) (lat : Nat) (d : Dest) (nfl : Flags) : (m.write st lat d nfl).curP = m.curP := rfl
@[simp] theorem Mach.write_active (m : Mach) (st : Stream) (lat : Nat) (d : Dest) (nfl : Flags) : (m.write st lat d nfl).active = m.active := rfl
@[simp] theorem Mach.write_inbox (m : Mach) (st : Stream) (lat : Nat) (d : Dest) (nfl : Flags) : (m.write st lat d nfl).inbox = m.inbox := rfl
@[simp] theorem Mach.write_arrivals (m : Mach) (st : Stream) (lat : Nat) (d : Dest) (nfl : Flags) : (m.write st lat d nfl).arrivals = m.arrivals := rfl
@[simp] theorem Mach.write_free (m : Mach) (st : Stream) (lat : Nat) (d : Dest) (nfl : Flags) : (m.write st lat d nfl).free = m.free := rfl
@[simp] theorem Mach.write_quads (m : Mach) (st : Stream) (lat : Nat) (d : Dest) (nfl : Flags) : (m.write st lat d nfl).quads = m.quads := rfl
@[simp] theorem Mach.write_dies (m : Mach) (st : Stream) (lat : Nat) (d : Dest) (nfl : Flags) : (m.write st lat d nfl).dies = m.dies := rfl
@[simp] theorem Mach.write_hbm (m : Mach) (st : Stream) (lat : Nat) (d : Dest) (nfl : Flags) : (m.write st lat d nfl).hbm = m.hbm := rfl
@[simp] theorem Mach.write_dev (m : Mach) (st : Stream) (lat : Nat) (d : Dest) (nfl : Flags) : (m.write st lat d nfl).dev = m.dev := rfl
@[simp] theorem Mach.write_sys (m : Mach) (st : Stream) (lat : Nat) (d : Dest) (nfl : Flags) : (m.write st lat d nfl).sys = m.sys := rfl
@[simp] theorem Mach.write_host (m : Mach) (st : Stream) (lat : Nat) (d : Dest) (nfl : Flags) : (m.write st lat d nfl).host = m.host := rfl
@[simp] theorem Mach.write_peers (m : Mach) (st : Stream) (lat : Nat) (d : Dest) (nfl : Flags) : (m.write st lat d nfl).peers = m.peers := rfl
@[simp] theorem Mach.write_pubs (m : Mach) (st : Stream) (lat : Nat) (d : Dest) (nfl : Flags) : (m.write st lat d nfl).pubs = m.pubs := rfl
@[simp] theorem Mach.write_bars (m : Mach) (st : Stream) (lat : Nat) (d : Dest) (nfl : Flags) : (m.write st lat d nfl).bars = m.bars := rfl
@[simp] theorem Mach.write_hub (m : Mach) (st : Stream) (lat : Nat) (d : Dest) (nfl : Flags) : (m.write st lat d nfl).hub = m.hub := rfl
@[simp] theorem Mach.write_module (m : Mach) (st : Stream) (lat : Nat) (d : Dest) (nfl : Flags) : (m.write st lat d nfl).module = m.module := rfl

/-- The core set is the one read back. -/
theorem Mach.core_setCore (m : Mach) {n : Nat} (c : Core) (h : n < m.cores.length) : (m.setCore n c).core n = c := by
  simp [Mach.core, Mach.setCore, h]

/-- Setting a core leaves every other. -/
@[simp] theorem Mach.core_setCore_other (m : Mach) {n k : Nat} (c : Core) (h : k ≠ n) : (m.setCore n c).core k = m.core k := by
  simp [Mach.core, Mach.setCore, List.getElem?_set_ne (Ne.symm h)]

theorem Mach.core_modCore (m : Mach) {n : Nat} (f : Core → Core) (h : n < m.cores.length) : (m.modCore n f).core n = f (m.core n) :=
  Mach.core_setCore m _ h

@[simp] theorem Mach.core_modCore_other (m : Mach) {n k : Nat} (f : Core → Core) (h : k ≠ n) : (m.modCore n f).core k = m.core k :=
  Mach.core_setCore_other m _ h

theorem Mach.me_modMe (m : Mach) (f : Core → Core) (h : m.cur < m.cores.length) : (m.modMe f).me = f m.me :=
  Mach.core_modCore m f h

@[simp] theorem Mach.core_modMe_other (m : Mach) {k : Nat} (f : Core → Core) (h : k ≠ m.cur) : (m.modMe f).core k = m.core k :=
  Mach.core_setCore_other m _ h

@[simp] theorem Mach.setCore_cores_length (m : Mach) (n : Nat) (c : Core) : (m.setCore n c).cores.length = m.cores.length := by
  simp [Mach.setCore]

@[simp] theorem Mach.modCore_cores_length (m : Mach) (n : Nat) (f : Core → Core) : (m.modCore n f).cores.length = m.cores.length := by
  simp [Mach.modCore]

@[simp] theorem Mach.modMe_cores_length (m : Mach) (f : Core → Core) : (m.modMe f).cores.length = m.cores.length := by
  simp [Mach.modMe]

/-- Two changes of one core are one. -/
theorem Mach.modCore_modCore (m : Mach) (n : Nat) (f g : Core → Core) (h : n < m.cores.length) :
    (m.modCore n f).modCore n g = m.modCore n fun c => g (f c) := by
  unfold Mach.modCore
  rw [Mach.core_setCore m _ h]
  simp [Mach.setCore]

/-! ### Scratchpads, formats and domains -/

@[simp] theorem Mach.setPadMem_now (m : Mach) (p : Pad) (b : Memory) : (m.setPadMem p b).now = m.now := by cases p <;> rfl
@[simp] theorem Mach.setPadMem_phase (m : Mach) (p : Pad) (b : Memory) : (m.setPadMem p b).phase = m.phase := by cases p <;> rfl
@[simp] theorem Mach.setPadMem_cur (m : Mach) (p : Pad) (b : Memory) : (m.setPadMem p b).cur = m.cur := by cases p <;> rfl
@[simp] theorem Mach.setPadMem_curQ (m : Mach) (p : Pad) (b : Memory) : (m.setPadMem p b).curQ = m.curQ := by cases p <;> rfl
@[simp] theorem Mach.setPadMem_curP (m : Mach) (p : Pad) (b : Memory) : (m.setPadMem p b).curP = m.curP := by cases p <;> rfl
@[simp] theorem Mach.setPadMem_active (m : Mach) (p : Pad) (b : Memory) : (m.setPadMem p b).active = m.active := by cases p <;> rfl
@[simp] theorem Mach.setPadMem_inbox (m : Mach) (p : Pad) (b : Memory) : (m.setPadMem p b).inbox = m.inbox := by cases p <;> rfl
@[simp] theorem Mach.setPadMem_arrivals (m : Mach) (p : Pad) (b : Memory) : (m.setPadMem p b).arrivals = m.arrivals := by cases p <;> rfl
@[simp] theorem Mach.setPadMem_free (m : Mach) (p : Pad) (b : Memory) : (m.setPadMem p b).free = m.free := by cases p <;> rfl
@[simp] theorem Mach.setPadMem_hbm (m : Mach) (p : Pad) (b : Memory) : (m.setPadMem p b).hbm = m.hbm := by cases p <;> rfl
@[simp] theorem Mach.setPadMem_dev (m : Mach) (p : Pad) (b : Memory) : (m.setPadMem p b).dev = m.dev := by cases p <;> rfl
@[simp] theorem Mach.setPadMem_sys (m : Mach) (p : Pad) (b : Memory) : (m.setPadMem p b).sys = m.sys := by cases p <;> rfl
@[simp] theorem Mach.setPadMem_host (m : Mach) (p : Pad) (b : Memory) : (m.setPadMem p b).host = m.host := by cases p <;> rfl
@[simp] theorem Mach.setPadMem_peers (m : Mach) (p : Pad) (b : Memory) : (m.setPadMem p b).peers = m.peers := by cases p <;> rfl
@[simp] theorem Mach.setPadMem_pubs (m : Mach) (p : Pad) (b : Memory) : (m.setPadMem p b).pubs = m.pubs := by cases p <;> rfl
@[simp] theorem Mach.setPadMem_bars (m : Mach) (p : Pad) (b : Memory) : (m.setPadMem p b).bars = m.bars := by cases p <;> rfl
@[simp] theorem Mach.setPadMem_hub (m : Mach) (p : Pad) (b : Memory) : (m.setPadMem p b).hub = m.hub := by cases p <;> rfl
@[simp] theorem Mach.setPadMem_module (m : Mach) (p : Pad) (b : Memory) : (m.setPadMem p b).module = m.module := by cases p <;> rfl

@[simp] theorem Mach.setFmtReg_now (m : Mach) (p : Pad) (i : Nat) (v : W32) : (m.setFmtReg p i v).now = m.now := by cases p <;> rfl
@[simp] theorem Mach.setFmtReg_phase (m : Mach) (p : Pad) (i : Nat) (v : W32) : (m.setFmtReg p i v).phase = m.phase := by cases p <;> rfl
@[simp] theorem Mach.setFmtReg_cur (m : Mach) (p : Pad) (i : Nat) (v : W32) : (m.setFmtReg p i v).cur = m.cur := by cases p <;> rfl
@[simp] theorem Mach.setFmtReg_curQ (m : Mach) (p : Pad) (i : Nat) (v : W32) : (m.setFmtReg p i v).curQ = m.curQ := by cases p <;> rfl
@[simp] theorem Mach.setFmtReg_curP (m : Mach) (p : Pad) (i : Nat) (v : W32) : (m.setFmtReg p i v).curP = m.curP := by cases p <;> rfl
@[simp] theorem Mach.setFmtReg_active (m : Mach) (p : Pad) (i : Nat) (v : W32) : (m.setFmtReg p i v).active = m.active := by cases p <;> rfl
@[simp] theorem Mach.setFmtReg_inbox (m : Mach) (p : Pad) (i : Nat) (v : W32) : (m.setFmtReg p i v).inbox = m.inbox := by cases p <;> rfl
@[simp] theorem Mach.setFmtReg_arrivals (m : Mach) (p : Pad) (i : Nat) (v : W32) : (m.setFmtReg p i v).arrivals = m.arrivals := by cases p <;> rfl
@[simp] theorem Mach.setFmtReg_free (m : Mach) (p : Pad) (i : Nat) (v : W32) : (m.setFmtReg p i v).free = m.free := by cases p <;> rfl
@[simp] theorem Mach.setFmtReg_hbm (m : Mach) (p : Pad) (i : Nat) (v : W32) : (m.setFmtReg p i v).hbm = m.hbm := by cases p <;> rfl
@[simp] theorem Mach.setFmtReg_dev (m : Mach) (p : Pad) (i : Nat) (v : W32) : (m.setFmtReg p i v).dev = m.dev := by cases p <;> rfl
@[simp] theorem Mach.setFmtReg_sys (m : Mach) (p : Pad) (i : Nat) (v : W32) : (m.setFmtReg p i v).sys = m.sys := by cases p <;> rfl
@[simp] theorem Mach.setFmtReg_host (m : Mach) (p : Pad) (i : Nat) (v : W32) : (m.setFmtReg p i v).host = m.host := by cases p <;> rfl
@[simp] theorem Mach.setFmtReg_peers (m : Mach) (p : Pad) (i : Nat) (v : W32) : (m.setFmtReg p i v).peers = m.peers := by cases p <;> rfl
@[simp] theorem Mach.setFmtReg_pubs (m : Mach) (p : Pad) (i : Nat) (v : W32) : (m.setFmtReg p i v).pubs = m.pubs := by cases p <;> rfl
@[simp] theorem Mach.setFmtReg_bars (m : Mach) (p : Pad) (i : Nat) (v : W32) : (m.setFmtReg p i v).bars = m.bars := by cases p <;> rfl
@[simp] theorem Mach.setFmtReg_hub (m : Mach) (p : Pad) (i : Nat) (v : W32) : (m.setFmtReg p i v).hub = m.hub := by cases p <;> rfl
@[simp] theorem Mach.setFmtReg_module (m : Mach) (p : Pad) (i : Nat) (v : W32) : (m.setFmtReg p i v).module = m.module := by cases p <;> rfl

@[simp] theorem Mach.setDom_now (m : Mach) (d : DomRef) (v : Dom) : (m.setDom d v).now = m.now := by cases d <;> rfl
@[simp] theorem Mach.setDom_phase (m : Mach) (d : DomRef) (v : Dom) : (m.setDom d v).phase = m.phase := by cases d <;> rfl
@[simp] theorem Mach.setDom_cur (m : Mach) (d : DomRef) (v : Dom) : (m.setDom d v).cur = m.cur := by cases d <;> rfl
@[simp] theorem Mach.setDom_curQ (m : Mach) (d : DomRef) (v : Dom) : (m.setDom d v).curQ = m.curQ := by cases d <;> rfl
@[simp] theorem Mach.setDom_curP (m : Mach) (d : DomRef) (v : Dom) : (m.setDom d v).curP = m.curP := by cases d <;> rfl
@[simp] theorem Mach.setDom_active (m : Mach) (d : DomRef) (v : Dom) : (m.setDom d v).active = m.active := by cases d <;> rfl
@[simp] theorem Mach.setDom_inbox (m : Mach) (d : DomRef) (v : Dom) : (m.setDom d v).inbox = m.inbox := by cases d <;> rfl
@[simp] theorem Mach.setDom_arrivals (m : Mach) (d : DomRef) (v : Dom) : (m.setDom d v).arrivals = m.arrivals := by cases d <;> rfl
@[simp] theorem Mach.setDom_free (m : Mach) (d : DomRef) (v : Dom) : (m.setDom d v).free = m.free := by cases d <;> rfl
@[simp] theorem Mach.setDom_hbm (m : Mach) (d : DomRef) (v : Dom) : (m.setDom d v).hbm = m.hbm := by cases d <;> rfl
@[simp] theorem Mach.setDom_dev (m : Mach) (d : DomRef) (v : Dom) : (m.setDom d v).dev = m.dev := by cases d <;> rfl
@[simp] theorem Mach.setDom_sys (m : Mach) (d : DomRef) (v : Dom) : (m.setDom d v).sys = m.sys := by cases d <;> rfl
@[simp] theorem Mach.setDom_host (m : Mach) (d : DomRef) (v : Dom) : (m.setDom d v).host = m.host := by cases d <;> rfl
@[simp] theorem Mach.setDom_peers (m : Mach) (d : DomRef) (v : Dom) : (m.setDom d v).peers = m.peers := by cases d <;> rfl
@[simp] theorem Mach.setDom_pubs (m : Mach) (d : DomRef) (v : Dom) : (m.setDom d v).pubs = m.pubs := by cases d <;> rfl
@[simp] theorem Mach.setDom_bars (m : Mach) (d : DomRef) (v : Dom) : (m.setDom d v).bars = m.bars := by cases d <;> rfl
@[simp] theorem Mach.setDom_hub (m : Mach) (d : DomRef) (v : Dom) : (m.setDom d v).hub = m.hub := by cases d <;> rfl
@[simp] theorem Mach.setDom_module (m : Mach) (d : DomRef) (v : Dom) : (m.setDom d v).module = m.module := by cases d <;> rfl

@[simp] theorem Mach.padWrite_now (m : Mach) (p : Pad) (ws : List (Nat × Byte)) : (m.padWrite p ws).now = m.now := by simp [Mach.padWrite]
@[simp] theorem Mach.padWrite_phase (m : Mach) (p : Pad) (ws : List (Nat × Byte)) : (m.padWrite p ws).phase = m.phase := by simp [Mach.padWrite]
@[simp] theorem Mach.padWrite_cur (m : Mach) (p : Pad) (ws : List (Nat × Byte)) : (m.padWrite p ws).cur = m.cur := by simp [Mach.padWrite]
@[simp] theorem Mach.padWrite_curQ (m : Mach) (p : Pad) (ws : List (Nat × Byte)) : (m.padWrite p ws).curQ = m.curQ := by simp [Mach.padWrite]
@[simp] theorem Mach.padWrite_curP (m : Mach) (p : Pad) (ws : List (Nat × Byte)) : (m.padWrite p ws).curP = m.curP := by simp [Mach.padWrite]
@[simp] theorem Mach.padWrite_active (m : Mach) (p : Pad) (ws : List (Nat × Byte)) : (m.padWrite p ws).active = m.active := by simp [Mach.padWrite]
@[simp] theorem Mach.padWrite_inbox (m : Mach) (p : Pad) (ws : List (Nat × Byte)) : (m.padWrite p ws).inbox = m.inbox := by simp [Mach.padWrite]
@[simp] theorem Mach.padWrite_arrivals (m : Mach) (p : Pad) (ws : List (Nat × Byte)) : (m.padWrite p ws).arrivals = m.arrivals := by simp [Mach.padWrite]
@[simp] theorem Mach.padWrite_free (m : Mach) (p : Pad) (ws : List (Nat × Byte)) : (m.padWrite p ws).free = m.free := by simp [Mach.padWrite]
@[simp] theorem Mach.padWrite_hbm (m : Mach) (p : Pad) (ws : List (Nat × Byte)) : (m.padWrite p ws).hbm = m.hbm := by simp [Mach.padWrite]
@[simp] theorem Mach.padWrite_dev (m : Mach) (p : Pad) (ws : List (Nat × Byte)) : (m.padWrite p ws).dev = m.dev := by simp [Mach.padWrite]
@[simp] theorem Mach.padWrite_sys (m : Mach) (p : Pad) (ws : List (Nat × Byte)) : (m.padWrite p ws).sys = m.sys := by simp [Mach.padWrite]
@[simp] theorem Mach.padWrite_host (m : Mach) (p : Pad) (ws : List (Nat × Byte)) : (m.padWrite p ws).host = m.host := by simp [Mach.padWrite]
@[simp] theorem Mach.padWrite_peers (m : Mach) (p : Pad) (ws : List (Nat × Byte)) : (m.padWrite p ws).peers = m.peers := by simp [Mach.padWrite]
@[simp] theorem Mach.padWrite_pubs (m : Mach) (p : Pad) (ws : List (Nat × Byte)) : (m.padWrite p ws).pubs = m.pubs := by simp [Mach.padWrite]
@[simp] theorem Mach.padWrite_bars (m : Mach) (p : Pad) (ws : List (Nat × Byte)) : (m.padWrite p ws).bars = m.bars := by simp [Mach.padWrite]
@[simp] theorem Mach.padWrite_hub (m : Mach) (p : Pad) (ws : List (Nat × Byte)) : (m.padWrite p ws).hub = m.hub := by simp [Mach.padWrite]
@[simp] theorem Mach.padWrite_module (m : Mach) (p : Pad) (ws : List (Nat × Byte)) : (m.padWrite p ws).module = m.module := by simp [Mach.padWrite]

/-! ### Results in flight, flags, streams and queues of a core -/

@[simp] theorem Core.fly_bound (c : Core) (r : Result) : (c.fly r).bound = c.bound := rfl
@[simp] theorem Core.fly_ctl (c : Core) (r : Result) : (c.fly r).ctl = c.ctl := rfl
@[simp] theorem Core.fly_frame (c : Core) (r : Result) : (c.fly r).frame = c.frame := rfl
@[simp] theorem Core.fly_cstore (c : Core) (r : Result) : (c.fly r).cstore = c.cstore := rfl
@[simp] theorem Core.fly_marked (c : Core) (r : Result) : (c.fly r).marked = c.marked := rfl
@[simp] theorem Core.fly_seq (c : Core) (r : Result) : (c.fly r).seq = c.seq := rfl
@[simp] theorem Core.fly_stop (c : Core) (r : Result) : (c.fly r).stop = c.stop := rfl
@[simp] theorem Core.fly_hold (c : Core) (r : Result) : (c.fly r).hold = c.hold := rfl
@[simp] theorem Core.fly_scal (c : Core) (r : Result) : (c.fly r).scal = c.scal := rfl
@[simp] theorem Core.fly_events (c : Core) (r : Result) : (c.fly r).events = c.events := rfl
@[simp] theorem Core.fly_pad (c : Core) (r : Result) : (c.fly r).pad = c.pad := rfl
@[simp] theorem Core.fly_slots (c : Core) (r : Result) : (c.fly r).slots = c.slots := rfl
@[simp] theorem Core.fly_doms (c : Core) (r : Result) : (c.fly r).doms = c.doms := rfl
@[simp] theorem Core.fly_vec (c : Core) (r : Result) : (c.fly r).vec = c.vec := rfl
@[simp] theorem Core.fly_mx (c : Core) (r : Result) : (c.fly r).mx = c.mx := rfl
@[simp] theorem Core.fly_xe (c : Core) (r : Result) : (c.fly r).xe = c.xe := rfl
@[simp] theorem Core.fly_hv (c : Core) (r : Result) : (c.fly r).hv = c.hv := rfl
@[simp] theorem Core.fly_glb (c : Core) (r : Result) : (c.fly r).glb = c.glb := rfl
@[simp] theorem Core.fly_port (c : Core) (r : Result) : (c.fly r).port = c.port := rfl
@[simp] theorem Core.fly_preempt (c : Core) (r : Result) : (c.fly r).preempt = c.preempt := rfl

@[simp] theorem Core.fly_flight (c : Core) (r : Result) : (c.fly r).flight = c.flight ++ [r] := rfl

@[simp] theorem Core.flag_bound (c : Core) (now : Nat) (f : Flags) : (c.flag now f).bound = c.bound := rfl
@[simp] theorem Core.flag_frame (c : Core) (now : Nat) (f : Flags) : (c.flag now f).frame = c.frame := rfl
@[simp] theorem Core.flag_cstore (c : Core) (now : Nat) (f : Flags) : (c.flag now f).cstore = c.cstore := rfl
@[simp] theorem Core.flag_marked (c : Core) (now : Nat) (f : Flags) : (c.flag now f).marked = c.marked := rfl
@[simp] theorem Core.flag_seq (c : Core) (now : Nat) (f : Flags) : (c.flag now f).seq = c.seq := rfl
@[simp] theorem Core.flag_stop (c : Core) (now : Nat) (f : Flags) : (c.flag now f).stop = c.stop := rfl
@[simp] theorem Core.flag_hold (c : Core) (now : Nat) (f : Flags) : (c.flag now f).hold = c.hold := rfl
@[simp] theorem Core.flag_scal (c : Core) (now : Nat) (f : Flags) : (c.flag now f).scal = c.scal := rfl
@[simp] theorem Core.flag_events (c : Core) (now : Nat) (f : Flags) : (c.flag now f).events = c.events := rfl
@[simp] theorem Core.flag_pad (c : Core) (now : Nat) (f : Flags) : (c.flag now f).pad = c.pad := rfl
@[simp] theorem Core.flag_slots (c : Core) (now : Nat) (f : Flags) : (c.flag now f).slots = c.slots := rfl
@[simp] theorem Core.flag_doms (c : Core) (now : Nat) (f : Flags) : (c.flag now f).doms = c.doms := rfl
@[simp] theorem Core.flag_vec (c : Core) (now : Nat) (f : Flags) : (c.flag now f).vec = c.vec := rfl
@[simp] theorem Core.flag_mx (c : Core) (now : Nat) (f : Flags) : (c.flag now f).mx = c.mx := rfl
@[simp] theorem Core.flag_xe (c : Core) (now : Nat) (f : Flags) : (c.flag now f).xe = c.xe := rfl
@[simp] theorem Core.flag_hv (c : Core) (now : Nat) (f : Flags) : (c.flag now f).hv = c.hv := rfl
@[simp] theorem Core.flag_flight (c : Core) (now : Nat) (f : Flags) : (c.flag now f).flight = c.flight := rfl
@[simp] theorem Core.flag_glb (c : Core) (now : Nat) (f : Flags) : (c.flag now f).glb = c.glb := rfl
@[simp] theorem Core.flag_port (c : Core) (now : Nat) (f : Flags) : (c.flag now f).port = c.port := rfl
@[simp] theorem Core.flag_preempt (c : Core) (now : Nat) (f : Flags) : (c.flag now f).preempt = c.preempt := rfl

@[simp] theorem Core.flag_nflags (c : Core) (now : Nat) (f : Flags) : (c.flag now f).ctl.nflags = c.ctl.nflags ||| f := rfl

@[simp] theorem Core.modStream_bound (c : Core) (st : Stream) (f : StreamSt → StreamSt) : (c.modStream st f).bound = c.bound := rfl
@[simp] theorem Core.modStream_ctl (c : Core) (st : Stream) (f : StreamSt → StreamSt) : (c.modStream st f).ctl = c.ctl := rfl
@[simp] theorem Core.modStream_frame (c : Core) (st : Stream) (f : StreamSt → StreamSt) : (c.modStream st f).frame = c.frame := rfl
@[simp] theorem Core.modStream_cstore (c : Core) (st : Stream) (f : StreamSt → StreamSt) : (c.modStream st f).cstore = c.cstore := rfl
@[simp] theorem Core.modStream_marked (c : Core) (st : Stream) (f : StreamSt → StreamSt) : (c.modStream st f).marked = c.marked := rfl
@[simp] theorem Core.modStream_stop (c : Core) (st : Stream) (f : StreamSt → StreamSt) : (c.modStream st f).stop = c.stop := rfl
@[simp] theorem Core.modStream_hold (c : Core) (st : Stream) (f : StreamSt → StreamSt) : (c.modStream st f).hold = c.hold := rfl
@[simp] theorem Core.modStream_scal (c : Core) (st : Stream) (f : StreamSt → StreamSt) : (c.modStream st f).scal = c.scal := rfl
@[simp] theorem Core.modStream_events (c : Core) (st : Stream) (f : StreamSt → StreamSt) : (c.modStream st f).events = c.events := rfl
@[simp] theorem Core.modStream_pad (c : Core) (st : Stream) (f : StreamSt → StreamSt) : (c.modStream st f).pad = c.pad := rfl
@[simp] theorem Core.modStream_slots (c : Core) (st : Stream) (f : StreamSt → StreamSt) : (c.modStream st f).slots = c.slots := rfl
@[simp] theorem Core.modStream_doms (c : Core) (st : Stream) (f : StreamSt → StreamSt) : (c.modStream st f).doms = c.doms := rfl
@[simp] theorem Core.modStream_vec (c : Core) (st : Stream) (f : StreamSt → StreamSt) : (c.modStream st f).vec = c.vec := rfl
@[simp] theorem Core.modStream_mx (c : Core) (st : Stream) (f : StreamSt → StreamSt) : (c.modStream st f).mx = c.mx := rfl
@[simp] theorem Core.modStream_xe (c : Core) (st : Stream) (f : StreamSt → StreamSt) : (c.modStream st f).xe = c.xe := rfl
@[simp] theorem Core.modStream_hv (c : Core) (st : Stream) (f : StreamSt → StreamSt) : (c.modStream st f).hv = c.hv := rfl
@[simp] theorem Core.modStream_flight (c : Core) (st : Stream) (f : StreamSt → StreamSt) : (c.modStream st f).flight = c.flight := rfl
@[simp] theorem Core.modStream_glb (c : Core) (st : Stream) (f : StreamSt → StreamSt) : (c.modStream st f).glb = c.glb := rfl
@[simp] theorem Core.modStream_port (c : Core) (st : Stream) (f : StreamSt → StreamSt) : (c.modStream st f).port = c.port := rfl
@[simp] theorem Core.modStream_preempt (c : Core) (st : Stream) (f : StreamSt → StreamSt) : (c.modStream st f).preempt = c.preempt := rfl

@[simp] theorem Core.bookPort_bound (c : Core) (g t : Nat) (own : Bool) : (c.bookPort g t own).bound = c.bound := rfl
@[simp] theorem Core.bookPort_ctl (c : Core) (g t : Nat) (own : Bool) : (c.bookPort g t own).ctl = c.ctl := rfl
@[simp] theorem Core.bookPort_frame (c : Core) (g t : Nat) (own : Bool) : (c.bookPort g t own).frame = c.frame := rfl
@[simp] theorem Core.bookPort_cstore (c : Core) (g t : Nat) (own : Bool) : (c.bookPort g t own).cstore = c.cstore := rfl
@[simp] theorem Core.bookPort_marked (c : Core) (g t : Nat) (own : Bool) : (c.bookPort g t own).marked = c.marked := rfl
@[simp] theorem Core.bookPort_seq (c : Core) (g t : Nat) (own : Bool) : (c.bookPort g t own).seq = c.seq := rfl
@[simp] theorem Core.bookPort_stop (c : Core) (g t : Nat) (own : Bool) : (c.bookPort g t own).stop = c.stop := rfl
@[simp] theorem Core.bookPort_hold (c : Core) (g t : Nat) (own : Bool) : (c.bookPort g t own).hold = c.hold := rfl
@[simp] theorem Core.bookPort_scal (c : Core) (g t : Nat) (own : Bool) : (c.bookPort g t own).scal = c.scal := rfl
@[simp] theorem Core.bookPort_events (c : Core) (g t : Nat) (own : Bool) : (c.bookPort g t own).events = c.events := rfl
@[simp] theorem Core.bookPort_slots (c : Core) (g t : Nat) (own : Bool) : (c.bookPort g t own).slots = c.slots := rfl
@[simp] theorem Core.bookPort_doms (c : Core) (g t : Nat) (own : Bool) : (c.bookPort g t own).doms = c.doms := rfl
@[simp] theorem Core.bookPort_vec (c : Core) (g t : Nat) (own : Bool) : (c.bookPort g t own).vec = c.vec := rfl
@[simp] theorem Core.bookPort_mx (c : Core) (g t : Nat) (own : Bool) : (c.bookPort g t own).mx = c.mx := rfl
@[simp] theorem Core.bookPort_xe (c : Core) (g t : Nat) (own : Bool) : (c.bookPort g t own).xe = c.xe := rfl
@[simp] theorem Core.bookPort_hv (c : Core) (g t : Nat) (own : Bool) : (c.bookPort g t own).hv = c.hv := rfl
@[simp] theorem Core.bookPort_flight (c : Core) (g t : Nat) (own : Bool) : (c.bookPort g t own).flight = c.flight := rfl
@[simp] theorem Core.bookPort_glb (c : Core) (g t : Nat) (own : Bool) : (c.bookPort g t own).glb = c.glb := rfl
@[simp] theorem Core.bookPort_port (c : Core) (g t : Nat) (own : Bool) : (c.bookPort g t own).port = c.port := rfl
@[simp] theorem Core.bookPort_preempt (c : Core) (g t : Nat) (own : Bool) : (c.bookPort g t own).preempt = c.preempt := rfl

@[simp] theorem Core.pop_bound (c : Core) (now q : Nat) : (c.pop now q).bound = c.bound := rfl
@[simp] theorem Core.pop_ctl (c : Core) (now q : Nat) : (c.pop now q).ctl = c.ctl := rfl
@[simp] theorem Core.pop_frame (c : Core) (now q : Nat) : (c.pop now q).frame = c.frame := rfl
@[simp] theorem Core.pop_cstore (c : Core) (now q : Nat) : (c.pop now q).cstore = c.cstore := rfl
@[simp] theorem Core.pop_marked (c : Core) (now q : Nat) : (c.pop now q).marked = c.marked := rfl
@[simp] theorem Core.pop_seq (c : Core) (now q : Nat) : (c.pop now q).seq = c.seq := rfl
@[simp] theorem Core.pop_stop (c : Core) (now q : Nat) : (c.pop now q).stop = c.stop := rfl
@[simp] theorem Core.pop_hold (c : Core) (now q : Nat) : (c.pop now q).hold = c.hold := rfl
@[simp] theorem Core.pop_events (c : Core) (now q : Nat) : (c.pop now q).events = c.events := rfl
@[simp] theorem Core.pop_pad (c : Core) (now q : Nat) : (c.pop now q).pad = c.pad := rfl
@[simp] theorem Core.pop_slots (c : Core) (now q : Nat) : (c.pop now q).slots = c.slots := rfl
@[simp] theorem Core.pop_doms (c : Core) (now q : Nat) : (c.pop now q).doms = c.doms := rfl
@[simp] theorem Core.pop_vec (c : Core) (now q : Nat) : (c.pop now q).vec = c.vec := rfl
@[simp] theorem Core.pop_mx (c : Core) (now q : Nat) : (c.pop now q).mx = c.mx := rfl
@[simp] theorem Core.pop_xe (c : Core) (now q : Nat) : (c.pop now q).xe = c.xe := rfl
@[simp] theorem Core.pop_hv (c : Core) (now q : Nat) : (c.pop now q).hv = c.hv := rfl
@[simp] theorem Core.pop_flight (c : Core) (now q : Nat) : (c.pop now q).flight = c.flight := rfl
@[simp] theorem Core.pop_glb (c : Core) (now q : Nat) : (c.pop now q).glb = c.glb := rfl
@[simp] theorem Core.pop_port (c : Core) (now q : Nat) : (c.pop now q).port = c.port := rfl
@[simp] theorem Core.pop_preempt (c : Core) (now q : Nat) : (c.pop now q).preempt = c.preempt := rfl

@[simp] theorem Core.setSem_bound (c : Core) (n v : Nat) : (c.setSem n v).bound = c.bound := rfl
@[simp] theorem Core.setSem_ctl (c : Core) (n v : Nat) : (c.setSem n v).ctl = c.ctl := rfl
@[simp] theorem Core.setSem_frame (c : Core) (n v : Nat) : (c.setSem n v).frame = c.frame := rfl
@[simp] theorem Core.setSem_cstore (c : Core) (n v : Nat) : (c.setSem n v).cstore = c.cstore := rfl
@[simp] theorem Core.setSem_marked (c : Core) (n v : Nat) : (c.setSem n v).marked = c.marked := rfl
@[simp] theorem Core.setSem_seq (c : Core) (n v : Nat) : (c.setSem n v).seq = c.seq := rfl
@[simp] theorem Core.setSem_stop (c : Core) (n v : Nat) : (c.setSem n v).stop = c.stop := rfl
@[simp] theorem Core.setSem_hold (c : Core) (n v : Nat) : (c.setSem n v).hold = c.hold := rfl
@[simp] theorem Core.setSem_events (c : Core) (n v : Nat) : (c.setSem n v).events = c.events := rfl
@[simp] theorem Core.setSem_pad (c : Core) (n v : Nat) : (c.setSem n v).pad = c.pad := rfl
@[simp] theorem Core.setSem_slots (c : Core) (n v : Nat) : (c.setSem n v).slots = c.slots := rfl
@[simp] theorem Core.setSem_doms (c : Core) (n v : Nat) : (c.setSem n v).doms = c.doms := rfl
@[simp] theorem Core.setSem_vec (c : Core) (n v : Nat) : (c.setSem n v).vec = c.vec := rfl
@[simp] theorem Core.setSem_mx (c : Core) (n v : Nat) : (c.setSem n v).mx = c.mx := rfl
@[simp] theorem Core.setSem_xe (c : Core) (n v : Nat) : (c.setSem n v).xe = c.xe := rfl
@[simp] theorem Core.setSem_hv (c : Core) (n v : Nat) : (c.setSem n v).hv = c.hv := rfl
@[simp] theorem Core.setSem_flight (c : Core) (n v : Nat) : (c.setSem n v).flight = c.flight := rfl
@[simp] theorem Core.setSem_glb (c : Core) (n v : Nat) : (c.setSem n v).glb = c.glb := rfl
@[simp] theorem Core.setSem_port (c : Core) (n v : Nat) : (c.setSem n v).port = c.port := rfl
@[simp] theorem Core.setSem_preempt (c : Core) (n v : Nat) : (c.setSem n v).preempt = c.preempt := rfl

@[simp] theorem Core.setS_bound (c : Core) (n : Nat) (v : W64) : (c.setS n v).bound = c.bound := by unfold Core.setS; split <;> rfl
@[simp] theorem Core.setS_ctl (c : Core) (n : Nat) (v : W64) : (c.setS n v).ctl = c.ctl := by unfold Core.setS; split <;> rfl
@[simp] theorem Core.setS_frame (c : Core) (n : Nat) (v : W64) : (c.setS n v).frame = c.frame := by unfold Core.setS; split <;> rfl
@[simp] theorem Core.setS_cstore (c : Core) (n : Nat) (v : W64) : (c.setS n v).cstore = c.cstore := by unfold Core.setS; split <;> rfl
@[simp] theorem Core.setS_marked (c : Core) (n : Nat) (v : W64) : (c.setS n v).marked = c.marked := by unfold Core.setS; split <;> rfl
@[simp] theorem Core.setS_seq (c : Core) (n : Nat) (v : W64) : (c.setS n v).seq = c.seq := by unfold Core.setS; split <;> rfl
@[simp] theorem Core.setS_stop (c : Core) (n : Nat) (v : W64) : (c.setS n v).stop = c.stop := by unfold Core.setS; split <;> rfl
@[simp] theorem Core.setS_hold (c : Core) (n : Nat) (v : W64) : (c.setS n v).hold = c.hold := by unfold Core.setS; split <;> rfl
@[simp] theorem Core.setS_events (c : Core) (n : Nat) (v : W64) : (c.setS n v).events = c.events := by unfold Core.setS; split <;> rfl
@[simp] theorem Core.setS_pad (c : Core) (n : Nat) (v : W64) : (c.setS n v).pad = c.pad := by unfold Core.setS; split <;> rfl
@[simp] theorem Core.setS_slots (c : Core) (n : Nat) (v : W64) : (c.setS n v).slots = c.slots := by unfold Core.setS; split <;> rfl
@[simp] theorem Core.setS_doms (c : Core) (n : Nat) (v : W64) : (c.setS n v).doms = c.doms := by unfold Core.setS; split <;> rfl
@[simp] theorem Core.setS_vec (c : Core) (n : Nat) (v : W64) : (c.setS n v).vec = c.vec := by unfold Core.setS; split <;> rfl
@[simp] theorem Core.setS_mx (c : Core) (n : Nat) (v : W64) : (c.setS n v).mx = c.mx := by unfold Core.setS; split <;> rfl
@[simp] theorem Core.setS_xe (c : Core) (n : Nat) (v : W64) : (c.setS n v).xe = c.xe := by unfold Core.setS; split <;> rfl
@[simp] theorem Core.setS_hv (c : Core) (n : Nat) (v : W64) : (c.setS n v).hv = c.hv := by unfold Core.setS; split <;> rfl
@[simp] theorem Core.setS_flight (c : Core) (n : Nat) (v : W64) : (c.setS n v).flight = c.flight := by unfold Core.setS; split <;> rfl
@[simp] theorem Core.setS_glb (c : Core) (n : Nat) (v : W64) : (c.setS n v).glb = c.glb := by unfold Core.setS; split <;> rfl
@[simp] theorem Core.setS_port (c : Core) (n : Nat) (v : W64) : (c.setS n v).port = c.port := by unfold Core.setS; split <;> rfl
@[simp] theorem Core.setS_preempt (c : Core) (n : Nat) (v : W64) : (c.setS n v).preempt = c.preempt := by unfold Core.setS; split <;> rfl

@[simp] theorem Core.setAcc_bound (c : Core) (n : Nat) (v : BitVec 32768) : (c.setAcc n v).bound = c.bound := rfl
@[simp] theorem Core.setAcc_ctl (c : Core) (n : Nat) (v : BitVec 32768) : (c.setAcc n v).ctl = c.ctl := rfl
@[simp] theorem Core.setAcc_frame (c : Core) (n : Nat) (v : BitVec 32768) : (c.setAcc n v).frame = c.frame := rfl
@[simp] theorem Core.setAcc_cstore (c : Core) (n : Nat) (v : BitVec 32768) : (c.setAcc n v).cstore = c.cstore := rfl
@[simp] theorem Core.setAcc_marked (c : Core) (n : Nat) (v : BitVec 32768) : (c.setAcc n v).marked = c.marked := rfl
@[simp] theorem Core.setAcc_seq (c : Core) (n : Nat) (v : BitVec 32768) : (c.setAcc n v).seq = c.seq := rfl
@[simp] theorem Core.setAcc_stop (c : Core) (n : Nat) (v : BitVec 32768) : (c.setAcc n v).stop = c.stop := rfl
@[simp] theorem Core.setAcc_hold (c : Core) (n : Nat) (v : BitVec 32768) : (c.setAcc n v).hold = c.hold := rfl
@[simp] theorem Core.setAcc_scal (c : Core) (n : Nat) (v : BitVec 32768) : (c.setAcc n v).scal = c.scal := rfl
@[simp] theorem Core.setAcc_events (c : Core) (n : Nat) (v : BitVec 32768) : (c.setAcc n v).events = c.events := rfl
@[simp] theorem Core.setAcc_pad (c : Core) (n : Nat) (v : BitVec 32768) : (c.setAcc n v).pad = c.pad := rfl
@[simp] theorem Core.setAcc_slots (c : Core) (n : Nat) (v : BitVec 32768) : (c.setAcc n v).slots = c.slots := rfl
@[simp] theorem Core.setAcc_doms (c : Core) (n : Nat) (v : BitVec 32768) : (c.setAcc n v).doms = c.doms := rfl
@[simp] theorem Core.setAcc_vec (c : Core) (n : Nat) (v : BitVec 32768) : (c.setAcc n v).vec = c.vec := rfl
@[simp] theorem Core.setAcc_xe (c : Core) (n : Nat) (v : BitVec 32768) : (c.setAcc n v).xe = c.xe := rfl
@[simp] theorem Core.setAcc_hv (c : Core) (n : Nat) (v : BitVec 32768) : (c.setAcc n v).hv = c.hv := rfl
@[simp] theorem Core.setAcc_flight (c : Core) (n : Nat) (v : BitVec 32768) : (c.setAcc n v).flight = c.flight := rfl
@[simp] theorem Core.setAcc_glb (c : Core) (n : Nat) (v : BitVec 32768) : (c.setAcc n v).glb = c.glb := rfl
@[simp] theorem Core.setAcc_port (c : Core) (n : Nat) (v : BitVec 32768) : (c.setAcc n v).port = c.port := rfl
@[simp] theorem Core.setAcc_preempt (c : Core) (n : Nat) (v : BitVec 32768) : (c.setAcc n v).preempt = c.preempt := rfl

@[simp] theorem Core.modRing_bound (c : Core) (n : Nat) (f : Ring → Ring) : (c.modRing n f).bound = c.bound := rfl
@[simp] theorem Core.modRing_ctl (c : Core) (n : Nat) (f : Ring → Ring) : (c.modRing n f).ctl = c.ctl := rfl
@[simp] theorem Core.modRing_frame (c : Core) (n : Nat) (f : Ring → Ring) : (c.modRing n f).frame = c.frame := rfl
@[simp] theorem Core.modRing_cstore (c : Core) (n : Nat) (f : Ring → Ring) : (c.modRing n f).cstore = c.cstore := rfl
@[simp] theorem Core.modRing_marked (c : Core) (n : Nat) (f : Ring → Ring) : (c.modRing n f).marked = c.marked := rfl
@[simp] theorem Core.modRing_seq (c : Core) (n : Nat) (f : Ring → Ring) : (c.modRing n f).seq = c.seq := rfl
@[simp] theorem Core.modRing_stop (c : Core) (n : Nat) (f : Ring → Ring) : (c.modRing n f).stop = c.stop := rfl
@[simp] theorem Core.modRing_hold (c : Core) (n : Nat) (f : Ring → Ring) : (c.modRing n f).hold = c.hold := rfl
@[simp] theorem Core.modRing_scal (c : Core) (n : Nat) (f : Ring → Ring) : (c.modRing n f).scal = c.scal := rfl
@[simp] theorem Core.modRing_events (c : Core) (n : Nat) (f : Ring → Ring) : (c.modRing n f).events = c.events := rfl
@[simp] theorem Core.modRing_pad (c : Core) (n : Nat) (f : Ring → Ring) : (c.modRing n f).pad = c.pad := rfl
@[simp] theorem Core.modRing_slots (c : Core) (n : Nat) (f : Ring → Ring) : (c.modRing n f).slots = c.slots := rfl
@[simp] theorem Core.modRing_doms (c : Core) (n : Nat) (f : Ring → Ring) : (c.modRing n f).doms = c.doms := rfl
@[simp] theorem Core.modRing_vec (c : Core) (n : Nat) (f : Ring → Ring) : (c.modRing n f).vec = c.vec := rfl
@[simp] theorem Core.modRing_xe (c : Core) (n : Nat) (f : Ring → Ring) : (c.modRing n f).xe = c.xe := rfl
@[simp] theorem Core.modRing_hv (c : Core) (n : Nat) (f : Ring → Ring) : (c.modRing n f).hv = c.hv := rfl
@[simp] theorem Core.modRing_flight (c : Core) (n : Nat) (f : Ring → Ring) : (c.modRing n f).flight = c.flight := rfl
@[simp] theorem Core.modRing_glb (c : Core) (n : Nat) (f : Ring → Ring) : (c.modRing n f).glb = c.glb := rfl
@[simp] theorem Core.modRing_port (c : Core) (n : Nat) (f : Ring → Ring) : (c.modRing n f).port = c.port := rfl
@[simp] theorem Core.modRing_preempt (c : Core) (n : Nat) (f : Ring → Ring) : (c.modRing n f).preempt = c.preempt := rfl

@[simp] theorem Core.setChan_bound (c : Core) (n : Nat) (h : Option Chan) : (c.setChan n h).bound = c.bound := rfl
@[simp] theorem Core.setChan_ctl (c : Core) (n : Nat) (h : Option Chan) : (c.setChan n h).ctl = c.ctl := rfl
@[simp] theorem Core.setChan_frame (c : Core) (n : Nat) (h : Option Chan) : (c.setChan n h).frame = c.frame := rfl
@[simp] theorem Core.setChan_cstore (c : Core) (n : Nat) (h : Option Chan) : (c.setChan n h).cstore = c.cstore := rfl
@[simp] theorem Core.setChan_marked (c : Core) (n : Nat) (h : Option Chan) : (c.setChan n h).marked = c.marked := rfl
@[simp] theorem Core.setChan_seq (c : Core) (n : Nat) (h : Option Chan) : (c.setChan n h).seq = c.seq := rfl
@[simp] theorem Core.setChan_stop (c : Core) (n : Nat) (h : Option Chan) : (c.setChan n h).stop = c.stop := rfl
@[simp] theorem Core.setChan_hold (c : Core) (n : Nat) (h : Option Chan) : (c.setChan n h).hold = c.hold := rfl
@[simp] theorem Core.setChan_scal (c : Core) (n : Nat) (h : Option Chan) : (c.setChan n h).scal = c.scal := rfl
@[simp] theorem Core.setChan_events (c : Core) (n : Nat) (h : Option Chan) : (c.setChan n h).events = c.events := rfl
@[simp] theorem Core.setChan_pad (c : Core) (n : Nat) (h : Option Chan) : (c.setChan n h).pad = c.pad := rfl
@[simp] theorem Core.setChan_slots (c : Core) (n : Nat) (h : Option Chan) : (c.setChan n h).slots = c.slots := rfl
@[simp] theorem Core.setChan_doms (c : Core) (n : Nat) (h : Option Chan) : (c.setChan n h).doms = c.doms := rfl
@[simp] theorem Core.setChan_vec (c : Core) (n : Nat) (h : Option Chan) : (c.setChan n h).vec = c.vec := rfl
@[simp] theorem Core.setChan_mx (c : Core) (n : Nat) (h : Option Chan) : (c.setChan n h).mx = c.mx := rfl
@[simp] theorem Core.setChan_hv (c : Core) (n : Nat) (h : Option Chan) : (c.setChan n h).hv = c.hv := rfl
@[simp] theorem Core.setChan_flight (c : Core) (n : Nat) (h : Option Chan) : (c.setChan n h).flight = c.flight := rfl
@[simp] theorem Core.setChan_glb (c : Core) (n : Nat) (h : Option Chan) : (c.setChan n h).glb = c.glb := rfl
@[simp] theorem Core.setChan_port (c : Core) (n : Nat) (h : Option Chan) : (c.setChan n h).port = c.port := rfl
@[simp] theorem Core.setChan_preempt (c : Core) (n : Nat) (h : Option Chan) : (c.setChan n h).preempt = c.preempt := rfl

@[simp] theorem Core.modCopy_bound (c : Core) (entry : Nat) (f : Copy → Copy) : (c.modCopy entry f).bound = c.bound := rfl
@[simp] theorem Core.modCopy_ctl (c : Core) (entry : Nat) (f : Copy → Copy) : (c.modCopy entry f).ctl = c.ctl := rfl
@[simp] theorem Core.modCopy_frame (c : Core) (entry : Nat) (f : Copy → Copy) : (c.modCopy entry f).frame = c.frame := rfl
@[simp] theorem Core.modCopy_cstore (c : Core) (entry : Nat) (f : Copy → Copy) : (c.modCopy entry f).cstore = c.cstore := rfl
@[simp] theorem Core.modCopy_marked (c : Core) (entry : Nat) (f : Copy → Copy) : (c.modCopy entry f).marked = c.marked := rfl
@[simp] theorem Core.modCopy_seq (c : Core) (entry : Nat) (f : Copy → Copy) : (c.modCopy entry f).seq = c.seq := rfl
@[simp] theorem Core.modCopy_stop (c : Core) (entry : Nat) (f : Copy → Copy) : (c.modCopy entry f).stop = c.stop := rfl
@[simp] theorem Core.modCopy_hold (c : Core) (entry : Nat) (f : Copy → Copy) : (c.modCopy entry f).hold = c.hold := rfl
@[simp] theorem Core.modCopy_scal (c : Core) (entry : Nat) (f : Copy → Copy) : (c.modCopy entry f).scal = c.scal := rfl
@[simp] theorem Core.modCopy_events (c : Core) (entry : Nat) (f : Copy → Copy) : (c.modCopy entry f).events = c.events := rfl
@[simp] theorem Core.modCopy_pad (c : Core) (entry : Nat) (f : Copy → Copy) : (c.modCopy entry f).pad = c.pad := rfl
@[simp] theorem Core.modCopy_slots (c : Core) (entry : Nat) (f : Copy → Copy) : (c.modCopy entry f).slots = c.slots := rfl
@[simp] theorem Core.modCopy_doms (c : Core) (entry : Nat) (f : Copy → Copy) : (c.modCopy entry f).doms = c.doms := rfl
@[simp] theorem Core.modCopy_vec (c : Core) (entry : Nat) (f : Copy → Copy) : (c.modCopy entry f).vec = c.vec := rfl
@[simp] theorem Core.modCopy_mx (c : Core) (entry : Nat) (f : Copy → Copy) : (c.modCopy entry f).mx = c.mx := rfl
@[simp] theorem Core.modCopy_hv (c : Core) (entry : Nat) (f : Copy → Copy) : (c.modCopy entry f).hv = c.hv := rfl
@[simp] theorem Core.modCopy_flight (c : Core) (entry : Nat) (f : Copy → Copy) : (c.modCopy entry f).flight = c.flight := rfl
@[simp] theorem Core.modCopy_glb (c : Core) (entry : Nat) (f : Copy → Copy) : (c.modCopy entry f).glb = c.glb := rfl
@[simp] theorem Core.modCopy_port (c : Core) (entry : Nat) (f : Copy → Copy) : (c.modCopy entry f).port = c.port := rfl
@[simp] theorem Core.modCopy_preempt (c : Core) (entry : Nat) (f : Copy → Copy) : (c.modCopy entry f).preempt = c.preempt := rfl

@[simp] theorem Core.modLoad_bound (c : Core) (id : Nat) (f : GLoad → GLoad) : (c.modLoad id f).bound = c.bound := rfl
@[simp] theorem Core.modLoad_ctl (c : Core) (id : Nat) (f : GLoad → GLoad) : (c.modLoad id f).ctl = c.ctl := rfl
@[simp] theorem Core.modLoad_frame (c : Core) (id : Nat) (f : GLoad → GLoad) : (c.modLoad id f).frame = c.frame := rfl
@[simp] theorem Core.modLoad_cstore (c : Core) (id : Nat) (f : GLoad → GLoad) : (c.modLoad id f).cstore = c.cstore := rfl
@[simp] theorem Core.modLoad_marked (c : Core) (id : Nat) (f : GLoad → GLoad) : (c.modLoad id f).marked = c.marked := rfl
@[simp] theorem Core.modLoad_seq (c : Core) (id : Nat) (f : GLoad → GLoad) : (c.modLoad id f).seq = c.seq := rfl
@[simp] theorem Core.modLoad_stop (c : Core) (id : Nat) (f : GLoad → GLoad) : (c.modLoad id f).stop = c.stop := rfl
@[simp] theorem Core.modLoad_hold (c : Core) (id : Nat) (f : GLoad → GLoad) : (c.modLoad id f).hold = c.hold := rfl
@[simp] theorem Core.modLoad_scal (c : Core) (id : Nat) (f : GLoad → GLoad) : (c.modLoad id f).scal = c.scal := rfl
@[simp] theorem Core.modLoad_events (c : Core) (id : Nat) (f : GLoad → GLoad) : (c.modLoad id f).events = c.events := rfl
@[simp] theorem Core.modLoad_pad (c : Core) (id : Nat) (f : GLoad → GLoad) : (c.modLoad id f).pad = c.pad := rfl
@[simp] theorem Core.modLoad_slots (c : Core) (id : Nat) (f : GLoad → GLoad) : (c.modLoad id f).slots = c.slots := rfl
@[simp] theorem Core.modLoad_doms (c : Core) (id : Nat) (f : GLoad → GLoad) : (c.modLoad id f).doms = c.doms := rfl
@[simp] theorem Core.modLoad_vec (c : Core) (id : Nat) (f : GLoad → GLoad) : (c.modLoad id f).vec = c.vec := rfl
@[simp] theorem Core.modLoad_mx (c : Core) (id : Nat) (f : GLoad → GLoad) : (c.modLoad id f).mx = c.mx := rfl
@[simp] theorem Core.modLoad_xe (c : Core) (id : Nat) (f : GLoad → GLoad) : (c.modLoad id f).xe = c.xe := rfl
@[simp] theorem Core.modLoad_hv (c : Core) (id : Nat) (f : GLoad → GLoad) : (c.modLoad id f).hv = c.hv := rfl
@[simp] theorem Core.modLoad_flight (c : Core) (id : Nat) (f : GLoad → GLoad) : (c.modLoad id f).flight = c.flight := rfl
@[simp] theorem Core.modLoad_port (c : Core) (id : Nat) (f : GLoad → GLoad) : (c.modLoad id f).port = c.port := rfl
@[simp] theorem Core.modLoad_preempt (c : Core) (id : Nat) (f : GLoad → GLoad) : (c.modLoad id f).preempt = c.preempt := rfl

/-! ### The hub and the module -/

@[simp] theorem Mach.modFn_now (m : Mach) (f : Nat) (g : Fn → Fn) : (m.modFn f g).now = m.now := rfl
@[simp] theorem Mach.modFn_phase (m : Mach) (f : Nat) (g : Fn → Fn) : (m.modFn f g).phase = m.phase := rfl
@[simp] theorem Mach.modFn_cur (m : Mach) (f : Nat) (g : Fn → Fn) : (m.modFn f g).cur = m.cur := rfl
@[simp] theorem Mach.modFn_curQ (m : Mach) (f : Nat) (g : Fn → Fn) : (m.modFn f g).curQ = m.curQ := rfl
@[simp] theorem Mach.modFn_curP (m : Mach) (f : Nat) (g : Fn → Fn) : (m.modFn f g).curP = m.curP := rfl
@[simp] theorem Mach.modFn_active (m : Mach) (f : Nat) (g : Fn → Fn) : (m.modFn f g).active = m.active := rfl
@[simp] theorem Mach.modFn_inbox (m : Mach) (f : Nat) (g : Fn → Fn) : (m.modFn f g).inbox = m.inbox := rfl
@[simp] theorem Mach.modFn_arrivals (m : Mach) (f : Nat) (g : Fn → Fn) : (m.modFn f g).arrivals = m.arrivals := rfl
@[simp] theorem Mach.modFn_free (m : Mach) (f : Nat) (g : Fn → Fn) : (m.modFn f g).free = m.free := rfl
@[simp] theorem Mach.modFn_cores (m : Mach) (f : Nat) (g : Fn → Fn) : (m.modFn f g).cores = m.cores := rfl
@[simp] theorem Mach.modFn_quads (m : Mach) (f : Nat) (g : Fn → Fn) : (m.modFn f g).quads = m.quads := rfl
@[simp] theorem Mach.modFn_dies (m : Mach) (f : Nat) (g : Fn → Fn) : (m.modFn f g).dies = m.dies := rfl
@[simp] theorem Mach.modFn_hbm (m : Mach) (f : Nat) (g : Fn → Fn) : (m.modFn f g).hbm = m.hbm := rfl
@[simp] theorem Mach.modFn_dev (m : Mach) (f : Nat) (g : Fn → Fn) : (m.modFn f g).dev = m.dev := rfl
@[simp] theorem Mach.modFn_sys (m : Mach) (f : Nat) (g : Fn → Fn) : (m.modFn f g).sys = m.sys := rfl
@[simp] theorem Mach.modFn_host (m : Mach) (f : Nat) (g : Fn → Fn) : (m.modFn f g).host = m.host := rfl
@[simp] theorem Mach.modFn_peers (m : Mach) (f : Nat) (g : Fn → Fn) : (m.modFn f g).peers = m.peers := rfl
@[simp] theorem Mach.modFn_pubs (m : Mach) (f : Nat) (g : Fn → Fn) : (m.modFn f g).pubs = m.pubs := rfl
@[simp] theorem Mach.modFn_bars (m : Mach) (f : Nat) (g : Fn → Fn) : (m.modFn f g).bars = m.bars := rfl
@[simp] theorem Mach.modFn_module (m : Mach) (f : Nat) (g : Fn → Fn) : (m.modFn f g).module = m.module := rfl

@[simp] theorem Mach.modQueue_now (m : Mach) (f q : Nat) (g : Queue → Queue) : (m.modQueue f q g).now = m.now := rfl
@[simp] theorem Mach.modQueue_phase (m : Mach) (f q : Nat) (g : Queue → Queue) : (m.modQueue f q g).phase = m.phase := rfl
@[simp] theorem Mach.modQueue_cur (m : Mach) (f q : Nat) (g : Queue → Queue) : (m.modQueue f q g).cur = m.cur := rfl
@[simp] theorem Mach.modQueue_curQ (m : Mach) (f q : Nat) (g : Queue → Queue) : (m.modQueue f q g).curQ = m.curQ := rfl
@[simp] theorem Mach.modQueue_curP (m : Mach) (f q : Nat) (g : Queue → Queue) : (m.modQueue f q g).curP = m.curP := rfl
@[simp] theorem Mach.modQueue_active (m : Mach) (f q : Nat) (g : Queue → Queue) : (m.modQueue f q g).active = m.active := rfl
@[simp] theorem Mach.modQueue_inbox (m : Mach) (f q : Nat) (g : Queue → Queue) : (m.modQueue f q g).inbox = m.inbox := rfl
@[simp] theorem Mach.modQueue_arrivals (m : Mach) (f q : Nat) (g : Queue → Queue) : (m.modQueue f q g).arrivals = m.arrivals := rfl
@[simp] theorem Mach.modQueue_free (m : Mach) (f q : Nat) (g : Queue → Queue) : (m.modQueue f q g).free = m.free := rfl
@[simp] theorem Mach.modQueue_cores (m : Mach) (f q : Nat) (g : Queue → Queue) : (m.modQueue f q g).cores = m.cores := rfl
@[simp] theorem Mach.modQueue_quads (m : Mach) (f q : Nat) (g : Queue → Queue) : (m.modQueue f q g).quads = m.quads := rfl
@[simp] theorem Mach.modQueue_dies (m : Mach) (f q : Nat) (g : Queue → Queue) : (m.modQueue f q g).dies = m.dies := rfl
@[simp] theorem Mach.modQueue_hbm (m : Mach) (f q : Nat) (g : Queue → Queue) : (m.modQueue f q g).hbm = m.hbm := rfl
@[simp] theorem Mach.modQueue_dev (m : Mach) (f q : Nat) (g : Queue → Queue) : (m.modQueue f q g).dev = m.dev := rfl
@[simp] theorem Mach.modQueue_sys (m : Mach) (f q : Nat) (g : Queue → Queue) : (m.modQueue f q g).sys = m.sys := rfl
@[simp] theorem Mach.modQueue_host (m : Mach) (f q : Nat) (g : Queue → Queue) : (m.modQueue f q g).host = m.host := rfl
@[simp] theorem Mach.modQueue_peers (m : Mach) (f q : Nat) (g : Queue → Queue) : (m.modQueue f q g).peers = m.peers := rfl
@[simp] theorem Mach.modQueue_pubs (m : Mach) (f q : Nat) (g : Queue → Queue) : (m.modQueue f q g).pubs = m.pubs := rfl
@[simp] theorem Mach.modQueue_bars (m : Mach) (f q : Nat) (g : Queue → Queue) : (m.modQueue f q g).bars = m.bars := rfl
@[simp] theorem Mach.modQueue_module (m : Mach) (f q : Nat) (g : Queue → Queue) : (m.modQueue f q g).module = m.module := rfl

@[simp] theorem Mach.modTask_now (m : Mach) (seq : Nat) (g : Task → Task) : (m.modTask seq g).now = m.now := rfl
@[simp] theorem Mach.modTask_phase (m : Mach) (seq : Nat) (g : Task → Task) : (m.modTask seq g).phase = m.phase := rfl
@[simp] theorem Mach.modTask_cur (m : Mach) (seq : Nat) (g : Task → Task) : (m.modTask seq g).cur = m.cur := rfl
@[simp] theorem Mach.modTask_curQ (m : Mach) (seq : Nat) (g : Task → Task) : (m.modTask seq g).curQ = m.curQ := rfl
@[simp] theorem Mach.modTask_curP (m : Mach) (seq : Nat) (g : Task → Task) : (m.modTask seq g).curP = m.curP := rfl
@[simp] theorem Mach.modTask_active (m : Mach) (seq : Nat) (g : Task → Task) : (m.modTask seq g).active = m.active := rfl
@[simp] theorem Mach.modTask_inbox (m : Mach) (seq : Nat) (g : Task → Task) : (m.modTask seq g).inbox = m.inbox := rfl
@[simp] theorem Mach.modTask_arrivals (m : Mach) (seq : Nat) (g : Task → Task) : (m.modTask seq g).arrivals = m.arrivals := rfl
@[simp] theorem Mach.modTask_free (m : Mach) (seq : Nat) (g : Task → Task) : (m.modTask seq g).free = m.free := rfl
@[simp] theorem Mach.modTask_cores (m : Mach) (seq : Nat) (g : Task → Task) : (m.modTask seq g).cores = m.cores := rfl
@[simp] theorem Mach.modTask_quads (m : Mach) (seq : Nat) (g : Task → Task) : (m.modTask seq g).quads = m.quads := rfl
@[simp] theorem Mach.modTask_dies (m : Mach) (seq : Nat) (g : Task → Task) : (m.modTask seq g).dies = m.dies := rfl
@[simp] theorem Mach.modTask_hbm (m : Mach) (seq : Nat) (g : Task → Task) : (m.modTask seq g).hbm = m.hbm := rfl
@[simp] theorem Mach.modTask_dev (m : Mach) (seq : Nat) (g : Task → Task) : (m.modTask seq g).dev = m.dev := rfl
@[simp] theorem Mach.modTask_sys (m : Mach) (seq : Nat) (g : Task → Task) : (m.modTask seq g).sys = m.sys := rfl
@[simp] theorem Mach.modTask_host (m : Mach) (seq : Nat) (g : Task → Task) : (m.modTask seq g).host = m.host := rfl
@[simp] theorem Mach.modTask_peers (m : Mach) (seq : Nat) (g : Task → Task) : (m.modTask seq g).peers = m.peers := rfl
@[simp] theorem Mach.modTask_pubs (m : Mach) (seq : Nat) (g : Task → Task) : (m.modTask seq g).pubs = m.pubs := rfl
@[simp] theorem Mach.modTask_bars (m : Mach) (seq : Nat) (g : Task → Task) : (m.modTask seq g).bars = m.bars := rfl
@[simp] theorem Mach.modTask_module (m : Mach) (seq : Nat) (g : Task → Task) : (m.modTask seq g).module = m.module := rfl

@[simp] theorem Mach.modMgmt_now (m : Mach) (f : Mgmt → Mgmt) : (m.modMgmt f).now = m.now := rfl
@[simp] theorem Mach.modMgmt_phase (m : Mach) (f : Mgmt → Mgmt) : (m.modMgmt f).phase = m.phase := rfl
@[simp] theorem Mach.modMgmt_cur (m : Mach) (f : Mgmt → Mgmt) : (m.modMgmt f).cur = m.cur := rfl
@[simp] theorem Mach.modMgmt_curQ (m : Mach) (f : Mgmt → Mgmt) : (m.modMgmt f).curQ = m.curQ := rfl
@[simp] theorem Mach.modMgmt_curP (m : Mach) (f : Mgmt → Mgmt) : (m.modMgmt f).curP = m.curP := rfl
@[simp] theorem Mach.modMgmt_active (m : Mach) (f : Mgmt → Mgmt) : (m.modMgmt f).active = m.active := rfl
@[simp] theorem Mach.modMgmt_inbox (m : Mach) (f : Mgmt → Mgmt) : (m.modMgmt f).inbox = m.inbox := rfl
@[simp] theorem Mach.modMgmt_arrivals (m : Mach) (f : Mgmt → Mgmt) : (m.modMgmt f).arrivals = m.arrivals := rfl
@[simp] theorem Mach.modMgmt_free (m : Mach) (f : Mgmt → Mgmt) : (m.modMgmt f).free = m.free := rfl
@[simp] theorem Mach.modMgmt_cores (m : Mach) (f : Mgmt → Mgmt) : (m.modMgmt f).cores = m.cores := rfl
@[simp] theorem Mach.modMgmt_quads (m : Mach) (f : Mgmt → Mgmt) : (m.modMgmt f).quads = m.quads := rfl
@[simp] theorem Mach.modMgmt_dies (m : Mach) (f : Mgmt → Mgmt) : (m.modMgmt f).dies = m.dies := rfl
@[simp] theorem Mach.modMgmt_hbm (m : Mach) (f : Mgmt → Mgmt) : (m.modMgmt f).hbm = m.hbm := rfl
@[simp] theorem Mach.modMgmt_dev (m : Mach) (f : Mgmt → Mgmt) : (m.modMgmt f).dev = m.dev := rfl
@[simp] theorem Mach.modMgmt_sys (m : Mach) (f : Mgmt → Mgmt) : (m.modMgmt f).sys = m.sys := rfl
@[simp] theorem Mach.modMgmt_host (m : Mach) (f : Mgmt → Mgmt) : (m.modMgmt f).host = m.host := rfl
@[simp] theorem Mach.modMgmt_peers (m : Mach) (f : Mgmt → Mgmt) : (m.modMgmt f).peers = m.peers := rfl
@[simp] theorem Mach.modMgmt_pubs (m : Mach) (f : Mgmt → Mgmt) : (m.modMgmt f).pubs = m.pubs := rfl
@[simp] theorem Mach.modMgmt_bars (m : Mach) (f : Mgmt → Mgmt) : (m.modMgmt f).bars = m.bars := rfl
@[simp] theorem Mach.modMgmt_module (m : Mach) (f : Mgmt → Mgmt) : (m.modMgmt f).module = m.module := rfl

@[simp] theorem Mach.modModule_now (m : Mach) (f : Module → Module) : (m.modModule f).now = m.now := rfl
@[simp] theorem Mach.modModule_phase (m : Mach) (f : Module → Module) : (m.modModule f).phase = m.phase := rfl
@[simp] theorem Mach.modModule_cur (m : Mach) (f : Module → Module) : (m.modModule f).cur = m.cur := rfl
@[simp] theorem Mach.modModule_curQ (m : Mach) (f : Module → Module) : (m.modModule f).curQ = m.curQ := rfl
@[simp] theorem Mach.modModule_curP (m : Mach) (f : Module → Module) : (m.modModule f).curP = m.curP := rfl
@[simp] theorem Mach.modModule_active (m : Mach) (f : Module → Module) : (m.modModule f).active = m.active := rfl
@[simp] theorem Mach.modModule_inbox (m : Mach) (f : Module → Module) : (m.modModule f).inbox = m.inbox := rfl
@[simp] theorem Mach.modModule_arrivals (m : Mach) (f : Module → Module) : (m.modModule f).arrivals = m.arrivals := rfl
@[simp] theorem Mach.modModule_free (m : Mach) (f : Module → Module) : (m.modModule f).free = m.free := rfl
@[simp] theorem Mach.modModule_cores (m : Mach) (f : Module → Module) : (m.modModule f).cores = m.cores := rfl
@[simp] theorem Mach.modModule_quads (m : Mach) (f : Module → Module) : (m.modModule f).quads = m.quads := rfl
@[simp] theorem Mach.modModule_dies (m : Mach) (f : Module → Module) : (m.modModule f).dies = m.dies := rfl
@[simp] theorem Mach.modModule_hbm (m : Mach) (f : Module → Module) : (m.modModule f).hbm = m.hbm := rfl
@[simp] theorem Mach.modModule_dev (m : Mach) (f : Module → Module) : (m.modModule f).dev = m.dev := rfl
@[simp] theorem Mach.modModule_sys (m : Mach) (f : Module → Module) : (m.modModule f).sys = m.sys := rfl
@[simp] theorem Mach.modModule_host (m : Mach) (f : Module → Module) : (m.modModule f).host = m.host := rfl
@[simp] theorem Mach.modModule_peers (m : Mach) (f : Module → Module) : (m.modModule f).peers = m.peers := rfl
@[simp] theorem Mach.modModule_pubs (m : Mach) (f : Module → Module) : (m.modModule f).pubs = m.pubs := rfl
@[simp] theorem Mach.modModule_bars (m : Mach) (f : Module → Module) : (m.modModule f).bars = m.bars := rfl
@[simp] theorem Mach.modModule_hub (m : Mach) (f : Module → Module) : (m.modModule f).hub = m.hub := rfl

/-- The function set is the one read back, and every other is left. -/
theorem Mach.fn_modFn (m : Mach) {f : Nat} (g : Fn → Fn) (h : f < m.hub.fns.length) : (m.modFn f g).fn f = g (m.fn f) := by
  simp [Mach.fn, Mach.modFn, nth, h]

@[simp] theorem Mach.fn_modFn_other (m : Mach) {f k : Nat} (g : Fn → Fn) (h : k ≠ f) : (m.modFn f g).fn k = m.fn k := by
  simp [Mach.fn, Mach.modFn, nth, Ne.symm h]

@[simp] theorem Mach.mgmt_modMgmt (m : Mach) (f : Mgmt → Mgmt) : (m.modMgmt f).mgmt = f m.mgmt := rfl
@[simp] theorem Mach.module_modModule (m : Mach) (f : Module → Module) : (m.modModule f).module = f m.module := rfl

/-! ### Folds -/

/-- A fold keeps what each of its steps keeps. -/
theorem foldl_keep {α β γ : Type} (g : β → γ) {f : β → α → β} (h : ∀ b a, g (f b a) = g b) :
    ∀ (xs : List α) (b : β), g (xs.foldl f b) = g b
  | [], _ => rfl
  | x :: xs, b => (foldl_keep g h xs (f b x)).trans (h b x)

/-- A fold keeps an invariant that each of its steps keeps. -/
theorem foldl_inv {α β : Type} {P : β → Prop} {f : β → α → β} (h : ∀ b a, P b → P (f b a)) :
    ∀ (xs : List α) {b : β}, P b → P (xs.foldl f b)
  | [], _, hb => hb
  | x :: xs, _, hb => foldl_inv h xs (h _ x hb)

/-- Popping queues changes the scalar side of a core only. -/
theorem Core.popAll_keep {γ : Type} (g : Core → γ) (h : ∀ (c : Core) (now q : Nat), g (c.pop now q) = g c) (c : Core) (now : Nat)
    (ps : List Nat) : g (c.popAll now ps) = g c := by
  unfold Core.popAll
  exact foldl_keep g (fun b a => h b now a) ps c

@[simp] theorem Core.popAll_nil (c : Core) (now : Nat) : c.popAll now [] = c := rfl

/-- A stream's micro-PC moves nothing but the sequencer. -/
theorem Core.advance_keep {γ : Type} (g : Core → γ) (h : ∀ (c : Core) (st : Stream) (f : StreamSt → StreamSt), g (c.modStream st f) = g c)
    (c : Core) (st : Stream) (now busy : Nat) : g (c.advance st now busy) = g c := by
  unfold Core.advance
  split
  · rfl
  · dsimp only
    split
    · exact h ..
    · split
      · split
        · exact h ..
        · rfl
      · exact h ..

/-! ### Faults -/

@[simp] theorem firstTrap_nil : firstTrap [] = none := rfl
@[simp] theorem checked_nil (go : LaneOut) : checked [] go = go := rfl

/-- A lane that meets a fault traps. -/
theorem checked_cons (t : Trap) (ts : List Trap) (go : LaneOut) : ∃ u, checked (t :: ts) go = .trap u := by
  unfold checked firstTrap
  cases firstTrap ts with
  | none => exact ⟨_, rfl⟩
  | some u => exact ⟨_, rfl⟩

end Sys2Proof.Machine
end

