-- ==== Sys2Proof/Laws/Lanes.lean ====
section
/-! SUPPORT. What a lane of each stream can do: it issues with its effect, is held, or traps. -/
namespace Sys2Proof.Machine

/-- A lane whose body is done. -/
theorem runLane_done {st : Stream} {body : Mach → LaneOut} {s : State} {m : Mach} {busy : Nat} (h : body s.m = .done m busy) :
    runLane st body s = .next (s.issued st busy m) := by
  simp [runLane, h, State.issued]

/-- A lane always answers a next state. -/
theorem runLane_next (st : Stream) (body : Mach → LaneOut) (s : State) : ∃ t, runLane st body s = .next t := by
  unfold runLane
  dsimp only
  split <;> exact ⟨_, rfl⟩

/-- A lane that is held changes its core's retry cycle only. -/
theorem runLane_hold {st : Stream} {body : Mach → LaneOut} {s : State} {m : Mach} (h : body s.m = .hold m) :
    runLane st body s = .next { m := m.modMe fun c => (c.backToLoad m.now).modStream st fun x => { x with next := m.now + 1 },
                                base := some (s.m.cur, s.m.now, s.restorePoint s.m.cur), undo := s.undo } := by
  simp [runLane, h]

/-- A lane that traps stops the streams of its core. -/
theorem runLane_trap {st : Stream} {body : Mach → LaneOut} {s : State} {t : Trap} (h : body s.m = .trap t) :
    runLane st body s = .next (State.stopCore
      { m := s.m.modMe fun c => c.backToLoad s.m.now, base := some (s.m.cur, s.m.now, s.restorePoint s.m.cur), undo := s.undo }
      s.m.cur Mach.boundary (Stop.withTrap st.idx t)) := by
  simp [runLane, h]

/-- An S lane that is ready issues with the effect of its act. -/
theorem runS_issues {l : Lane} {inc : Core → Option (Nat × W64)} {use : Mach → SUse} {act : Mach → LaneOut} {s : State} {m : Mach} {n : Nat}
    (h : SReady s.m l (use s.m)) (ha : act s.m = .done m n) :
    runS l inc use act s = .next (s.issued .s n (m.modMe fun c => c.popAll s.m.now (use s.m).pops)) := by
  obtain ⟨h1, h2, h3, h4, h5, h6, h7⟩ := h
  unfold runS
  apply runLane_done
  simp [h1, h2, h3, h4, h5, h6, h7, ha]

/-- An S lane whose use meets no hold and no fault, and whose act holds it. -/
theorem runS_holds {l : Lane} {inc : Core → Option (Nat × W64)} {use : Mach → SUse} {act : Mach → LaneOut} {s : State} {m : Mach}
    (h : SReady s.m l (use s.m)) (ha : act s.m = .hold m) :
    runS l inc use act s = .next { m := m.modMe fun c => (c.backToLoad m.now).modStream .s fun x => { x with next := m.now + 1 },
                                   base := some (s.m.cur, s.m.now, s.restorePoint s.m.cur), undo := s.undo } := by
  obtain ⟨h1, h2, h3, h4, h5, h6, h7⟩ := h
  unfold runS
  apply runLane_hold
  simp [h1, h2, h3, h4, h5, h6, h7, ha]

/-- An S lane whose predicate is false has no effect but its base register's update. -/
theorem runS_off {l : Lane} {inc : Core → Option (Nat × W64)} {use : Mach → SUse} {act : Mach → LaneOut} {s : State}
    (hb : s.m.me.sBlocked s.m.now = false) (hp : s.m.me.preg l.p.toNat = false) (hi : inc s.m.me = none) :
    runS l inc use act s = .next (s.issued .s 0 s.m) := by
  unfold runS
  apply runLane_done
  simp [hb, hp, hi]

/-- An S lane with a false predicate and a base register that is not pending updates the base register. -/
theorem runS_offBase {l : Lane} {inc : Core → Option (Nat × W64)} {use : Mach → SUse} {act : Mach → LaneOut} {s : State} {r : Nat} {v : W64}
    (hb : s.m.me.sBlocked s.m.now = false) (hp : s.m.me.preg l.p.toNat = false) (hi : inc s.m.me = some (r, v))
    (hr : s.m.me.pending s.m.now r = false) :
    runS l inc use act s = .next (s.issued .s 0 (s.m.writeBase (some (r, v)))) := by
  unfold runS
  apply runLane_done
  simp [hb, hp, hi, hr]

/-- A V lane that is ready issues with the effect of its act. -/
theorem runV_issues {l : Lane} {lcs : BitVec 1024 → List Nat} {use : Mach → BitVec 1024 → VUse} {act : Mach → BitVec 1024 → LaneOut}
    {s : State} {m : Mach} {n : Nat} (h : VReady s.m l (lcs (s.m.me.mreg l.p.toNat)) (use s.m (s.m.me.mreg l.p.toNat)))
    (ha : act s.m (s.m.me.mreg l.p.toNat) = .done m n) :
    runV l lcs use act s = .next (s.issued .v n m) := by
  obtain ⟨h1, h2, h3, h4, h5, h6, h7⟩ := h
  unfold runV
  apply runLane_done
  dsimp only
  rw [if_neg h1]
  simp only [h2, h3, h4, h5, h6, h7, ha, List.nil_append, checked_nil, Bool.or_self, Bool.false_eq_true, if_false]

/-- A V lane with an all-false mask has no effect (R227). -/
theorem runV_off {l : Lane} {lcs : BitVec 1024 → List Nat} {use : Mach → BitVec 1024 → VUse} {act : Mach → BitVec 1024 → LaneOut}
    {s : State} (h0 : s.m.me.mreg l.p.toNat = 0) (hs : s.m.staleTraps [] [.m l.p.toNat] = []) :
    runV l lcs use act s = .next (s.issued .v 0 s.m) := by
  unfold runV
  apply runLane_done
  dsimp only
  rw [if_pos h0, hs, checked_nil]

/-- An M lane that is ready issues with the effect of its act. -/
theorem runM_issues {use : Mach → MUse} {act : Mach → LaneOut} {s : State} {m : Mach} {n : Nat} (h : MReady s.m (use s.m))
    (ha : act s.m = .done m n) : runM use act s = .next (s.issued .m n m) := by
  obtain ⟨h2, h3, h5, h6, h7⟩ := h
  unfold runM
  apply runLane_done
  simp [h2, h3, h5, h6, h7, ha]

/-- An X lane that is ready issues with the effect of its act. -/
theorem runX_issues {use : Mach → XUse} {act : Mach → LaneOut} {s : State} {m : Mach} {n : Nat} (h : XReady s.m (use s.m))
    (ha : act s.m = .done m n) : runX use act s = .next (s.issued .x n m) := by
  obtain ⟨h2, h3, h5, h6, h7⟩ := h
  unfold runX
  apply runLane_done
  simp [h2, h3, h5, h6, h7, ha]

/-- An H lane that is ready issues with the effect of its act. -/
theorem runH_issues {l : Lane} {use : Mach → BitVec 1024 → HUse} {act : Mach → BitVec 1024 → LaneOut} {s : State} {m : Mach} {n : Nat}
    (h : HReady s.m l (use s.m (s.m.me.mreg l.p.toNat))) (ha : act s.m (s.m.me.mreg l.p.toNat) = .done m n) :
    runH l use act s = .next (s.issued .h n m) := by
  obtain ⟨h1, h2, h3, h4, h5, h6, h7⟩ := h
  unfold runH
  apply runLane_done
  dsimp only
  rw [if_neg h1]
  simp only [h2, h3, h4, h5, h6, h7, ha, List.nil_append, checked_nil, Bool.or_self, Bool.false_eq_true, if_false]

/-- An H lane with an all-false mask has no effect (R317). -/
theorem runH_off {l : Lane} {use : Mach → BitVec 1024 → HUse} {act : Mach → BitVec 1024 → LaneOut} {s : State}
    (h0 : s.m.me.mreg l.p.toNat = 0) (hs : s.m.staleTraps [] [.m l.p.toNat] = []) :
    runH l use act s = .next (s.issued .h 0 s.m) := by
  unfold runH
  apply runLane_done
  dsimp only
  rw [if_pos h0, hs, checked_nil]

end Sys2Proof.Machine
end

