-- ==== Sys2Proof/Laws/Memory.lean ====
section
/-! SUPPORT. The laws of byte memories: every operation keeps the canonical form, a read after a write, and equality by reads. -/
namespace Sys2Proof.Machine

/-- A memory is canonical. -/
theorem Memory.wf_nil : Memory.Wf [] := by simp [Memory.Wf]

theorem Memory.wf_filter {m : Memory} (h : m.Wf) (f : Host.Cell → Bool) : Memory.Wf (m.filter f) :=
  ⟨h.1.filter f, fun c hc => h.2 c (List.mem_filter.mp hc).1⟩

theorem Memory.wf_cons {c : Host.Cell} {r : Memory} (h : Memory.Wf (c :: r)) : Memory.Wf r :=
  ⟨(List.pairwise_cons.mp h.1).2, fun x hx => h.2 x (List.mem_cons_of_mem _ hx)⟩

/-- The cells of a run lie in its range. -/
theorem Memory.mem_cells {bs : List Byte} {a : Nat} {c : Host.Cell} (h : c ∈ Memory.cells a bs) :
    a ≤ c.1 ∧ c.1 < a + bs.length ∧ c.2 ≠ 0 := by
  induction bs generalizing a with
  | nil => simp [Memory.cells] at h
  | cons b r ih =>
    simp only [Memory.cells] at h
    split at h
    · have := ih h
      simp only [List.length_cons]
      exact ⟨by omega, by omega, this.2.2⟩
    · rcases List.mem_cons.mp h with rfl | h
      · simp only [List.length_cons]
        exact ⟨Nat.le_refl _, by omega, by assumption⟩
      · have := ih h
        simp only [List.length_cons]
        exact ⟨by omega, by omega, this.2.2⟩

theorem Memory.wf_cells (bs : List Byte) (a : Nat) : Memory.Wf (Memory.cells a bs) := by
  refine ⟨?_, fun c hc => (Memory.mem_cells hc).2.2⟩
  induction bs generalizing a with
  | nil => simp [Memory.cells]
  | cons b r ih =>
    simp only [Memory.cells]
    split
    · exact ih _
    · exact List.pairwise_cons.mpr ⟨fun c hc => by have := (Memory.mem_cells hc).1; simpa using this, ih _⟩

/-- A write of a run keeps the canonical form. -/
theorem Memory.wf_writeBlock {m : Memory} (h : m.Wf) (a : Nat) (bs : List Byte) : Memory.Wf (m.writeBlock a bs) := by
  have hl := Memory.wf_filter h fun c => decide (c.1 < a)
  have hr := Memory.wf_filter h fun c => decide (a + bs.length ≤ c.1)
  have hc := Memory.wf_cells bs a
  refine ⟨?_, ?_⟩
  · simp only [Memory.writeBlock, List.pairwise_append, List.mem_append]
    refine ⟨⟨hl.1, hc.1, ?_⟩, hr.1, ?_⟩
    · intro x hx y hy
      have h1 := Memory.mem_cells hy
      have h2 : x.1 < a := by simpa using (List.mem_filter.mp hx).2
      omega
    · intro x hx y hy
      have h2 : a + bs.length ≤ y.1 := by simpa using (List.mem_filter.mp hy).2
      rcases hx with hx | hx
      · have h3 : x.1 < a := by simpa using (List.mem_filter.mp hx).2
        omega
      · have h1 := Memory.mem_cells hx
        omega
  · intro c hc'
    simp only [Memory.writeBlock, List.mem_append] at hc'
    rcases hc' with (hx | hx) | hx
    · exact hl.2 c hx
    · exact hc.2 c hx
    · exact hr.2 c hx

theorem Memory.wf_write {m : Memory} (h : m.Wf) (a : Nat) (b : Byte) : Memory.Wf (m.write a b) := Memory.wf_writeBlock h a [b]

/-- Writing bytes by address keeps the canonical form. -/
theorem Memory.wf_overlay {m : Memory} (h : m.Wf) (ws : List (Nat × Byte)) : Memory.Wf (m.overlay ws) := by
  unfold Memory.overlay
  induction byteRuns ws generalizing m with
  | nil => exact h
  | cons r rs ih => exact ih (Memory.wf_writeBlock h _ _)

/-- Folding memory writes keeps the canonical form. -/
theorem Memory.wf_foldl {α : Type} {f : Memory → α → Memory} (hf : ∀ m x, Memory.Wf m → Memory.Wf (f m x)) :
    ∀ (xs : List α) {m : Memory}, m.Wf → Memory.Wf (xs.foldl f m)
  | [], _, h => h
  | x :: xs, _, h => Memory.wf_foldl hf xs (hf _ x h)

/-! ### Reads -/

theorem Memory.read_of_lt {m : Memory} {a : Nat} (h : ∀ c ∈ m, a < c.1) : m.read a = 0 := by
  induction m with
  | nil => rfl
  | cons c r ih =>
    obtain ⟨k, b⟩ := c
    have hk : a < k := h (k, b) (List.mem_cons_self ..)
    simp only [Memory.read, if_neg (by omega : ¬k = a)]
    exact ih fun c hc => h c (List.mem_cons_of_mem _ hc)

/-- An address no cell has reads as unlisted. -/
theorem Memory.read_of_not {m : Memory} {a : Nat} (h : ∀ c ∈ m, c.1 ≠ a) : m.read a = 0 := by
  induction m with
  | nil => rfl
  | cons c r ih =>
    obtain ⟨k, b⟩ := c
    simp only [Memory.read, if_neg (h (k, b) (List.mem_cons_self ..))]
    exact ih fun c hc => h c (List.mem_cons_of_mem _ hc)

theorem Memory.read_append {m n : Memory} {a : Nat} :
    Memory.read (m ++ n) a = if (∃ c ∈ m, c.1 = a) then m.read a else n.read a := by
  induction m with
  | nil => simp
  | cons c r ih =>
    obtain ⟨k, b⟩ := c
    simp only [List.cons_append, Memory.read]
    by_cases hk : k = a
    · simp [hk]
    · simp [hk, ih]

theorem Memory.read_filter {m : Memory} {a : Nat} (f : Nat → Bool) :
    Memory.read (m.filter fun c => f c.1) a = if f a then m.read a else 0 := by
  induction m with
  | nil => simp [Memory.read, Memory.unlisted]
  | cons c r ih =>
    obtain ⟨k, b⟩ := c
    by_cases hf : f k
    · simp only [List.filter_cons, hf, if_true, Memory.read]
      by_cases hk : k = a
      · simp [hk] at hf ⊢; simp [hf]
      · simp [hk, ih]
    · have hf' : f k = false := by simpa using hf
      simp only [List.filter_cons, hf', Memory.read]
      by_cases hk : k = a
      · simp [hk] at hf'; simp [ih, hf']
      · simp [hk, ih]

theorem Memory.read_cells {bs : List Byte} {a x : Nat} :
    Memory.read (Memory.cells a bs) x = if a ≤ x then (bs[x - a]?).getD 0 else 0 := by
  induction bs generalizing a with
  | nil => simp [Memory.cells, Memory.read, Memory.unlisted]
  | cons b r ih =>
    simp only [Memory.cells]
    by_cases hx : a = x
    · subst hx
      split
      · rename_i hb
        rw [ih]
        simp [hb, Memory.unlisted]
      · simp [Memory.read]
    · have key : (if a + 1 ≤ x then (r[x - (a + 1)]?).getD 0 else 0) = if a ≤ x then ((b :: r)[x - a]?).getD 0 else 0 := by
        by_cases hle : a + 1 ≤ x
        · have : x - a = x - (a + 1) + 1 := by omega
          simp [hle, (by omega : a ≤ x), this]
        · rw [if_neg hle, if_neg (by omega)]
      split
      · rw [ih, key]
      · simp only [Memory.read, if_neg hx, ih, key]

/-- A byte read after a run was written: the run's byte inside the run, the old byte outside. -/
theorem Memory.read_writeBlock (m : Memory) (a : Nat) (bs : List Byte) (x : Nat) :
    (m.writeBlock a bs).read x = if a ≤ x ∧ x < a + bs.length then (bs[x - a]?).getD 0 else m.read x := by
  unfold Memory.writeBlock
  by_cases hin : a ≤ x ∧ x < a + bs.length
  · rw [if_pos hin, Memory.read_append]
    have hr : Memory.read (m.filter fun c => decide (a + bs.length ≤ c.1)) x = 0 := by
      rw [Memory.read_filter (fun k => decide (a + bs.length ≤ k))]
      rw [if_neg (by simpa using hin.2)]
    have hl : ¬∃ c ∈ m.filter (fun c => decide (c.1 < a)), c.1 = x := by
      rintro ⟨c, hc, rfl⟩
      have := (List.mem_filter.mp hc).2
      simp at this
      omega
    have hread : Memory.read (m.filter (fun c => decide (c.1 < a)) ++ Memory.cells a bs) x = (bs[x - a]?).getD 0 := by
      rw [Memory.read_append, if_neg hl, Memory.read_cells, if_pos hin.1]
    split
    · exact hread
    · rename_i hno
      rw [hr]
      have : Memory.read (m.filter (fun c => decide (c.1 < a)) ++ Memory.cells a bs) x = 0 :=
        Memory.read_of_not fun c hc he => hno ⟨c, hc, he⟩
      rw [← hread, this]
  · rw [if_neg hin]
    have hcells : ¬∃ c ∈ Memory.cells a bs, c.1 = x := by
      rintro ⟨c, hc, rfl⟩
      have := Memory.mem_cells hc
      omega
    rw [Memory.read_append]
    split
    · rename_i hex
      obtain ⟨c, hc, rfl⟩ := hex
      rcases List.mem_append.mp hc with hc | hc
      · rw [Memory.read_append, if_pos ⟨c, hc, rfl⟩, Memory.read_filter (fun k => decide (k < a))]
        have := (List.mem_filter.mp hc).2
        simp at this
        simp [this]
      · exact absurd ⟨c, hc, rfl⟩ hcells
    · rename_i hno
      rw [Memory.read_filter (fun k => decide (a + bs.length ≤ k))]
      by_cases h2 : a + bs.length ≤ x
      · simp [h2]
      · have hlt : x < a := by omega
        simp only [h2, decide_false]
        symm
        simp only [Bool.false_eq_true, if_false]
        refine Memory.read_of_not fun c hc he => hno ⟨c, ?_, he⟩
        exact List.mem_append_left _ (List.mem_filter.mpr ⟨hc, by simp [he, hlt]⟩)

/-- A byte read after it was written. -/
theorem Memory.read_write_same (m : Memory) (a : Nat) (b : Byte) : (m.write a b).read a = b := by
  simp [Memory.write, Memory.read_writeBlock]

/-- A write of one byte leaves every other byte. -/
theorem Memory.read_write_other (m : Memory) (a : Nat) (b : Byte) {x : Nat} (h : x ≠ a) : (m.write a b).read x = m.read x := by
  rw [Memory.write, Memory.read_writeBlock, if_neg]
  simp
  omega

theorem Memory.run_eq {m : Memory} (h : m.Wf) : ∀ (n a : Nat), (∀ c ∈ m, a ≤ c.1) →
    Memory.run m a n = (List.range n).map fun i => m.read (a + i) := by
  intro n
  induction n generalizing m with
  | zero => intro a _; cases m <;> simp [Memory.run]
  | succ n ih =>
    intro a ha
    rw [List.range_succ_eq_map]
    simp only [List.map_cons, List.map_map, Nat.add_zero]
    cases m with
    | nil =>
      simp only [Memory.run, Memory.read]
      rw [ih Memory.wf_nil 0 (by simp)]
      simp [Memory.read, Function.comp_def]
    | cons c r =>
      obtain ⟨k, b⟩ := c
      have hwr := Memory.wf_cons h
      have hlt : ∀ c ∈ r, k < c.1 := fun c hc => (List.pairwise_cons.mp h.1).1 c hc
      simp only [Memory.run]
      by_cases hk : k = a
      · subst hk
        rw [if_pos rfl, ih hwr (k + 1) (fun c hc => hlt c hc)]
        simp only [Memory.read, if_true, List.cons.injEq, true_and]
        refine List.map_congr_left fun i _ => ?_
        simp only [Function.comp_apply]
        rw [if_neg (by omega)]
        congr 1; omega
      · have hak : a < k := by have := ha (k, b) (List.mem_cons_self ..); simp at this; omega
        rw [if_neg hk, ih h (a + 1) (fun c hc => by
          rcases List.mem_cons.mp hc with rfl | hc
          · simpa using hak
          · have := hlt c hc; omega)]
        have h0 : Memory.read ((k, b) :: r) a = 0 := Memory.read_of_lt fun c hc => by
          rcases List.mem_cons.mp hc with rfl | hc
          · simpa using hak
          · have := hlt c hc; omega
        rw [h0]
        refine congrArg₂ _ rfl (List.map_congr_left fun i _ => ?_)
        simp only [Function.comp_apply]
        congr 1; omega

/-- A block read is the bytes read one by one. -/
theorem Memory.readBlock_eq {m : Memory} (h : m.Wf) (a n : Nat) :
    m.readBlock a n = (List.range n).map fun i => m.read (a + i) := by
  unfold Memory.readBlock
  rw [Memory.run_eq (Memory.wf_filter h _) n a (fun c hc => by simpa using (List.mem_filter.mp hc).2)]
  refine List.map_congr_left fun i _ => ?_
  rw [Memory.read_filter (fun k => decide (a ≤ k))]
  simp

/-- A run read back after it was written. -/
theorem Memory.readBlock_writeBlock {m : Memory} (h : m.Wf) (a : Nat) (bs : List Byte) :
    (m.writeBlock a bs).readBlock a bs.length = bs := by
  rw [Memory.readBlock_eq (Memory.wf_writeBlock h a bs)]
  refine List.ext_getElem (by simp) fun i h1 h2 => ?_
  simp only [List.getElem_map, List.getElem_range]
  rw [Memory.read_writeBlock, if_pos ⟨by omega, by omega⟩]
  simp [h2]

/-- Canonical memories that read alike are equal. -/
theorem Memory.ext_read : ∀ {m n : Memory}, m.Wf → n.Wf → (∀ a, m.read a = n.read a) → m = n
  | [], [], _, _, _ => rfl
  | [], (k, b) :: r, _, hn, h => by
    have := h k
    simp [Memory.read, Memory.unlisted] at this
    exact absurd this.symm (hn.2 (k, b) (List.mem_cons_self ..))
  | (k, b) :: r, [], hm, _, h => by
    have := h k
    simp [Memory.read, Memory.unlisted] at this
    exact absurd this (hm.2 (k, b) (List.mem_cons_self ..))
  | (k, b) :: r, (k', b') :: r', hm, hn, h => by
    have low {k b r} (hm : Memory.Wf ((k, b) :: r)) {a} (ha : a < k) : Memory.read ((k, b) :: r) a = 0 :=
      Memory.read_of_lt fun c hc => by
        rcases List.mem_cons.mp hc with rfl | hc
        · exact ha
        · have := (List.pairwise_cons.mp hm.1).1 c hc; simp at this; omega
    have hb := hm.2 (k, b) (List.mem_cons_self ..)
    have hb' := hn.2 (k', b') (List.mem_cons_self ..)
    have hk : k = k' := by
      rcases Nat.lt_trichotomy k k' with hlt | he | hlt
      · have h1 := h k
        rw [low hn hlt] at h1
        simp [Memory.read] at h1
        exact absurd h1 hb
      · exact he
      · have h1 := h k'
        rw [low hm hlt] at h1
        simp [Memory.read] at h1
        exact absurd h1.symm hb'
    subst hk
    have hbb : b = b' := by simpa [Memory.read] using h k
    subst hbb
    have : r = r' := Memory.ext_read (Memory.wf_cons hm) (Memory.wf_cons hn) fun a => by
      by_cases ha : k = a
      · subst ha
        have e1 : Memory.read r k = 0 := Memory.read_of_lt fun c hc => (List.pairwise_cons.mp hm.1).1 c hc
        have e2 : Memory.read r' k = 0 := Memory.read_of_lt fun c hc => (List.pairwise_cons.mp hn.1).1 c hc
        rw [e1, e2]
      · have := h a
        simpa [Memory.read, ha] using this
    rw [this]

end Sys2Proof.Machine
end

