-- ==== Sys2Proof/Laws/Package.lean ====
section
/-! SUPPORT. What the steps of bring-up and power-off, and flits on their way to a peer, can change. -/
namespace Sys2Proof.Machine

/-- A step of a bring-up or power-off changes the module's registers and, at the verification, the management core's. -/
theorem Mach.powerStep_keep {γ : Type} (g : Mach → γ) (hm : ∀ (m : Mach) (f : Module → Module), g (m.modModule f) = g m)
    (hg : ∀ (m : Mach) (f : Mgmt → Mgmt), g (m.modMgmt f) = g m) (m : Mach) (st : PowerStep) : g (m.powerStep st) = g m := by
  cases st with
  | bus _ | rail _ _ | release | ready => simp only [Mach.powerStep, hm]
  | hbm | fail _ | firmware => simp only [Mach.powerStep]; split <;> simp only [hg, hm]
  | ports =>
    simp only [Mach.powerStep]
    split
    · rfl
    · exact (foldl_keep g (fun _ _ => hm ..) _ _).trans (hm ..)

/-- The steps that are due change no more. -/
theorem Mach.powerSteps_keep {γ : Type} (g : Mach → γ) (hm : ∀ (m : Mach) (f : Module → Module), g (m.modModule f) = g m)
    (hg : ∀ (m : Mach) (f : Mgmt → Mgmt), g (m.modMgmt f) = g m) (m : Mach) (now : Nat) : g (m.powerSteps now) = g m := by
  unfold Mach.powerSteps
  exact (foldl_keep g (fun b (a : Nat × PowerStep) => Mach.powerStep_keep g hm hg b a.2) _ _).trans (hm ..)

/-- After them the module is as they left it, or, for a rail too long out of tolerance, off. -/
theorem Mach.powerDue_cases (m : Mach) (now : Nat) : m.powerDue now = m.powerSteps now ∨ m.powerDue now = (m.powerSteps now).off .rail := by
  unfold Mach.powerDue
  dsimp only
  split
  · exact .inr rfl
  · exact .inl rfl

/-- Sending flits changes the module's links and the counter of open choices. -/
theorem Mach.sendFlits_keep {γ : Type} (g : Mach → γ) (h : ∀ (m : Mach) (n : Nat) (x : Module), g { m with free := n, module := x } = g m)
    (m : Mach) (p : PeerEntry) (type : BitVec 16) (xs : List FlitLoad) : g (m.sendFlits p type xs) = g m := by
  unfold Mach.sendFlits
  dsimp only
  split
  · rfl
  · exact h ..

/-- A flit put on a link goes last, under the number after the last one's. -/
@[simp] theorem Link.put_last (l : Link) (p : PeerEntry) (type : BitVec 16) (x : FlitLoad) : (l.put p type x).last = l.last + 1 := rfl
@[simp] theorem Link.put_out (l : Link) (p : PeerEntry) (type : BitVec 16) (x : FlitLoad) :
    (l.put p type x).out = l.out ++ [⟨l.last + 1, type, p, x⟩] := rfl
@[simp] theorem Link.put_up (l : Link) (p : PeerEntry) (type : BitVec 16) (x : FlitLoad) : (l.put p type x).up = l.up := rfl

/-- An ACK received leaves no flit unacknowledged but such as were there. -/
theorem Link.acknowledge_out (l : Link) (ack : BitVec 16) : ∀ f ∈ (l.acknowledge ack).out, f ∈ l.out := by
  intro f hf
  unfold Link.acknowledge at hf
  dsimp only at hf
  split at hf
  · exact (List.mem_filter.mp hf).1
  · exact hf

end Sys2Proof.Machine
end

