-- ==== Sys2Proof/Tests/Slice0.lean ====
section
/-! SUPPORT. Tests: decoding of words written out from the spec's encodings, ill-formed terms that the checks refuse, results worked out from the
spec's rules, and for each statement a machine and operands that meet its hypotheses. -/
set_option Elab.async false
namespace Sys2Proof.Tests
open Sys2Proof Sys2Proof.Machine

/-! ### Small machines -/

/-- A bound core with its domains ON, its s registers 1 to 8 holding 0x1000 to 0x8000, one entry in each queue register, and a semaphore count. -/
def core : Core :=
  { Core.reset with
    bound := some { Bind.plain 0 with wid := 5, foot := [⟨0, 0x100000, true, true⟩], quads := 0x3F, s1root := 0x1000, s2root := 0x3000 }
    doms := List.replicate 55 ⟨.on, none, 0⟩
    scal := { Scal.reset with
      s := (List.range 32).map fun n => BitVec.ofNat 64 (0x1000 * n)
      q := List.replicate 8 [7], sem := List.replicate 32 3, pn := List.replicate 16 3 }
    glb := { Core.reset.glb with tlb := [⟨0x1000, 0x21000, 0x1000, 0x10000, true, true, true, true, true, 0, 0⟩] } }

/-- A quad or die scratchpad with its segments ON. -/
def shared (n : Nat) : Shared := ⟨[], List.replicate n 0, List.replicate n ⟨.on, none, 0⟩⟩

/-- Device memory with tables of both stages that map the first GiB to itself: stage 1 from 0x1000, stage 2 from 0x3000. -/
def tables : Memory :=
  (((Memory.writeBlock [] 0x1000 (leBytes 8 0x2001)).writeBlock 0x2000 (leBytes 8 0xF)).writeBlock 0x3000 (leBytes 8 0x4001)).writeBlock 0x4000
    (leBytes 8 0x4F)

/-- A machine of one core, one quad and one die, function 0 with its stage-2 table. -/
def mach : Mach :=
  { Mach.reset with
    now := 1000, active := [0], cores := [core], quads := [shared 16], dies := [shared 32], dev := tables, sys := tables
    hub := { Hub.reset with fns := List.replicate 2 { Fn.reset with s2root := some 0x3000, jbase := 0x10000, jsize := 8 } } }

/-- A machine with bytes of device memory as every agent sees them. -/
def withBytes (m : Mach) (a : Nat) (bs : List Byte) : Mach := { m with dev := m.dev.writeBlock a bs, sys := m.sys.writeBlock a bs }

/-- That machine, with no lane issued in this cycle. -/
def st (m : Mach) : State := ⟨m, none, []⟩

/-- The machine with its core changed. -/
def machWith (f : Core → Core) : Mach := mach.modMe f

/-- A lane with registers 1, 3 and 2 as destination, A and B. -/
def lane : Lane := ⟨0, 0, 1, 3, 0, 2, 0, none⟩

/-- A short literal for B. -/
def laneLit (b : BitVec 5) : Lane := ⟨0, 0, 1, 3, 3, b, 0, none⟩

/-- The extension word of a long lane with the 16-bit literal `imm`. -/
def ext (imm : BitVec 16) : Ext := ⟨0, 0, 0, 0, false, imm⟩

/-- The machine with s registers set. -/
def machS (rs : List (Nat × W64)) : Mach :=
  machWith fun c => rs.foldl (fun c r => { c with scal := { c.scal with s := c.scal.s.set r.1 r.2 } }) c

theorem witness_ScalarArithmeticCompletes :
    ∀ x ∈ Claims.scalarOps lane, SReady mach lane (SUse.ops [mach.me.sA lane, mach.me.sB lane x.2.2.1] lane.dst.toNat) := by
  unfold SReady; decide +kernel

theorem witness_ScalarMovesComplete : ∀ x ∈ Claims.scalarMoves lane mach, SReady mach x.2.1 x.2.2.1 := by
  unfold SReady; decide +kernel

theorem witness_FormatsAndPowerLanesComplete_formats :
    let die := machS [(3, 0x21F), (2, 0x2001)]
    let own := machS [(3, 47), (2, 0x2001)]
    (die.fmtSelect (die.me.sreg 3) = some (.die 0, 31) ∧ SReady die lane (useSBkfmtGet lane die)) ∧
    (own.fmtSelect (own.me.sreg 3) = some (.core 0, 47) ∧ SReady own lane (useSBkfmtSet lane own)) := by
  unfold SReady; decide +kernel

theorem witness_ScalarMemoryCompletes :
    let ld : Lane := { lane with b := 0, fn := 3, ext := some (ext 0) }
    let at_ (a : W64) := machS [(3, a)]
    (modeLvl ld.b = 0 ∧ SReady (at_ 0x17FFF8) ld (useSLd ld (at_ 0x17FFF8))) ∧
    (modeLvl { ld with b := 1 }.b ≠ 0 ∧ SReady (at_ 0x3FFFF8) { ld with b := 1 } (useSLd { ld with b := 1 } (at_ 0x3FFFF8))) ∧
    SReady (at_ 0x17FFF8) ld (useSSt ld (at_ 0x17FFF8)) ∧ SReady (at_ 0x3FFFF8) { ld with b := 1 } (useSSt { ld with b := 1 } (at_ 0x3FFFF8)) ∧
    SReady (at_ 0xFFFF8) ld (useSLdg ld (at_ 0xFFFF8)) ∧
    (SReady (at_ 0x1FF8) ld (useSStg ld (at_ 0x1FF8)) ∧ core.tlbHit 0x1FF8 .write = some 0x21FF8) ∧
    (SReady (at_ 0xFFFF8) ld (useSStg ld (at_ 0xFFFF8)) ∧ core.tlbHit 0xFFFF8 .write = none ∧ core.stgWalk 0xFFFF8 = none) := by
  unfold SReady; decide +kernel

/-- An ATOM lane: level, width, order and scope in the literal. -/
def atomLane (imm : BitVec 16) : Lane := { lane with ext := some (ext imm) }

theorem witness_AtomCompletes :
    let at_ (a : W64) := machS [(3, a)]
    let released := (at_ 0x17FFF8).modMe fun c => { c with scal := { c.scal with rel := (some 999, none) } }
    (∀ l ∈ [atomLane 0x0240, atomLane 0x8640], l.imm.getLsbD 11 = false ∧ atomLevel l = 1 ∧ SReady (at_ 0x17FFF8) l (useSAtom l (at_ 0x17FFF8))) ∧
    ((atomLane 0x8A40).imm.getLsbD 11 = true ∧ released.me.scal.rel.1 = some 999 ∧ 999 < released.now ∧
      SReady released (atomLane 0x8A40) (useSAtom (atomLane 0x8A40) released)) ∧
    ((at_ 0x17FFF8).me.scal.rel.1 = none ∧ (at_ 0x17FFF8).me.quiet (atomScope (atomLane 0x8A40)) 1000 = true ∧
      SReady (at_ 0x17FFF8) (atomLane 0x8A40) (useSAtom (atomLane 0x8A40) (at_ 0x17FFF8))) ∧
    (atomLevel (atomLane 0x0280) = 0 + 2 ∧ SReady (at_ 0x3FFFF8) (atomLane 0x0280) (useSAtom (atomLane 0x0280) (at_ 0x3FFFF8)) ∧
      ((at_ 0x3FFFF8).atomRoute true 0 (lvlReach (0 + 1)) 1000).isSome = true) ∧
    (atomLevel (atomLane 0x02C0) = 1 + 2 ∧ SReady (at_ 0x1FFFFF8) (atomLane 0x02C0) (useSAtom (atomLane 0x02C0) (at_ 0x1FFFFF8)) ∧
      ((at_ 0x1FFFFF8).atomRoute true 0 (lvlReach (1 + 1)) 1000).isSome = true) ∧
    (atomLevel (atomLane 0x0200) = 0 ∧ (core.bound.bind fun b => b.pin 0x30008 8) = none ∧
      SReady (at_ 0x30008) (atomLane 0x0200) (useSAtom (atomLane 0x0200) (at_ 0x30008))) := by
  unfold SReady; decide +kernel

/-- A device-physical page that the map puts at the first frame of stack 0. -/
def hbmPage : Nat := (Config.hbmMap.symm 0).toNat

theorem hbmPage_place : Config.pagePlace hbmPage = 0 := by
  simp [Config.pagePlace, hbmPage, BitVec.ofNat_toNat]

theorem hbmPage_lt : hbmPage < 2 ^ 32 := (Config.hbmMap.symm 0).isLt

theorem hbmPage_hbm : Config.cxlPage hbmPage = false := by
  unfold Config.cxlPage; rw [hbmPage_place]; decide

/-- The device address of byte 8 of that page. -/
def hbmAt : Nat := hbmPage * 0x10000 + (0x20008 - 0x20000)

theorem hbmAt_page : hbmAt / 0x10000 = hbmPage := by unfold hbmAt; omega

/-- A machine whose core 0 has a pinned window of that page from 0x20000 on, and slots of timed channels. -/
def pinMach : Mach := (machS [(3, 0x20008)]).modMe fun c => { c with
  bound := c.bound.map fun b => { b with hslots := 1, pins := [⟨0x20000, hbmPage * 0x10000, 1, true, true⟩] } }
/-- A 64-bit add on a global address. -/
def globAtom : Lane := atomLane 0x0200

/-- The window covers the address. -/
theorem pinMach_pin : (pinMach.me.bound.bind fun b => b.pin 0x20008 8) = some ⟨0x20000, hbmPage * 0x10000, 1, true, true⟩ := by
  simp only [show pinMach.me.bound = some { (Bind.plain 0) with wid := 5, foot := [⟨0, 0x100000, true, true⟩], quads := 0x3F, s1root := 0x1000, s2root := 0x3000, hslots := 1, pins := [⟨0x20000, hbmPage * 0x10000, 1, true, true⟩] } from rfl]
  rfl

/-- Its dies are of one throttle group. -/
theorem pinMach_linked (d : Nat) (h : d < 4) : pinMach.linked 0 d = true := by
  have : ∀ d : Fin 4, pinMach.linked 0 d = true := by decide +kernel
  exact this ⟨d, h⟩

/-- The window lies in a channel, whichever the map gives. -/
theorem pinMach_reach : ∃ ch, pinMach.hbmReach 0 hbmAt = .hbm ch ∨ pinMach.hbmReach 0 hbmAt = .crossHbm ch := by
  refine ⟨(Config.hbmChannel hbmPage).2 * 8 + (Config.hbmChannel hbmPage).1.toNat, ?_⟩
  have hd : stackDie (Config.hbmChannel hbmPage).1.toNat < 4 := by
    have := (Config.hbmChannel hbmPage).1.isLt
    simp only [stackDie]; omega
  have lt : ¬ 2 ^ 48 ≤ hbmAt := by have := hbmPage_lt; unfold hbmAt; omega
  unfold Mach.hbmReach
  dsimp only
  rw [hbmAt_page, hbmPage_hbm, if_neg (by simpa using lt)]
  split
  · exact .inl rfl
  · rw [pinMach_linked _ hd]; exact .inr rfl

/-- Its partition has slots of every channel. -/
theorem pinMach_channel (ch t : Nat) : ∃ x, pinMach.channelSlot 0 ch t = some x := by
  simp only [Mach.channelSlot, show (pinMach.core 0).bound = some { (Bind.plain 0) with wid := 5, foot := [⟨0, 0x100000, true, true⟩], quads := 0x3F, s1root := 0x1000, s2root := 0x3000, hslots := 1, pins := [⟨0x20000, hbmPage * 0x10000, 1, true, true⟩] } from rfl]
  exact ⟨_, rfl⟩

/-- It has booked no slot. -/
theorem pinMach_slots (own : Bool) (r : Reach) (t : Nat) : pinMach.pickSlot own 0 r true t = pinMach.ownSlot 0 r t := by
  cases own <;> rfl

/-- An atomic into the window has a route, whose own slots are the first free ones. -/
theorem pinMach_route (own : Bool) : ∃ r, pinMach.atomRoute own 0 (pinMach.hbmReach 0 hbmAt) 1000 = some r ∧
    ∃ r', pinMach.atomRoute (!own) 0 (pinMach.hbmReach 0 hbmAt) 1000 = some r' ∧ r.2 = r'.2 := by
  obtain ⟨ch, h | h⟩ := pinMach_reach
  · rw [h]
    obtain ⟨x, hx⟩ := pinMach_channel ch 1000
    simp only [Mach.atomRoute, Mach.sendWrite, hx, Option.map_some, Mach.sendRead]
    have hb : ∀ t, ∃ y, (pinMach.bookChannel 0 ch x).channelSlot 0 ch t = some y := fun t => ⟨_, rfl⟩
    obtain ⟨y, hy⟩ := hb (x + 56 - Reach.readDelay (.hbm ch))
    rw [hy]
    exact ⟨_, rfl, _, rfl, rfl⟩
  · rw [h]
    obtain ⟨x, hx⟩ := pinMach_channel ch (pinMach.ownSlot 0 .cross 1000 + 30)
    simp only [Mach.atomRoute, Mach.sendWrite, pinMach_slots, hx, Option.map_some, Mach.sendRead]
    have hb : ∀ b t, ∃ y, ∀ b', (((pinMach.bookSlot 0 .cross true (pinMach.ownSlot 0 .cross 1000) b).bookChannel 0 ch x)).channelSlot 0 ch t = some y ∧
       (((pinMach.bookSlot 0 .cross true (pinMach.ownSlot 0 .cross 1000) b').bookChannel 0 ch x)).channelSlot 0 ch t = some y := fun b t => ⟨_, fun b' => ⟨rfl, rfl⟩⟩
    obtain ⟨y, hy⟩ := hb (!own) (x + 56 - Reach.readDelay (.crossHbm ch))
    simp only [(hy own).1, (hy (!!own)).2, Option.map_some]
    refine ⟨_, rfl, _, rfl, ?_⟩
    cases own <;> rfl

/-- So it meets no clash. -/
theorem pinMach_clash : pinMach.atomClash 0 (pinMach.hbmReach 0 hbmAt) = [] := by
  obtain ⟨r, h, r', h', e⟩ := pinMach_route true
  have h1 : pinMach.now = 1000 := rfl
  simp only [Mach.atomClash, h1, h, show pinMach.atomRoute false 0 _ 1000 = some r' from h', Option.map_some, e, beq_self_eq_true, if_true]

theorem witness_AtomCompletes_pinned :
    SReady pinMach globAtom (useSAtom globAtom pinMach) ∧ globAtom.imm.getLsbD 11 = false ∧ atomLevel globAtom = 0 ∧
    ∃ w r, (pinMach.me.bound.bind fun b => b.pin 0x20008 8) = some w ∧
      (pinMach.modMe fun c => { c with scal := { c.scal with rel := (none, c.scal.rel.2) } }).atomRoute true 0
        (pinMach.hbmReach 0 (w.pbase + (0x20008 - w.vbase))) 1000 = some r := by
  refine ⟨⟨by decide +kernel, by decide +kernel, by decide +kernel, by decide +kernel, by decide +kernel, by decide +kernel, ?_⟩, by decide, by decide, ?_⟩
  · have e : (pinMach.me.sreg globAtom.a.toNat).toNat = 0x20008 := by decide +kernel
    have n : (if (Lane.atomOp pinMach.me globAtom).w64 then 8 else 4) = 8 := by decide +kernel
    have v : atomLevel globAtom = 0 := by decide
    have at_ : hbmPage * 0x10000 + (0x20008 - 0x20000) = hbmAt := rfl
    have f : globRange 0x20008 8 = [] ∧ pinMach.me.footTraps .atomic 0x20008 8 = [] ∧ ((Lane.atomOp pinMach.me globAtom).op != 5) = true := by decide +kernel
    simp only [useSAtom, show globAtom.imm.getLsbD 11 = false by decide, Bool.false_and, Bool.false_eq_true, if_false, atomUse, e, n, v, if_true, pinMach_pin,
      at_, hbmAt_page, hbmPage_hbm, f, show pinMach.cur = 0 from rfl, pinMach_clash]
    decide
  · obtain ⟨r, h, -⟩ := pinMach_route true
    have at_ : hbmPage * 0x10000 + (0x20008 - 0x20000) = hbmAt := rfl
    refine ⟨⟨0x20000, hbmPage * 0x10000, 1, true, true⟩, r, pinMach_pin, ?_⟩
    dsimp only
    rw [at_]
    exact h

theorem witness_ScalarSyncAndWaitsComplete_sync :
    let l : Lane := { laneLit 3 with ext := some (ext 3) }
    let ring := machS [(3, 0x40017E000), (2, 0x1000)]
    (mach.cur < mach.cores.length ∧ ∀ x ∈ Claims.scalarSync l mach, SReady mach l x.2.1) ∧ SReady ring lane (useSRingset lane ring) := by
  unfold SReady; decide +kernel


theorem witness_ScalarSyncAndWaitsComplete_barriers :
    let l : Lane := { laneLit 0 with a := 6, kb := 3, ext := some (ext 96) }
    SReady mach l (useSBarInit l mach) ∧ SReady mach l (useSBarInit { l with ext := some (ext 1) } mach) ∧
    SReady mach l { SUse.none with held := (mach.bar (Lane.barRef mach l)).arrived != 0 } ∧ SReady mach l SUse.none ∧
    SReady mach l { SUse.none with held := !mach.me.quiet (l.a.setWidth 4) mach.now || (mach.bar (Lane.barRef mach l)).unfinished mach.cur } ∧
    (mach.bar (Lane.barRef mach l)).unfinished mach.cur = false := by
  unfold SReady; decide +kernel

theorem witness_FormatsAndPowerLanesComplete_power :
    SReady (machS [(3, 2 ^ 54)]) lane (useSWake lane (machS [(3, 2 ^ 54)])) ∧
    SReady (machS [(3, 2 ^ 54)]) lane (useSSleep lane (machS [(3, 2 ^ 54)])) := by
  unfold SReady; decide +kernel

theorem witness_ScalarSyncAndWaitsComplete_waits : Stream.s = .s → mach.me.sBlocked mach.now = false := by decide +kernel

theorem witness_VectorLanesComplete :
    ∀ x ∈ Claims.vectorLanes lane core, VReady mach lane (maskClusters (mach.me.mreg 0)) (VUse.ops x.2.2.1 lane.dst.toNat) := by
  unfold VReady; decide +kernel

theorem witness_VectorComparesSelectsAndConversionsComplete :
    let c := mach.me
    let cv : Lane := { lane with ext := some (ext 0x41) }
    let cw : Lane := { lane with ext := some (ext 0x161) }
    let cx : Lane := { lane with ext := some (ext 0x2B) }
    VReady mach lane (maskClusters (c.mreg 0)) { VUse.ops [c.vA lane 0 1, c.vB lane 0 1] 0 with own := [.m 1] } ∧
    VReady mach { lane with p := 0 } [0, 1, 2, 3]
      { VUse.ops [c.vA lane 3 0, c.vB lane 3 0] 1 with locs := .m 0 :: (VUse.ops [c.vA lane 3 0, c.vB lane 3 0] 1).locs } ∧
    (VReady mach cv (maskClusters (c.mreg 0)) (useVcvt cv mach (c.mreg 0)) ∧ cvtSrc cv ≠ 0x0B ∧ cvtDst cv ≠ 0x0B) ∧
    (VReady mach cw (maskClusters (c.mreg 0)) (useVcvt cw mach (c.mreg 0)) ∧ cvtSrc cw = 0x0B) ∧
    (VReady mach cx (maskClusters (c.mreg 0)) (useVcvt cx mach (c.mreg 0)) ∧ cvtDst cx = 0x0B) := by
  unfold VReady; decide +kernel

theorem witness_VectorAxesComplete :
    VReady mach lane (maskClusters (mach.me.mreg 0)) { VUse.one 3 1 with regs := (mach.me.vAmount lane).regs } ∧
    VReady mach lane (maskClusters (mach.me.mreg 0)) (VUse.one 3 1) := by
  unfold VReady; decide +kernel

theorem witness_VectorMemoryAndRowsComplete_images :
    let core' : Lane := { lane with a := 0, kb := 1 }
    let quad : Lane := { lane with a := 1, kb := 1 }
    (VReady (machS [(2, 0x17F000)]) core' (maskClusters (mach.me.mreg 0)) (useVld core' (machS [(2, 0x17F000)]) (mach.me.mreg 0)) ∧
      modeLvl core'.a = 0) ∧
    (VReady (machS [(2, 0x3FF000)]) quad (maskClusters (mach.me.mreg 0)) (useVld quad (machS [(2, 0x3FF000)]) (mach.me.mreg 0)) ∧
      modeLvl quad.a ≠ 0) ∧
    VReady (machS [(2, 0x17F000)]) core' (maskClusters (mach.me.mreg 0)) (useVst core' (machS [(2, 0x17F000)]) (mach.me.mreg 0)) ∧
    VReady (machS [(2, 0x3FF000)]) quad (maskClusters (mach.me.mreg 0)) (useVst quad (machS [(2, 0x3FF000)]) (mach.me.mreg 0)) := by
  unfold VReady; decide +kernel

theorem witness_VectorMemoryAndRowsComplete_rows :
    VReady mach lane (maskClusters (mach.me.mreg 0)) (useVldx lane mach (mach.me.mreg 0)) ∧
    VReady mach lane (maskClusters (mach.me.mreg 0)) (useVstx lane mach (mach.me.mreg 0)) := by
  unfold VReady; decide +kernel

theorem witness_VectorExchangesAndMasksComplete_exchange :
    let none : VUse := { regs := [], locs := [], own := [], held := false, traps := [] }
    (VReady mach lane (maskClusters (mach.me.mreg 0)) { none with own := [.v 1] } ∧ nth mach.me.scal.q 0 [] = 7 :: []) ∧
    (VReady mach lane (maskClusters (mach.me.mreg 0)) { none with locs := [.v 3] } ∧ 0 < mach.me.qFree mach.now 1 ∧
      (mach.me.mreg 0).getLsbD 0 = true) ∧
    (VReady mach (laneLit 3) (maskClusters (mach.me.mreg 0)) none ∧ (mach.me.semTake 1 (mach.me.xCount { laneLit 3 with kb := 3 })).isSome) := by
  unfold VReady; decide +kernel

theorem witness_VectorExchangesAndMasksComplete_masks :
    VReady mach lane (maskClusters (mach.me.mreg 0))
      { regs := [], locs := [.m 3, .m 2], own := [.m 1], held := false, traps := [] } := by
  unfold VReady; decide +kernel


/-- Rings 3 and 2 with two tiles each, at 0 and at 0x80000, whose first tiles say that they hold one scale row. -/
def ringCore (c : Core) : Core :=
  { c with
    pad := { c.pad with mem := (Memory.writeBlock [] 0xF00 [1]).writeBlock 0x80F00 [1] }
    mx := { c.mx with rings := (c.mx.rings.set 3 ⟨0x400000000, 0x100000001000, none, 0⟩).set 2 ⟨0x400080000, 0x100000001000, none, 0⟩ } }

/-- A machine of the four cores of quad 0, each changed by `f`, bound to one task. -/
def quadMach (f : Core → Core) : Mach := { mach with active := [0, 1, 2, 3], cores := List.replicate 4 (f core) }

theorem witness_ArrayOperationsComplete :
    ∀ op ∈ [1, 2, 3, 4], MReady (machWith ringCore) (useArrayLane op { lane with dst := 0, ext := some (ext 1) } (machWith ringCore)) := by
  unfold MReady; decide +kernel

/-- A joint lane that is due. -/
def joint : JointDue := { cyc := 996, op := 5, lane := { lane with dst := 0, ext := some (ext 1) }, count := none }

theorem witness_JointOperationsComplete :
    let m := quadMach ringCore
    (m.me.mx.due = none ∧ m.quadBound m.cur = true ∧ m.me.mx.ops = [] ∧
      ((m.me.ringUse 3 false (arrayTypes 5 0).1 1).held && (m.me.ringUse 3 false (arrayTypes 5 0).1 1).traps.isEmpty) = false) ∧
    (let d := quadMach fun c => let c := ringCore c; { c with mx := { c.mx with due := some joint } }
     (quadCores 0).map (fun k => (d.core k).mx.due) = [some joint, some joint, some joint, some joint] ∧ (d.core 0).mx.jseq < 4 ∧
     ∀ u ∈ (List.range 4).zipWith (fun k x => d.jointCheck (4 * 0 + k) x) [joint, joint, joint, joint], u.traps = []) := by
  decide +kernel

theorem witness_JointOperationsComplete_fails :
    let other : JointDue := { joint with lane := { joint.lane with ext := some (ext 2) } }
    let d (f : Core → Core) (x : JointDue) : Mach :=
      let m := quadMach fun c => let c := f c; { c with mx := { c.mx with due := some joint } }
      m.modCore 3 fun c => { c with mx := { c.mx with due := some x } }
    (∀ x ∈ [(d ringCore other, other), (d id joint, joint)],
      (quadCores 0).map (fun k => (x.1.core k).mx.due) = [some joint, some joint, some joint, some x.2] ∧ (x.1.core 0).mx.jseq < 4 ∧
      4 * 0 + 3 < x.1.cores.length ∧ (st x.1).base = none ∧ (st x.1).undo = [] ∧
      ∀ k ∈ quadCores 0, (x.1.core k).stop = none ∧ (x.1.core k).scal.phase = none) ∧
    (other.sig ≠ joint.sig ∧ (d ringCore other).core 0 = (d ringCore other).core 1) ∧
    (firstTrap ((d id joint).jointCheck (4 * 0 + 0) joint).traps).isSome = true := by
  decide +kernel

theorem witness_MatrixLanesAndMovesComplete_lanes : ∀ x ∈ Claims.matrixSmall { laneLit 3 with ext := some (ext 3) } mach, MReady mach x.2.1 := by
  unfold MReady; decide +kernel

theorem witness_MatrixLanesAndMovesComplete_moves :
    let own : Lane := { lane with a := 0 }
    let quad : Lane := { lane with a := 1 }
    let m := machS [(2, 0x17F000)]
    let q := machS [(2, 0x3FF000)]
    MReady m (useMdrain own m) ∧ MReady q (useMdrain quad q) ∧ (MReady m (useMldacc own m) ∧ modeLvl own.a = 0) ∧
    (MReady q (useMldacc quad q) ∧ modeLvl quad.a ≠ 0) ∧ MReady m (useMstacc own m) ∧ MReady q (useMstacc quad q) := by
  unfold MReady; decide +kernel

theorem witness_ArrayRetireAndChainIssueComplete :
    let ch : ChainCmd := ⟨Lane.toWord 1 { lane with dst := 0, ext := some (ext 1) }, some (Ext.toWord (ext 1))⟩
    let m := machWith fun c => let c := ringCore c; { c with mx := { c.mx with chain := some ch } }
    let p := m.planArray (ChainCmd.parts ch).1 (ChainCmd.parts ch).2
    let locs := arrayLocs (ChainCmd.parts ch).1 (ChainCmd.parts ch).2
    m.cur < m.cores.length ∧ m.me.mx.chain = some ch ∧ p.held = false ∧ m.me.mx.due = none ∧ m.me.mx.joint = none ∧
    m.me.mx.jheld ≠ some m.now ∧ m.staleTraps locs.2 locs.1 = [] ∧
    m.sleepTraps [.core m.cur mxBit] = [] ∧ p.traps = [] ∧ (ChainCmd.parts ch).1 = 1 := by
  decide +kernel


theorem witness_ArrayRetireAndChainIssueComplete_pops :
    let o : ArrayOp := { lane := 0, ext := 0, f := 990, cpp := 1, passes := 2, retire := 1000, write := 1023, ringA := 3, ringB := some 2, popA := true, popB := false }
    let m := machWith fun c => let c := ringCore c; { c with mx := { c.mx with ops := [o] } }
    let g := m.me.ring 3
    o ∈ m.me.mx.ops ∧ o.retire ≤ m.now ∧ 3 < m.me.mx.rings.length ∧ 0 < ringSize g.w0 / ringTile g.w1 ∧ ringSize g.w0 / ringTile g.w1 ≤ 8192 ∧
    ringHead g.w1 < ringSize g.w0 / ringTile g.w1 ∧ Claims.popped m.me.mx.ops 3 = 2 ∧ 2 ≤ ringCount g.w1 ∧ Claims.popped m.me.mx.ops 2 = 0 := by
  decide +kernel

/-- The machine with a descriptor at 0x3000 of a timed copy of one row of 256 elements from `src` to 0x5000, its banks of format 1, AUX `aux`. -/
def copyMach (src aux : Nat) : Mach :=
  machWith fun c => { c with
    pad := { c.pad with
      mem := Memory.writeBlock [] 0x3000 (leBytes 8 src ++ leBytes 8 0x5000 ++ leBytes 8 0 ++ leBytes 4 1 ++ leBytes 4 256 ++ leBytes 8 0 ++
        leBytes 8 aux ++ leBytes 8 1)
      fmt := List.replicate 48 1 }
    scal := { c.scal with s := c.scal.s.set 2 0 } }

theorem witness_CopyCommandsComplete :
    let l : Lane := { lane with ext := some (ext 0) }
    let rel : Lane := { lane with ext := some (ext 0x78) }
    (∀ x ∈ [(1, 0x4000, 0), (2, 0x4000, 0x6000), (3, 0x4000, 0x6000), (4, 0x4000, 0), (5, 0x4000, 1), (6, 0, 7)],
      XReady (copyMach x.2.1 x.2.2) (useCopyLane x.1 l none (copyMach x.2.1 x.2.2)) ∧ l.imm.getLsbD 3 = false) ∧
    (let m := (copyMach 0x4000 0).modMe fun c => { c with scal := { c.scal with rel := (none, some 999) } }
     XReady m (useCopyLane 1 rel none m) ∧ m.me.scal.rel.2 = some 999 ∧ 999 < m.now) ∧
    (let m := copyMach 0x4000 0
     let u := useCopyLane 1 rel none m
     u.held = false ∧ u.regs.any (m.me.pending m.now) = false ∧ rel.imm.getLsbD 3 = true ∧ m.me.scal.rel.2 = none ∧ m.me.quiet (bits rel.imm 4 4) m.now = true) := by
  unfold XReady; decide +kernel

/-- An inbound channel whose buffer, of bank 3, is in the state `bst`. -/
def chan (bst : Nat) : Chan := ⟨false, 0x300, 256, bst, [], 0, none, none⟩

/-- The machine with that channel 0. -/
def chanMach (bst : Nat) : Mach :=
  machWith fun c => { c with
    pad := { c.pad with fmt := c.pad.fmt.set 3 (BitVec.ofNat 32 (2 ^ 13 + bst * 2 ^ 14)) }
    xe := { c.xe with chans := c.xe.chans.set 0 (some (chan bst)) } }

theorem witness_ChannelLanesComplete :
    let l : Lane := { lane with ext := some (ext 3), kb := 3, b := 3 }
    let new := machWith fun c => { c with
      pad := { c.pad with fmt := c.pad.fmt.set 3 0x2000 }, scal := { c.scal with s := (c.scal.s.set 3 0x300).set 2 0x100 } }
    (∀ x ∈ [(.xclose l, useXclose l, 1), (.xclose l, useXclose l, 2), (.xwmset l, useXwmset l, 1), (.xbufRel l, useXbufRel l, 2)],
      let m := chanMach x.2.2
      XReady m (x.2.1 m) ∧ m.me.chan l.p.toNat = some (chan x.2.2) ∧ m.cur < m.cores.length ∧
      x.1 ∈ (Claims.channelLanes l m (chan x.2.2)).map Prod.fst) ∧
    XReady new (useXopen lane new) ∧ XReady new (useXopen { lane with fn := 1 } new) ∧
    ∀ x ∈ (Claims.channelLanes l mach (chan 1)).drop 4, XReady mach x.2.1 := by
  unfold XReady; decide +kernel


/-- The machine with geode descriptors of 8 entries at 0, and its banks of format 0x15. -/
def geodeMach : Mach :=
  machWith fun c => { c with
    pad := { c.pad with fmt := List.replicate 48 0x15 }
    hv := { c.hv with gd := List.replicate 4 (BitVec.ofNat 64 (8 * 2 ^ 32), 0, 0) } }

theorem witness_HyperLanesComplete :
    let set := (geodeMach.modMe fun c => { c with scal := { c.scal with s := (c.scal.s.set 3 0x60000000000).set 2 0 } })
    (∀ x ∈ (Claims.hyperLanes { laneLit 3 with ext := some (ext 7) } geodeMach).filter fun x => x.1 != .hgdset { laneLit 3 with ext := some (ext 7) },
      HReady geodeMach { laneLit 3 with ext := some (ext 7) } x.2.1) ∧
    HReady set lane (useHgdset lane set (set.me.mreg 0)) ∧
    (let ctl := machS [(3, 2)]
     HReady ctl { lane with dst := 16 } (useHgdset { lane with dst := 16 } ctl (ctl.me.mreg 0))) := by
  unfold HReady; decide +kernel

theorem witness_HyperMemoryAndSearchesComplete_searches :
    HReady geodeMach lane (useHSearch lane false geodeMach (geodeMach.me.mreg 0)) ∧
    HReady geodeMach lane (useHSearch lane true geodeMach (geodeMach.me.mreg 0)) ∧
    (let r : Result := { mach.result .h 0 (.search 0 false 0 0 0 0) 0 with w := 1000 }
     ((machWith fun c => { c with flight := [r] }).me.searches.find? fun r => decide (r.w ≤ 1000)) = some r) := by
  unfold HReady; decide +kernel

theorem witness_HyperMemoryAndSearchesComplete_words :
    let at_ (es : List Nat) : Result := { mach.result .h 0 (.search 0 true 0 (BitVec.allOnes 8192) (BitVec.allOnes 8192) 3) 0 with
      buf := es.foldl (fun b e => b.writeBlock (validAt + e) [1]) (Memory.writeBlock [] 1024 [1]) }
    (∀ e < 3, (at_ []).buf.read (validAt + e) = 0) ∧
    (∀ e < 3, (at_ [0, 1, 2]).buf.read (validAt + e) ≠ 0) ∧ (at_ [0, 1, 2]).searchWords = [0, 2] ∧ (at_ [1]).searchWords = [0x100000001, 0x800000000000FFFF] ∧
    (at_ []).searchWords = [0x800000000000FFFF, 0x800000000000FFFF] := by
  decide +kernel

theorem witness_HyperMemoryAndSearchesComplete_memory :
    let own : Lane := { lane with a := 0 }
    let quad : Lane := { lane with a := 1 }
    let m := machS [(2, 0x17F000)]
    let q := machS [(2, 0x3FF000)]
    let cnt : Lane := { laneLit 3 with ext := some (ext 3) }
    HReady geodeMach { laneLit 7 with ext := some (ext 7) } (useHgput { laneLit 7 with ext := some (ext 7) } geodeMach (geodeMach.me.mreg 0)) ∧
    (HReady m own (useHld own m (m.me.mreg 0)) ∧ modeLvl own.a = 0) ∧ (HReady q quad (useHld quad q (q.me.mreg 0)) ∧ modeLvl quad.a ≠ 0) ∧
    HReady m own (useHst own m (m.me.mreg 0)) ∧ HReady q quad (useHst quad q (q.me.mreg 0)) ∧
    (HReady mach cnt HUse.none ∧ core.xCount cnt ≤ core.semCount cnt.dst.toNat) := by
  unfold HReady; decide +kernel


/-- A T.NOP for lane cluster 0. -/
def nopTile : Tile := ⟨0, 0, 4, 2, 0, 0, false, false, false, false, 0, false, false, 0, 0, 0, 0, 0, 0, 0, 0, 1⟩

/-- A T.CVT of 16 rows of 64 columns from descriptor 2 to descriptor 1, for all lane clusters. -/
def cvtTile : Tile := { nopTile with dfmt := 1, tdd := 1, tda := 2, m := 16, n := 64, lcm := 15 }

/-- A core whose tables hold the views 1 and 2 of 16 rows of 64 32-bit columns, at 0x100000 and 0x4000. -/
def tileMach : Mach :=
  machWith fun c => { c with
    pad := { c.pad with fmt := List.replicate 48 1 }
    port := { c.port with
      hnds := [(1, bytesImage 512 (leBytes 8 0x100000 ++ leBytes 4 256 ++ leBytes 4 16 ++ leBytes 4 64 ++ leBytes 4 1)),
               (2, bytesImage 512 (leBytes 8 0x4000 ++ leBytes 4 256 ++ leBytes 4 16 ++ leBytes 4 64 ++ leBytes 4 1))]
      descs := [(1, 1), (2, 2)] } }

/-- A task with number 7, of function 0 and partition 0, bound on core 0. -/
def task : Task :=
  { seq := 7, num := 7, pulls := [], fn := 0, queue := 0, part := 0, prio := 0, native := false, ver := 2, repl := 1, iter := 0, widSpec := 0, image := 0,
    imgLen := 0, tokens := 0, csig := 0, card := 0, regions := [⟨0, 0x100000, true, true⟩], edges := [], state := .bound, cores := [0], boundAt := 0, ran := 0,
    killed := none, killers := [], preempt := none, port := PPort.reset, saved := [], segs := [], barriers := [], savedAt := 0 }

/-- Partition 0 with all quads of die 0. -/
def part : Part := { num := 0, quads := 0x3F, hslots := 0, slice := 10, watch := 0, weights := List.replicate 25 1 }

/-- The machine with that partition and a task. -/
def taskMach (t : Task) : Mach :=
  { mach with hub := { mach.hub with tasks := [t], mgmt := { mach.hub.mgmt with parts := [part] } }, curP := some 7 }

/-- A command of a tile instruction for the P port. -/
def command (top : BitVec 5) (t : Tile) : ChainCmdP :=
  let w := leBytes 4 (t.word0 top).toNat ++ leBytes 4 (t.word1).toNat ++ leBytes 4 t.word2.toNat ++ leBytes 4 t.word3.toNat
  { seqNo := 0, index := 0, words := bytesImage 128 w, resume := 0, path := 0, endAt := none, bar := false }

theorem witness_TileInstructionsComplete_lanes :
    ∀ x ∈ [(0, nopTile), (6, cvtTile)],
      SReady tileMach (Tile.asLane x.2) { SUse.none with
        held := (tileMach.me.lcBusy tileMach.now &&& x.2.lcm) != 0, traps := tileMach.tileTraps x.1 x.2 } ∧ tileMach.curP = none := by
  unfold SReady; decide +kernel

theorem witness_TileInstructionsComplete_port :
    let good := { nopTile with lvl := 0, lcm := 0 }
    ∀ x ∈ [(good, 0), (nopTile, 2)],
      let t := { task with port := { PPort.reset with pending := some (command 0 x.1) } }
      (taskMach t).curP = some 7 ∧ (taskMach t).task 7 = some t ∧ t.port.pending = some (command 0 x.1) ∧
      (taskMach t).pkgRefusal t (command 0 x.1) 0 x.1 = x.2 := by
  decide +kernel

theorem witness_TileEventsComplete :
    let t : LTile := { seq := 0, lcm := 15, retire := 1000, evt := true, woke := [48], bad := [], code := 0, gone := false, since := 999 }
    let with_ (t : LTile) := machWith fun c => { c with port := { c.port with tiles := [t] } }
    ((with_ t).core 0).dueTile 1000 = some t ∧
    ((with_ { t with bad := [(0, 1)] }).core 0).dueTile 1000 = some { t with bad := [(0, 1)] } ∧
    (∀ k ∈ [command 14 nopTile, command 0 nopTile],
      ∀ e ∈ [none, some (1000, true)],
        let k := { k with endAt := e }
        let x := { task with port := { PPort.reset with running := [k] } }
        (taskMach x).task 7 = some x ∧ x.port.running = k :: [] ∧ (taskMach x).pkgReady x k = true) ∧
    ((command 14 nopTile).tile.1 = 14 ∧ (command 14 nopTile).bar = false ∧ ({ command 14 nopTile with bar := true } : ChainCmdP).bar = true ∧ (command 0 nopTile).tile.1 ≠ 14) ∧ (taskMach task).pkgRun task (command 0 nopTile) = none := by
  decide +kernel

/-- A T.FILL of one element in global memory. -/
def fillTile : Tile := { nopTile with lvl := 0, lcm := 0, dfmt := 1, tdd := 1, m := 1, n := 1 }

/-- A task whose table holds the view of the T.FILL from address `a` on. -/
def fillTask (a : Nat) : Task :=
  { task with port := { PPort.reset with
      running := [command 9 fillTile]
      hnds := [0, bytesImage 512 (leBytes 6 a ++ [0, 0x30] ++ leBytes 4 256 ++ leBytes 4 16 ++ leBytes 4 64 ++ leBytes 4 1)], descs := [0, 1] } }

theorem witness_TileEventsComplete_run :
    (command 9 fillTile).tile.1 ≠ 14 ∧
    (taskMach (fillTask 0x8000)).pkgReady (fillTask 0x8000) (command 9 fillTile) = true ∧
    (((taskMach (fillTask 0x8000)).pkgRun (fillTask 0x8000) (command 9 fillTile)).map fun e => (e.pull, e.record.isNone)) = some ([], true) ∧
    (((taskMach (fillTask 0x100000)).pkgRun (fillTask 0x100000) (command 9 fillTile)).map fun e => (e.pull, e.record.isSome)) = some ([], true) ∧
    ((({ taskMach (fillTask 0x8000) with dev := tables.writeBlock 0x4000 (leBytes 8 0xCF) } : Mach).pkgRun (fillTask 0x8000) (command 9 fillTile)).map
      fun e => e.pull) = some [some 0] := by
  decide +kernel


/-- The machine with x10 and x11 set, and its core changed. -/
def machX (a b : W64) (f : Core → Core) : Mach :=
  machWith fun c => f { c with ctl := { c.ctl with x := (c.ctl.x.set 10 a).set 11 b } }

/-- A stop of the streams whose frame is complete. -/
def held (c : Core) : Core := { c with stop := some { Stop.new 900 with held := true }, frame := Memory.writeBlock [] 0x1000 [1] }

theorem witness_ControlInstructionsComplete :
    (let c := (machX 1023 0xFFFFFFFF fun c => { c with seq := { c.seq with queue := List.replicate 3 ⟨1, 1, 900⟩, dir := [(1023, ⟨0, 1, none⟩)] } }).me
     (c.ctl.xr 10).toNat < 1024 ∧ 0 < (c.ctl.xr 11).toNat ∧ (c.ctl.xr 11).toNat < 2 ^ 32 ∧ c.seq.validated (c.ctl.xr 10).toNat = true ∧
     c.seq.queue.length < 4) ∧
    (let c := (machX 1023 0 id).me
     (c.ctl.xr 10).toNat < 1024 ∧ c.ctl.xr 11 = 0) ∧
    (mach.me.seq.queue = [] ∧ mach.me.busy mach.now = false ∧ mach.me.stop = none ∧ mach.me.events.q = [] ∧ mach.cur < mach.cores.length) ∧
    (machX 0 0 fun c => { c with events := ⟨[5], [], (0, 0)⟩ }).me.events.q ≠ [] ∧
    (let c := (machX 31 65535 id).me
     (c.ctl.xr 10).toNat < 32 ∧ (c.ctl.xr 11).toNat < 65536 ∧ c.semCount 31 < (c.ctl.xr 11).toNat) ∧
    (let c := (machX 31 3 id).me
     (c.ctl.xr 10).toNat < 32 ∧ (c.ctl.xr 11).toNat < 65536 ∧ (c.ctl.xr 11).toNat ≤ c.semCount 31) ∧
    (let c := (machX 0 0 held).me
     c.held = true ∧ c.frame.value 0x1000 1 ≠ 0) ∧
    (let c := (machX 255 3 id).me
     (c.ctl.xr 10).toNat < 256 ∧ (c.ctl.xr 11).toNat < 4) ∧
    (let c := (machX 10 0 id).me
     (c.ctl.xr 10).toNat < 12 ∧ (c.ctl.xr 10).toNat % 4 ≠ 3) := by
  decide +kernel

theorem witness_ControlInstructionsComplete_rejects :
    (let c := (machX 1024 0x100000000 id).me
     1024 ≤ (c.ctl.xr 10).toNat ∧ 2 ^ 32 ≤ (c.ctl.xr 11).toNat ∧ 256 ≤ (c.ctl.xr 10).toNat) ∧
    (let c := (machX 1023 65536 id).me
     (c.ctl.xr 10).toNat < 1024 ∧ 65536 ≤ (c.ctl.xr 11).toNat) ∧
    (let c := (machX 32 65536 id).me
     32 ≤ (c.ctl.xr 10).toNat ∧ ((machX 31 65536 id).me.ctl.xr 10).toNat < 32 ∧ 65536 ≤ (c.ctl.xr 11).toNat) ∧
    (let c := (machX 12 3 id).me
     12 ≤ (c.ctl.xr 10).toNat ∧ (c.ctl.xr 11).toNat % 4 = 3 ∧ 4 ≤ (c.ctl.xr 10).toNat) ∧
    mach.me.held = false ∧ mach.me.stop = none ∧ (machX 0 0 fun c => { held c with frame := [] }).me.frame.value 0x1000 1 = 0 := by
  decide +kernel

theorem witness_BoundariesAndResumeComplete :
    (mach.me.ctl.wait.getD ((st mach).ctlWait false 8) = .mem false 8 1000 ∧ mach.me.ctl.wait.getD ((st mach).ctlWait true 1) = .mem true 1 1000 ∧
      mach.waitOver false 8 1000 = true ∧ mach.waitOver true 1 1000 = true) ∧
    (let m := machX 0 0 held
     m.me.stop = some { Stop.new 900 with held := true } ∧ (Stop.new 900).shadow = none) ∧
    (let p := { Stop.new 900 with held := true, shadow := some (0x11, 0, 1, 0x1000, 0) }
     (machWith fun c => { c with stop := some p }).me.stop = some p ∧ p.held = true ∧ p.shadow = some (0x11, 0, 1, 0x1000, 0)) := by
  decide +kernel

theorem witness_RvComputeCompletes :
    Claims.rvCompute core.ctl 0x1000004 (.jalr 10 0 4) = some (10, 0x1000004, 4, 2) ∧
    Rv.branch .eq 0 0 8 = Rv.branch .eq 0 0 8 := by
  decide +kernel

theorem witness_RvMemoryCompletes :
    (let k := (machX 0xFFF8 0x1007FF8 id).me.ctl
     (k.xr 10 + (0 : BitVec 12).signExtend 64).toNat % 8 = 0 ∧ (k.xr 10 + (0 : BitVec 12).signExtend 64).toNat + 8 ≤ 0x10000 ∧
     (k.xr 11).toNat % 8 = 0 ∧ 0x01000000 ≤ (k.xr 11).toNat ∧ (k.xr 11).toNat + 8 ≤ 0x01008000) ∧
    (let k := (machX 0xFF8 0x1180 id).me.ctl
     (k.xr 10).toNat % 8 = 0 ∧ (k.xr 10).toNat + 8 ≤ 0x1000 ∧ (k.xr 11).toNat % 8 = 0 ∧ 0x1080 ≤ (k.xr 11).toNat ∧ (k.xr 11).toNat + 8 ≤ 0x1188) ∧
    (machX 0xFF8 0x1180 held).me.held = true ∧ (machX 0xFF8 0 fun c => { c with ctl := { c.ctl with resv := some 0xFF8 } }).me.ctl.resv = some 0xFF8 ∧
    (machX 0xFF8 0 id).me.ctl.resv ≠ some 0xFF8 := by
  decide +kernel

theorem witness_RvMemoryCompletes_exceptions :
    (let k := (machX 0x10001 0xFFFFFF id).me.ctl
     let imm : BitVec 12 := 0
     (k.xr 10 + imm.signExtend 64).toNat % 2 ≠ 0 ∧ (k.xr 11 + imm.signExtend 64).toNat % 1 = 0 ∧ 0x10000 < (k.xr 11 + imm.signExtend 64).toNat + 1 ∧
     (k.xr 11 + imm.signExtend 64).toNat < 0x01000000) ∧
    (let k := (machX 0xFFD 0x1188 held).me.ctl
     (k.xr 10).toNat % 4 ≠ 0 ∧ (k.xr 11).toNat % 8 = 0 ∧ 0x1000 < (k.xr 11).toNat + 8 ∧ 0x1188 < (k.xr 11).toNat + 8) ∧
    (let k := (machX 0x10000 0x1078 held).me.ctl
     (k.xr 10).toNat % 8 = 0 ∧ 0x10000 < (k.xr 10).toNat + 8 ∧ (k.xr 11).toNat % 8 = 0 ∧ 0x1000 < (k.xr 11).toNat + 8 ∧ (k.xr 11).toNat < 0x1080) ∧
    (machX 0 0x1080 id).me.held = false := by
  decide +kernel

/-- A control core that waits for the timer, due in this cycle, with MIE as given. -/
def timed (ready : Nat) : Mach :=
  machWith fun c => { c with ctl := { c.ctl with tdue := true, timecmp := 1000, mie := 0x80, mstatus := 0x1808, ready := ready } }

theorem witness_SystemAndCsrInstructionsComplete :
    (((timed 0).me.mip 1000 &&& (timed 0).me.ctl.mie) ≠ 0) ∧
    (mach.csrRead 0x340 = some 0 ∧ Machine.csrWrites .rw (.reg 0) = true ∧ bits (0x340 : BitVec 12) 10 2 ≠ 3) ∧
    (Machine.csrWrites .rs (.reg 0) = false ∧ (mach.csrRead 0xF11).isSome = true) ∧ mach.csrRead 0x100 = none ∧
    (csrRefused .rw (.reg 0) 0xF11 = true ∧ csrRefused .rw (.reg 0) 0x340 = false ∧ csrRefused .rs (.reg 0) 0xF11 = false) := by
  decide +kernel

theorem witness_InterruptsAndHandlerEntryComplete :
    ((timed 0).me.ctlReady 1000 = true ∧ (timed 0).me.irq 1000 = some 7 ∧ (timed 0).me.timerStop 1000 = true) ∧
    ((timed 1001).me.timerStop 1000 = true ∧ ((timed 1001).me.ctlReady 1000 && (timed 1001).me.irq 1000 == some 7) = false) ∧
    (let c := (machWith fun c => { c with ctl := { c.ctl with timecmp := 1000, mie := 0x80, mstatus := 0x1808 } }).me
     c.ctlReady 1000 = true ∧ c.irq 1000 = some 7 ∧ c.timerStop 1000 = false) ∧ 24 < 64 ∧ 63 < 64 := by
  decide +kernel


/-- A plain result of the S stream that is due. -/
def dueS : Result := mach.result .s 0 (.s 1 5) 0

/-- An open copy of one row of 256 bytes, sent, from `src` (SPACE in bits 63:60) to `dst`, in entry 0. -/
def openCopy (src dst : W64) : Copy :=
  { entry := 0, num := 0, op := 1, fn := 0, refill := none, pn := 1, inc := 2, evt := true, acq := none, rm := 0, chan := 0,
    desc := bytesImage 512 (leBytes 8 src.toNat ++ leBytes 8 dst.toNat ++ leBytes 8 0 ++ leBytes 4 1 ++ leBytes 4 256), dsrc := 0, ddst := 0,
    idx := [], timed := false, issued := 900, units := [], sent := 1, rows := [⟨0, 950, [], false⟩], fault := none, doneAt := none, chain := none,
    nfl := 0, writes := [], gid := 0, told := false }

/-- The machine with copies in flight. -/
def withCopies (ks : List Copy) : Mach := machWith fun c => { c with xe := { c.xe with copies := ks } }

theorem witness_BlockAndResultEventsComplete :
    let b : QBlock := ⟨5, 1, 900⟩
    let q (e : Option DirEntry) := (machWith fun c => { c with seq := { c.seq with queue := [b], dir := (e.map fun x => (5, x)).toList } }).me
    ((q (some ⟨0, 1, none⟩)).seq.queue = b :: [] ∧ (q (some ⟨0, 1, none⟩)).seq.entry b.num = some ⟨0, 1, none⟩) ∧
    ((q none).seq.queue = b :: [] ∧ (q none).seq.entry b.num = none) ∧
    ((q (some ⟨0, 1, some (0x02, 0, 8)⟩)).seq.queue = b :: [] ∧
      (q (some ⟨0, 1, some (0x02, 0, 8)⟩)).seq.entry b.num = some ⟨0, 1, some (0x02, 0, 8)⟩) ∧
    (let c := (machWith fun c => { c with flight := [dueS] }).me
     (c.firstLanding 1000 false).or (c.firstLanding 1000 true) = some (1000, 0, .result 0 dueS)) ∧
    (let u : CopyUnit := { row := 0, e0 := 0, e1 := 256, src := none, dst := [], askAt := 900, readAt := 900, haveAt := 900, depAt := 950, writeAt := 1000, newAt := none,
                           puts := none, written := false }
     let m := withCopies [{ openCopy 0x4000 0x5000 with timed := true, units := [u] }]
     (m.me.firstLanding 1000 false).or (m.me.firstLanding 1000 true) = some (900, 3, .unit 0 0)) ∧
    (machX 0 0 held).me.stop = some { Stop.new 900 with held := true } := by
  decide +kernel

theorem witness_GlobalArrivalsComplete :
    let g : GLoad := { id := 4, dst := 1, va := 0x5000, pa := some 0x5000, bytes := 8, signed := false, atom := none, acq := none, issued := 900,
                       line := 0, lane := 0, walk := false, doneAt := none }
    let a : AtomOp := ⟨0, true, true, 1, 0⟩
    let with_ (g : GLoad) : Mach := machWith fun c => { c with glb := { c.glb with loads := [g] } }
    (((with_ g).core 0).load 4 = some g ∧ g.pa = some 0x5000 ∧ g.atom = none ∧ g.doneAt = none) ∧
    ((with_ { g with atom := some a, acq := some 8 }).core 0).load 4 = some { g with atom := some a, acq := some 8 } ∧
    (((with_ { g with pa := none, walk := true }).core 0).load 4 = some { g with pa := none, walk := true } ∧ (with_ g).me.hold = none) ∧
    (let w (va : Nat) : Walk := { id := 4, va := va, write := true, atomic := false, done := false, fault := none }
     let m (va : Nat) := machWith fun c => { c with glb := { c.glb with walks := [w va] } }
     ((m 0x5000).core 0).load 4 = none ∧ ((m 0x5000).core 0).glb.walks.find? (fun w => w.id == 4 && !w.done) = some (w 0x5000) ∧
     ((m 0x5000).walkCore 0 0x5000 .write).2.toOption = some 0x5000 ∧
     (match ((m 0).walkCore 0 (2 ^ 40) .write).2 with | .error (.fault code _) => code == 0x11 | _ => false) = true) := by
  decide +kernel

/-- Ring 0 of two slots bound to handle 1, whose rows lie in the quad scratchpad (`space` 1) or in global memory (`space` 3). -/
def refillMach (space : Byte) : Mach :=
  machWith fun c => { c with
    mx := { c.mx with rings := c.mx.rings.set 0 ⟨0x400000000, 0x20201000, none, 0⟩ }
    port := { c.port with hnds := [(1, bytesImage 512 (leBytes 6 0x10000 ++ [0, space * 16] ++ leBytes 4 4096 ++ leBytes 4 16 ++ leBytes 4 4096))] } }

/-- How an access ends: with its result, a fault or a page to be pulled. -/
def endKind : Except WalkEnd α → Nat
  | .ok _ => 0
  | .error (.fault _ _) => 1
  | .error (.pull _) => 2
  | .error (.leaf ..) => 3

/-- A unit not yet written. -/
def openUnit : CopyUnit := ⟨0, 0, 32, none, [], 900, 900, 900, 950, 2000, none, none, false⟩

theorem witness_CopyEventsComplete :
    (let k := { openCopy 0x4000 0x5000 with doneAt := some 999 }
     ((withCopies [k]).core 0).copy 0 = some k ∧ k.doneAt = some 999 ∧ 999 < mach.now ∧ k.unitsDone = true ∧ k.chain = none ∧
     ({ k with timed := true, units := [openUnit] } : Copy).unitsDone = false ∧
     (let w := { k with chain := some ⟨0, none⟩ }
      let m := (withCopies [w]).modMe fun c => { c with mx := { c.mx with chain := some ⟨1, none⟩ } }
      (m.core 0).copy 0 = some w ∧ w.fault = none ∧ w.chain.isSome ∧ (m.core 0).mx.chain.isSome) ∧
     (let w := { k with chain := some ⟨0, none⟩, timed := true, units := [openUnit] }
      ((withCopies [w]).core 0).copy 0 = some w ∧ w.fault = none ∧ w.chain.isSome ∧ w.unitsDone = false ∧ ((withCopies [w]).core 0).mx.chain = none)) ∧
    (let k := openCopy 0x4000 0x3000000000008000
     let q : Copy := { k with desc := k.desc ||| 2 <<< 384 }
     let place (m : Mach) (k : Copy) := endKind (m.rowPlace 0 k true 0 (k.rowAddr true 0).toNat).2
     (withCopies [k]).rowOut 0 0 0 = some (k, ⟨0, 950, [], false⟩) ∧ k.inPad false = true ∧ k.refill = none ∧ k.quant = false ∧
     q.quant = true ∧ q.inPad true = false ∧ place (withCopies [k]) k = 0 ∧ place { withCopies [k] with dev := [] } k = 1 ∧
     place { withCopies [k] with dev := tables.writeBlock 0x4000 (leBytes 8 0xCF) } k = 2 ∧
     endKind ((withCopies [q]).rowPlace 0 q true 0 (q.scaleAddr + 0 * q.rowScales)).2 = 0) ∧
    (let k := openCopy 0x3000000000008000 0x5000
     let place (m : Mach) := endKind (m.rowPlace 0 k false 0 (k.rowAddr false 0).toNat).2
     (withCopies [k]).rowOut 0 0 0 = some (k, ⟨0, 950, [], false⟩) ∧ k.op ≠ 6 ∧ k.inPad false = false ∧ k.refill = none ∧ k.quant = false ∧
     ({ k with desc := k.desc ||| 2 <<< 384 } : Copy).quant = true ∧ k.inPad true = true ∧
     ({ k with refill := some 0 } : Copy).refill ≠ none ∧ place (withCopies [k]) = 0 ∧ place { withCopies [k] with dev := [] } = 1 ∧
     place { withCopies [k] with dev := tables.writeBlock 0x4000 (leBytes 8 0xCF) } = 2) ∧
    (let h : Chan := ⟨false, 0x300, 256, 1, [], 256, none, some (256, 1, 2, 1000)⟩
     ((machWith fun c => { c with xe := { c.xe with chans := c.xe.chans.set 7 (some h) } }).core 0).chan 7 = some h ∧
     h.arm = some (256, 1, 2, 1000) ∧ 256 ≤ h.mark ∧ 1000 ≤ mach.now) := by
  decide +kernel

theorem witness_CopyEventsComplete_refill :
    ∀ x ∈ [((1 : Byte), true), (3, false)],
      let m := refillMach x.1
      let c := m.core 0
      let g := c.ring 0
      let h := c.tileTables.hnd (ringHandle g.w1)
      let k := c.refillCopy m.now 0 g.row h (ringBase g.w0 + (ringHead g.w1 + ringCount g.w1 + c.tilesDue 0) % (ringSize g.w0 / 4096) * 4096)
      let src := m.side 0 k false
      let dst := m.side 0 k true
      c.refillDue m.now 0 = true ∧ fetchable h = true ∧
      m.unitsTraps 0 k false src ++ m.rowsTraps 0 k false src 0 ++ m.unitsTraps 0 k true dst ++ m.rowsTraps 0 k true dst 0 = [] ∧
      m.sideTimed 0 k false src = x.2 ∧
      (x.2 = true → (m.refillSched 0 k).noSlot = false) := by
  decide +kernel

/-- A barrier of the partition with core 0 its only member. -/
def bar : Barrier :=
  { ref := ⟨0, .part, 0⟩, expect := 1, track := true, members := [0], arrived := 0, gen := 0, coming := [], last := [], reached := [], going := [],
    waiting := [] }

theorem witness_CoreWaitEventsComplete :
    (let m := { mach with bars := [{ bar with coming := [(1000, 0)] }] }
     (m.bar bar.ref).coming.find? (fun x => x.2 == 0 && decide (x.1 ≤ m.now)) = some (1000, 0)) ∧
    (∀ starved ∈ [true, false],
      let m := { mach with bars := [{ bar with going := [(1000, 0, 0, starved)] }] }
      (m.bar bar.ref).going.find? (fun x => x.2.1 == 0 && decide (x.1 ≤ m.now)) = some (1000, 0, 0, starved) ∧ (m.core 0).stop = none ∧
      ∀ t ∈ [900, 1000], ((m.modCore 0 fun c => { c with stop := some (Stop.new t) }).core 0).stop = some (Stop.new t)) ∧
    (let left (f : Bind → Bind) (x : List Nat) : Bool :=
       let m : Mach := { mach with cores := List.replicate 96 core ++ [{ core with bound := core.bound.map fun b => f { b with left := x } }] }
       (m.core 96).bound.any fun b => !b.left.isEmpty
     let released (b : Bind) : Bind := { b with left := b.left.filter (· != Stream.v.idx) }
     left id [1] = true ∧ left released [1] = false ∧ left id [1, 2] = true ∧ left released [1, 2] = true ∧ left id [] = false) ∧
    (let m := mach.setDom (.core 0 54) ⟨.waking true 1000, none, 0⟩
     (m.dom (.core 0 54)).st = .waking true 1000 ∧ 1000 ≤ m.now) ∧
    (let m := mach.setDom (.die 0 31) ⟨.on, some (1000, true), 999⟩
     (m.dom (.die 0 31)).pend = some (1000, true) ∧ 1000 ≤ m.now) ∧
    (((machWith fun c => { c with ctl := { c.ctl with requests := [(3, 0, 0, 0)] } }).core 0).ctl.requests.any fun r => r.1 == 3) = true := by
  decide +kernel


/-- The machine with queue 0 of function 0 being served. -/
def queueMach (f : Queue → Queue) : Mach :=
  let x : Queue := f { Queue.reset with
    en := true, state := .run, ring := 0x3000000000005000, rlog := 4, wins := List.replicate 4 ⟨3, 0x6000, 0x100, 7, 0⟩
    pkt := some { index := 0, pc := 0, steps := 0, loop := none, tx := none, rearm := false } }
  mach.modFn 0 fun y => { y with queues := [(0, x)] }

/-- A word of queue code with registers 1 and 2 as D and A and the literal `b`. -/
def qword (fn : BitVec 3) (b : BitVec 15) : QWord := ⟨1, 2, fn, true, b⟩

/-- The packet of `queueMach`. -/
def packet : Packet := { index := 0, pc := 0, steps := 0, loop := none, tx := none, rearm := false }

theorem witness_QueueDoorbellsComplete :
    ((queueMach fun x => { x with en := false }).servedQueue.en = false ∧ (queueMach fun x => { x with en := false }).servedQueue.closing = false) ∧
    (queueMach fun x => { x with en := false, closing := true }).servedQueue.closing = true ∧
    (let x := (queueMach fun x => { x with en := false, closing := true, park := some .launch }).servedQueue
     x.closing = true ∧ x.pkt = some packet ∧ x.park = some .launch) ∧ (24 < 25 ∧ 63 < 64) ∧
    (queueMach id).servedQueue.rlog ≠ 0 ∧ ((queueMach id).fn 0).resetP = false ∧
    (let x := (queueMach fun x => { x with pkt := none }).servedQueue
     x.en = true ∧ x.pkt = none ∧ x.state ≠ .off ∧ x.state ≠ .rejected ∧ (16 - x.cons).toNat ≤ 2 ^ x.rlog ∧
      (x.notify - x.cons).toNat ≤ (16 - x.cons).toNat) ∧
    (let x := (queueMach id).servedQueue
     x.en = true ∧ x.pkt = some packet ∧ x.park = none) ∧
    (let x := (queueMach fun x => { x with park := some .launch }).servedQueue
     x.en = true ∧ x.pkt = some packet ∧ x.park = some .launch) ∧
    ((mach.modFn 0 fun x => { x with resetP := true }).fn 0).resetP = true ∧ (mach.fn 0).resetP = false := by
  decide +kernel

theorem witness_PacketsAndTheirEndsComplete_packets :
    (let m := queueMach fun x => { x with state := .idle, pkt := none, notify := 1 }
     let x := m.servedQueue
     x.state = .idle ∧ x.pkt = none ∧ x.park = none ∧ x.wake ≤ m.now ∧ (m.fn 0).paused = false ∧ x.cons ≠ x.notify ∧
     (m.qRead 0 (bits x.ring 60 4) (x.ring.toNat % 2 ^ 48 + 64 * (x.cons.toNat % 2 ^ x.rlog)) 64).toOption.isSome = true ∧ m.canStart 0 0 = true ∧
     0 < m.hub.fns.length ∧ x.g.length = 16) ∧
    (queueMach fun x => { x with park := some (.done 15 1) }).servedQueue.park = some (.done 15 1) ∧
    (queueMach fun x => { x with park := some (.go 2) }).servedQueue.park = some (.go 2) ∧
    (let x := (queueMach fun x => { x with pkt := some { packet with steps := 256 } }).servedQueue
     x.pkt = some { packet with steps := 256 } ∧ x.park = none ∧ x.state = .run ∧ x.wake ≤ 1000 ∧ 256 ≤ 256 ∧ x.closing = false) := by
  decide +kernel

theorem witness_QueueStepsComplete :
    (queueMach id).servedQueue.pkt = some packet ∧
    (let m := queueMach fun x => { x with g := x.g.set 2 0xF8 }
     let x := m.servedQueue
     let off := (x.gr 2 + 0).toNat
     off % 8 = 0 ∧ off + 8 ≤ (x.win (qword 4 0)).len ∧ (m.qRead 0 3 (0x6000 + off) 8).toOption.isSome = true ∧
     (m.qWrite 0 3 (0x6000 + off) (leBytes 8 5)).toOption.isSome = true ∧ x.gr 2 ≠ 0) ∧
    (queueMach fun x => { x with pkt := some { packet with tx := some [] } }).servedQueue.pkt = some { packet with tx := some [] } ∧
    ((63 : BitVec 15).signExtend 64 : W64).toInt = 63 ∧ ((0x7FC1 : BitVec 15).signExtend 64 : W64).toInt = -63 ∧
    ((0x7FC0 : BitVec 15).signExtend 64 : W64).toInt = -64 ∧ ((64 : BitVec 15).signExtend 64 : W64).toInt = 64 := by
  decide +kernel

theorem witness_PacketsAndTheirEndsComplete_ends :
    (queueMach id).servedQueue.pkt = some packet ∧
    (let x := (queueMach fun x => { x with g := x.g.set 2 0xF9 }).servedQueue
     (x.gr 2 + 0).toNat % 8 ≠ 0 ∧ (x.win (qword 4 0)).len < (x.gr 2 + 0).toNat + 8) ∧
    ((queueMach id).servedQueue.signal (qword 0 0) false = none ∧ (queueMach id).servedQueue.signal (qword 0 0) true = none) ∧
    ∀ f, min 2048 (Config.msixSize f) ≤ ((0x800 : BitVec 15).signExtend 64 : W64).toNat := by
  refine ⟨by decide +kernel, by decide +kernel, by decide +kernel, fun f => ?_⟩
  have h : ((0x800 : BitVec 15).signExtend 64 : W64).toNat = 2048 := by decide +kernel
  omega

/-- That machine without any table, and with its first GiB still to migrate. -/
def unmapped (m : Mach) (pull : Bool) : Mach := { m with dev := if pull then m.dev.writeBlock 0x4000 (leBytes 8 0xCF) else [] }

theorem witness_PacketsAndTheirEndsComplete_pages :
    ∀ y ∈ [(false, 1), (true, 2)],
      let m := unmapped (queueMach fun x => { x with g := x.g.set 2 0x60F8 }) y.1
      let x := m.servedQueue
      endKind (m.qRead 0 3 0x60F8 8) = y.2 ∧ endKind (m.qWrite 0 3 0x60F8 (leBytes 8 5)) = y.2 ∧ endKind (m.qRead 0 3 0x6008 4) = y.2 ∧
      (0xF8 % 8 = 0 ∧ 0xF8 + 8 ≤ (x.win (qword 4 0)).len) ∧
      x.signal (qword 0 0) false = some 0x60F8 ∧ x.signal (qword 0 0) true = some 0x60F8 ∧ endKind (m.gpa 0 0x60F8 .read) = y.2 ∧
      (let m := unmapped (queueMach fun x => { x with state := .idle, pkt := none, notify := 1 }) y.1
       m.canStart 0 0 = true ∧ endKind (m.qRead 0 3 0x5000 64) = y.2) ∧
      endKind (m.signal 0 0x60F8 fun v => v + 1) = y.2 ∧ endKind (m.txOp 0 [] ⟨1, .dev 0x60F8, 8, 1, 0⟩) = y.2 := by
  decide +kernel

theorem witness_QueueSignalsComplete :
    (let m := queueMach fun x => { x with g := (x.g.set 2 0x60F8).set 1 0xFF }
     let x := m.servedQueue
     x.signal (qword 1 0) false = some 0x60F8 ∧ x.signal (qword 1 0) true = some 0x60F8 ∧
     ((m.gpa 0 0x60F8 .read).toOption.map Prod.snd) = some 0x60F8 ∧ m.dev.value 0x60F8 8 &&& 0xFF = 0 &&& 0xFF ∧
     ¬ (m.dev.value 0x60F8 8 &&& 0xFF ≠ 0) ∧ (m.signal 0 0x60F8 fun v => v + 1).toOption.isSome = true ∧ packet.tx = none) ∧
    (let m := queueMach fun x => { x with pkt := some { packet with tx := some [] } }
     m.servedQueue.pkt = some { packet with tx := some [] } ∧ [].foldl (fun (r : Except WalkEnd (Mach × List Nat)) o => match r with
       | .error e => .error e
       | .ok y => y.1.txOp 0 y.2 o) (.ok (m, [])) = .ok (m, [])) ∧
    (let m := queueMach id
     let w := m.servedQueue.win (qword 0 0)
     ((m.qRead 0 w.space (w.base + 8) 4).toOption.map fun rd => (w.wr - BitVec.ofNat 32 (leValue rd)).toNat) = some 0 ∧ 0 < (w.len - 64) / 8 ∧
     ((m.qWrite 0 w.space (w.base + 64) (leBytes 8 0)).toOption.bind fun m1 => (m1.qWrite 0 w.space w.base (leBytes 4 1)).toOption).isSome = true) ∧
    (let m := queueMach fun x => { x with wins := List.replicate 4 ⟨3, 0x6000, 64, 7, 0⟩ }
     let w := m.servedQueue.win (qword 0 0)
     (w.len - 64) / 8 ≤ 0 ∧ (m.qRead 0 w.space (w.base + 8) 4).toOption.isSome = true) ∧
    ((mach.fn 0).cmdStatus 5 = some 0x85 ∧
     (((mach.modFn 0 fun x => { x with cmds := [⟨5, none⟩] }).fn 0).cmdStatus 5) = none) := by
  refine ⟨by decide +kernel, ⟨by decide +kernel, rfl⟩, by decide +kernel, by decide +kernel, by decide +kernel⟩

/-- A table of 2,048 vectors or fewer holds vector 0, where it holds any. -/
theorem witness_QueueSignalsComplete_irq (f : Nat) (h : 0 < Config.msixSize f) : (0 : W64).toNat < min 2048 (Config.msixSize f) := by
  have : (0 : W64).toNat = 0 := by decide +kernel
  omega

/-- A machine whose function 0 belongs to partition 0, with a job card of a command-block task at 0x7000 of partition `part`. -/
def cardMach (part : Byte) : Mach :=
  let m := queueMach fun x => { x with g := x.g.set 2 0x7000 }
  { withBytes m 0x7000 (leBytes 2 2 ++ [0, 0, 0, part] ++ leBytes 2 1 ++ leBytes 8 0 ++ leBytes 8 0x8000) with
    hub := { m.hub with mgmt := { m.hub.mgmt with parts := [Tests.part], fmap := List.replicate 25 0 } } }

theorem witness_LaunchesComplete :
    (((queueMach id).modFn 0 fun x => { x with jsize := 1 }).fn 0).acceptRoom = false ∧
    (let m := cardMach 0
     let t := { task with fn := 0, part := 0 }
     (m.fn 0).acceptRoom = true ∧ m.windowRoom 0 = true ∧
     ({ m with hub := { m.hub with tasks := List.replicate 256 t } } : Mach).windowRoom 0 = false ∧
     (match m.card 0 0 0x7000 0 fun _ _ => true with | .task t => t.part == 0 | _ => false) = true ∧
     (match (unmapped (cardMach 0) true).card 0 0 0x7000 0 fun _ _ => true with | .pulling g => g == 0 | _ => false) = true ∧
     (match (cardMach 1).card 0 0 0x7000 0 fun _ _ => true with | .refused st => st == 0x80 | _ => false) = true ∧
     (0x7000 < 2 ^ 48 ∧ 2 ^ 48 ≤ (0x1000000000000 : W64).toNat)) ∧
    (let t := { task with port := { PPort.reset with failed := some (command 0 nopTile) } }
     let m := { taskMach t with hub := { (taskMach t).hub with fns := mach.hub.fns } }
     ((m.task 7).filter fun t => t.fn == 0) = some t ∧ t.state ≠ .done ∧ t.port.failed.isSome = true) ∧
    ((mach.task 7).filter fun t => t.fn == 0) = none := by
  decide +kernel


/-- A machine whose task has its chain at the command block at 0x8000, with `n` commands, the first that of a tile instruction with TOP `top`. -/
def chainMach (t : Task) (n : Byte) (top : BitVec 5) : Mach :=
  withBytes (taskMach t) 0x8000 (leBytes 8 0 ++ [n, 0, 0, 0, 0, 0, 0, 0] ++ leBytes 16 (command top fillTile).words.toNat)

theorem witness_TasksAndCommandsComplete_submit :
    let t (b i : Nat) : Task := { task with port := { PPort.reset with block := b, inBlk := i } }
    (∀ x ∈ [(0, 0), (0x8000, 0), (0x8000, 1)],
      (chainMach (t x.1 x.2) 1 9).served = some (t x.1 x.2) ∧ (chainMach (t x.1 x.2) 1 9).submitDue (t x.1 x.2) = true ∧
      (chainMach (t x.1 x.2) 1 9).portWaits (t x.1 x.2) = false ∧
      ((chainMach (t x.1 x.2) 1 9).modFn 0 fun y => { y with waitJ := [JEntry.new 2 0 0 0 false] }).portWaits (t x.1 x.2) = true) ∧
    (∀ x ∈ [((0 : Byte), 0), (16, 0), (1, 1), (15, 1)],
      let r := (chainMach (t 0x8000 0) x.1 9).gpaRead 0 0x8000 256
      r.toOption.isSome = true ∧ (1 ≤ field (r.toOption.getD []) 8 1 ∧ field (r.toOption.getD []) 8 1 ≤ 15 ↔ x.2 = 1)) ∧
    (command 16 fillTile).tile.1 = 16 ∧ (command 9 fillTile).tile.1 = 9 := by
  decide +kernel

/-- Partition 0 with quad 1, whose cores are free. -/
def free : Part := { part with quads := 2 }

/-- The choice of all four cores of quad 1. -/
def choice (bs : List (List Nat)) : BindChoice := { blocks := bs, origin := 0, s1root := 0x1000, pins := [], quadSegs := [], dieSegs := [] }

/-- The machine with that partition, one task, and a native image at 0x8000. -/
def bindMach (t : Task) : Mach :=
  let m := taskMach t
  let image := leBytes 4 1 ++ leBytes 4 1 ++ leBytes 4 1 ++ leBytes 4 1 ++ leBytes 8 0x80 ++ leBytes 8 0x88 ++ leBytes 8 0xB0 ++
    List.replicate 24 0 ++ [0x1F] ++ List.replicate 63 0 ++ leBytes 8 (2 ^ 63 + 2 ^ 32)
  { withBytes m 0x8000 image with hub := { m.hub with mgmt := { m.hub.mgmt with parts := [free] } } }

theorem witness_TasksAndCommandsComplete_tasks :
    (∀ x ∈ [(TaskState.ready, false, [4, 5, 6, 7]), (.saved, false, [4, 5, 6, 7]), (.ready, true, [4])],
      let t : Task := { task with state := x.1, native := x.2.1, cores := [], image := 0x8000, imgLen := 0xD8 }
      let m := bindMach t
      m.task 7 = some t ∧ m.part t.part = some free ∧ m.waiting free t = true ∧ m.choiceOk t free (choice [x.2.2]) = true ∧
      (parseImage ((m.makeRoom [x.2.2].flatten).image? t.fn t.image) t.imgLen).isSome = true ∧ m.hub.tasks = [t]) ∧
    (let t : Task := { task with port := { PPort.reset with done := true } }
     (taskMach t).served = some t ∧ (taskMach t).taskOver t = true ∧ t.csig = 0) ∧
    (let t : Task := { task with port := { PPort.reset with done := true }, csig := 0x6000 }
     (taskMach t).taskOver t = true ∧
     ((((t.cores.foldl (fun a c => insertCore c a) []).foldl (fun m c => m.boundary c 8) (taskMach t)).unbind t).signal 0 0x6000 (fun v => v + 1)).toOption.isSome
       = true) := by
  decide +kernel

/-- The choice of quad 1 with one pinned page. -/
def pinChoice : BindChoice := { choice [[4, 5, 6, 7]] with pins := [{ vbase := 0x10000, units := 1, pbase := 0x10000, r := false, w := false }] }

theorem witness_TasksAndCommandsComplete_pins :
    (let t : Task := { task with state := .ready, native := false, cores := [], image := 0x8000, imgLen := 0xD8 }
     let m := unmapped (bindMach t) true
     m.task 7 = some t ∧ m.part t.part = some free ∧ m.waiting free t = true ∧ m.choiceFits t free pinChoice = true ∧ m.pinPages t pinChoice = [some 0] ∧
     (bindMach t).pinPages t pinChoice = [] ∧ m.hub.tasks = [t]) ∧
    (let own := true
     let t : Task := { task with state := .ready, native := own, cores := [], image := 0x8000, imgLen := 0xD8 }
     let m := unmapped (bindMach t) true
     m.task 7 = some t ∧ m.part t.part = some free ∧ m.waiting free t = true ∧ m.choiceOk t free (choice [[4]]) = true ∧ m.hub.tasks = [t] ∧
     (parseImage ((m.makeRoom [4]).image? t.fn t.image) t.imgLen).isNone = true ∧ m.pullOf t.fn t.image t.imgLen = some 0) ∧
    (let t : Task := { task with state := .ready, native := false, cores := [] }
     let u : Task := { t with seq := 6, prio := 7 }
     let m := { bindMach t with hub := { (bindMach t).hub with tasks := [t, u] } }
     m.task 7 = some t ∧ u ∈ m.hub.tasks ∧ u.seq ≠ t.seq ∧ m.waiting free u = true ∧ m.above free t u = false) := by
  decide +kernel

theorem witness_TasksAndCommandsComplete_pages :
    (∀ y ∈ [(false, 1), (true, 2)],
      let t : Task := { task with port := { PPort.reset with block := 0x8000 } }
      let m := unmapped (chainMach t 1 9) y.1
      m.served = some t ∧ m.submitDue t = true ∧ endKind (m.gpaRead 0 0x8000 256) = y.2) ∧
    (∀ y ∈ [(false, 1), (true, 2)],
      let t : Task := { task with port := { PPort.reset with done := true }, csig := 0x6000 }
      let m := unmapped (taskMach t) y.1
      m.served = some t ∧ m.taskOver t = true ∧
      endKind ((((t.cores.foldl (fun a c => insertCore c a) []).foldl (fun m c => m.boundary c 8) m).unbind t).signal 0 0x6000 fun v => v + 1) = y.2) ∧
    (let t : Task := { task with state := .ready, native := false, cores := [] }
     (bindMach t).choiceFits t free (choice [[4, 5]]) = false ∧ (bindMach task).waiting free task = false ∧ (bindMach task).task 7 = some task) := by
  decide +kernel

theorem witness_JournalAndPagePullsComplete_journal :
    let e := JEntry.new 3 1 0 0 false
    (mach.fn 0).waitJ = [] ∧
    (let m := mach.modFn 0 fun x => { x with waitJ := [e] }
     (m.fn 0).waitJ = [e] ∧ (m.tryEntry 0 e).isSome = true) ∧
    (let m := mach.modFn 0 fun x => { x with waitJ := [e], s2root := none }
     (m.fn 0).waitJ = [e] ∧ (m.tryEntry 0 e).isNone = true) ∧
    (let m := mach.modFn 0 fun x => { x with waitJ := [e, e] }
     (m.fn 0).waitJ = e :: [e] ∧ (m.tryEntry 0 e).isSome = true) ∧
    (let v : Inv := { fn := 0, seq := 3, gpa := 0, pages := 1, queue := 0, waits := [(0, 9)] }
     let m := { mach with hub := { mach.hub with invs := [v] } }
     m.hub.invs.find? (fun v => v.seq == 3) = some v ∧ m.invDone v = true) := by
  decide +kernel

theorem witness_PreemptionCompletes :
    (let u : Task := { task with seq := 8, fn := 1, state := .ready, cores := [], edges := [] }
     let m := { taskMach task with now := 14000, hub := { (taskMach task).hub with tasks := [task, u], mgmt := { mach.hub.mgmt with parts := [part] } } }
     m.served = some task ∧ m.part task.part = some part ∧ m.sliceDue task = true) ∧
    (let t : Task := { task with preempt := some (0, false) }
     (taskMach t).served = some t ∧ t.native = false ∧ t.state = .bound ∧ t.killed = none ∧ t.port.running = [] ∧ t.port.pending = none ∧
     t.port.failed = none ∧ t.port.done = false ∧ t.preempt = some (0, false) ∧ 0 + 5600000 ≤ ({ taskMach t with now := 5600000 } : Mach).now) ∧
    (let t : Task := { task with preempt := some (0, true) }
     (taskMach t).toStop t = true ∧
     (let m := (taskMach t).modCore 0 fun c => { c with stop := some { Stop.new 900 with held := true, preempt := true } }
      m.toStop t = false ∧ m.taskSavable t = true)) ∧
    (let m := { taskMach task with now := 14000001, hub := { (taskMach task).hub with mgmt := { mach.hub.mgmt with parts := [{ part with watch := 10 }] } } }
     m.watchdogDue task = true) := by
  decide +kernel

/-- A function in post-copy mode whose page at 0x10000 is still to be pulled. -/
def pullMach : Mach :=
  let m := mach.modFn 0 fun x => { x with pull := some ⟨0, 1000, 0x20000, 64, 0⟩, pulls := [(0x10000, 900)], s2root := some 0x5000 }
  let table (d : Memory) (a v : Nat) : Memory := d.writeBlock a (leBytes 8 v)
  { m with dev := table (table (table (table m.dev 0x5000 0x6001) 0x6000 0x7001) 0x7000 0x8001) 0x8008 0x3008F }

theorem witness_JournalAndPagePullsComplete_pulls :
    (pullMach.fn 0).pull = some ⟨0, 1000, 0x20000, 64, 0⟩ ∧ (pullMach.fn 0).s2root = some 0x5000 ∧
    migratingLeaf pullMach.dev 0x10000 4 0 0x5000 = some (0x8008, 0x3008F, 0x10000) ∧ pullMach.pullMay 0 0x10000 = true ∧
    ((pullMach.modFn 0 fun x => { x with ownPull := some (0x20000, 950) }).fn 0).ownPull = some (0x20000, 950) ∧ pullMach.pullMay 0 0x40000 = false ∧
    (pullMach.fn 0).peers.find? (fun y => y.num == 0) = none ∧
    (let y : PeerEntry := ⟨0, 0x0008, 1⟩
     let m := pullMach.modFn 0 fun x => { x with peers := [y] }
     (m.fn 0).peers.find? (fun y => y.num == 0) = some y ∧ m.liveLinks y = []) := by
  decide +kernel

/-- A machine with a mailbox command due whose argument block stands at 0x9000. -/
def mailMach (code : Nat) (args : List Byte) (f : Mgmt → Mgmt) : Mach :=
  let m := withBytes mach 0x9000 args
  m.modMgmt fun g => f { g with mbcmd := BitVec.ofNat 32 code, mbstat := 0x80000000, mbarg := 0x9000, args := bytesImage 512 args, parts := [part] }

/-- A saved image of no section at 0xA000. -/
def image (reg : Bool) : SaveImage :=
  { area := 0xA000, fn := 0, ver := 1, shape := 0, bytes := saveBytes 1 0 0 0 [], reg := reg, spoilt := false, func := Fn.reset, tasks := [] }

/-- The CMAC of a block or more has sixteen bytes. -/
theorem cmac_length (ks : List W32) (sub : List Byte) : ∀ (b : List Byte) (bs : List (List Byte)) (x : List Byte),
    (cmacLoop ks sub (b :: bs) x).length = 16
  | _, [], _ => by simp [cmacLoop, sm4Block, beBytes, leBytes]
  | _, c :: cs, x => cmac_length ks sub c cs _

/-- A TAG has eight bytes. -/
theorem saveTag_length (bs : List Byte) : (saveTag bs).length = 8 := by
  obtain ⟨b, r, h⟩ : ∃ b r, (cmacBlocks (bs.length / 16 + 1) bs).1 = b :: r := by
    rw [cmacBlocks]; split
    · exact ⟨_, _, rfl⟩
    · split <;> exact ⟨_, _, rfl⟩
  simp [saveTag, sm4CmacOf, h, cmac_length]

/-- An image of a header of 32 bytes, its TAG and the rest has a TAG that matches. -/
theorem tag_ok (a r : List Byte) (ha : a.length = 32) : saveTagOk (a ++ saveTag (a ++ leBytes 8 0 ++ r) ++ r) = true := by
  have ht := saveTag_length (a ++ leBytes 8 0 ++ r)
  generalize e : saveTag (a ++ leBytes 8 0 ++ r) = t at ht ⊢
  have e1 : (a ++ t ++ r).take 32 = a := by simp [ha]
  have e2 : (a ++ t ++ r).drop 40 = r := by simp [List.drop_append, ha, ht]
  have e3 : ((a ++ t ++ r).drop 32).take 8 = t := by simp [ha, ht]
  simp only [saveTagOk, e1, e2, e3, e, beq_self_eq_true]

/-- The TAG of that image matches. -/
theorem image_tag (reg : Bool) : saveTagOk (image reg).bytes = true := tag_ok _ _ (by decide +kernel)

/-- The machine with a RESTORE due, and that image, as `f` of it, at 0xA000. -/
def restoreMach (f : Mgmt → Mgmt) : Mach :=
  withBytes (mailMach 3 (leBytes 8 0 ++ leBytes 8 0xA000 ++ leBytes 8 0xFFFF) fun g => f { g with fmap := List.replicate 25 0xFF }) 0xA000 (image true).bytes

/-- What stands at 0xA000 is that image. -/
theorem restore_read (f : Mgmt → Mgmt) : (restoreMach f).sys.readBlock 0xA000 (image true).bytes.length = (image true).bytes :=
  Memory.readBlock_writeBlock (Memory.wf_writeBlock (by decide +kernel) _ _) _ _

/-- A registered image is taken, unless a host has written to it; one that no register names is taken where its bytes and TAG stand. -/
theorem witness_LayoutSaveRestoreComplete_image :
    (restoreMach fun g => { g with images := [image true] }).imageAt 0xA000 = some (image true) ∧
    (restoreMach fun g => { g with images := [{ image true with spoilt := true }] }).imageAt 0xA000 = none ∧
    (restoreMach fun g => { g with images := [image false] }).imageAt 0xA000 = some (image false) := by
  have h := restore_read
  have t := image_tag
  refine ⟨?_, by decide +kernel, ?_⟩
  · have : (restoreMach fun g => { g with images := [image true] }).mgmt.images = [image true] := rfl
    simp [Mach.imageAt, this, h, t, show (image true).reg = true from rfl, show (image true).area = 0xA000 from rfl,
      show (image true).spoilt = false from rfl]
  · have : (restoreMach fun g => { g with images := [image false] }).mgmt.images = [image false] := rfl
    have b : (image false).bytes = (image true).bytes := rfl
    have t' : saveTagOk (image true).bytes = true := t true
    simp [Mach.imageAt, this, b, h, t', show (image false).reg = false from rfl]

theorem witness_MailboxCommandsComplete :
    (∀ x ∈ [(4, [(0, 8)], leBytes 8 0xA000), (5, [(0, 8), (8, 8)], leBytes 8 24 ++ leBytes 8 0x4000), (6, [(0, 8), (16, 16)], leBytes 8 24),
        (7, [(0, 4), (4, 4), (8, 8), (16, 8), (24, 8)], leBytes 4 24 ++ leBytes 4 63), (8, [(0, 4), (4, 4), (8, 8), (16, 8)], leBytes 4 24 ++ leBytes 4 4095),
        (9, [(0, 4), (4, 4), (8, 8), (16, 25)], leBytes 8 0), (10, [(0, 8)], leBytes 8 0), (11, [(0, 8), (8, 8), (0x20, 32)], leBytes 8 24)],
      let m := mailMach x.1 x.2.2 fun g => { g with images := [image true] }
      m.mbDue x.1 = true ∧ m.mbBlockOk x.2.1 = true) ∧
    (let m := mailMach 4 (leBytes 8 0xA000) fun g => { g with images := [image true] }
     field m.mbArgs 0 8 = 0xA000 ∧ (m.mgmt.images.any fun x => x.reg && x.area == 0xA000) = true) ∧
    (let m := mailMach 4 (leBytes 8 0xB000) id
     (m.mgmt.images.any fun x => x.reg && x.area == 0xB000) = false) ∧
    ((mailMach 5 (leBytes 8 24 ++ leBytes 8 0x4000) id).fnBound 24 = false ∧ (taskMach task).fnBound 0 = true ∧
      field (mailMach 5 (leBytes 8 24 ++ leBytes 8 0x4000) id).mbArgs 8 8 = 0x4000) ∧
    ((mailMach 9 [] id).part 0).isSome = true := by
  decide +kernel

theorem witness_MailboxCommandsComplete_badarg :
    (∀ x ∈ [(4, [(0, 8)]), (5, [(0, 8), (8, 8)]), (6, [(0, 8), (16, 16)]), (7, [(0, 4), (4, 4), (8, 8), (16, 8), (24, 8)]),
        (8, [(0, 4), (4, 4), (8, 8), (16, 8)]), (9, [(0, 4), (4, 4), (8, 8), (16, 25)]), (10, [(0, 8)])],
      let m := mailMach x.1 (List.replicate 63 0 ++ [1]) id
      m.mbDue x.1 = true ∧ m.mbBlockOk x.2 = false) ∧
    (let m := mailMach 11 (List.replicate 16 0 ++ [1]) id
     m.mbDue 11 = true ∧ m.mbBlockOk [(0, 8), (8, 8), (0x20, 32)] = false) ∧
    (∀ x ∈ [(4, [(0, 8)]), (5, [(0, 8), (8, 8)]), (6, [(0, 8), (16, 16)]), (10, [(0, 8)]), (11, [(0, 8), (8, 8), (0x20, 32)])],
      let m := mailMach x.1 (leBytes 8 (2 ^ 48)) id
      m.mbDue x.1 = true ∧ m.mbBlockOk x.2 = true ∧ 2 ^ 48 ≤ field m.mbArgs 0 8) ∧
    (∀ x ∈ [(7, [(0, 4), (4, 4), (8, 8), (16, 8), (24, 8)]), (8, [(0, 4), (4, 4), (8, 8), (16, 8)])],
      let m := mailMach x.1 (leBytes 4 25) id
      m.mbDue x.1 = true ∧ m.mbBlockOk x.2 = true ∧ 25 ≤ field m.mbArgs 0 4) ∧
    ((mailMach 9 (leBytes 4 1) id).mbBlockOk [(0, 4), (4, 4), (8, 8), (16, 25)] = true ∧ ((mailMach 9 (leBytes 4 1) id).part 1).isSome = false) := by
  decide +kernel

theorem witness_LayoutSaveRestoreComplete :
    ((mailMach 1 (leBytes 8 0xB000) id).mbDue 1 = true ∧ (mailMach 1 (leBytes 8 0xB000) id).mgmt.laying = none ∧
      (mailMach 1 (leBytes 8 0xB000) fun g => { g with gen := 5 }).layoutOk (List.replicate 512 0) = false) ∧
    ((mailMach 1 [] fun g => { g with laying := some 0 }).mgmt.laying = some 0 ∧ (mailMach 1 [] fun g => { g with laying := some 0 }).mgmt.flipped = false ∧
      (mailMach 1 [] fun g => { g with laying := some 0, flipped := true }).mgmt.flipped = true) ∧
    (let m := mailMach 2 (leBytes 8 0 ++ leBytes 8 0xA000 ++ leBytes 8 0x1000) id
     m.mbDue 2 = true ∧ m.mbBlockOk [(0, 8), (8, 8), (16, 8)] = true ∧ (m.fn 0).paused = false ∧
     ((m.modFn 0 fun x => { x with paused := true }).fn 0).paused = true ∧ m.fnBound 0 = false) ∧
    (let m := restoreMach fun g => { g with images := [image true] }
     m.mbDue 3 = true ∧ m.mbBlockOk [(0, 8), (8, 8), (16, 8), (24, 8), (32, 8), (40, 8)] = true ∧
     (restoreMach id).imageAt 0xA000 = none ∧ m.mgmt.reads.1 ≤ 1 ∧ 1 ≤ m.mgmt.reads.2 ∧ (image true).shape = m.shapeOf 0 ∧ m.fnTasks 0 = [] ∧
     (taskMach task).fnTasks 0 ≠ [] ∧ (taskMach task).shapeOf 0 = 0) := by
  decide +kernel

/-- A layout record of generation 1 that keeps R404, where the routes have room for it. -/
theorem witness_LayoutSaveRestoreComplete_ok (h : ∀ r, Config.layoutFits r = true) :
    let r : List Byte := leBytes 4 1 ++ List.replicate 4 0 ++ List.replicate 25 0xFF ++ List.replicate 479 0
    mach.layoutOk r = true ∧ mach.layoutInUse (layoutOf r) = false ∧ (taskMach task).layoutInUse (layoutOf r) = true := by
  refine ⟨?_, by decide +kernel, by decide +kernel⟩
  unfold Mach.layoutOk
  rw [h, Bool.and_true]
  decide +kernel

theorem witness_RegisterWritesComplete :
    (mach.fn 0).anyEnabled = false ∧ ((queueMach id).fn 0).anyEnabled = true ∧ (mach.fn 0).resetJ = none ∧ (0 < 25 ∧ 24 < 25) ∧
    mach.mgmt.busy = false ∧ (mailMach 1 [] id).mgmt.busy = true ∧ (8 : W64).toNat % 32 = 8 ∧ (20 : W64).toNat % 32 = 20 ∧ (21 : W64).toNat % 32 = 21 ∧
    ((mach.modFn 0 fun x => { x with resetJ := some 5 }).fn 0).resetJ = some 5 ∧
    (0 < ((6 : W32) - BitVec.ofNat 32 5).toNat ∧ ((6 : W32) - BitVec.ofNat 32 5).toNat < 2 ^ 31) ∧ ¬ 0 < ((5 : W32) - BitVec.ofNat 32 5).toNat ∧
    ((0x80000000 : W64).getLsbD 31 = true ∧ (0x80000000 : W64).toNat % 65536 = 0 ∧ (0x8000000C : W64).getLsbD 31 = true ∧ (0x8000000C : W64).toNat % 65536 = 12 ∧
      (0x8000000B : W64).toNat % 65536 = 11) := by
  decide +kernel

theorem witness_ResetsComplete :
    mach.mgmt.laying = none ∧ (mailMach 1 [] fun g => { g with laying := some 0, flipped := true }).mgmt.laying = some 0 ∧
    (mach.fn 1).resetP = false ∧
    (let m := mach.modFn 1 fun x => { x with resetP := true }
     (m.fn 1).resetP = true ∧ (m.fn 1).quiet = false ∧ ∀ t ∈ m.hub.tasks, t.fn = 1 → t.state = .done) ∧
    (let m := mach.modFn 0 fun x => { x with resetP := true, quiet := true }
     (m.fn 0).resetP = true ∧ (m.fn 0).quiet = true ∧ m.mgmt.busy = false ∧ ∀ t ∈ m.hub.tasks, t.fn = 0 → t.state = .done) ∧
    (let m := (taskMach task).modFn 0 fun x => { x with resetP := true }
     (m.fn 0).resetP = true ∧ ∃ t ∈ m.hub.tasks, t.fn = 0 ∧ t.state ≠ .done) := by
  decide +kernel

theorem witness_PowerSequencesComplete :
    mach.module.powered = false ∧ mach.module.bootst &&& 0xF ≠ 4 ∧
    ({ mach.module with bootst := 4 } : Module).bootst &&& 0xF = 4 ∧
    (let x : Module := { mach.module with powered := true, bootst := 1 }
     x.powered = true ∧ x.bootst &&& 0xF = 1 ∧ x.plan = []) ∧
    ({ mach.module with bootst := 0x0200000F } : Module).bootst &&& 0xF = 0xF ∧
    (let x : Module := { mach.module with powered := true, outs := [(3, 100)] }
     x.powered = true ∧ (∃ o ∈ x.outs, o.2 + 70000 ≤ 70100) ∧ ∀ o ∈ x.outs, 70099 < o.2 + 70000) ∧
    (∀ k < 4, (0x100000 : W32) &&& railBits k ≠ railBits k) ∧ PowerCause.therm ≠ .rail ∧
    (let plan : List (Nat × PowerStep) := [(3, .hbm), (9, .ports)]
     plan = (3, .hbm) :: [(9, .ports)] ∧ 3 ≤ 8 ∧ ∀ x ∈ [((9 : Nat), PowerStep.ports)], 8 < x.1) := by
  decide +kernel

/-- R435, R439: the rails rise in the order VDDM, VDDL, VDDX, VDDQ, and fall in the reverse. -/
theorem test_rails : (riseSteps 0 0).map Prod.snd = [.bus true, .rail 0 true, .rail 1 true, .rail 2 true, .rail 3 true] ∧
    fallSteps.map Prod.snd = [.rail 3 false, .rail 2 false, .rail 1 false, .rail 0 false, .bus false] ∧
    0x100000 ||| railBits 0 ||| railBits 1 ||| railBits 2 ||| railBits 3 = railsGood := by decide +kernel

/-- R435, R437, R440: at 115 °C the module powers off and its plan is the rails' fall; RAILFLT latches rail 20. -/
theorem test_thermtrip :
    let m := mach.modModule fun x => { x with powered := true, railst := railsGood }
    (match exec (.throttleUpdate 230 0 0 []) (st m) with | .next t => t.m.module.plan.length | _ => 0) = 5 ∧
    (match exec (.throttleUpdate 229 0 0 []) (st m) with | .next t => t.m.module.powered | _ => false) = true ∧
    (match exec (.railFault 20) (st m) with | .next t => t.m.module.railflt | _ => 0) = 0x100000 := by
  decide +kernel

/-- R4, R155: a write to CSTATE, a read-only register, is ignored, and the instruction ends as one that wrote. -/
theorem test_csr_read_only :
    let i := Instr.rv64Instruction ⟨.csr .rw 0 (.reg 10) 0xFC0, false⟩
    (match exec i (st mach) with | .next t => (t.m.me.ctl.pc, t.m.me.ctl.mcause) | _ => (0, 1)) = (mach.me.ctl.pc + 4, mach.me.ctl.mcause) := by
  decide +kernel

/-- R429: an ACK of SEQ 2 leaves flit 3, and only links that are up carry a peer entry's flits. -/
theorem test_flits :
    let p : PeerEntry := ⟨5, 0x0088, 1⟩
    let l : Link := ((⟨true, 0, 0, 0, 1, []⟩ : Link).put p 2 (.row 0 0 0 0)).put p 2 (.row 0 0 0 1)
    let m := mach.modModule fun x => { x with links := (x.links.set 3 l).set 7 ⟨false, 0, 0, 0, 9, []⟩ }
    (l.acknowledge 2).out = [⟨3, 2, p, .row 0 0 0 1⟩] ∧ (l.acknowledge 2).acked = 2 ∧ m.liveLinks p = [3] := by
  decide +kernel

theorem witness_LinksErrorsAndThrottlingComplete_links :
    (∀ l ∈ [(⟨true, 0, 0, 0, 1, [⟨1, 2, ⟨3, 0xC000, 9⟩, .row 0 4 0 0⟩]⟩ : Link), ⟨true, 0, 0, 8, 0, []⟩, ⟨false, 0, 0, 0, 0, []⟩],
      (mach.modModule fun x => { x with links := x.links.set 15 l }).module.links[15]? = some l) ∧
    (taskMach task).task 7 = some task ∧ task.state ≠ .done ∧ mach.task 7 = none := by
  decide +kernel

/-- A flit of a peer that asks for a write and a read of pages a function maps, or of one that it does not map. -/
def peerFlit (a : Nat) : Flit := { ok := true, type := 2, seq := 1, ack := 0, ctx := 7, writes := [(a, 5)], reads := [(a, 8)] }

theorem witness_LinksErrorsAndThrottlingComplete_peer :
    (∀ a, ((peerFlit a).type = 1 ∨ (peerFlit a).type = 2) ∧ ((peerFlit a).writes ≠ [] ∨ (peerFlit a).reads ≠ []) ∧
      1 ≤ (peerFlit a).type.toNat ∧ (peerFlit a).type.toNat ≤ 4 ∧ (peerFlit a).seq = 0 + 1) ∧
    ((mach.peerWrite 0 [(0x8000, 5)]).bind fun m => m.peerRead 0 [(0x8000, 8)]) = some [[5, 0, 0, 0, 0, 0, 0, 0]] ∧
    (mach.peerWrite 0 [(2 ^ 47, 5)]).isNone = true := by
  refine ⟨fun a => ⟨.inr rfl, .inl (by simp [peerFlit]), (by decide : 1 ≤ (2 : BitVec 16).toNat),
    (by decide : (2 : BitVec 16).toNat ≤ 4), (by decide : (1 : BitVec 16) = 0 + 1)⟩, by decide +kernel, by decide +kernel⟩

theorem witness_LinksErrorsAndThrottlingComplete_throttling :
    mach.module.thrctl.length = 4 ∧ 230 ≤ (0xE6 : BitVec 16).toNat ∧ (0xE5 : BitVec 16).toNat < 230 ∧
    (let v : W32 := 0xF06
     let ws := mach.module.thrctl.set 0 (v &&& 0xF07)
     bits v 0 3 ≠ 7 ∧ (∀ d ∈ List.range 4, (ws.filter fun w => (bits w 8 4).getLsbD d).length = 1) ∧ mach.mgmt.parts = []) := by
  decide +kernel


theorem witness_ResultsLand :
    0 < mach.cores.length ∧ ∀ d : Dest, (mach.result .s 1 d 0).dest = d := ⟨by decide, fun _ => rfl⟩

theorem witness_StoresReachTheirBytesOnly :
    let l : Lane := { lane with b := 0, fn := 3, ext := some (ext 0) }
    let v : Lane := { lane with a := 0, kb := 1 }
    Claims.hasPad mach (.core 0) ∧ mach.cur < mach.cores.length ∧ SReady (machS [(3, 0x17FFF8)]) l (useSSt l (machS [(3, 0x17FFF8)])) ∧
    VReady (machS [(2, 0x17F000)]) v (maskClusters (mach.me.mreg 0)) (useVst v (machS [(2, 0x17F000)]) (mach.me.mreg 0)) := by
  unfold Claims.hasPad SReady VReady; decide +kernel

/-- Whether an instruction runs to a next state whose core has no stop. -/
def goesOn (i : Instr) (s : State) : Bool := match exec i s with | .next t => t.m.me.stop.isNone | _ => false

theorem witness_LanesChangeNoRegister :
    (∀ i ∈ [Instr.sAdd lane, .vaddF lane, .msems { laneLit 3 with ext := some (ext 3) }, .xsems { laneLit 3 with ext := some (ext 3) }, .hbind lane],
      i.lane?.isSome = true ∧ goesOn i (st mach) = true) ∧ mach.me.stop = none ∧ mach.cur < mach.cores.length ∧
    ∀ b, (⟨mach, some (0, 1000, mach), []⟩ : State).base = some b → b.2.2.cores.length = mach.cores.length := by
  refine ⟨?_, by decide +kernel, by decide +kernel, fun b h => by cases h; rfl⟩
  decide +kernel

theorem witness_ControlCoreFrame :
    (∀ i ∈ [Rv.alu .add 10 10 11, .store .d 0 10 0xFF8, .ecall], goesOn (.rv64Instruction ⟨i, false⟩) (st mach) = true) := by
  decide +kernel

theorem witness_PredicatedOffLanes :
    let l : Lane := { lane with p := 1, b := 4, ext := some (ext 0) }
    mach.me.sBlocked mach.now = false ∧ mach.me.preg l.p.toNat = false ∧ modeStep l.b = true ∧ mach.me.pending mach.now l.a.toNat = false ∧
    (Instr.sAdd l).lane? = some (.s, 1, l, none) ∧ Tile.asLane { nopTile with p := 1 } = ⟨0, 1, 0, 0, 0, 0, 0, none⟩ ∧ mach.curP = none := by
  decide +kernel

theorem witness_AllFalseSlotsHaveNoEffect :
    let l : Lane := { lane with p := 1 }
    (Instr.vaddF l).lane?.map (fun x => (x.1, x.2.2)) = some (.v, l, none) ∧ (Instr.hbind l).lane?.map (fun x => (x.1, x.2.2)) = some (.h, l, none) ∧
    mach.me.mreg l.p.toNat = 0 ∧ mach.staleTraps [] [.m l.p.toNat] = [] := by
  decide +kernel

theorem witness_TrapsStopTheStreams :
    (let m := mach.setDom (.core 0 48) Dom.offDom
     m.me.stop = none ∧ m.me.mreg lane.p.toNat ≠ 0 ∧ m.lcTraps (maskClusters (m.me.mreg 0)) ≠ [] ∧
     ∀ x ∈ Claims.vectorLanes lane m.me, (VUse.ops x.2.2.1 lane.dst.toNat).regs.any (m.me.pending m.now) = false) ∧
    (let m := machX 0 0 held
     (m.core 0).stop = some { Stop.new 900 with held := true }) ∧
    (mach.core 0).scal.phase = none ∧ ((st mach).undo.find? fun x => x.1 == 0) = none ∧ (st mach).base = none ∧
    (⟨mach, some (0, 1000, mach), []⟩ : State).base = some (0, mach.now, mach) := by
  decide +kernel

theorem witness_PacketRegisters :
    let m := queueMach fun x => { x with state := .idle, pkt := none, notify := 1 }
    let x := m.servedQueue
    0 < m.hub.fns.length ∧ x.g.length = 16 ∧ m.canStart 0 0 = true ∧
    (m.qRead 0 (bits x.ring 60 4) (x.ring.toNat % 2 ^ 48 + 64 * (x.cons.toNat % 2 ^ x.rlog)) 64).toOption.isSome = true ∧
    (m.queue 0 0).closing = false := by
  decide +kernel

theorem witness_EndStatusIsKept :
    let x := (queueMach id).servedQueue
    x.pkt = some packet ∧ x.closing = false ∧ packet.rearm = false ∧ 0 < (queueMach id).hub.fns.length ∧
    (((0xFF : BitVec 15).signExtend 64 : W64).setWidth 8 ≠ (0 : Byte)) ∧ (((0x100 : BitVec 15).signExtend 64 : W64).setWidth 8 = (0 : Byte)) := by
  decide +kernel

theorem witness_StepKeepsMemoriesCanonical :
    (mach.dev.Wf ∧ mach.host.Wf ∧ (∀ p ∈ mach.peers, Memory.Wf p.2)) ∧ (st mach).base = none ∧ isNext (Machine.step (st mach)) = true := by
  decide +kernel

theorem witness_LaneEncodingsRoundTrip :
    (∀ i ∈ [Instr.sAdd lane, .vaddF { lane with fn := 1 }, .mma { lane with dst := 0, ext := some (ext 1) }, .xcopy { lane with kb := 1, ext := some { ext 0 with ka := 1, kc := 1 } } none,
        .hbind lane], i.lane?.isSome = true ∧ i.wf = true) := by
  decide +kernel

theorem witness_TileQueueAndControlEncodingsRoundTrip :
    (Instr.tCvt cvtTile).tile? = some (6, cvtTile) ∧ (Instr.tCvt cvtTile).wf = true ∧
    (Instr.qcAdd (qword 0 0x7FFF)).queue?.isSome = true ∧ (Instr.qcAdd (qword 0 0x7FFF)).wf = true ∧
    (encodeControl (.cblk 31 31)).isSome = true ∧ (Instr.cblk 31 31).wf = true ∧
    (encodeControl (.rv64Instruction ⟨.branch .geu 31 31 0x1000, false⟩)).isSome = true ∧ (Instr.rv64Instruction ⟨.branch .geu 31 31 0x1000, false⟩).wf = true := by
  decide +kernel

/-- The machine with the block of one S lane, ADD of the literal 5, its first lane due in this cycle. -/
def addMach : State := State.withFetchWord (st mach) 32 0x40108328

/-- What the due item of a state runs, if it runs an instruction. -/
def runs : Option Due → Option Instr
  | some (.run _ i) => some i
  | _ => none

theorem witness_StepRunsWhatIsDue :
    (addMach.due.map Prod.fst = some 11 ∧ runs (addMach.due.map Prod.snd) = some (.sAdd ⟨1, 0, 1, 0, 3, 5, 0, none⟩)) ∧
    (∀ k < 11, (addMach.phaseDue k).isNone = true) ∧ (addMach.phaseDue 11).isSome = true ∧
    (let c := addMach.m.core 0
     let x := c.stream .s
     c.stop = none ∧ c.seq.cur = some ⟨0, 1, 1000⟩ ∧ c.seq.entry 0 = some ⟨0, 1, none⟩ ∧ x.doneAt = none ∧ 0 < x.fill ∧ x.next ≤ addMach.m.now ∧
     (((lineItems (c.seq.lineAt (0 + x.line))).find? fun y => y.lane == x.lane).map LineItem.instr) = some (.sAdd ⟨1, 0, 1, 0, 3, 5, 0, none⟩)) ∧
    (let s := st (machWith fun c => { c with cstore := Memory.writeBlock [] 0 (leBytes 4 0x00B5000B) })
     let c := s.m.core 0
     c.ctlReady s.m.now = true ∧ c.irq s.m.now = none ∧ 0x01000000 ≤ c.ctl.pc.toNat ∧ c.ctl.pc.toNat + 4 ≤ 0x01008000 ∧ c.fetchMarked = false ∧
     decodeRv (BitVec.ofNat 32 (c.cstore.value (c.ctl.pc.toNat - 0x01000000) (if c.cstore.value (c.ctl.pc.toNat - 0x01000000) 2 % 4 = 3 then 4 else 2))) =
       some (.cblk 10 11)) ∧
    (let s := State.withFetchWord (st mach) 32 0xA8008000
     let x := s.m.queue 0 0
     x.pkt = some packet ∧ x.park = none ∧ x.state = .run ∧ x.wake ≤ s.m.now ∧ (s.m.fn 0).paused = false ∧ packet.steps < 256 ∧
     x.code[packet.pc]? = some 0xA8008000 ∧ (decodeQueue 0xA8008000).isOk = true) ∧
    ((command 9 fillTile).tile.1 = 9 ∧ tileInstr 9 (command 9 fillTile).tile.2 = some (.tFill fillTile)) ∧
    (let s : State := { st mach with m := { mach with active := [], inbox := [(1000, .resultLand)] } }
     (match s.due with | some (k, .own _) => k == 18 | _ => false) = true) ∧ (st { mach with active := [] }).due.isNone = true := by
  decide +kernel

/-! ### Decoding: words of the spec's own tables and examples, field by field as the spec writes them (R36, R37, R192) -/

theorem test_decode_scalar :
    decodeLane .s 0x10128F00 (some 0x3E8) none = .ok (.sAdd ⟨0, 2, 5, 3, 3, 0, 0, some (ext 1000)⟩) ∧
    decodeLane .s 0x4B039422 (some 0x10) none = .ok (.sLd ⟨1, 1, 7, 5, 0, 4, 2, some (ext 0x10)⟩) ∧
    decodeLane .s 0x0100AB00 none none = .ok (.sCmp ⟨0, 0, 1, 10, 3, 0, 0, none⟩) ∧
    decodeLane .s 0x00252B08 none none = .ok (.sSub ⟨0, 0, 10, 10, 3, 1, 0, none⟩) ∧
    decodeLane .s 0x0052935B none none = .ok (.sDivq ⟨0, 0, 5, 4, 3, 11, 3, none⟩) ∧
    decodeLane .s 0x18F397F8 none none = .ok (.sSel ⟨0, 3, 7, 5, 3, 31, 0, none⟩) ∧
    decodeLane .s 0x00E48301 (some 4) none = .ok (.sMoviH ⟨0, 0, 9, 0, 3, 0, 1, some (ext 4)⟩) ∧
    decodeLane .s 0x00138108 none none = .ok (.sAdd ⟨0, 0, 7, 0, 1, 1, 0, none⟩) ∧
    decodeLane .s 0x4B242403 none none = .ok (.sLdg ⟨1, 1, 8, 9, 0, 0, 3, none⟩) ∧
    decodeLane .s 0x0333A402 none none = .ok (.sStg ⟨0, 0, 7, 9, 0, 0, 2, none⟩) := by decide +kernel

theorem test_decode_scalar_sync :
    decodeLane .s 0x0363_0308 none none = .ok (.sSemw ⟨0, 0, 6, 0, 3, 1, 0, none⟩) ∧
    decodeLane .s 0x03C0_0802 none none = .ok (.sBarArr ⟨0, 0, 0, 2, 0, 0, 2, none⟩) ∧
    decodeLane .s 0x8400_1800 none none = .ok (.sWake ⟨2, 0, 0, 6, 0, 0, 0, none⟩) ∧
    decodeLane .s 0x4410_0801 none none = .ok (.sSleep ⟨1, 0, 0, 2, 0, 0, 1, none⟩) ∧
    decodeLane .s 0x0000_0351 none none = .ok (.waitC .s ⟨0, 0, 0, 0, 3, 10, 1, none⟩) ∧
    decodeLane .m 0x0000_0301 (some 80) none = .ok (.waitC .m ⟨0, 0, 0, 0, 3, 0, 1, some (ext 80)⟩) ∧
    decodeLane .x 0xC000_0000 none none = .ok (.nop .x ⟨3, 0, 0, 0, 0, 0, 0, none⟩) := by decide +kernel

theorem test_decode_vector :
    decodeLane .v 0x8842_0410 none none = .ok (.vfma ⟨2, 1, 4, 1, 0, 2, 0, none⟩) ∧
    decodeLane .v 0x4199_9430 none none = .ok (.vcmpF ⟨1, 0, 0x13, 5, 0, 6, 0, none⟩) ∧
    decodeLane .v 0x02C1_070A none none = .ok (.vredr ⟨0, 0, 2, 1, 3, 1, 2, none⟩) ∧
    decodeLane .v 0x4300_8120 none none = .ok (.vld ⟨1, 0, 1, 0, 1, 4, 0, none⟩) ∧
    decodeLane .v 0x0310_8128 (some 0x1000) none = .ok (.vst ⟨0, 0, 1, 0, 1, 5, 0, some (ext 0x1000)⟩) ∧
    decodeLane .v 0x09D3_8802 (some 0x0010018F) none = .ok (.vcvt ⟨0, 1, 7, 2, 0, 0, 2, some ⟨0, 0, 0, 0, true, 0x018F⟩⟩) ∧
    decodeLane .v 0x0240_9000 (some 0x40000000) none = .ok (.vmov ⟨0, 0, 1, 4, 0, 0, 0, some ⟨1, 0, 0, 0, false, 0⟩⟩) ∧
    decodeLane .v 0x0B50_1400 none none = .ok (.vext ⟨0, 1, 0, 5, 0, 0, 0, none⟩) := by decide +kernel

theorem test_decode_matrix :
    decodeLane .m 0x2010_8009 (some 0x60) none = .ok (.mma ⟨0, 4, 1, 0, 0, 1, 1, some (ext 0x60)⟩) ∧
    decodeLane .m 0x2060_082F (some 0xC8) none = .ok (.mmajs ⟨0, 4, 0, 2, 0, 5, 7, some (ext 0xC8)⟩) ∧
    decodeLane .m 0x4080_8121 (some 0x800) none = .ok (.mdrain ⟨1, 0, 1, 0, 1, 4, 1, some (ext 0x800)⟩) ∧
    decodeLane .m 0x0090_0300 (some 0x3F80) none = .ok (.msba ⟨0, 0, 0, 0, 3, 0, 0, some (ext 0x3F80)⟩) ∧
    decodeLane .m 0x0322_8308 none none = .ok (.msemw ⟨0, 0, 5, 0, 3, 1, 0, none⟩) ∧
    decodeLane .m 0x0333_0308 none none = .ok (.msems ⟨0, 0, 6, 0, 3, 1, 0, none⟩) := by decide +kernel

/-- The XCOPY of R293's program: `.ev` on pn3, source core and destination quad, its counts s0, in the words the spec gives. -/
theorem test_decode_copy :
    decodeLane .x 0x0011_A100 (some 0x50000102) none = .ok (.xcopy ⟨0, 0, 3, 8, 1, 0, 0, some ⟨1, 1, 0, 0, false, 0x0102⟩⟩ none) ∧
    decodeLane .x 0x0011_A100 none none = .error 0x08 := by decide +kernel

theorem test_decode_hyper :
    decodeLane .h 0x0038_0708 none none = .ok (.hbund ⟨0, 0, 0x10, 1, 3, 1, 0, none⟩) ∧
    decodeLane .h 0xC060_0010 none none = .ok (.hnear ⟨3, 0, 0, 0, 0, 2, 0, none⟩) ∧
    decodeLane .h 0x0070_0028 none none = .ok (.hnear2 ⟨0, 0, 0, 0, 0, 5, 0, none⟩) ∧
    decodeLane .h 0x0027_8330 none none = .ok (.hperm ⟨0, 0, 15, 0, 3, 6, 0, none⟩) ∧
    decodeLane .h 0x00A7_BC00 none none = .ok (.hnot ⟨0, 0, 15, 15, 0, 0, 0, none⟩) ∧
    decodeLane .h 0x0014_8010 none none = .ok (.hbind ⟨0, 0, 9, 0, 0, 2, 0, none⟩) ∧
    decodeLane .h 0x0040_C000 none none = .ok (.hthr ⟨0, 0, 1, 0x10, 0, 0, 0, none⟩) ∧
    decodeLane .h 0x0320_1900 (some 0x40000000) none = .ok (.hgdset ⟨0, 0, 0, 6, 1, 0, 0, some ⟨1, 0, 0, 0, false, 0⟩⟩) ∧
    decodeLane .h 0x0330_0700 none none = .ok (.hgput ⟨0, 0, 0, 1, 3, 0, 0, none⟩) ∧
    decodeLane .h 0x0300_0128 (some 0x1000) none = .ok (.hld ⟨0, 0, 0, 0, 1, 5, 0, some (ext 0x1000)⟩) := by decide +kernel

/-- T.EW.add.f32 at L on lane clusters 0 and 1 (R334, R356), and queue code of the generation loop (R374, R381). -/
theorem test_decode_tile_and_queue :
    decodeTile 0x00E4_C000 0x0080_0004 0x0008_0040 0x0000_0003 =
      some (.tEw ⟨0, 0, 4, 2, 0x0C, 0, false, false, false, false, 0, false, false, 2, 0, 1, 8, 64, 0, 0, 0, 3⟩) ∧
    decodeQueue 0x5078_8004 = .ok (.qLoop ⟨0, 15, 0, true, 4⟩) ∧ decodeQueue 0x4859_8002 = .ok (.qBrf ⟨0, 11, 1, true, 2⟩) ∧
    decodeQueue 0x0AE0_8008 = .ok (.qcLd ⟨5, 12, 0, true, 8⟩) ∧ decodeQueue 0x3BA8_FFE1 = .ok (.qcShl ⟨7, 5, 0, true, 0x7FE1⟩) ∧
    decodeQueue 0x8BA9_0000 = .ok (.qPost ⟨7, 5, 1, false, 0⟩) ∧ decodeQueue 0x9800_0000 = .ok (.qRearm ⟨0, 0, 0, false, 0⟩) ∧
    decodeQueue 0x45C2_1800 = .ok (.qcCmp ⟨11, 8, 2, false, 0x1800⟩) ∧ decodeQueue 0xA2A0_0000 = .ok (.qWaittask ⟨5, 4, 0, false, 0⟩) := by
  decide +kernel

/-- `csem.wait a2, a3` and `cwid a0` of R177, and a compressed instruction. -/
theorem test_decode_control :
    decodeRv 0x02D6_200B = some (.csemWait 12 13) ∧ decodeRv 0x0000_650B = some (.cwid 10) ∧ decodeRv 0x0000_500B = some .cresume ∧
    decodeRv 0x3047_9073 = some (.rv64Instruction ⟨.csr .rw 0 (.reg 15) 0x304, false⟩) ∧
    decodeRv 0x0000_4501 = some (.rv64Instruction ⟨.aluImm .add 10 0 0, true⟩) := by decide +kernel

/-- The line of R48: an S lane with its extension in lanes 1 and 2, a V lane in lane 3. -/
theorem test_line_items :
    let line : BitVec 256 := 0#128 ++ 0x88420410#32 ++ 0x3E8#32 ++ 0x10128F00#32 ++ 0x00002610#32
    (lineItems line).map (fun x => (x.lane, x.st)) = [(1, .s), (3, .v)] ∧ lineDetail line = none := by decide +kernel

/-! ### Terms that are not well formed, one for each check -/

theorem test_ill_formed_lanes :
    Instr.wf (.sAdd { lane with fn := 2 }) = false ∧ Instr.wf (.sMovi { laneLit 1 with ext := some (ext 1) }) = false ∧
    Instr.wf (.sShl { lane with fn := 1 }) = false ∧ Instr.wf (.sMin { lane with fn := 7 }) = false ∧
    Instr.wf (.sQpush { lane with dst := 0x1F }) = false ∧ Instr.wf (.sCmp { lane with dst := 0x1F }) = false ∧
    Instr.wf (.sFence { lane with a := 9 }) = false ∧ Instr.wf (.sAtom lane) = false ∧
    Instr.wf (.nop .s { lane with dst := 1 }) = false ∧ Instr.wf (.waitC .s { lane with p := 1 }) = false := by decide +kernel

theorem test_ill_formed_engine_lanes :
    Instr.wf (.vaddS { lane with fn := 6 }) = false ∧ Instr.wf (.vcvt lane) = false ∧ Instr.wf (.mma { lane with dst := 0x1F }) = false ∧
    Instr.wf (.xopen lane) = false ∧ Instr.wf (.hgdset lane) = false ∧ Instr.wf (.hbind { lane with dst := 0x1F }) = false := by decide +kernel

theorem test_ill_formed_chains :
    let l : Lane := ⟨0, 0, 3, 8, 1, 0, 0, some ⟨1, 1, 0, 0, false, 0x0102⟩⟩
    Instr.wf (.xcopy l none) = true ∧ Instr.wf (.xcopy l (some ⟨0x20108009, some 0x60⟩)) = false ∧
    Instr.wf (.xfill { l with ext := none } none) = false := by decide +kernel

theorem test_ill_formed_tiles_and_queue_words :
    let t : Tile := ⟨0, 0, 4, 2, 0x0C, 0, false, false, false, false, 0, false, false, 2, 0, 1, 8, 64, 0, 0, 0, 3⟩
    Instr.wf (.tEw t) = true ∧ Instr.wf (.tEw { t with lvl := 5 }) = false ∧ Instr.wf (.tEw { t with ver := 0 }) = false ∧
    Instr.wf (.qcNop ⟨1, 0, 0, false, 0⟩) = false ∧ Instr.wf (.qcAdd ⟨0, 0, 1, false, 0⟩) = false ∧ Instr.wf (.qLoop ⟨0, 0, 0, true, 4⟩) = false ∧
    Instr.wf (.qLaunchRi ⟨0, 0, 0, true, 4⟩) = false ∧ Instr.wf (.qLaunch ⟨0, 0, 1, true, 4⟩) = false := by decide +kernel

theorem test_ill_formed_control :
    let rv (r : Rv) : Instr := .rv64Instruction ⟨r, false⟩
    Instr.wf (rv (.jal 1 1)) = false ∧ Instr.wf (rv (.branch .eq 1 2 1)) = false ∧ Instr.wf (rv (.load .d false 1 2 0)) = false ∧
    Instr.wf (rv (.aluImm .sub 1 2 0)) = false ∧ Instr.wf (rv (.aluImm .sll 1 2 64)) = false ∧ Instr.wf (rv (.aluImmW .xor 1 2 0)) = false ∧
    Instr.wf (rv (.aluW .xor 1 2 3)) = false ∧ Instr.wf (rv (.mulW .mulh 1 2 3)) = false ∧ Instr.wf (rv (.illegal 0)) = false ∧
    Instr.wf (.cphase 9) = false ∧ Instr.wf (.cfence 9) = false ∧ Instr.wf (.nflagsWrite .rs 1 (.reg 0)) = false ∧
    Instr.wf (.dbgctlWrite .rc 1 (.imm 0)) = false ∧ Instr.wf (.ctimecmpWrite .rs 1 (.imm 0)) = false ∧
    Instr.wf (.cbankWrite 0 .rc 1 (.reg 0)) = false := by decide +kernel

theorem test_ill_formed_events :
    Instr.wf (.lineValidate 192 0 0 0) = false ∧ Instr.wf (.walkComplete 192 0) = false ∧ Instr.wf (.domainOn (.core 0 55)) = false ∧
    Instr.wf (.deferredSleep (.quad 24 0)) = false ∧ Instr.wf (.jointStart 24) = false ∧ Instr.wf (.ringRefill 0 8) = false ∧
    Instr.wf (.copyComplete 0 64) = false ∧ Instr.wf (.watermarkFire 0 8) = false ∧ Instr.wf (.registerWrite 25 0 0) = false ∧
    Instr.wf (.qnotifyWrite 0 64 0) = false ∧ Instr.wf (.thrctlWrite 4 0) = false ∧ Instr.wf (.linkDown 16) = false ∧
    Instr.wf (.powerOn true ⟨0, 3, 7, 0⟩) = false ∧ Instr.wf (.powerOn true ⟨0, 4, 8, 0⟩) = false ∧ Instr.wf (.powerOn true ⟨6, 4, 7, 0⟩) = false ∧
    Instr.wf (.railFault 19) = false ∧ Instr.wf (.railFault 21) = false := by decide +kernel

/-! ### Results of the spec's worked examples -/

/-- VADD.s8 of R232's example: wrapping without `.sat`, and the clamped sum with ISAT where it is given. -/
theorem test_vadd_s8 :
    intLane 0 (typeS 2) true 0x7F108005 0x01F0FF7E = (0x7F00807F, 0b100000) ∧ intLane 0 (typeS 2) false 0x7F108005 0x01F0FF7E = (0x80007F83, 0) := by
  decide +kernel

/-- What an S lane with A = s3 and B = s2 puts in flight for its s register: the value and its flags. -/
def scalarResult (i : Instr) (a b : W64) : Option (W64 × BitVec 6) :=
  match exec i (st (machS [(3, a), (2, b)])) with
  | .next t => t.m.me.flight.findSome? fun r => match r.dest with | .s _ v => some (v, r.nfl) | _ => none
  | _ => none

/-- What it puts in flight for its predicate. -/
def predicateResult (i : Instr) (a b : W64) : Option Bool :=
  match exec i (st (machS [(3, a), (2, b)])) with
  | .next t => t.m.me.flight.findSome? fun r => match r.dest with | .p _ v => some v | _ => none
  | _ => none

/-- A lane with `.sat`. -/
def laneSat : Lane := { lane with ext := some ⟨0, 0, 0, 0, true, 0⟩ }
/-- A lane with a type code or form. -/
def laneFn (fn : BitVec 3) : Lane := { lane with fn := fn }

/-- R194: sums wrap at 64 bits, and clamp with ISAT (bit 5 of R69) with `.sat`. -/
theorem test_scalar_add :
    scalarResult (.sAdd lane) 0xFFFFFFFFFFFFFFFF 1 = some (0, 0) ∧
    scalarResult (.sAdd laneSat) 0x7FFFFFFFFFFFFFFF 1 = some (0x7FFFFFFFFFFFFFFF, 0b100000) ∧
    scalarResult (.sSub lane) 0 1 = some (0xFFFFFFFFFFFFFFFF, 0) ∧
    scalarResult (.sSub laneSat) 0x8000000000000000 1 = some (0x8000000000000000, 0b100000) := by decide +kernel

/-- R195: the high half of a product by signedness, and the corners of division. -/
theorem test_scalar_multiply_divide :
    scalarResult (.sMulh (laneFn 0)) 0xFFFFFFFFFFFFFFFF 1 = some (0xFFFFFFFFFFFFFFFF, 0) ∧
    scalarResult (.sMulh (laneFn 1)) 0xFFFFFFFFFFFFFFFF 2 = some (1, 0) ∧
    scalarResult (.sMulh (laneFn 2)) 0xFFFFFFFFFFFFFFFF 0xFFFFFFFFFFFFFFFF = some (0xFFFFFFFFFFFFFFFF, 0) ∧
    scalarResult (.sDivq (laneFn 0)) 5 0 = some (0xFFFFFFFFFFFFFFFF, 0) ∧ scalarResult (.sDivq (laneFn 2)) 5 0 = some (5, 0) ∧
    scalarResult (.sDivq (laneFn 0)) 0x8000000000000000 0xFFFFFFFFFFFFFFFF = some (0x8000000000000000, 0) ∧
    scalarResult (.sDivq (laneFn 2)) (-7) 2 = some (-1, 0) ∧ scalarResult (.sDivq (laneFn 0)) (-7) 2 = some (-3, 0) := by decide +kernel

/-- R194: a shift takes B mod 64. -/
theorem test_scalar_shifts :
    scalarResult (.sShl lane) 3 65 = some (6, 0) ∧ scalarResult (.sShr lane) 0x8000000000000000 63 = some (1, 0) ∧
    scalarResult (.sSra lane) 0x8000000000000000 63 = some (0xFFFFFFFFFFFFFFFF, 0) := by decide +kernel

/-- R196, R198: signed and unsigned comparisons. -/
theorem test_scalar_compares :
    scalarResult (.sMin (laneFn 0)) (-1) 1 = some (-1, 0) ∧ scalarResult (.sMin (laneFn 1)) (-1) 1 = some (1, 0) ∧
    predicateResult (.sCmp (laneFn 2)) (-1) 1 = some true ∧ predicateResult (.sCmp (laneFn 4)) (-1) 1 = some false := by decide +kernel

/-- R238's table: VCVT.e4m3.f32.p2.sat of 500, -0.3, NaN and +∞ into lanes of 0x11223344; the flags are OVF and INX, INX, INV, none. -/
theorem test_vcvt_e4m3 :
    cvtLane 0x0C 0x0F 2 0 true 0x11223344 0x43FA0000 = (0x117E3344, 0b010100) ∧
    cvtLane 0x0C 0x0F 2 0 true 0x11223344 0xBE99999A = (0x11AA3344, 0b010000) ∧
    cvtLane 0x0C 0x0F 2 0 true 0x11223344 0x7FC00000 = (0x11003344, 0b000001) ∧
    cvtLane 0x0C 0x0F 2 0 true 0x11223344 0x7F800000 = (0x117E3344, 0) := by decide +kernel

/-- R243: 1/0 is +∞ with DVZ, the root of a negative number NaN with INV, 2^0 is 1 and log2 of 1 is +0, without flags. -/
theorem test_special_functions :
    specialLane 0 0x0C 0 false 0 = (0x7F800000, 0b000010) ∧ specialLane 1 0x0C 0 false 0xBF800000 = (0x7FC00000, 0b000001) ∧
    specialLane 2 0x0C 0 false 0 = (0x3F800000, 0) ∧ specialLane 3 0x0C 0 false 0x3F800000 = (0, 0) := by decide +kernel

/-- What an instruction of queue code leaves in g1, from g2. -/
def queueResult (i : QWord → Instr) (fn : BitVec 3) (g2 : W64) (b : BitVec 15) : Option W64 :=
  match exec (i (qword fn b)) (st (queueMach fun x => { x with g := x.g.set 2 g2 })) with
  | .next t => some (t.m.servedQueue.gr 1)
  | _ => none

/-- R383: SHL by a positive and a negative count and by 64, and a signed and an unsigned CMP. -/
theorem test_queue_arithmetic :
    queueResult .qcShl 0 0x8000000000000001 4 = some 0x10 ∧ queueResult .qcShl 0 0x8000000000000000 0x7FC1 = some 1 ∧
    queueResult .qcShl 0 1 64 = some 0 ∧ queueResult .qcCmp 2 (-1) 1 = some 1 ∧ queueResult .qcCmp 4 (-1) 1 = some 0 ∧
    queueResult .qcSub 0 0 1 = some (-1) := by decide +kernel

end Sys2Proof.Tests
end

section
/-! The S stream's arithmetic issues (R193 to R196), and its lanes and tile instructions whose predicate is 0 have no effect (R192). -/
namespace Sys2Proof.Machine

/-! ### The values of S arithmetic, in the rules' own words -/

/-- Clamping to s64 (R63): the nearer bound where the value lies outside the range. -/
theorem satInt_s64 (x : Int) : satInt 64 true x = (max (-2 ^ 63) (min x (2 ^ 63 - 1)), decide (x < -2 ^ 63 ∨ 2 ^ 63 ≤ x)) := by
  simp only [satInt, if_true]
  split_ifs with hlow hhigh
  all_goals
    refine Prod.ext ?_ ?_
    · simp only; omega
    · simp; omega

/-- An exact result of R194: clamped to the range of s64, with ISAT where that changed it, or wrapped. -/
theorem fit64_eq_clamp (sat : Bool) (x : Int) :
    fit64 sat x =
      if sat then
        (BitVec.ofInt 64 (max (-2 ^ 63) (min x (2 ^ 63 - 1))), Flags.when (decide (x < -2 ^ 63 ∨ 2 ^ 63 ≤ x)) Flags.isat)
      else (BitVec.ofInt 64 x, 0) := by
  rw [fit64, satInt_s64]

/-- MULH by its sub-function (R195). -/
theorem mulHigh_eq (fn : Nat) (a b : W64) :
    mulHigh fn a b = BitVec.ofInt 64 (match fn with
      | 0 => a.toInt * b.toInt / 2 ^ 64
      | 1 => (a.toNat : Int) * b.toNat / 2 ^ 64
      | _ => a.toInt * b.toNat / 2 ^ 64) := by
  match fn with
  | 0 => rfl
  | 1 => rfl
  | n + 2 => simp [mulHigh]

/-- A left shift multiplies by a power of two, wrapped (R194). -/
theorem shiftLeft_eq_ofNat_mul (a : W64) (n : Nat) : a <<< n = BitVec.ofNat 64 (a.toNat * 2 ^ n) := by
  apply BitVec.eq_of_toNat_eq
  simp [Nat.shiftLeft_eq]

/-- An unsigned right shift divides the pattern by a power of two (R194). -/
theorem ushiftRight_eq_ofNat_div (a : W64) (n : Nat) : a >>> n = BitVec.ofNat 64 (a.toNat / 2 ^ n) := by
  apply BitVec.eq_of_toNat_eq
  have hlt : a.toNat / 2 ^ n < 2 ^ 64 := Nat.lt_of_le_of_lt (Nat.div_le_self _ _) a.isLt
  rw [BitVec.toNat_ushiftRight, Nat.shiftRight_eq_div_pow, BitVec.toNat_ofNat, Nat.mod_eq_of_lt hlt]

/-- A signed right shift divides the value by a power of two, rounding down (R194). -/
theorem sshiftRight_eq_ofInt_div (a : W64) (n : Nat) : a.sshiftRight n = BitVec.ofInt 64 (a.toInt / 2 ^ n) := by
  rw [BitVec.sshiftRight, Int.shiftRight_eq_div_pow]
  norm_cast

/-! ### S arithmetic -/

/-- An S arithmetic lane that is ready puts its value in flight and pops its queues. -/
theorem sArith_issues {l : Lane} {lat : Nat} {unsig : Bool} {f : W64 → W64 → W64 × Flags} {s : State}
    (h : SReady s.m l (SUse.ops [s.m.me.sA l, s.m.me.sB l unsig] l.dst.toNat)) :
    sArith l lat unsig f s = .next (s.issuedS (SUse.ops [s.m.me.sA l, s.m.me.sB l unsig] l.dst.toNat)
      (s.m.write .s lat (.s l.dst (f (s.m.me.sA l).val (s.m.me.sB l unsig).val).1) (f (s.m.me.sA l).val (s.m.me.sB l unsig).val).2)) :=
  runS_issues h rfl

/-- S arithmetic depends on the values its function gives. -/
theorem sArith_congr {l : Lane} {lat : Nat} {unsig : Bool} {f g : W64 → W64 → W64 × Flags} (h : ∀ a b, f a b = g a b) (s : State) :
    sArith l lat unsig f s = sArith l lat unsig g s := by
  rw [funext₂ h]

/-- Each instruction of the table runs as S arithmetic with the table's latency, literal and value (R193 to R196); DIVQ, AND, OR and XOR are
written in the table as the model has them. -/
theorem exec_scalarOps (l : Lane) : ∀ x ∈ Claims.scalarOps l, ∀ s, exec x.1 s = sArith l x.2.1 x.2.2.1 x.2.2.2 s := by
  simp only [Claims.scalarOps, List.forall_mem_cons, List.not_mem_nil, false_imp_iff, implies_true, and_true]
  -- only now: on the list's tail the dispatch of an instruction that is no constructor would be written out
  simp only [exec]
  refine ⟨?add, ?sub, ?mul, ?mulh, fun _ => rfl, fun _ => rfl, fun _ => rfl, fun _ => rfl, ?shl, ?shr, ?sra, ?min, ?max⟩
  case add => exact sArith_congr fun a b => fit64_eq_clamp l.sat (a.toInt + b.toInt)
  case sub => exact sArith_congr fun a b => fit64_eq_clamp l.sat (a.toInt - b.toInt)
  case mul => exact sArith_congr fun a b => fit64_eq_clamp l.sat (a.toInt * b.toInt)
  case mulh => exact sArith_congr fun a b => congrArg (·, 0) (mulHigh_eq l.fn.toNat a b)
  case shl => exact sArith_congr fun a b => congrArg (·, 0) (shiftLeft_eq_ofNat_mul a (b.toNat % 64))
  case shr => exact sArith_congr fun a b => congrArg (·, 0) (ushiftRight_eq_ofNat_div a (b.toNat % 64))
  case sra => exact sArith_congr fun a b => congrArg (·, 0) (sshiftRight_eq_ofInt_div a (b.toNat % 64))
  case min => exact sArith_congr fun a b => by by_cases hfn : l.fn = 0 <;> simp only [hfn, if_true, if_false]
  case max => exact sArith_congr fun a b => by by_cases hfn : l.fn = 0 <;> simp only [hfn, if_true, if_false]

/-- Settles O1: each of the thirteen instructions runs as S arithmetic, which issues where the lane is ready. -/
theorem scalarArithmeticCompletes : Obligations.ScalarArithmeticCompletes := by
  intro s l i lat unsig f hmem hready
  have hexec : exec i s = sArith l lat unsig f s := exec_scalarOps l _ hmem s
  rw [hexec]
  exact sArith_issues hready

/-! ### Lanes and tile instructions with a false predicate -/

/-- A post-increment form steps its base register by the literal (R200). -/
theorem Lane.postInc_of_step {c : Core} {l : Lane} (h : modeStep l.b = true) :
    Lane.postInc c l = some (l.a.toNat, c.sreg l.a.toNat + l.imm.signExtend 64) :=
  if_pos h

/-- Any other form has no base update (R200). -/
theorem Lane.postInc_of_not_step {c : Core} {l : Lane} (h : ¬ modeStep l.b = true) : Lane.postInc c l = none :=
  if_neg h

/-- A base update writes its register in the next cycle, without a flag. -/
theorem Mach.writeBase_toNat (m : Mach) (r : BitVec 5) (v : W64) :
    m.writeBase (some (r.toNat, v)) = m.write .s 1 (.s r v) 0 := by
  simp [Mach.writeBase]

/-- LD, ST, LDG and STG run under their predicate with the base update of their post-increment forms (R200 to R203). -/
theorem exec_eq_runS_postInc {i : Instr} {l : Lane} (h : i ∈ [Instr.sLd l, .sSt l, .sLdg l, .sStg l]) :
    ∃ use act, ∀ s, exec i s = runS l (fun c => Lane.postInc c l) use act s := by
  simp only [List.mem_cons, List.not_mem_nil, or_false] at h
  rcases h with rfl | rfl | rfl | rfl
  all_goals
    simp only [exec, execSLd, execSSt, execSLdg, execSStg]
    exact ⟨_, _, fun _ => rfl⟩

/-- Every other S lane but NOP, WAIT and SEL runs under its predicate without a base update (R192). -/
theorem exec_eq_runS_noInc {i : Instr} {op : BitVec 7} {l : Lane} (h : i.lane? = some (.s, op, l, none))
    (hmem : i ∉ [Instr.sLd l, .sSt l, .sLdg l, .sStg l]) (hsel : i ≠ .sSel l) (hnop : i ≠ .nop .s l) (hwait : i ≠ .waitC .s l) :
    ∃ use act, ∀ s, exec i s = runS l noInc use act s := by
  cases i with
  | nop st k => cases h; exact absurd rfl hnop
  | waitC st k => cases h; exact absurd rfl hwait
  | sSel k => cases h; exact absurd rfl hsel
  | sLd k | sSt k | sLdg k | sStg k => cases h; exact absurd (by simp) hmem
  | sAdd k | sSub k | sMul k | sMulh k | sDivq k | sAnd k | sOr k | sXor k | sShl k | sShr k | sSra k | sMin k | sMax k
  | sMovi k | sMoviH k | sCmp k | sPset k | sRdwid k | sAtom k | sQpush k | sSemw k | sSems k | sPnwait k | sFence k | sPhase k
  | sRingset k | sBarInit k | sBarInitt k | sBarJoin k | sBarLeave k | sBarArr k | sBarWait k | sTjoin k | sBkfmtSet k
  | sBkfmtGet k | sWake k | sSleep k | sPdq k =>
    cases h
    simp only [exec, execSAdd, execSSub, execSMul, execSMulh, execSDivq, execSAnd, execSOr, execSXor, execSShl, execSShr, execSSra,
      execSMin, execSMax, sArith, execSMovi, execSMoviH, execSCmp, execSPset, execSRdwid, execSAtom, execSQpush, execSSemw, execSSems,
      execSPnwait, execSFence, execSPhase, execSRingset, execSBarInit, execSBarInitt, execSBarJoin, execSBarLeave, execSBarArr,
      execSBarWait, execSTjoin, execSBkfmtSet, execSBkfmtGet, execSWake, execSSleep, execSPdq]
    exact ⟨_, _, fun _ => rfl⟩
  | _ => cases h

/-- Each tile instruction runs at the port being served under its opcode. -/
theorem exec_tiles (t : Tile) : ∀ x ∈ Claims.tiles t, ∀ s, exec x.1 s = tileAt x.2 t s := by
  simp only [Claims.tiles, List.forall_mem_cons, List.not_mem_nil, false_imp_iff, implies_true, and_true]
  and_intros <;> exact fun _ => rfl

/-- A tile lane whose predicate is 0 has no effect: it never reaches the port, whose wakes could outlast a clash (R192, R346). -/
theorem tileLane_off {top : Nat} {t : Tile} {s : State} (hb : s.m.me.sBlocked s.m.now = false)
    (hp : s.m.me.preg t.p.toNat = false) : tileLane top t s = .next (s.issued .s 0 s.m) := by
  have hoff : ∀ use act, runS (Tile.asLane t) noInc use act s = .next (s.issued .s 0 s.m) := fun _ _ => runS_off hb hp rfl
  simp [tileLane, hoff, hp]

/-- Settles O50: the post-increment forms, the other lanes, and the tile instructions. -/
theorem predicatedOffLanes : Obligations.PredicatedOffLanes := by
  intro s l hb hp post
  refine ⟨fun i hmem hpost hpend => ?_, fun i op hlane hsel hnop hwait hnot => ?_, fun i top x htile hcur hx => ?_⟩
  · obtain ⟨use, act, hexec⟩ := exec_eq_runS_postInc hmem
    rw [hexec, runS_offBase hb hp (Lane.postInc_of_step hpost) hpend, Mach.writeBase_toNat]
  · by_cases hmem : i ∈ [Instr.sLd l, .sSt l, .sLdg l, .sStg l]
    · obtain ⟨use, act, hexec⟩ := exec_eq_runS_postInc hmem
      rw [hexec, runS_off hb hp (Lane.postInc_of_not_step (hnot hmem))]
    · obtain ⟨use, act, hexec⟩ := exec_eq_runS_noInc hlane hmem hsel hnop hwait
      rw [hexec, runS_off hb hp rfl]
  · subst hx
    have hexec : exec i s = tileAt top x s := exec_tiles x _ htile s
    rw [hexec, tileAt, hcur]
    exact tileLane_off hb hp

end Sys2Proof.Machine
end

section
/-! SUPPORT. What a change of a function or of a queue leaves, and that the journal keeps the registers of every queue (R367, R373, R400). -/
namespace Sys2Proof.Machine

/-! ### Queues of a function -/

/-- The queue inserted is the first of its number. -/
theorem find?_insertQueue (q : Nat) (v : Queue) (l : List (Nat × Queue)) :
    (insertQueue q v l).find? (fun y => y.1 == q) = some (q, v) := by
  induction l with
  | nil => simp [insertQueue]
  | cons y r ih =>
    obtain ⟨k, w⟩ := y
    rw [insertQueue]
    split_ifs with hlt heq
    · simp
    · simp
    · rw [List.find?_cons_of_neg (by simpa using Ne.symm heq), ih]

/-- Every other queue is found as before. -/
theorem find?_insertQueue_other {q j : Nat} (h : j ≠ q) (v : Queue) (l : List (Nat × Queue)) :
    (insertQueue q v l).find? (fun y => y.1 == j) = l.find? (fun y => y.1 == j) := by
  have hne : ¬ (q == j) = true := by simpa using Ne.symm h
  induction l with
  | nil => simp [insertQueue, Ne.symm h]
  | cons y r ih =>
    obtain ⟨k, w⟩ := y
    rw [insertQueue]
    split_ifs with hlt heq
    · exact List.find?_cons_of_neg hne
    · subst heq
      simp [Ne.symm h]
    · simp only [List.find?_cons, ih]

/-- The later of two insertions under one number stands. -/
theorem insertQueue_insertQueue (q : Nat) (v w : Queue) (l : List (Nat × Queue)) :
    insertQueue q w (insertQueue q v l) = insertQueue q w l := by
  induction l with
  | nil => simp [insertQueue]
  | cons y r ih =>
    obtain ⟨k, u⟩ := y
    by_cases hlt : q < k
    · simp [insertQueue, hlt]
    · by_cases heq : q = k
      · simp [insertQueue, heq]
      · simp [insertQueue, hlt, heq, ih]

@[simp] theorem Fn.queue_setQueue (x : Fn) (q : Nat) (v : Queue) : (x.setQueue q v).queue q = v := by
  simp [Fn.queue, Fn.setQueue, find?_insertQueue]

@[simp] theorem Fn.queue_setQueue_other (x : Fn) {q j : Nat} (v : Queue) (h : j ≠ q) : (x.setQueue q v).queue j = x.queue j := by
  simp [Fn.queue, Fn.setQueue, find?_insertQueue_other h]

@[simp] theorem Fn.setQueue_setQueue (x : Fn) (q : Nat) (v w : Queue) : (x.setQueue q v).setQueue q w = x.setQueue q w := by
  simp [Fn.setQueue, insertQueue_insertQueue]

/-! ### Functions and queues of the machine -/

/-- Two changes of one function are one. -/
theorem Mach.modFn_modFn (m : Mach) (f : Nat) (g h : Fn → Fn) : (m.modFn f g).modFn f h = m.modFn f fun x => h (g x) := by
  simp only [Mach.modFn, List.modify_modify_eq]
  rfl

/-- Two changes of one queue are one. -/
theorem Mach.modQueue_modQueue (m : Mach) (f q : Nat) (g h : Queue → Queue) :
    (m.modQueue f q g).modQueue f q h = m.modQueue f q fun x => h (g x) := by
  simp [Mach.modQueue, Mach.modFn_modFn]

/-- The queue changed is read back changed. -/
theorem Mach.queue_modQueue (m : Mach) {f : Nat} (q : Nat) (g : Queue → Queue) (h : f < m.hub.fns.length) :
    (m.modQueue f q g).queue f q = g (m.queue f q) := by
  simp [Mach.queue, Mach.modQueue, Mach.fn_modFn m _ h]

/-- A change of a function keeps, of every function, what it keeps of that one; a function that does not exist is not changed. -/
theorem Mach.fn_modFn_keep {γ : Type} (p : Fn → γ) (m : Mach) {f : Nat} {g : Fn → Fn} (h : p (g (m.fn f)) = p (m.fn f)) (k : Nat) :
    p ((m.modFn f g).fn k) = p (m.fn k) := by
  by_cases hk : k = f
  · subst hk
    by_cases hlen : k < m.hub.fns.length
    · rw [Mach.fn_modFn m g hlen, h]
    · rw [Mach.modFn, List.modify_eq_self (Nat.le_of_not_lt hlen)]
  · rw [Mach.fn_modFn_other m g hk]

/-- A change of a function that leaves its queues leaves every queue. -/
theorem Mach.queue_modFn_keep (m : Mach) {f : Nat} {g : Fn → Fn} (h : (g (m.fn f)).queues = (m.fn f).queues) (k j : Nat) :
    (m.modFn f g).queue k j = m.queue k j :=
  Mach.fn_modFn_keep (fun x => x.queue j) m (by simp only [Fn.queue, h]) k

/-- A change of a queue keeps, of every queue, what it keeps of that one. -/
theorem Mach.queue_modQueue_keep {γ : Type} (p : Queue → γ) (m : Mach) {f q : Nat} {g : Queue → Queue}
    (h : p (g (m.queue f q)) = p (m.queue f q)) (k j : Nat) : p ((m.modQueue f q g).queue k j) = p (m.queue k j) := by
  refine Mach.fn_modFn_keep (fun x => p (x.queue j)) m ?_ k
  by_cases hj : j = q
  · subst hj
    rw [Fn.queue_setQueue]
    exact h
  · rw [Fn.queue_setQueue_other _ _ hj]

/-- The queues are the hub's. -/
theorem Mach.queue_of_hub {m m' : Mach} (h : m'.hub = m.hub) (k j : Nat) : m'.queue k j = m.queue k j := by
  rw [Mach.queue, Mach.queue, Mach.fn, Mach.fn, h]

/-! ### Guest physical memory is not the hub's -/

@[simp] theorem Mach.devWrite_hub (m : Mach) (bs : List (Nat × Byte)) : (m.devWrite bs).hub = m.hub := rfl
@[simp] theorem Mach.devAtomic_hub (m : Mach) (bs : List (Nat × Byte)) : (m.devAtomic bs).hub = m.hub := rfl

/-- A translation by stage 2 at most sets a D bit in device memory (R308). -/
theorem Mach.gpa_hub {m m' : Mach} {f a pa : Nat} {k : Access} (h : m.gpa f a k = .ok (m', pa)) : m'.hub = m.hub := by
  unfold Mach.gpa at h
  split at h
  · cases h
  · split at h
    · cases h
      split
      · exact Mach.devAtomic_hub ..
      · rfl
    · cases h

/-- A translation piece by piece at most sets D bits too. -/
theorem Mach.gpaSpan_hub {m m' : Mach} {f a n : Nat} {k : Access} {l : List (Nat × Nat)} (h : m.gpaSpan f a n k = .ok (m', l)) :
    m'.hub = m.hub := by
  unfold Mach.gpaSpan at h
  refine foldl_inv (P := fun r : Except WalkEnd (Mach × List (Nat × Nat)) => ∀ m' l, r = .ok (m', l) → m'.hub = m.hub) ?_ _ ?_ m' l h
  · intro r p hr m' l h
    split at h
    · cases h
    · next m1 l1 =>
      split at h
      · cases h
      · next m2 pa hgpa =>
        cases h
        exact (Mach.gpa_hub hgpa).trans (hr m1 l1 rfl)
  · intro m' l h
    cases h
    rfl

/-- A write to guest physical memory changes device memory only. -/
theorem Mach.gpaWrite_hub {m m' : Mach} {f a : Nat} {bs : List Byte} (h : m.gpaWrite f a bs = .ok m') : m'.hub = m.hub := by
  unfold Mach.gpaWrite at h
  split at h
  · cases h
  · next m1 l hspan =>
    cases h
    refine (foldl_keep (fun r : Mach × List Byte => r.1.hub) ?_ l (m1, bs)).trans (Mach.gpaSpan_hub hspan)
    exact fun r p => Mach.devWrite_hub r.1 _

/-! ### The journal keeps the registers of every queue -/

/-- A pull asked for changes no queue. -/
theorem Mach.queue_askPull (m : Mach) (f a k j : Nat) : (m.askPull f a).queue k j = m.queue k j := by
  have hpulls : (m.modFn f fun x => { x with pulls := x.pulls ++ [(a, m.now)] }).queue k j = m.queue k j :=
    Mach.queue_modFn_keep m rfl k j
  unfold Mach.askPull
  dsimp only
  split
  · rfl
  · split
    · exact (Mach.queue_of_hub (Mach.sendFlits_keep Mach.hub (fun _ _ _ => rfl) ..) k j).trans hpulls
    · exact hpulls

theorem Mach.queue_pullJournal (m : Mach) (f k j : Nat) : (m.pullJournal f).queue k j = m.queue k j := by
  unfold Mach.pullJournal
  dsimp only
  split
  · exact Mach.queue_askPull ..
  · rfl

/-- A command's end resumes the queues that wait for it, whose registers stay until they run (R389). -/
theorem Mach.queue_cmdDone_g (m : Mach) (f seq : Nat) (st : Byte) (k j : Nat) : ((m.cmdDone f seq st).queue k j).g = (m.queue k j).g := by
  unfold Mach.cmdDone
  dsimp only
  refine (foldl_keep (fun m : Mach => (m.queue k j).g) (fun m y => ?_) _ _).trans
    (congrArg Queue.g (Mach.queue_modFn_keep m rfl k j))
  split
  · split
    · exact Mach.queue_modQueue_keep Queue.g m rfl k j
    · rfl
  · rfl

/-- What follows an entry written leaves every queue's registers: it resumes the queues that waited for it. -/
theorem Mach.queue_written_g (m : Mach) (f : Nat) (e : JEntry) (k j : Nat) : ((m.written f e).queue k j).g = (m.queue k j).g := by
  have hheld : ((m.modFn f fun x => { x with heldJ := x.heldJ - 1 }).queue k j).g = (m.queue k j).g :=
    congrArg Queue.g (Mach.queue_modFn_keep m rfl k j)
  unfold Mach.written
  dsimp only
  by_cases hwhole : e.whole = true
  · simp only [hwhole, if_true]
    split
    · refine (Mach.queue_modQueue_keep Queue.g _ (by split <;> rfl) k j).trans ?_
      exact (Mach.queue_cmdDone_g ..).trans hheld
    · exact (Mach.queue_cmdDone_g ..).trans hheld
  · rw [if_neg hwhole, if_neg hwhole]
    split
    · exact Mach.queue_modQueue_keep Queue.g m (by split <;> rfl) k j
    · rfl

theorem Mach.queue_tryEntry_g {m m' : Mach} {f : Nat} {e : JEntry} (h : m.tryEntry f e = some m') (k j : Nat) :
    (m'.queue k j).g = (m.queue k j).g := by
  unfold Mach.tryEntry at h
  dsimp only at h
  split at h
  · next m1 hwrite =>
    cases h
    calc _ = _ := Mach.queue_written_g ..
      _ = (m1.queue k j).g := congrArg Queue.g (Mach.queue_modFn_keep m1 rfl k j)
      _ = (m.queue k j).g := congrArg Queue.g (Mach.queue_of_hub (Mach.gpaWrite_hub hwrite) k j)
  · cases h

/-- An entry, written or waiting, leaves every queue's registers (R373, R400). -/
theorem Mach.queue_journal_g (m : Mach) (f : Nat) (e : JEntry) (k j : Nat) : ((m.journal f e).queue k j).g = (m.queue k j).g := by
  unfold Mach.journal
  split
  next m1 e1 hnumber =>
    have hm1 : m1.queue k j = m.queue k j := by
      split at hnumber
      · cases hnumber; rfl
      · cases hnumber; rfl
    rw [← hm1]
    dsimp only
    split
    · exact congrArg Queue.g (Mach.queue_modFn_keep m1 rfl k j)
    · split
      · next hwrite => exact Mach.queue_tryEntry_g hwrite k j
      · exact congrArg Queue.g ((Mach.queue_modFn_keep _ rfl k j).trans (Mach.queue_pullJournal m1 f k j))

theorem Mach.queue_journalRoom_g (m : Mach) (f : Nat) (e : JEntry) (k j : Nat) : ((m.journalRoom f e).queue k j).g = (m.queue k j).g := by
  unfold Mach.journalRoom
  dsimp only
  split
  · exact Mach.queue_journal_g ..
  · split
    · exact Mach.queue_journal_g ..
    · exact congrArg Queue.g (Mach.queue_modFn_keep m rfl k j)

end Sys2Proof.Machine
end

section
/-! The registers of a queue from packet to packet (R373), and the end of a packet by END (R401). -/
namespace Sys2Proof.Machine

/-! ### A packet's end -/

/-- The queue that a packet leaves behind (R370, R379, R390): its index passed unless the packet runs again, and IDLE, or STOPPED after a fault. -/
def Queue.ended (x : Queue) (p : Packet) (st : Byte) (fault : Bool) (now : Nat) : Queue :=
  { x with pkt := none, park := none, cons := if st == 0 && p.rearm then x.cons else x.cons + 1, rearmed := st == 0 && p.rearm, wake := now + 1,
           state := if fault then .stopped else .idle }

/-- The machine once a packet's PACKET entry is given to the journal, its queue parked where the entry waits (R379, R400). -/
def Mach.recorded (m : Mach) (f q : Nat) (p : Packet) (st : Byte) : Mach :=
  let m' := m.packetEntry f q p st
  if (m'.fn f).entryWaits q then m'.modQueue f q fun x => { x with park := some .journal } else m'

@[simp] theorem Queue.ended_g (x : Queue) (p : Packet) (st : Byte) (fault : Bool) (now : Nat) : (x.ended p st fault now).g = x.g := rfl

/-- Where no packet runs, none ends. -/
theorem Mach.endPacket_none {m : Mach} {f q : Nat} {st : Byte} {fault : Bool} (hpkt : (m.queue f q).pkt = none) :
    m.endPacket f q st fault = m := by
  simp only [Mach.endPacket, hpkt]

/-- A packet of a queue that stays enabled ends: the queue goes on, and a status that is not 0 is recorded (R370, R379). -/
theorem Mach.endPacket_open {m : Mach} {f q : Nat} {st : Byte} {fault : Bool} {p : Packet} (hpkt : (m.queue f q).pkt = some p)
    (hopen : (m.queue f q).closing = false) :
    m.endPacket f q st fault =
      let m' := m.modQueue f q fun _ => (m.queue f q).ended p st fault m.now
      if st = 0 then m' else m'.recorded f q p st := by
  simp only [Mach.endPacket, Queue.ended, Mach.recorded, hpkt, hopen, Bool.false_and, Bool.not_false, Bool.and_true,
    Bool.false_eq_true, if_false]

/-! ### Registers (R373) -/

theorem Mach.queue_recorded_g (m : Mach) (f q : Nat) (p : Packet) (st : Byte) (k j : Nat) :
    ((m.recorded f q p st).queue k j).g = (m.queue k j).g := by
  unfold Mach.recorded
  dsimp only
  split
  · exact (Mach.queue_modQueue_keep Queue.g _ rfl k j).trans (Mach.queue_journalRoom_g ..)
  · exact Mach.queue_journalRoom_g ..

/-- All sixteen registers of a queue that stays enabled stand when its packet ends. -/
theorem Mach.endPacket_g {m : Mach} {f q : Nat} (st : Byte) (fault : Bool) (hopen : (m.queue f q).closing = false) :
    ((m.endPacket f q st fault).queue f q).g = (m.queue f q).g := by
  cases hpkt : (m.queue f q).pkt with
  | none => rw [Mach.endPacket_none hpkt]
  | some p =>
    have hended : ((m.modQueue f q fun _ => (m.queue f q).ended p st fault m.now).queue f q).g = (m.queue f q).g :=
      Mach.queue_modQueue_keep Queue.g m (Queue.ended_g ..) f q
    rw [Mach.endPacket_open hpkt hopen]
    dsimp only
    split
    · exact hended
    · exact (Mach.queue_recorded_g ..).trans hended

/-- The registers a packet of the bytes `bs` starts with, from those that stand. -/
def packetRegs (bs : List Byte) (g : List W64) : List W64 :=
  ((List.range 8).map fun i => BitVec.ofNat 64 (field bs (8 * i) 8)) ++ g.drop 8

theorem length_packetRegs (bs : List Byte) {g : List W64} (hg : g.length = 16) : (packetRegs bs g).length = 16 := by
  simp [packetRegs, hg]

/-- The low eight are the packet's words. -/
theorem packetRegs_low (bs : List Byte) (g : List W64) {i : Nat} (hi : i < 8) :
    nth (packetRegs bs g) i 0 = BitVec.ofNat 64 (leValue ((bs.drop (8 * i)).take 8)) := by
  rw [packetRegs, nth, List.getD_append _ _ _ _ (by simpa using hi), List.getD_eq_getElem _ _ (by simpa using hi)]
  simp [field]

/-- The others stand. -/
theorem packetRegs_high (bs : List Byte) (g : List W64) {i : Nat} (hi : 8 ≤ i) : nth (packetRegs bs g) i 0 = nth g i 0 := by
  rw [packetRegs, nth, List.getD_append_right _ _ _ _ (by simpa using hi)]
  simp [List.getD_eq_getElem?_getD, Nat.add_sub_cancel' hi]

/-- A packet whose bytes are read starts with its registers (R373). -/
theorem execPacketStart_g {s : State} {bs : List Byte} (hf : s.m.curQ.1 < s.m.hub.fns.length)
    (hstart : s.m.canStart s.m.curQ.1 s.m.curQ.2 = true)
    (hread : s.m.qRead s.m.curQ.1 (bits s.m.servedQueue.ring 60 4)
      (s.m.servedQueue.ring.toNat % 2 ^ 48 + 64 * (s.m.servedQueue.cons.toNat % 2 ^ s.m.servedQueue.rlog)) 64 = .ok bs) :
    ∃ t, execPacketStart s = .next t ∧ (t.m.queue s.m.curQ.1 s.m.curQ.2).g = packetRegs bs s.m.servedQueue.g := by
  rw [Mach.servedQueue] at hread
  refine ⟨_, by simp only [execPacketStart, hstart, hread]; rfl, ?_⟩
  dsimp only
  rw [Mach.queue_modQueue _ _ _ hf]
  rfl

/-- Settles O53: a packet's start loads g0 to g7 and leaves the others, and its end leaves all. -/
theorem packetRegisters : Obligations.PacketRegisters := by
  refine ⟨fun s bs => ?_, fun m f q st fault hopen => Mach.endPacket_g st fault hopen⟩
  intro m f q x hf hg hstart hread
  obtain ⟨t, hnext, hregs⟩ := execPacketStart_g hf hstart hread
  refine ⟨t, hnext, ?_⟩
  dsimp only
  rw [hregs]
  exact ⟨length_packetRegs bs hg, fun i hi => packetRegs_low bs x.g hi, fun i hi => packetRegs_high bs x.g hi⟩

/-! ### END (R401) -/

/-- A queue whose packet took a step. -/
def Queue.counted (x : Queue) : Queue := { x with pkt := x.pkt.map fun p => { p with steps := p.steps + 1 } }

/-- A step that ends the packet counts, and the packet ends (R377, R379). -/
theorem runQueue_stop {body : Mach → Queue → Packet → QOut} {s : State} {p : Packet} {m : Mach} {st : Byte} {fault : Bool}
    (hpkt : s.m.servedQueue.pkt = some p) (hbody : body s.m s.m.servedQueue p = .stop m st fault) :
    runQueue body s =
      .next { s with m := (m.modQueue s.m.curQ.1 s.m.curQ.2 Queue.counted).endPacket s.m.curQ.1 s.m.curQ.2 st fault } := by
  rw [Mach.servedQueue] at hpkt hbody
  simp only [runQueue, hpkt, hbody]
  rfl

/-- A step that ends the packet of a queue that stays enabled, and changes nothing else (R377, R379). -/
theorem Mach.endPacket_counted {m : Mach} {f q : Nat} {st : Byte} {fault : Bool} {p : Packet} (hf : f < m.hub.fns.length)
    (hpkt : (m.queue f q).pkt = some p) (hopen : (m.queue f q).closing = false) :
    (m.modQueue f q Queue.counted).endPacket f q st fault =
      let p' := { p with steps := p.steps + 1 }
      let m' := m.modQueue f q fun _ => (m.queue f q).ended p' st fault m.now
      if st = 0 then m' else m'.recorded f q p' st := by
  have hcounted := Mach.queue_modQueue m q Queue.counted hf
  have hpkt' : ((m.modQueue f q Queue.counted).queue f q).pkt = some { p with steps := p.steps + 1 } := by
    rw [hcounted, Queue.counted, hpkt]
    rfl
  have hopen' : ((m.modQueue f q Queue.counted).queue f q).closing = false := by
    rw [hcounted]
    exact hopen
  rw [Mach.endPacket_open hpkt' hopen', Mach.modQueue_modQueue, hcounted]
  rfl

/-- END's step ends the packet with B bits 7:0, without a fault (R384, R401). -/
theorem exec_qEnd {s : State} {q : QWord} {p : Packet} (hpkt : s.m.servedQueue.pkt = some p) :
    exec (.qEnd q) s =
      let st := (s.m.servedQueue.opB q).setWidth 8
      .next { s with m := (s.m.modQueue s.m.curQ.1 s.m.curQ.2 Queue.counted).endPacket s.m.curQ.1 s.m.curQ.2 st false } := by
  change runQueue (fun m x _ => .stop m ((x.opB q).setWidth 8) false) s = _
  exact runQueue_stop hpkt rfl

/-- Settles O54: END's step ends the packet with B bits 7:0, and the packet's end records a status that is not 0. -/
theorem endStatusIsKept : Obligations.EndStatusIsKept := by
  intro s q p m x b p' y m1 entry m2 hpkt hopen hrearm hf
  have hy : x.ended p' (b.setWidth 8) false m.now = y := by
    simp [Queue.ended, y, p', hrearm]
  have hend := calc exec (.qEnd q) s
    _ = .next { s with m := (m.modQueue m.curQ.1 m.curQ.2 Queue.counted).endPacket m.curQ.1 m.curQ.2 (b.setWidth 8) false } := exec_qEnd hpkt
    _ = .next { s with m := if b.setWidth 8 = (0 : Byte) then m1 else m1.recorded m.curQ.1 m.curQ.2 p' (b.setWidth 8) } := by
      rw [Mach.endPacket_counted hf hpkt hopen]
      simp only [m1, ← hy]
      rfl
  rw [hend]
  refine ⟨fun hzero => by rw [if_pos hzero], fun hnonzero => ?_⟩
  rw [if_neg hnonzero]
  rfl

end Sys2Proof.Machine
end

section
/-! Words and their fields: every lane instruction is decoded from its own words (R36, R37, R48, R55). -/
namespace Sys2Proof

/-! ### Fields of a concatenation -/

/-- Bits from above the low part on are those of the high part. The widths are left out of the index of `simp`: a word's type names its whole
width, not the sum. -/
@[simp] theorem extractLsb'_append_high {v w : Nat} (hi : BitVec v) (lo : BitVec w) {start len : Nat} (h : w ≤ start) :
    @BitVec.extractLsb' (no_index (v + w)) start len (no_index (hi ++ lo)) = hi.extractLsb' (start - w) len :=
  BitVec.extractLsb'_append_eq_of_le h

/-- Bits within the low part are its own. -/
@[simp] theorem extractLsb'_append_low {v w : Nat} (hi : BitVec v) (lo : BitVec w) {start len : Nat} (h : start + len ≤ w) :
    @BitVec.extractLsb' (no_index (v + w)) start len (no_index (hi ++ lo)) = lo.extractLsb' start len :=
  BitVec.extractLsb'_append_eq_of_add_le h

/-- One bit of a concatenation. -/
@[simp] theorem getLsbD_append_ite {v w : Nat} (hi : BitVec v) (lo : BitVec w) (i : Nat) :
    @BitVec.getLsbD (no_index (v + w)) (no_index (hi ++ lo)) i = if i < w then lo.getLsbD i else hi.getLsbD (i - w) :=
  BitVec.getLsbD_append

/-! ### Lane words -/

@[simp] theorem laneOp_toWord (op : BitVec 7) (l : Lane) : laneOp (Lane.toWord op l) = op := by
  simp [laneOp, Lane.toWord, bits]

@[simp] theorem Ext.ofWord_toWord (e : Ext) : Ext.ofWord e.toWord = e := by
  simp [Ext.ofWord, Ext.toWord, bits, -BitVec.getLsbD_eq_getElem]

/-- An extension's reserved bits are zero. -/
@[simp] theorem extRsvFails_toWord (e : Option Ext) : extRsvFails (e.map Ext.toWord) = [] := by
  cases e with
  | none => rfl
  | some e => simp [extRsvFails, need, Ext.toWord, bits]

@[simp] theorem Lane.ofWords_toWord (op : BitVec 7) (l : Lane) : Lane.ofWords (Lane.toWord op l) (l.ext.map Ext.toWord) = l := by
  have hext : (l.ext.map Ext.toWord).map Ext.ofWord = l.ext := by simp [Option.map_map, Function.comp_def]
  simp only [Lane.ofWords, hext]
  simp [Lane.toWord, bits]

/-- A well-formed lane's words meet the checks of R55. -/
theorem laneWordFails_toWord {st : Stream} {op : BitVec 7} {l : Lane} {ch : Option ChainCmd} (h : Lane.wf st op l ch = true) :
    laneWordFails st (Lane.toWord op l) (l.ext.map Ext.toWord) ch = [] := by
  simp only [Lane.wf, Bool.and_eq_true, List.isEmpty_iff] at h
  obtain ⟨hlane, hchain⟩ := h
  simp only [laneWordFails, laneOp_toWord, Lane.ofWords_toWord, hlane, extRsvFails_toWord, List.nil_append]
  split_ifs at hchain ⊢
  · cases ch with
    | none => cases hchain
    | some c => simpa [ChainCmd.wf] using hchain
  · simp [need, hchain]

theorem decodeLane_toWord {st : Stream} {op : BitVec 7} {l : Lane} {ch : Option ChainCmd} {i : Instr} (h : Lane.wf st op l ch = true)
    (hi : laneInstr st op l ch = some i) : decodeLane st (Lane.toWord op l) (l.ext.map Ext.toWord) ch = .ok i := by
  simp [decodeLane, laneWordFails_toWord h, lowest, hi]

/-- Settles O57: a well-formed lane's words meet the checks, and their fields are the lane's. -/
theorem laneEncodingsRoundTrip : Obligations.LaneEncodingsRoundTrip := by
  intro i st op l ch hlane hwf
  simp only [Instr.wf, hlane, Bool.and_eq_true, beq_iff_eq] at hwf
  refine ⟨decodeLane_toWord hwf.1 hwf.2, ?_⟩
  simp only [encode, hlane]
  rfl

end Sys2Proof
end

section
/-! Tile instructions, words of queue code and instructions of the control core are decoded from their own words (R50, R151, R177, R334, R374). -/
namespace Sys2Proof

/-! ### Tile instructions -/

@[simp] theorem Tile.ofWords_words (top : BitVec 5) (t : Tile) : Tile.ofWords (t.word0 top) t.word1 t.word2 t.word3 = t := by
  simp [Tile.ofWords, Tile.word0, Tile.word1, Tile.word2, Tile.word3, bits, -BitVec.getLsbD_eq_getElem]

/-- A tile instruction is no lane. -/
theorem Instr.lane?_of_tile? {i : Instr} {x : BitVec 5 × Tile} (h : i.tile? = some x) : i.lane? = none := by
  cases i with
  | tNop t | tMma t | tMmas t | tEw t | tAct t | tRed t | tCvt t | tScale t | tMove t | tFill t | tTrans t | tGath t | tHvenc t | tHvnear t | tBar t
  | tFence t => rfl
  | _ => cases h

/-- The opcode's instruction of a tile instruction's fields is itself. -/
theorem tileInstr_of_tile? {i : Instr} {top : BitVec 5} {t : Tile} (h : i.tile? = some (top, t)) : tileInstr top t = some i := by
  cases i with
  | tNop x | tMma x | tMmas x | tEw x | tAct x | tRed x | tCvt x | tScale x | tMove x | tFill x | tTrans x | tGath x | tHvenc x | tHvnear x | tBar x
  | tFence x =>
    cases h
    rfl
  | _ => cases h

theorem decodeTile_words {top : BitVec 5} {t : Tile} (h : t.wf = true) :
    decodeTile (t.word0 top) t.word1 t.word2 t.word3 = tileInstr top t := by
  have hlvl : bits (t.word0 top) 19 3 = t.lvl := by simp [Tile.word0, bits]
  have hver : bits (t.word0 top) 17 2 = t.ver := by simp [Tile.word0, bits]
  have htop : bits (t.word0 top) 22 5 = top := by simp [Tile.word0, bits]
  have hzero : bits t.word1 0 2 = 0 := by simp [Tile.word1, bits]
  have hfields : (t.lvl.toNat ≤ 4 && (t.ver == 1 || t.ver == 2)) = true := h
  rewrite [decodeTile, hlvl, hver, htop, hzero, hfields, Tile.ofWords_words]
  rfl

/-! ### Queue code -/

theorem bits_encodeQueue (op : BitVec 5) (q : QWord) : bits (encodeQueue op q) 27 5 = op := by
  simp [encodeQueue, bits]

@[simp] theorem QWord.ofWord_encodeQueue (op : BitVec 5) (q : QWord) : QWord.ofWord (encodeQueue op q) = q := by
  simp [QWord.ofWord, encodeQueue, bits, -BitVec.getLsbD_eq_getElem]

theorem decodeQueue_encodeQueue {op : BitVec 5} {q : QWord} {i : Instr} (hfails : queueFails op q = []) (hi : queueInstr op q = some i) :
    decodeQueue (encodeQueue op q) = .ok i := by
  simp [decodeQueue, bits_encodeQueue, hfails, lowest, hi]

/-- A word of queue code is no lane and no tile instruction. -/
theorem Instr.lane?_tile?_of_queue? {i : Instr} {x : BitVec 5 × QWord} (h : i.queue? = some x) : i.lane? = none ∧ i.tile? = none := by
  cases i with
  | qcNop q | qcLd q | qcSt q | qcAdd q | qcSub q | qcAnd q | qcOr q | qcShl q | qcCmp q | qBrf q | qLoop q | qSigwait q | qSigset q
  | qSigadd q | qLaunch q | qLaunchRi q | qLaunchKill q | qLaunchInv q | qTxb q | qTxe q | qPost q | qIrq q | qRearm q | qWaittask q | qEnd q => exact ⟨rfl, rfl⟩
  | _ => cases h

/-- A well-formed word of queue code decodes to itself. -/
theorem decodeQueue_of_wf {i : Instr} {op : BitVec 5} {q : QWord} (h : i.queue? = some (op, q)) (hwf : i.wf = true) :
    decodeQueue (encodeQueue op q) = .ok i := by
  obtain ⟨hlane, htile⟩ := Instr.lane?_tile?_of_queue? h
  simp only [Instr.wf, hlane, htile, h, Bool.and_eq_true, List.isEmpty_iff, beq_iff_eq] at hwf
  exact decodeQueue_encodeQueue hwf.1 hwf.2

/-! ### The control core: custom instructions -/

theorem decodeRv_custom (f7 : BitVec 7) (rs2 rs1 : XReg) (f3 : BitVec 3) (rd : XReg) :
    decodeRv (encodeCustom f7 rs2 rs1 f3 rd) = decodeCustom (encodeCustom f7 rs2 rs1 f3 rd) := by
  simp [decodeRv, decodeRv32, encodeCustom, bits]

/-- The kind and scope that cphase and cfence have in funct7. -/
theorem toNat_scopeField (s : BitVec 4) : (0#3 ++ s).toNat = s.toNat ∧ (1#3 ++ s).toNat = 16 + s.toNat := by
  revert s
  decide

/-! ### The control core: immediates -/

/-- A jump's offset from its pieces; bit 0 is not encoded. -/
theorem jumpOffset_eq {off : BitVec 21} (h : off.getLsbD 0 = false) :
    off.extractLsb' 20 1 ++ off.extractLsb' 12 8 ++ off.extractLsb' 11 1 ++ off.extractLsb' 1 10 ++ 0#1 = off := by
  apply BitVec.eq_of_getLsbD_eq
  intro i hi
  simp only [getLsbD_append_ite, BitVec.getLsbD_extractLsb']
  interval_cases i <;> simp_all

/-- A branch's offset from its pieces; bit 0 is not encoded. -/
theorem branchOffset_eq {off : BitVec 13} (h : off.getLsbD 0 = false) :
    off.extractLsb' 12 1 ++ off.extractLsb' 11 1 ++ off.extractLsb' 5 6 ++ off.extractLsb' 1 4 ++ 0#1 = off := by
  apply BitVec.eq_of_getLsbD_eq
  intro i hi
  simp only [getLsbD_append_ite, BitVec.getLsbD_extractLsb']
  interval_cases i <;> simp_all

theorem storeOffset_eq (imm : BitVec 12) : imm.extractLsb' 5 7 ++ imm.extractLsb' 0 5 = imm :=
  BitVec.extractLsb'_append_extractLsb' (w := 7)

/-- High bits of a small value are zero. -/
theorem extractLsb'_of_lt {m : Nat} {x : BitVec m} {k n : Nat} (h : x.toNat < 2 ^ k) : x.extractLsb' k n = 0 := by
  apply BitVec.eq_of_toNat_eq
  simp [Nat.shiftRight_eq_div_pow, Nat.div_eq_of_lt h]

/-- A small value is its low bits below zeros. -/
theorem zeros_append_low {m : Nat} {x : BitVec m} {k n : Nat} (h : x.toNat < 2 ^ k) : 0#n ++ x.extractLsb' 0 k = x.setWidth (n + k) := by
  apply BitVec.eq_of_toNat_eq
  have hk : 2 ^ k ≤ 2 ^ (n + k) := Nat.pow_le_pow_right (by omega) (by omega)
  simp [Nat.mod_eq_of_lt h, Nat.mod_eq_of_lt (Nat.lt_of_lt_of_le h hk)]

/-! ### The control core: standard instructions -/

theorem decodeRv_csr (op : CsrOp) (rd : XReg) (src : CsrSrc) (num : BitVec 12) :
    decodeRv (encodeCsr op rd src num) = some (csrInstr op rd src num) := by
  cases op <;> cases src <;> simp [decodeRv, decodeRv32, encodeCsr, bits]

theorem decodeRv_aluImm {op : RvAlu} {rd rs1 : XReg} {imm : BitVec 12} (h : (Rv.aluImm op rd rs1 imm).wf = true) :
    decodeRv (encodeRv (.aluImm op rd rs1 imm)) = some (.rv64Instruction ⟨.aluImm op rd rs1 imm, false⟩) := by
  cases op with
  | sub => cases h
  | sll | srl | sra =>
    have hlt : imm.toNat < 2 ^ 6 := by simpa [Rv.wf] using h
    simp [encodeRv, decodeRv, decodeRv32, bits, aluFields, extractLsb'_of_lt hlt, zeros_append_low (n := 6) hlt]
  | add | slt | sltu | xor | or | and => simp [encodeRv, decodeRv, decodeRv32, bits, aluFields]

theorem decodeRv_aluImmW {op : RvAlu} {rd rs1 : XReg} {imm : BitVec 12} (h : (Rv.aluImmW op rd rs1 imm).wf = true) :
    decodeRv (encodeRv (.aluImmW op rd rs1 imm)) = some (.rv64Instruction ⟨.aluImmW op rd rs1 imm, false⟩) := by
  cases op with
  | sll | srl | sra =>
    have hlt : imm.toNat < 2 ^ 5 := by simpa [Rv.wf] using h
    simp [encodeRv, decodeRv, decodeRv32, bits, aluFields, extractLsb'_of_lt hlt, zeros_append_low (n := 7) hlt]
  | add => simp [encodeRv, decodeRv, decodeRv32, bits, aluFields]
  | sub | slt | sltu | xor | or | and => cases h

/-- Every standard instruction's word decodes to it, but a CSR instruction's, which `decodeRv_csr` tells. -/
theorem decodeRv_encodeRv {r : Rv} (h : r.wf = true) (hcsr : ∀ op rd src num, r ≠ .csr op rd src num) :
    decodeRv (encodeRv r) = some (.rv64Instruction ⟨r, false⟩) := by
  cases r with
  | csr op rd src num => exact absurd rfl (hcsr op rd src num)
  | illegal w => cases h
  | aluImm op rd rs1 imm => exact decodeRv_aluImm h
  | aluImmW op rd rs1 imm => exact decodeRv_aluImmW h
  | jal rd off =>
    have hbit : off.getLsbD 0 = false := by simpa [Rv.wf] using h
    simp [encodeRv, decodeRv, decodeRv32, bits, jumpOffset_eq hbit]
  | branch c rs1 rs2 off =>
    have hbit : off.getLsbD 0 = false := by simpa [Rv.wf] using h
    cases c <;> simp [encodeRv, decodeRv, decodeRv32, bits, condField, branchOffset_eq hbit]
  | load width s rd rs1 imm =>
    cases width <;> cases s
    case d.false => cases h
    all_goals simp [encodeRv, decodeRv, decodeRv32, bits, widthField]
  | store width rs1 rs2 imm => cases width <;> simp [encodeRv, decodeRv, decodeRv32, bits, widthField, storeOffset_eq]
  | alu op rd rs1 rs2 => cases op <;> simp [encodeRv, decodeRv, decodeRv32, bits, aluFields, rvAlu]
  | aluW op rd rs1 rs2 =>
    cases op with
    | add | sub | sll | srl | sra => simp [encodeRv, decodeRv, decodeRv32, bits, aluFields, rvAlu]
    | slt | sltu | xor | or | and => cases h
  | mul op rd rs1 rs2 => cases op <;> simp [encodeRv, decodeRv, decodeRv32, bits, mulField, rvMul]
  | mulW op rd rs1 rs2 =>
    cases op with
    | mulh | mulhsu | mulhu => cases h
    | mul | div | divu | rem | remu => simp [encodeRv, decodeRv, decodeRv32, bits, mulField, rvMul]
  | lr w64 aq rl rd rs1 | sc w64 aq rl rd rs1 rs2 =>
    cases w64 <;> simp [encodeRv, decodeRv, decodeRv32, bits, -BitVec.getLsbD_eq_getElem]
  | amo op w64 aq rl rd rs1 rs2 =>
    cases w64 <;> cases op <;> simp [encodeRv, decodeRv, decodeRv32, bits, amoField, rvAmo, -BitVec.getLsbD_eq_getElem]
  | lui rd imm | auipc rd imm | jalr rd rs1 imm | fence fm p s rd rs1 | fenceI rd rs1 imm | ecall | ebreak | mret | wfi =>
    simp [encodeRv, decodeRv, decodeRv32, bits]

/-- Which row a CSR instruction belongs to, by whether it writes (R155). -/
theorem csrInstr_eq (op : CsrOp) (rd : XReg) (src : CsrSrc) (num : BitVec 12) : csrInstr op rd src num =
    if csrChanges op src && num == 0x7C0 then .nflagsWrite op rd src
    else if csrChanges op src && num == 0x7C1 then .dbgctlWrite op rd src
    else if csrChanges op src && num == 0x7C2 then .ctimecmpWrite op rd src
    else if csrChanges op src && 0xBC0 ≤ num.toNat && num.toNat ≤ 0xBDF then .cbankWrite (bits num 0 5) op rd src
    else .rv64Instruction ⟨.csr op rd src num, false⟩ := rfl

/-- The numbers of the constant bank's CSRs (R155). -/
theorem cbankNum_range (n : BitVec 5) : 0xBC0 ≤ (0b1011110#7 ++ n).toNat ∧ (0b1011110#7 ++ n).toNat ≤ 0xBDF := by
  revert n
  decide

theorem csrInstr_cbank {op : CsrOp} {rd : XReg} {src : CsrSrc} (h : csrChanges op src = true) (n : BitVec 5) :
    csrInstr op rd src (0b1011110#7 ++ n) = .cbankWrite n op rd src := by
  obtain ⟨hlow, hhigh⟩ := cbankNum_range n
  have hne : ∀ k : BitVec 12, k.toNat < 0xBC0 → (0b1011110#7 ++ n == k) = false := fun k hk =>
    beq_eq_false_iff_ne.mpr fun he => by rw [he] at hlow; omega
  rw [csrInstr_eq, h, hne 0x7C0 (by decide), hne 0x7C1 (by decide), hne 0x7C2 (by decide)]
  simp [hlow, hhigh, bits]

/-- Every word of the control core decodes to its instruction. -/
theorem decodeRv_encodeControl {i : Instr} {w : W32} (h : encodeControl i = some w) (hwf : i.wf = true) : decodeRv w = some i := by
  cases i with
  | rv64Instruction r =>
    obtain ⟨r, short⟩ := r
    have hr : r.wf = true := hwf
    cases short with
    | true => cases h
    | false =>
      cases h
      by_cases hcsr : ∃ op rd src num, r = .csr op rd src num
      · obtain ⟨op, rd, src, num, rfl⟩ := hcsr
        have hstd : csrInstr op rd src num = .rv64Instruction ⟨.csr op rd src num, false⟩ := by simpa [Rv.wf] using hr
        exact (decodeRv_csr op rd src num).trans (congrArg some hstd)
      · exact decodeRv_encodeRv hr fun op rd src num he => hcsr ⟨op, rd, src, num, he⟩
  | nflagsWrite op rd src | dbgctlWrite op rd src | ctimecmpWrite op rd src =>
    have hch : csrChanges op src = true := hwf
    cases h
    simp [decodeRv_csr, csrInstr_eq, hch]
  | cbankWrite n op rd src =>
    have hch : csrChanges op src = true := hwf
    cases h
    rw [decodeRv_csr, csrInstr_cbank hch]
  | cphase s | cfence s =>
    have hs : s.toNat ≤ 8 := of_decide_eq_true hwf
    obtain ⟨h0, h1⟩ := toNat_scopeField s
    cases h
    rw [decodeRv_custom]
    simp [decodeCustom, encodeCustom, bits, h0, h1]
    omega
  | cblk a b | cblkw | cevt d | cevtNb d | csemSig a b | csemWait a b | csemTry d a b | csemRd d a | csemSet a b | cframeRep d
  | cframeEnd a | cresume | cwid d | ctis d a | cpds d a =>
    cases h
    rw [decodeRv_custom]
    simp [decodeCustom, encodeCustom, bits]
  | _ => cases h

/-- Settles O58: each word's fields are its instruction's, and the decoders branch on them. -/
theorem tileQueueAndControlEncodingsRoundTrip : Obligations.TileQueueAndControlEncodingsRoundTrip := by
  refine ⟨fun i top t h hwf => ?_, fun i op q h hwf => decodeQueue_of_wf h hwf, fun i w h hwf => decodeRv_encodeControl h hwf⟩
  have hlane : i.lane? = none := Instr.lane?_of_tile? h
  have htile : t.wf = true := by simpa only [Instr.wf, hlane, h] using hwf
  rw [decodeTile_words htile, tileInstr_of_tile? h]

end Sys2Proof
end

section
/-! SUPPORT. Two updates of the core being served are one, and a fold may read once what its steps keep. -/
namespace Sys2Proof.Machine

/-- Two changes of one core are one; a core that does not exist is not changed. -/
theorem Mach.modCore_twice (m : Mach) (n : Nat) (f g : Core → Core) : (m.modCore n f).modCore n g = m.modCore n fun c => g (f c) := by
  by_cases h : n < m.cores.length
  · exact Mach.modCore_modCore m n f g h
  · have hout : ∀ (f : Core → Core), m.modCore n f = m := fun f => by
      rw [Mach.modCore, Mach.setCore, List.set_eq_of_length_le (Nat.le_of_not_lt h)]
    rw [hout, hout, hout]

theorem Mach.modMe_modMe (m : Mach) (f g : Core → Core) : (m.modMe f).modMe g = m.modMe fun c => g (f c) :=
  Mach.modCore_twice m m.cur f g

/-- What each step keeps is read once for the whole fold. -/
theorem foldl_read_once {α β γ : Type} (g : β → γ) {f : γ → β → α → β} (h : ∀ c b a, g (f c b a) = g b) (xs : List α) (b : β) :
    xs.foldl (fun b a => f (g b) b a) b = xs.foldl (f (g b)) b := by
  induction xs generalizing b with
  | nil => rfl
  | cons x xs ih => rw [List.foldl_cons, ih, h, List.foldl_cons]

@[simp] theorem Mach.startWake_now (m : Mach) (d : DomRef) (t : Nat) : (m.startWake d t).now = m.now := by
  unfold Mach.startWake
  split <;> simp

end Sys2Proof.Machine
end

section
/-! The other lanes of the S stream issue with their results and effects (R88, R112 to R120, R133 to R147, R196 to R219). -/
namespace Sys2Proof.Machine

/-! ### Moves, selects, compares and reads -/

/-- Settles O2: each lane of the table runs with the use, and puts in flight the result, that the table names. -/
theorem scalarMovesComplete : Obligations.ScalarMovesComplete := by
  intro s l i k u d hmem hready
  simp only [Claims.scalarMoves, List.mem_cons, Prod.mk.injEq, List.not_mem_nil, or_false] at hmem
  rcases hmem with ⟨rfl, rfl, rfl, rfl⟩ | ⟨rfl, rfl, rfl, rfl⟩ | ⟨rfl, rfl, rfl, rfl⟩ | ⟨rfl, rfl, rfl, rfl⟩ | ⟨rfl, rfl, rfl, rfl⟩ |
    ⟨rfl, rfl, rfl, rfl⟩ | ⟨rfl, rfl, rfl, rfl⟩
  · show execSMovi _ s = _
    exact runS_issues hready rfl
  · show execSMoviH _ s = _
    exact runS_issues hready rfl
  · show execSSel _ s = _
    exact runS_issues hready rfl
  · show execSCmp _ s = _
    exact runS_issues hready rfl
  · show execSPset _ s = _
    exact runS_issues hready rfl
  · show execSRdwid _ s = _
    exact runS_issues hready rfl
  · show execSPdq _ s = _
    exact runS_issues hready rfl

/-! ### Format registers and power domains -/

theorem formatRegistersComplete : Claims.FormatRegistersComplete := by
  intro s l p n hsel
  refine ⟨fun h => ?get, fun h => ?set⟩
  case get =>
    show execSBkfmtGet l s = _
    exact runS_issues h (by simp only [hsel])
  case set =>
    show execSBkfmtSet l s = _
    exact runS_issues h (by simp only [hsel])

theorem powerLanesComplete : Claims.PowerLanesComplete := by
  intro s l m ds
  refine ⟨fun h => ?wake, fun h => ?sleep⟩
  case wake =>
    have hnow : (ds.foldl (fun x d => if (x.dom d).st == .on then x.setDom d { (x.dom d) with pend := none, slept := 0 } else x) m).now = m.now :=
      foldl_keep Mach.now (fun x d => by split <;> simp) ds m
    show execSWake l s = _
    refine runS_issues h ?_
    dsimp only
    rw [foldl_read_once Mach.now (f := fun t (x : Mach) d => x.startWake d t) (fun t x d => Mach.startWake_now x d t), hnow]
  case sleep =>
    show execSSleep l s = _
    exact runS_issues h rfl

/-- Settles O5: BKFMT, WAKE and SLEEP issue with the effect of their acts. -/
theorem formatsAndPowerLanesComplete : Obligations.FormatsAndPowerLanesComplete := ⟨formatRegistersComplete, powerLanesComplete⟩

/-! ### Loads and stores -/

/-- Settles O3: the access issues on its route, and an STG without its page is held while its walk is made. -/
theorem scalarMemoryCompletes : Obligations.ScalarMemoryCompletes := by
  intro s l
  dsimp only
  refine ⟨fun h hlvl => ?ld, fun h hlvl => ?ldRoute, fun h => ?st, fun h => ?ldg, fun h pa hpa => ?stg, fun h hmiss => ?stgMiss⟩
  case ld =>
    show execSLd l s = _
    unfold execSLd
    refine runS_issues h ?_
    dsimp only
    rewrite [if_pos hlvl, hlvl]
    rfl
  case ldRoute =>
    show execSLd l s = _
    unfold execSLd
    refine runS_issues h ?_
    dsimp only
    rw [if_neg hlvl]
  case st =>
    show execSSt l s = _
    unfold execSSt
    exact runS_issues h rfl
  case ldg =>
    show execSLdg l s = _
    unfold execSLdg
    exact runS_issues h rfl
  case stg =>
    show execSStg l s = _
    unfold execSStg
    refine runS_issues h ?_
    dsimp only
    rewrite [hpa]
    rfl
  case stgMiss =>
    show execSStg l s = _
    unfold execSStg
    cases hwalk : s.m.me.stgWalk (Lane.address s.m.me l) with
    | none =>
      refine (runS_holds h (by dsimp only; rw [hmiss, hwalk])).trans ?_
      rewrite [Mach.modMe_modMe]
      rfl
    | some w =>
      by_cases hdone : w.done = true
      · refine (runS_holds h (by dsimp only; rw [hmiss, hwalk]; exact if_pos hdone)).trans ?_
        rw [Mach.modMe_modMe]
        simp only [hdone, if_true]
        rfl
      · refine (runS_holds h (by dsimp only; rw [hmiss, hwalk]; exact if_neg hdone)).trans ?_
        simp only [hdone]
        rfl

end Sys2Proof.Machine
end

section
/-! ATOM, and the synchronising, barrier, NOP and WAIT lanes (R47, R143, R146, R147, R204 to R216). -/
namespace Sys2Proof.Machine

/-! ### ATOM -/

/-- With its release boundary behind it, or without one, ATOM acts. -/
theorem execSAtom_acts {l : Lane} {s : State} {m : Mach} (h : SReady s.m l (useSAtom l s.m))
    (hrel : l.imm.getLsbD 11 = false ∨ ∃ t, s.m.me.scal.rel.1 = some t ∧ t < s.m.now) (ha : atomAct l s.m = .done m 0) :
    exec (.sAtom l) s = .next (s.issuedS (useSAtom l s.m) m) := by
  show execSAtom l s = _
  refine runS_issues h ?_
  dsimp only
  rcases hrel with hno | ⟨t, ht, hlt⟩
  · rw [if_neg (ne_true_of_eq_false hno)]
    exact ha
  · split
    · rw [ht]
      dsimp only
      rw [if_pos hlt]
      exact ha
    · exact ha

/-- Settles O4: ATOM acts by the level of its address, or its release boundary takes effect first. -/
theorem atomCompletes : Obligations.AtomCompletes := by
  intro s l h
  dsimp only
  refine ⟨fun hrel => ⟨fun hlvl => ?core, fun k r hlvl hr => ?wide, fun w r hlvl hpin hr => ?pinned, fun hlvl hpin => ?sent⟩, fun hrel hno hquiet => ?release⟩
  case core =>
    refine execSAtom_acts h hrel ?_
    unfold atomAct
    dsimp only
    rewrite [hlvl]
    rfl
  case wide =>
    refine execSAtom_acts h hrel ?_
    unfold atomAct
    dsimp only
    rw [hlvl]
    simp only [Nat.add_one_sub_one]
    rw [hr]
  case pinned =>
    refine execSAtom_acts h hrel ?_
    unfold atomAct
    dsimp only
    rw [hlvl, hpin]
    dsimp only
    rewrite [hr]
    rfl
  case sent =>
    refine execSAtom_acts h hrel ?_
    unfold atomAct
    dsimp only
    rewrite [hlvl, hpin]
    rfl
  case release =>
    show execSAtom l s = _
    exact runS_holds h (by dsimp only; rw [if_pos hrel, hno]; exact if_pos hquiet)

/-! ### Queues, semaphores, pennants, fences, phases, rings and tile waits -/

theorem Core.semTake_isNone (c : Core) (n k : Nat) : (c.semTake n k).isNone = decide (c.semCount n < k) := by
  unfold Core.semTake
  split
  case isTrue hle => simp [Nat.not_lt.mpr hle]
  case isFalse hlt => simp [Nat.not_le.mp hlt]

theorem Core.semTake_getD {c : Core} {n k : Nat} (h : k ≤ c.semCount n) (d : Core) :
    (c.semTake n k).getD d = c.setSem n (c.semCount n - k) := by
  rw [Core.semTake, if_pos h, Option.getD_some]

/-- The core being served is changed by what its own value says. -/
theorem Mach.modMe_congr {m : Mach} {f g : Core → Core} (h : f m.me = g m.me) : m.modMe f = m.modMe g := by
  unfold Mach.modMe Mach.modCore
  exact congrArg (m.setCore m.cur) h

theorem scalarSyncCompletes : Claims.ScalarSyncCompletes := by
  intro s l i u m' hmem hcur hready
  simp only [Claims.scalarSync, List.mem_cons, Prod.mk.injEq, List.not_mem_nil, or_false] at hmem
  rcases hmem with ⟨rfl, rfl, rfl⟩ | ⟨rfl, rfl, rfl⟩ | ⟨rfl, rfl, rfl⟩ | ⟨rfl, rfl, rfl⟩ | ⟨rfl, rfl, rfl⟩ |
    ⟨rfl, rfl, rfl⟩ | ⟨rfl, rfl, rfl⟩ | ⟨rfl, rfl, rfl⟩
  · show execSQpush l s = _
    exact runS_issues hready rfl
  · have hle : s.m.me.sCount l ≤ s.m.me.semCount l.dst.toNat := Nat.not_lt.mp (of_decide_eq_false hready.2.2.1)
    rw [← Core.semTake_isNone] at hready
    show execSSemw l s = _
    refine (runS_issues hready rfl).trans ?_
    have htaken : s.m.modMe (fun c => (c.semTake l.dst.toNat (c.sCount l)).getD c) =
        s.m.modMe fun c => c.setSem l.dst.toNat (c.semCount l.dst.toNat - c.sCount l) := Mach.modMe_congr (Core.semTake_getD hle _)
    rewrite [htaken]
    rfl
  · show execSSems l s = _
    exact runS_issues hready rfl
  · show execSPnwait l s = _
    exact runS_issues hready rfl
  · show execSFence l s = _
    exact runS_issues hready rfl
  · show execSPhase l s = _
    exact runS_issues hready rfl
  · show execSRingset l s = _
    exact runS_issues hready rfl
  · show execSTjoin l s = _
    exact runS_issues hready rfl

/-! ### Barriers -/

theorem barriersComplete : Claims.BarriersComplete := by
  intro s l
  refine ⟨fun h => ?init, fun h => ?initt, fun h => ?join, fun h => ?leave, fun h => ?arr, fun h hdone => ?wait⟩
  case init =>
    show execSBarInit l s = _
    exact runS_issues h rfl
  case initt =>
    show execSBarInitt l s = _
    exact runS_issues h rfl
  case join =>
    show execSBarJoin l s = _
    exact runS_issues h rfl
  case leave =>
    show execSBarLeave l s = _
    exact runS_issues h rfl
  case arr =>
    show execSBarArr l s = _
    exact runS_issues h rfl
  case wait =>
    show execSBarWait l s = _
    refine runS_issues h ?_
    dsimp only
    rw [if_neg (ne_true_of_eq_false hdone)]
    exact (apply_ite (LaneOut.done · 0) _ _ _).symm

/-! ### NOP and WAIT.C -/

theorem nopAndWaitComplete : Claims.NopAndWaitComplete := by
  intro s st l hfree
  have hgo : (st == .s && s.m.me.sBlocked s.m.now) = false := by
    cases st with
    | s => exact hfree rfl
    | _ => rfl
  refine ⟨?nop, ?waitC⟩
  case nop =>
    show execNop st l s = _
    exact runLane_done (if_neg (ne_true_of_eq_false hgo))
  case waitC =>
    show execWaitC st l s = _
    exact runLane_done (if_neg (ne_true_of_eq_false hgo))

/-- Settles O6: each lane runs with the use, and the act, that its statement names. -/
theorem scalarSyncAndWaitsComplete : Obligations.ScalarSyncAndWaitsComplete :=
  ⟨scalarSyncCompletes, barriersComplete, nopAndWaitComplete⟩

end Sys2Proof.Machine
end

section
/-! The V stream (R220 to R258): element-wise lanes, compares, conversions, axes, memory, exchanges and masks, and all-false masks. -/
namespace Sys2Proof.Machine

/-! ### Element-wise lanes -/

/-- An instruction runs in `s` as a V lane that uses its operands and puts the selected lanes' values in flight. -/
def RunsLanes (s : State) (l : Lane) (i : Instr) (lat : Nat) (os : List VOp) (f : Nat → W32 × Flags) : Prop :=
  let mask := s.m.me.mreg l.p.toNat
  ∃ use act, exec i s = runV l maskClusters use act s ∧ use s.m mask = VUse.ops os l.dst.toNat ∧
    act s.m mask = .done (s.m.write .v lat (.v l.dst (maskedLanes mask f).1 mask) (maskedLanes mask f).2) 0

theorem runsLanes_of_vLanes {s : State} {l : Lane} {i : Instr} {lat : Nat} {k : LitKind} {t : Fmt} {f : W32 → W32 → W32 × Flags}
    (h : exec i s = vLanes l lat k t f s) :
    RunsLanes s l i lat [s.m.me.vA l k t, s.m.me.vB l k t] fun n => f ((s.m.me.vA l k t).lane n) ((s.m.me.vB l k t).lane n) :=
  ⟨_, _, h, rfl, rfl⟩

theorem runsLanes_of_vLanesA {s : State} {l : Lane} {i : Instr} {lat : Nat} {k : LitKind} {t : Fmt} {f : W32 → W32 × Flags}
    (h : exec i s = vLanesA l lat k t f s) : RunsLanes s l i lat [s.m.me.vA l k t] fun n => f ((s.m.me.vA l k t).lane n) :=
  ⟨_, _, h, rfl, rfl⟩

/-- Lanes that set no flag set none together. -/
theorem maskedLanes_flags_zero (mask : BitVec 1024) (g : Nat → W32) : (maskedLanes mask fun n => (g n, 0)).2 = 0 := by
  unfold maskedLanes
  dsimp only
  rw [List.foldl_map]
  refine (foldl_keep (fun a => a) (fun a n => ?_) _ 0)
  split <;> exact BitVec.or_zero

/-- Each lane of the table runs as the table says. -/
theorem vectorLanes_run {s : State} {l : Lane} {i : Instr} {lat : Nat} {os : List VOp} {f : Nat → W32 × Flags}
    (hmem : (i, lat, os, f) ∈ Claims.vectorLanes l s.m.me) : RunsLanes s l i lat os f := by
  simp only [Claims.vectorLanes, List.mem_cons, Prod.mk.injEq, List.not_mem_nil, or_false] at hmem
  rcases hmem with ⟨rfl, rfl, rfl, rfl⟩ | ⟨rfl, rfl, rfl, rfl⟩ | ⟨rfl, rfl, rfl, rfl⟩ | ⟨rfl, rfl, rfl, rfl⟩ | ⟨rfl, rfl, rfl, rfl⟩ | ⟨rfl, rfl, rfl, rfl⟩ |
    ⟨rfl, rfl, rfl, rfl⟩ | ⟨rfl, rfl, rfl, rfl⟩ | ⟨rfl, rfl, rfl, rfl⟩ | ⟨rfl, rfl, rfl, rfl⟩ | ⟨rfl, rfl, rfl, rfl⟩ | ⟨rfl, rfl, rfl, rfl⟩ |
    ⟨rfl, rfl, rfl, rfl⟩ | ⟨rfl, rfl, rfl, rfl⟩ | ⟨rfl, rfl, rfl, rfl⟩ | ⟨rfl, rfl, rfl, rfl⟩ | ⟨rfl, rfl, rfl, rfl⟩ | ⟨rfl, rfl, rfl, rfl⟩ |
    ⟨rfl, rfl, rfl, rfl⟩ | ⟨rfl, rfl, rfl, rfl⟩ | ⟨rfl, rfl, rfl, rfl⟩ | ⟨rfl, rfl, rfl, rfl⟩ | ⟨rfl, rfl, rfl, rfl⟩ | ⟨rfl, rfl, rfl, rfl⟩ |
    ⟨rfl, rfl, rfl, rfl⟩ | ⟨rfl, rfl, rfl, rfl⟩ | ⟨rfl, rfl, rfl, rfl⟩ | ⟨rfl, rfl, rfl, rfl⟩ | ⟨rfl, rfl, rfl, rfl⟩ | ⟨rfl, rfl, rfl, rfl⟩ |
    ⟨rfl, rfl, rfl, rfl⟩
  -- floats
  · exact runsLanes_of_vLanes (f := floatLane 0 (typeF l.fn) l.rm l.sat) rfl
  · exact runsLanes_of_vLanes (f := floatLane 1 (typeF l.fn) l.rm l.sat) rfl
  · exact runsLanes_of_vLanes (f := floatLane 2 (typeF l.fn) l.rm l.sat) rfl
  · have hexec : exec (.vfma l) s = execVfma l s := rfl
    unfold execVfma at hexec
    exact ⟨_, _, hexec, rfl, rfl⟩
  · exact runsLanes_of_vLanes (f := minmaxLane false (typeF l.fn)) rfl
  · exact runsLanes_of_vLanes (f := minmaxLane true (typeF l.fn)) rfl
  · exact runsLanes_of_vLanesA (f := absLane (typeF l.fn)) rfl
  -- integers
  · exact runsLanes_of_vLanes (f := intLane 0 (typeS l.fn) l.sat) rfl
  · exact runsLanes_of_vLanes (f := intLane 1 (typeS l.fn) l.sat) rfl
  · exact runsLanes_of_vLanes (f := intLane 2 (typeS l.fn) l.sat) rfl
  · exact runsLanes_of_vLanes (f := intLane 3 (typeS l.fn) false) rfl
  · exact runsLanes_of_vLanes (f := intLane 4 (typeS l.fn) false) rfl
  · exact runsLanes_of_vLanes (f := intLane 0 (typeZ l.fn) l.sat) rfl
  · exact runsLanes_of_vLanes (f := intLane 1 (typeZ l.fn) l.sat) rfl
  · exact runsLanes_of_vLanes (f := intLane 2 (typeZ l.fn) l.sat) rfl
  · exact runsLanes_of_vLanes (f := intLane 3 (typeZ l.fn) false) rfl
  · exact runsLanes_of_vLanes (f := intLane 4 (typeZ l.fn) false) rfl
  -- logic, shifts and moves
  · exact runsLanes_of_vLanes (f := fun a b => (a &&& b, 0)) rfl
  · exact runsLanes_of_vLanes (f := fun a b => (a ||| b, 0)) rfl
  · exact runsLanes_of_vLanes (f := fun a b => (a ^^^ b, 0)) rfl
  · exact runsLanes_of_vLanesA (f := fun a => (~~~a, 0)) rfl
  · exact runsLanes_of_vLanes (f := shiftLane 0 (typeZ l.fn) (shiftLit l)) rfl
  · exact runsLanes_of_vLanes (f := shiftLane 1 (typeZ l.fn) (shiftLit l)) rfl
  · exact runsLanes_of_vLanes (f := shiftLane 2 (typeS l.fn) (shiftLit l)) rfl
  · have hexec : exec (.vmov l) s = execVmov l s := rfl
    unfold execVmov at hexec
    exact ⟨_, _, hexec, rfl, by rw [maskedLanes_flags_zero]⟩
  · exact runsLanes_of_vLanes (f := packLane l.fn l.sat) rfl
  · exact runsLanes_of_vLanesA (f := unpackLane l.fn l.litU) rfl
  -- special functions
  · exact runsLanes_of_vLanesA (f := specialLane 0 (typeF l.fn) l.rm l.sat) rfl
  · exact runsLanes_of_vLanesA (f := specialLane 1 (typeF l.fn) l.rm l.sat) rfl
  · exact runsLanes_of_vLanesA (f := specialLane 2 (typeF l.fn) l.rm l.sat) rfl
  · exact runsLanes_of_vLanesA (f := specialLane 3 (typeF l.fn) l.rm l.sat) rfl

/-- Settles O7: each lane of the table computes its selected lanes from the operands that the table names. -/
theorem vectorLanesComplete : Obligations.VectorLanesComplete := by
  intro s l i lat os f hmem mask hready
  obtain ⟨use, act, hexec, huse, hact⟩ := vectorLanes_run hmem
  rw [hexec]
  exact runV_issues (huse ▸ hready) hact

/-! ### Compares, selects and conversions -/

/-- The bits of a list of choices, folded to a number from the last: bit `n` is the choice of element `n`. -/
theorem testBit_foldr_bits {α : Type} (b : α → Bool) (xs : List α) (n : Nat) :
    (xs.foldr (fun i k => 2 * k + if b i then 1 else 0) 0).testBit n = (xs[n]?.any b) := by
  induction xs generalizing n with
  | nil => simp
  | cons x xs ih =>
    rw [List.foldr_cons]
    cases n with
    | zero => cases h : b x <;> simp [h, Nat.testBit_zero]
    | succ n =>
      rw [Nat.testBit_succ, List.getElem?_cons_succ, ← ih]
      congr 1
      split <;> omega

/-- A lane mask built lane by lane holds the choice of each lane. -/
theorem getLsbD_foldr_lanes (b : Nat → Bool) {n : Nat} (h : n < 1024) :
    (BitVec.ofNat 1024 ((List.range 1024).foldr (fun i k => 2 * k + if b i then 1 else 0) 0)).getLsbD n = b n := by
  rewrite [BitVec.getLsbD_ofNat, testBit_foldr_bits, List.getElem?_range h, decide_eq_true h, Bool.true_and]
  rfl

theorem vCompare_issues {l : Lane} {k : LitKind} {t : Fmt} {cond : Nat → Nat → Nat → Bool} {s : State}
    (h : VReady s.m l (maskClusters (s.m.me.mreg l.p.toNat))
      { VUse.ops [s.m.me.vA l k t, s.m.me.vB l k t] 0 with own := [.m (l.dst.toNat % 8)] }) :
    ∃ img : BitVec 1024,
      (∀ n, n < 1024 → img.getLsbD n = ((s.m.me.mreg l.p.toNat).getLsbD n && (List.range (subsOf t)).all fun j =>
        cond (l.dst.toNat / 8) (subOf t ((s.m.me.vA l k t).lane n) j) (subOf t ((s.m.me.vB l k t).lane n) j))) ∧
      vCompare l k t cond s = .next (s.issued .v 0 (s.m.write .v 2 (.m (l.dst.setWidth 3) img (s.m.me.mreg l.p.toNat)) 0)) :=
  ⟨_, fun _ hn => getLsbD_foldr_lanes _ hn, runV_issues h rfl⟩

/-- The conversions from or to FP64 are the lanes that `useVcvt` says read no old lane of the destination. -/
theorem vcvt_wide (l : Lane) : (cvtSrc l == 0x0B || cvtDst l == 0x0B) = true ↔ cvtSrc l = 0x0B ∨ cvtDst l = 0x0B := by
  rw [Bool.or_eq_true, beq_iff_eq, beq_iff_eq]

/-- Settles O8: the compares, VSEL with its selector, and VCVT outside and in FP64. -/
theorem vectorComparesSelectsAndConversionsComplete : Obligations.VectorComparesSelectsAndConversionsComplete := by
  intro s l
  dsimp only
  refine ⟨fun i k t cond hmem h => ?compare, fun h => ?vsel, fun h => ⟨fun hsrc hdst => ?narrow, fun hwide => ?wide⟩⟩
  case compare =>
    simp only [List.mem_cons, Prod.mk.injEq, List.not_mem_nil, or_false] at hmem
    rcases hmem with ⟨rfl, rfl, rfl, rfl⟩ | ⟨rfl, rfl, rfl, rfl⟩ | ⟨rfl, rfl, rfl, rfl⟩
    · exact vCompare_issues (cond := fun k x y => condF k ((fmtF (typeF l.fn)).dec x) ((fmtF (typeF l.fn)).dec y)) h
    · exact vCompare_issues h
    · exact vCompare_issues h
  case vsel =>
    show execVsel l s = _
    exact runV_issues h rfl
  case narrow =>
    show execVcvt l s = _
    unfold execVcvt
    refine runV_issues h ?_
    dsimp only
    rw [if_neg (fun hw => ((vcvt_wide l).mp hw).elim hsrc hdst)]
  case wide =>
    have hbit := fun n (hn : n < 1024) => getLsbD_foldr_lanes
      (fun i => (cvt64Lane (cvtSrc l) (cvtDst l) l.fn.toNat l.rm l.sat ((s.m.me.vA l 3 0).vec.getD 0) i).2.2) hn
    refine ⟨s.m.me.mreg l.p.toNat &&& _, fun n hn => by rw [BitVec.getLsbD_and, hbit n hn], ?_⟩
    show execVcvt l s = _
    unfold execVcvt
    refine runV_issues h ?_
    dsimp only
    rw [if_pos ((vcvt_wide l).mpr hwide)]

/-! ### Rotations, broadcasts, reductions and scans -/

theorem vMove_issues {l : Lane} {lat : Nat} {src : Nat → Nat → Nat} {s : State}
    (h : VReady s.m l (maskClusters (s.m.me.mreg l.p.toNat)) { VUse.one l.a.toNat l.dst.toNat with regs := (s.m.me.vAmount l).regs }) :
    vMove l lat src s = .next (s.issued .v 0 (s.m.write .v lat (.v l.dst
      (maskedLanes (s.m.me.mreg l.p.toNat) fun n => (laneAt (s.m.vRead l.a.toNat) (src (s.m.me.vAmount l).pat.toNat n), 0)).1
      (s.m.me.mreg l.p.toNat)) 0)) :=
  runV_issues h rfl

theorem vReduce_issues {l : Lane} {lat : Nat} {cols scan : Bool} {s : State}
    (h : VReady s.m l (maskClusters (s.m.me.mreg l.p.toNat)) (VUse.one l.a.toNat l.dst.toNat)) :
    let r := reduceImage cols scan (combineLanes l.fn.toNat l.b.toNat l.rm l.sat) (s.m.me.mreg l.p.toNat) (s.m.me.vreg l.a.toNat)
    vReduce l lat cols scan s = .next (s.issued .v 0 (s.m.write .v lat (.v l.dst r.1 (s.m.me.mreg l.p.toNat)) r.2)) :=
  runV_issues h rfl

/-- Settles O9: the four moves of lanes, and the four reductions and scans. -/
theorem vectorAxesComplete : Obligations.VectorAxesComplete := by
  intro s l
  dsimp only
  refine ⟨fun i lat src hmem h => ?moves, fun i lat cols scan hmem h => ?reductions⟩
  case moves =>
    simp only [Claims.laneMoves, List.mem_cons, Prod.mk.injEq, List.not_mem_nil, or_false] at hmem
    rcases hmem with ⟨rfl, rfl, rfl⟩ | ⟨rfl, rfl, rfl⟩ | ⟨rfl, rfl, rfl⟩ | ⟨rfl, rfl, rfl⟩
    · exact vMove_issues (src := fun k n => n / 64 * 64 + (n % 64 + 64 - k % 64) % 64) h
    · exact vMove_issues (src := fun k n => (n / 64 + 16 - k % 16) % 16 * 64 + n % 64) h
    · exact vMove_issues (src := fun k n => n / 64 * 64 + k % 64) h
    · exact vMove_issues (src := fun k n => k % 16 * 64 + n % 64) h
  case reductions =>
    simp only [Claims.reductions, List.mem_cons, Prod.mk.injEq, List.not_mem_nil, or_false] at hmem
    rcases hmem with ⟨rfl, rfl, rfl, rfl⟩ | ⟨rfl, rfl, rfl, rfl⟩ | ⟨rfl, rfl, rfl, rfl⟩ | ⟨rfl, rfl, rfl, rfl⟩
    iterate 4 exact vReduce_issues h

/-! ### Loads and stores -/

theorem vectorMemoryCompletes : Claims.VectorMemoryCompletes := by
  intro s l
  dsimp only
  refine ⟨fun h hlvl => ?vld, fun h hlvl => ?vldRoute, fun h => ?vst⟩
  case vld =>
    show execVld l s = _
    unfold execVld
    refine runV_issues h ?_
    dsimp only
    rw [if_pos hlvl]
  case vldRoute =>
    show execVld l s = _
    unfold execVld
    refine runV_issues h ?_
    dsimp only
    rw [if_neg hlvl]
  case vst =>
    show execVst l s = _
    unfold execVst
    exact runV_issues h rfl

theorem indexedRowsComplete : Claims.IndexedRowsComplete := by
  intro s l
  refine ⟨fun h => ?vldx, fun h => ?vstx⟩
  case vldx =>
    show execVldx l s = _
    exact runV_issues h rfl
  case vstx =>
    show execVstx l s = _
    exact runV_issues h rfl

/-- Settles O10: images, and rows by index. -/
theorem vectorMemoryAndRowsComplete : Obligations.VectorMemoryAndRowsComplete := ⟨vectorMemoryCompletes, indexedRowsComplete⟩

/-! ### Exchanges, semaphores and masks -/

/-- The first lane a mask selects is the one with none selected below it. -/
theorem find?_firstLane {mask : BitVec 1024} {n : Nat} (hn : n < 1024) (hset : mask.getLsbD n = true)
    (hfirst : ∀ k, k < n → mask.getLsbD k = false) : (List.range 1024).find? mask.getLsbD = some n :=
  List.find?_range_eq_some.mpr ⟨hset, List.mem_range.mpr hn, fun k hk => by rw [hfirst k hk]; rfl⟩

theorem vectorExchangeCompletes : Claims.VectorExchangeCompletes := by
  intro s l
  dsimp only
  refine ⟨fun h e r hq => ?vins, fun h hfree n hn hset hfirst => ?vext, fun h c' hc => ?vsemw, fun h => ?vsems⟩
  case vins =>
    have hheld : (s.m.me.qLen 0 == 0) = false := by rw [Core.qLen, hq]; rfl
    rw [← hheld] at h
    show execVins l s = _
    refine runV_issues h ?_
    dsimp only
    rewrite [hq]
    rfl
  case vext =>
    have hheld : (s.m.me.qFree s.m.now 1 == 0) = false := beq_false_of_ne (Nat.pos_iff_ne_zero.mp hfree)
    rw [← hheld] at h
    show execVext l s = _
    refine runV_issues h ?_
    dsimp only
    rewrite [find?_firstLane hn hset hfirst]
    rfl
  case vsemw =>
    have hheld : (s.m.me.semTake l.dst.toNat (s.m.me.xCount l)).isNone = false := by rw [hc]; rfl
    rw [← hheld] at h
    have htaken : s.m.modMe (fun c => (c.semTake l.dst.toNat (c.xCount l)).getD c) = s.m.modMe fun _ => c' :=
      Mach.modMe_congr (by rw [hc]; rfl)
    show execVsemw l s = _
    exact (runV_issues h rfl).trans (by rw [htaken])
  case vsems =>
    show execVsems l s = _
    exact runV_issues h rfl

theorem vMask_issues {l : Lane} {two : Bool} {f : BitVec 1024 → BitVec 1024 → BitVec 1024} {s : State}
    (h : VReady s.m l (maskClusters (s.m.me.mreg l.p.toNat))
      { regs := [], locs := .m (l.a.toNat % 8) :: (if two then [.m (l.b.toNat % 8)] else []), own := [.m (l.dst.toNat % 8)], held := false,
        traps := [] }) :
    vMask l two f s = .next (s.issued .v 0 (s.m.write .v 1
      (.m (l.dst.setWidth 3) (f (s.m.me.mreg (l.a.toNat % 8)) (s.m.me.mreg (l.b.toNat % 8))) (s.m.me.mreg l.p.toNat)) 0)) :=
  runV_issues h rfl

theorem maskLanesComplete : Claims.MaskLanesComplete := by
  intro s l i two f hmem mask h
  simp only [List.mem_cons, Prod.mk.injEq, List.not_mem_nil, or_false] at hmem
  rcases hmem with ⟨rfl, rfl, rfl⟩ | ⟨rfl, rfl, rfl⟩ | ⟨rfl, rfl, rfl⟩
  · show execVmand l s = _
    exact vMask_issues h
  · show execVmor l s = _
    exact vMask_issues h
  · show execVmnot l s = _
    exact vMask_issues h

/-- Settles O11: exchanges with the S stream, semaphores, and the mask instructions. -/
theorem vectorExchangesAndMasksComplete : Obligations.VectorExchangesAndMasksComplete := ⟨vectorExchangeCompletes, maskLanesComplete⟩

end Sys2Proof.Machine
end

section
/-! The M stream (R260 to R282): array operations, and the drains, moves, band scales and semaphores. -/
namespace Sys2Proof.Machine

/-! ### Array operations -/

theorem arrayLane_issues {op : Nat} {l : Lane} {s : State} (h : MReady s.m (useArrayLane op l s.m)) :
    arrayLane op l s = .next (s.issued .m 0 (s.m.issueArray op l (s.m.planArray op l))) :=
  runM_issues h rfl

/-- Settles O12: each of the four operations is an array lane, whose plan enters the outstanding operations. -/
theorem arrayOperationsComplete : Obligations.ArrayOperationsComplete := by
  intro s l i op hmem h
  simp only [List.mem_cons, Prod.mk.injEq, List.not_mem_nil, or_false] at hmem
  rcases hmem with ⟨rfl, rfl⟩ | ⟨rfl, rfl⟩ | ⟨rfl, rfl⟩ | ⟨rfl, rfl⟩
  iterate 4 exact arrayLane_issues h

/-! ### Zeroing, band scales and semaphores -/

theorem matrixSmallLanesComplete : Claims.MatrixSmallLanesComplete := by
  intro s l i u m' hmem h
  simp only [Claims.matrixSmall, List.mem_cons, Prod.mk.injEq, List.not_mem_nil, or_false] at hmem
  rcases hmem with ⟨rfl, rfl, rfl⟩ | ⟨rfl, rfl, rfl⟩ | ⟨rfl, rfl, rfl⟩ | ⟨rfl, rfl, rfl⟩ | ⟨rfl, rfl, rfl⟩
  · show execMzero l s = _
    exact runM_issues h rfl
  · show execMsba l s = _
    exact runM_issues h rfl
  · show execMsbb l s = _
    exact runM_issues h rfl
  · have hle : s.m.me.xCount l ≤ s.m.me.semCount l.dst.toNat := Nat.not_lt.mp (of_decide_eq_false h.1)
    rw [← Core.semTake_isNone] at h
    have htaken : s.m.modMe (fun c => (c.semTake l.dst.toNat (c.xCount l)).getD c) =
        s.m.modMe fun c => c.setSem l.dst.toNat (c.semCount l.dst.toNat - c.xCount l) := Mach.modMe_congr (Core.semTake_getD hle _)
    show execMsemw l s = _
    exact (runM_issues h rfl).trans (by rw [htaken])
  · show execMsems l s = _
    exact runM_issues h rfl

/-! ### Drains and accumulator moves -/

theorem matrixMovesComplete : Claims.MatrixMovesComplete := by
  intro s l
  dsimp only
  refine ⟨fun h => ?mdrain, fun h hlvl => ?mldacc, fun h hlvl => ?mldaccRoute, fun h => ?mstacc⟩
  case mdrain =>
    show execMdrain l s = _
    unfold execMdrain
    exact runM_issues h rfl
  case mldacc =>
    show execMldacc l s = _
    unfold execMldacc
    refine runM_issues h ?_
    dsimp only
    rw [if_pos hlvl]
  case mldaccRoute =>
    show execMldacc l s = _
    unfold execMldacc
    refine runM_issues h ?_
    dsimp only
    rw [if_neg hlvl]
  case mstacc =>
    show execMstacc l s = _
    unfold execMstacc
    exact runM_issues h rfl

/-- Settles O14: each lane runs with the use, and the act, that its statement names. -/
theorem matrixLanesAndMovesComplete : Obligations.MatrixLanesAndMovesComplete := ⟨matrixSmallLanesComplete, matrixMovesComplete⟩

end Sys2Proof.Machine
end

section
/-! SUPPORT. What a stop of a core's streams does, the fault a lane reports, and folds over cores (R54, R166, R167). -/
namespace Sys2Proof.Machine

/-! ### A core put back -/

theorem Mach.setCore_core (m : Mach) (n : Nat) : m.setCore n (m.core n) = m := by
  have hset : m.cores.set n (m.core n) = m.cores := by
    by_cases h : n < m.cores.length
    · rw [Mach.core, nth, List.getD_eq_getElem _ _ h, List.set_getElem_self]
    · exact List.set_eq_of_length_le (Nat.le_of_not_lt h)
  rw [Mach.setCore, hset]

theorem Mach.modCore_eq_self {m : Mach} {n : Nat} {f : Core → Core} (h : f (m.core n) = m.core n) : m.modCore n f = m := by
  rw [Mach.modCore, h, Mach.setCore_core]

/-- Each core of a list without repetition changed by `f`: the cores of the list, and no other, are changed. -/
theorem Mach.core_foldl_modCore (f : Core → Core) (n : Nat) {ks : List Nat} (hnodup : ks.Nodup) {m : Mach} (hlen : ∀ k ∈ ks, k < m.cores.length) :
    (ks.foldl (fun m k => m.modCore k f) m).core n = if n ∈ ks then f (m.core n) else m.core n := by
  induction ks generalizing m with
  | nil => simp
  | cons k ks ih =>
    obtain ⟨hk, hnodup⟩ := List.nodup_cons.mp hnodup
    rw [List.foldl_cons, ih hnodup fun j hj => by simpa using hlen j (List.mem_cons_of_mem k hj)]
    by_cases hn : n = k
    · subst hn
      simp [hk, Mach.core_modCore m f (hlen n List.mem_cons_self)]
    · simp [hn]

/-! ### The fault reported -/

/-- Of faults met, one of the lowest code is reported. -/
theorem firstTrap_least {ts : List Trap} (h : ts ≠ []) :
    ∃ t ∈ ts, (∀ x ∈ ts, t.code.toNat ≤ x.code.toNat) ∧ firstTrap ts = some t := by
  induction ts with
  | nil => exact absurd rfl h
  | cons a r ih =>
    by_cases hr : r = []
    · subst hr
      exact ⟨a, List.mem_cons_self, by simp, rfl⟩
    · obtain ⟨t, ht, hmin, hfirst⟩ := ih hr
      rw [firstTrap, hfirst]
      by_cases hlt : t.code.toNat < a.code.toNat
      · refine ⟨t, List.mem_cons_of_mem a ht, fun x hx => ?_, by simp [hlt]⟩
        rcases List.mem_cons.mp hx with rfl | hx
        · exact hlt.le
        · exact hmin x hx
      · refine ⟨a, List.mem_cons_self, fun x hx => ?_, by simp [hlt]⟩
        rcases List.mem_cons.mp hx with rfl | hx
        · exact le_rfl
        · exact (Nat.le_of_not_lt hlt).trans (hmin x hx)

/-! ### Stops -/

/-- A core already stopped keeps its stop, changed. -/
theorem State.stopCore_stopped {s : State} {core : Nat} {again : Mach → Nat → BitVec 4 → Mach} {f : Stop → Stop} {p : Stop}
    (h : (s.m.core core).stop = some p) :
    s.stopCore core again f = { s with m := s.m.modCore core fun c => { c with stop := some (f p) } } := by
  simp [State.stopCore, h]

/-- A core that runs, without a phase boundary or a landing of this cycle, stops at its restore point. -/
theorem State.stopCore_runs {s : State} {core : Nat} {again : Mach → Nat → BitVec 4 → Mach} {f : Stop → Stop}
    (hstop : (s.m.core core).stop = none) (hphase : ∀ t x, (s.m.core core).scal.phase = some (t, x) → t ≠ s.m.now)
    (hundo : (s.undo.find? fun x => x.1 == core) = none) :
    s.stopCore core again f =
      { m := { (s.restorePoint core).modCore core fun c => { c with stop := some (f (Stop.new s.m.now)) } with cur := s.m.cur },
        base := none, undo := s.undo } := by
  unfold State.stopCore
  simp only [hstop, hundo]
  split
  case h_1 t x h => rw [if_neg (hphase t x h)]
  case h_2 => rfl

/-- A V lane that selects a lane, is not held and meets a fault reports one of the lowest code and stops its core. -/
theorem runV_traps {l : Lane} {lcs : BitVec 1024 → List Nat} {use : Mach → BitVec 1024 → VUse} {act : Mach → BitVec 1024 → LaneOut}
    {s : State} {u : VUse} {ts : List Trap} (hstop : s.m.me.stop = none) (hmask : s.m.me.mreg l.p.toNat ≠ 0)
    (hu : use s.m (s.m.me.mreg l.p.toNat) = u) (hheld : u.held = false) (hregs : u.regs.any (s.m.me.pending s.m.now) = false)
    (hts : s.m.staleTraps [] [.m l.p.toNat] ++ s.m.staleTraps u.own (u.regs.map Loc.s ++ u.locs) ++
      s.m.lcTraps (lcs (s.m.me.mreg l.p.toNat)) ++ u.traps = ts) (hne : ts ≠ []) :
    ∃ t ∈ ts, (∀ x ∈ ts, t.code.toNat ≤ x.code.toNat) ∧ runV l lcs use act s = .next
      (State.stopCore { s with base := some (s.m.cur, s.m.now, s.restorePoint s.m.cur) } s.m.cur Mach.boundary (Stop.withTrap 1 t)) := by
  subst hu hts
  obtain ⟨t, ht, hmin, hfirst⟩ := firstTrap_least hne
  have hload : s.m.modMe (fun c => c.backToLoad s.m.now) = s.m := by
    refine Mach.modCore_eq_self ?_
    rw [Core.backToLoad, show (s.m.core s.m.cur).stop = none from hstop]
  refine ⟨t, ht, hmin, ?_⟩
  unfold runV
  refine (runLane_trap (t := t) ?_).trans (by rw [hload]; rfl)
  dsimp only
  rewrite [if_neg hmask, hheld, hregs, checked, hfirst]
  rfl

/-- Settles O52: a V lane of the table that traps, a stop from each restore point, and what a stop records. -/
theorem trapsStopTheStreams : Obligations.TrapsStopTheStreams := by
  refine ⟨fun s l i lat os f hmem => ?lane, fun s core again f => ⟨fun p h => State.stopCore_stopped h, fun hstop hphase hundo => ?stop⟩,
    fun now st t => ⟨rfl, rfl⟩⟩
  case lane =>
    intro m u ts hstop hmask hregs hne
    obtain ⟨use, act, hexec, huse, -⟩ := vectorLanes_run hmem
    rw [hexec]
    exact runV_traps hstop hmask huse rfl hregs (List.append_nil _) hne
  case stop =>
    have hphase' : ∀ t x, (s.m.core core).scal.phase = some (t, x) → t ≠ s.m.now := fun t x h => by rw [hphase] at h; cases h
    refine ⟨fun b hb => ?_, fun hb => ?_⟩
    · rw [State.stopCore_runs hstop hphase' hundo, State.restorePoint, hb]
      simp
    · rw [State.stopCore_runs hstop hphase' hundo, State.restorePoint, hb]

end Sys2Proof.Machine
end

section
/-! The array's events (R261, R265, R271 to R275): retirement, chained commands, and joint operations. -/
namespace Sys2Proof.Machine

/-! ### Retirement and chained commands -/

/-- A ring descriptor after `n` of its slots are popped (R265). -/
def Ring.popped (g : Ring) (n : Nat) : Ring :=
  let cap := max 1 (ringSize g.w0 / max 1 (ringTile g.w1))
  { g with w1 := (g.w1 &&& ~~~((0x3FFFFFF : W64) <<< 30)) |||
      BitVec.ofNat 64 ((ringHead g.w1 + n) % cap * 2 ^ 30 + (ringCount g.w1 - n) * 2 ^ 43) }

/-- The rings after an operation retires. -/
def ArrayOp.popRings (o : ArrayOp) (rs : List Ring) : List Ring :=
  let rs := if o.popA then rs.modify o.ringA fun g => g.popped o.passes else rs
  match o.ringB with
  | some b => if o.popB then rs.modify b fun g => g.popped o.passes else rs
  | none => rs

theorem execArrayRetire_eq (s : State) : execArrayRetire s =
    let c := s.m.me
    let due (o : ArrayOp) : Bool := o.retire ≤ s.m.now && (c.stop.isNone || o.ringB.isNone)
    .next { s with m := s.m.setCore s.m.cur { c with mx := { c.mx with
      ops := c.mx.ops.filter fun o => !due o
      rings := (c.mx.ops.filter due).foldl (fun rs o => o.popRings rs) c.mx.rings } } } := rfl

/-- What the descriptor's second word holds beside HEAD and COUNT. -/
theorem getLsbD_ringRest : ∀ i < 64, (~~~((0x3FFFFFF : W64) <<< 30)).getLsbD i = decide (¬ (30 ≤ i ∧ i < 56)) := by decide

/-- The bits of the HEAD and COUNT fields set together in a descriptor word. -/
theorem getLsbD_ringFields (x : W64) {h k : Nat} (hh : h < 2 ^ 13) (hk : k < 2 ^ 13) {i : Nat} (hi : i < 64) :
    ((x &&& ~~~((0x3FFFFFF : W64) <<< 30)) ||| BitVec.ofNat 64 (h * 2 ^ 30 + k * 2 ^ 43)).getLsbD i =
      if 30 ≤ i ∧ i < 56 then (if i < 43 then h.testBit (i - 30) else k.testBit (i - 43)) else x.getLsbD i := by
  have hnat : h * 2 ^ 30 + k * 2 ^ 43 = 2 ^ 30 * (2 ^ 13 * k + h) := by ring
  rw [hnat, BitVec.getLsbD_or, BitVec.getLsbD_and, getLsbD_ringRest i hi, BitVec.getLsbD_ofNat, Nat.testBit_two_pow_mul,
    Nat.testBit_two_pow_mul_add _ hh, Nat.sub_sub]
  by_cases hlo : 30 ≤ i
  · by_cases hhi : i < 56
    · simp [hlo, hhi, hi, show (i - 30 < 13) = (i < 43) from propext (by omega)]
    · have hk' : k.testBit (i - 43) = false :=
        Nat.testBit_lt_two_pow (hk.trans_le (Nat.pow_le_pow_right (by decide) (by omega)))
      simp [hlo, hhi, hk', show ¬ i - 30 < 13 by omega]
  · simp [hlo]

/-- A number below `2 ^ n` is its bits. -/
theorem toNat_extract_eq {x : W64} {lo n h : Nat} (hh : h < 2 ^ n) (hbits : ∀ j < n, x.getLsbD (lo + j) = h.testBit j) :
    (bits x lo n).toNat = h := by
  refine Nat.eq_of_testBit_eq fun j => ?_
  rw [← BitVec.getLsbD, BitVec.getLsbD_extractLsb']
  by_cases hj : j < n
  · rw [hbits j hj, decide_eq_true hj, Bool.true_and]
  · rw [decide_eq_false hj, Bool.false_and, Nat.testBit_lt_two_pow (hh.trans_le (Nat.pow_le_pow_right (by decide) (Nat.le_of_not_lt hj)))]

/-- `g'` is the descriptor `g` after `k` slots of its ring of `cap` slots are popped. -/
structure Ring.PoppedTo (g : Ring) (k : Nat) (g' : Ring) : Prop where
  head : ringHead g'.w1 = (ringHead g.w1 + k) % (ringSize g.w0 / ringTile g.w1)
  count : ringCount g'.w1 = ringCount g.w1 - k
  base : g'.w0 = g.w0
  rest : g'.w1 &&& ~~~((0x3FFFFFF : W64) <<< 30) = g.w1 &&& ~~~((0x3FFFFFF : W64) <<< 30)

/-- TILE is no part of HEAD and COUNT. -/
theorem ringTile_eq_of_rest {x y : W64} (h : x &&& ~~~((0x3FFFFFF : W64) <<< 30) = y &&& ~~~((0x3FFFFFF : W64) <<< 30)) :
    ringTile x = ringTile y := by
  refine congrArg BitVec.toNat (BitVec.eq_of_getLsbD_eq fun j hj => ?_)
  have hbit := congrArg (fun w : W64 => w.getLsbD j) h
  have hrest : (~~~((0x3FFFFFF : W64) <<< 30)).getLsbD j = true := by
    rw [getLsbD_ringRest j (by omega), decide_eq_true_eq]
    omega
  simp only [BitVec.getLsbD_and, hrest, Bool.and_true] at hbit
  rw [BitVec.getLsbD_extractLsb', BitVec.getLsbD_extractLsb', Nat.zero_add, hbit]

theorem Ring.PoppedTo.popped {g g' : Ring} {k : Nat} (hcap : 0 < ringSize g.w0 / ringTile g.w1) (hle : ringSize g.w0 / ringTile g.w1 ≤ 8192)
    (h : g.PoppedTo k g') (n : Nat) : g.PoppedTo (k + n) (g'.popped n) := by
  have htile : ringTile g'.w1 = ringTile g.w1 := ringTile_eq_of_rest h.rest
  have hpos : 0 < ringTile g.w1 := Nat.pos_of_ne_zero fun h0 => by rw [h0, Nat.div_zero] at hcap; exact absurd hcap (lt_irrefl 0)
  have hcap' : max 1 (ringSize g'.w0 / max 1 (ringTile g'.w1)) = ringSize g.w0 / ringTile g.w1 := by
    rw [h.base, htile, max_eq_right (Nat.succ_le_of_lt hpos), max_eq_right (Nat.succ_le_of_lt hcap)]
  have hhead : (ringHead g'.w1 + n) % (ringSize g.w0 / ringTile g.w1) < 2 ^ 13 := (Nat.mod_lt _ hcap).trans_le hle
  have hcount : ringCount g'.w1 - n < 2 ^ 13 := (Nat.sub_le _ _).trans_lt (bits g'.w1 43 13).isLt
  have hbit := fun i (hi : i < 64) => getLsbD_ringFields g'.w1 hhead hcount hi
  refine ⟨?head, ?count, h.base, ?rest⟩
  case head =>
    rw [Ring.popped, hcap']
    refine (toNat_extract_eq hhead fun j hj => ?_).trans (by rw [h.head, Nat.mod_add_mod, Nat.add_assoc])
    rw [hbit _ (by omega), if_pos (by omega), if_pos (by omega), Nat.add_sub_cancel_left]
  case count =>
    rw [Ring.popped, hcap']
    refine (toNat_extract_eq hcount fun j hj => ?_).trans (by rw [h.count, Nat.sub_sub])
    rw [hbit _ (by omega), if_pos (by omega), if_neg (by omega), Nat.add_sub_cancel_left]
  case rest =>
    rw [Ring.popped, hcap', ← h.rest]
    refine BitVec.eq_of_getLsbD_eq fun i hi => ?_
    rw [BitVec.getLsbD_and, BitVec.getLsbD_and, hbit i hi, getLsbD_ringRest i hi]
    by_cases hin : 30 ≤ i ∧ i < 56
    · simp [hin]
    · rw [if_neg hin]

/-- The slots of ring `n` that one operation pops: with its A side, and with its B side. -/
theorem popped_cons (o : ArrayOp) (os : List ArrayOp) (n : Nat) :
    Claims.popped (o :: os) n = ((if o.popA ∧ o.ringA = n then o.passes else 0) + (if o.popB ∧ o.ringB = some n then o.passes else 0)) +
      Claims.popped os n := by
  rewrite [Claims.popped, List.map_cons, List.sum_cons]
  rfl

theorem nth_modify {α : Type} (xs : List α) (r : Nat) (f : α → α) {n : Nat} (d : α) (hn : n < xs.length) :
    nth (xs.modify r f) n d = if r = n then f (nth xs n d) else nth xs n d := by
  have hn' : n < (xs.modify r f).length := by rwa [List.length_modify]
  rw [nth, nth, List.getD_eq_getElem _ _ hn', List.getD_eq_getElem _ _ hn, List.getElem_modify]

/-- A pop of one side of an operation, where it pops: of ring `r` only. -/
theorem Ring.PoppedTo.side {g : Ring} {k n : Nat} {rs : List Ring} (hcap : 0 < ringSize g.w0 / ringTile g.w1)
    (hle : ringSize g.w0 / ringTile g.w1 ≤ 8192) (hn : n < rs.length) (h : g.PoppedTo k (nth rs n Ring.reset)) (pops : Bool) (r p : Nat) :
    g.PoppedTo (k + if pops ∧ r = n then p else 0) (nth (if pops then rs.modify r fun g => g.popped p else rs) n Ring.reset) := by
  cases pops with
  | false => simpa using h
  | true =>
    rw [if_pos rfl, nth_modify rs r _ _ hn]
    by_cases hr : r = n
    · simpa [hr] using h.popped hcap hle p
    · simpa [hr] using h

@[simp] theorem ArrayOp.popRings_length (o : ArrayOp) (rs : List Ring) : (o.popRings rs).length = rs.length := by
  unfold ArrayOp.popRings
  cases o.popA <;> cases o.popB <;> cases o.ringB <;> simp

theorem Ring.PoppedTo.popRings {g : Ring} {k n : Nat} {rs : List Ring} (hcap : 0 < ringSize g.w0 / ringTile g.w1)
    (hle : ringSize g.w0 / ringTile g.w1 ≤ 8192) (hn : n < rs.length) (h : g.PoppedTo k (nth rs n Ring.reset)) (o : ArrayOp) :
    g.PoppedTo (k + ((if o.popA ∧ o.ringA = n then o.passes else 0) + (if o.popB ∧ o.ringB = some n then o.passes else 0)))
      (nth (o.popRings rs) n Ring.reset) := by
  have hA := h.side hcap hle hn o.popA o.ringA o.passes
  rw [← Nat.add_assoc]
  unfold ArrayOp.popRings
  cases o.ringB with
  | none => simpa using hA
  | some b =>
    have hlen : n < (if o.popA then rs.modify o.ringA fun g => g.popped o.passes else rs).length := by split <;> simpa using hn
    simpa using hA.side hcap hle hlen o.popB b o.passes

/-- The operations retired pop their ring in all by what they pop. -/
theorem Ring.PoppedTo.foldl {g : Ring} (hcap : 0 < ringSize g.w0 / ringTile g.w1) (hle : ringSize g.w0 / ringTile g.w1 ≤ 8192) {n : Nat}
    (os : List ArrayOp) {k : Nat} {rs : List Ring} (hn : n < rs.length) (h : g.PoppedTo k (nth rs n Ring.reset)) :
    g.PoppedTo (k + Claims.popped os n) (nth (os.foldl (fun rs o => o.popRings rs) rs) n Ring.reset) := by
  induction os generalizing k rs with
  | nil => exact h
  | cons o os ih =>
    rw [popped_cons, ← Nat.add_assoc, List.foldl_cons]
    exact ih (by simpa using hn) (h.popRings hcap hle hn o)

theorem arrayRetireCompletes (s : State) (hcur : s.m.cur < s.m.cores.length) : ∃ t, exec .arrayRetire s = .next t ∧
    t.m.me.mx.ops = s.m.me.mx.ops.filter (fun o => !(decide (o.retire ≤ s.m.now) && (s.m.me.stop.isNone || o.ringB.isNone))) ∧
    t.m.me.mx.rings = (s.m.me.mx.ops.filter fun o => decide (o.retire ≤ s.m.now) && (s.m.me.stop.isNone || o.ringB.isNone)).foldl
      (fun rs o => o.popRings rs) s.m.me.mx.rings ∧
    t.m.me.mx.acc = s.m.me.mx.acc ∧ t.m.me.scal = s.m.me.scal ∧ t.m.me.pad = s.m.me.pad ∧ ∀ n, n ≠ s.m.cur → t.m.core n = s.m.core n := by
  refine ⟨_, execArrayRetire_eq s, ?_⟩
  dsimp only [Mach.me, Mach.setCore_cur]
  rw [Mach.core_setCore _ _ hcur]
  exact ⟨rfl, rfl, rfl, rfl, rfl, fun n hn => Mach.core_setCore_other _ _ hn⟩

/-- Settles O15: the retirement pops each ring by its operations' passes, and a free chain slot's command issues. -/
theorem arrayRetireAndChainIssueComplete : Obligations.ArrayRetireAndChainIssueComplete := by
  intro s
  refine ⟨fun hcur => ?retire, fun ch => ?chain⟩
  case retire =>
    obtain ⟨t, hexec, hops, hrings, hacc, hscal, hpad, hother⟩ := arrayRetireCompletes s hcur
    refine ⟨t, hexec, hops, hacc, hscal, hpad, hother, ?_, fun n hn => ?_⟩
    · rw [hrings]
      exact foldl_keep List.length (fun rs o => o.popRings_length rs) _ _
    · intro g k cap hcap hle hhead _
      have hstart : g.PoppedTo 0 (nth s.m.me.mx.rings n Ring.reset) := ⟨(Nat.mod_eq_of_lt hhead).symm, rfl, rfl, rfl⟩
      have hend := hstart.foldl hcap hle
        (s.m.me.mx.ops.filter fun o => decide (o.retire ≤ s.m.now) && (s.m.me.stop.isNone || o.ringB.isNone)) hn
      rw [Nat.zero_add, ← hrings] at hend
      exact ⟨hend.head, hend.count, hend.base, hend.rest⟩
  case chain =>
    intro p locs hch hheld hdue hjoint hjheld hstale hsleep htraps
    show execChainIssue s = _
    have hfree : (p.held || s.m.me.mx.due.isSome || s.m.me.mx.joint.isSome || s.m.me.mx.jheld == some s.m.now) = false := by
      rewrite [hheld, hdue, hjoint, beq_false_of_ne hjheld]
      rfl
    have hchecks : firstTrap (s.m.staleTraps locs.2 locs.1 ++ s.m.sleepTraps [.core s.m.cur mxBit] ++ p.traps) = none := by
      rewrite [hstale, hsleep, htraps]
      rfl
    unfold execChainIssue
    dsimp only
    rw [hch]
    dsimp only
    rw [if_neg (ne_true_of_eq_false hfree), hchecks]

/-! ### Joint operations -/

/-- A joint lane that nothing keeps from its start becomes due and is held. -/
theorem jointLane_due {op : Nat} {l : Lane} {s : State} (hdue : s.m.me.mx.due = none) (hquad : s.m.quadBound s.m.cur = true)
    (hops : s.m.me.mx.ops = [])
    (hring : ((s.m.me.ringUse l.a.toNat false (arrayTypes op l.fn).1 (Lane.arrayPasses op l)).held &&
      (s.m.me.ringUse l.a.toNat false (arrayTypes op l.fn).1 (Lane.arrayPasses op l)).traps.isEmpty) = false) :
    let m' := (s.m.modMe fun c => { c with mx := { c.mx with
      due := some { cyc := s.m.now, op := op, lane := l, count := none } } }).fixJoint (quadOf s.m.cur)
    jointLane op l s = .next { m := m'.modMe fun c => (c.backToLoad m'.now).modStream .m fun x => { x with next := m'.now + 1 },
                               base := some (s.m.cur, s.m.now, s.restorePoint s.m.cur), undo := s.undo } := by
  refine runLane_hold ?_
  dsimp only
  rw [hdue, hquad, hops]
  exact if_neg (ne_true_of_eq_false hring)

/-- The four lanes due of a quad, as JOINT_START gathers them. -/
theorem filterMap_due {m : Mach} {quad : Nat} {d0 d1 d2 d3 : JointDue}
    (h : (quadCores quad).map (fun k => (m.core k).mx.due) = [some d0, some d1, some d2, some d3]) :
    (quadCores quad).filterMap (fun k => (m.core k).mx.due) = [d0, d1, d2, d3] := by
  have hid := congrArg (List.filterMap id) h
  rwa [List.filterMap_map] at hid

/-- The first of the numbers below `n` that a choice holds of heads those it holds of. -/
theorem filter_range_first {n k : Nat} {p : Nat → Bool} (hk : k < n) (hp : p k = true) (hfirst : ∀ j < k, p j = false) :
    ∃ r, (List.range n).filter p = k :: r := by
  have hfind : (List.range n).find? p = some k := List.find?_range_eq_some.mpr ⟨hp, List.mem_range.mpr hk, fun j hj => by simp [hfirst j hj]⟩
  rw [← List.head?_filter] at hfind
  exact ⟨_, List.eq_cons_of_mem_head? hfind⟩

/-- One member's stop by a joint operation that fails. -/
def State.jointStop (s : State) (k : Nat) (detail : W32) : State :=
  let s := { s with m := s.m.modCore k fun c => ({ c with mx := { c.mx with due := none, joint := none } } : Core).patchJoint }
  if (s.m.core k).stop.isSome then s
  else s.stopCore k Mach.boundary (Stop.withTrap 2 ⟨Code.joint, detail, 0⟩)

theorem jointFail_eq (s : State) (q : Nat) (detail : W32) : s.jointFail q detail = (quadCores q).foldl (fun s k => s.jointStop k detail) s := rfl

/-- A running member after its joint operation failed in cycle `now`. -/
def Core.jointFailed (now : Nat) (detail : W32) (c : Core) : Core :=
  { c with mx := { c.mx with due := none, joint := none }
           stop := some { Stop.new now with trap := some (2, ⟨Code.joint, detail, 0⟩) } }

/-- Whether a core runs, without a phase boundary of its own in cycle `now`. -/
def Core.runsFreely (c : Core) (now : Nat) : Prop := c.stop = none ∧ ∀ t x, c.scal.phase = some (t, x) → t ≠ now

theorem State.jointStop_eq {s : State} {k : Nat} {detail : W32} (hbase : s.base = none) (hundo : s.undo = [])
    (hlen : k < s.m.cores.length) (hrun : (s.m.core k).runsFreely s.m.now) :
    s.jointStop k detail = { s with m := s.m.modCore k (Core.jointFailed s.m.now detail) } := by
  obtain ⟨hstop, hphase⟩ := hrun
  have hpatch : ({ s.m.core k with mx := { (s.m.core k).mx with due := none, joint := none } } : Core).patchJoint =
      { s.m.core k with mx := { (s.m.core k).mx with due := none, joint := none } } := by
    simp only [Core.patchJoint, hstop]
  have hcore := Mach.core_modCore s.m (fun c => ({ c with mx := { c.mx with due := none, joint := none } } : Core).patchJoint) hlen
  rw [hpatch] at hcore
  unfold State.jointStop
  dsimp only
  rw [hcore]
  dsimp only
  rw [hstop, if_neg (by simp), State.stopCore_runs (by rw [hcore]; exact hstop) (by rw [hcore]; exact hphase) (by rw [hundo]; rfl)]
  rw [State.restorePoint, hbase]
  dsimp only
  rewrite [Mach.modCore_modCore _ _ _ _ hlen, Mach.modCore, Mach.modCore, hpatch]
  rfl

theorem State.foldl_jointStop {detail : W32} {ks : List Nat} (hnodup : ks.Nodup) {s : State} (hbase : s.base = none) (hundo : s.undo = [])
    (hlen : ∀ k ∈ ks, k < s.m.cores.length) (hrun : ∀ k ∈ ks, (s.m.core k).runsFreely s.m.now) :
    ks.foldl (fun s k => s.jointStop k detail) s =
      { s with m := ks.foldl (fun m k => m.modCore k (Core.jointFailed s.m.now detail)) s.m } := by
  induction ks generalizing s with
  | nil => rfl
  | cons k ks ih =>
    obtain ⟨hk, hnodup⟩ := List.nodup_cons.mp hnodup
    rw [List.foldl_cons, List.foldl_cons,
      State.jointStop_eq hbase hundo (hlen k List.mem_cons_self) (hrun k List.mem_cons_self)]
    refine ih hnodup hbase hundo (fun j hj => ?_) (fun j hj => ?_)
    · simpa using hlen j (List.mem_cons_of_mem k hj)
    · have hne : j ≠ k := fun h => hk (h ▸ hj)
      simpa [hne] using hrun j (List.mem_cons_of_mem k hj)

/-- A joint operation that fails stops its four members, each with its fault, and no other core. -/
theorem jointFail_stops {s : State} {quad : Nat} {detail : W32} (hbase : s.base = none) (hundo : s.undo = [])
    (hlen : 4 * quad + 3 < s.m.cores.length) (hrun : ∀ k ∈ quadCores quad, (s.m.core k).runsFreely s.m.now) :
    (∀ n, (s.jointFail quad detail).m.core n =
      if n ∈ quadCores quad then (s.m.core n).jointFailed s.m.now detail else s.m.core n) ∧
    (s.jointFail quad detail).m.quads = s.m.quads ∧ (s.jointFail quad detail).m.dies = s.m.dies ∧
    (s.jointFail quad detail).m.dev = s.m.dev := by
  have hnodup : (quadCores quad).Nodup := by simp [quadCores]
  have hlen' : ∀ k ∈ quadCores quad, k < s.m.cores.length := by
    intro k hk
    simp only [quadCores, List.mem_cons, List.not_mem_nil, or_false] at hk
    omega
  rw [jointFail_eq, State.foldl_jointStop hnodup hbase hundo hlen' hrun]
  refine ⟨fun n => Mach.core_foldl_modCore _ n hnodup hlen', ?_, ?_, ?_⟩
  · exact foldl_keep Mach.quads (fun m k => Mach.modCore_quads m k _) _ _
  · exact foldl_keep Mach.dies (fun m k => Mach.modCore_dies m k _) _ _
  · exact foldl_keep Mach.dev (fun m k => Mach.modCore_dev m k _) _ _

/-- The first of the numbers below `n` that a partial function is defined at heads its values. -/
theorem filterMap_range_first {β : Type} {n k : Nat} {f : Nat → Option β} {b : β} (hk : k < n) (hf : f k = some b) (hfirst : ∀ j < k, f j = none) :
    ∃ r, (List.range n).filterMap f = b :: r := by
  have hsplit : List.range n = List.range k ++ k :: (List.range n).drop (k + 1) := by
    conv_lhs => rw [← List.take_append_drop k (List.range n), List.take_range, min_eq_left hk.le,
      List.drop_eq_getElem_cons (by simpa using hk), List.getElem_range]
  exact ⟨_, List.filterMap_eq_cons_iff.mpr ⟨_, _, _, hsplit, fun j hj => hfirst j (List.mem_range.mp hj), hf, rfl⟩⟩

/-- What the driver compares, of a member in the list. -/
theorem sig_getElem? {ds : List JointDue} {k : Nat} (hk : k < ds.length) (d : JointDue) :
    (ds[k]?).map JointDue.sig = some (ds.getD k d).sig := by
  rewrite [List.getElem?_eq_getElem hk, List.getD_eq_getElem _ _ hk]
  rfl

/-- A member's own checks, as JOINT_START gathers them. -/
theorem nth_jointChecks {m : Mach} {quad : Nat} {ds : List JointDue} {k : Nat} (hlen : ds.length = 4) (hk : k < 4) (u : RingUse) (d : JointDue) :
    nth ((List.range 4).zipWith (fun k d => m.jointCheck (4 * quad + k) d) ds) k u = m.jointCheck (4 * quad + k) (ds.getD k d) := by
  rw [nth, List.getD_eq_getElem _ _ (by simp [hlen, hk]), List.getElem_zipWith, List.getElem_range, List.getD_eq_getElem _ _ (hlen ▸ hk)]

/-- The members that differ from the driver's, and the members at fault with their codes, as JOINT_START finds them. -/
def Mach.jointDiffer (m : Mach) (quad : Nat) (ds : List JointDue) : List Nat :=
  (List.range 4).filter fun k => (ds[k]?).map JointDue.sig != (ds[(m.core (4 * quad)).mx.jseq]?).map JointDue.sig

def Mach.jointBad (m : Mach) (quad : Nat) (ds : List JointDue) : List (Nat × Nat) :=
  (List.range 4).filterMap fun k => (firstTrap (nth ((List.range 4).zipWith (fun k d => m.jointCheck (4 * quad + k) d) ds) k
    ⟨[], false, [], []⟩).traps).map fun t => (k, t.code.toNat)

/-- JOINT_START of a quad whose four members' lanes are due. -/
theorem execJointStart_eq {s : State} {quad : Nat} {d0 d1 d2 d3 : JointDue}
    (h : (quadCores quad).map (fun k => (s.m.core k).mx.due) = [some d0, some d1, some d2, some d3]) :
    exec (.jointStart quad) s =
      match s.m.jointDiffer quad [d0, d1, d2, d3], s.m.jointBad quad [d0, d1, d2, d3] with
      | k :: _, _ => .next (s.jointFail quad (BitVec.ofNat 32 k))
      | [], (k, code) :: _ => .next (s.jointFail quad (BitVec.ofNat 32 (k + 256 * code)))
      | [], [] =>
        let us := (List.range 4).zipWith (fun k d => s.m.jointCheck (4 * quad + k) d) [d0, d1, d2, d3]
        .next { s with m := ((List.range 4).zip [d0, d1, d2, d3]).foldl (fun m kd => m.jointMember quad (us.map RingUse.tiles) kd.1 kd.2) s.m } := by
  show execJointStart quad s = _
  unfold execJointStart
  dsimp only
  rewrite [filterMap_due h, if_neg (by simp)]
  rfl

theorem jointDiffer_eq_nil {m : Mach} {quad : Nat} {ds : List JointDue} (d : JointDue) (hlen : ds.length = 4)
    (hdriver : (m.core (4 * quad)).mx.jseq < 4)
    (h : ∀ n < 4, (ds.getD n d).sig = (ds.getD (m.core (4 * quad)).mx.jseq d).sig) : m.jointDiffer quad ds = [] := by
  refine List.filter_eq_nil_iff.mpr fun n hn => ?_
  have hn' := List.mem_range.mp hn
  rw [sig_getElem? (hlen ▸ hn') d, sig_getElem? (hlen ▸ hdriver) d, h n hn', bne_self_eq_false]
  exact Bool.false_ne_true

theorem jointBad_eq_nil {m : Mach} {quad : Nat} {ds : List JointDue} (d : JointDue) (hlen : ds.length = 4)
    (h : ∀ n < 4, (m.jointCheck (4 * quad + n) (ds.getD n d)).traps = []) : m.jointBad quad ds = [] := by
  refine List.filterMap_eq_nil_iff.mpr fun n hn => ?_
  rewrite [nth_jointChecks hlen (List.mem_range.mp hn) _ d, h n (List.mem_range.mp hn)]
  rfl

/-- Why a joint operation fails: the first member that disagrees with the driver's, or else the first at fault. -/
theorem execJointStart_fails {s : State} {quad : Nat} {d0 d1 d2 d3 : JointDue} {detail : W32}
    (h : (quadCores quad).map (fun k => (s.m.core k).mx.due) = [some d0, some d1, some d2, some d3])
    (hdriver : (s.m.core (4 * quad)).mx.jseq < 4) :
    let ds := [d0, d1, d2, d3]
    let driver := ds.getD (s.m.core (4 * quad)).mx.jseq d0
    let faults (k : Nat) : List Trap := (s.m.jointCheck (4 * quad + k) (ds.getD k d0)).traps
    ((∃ k < 4, (ds.getD k d0).sig ≠ driver.sig ∧ (∀ n < k, (ds.getD n d0).sig = driver.sig) ∧ detail = BitVec.ofNat 32 k) ∨
     ((∀ n < 4, (ds.getD n d0).sig = driver.sig) ∧ ∃ k < 4, ∃ t, firstTrap (faults k) = some t ∧ (∀ n < k, faults n = []) ∧
       detail = BitVec.ofNat 32 (k + 256 * t.code.toNat))) →
    exec (.jointStart quad) s = .next (s.jointFail quad detail) := by
  intro ds driver faults hwhy
  rw [execJointStart_eq h]
  rcases hwhy with ⟨k, hk, hne, hsame, rfl⟩ | ⟨hsame, k, hk, t, htrap, hnone, rfl⟩
  · have hsig (n : Nat) (hn : n < 4) := sig_getElem? (ds := ds) (k := n) hn d0
    obtain ⟨r, hr⟩ := filter_range_first (p := fun n => (ds[n]?).map JointDue.sig != (ds[(s.m.core (4 * quad)).mx.jseq]?).map JointDue.sig)
      hk (by rw [hsig k hk, hsig _ hdriver]; exact bne_iff_ne.mpr fun he => hne (Option.some.inj he))
      fun n hn => by rw [hsig n (hn.trans hk), hsig _ hdriver, hsame n hn]; exact bne_self_eq_false _
    rw [show s.m.jointDiffer quad [d0, d1, d2, d3] = k :: r from hr]
  · have hcheck (n : Nat) (hn : n < 4) := nth_jointChecks (m := s.m) (quad := quad) (ds := ds) rfl hn ⟨[], false, [], []⟩ d0
    obtain ⟨r, hr⟩ := filterMap_range_first (b := (k, t.code.toNat))
      (f := fun k => (firstTrap (nth ((List.range 4).zipWith (fun k d => s.m.jointCheck (4 * quad + k) d) ds) k ⟨[], false, [], []⟩).traps).map
        fun t => (k, t.code.toNat)) hk (by rw [hcheck k hk, htrap]; rfl)
      fun n hn => by rw [hcheck n (hn.trans hk), show (s.m.jointCheck (4 * quad + n) (ds.getD n d0)).traps = [] from hnone n hn]; rfl
    rw [jointDiffer_eq_nil d0 rfl hdriver hsame, show s.m.jointBad quad [d0, d1, d2, d3] = (k, t.code.toNat) :: r from hr]

/-- Settles O13: a joint lane becomes due, and JOINT_START runs every member's part or stops every member. -/
theorem jointOperationsComplete : Obligations.JointOperationsComplete := by
  refine ⟨fun s l i op hmem => ?due, fun s quad d0 d1 d2 d3 => ?start, fun s quad d0 d1 d2 d3 detail => ?fail⟩
  case due =>
    intro m r hdue hquad hops hring
    simp only [List.mem_cons, Prod.mk.injEq, List.not_mem_nil, or_false] at hmem
    rcases hmem with ⟨rfl, rfl⟩ | ⟨rfl, rfl⟩
    iterate 2 exact jointLane_due hdue hquad hops hring
  case start =>
    intro m hds h1 h2 h3 hdriver us htraps
    have hsame : ∀ n < 4, ([d0, d1, d2, d3].getD n d0).sig = d0.sig := by
      simp only [Nat.forall_lt_succ_left, h1, h2, h3, List.getD_cons_zero, List.getD_cons_succ]
      simp
    have hfree : ∀ n < 4, (m.jointCheck (4 * quad + n) ([d0, d1, d2, d3].getD n d0)).traps = [] := fun n hn => by
      refine htraps _ ?_
      rw [← nth_jointChecks rfl hn ⟨[], false, [], []⟩ d0, nth, List.getD_eq_getElem _ _ (by simpa using hn)]
      exact List.getElem_mem _
    rw [execJointStart_eq hds, jointDiffer_eq_nil d0 rfl hdriver fun n hn => (hsame n hn).trans (hsame _ hdriver).symm,
      jointBad_eq_nil d0 rfl hfree]
  case fail =>
    intro m hds hdriver hlen hbase hundo hrun ds driver faults hwhy
    obtain ⟨hcores, hquads, hdies, hdev⟩ := jointFail_stops (detail := detail) hbase hundo hlen hrun
    refine ⟨_, execJointStart_fails hds hdriver hwhy, fun k hk => ?_, fun n hn => ?_, hquads, hdies, hdev⟩
    · rewrite [hcores, if_pos hk]
      rfl
    · rw [hcores, if_neg hn]

end Sys2Proof.Machine
end

section
/-! The X stream (R290 to R306): copy commands, channels, fences and semaphores. -/
namespace Sys2Proof.Machine

/-! ### Copy commands -/

/-- Without REL, or after its boundary, a copy command does not wait for one. -/
theorem Mach.relWaits_eq_false {m : Mach} {l : Lane} (h : l.imm.getLsbD 3 = false ∨ ∃ t, m.me.scal.rel.2 = some t ∧ t < m.now) :
    m.relWaits l = false := by
  unfold Mach.relWaits
  rcases h with hno | ⟨t, ht, hlt⟩
  · rw [hno, Bool.false_and]
  · simp [ht, hlt]

theorem copyLane_issues {op : Nat} {l : Lane} {ch : Option ChainCmd} {s : State} (h : XReady s.m (useCopyLane op l ch s.m))
    (hrel : l.imm.getLsbD 3 = false ∨ ∃ t, s.m.me.scal.rel.2 = some t ∧ t < s.m.now) :
    copyLane op l ch s = .next (s.issued .x 0 (s.m.startCopy (s.m.copyOf op l ch) (s.m.me.sreg l.a.toNat).toNat)) :=
  runX_issues h (if_neg (ne_true_of_eq_false (Mach.relWaits_eq_false hrel)))

/-- An X lane that a held release keeps from its checks, and that its act holds. -/
theorem runX_late {use : Mach → XUse} {act : Mach → LaneOut} {s : State} {m : Mach} (hheld : (use s.m).held = false)
    (hregs : (use s.m).regs.any (s.m.me.pending s.m.now) = false) (hlate : (use s.m).late = true) (ha : act s.m = .hold m) :
    runX use act s = .next { m := m.modMe fun c => (c.backToLoad m.now).modStream .x fun x => { x with next := m.now + 1 },
                             base := some (s.m.cur, s.m.now, s.restorePoint s.m.cur), undo := s.undo } := by
  unfold runX
  apply runLane_hold
  simp [hheld, hregs, hlate, ha]

/-- With REL, the boundary takes effect in the first cycle in which the core is quiet, and the lane is held. -/
theorem copyLane_releases {op : Nat} {l : Lane} {ch : Option ChainCmd} {s : State} (hheld : (useCopyLane op l ch s.m).held = false)
    (hregs : (useCopyLane op l ch s.m).regs.any (s.m.me.pending s.m.now) = false) (hrel : l.imm.getLsbD 3 = true)
    (hnone : s.m.me.scal.rel.2 = none) (hquiet : s.m.me.quiet (bits l.imm 4 4) s.m.now = true) :
    let m' := (s.m.boundary s.m.cur (bits l.imm 4 4)).modMe fun c => { c with scal := { c.scal with rel := (c.scal.rel.1, some s.m.now) } }
    copyLane op l ch s = .next { m := m'.modMe fun c => (c.backToLoad m'.now).modStream .x fun x => { x with next := m'.now + 1 },
                                 base := some (s.m.cur, s.m.now, s.restorePoint s.m.cur), undo := s.undo } := by
  have hwaits : s.m.relWaits l = true := by rw [Mach.relWaits, hrel, hnone]; rfl
  exact runX_late hheld hregs hwaits ((if_pos hwaits).trans (if_pos (by rw [hnone, hquiet]; rfl)))

/-- Settles O16: each copy command is a copy lane, which issues or, with REL before its boundary, is held. -/
theorem copyCommandsComplete : Obligations.CopyCommandsComplete := by
  intro s l ch i op hmem u
  have hexec : exec i s = copyLane op l ch s := by
    simp only [List.mem_cons, Prod.mk.injEq, List.not_mem_nil, or_false] at hmem
    rcases hmem with ⟨rfl, rfl⟩ | ⟨rfl, rfl⟩ | ⟨rfl, rfl⟩ | ⟨rfl, rfl⟩ | ⟨rfl, rfl⟩ | ⟨rfl, rfl⟩
    iterate 6 rfl
  rw [hexec]
  exact ⟨copyLane_issues, copyLane_releases⟩

/-! ### Channels, fences and semaphores -/

/-- Lanes with equal effects issue alike. -/
theorem issued_congr {s : State} {st : Stream} {n : Nat} {m m' : Mach} (h : m = m') :
    (.next (s.issued st n m) : Host.Outcome State Fault Refusal) = .next (s.issued st n m') :=
  congrArg _ (congrArg _ h)

/-- Settles O17: each lane runs with the use, and the act, that the table names. -/
theorem channelLanesComplete : Obligations.ChannelLanesComplete := by
  intro s l h i u m' hmem hcur hchan hready
  simp only [Claims.channelLanes, List.mem_cons, Prod.mk.injEq, List.not_mem_nil, or_false] at hmem
  rcases hmem with ⟨rfl, rfl, rfl⟩ | ⟨rfl, rfl, rfl⟩ | ⟨rfl, rfl, rfl⟩ | ⟨rfl, rfl, rfl⟩ | ⟨rfl, rfl, rfl⟩ |
    ⟨rfl, rfl, rfl⟩ | ⟨rfl, rfl, rfl⟩ | ⟨rfl, rfl, rfl⟩
  · have hc := hchan (.inl rfl)
    show execXclose l s = _
    exact (runX_issues hready rfl).trans (issued_congr (Mach.modMe_congr (by rw [hc]; rfl)))
  · have hc := hchan (.inr (.inl rfl))
    show execXwmset l s = _
    exact (runX_issues hready rfl).trans (issued_congr (Mach.modMe_congr (by rw [hc])))
  · have hc := hchan (.inr (.inr rfl))
    show execXbufRel l s = _
    exact (runX_issues hready rfl).trans (issued_congr (Mach.modMe_congr (by rw [hc]; rfl)))
  · show execXopen l s = _
    unfold execXopen
    exact runX_issues hready rfl
  · show execXbufQ l s = _
    exact runX_issues hready rfl
  · have hle : s.m.me.xCount l ≤ s.m.me.semCount l.dst.toNat := Nat.not_lt.mp (of_decide_eq_false hready.1)
    rw [← Core.semTake_isNone] at hready
    have htaken : s.m.modMe (fun c => (c.semTake l.dst.toNat (c.xCount l)).getD c) =
        s.m.modMe fun c => c.setSem l.dst.toNat (c.semCount l.dst.toNat - c.xCount l) := Mach.modMe_congr (Core.semTake_getD hle _)
    show execXsemw l s = _
    exact (runX_issues hready rfl).trans (by rw [htaken])
  · show execXsems l s = _
    exact runX_issues hready rfl
  · show execXfence l s = _
    exact runX_issues hready rfl

end Sys2Proof.Machine
end

section
/-! The H stream (R314 to R332): lanes that compute, distances and searches, and hypervector memory. -/
namespace Sys2Proof.Machine

/-! ### Lanes that compute -/

theorem hWrite_issues {l : Lane} {lat : Nat} {reads : List Nat} {f : Core → BitVec 8192} {s : State}
    (h : HReady s.m l { HUse.none with locs := reads.map Loc.h, own := [.h l.dst.toNat] }) :
    hWrite l lat reads f s = .next (s.issued .h 0 (s.m.write .h lat (.h (l.dst.setWidth 4) (f s.m.me) (s.m.me.mreg l.p.toNat)) 0)) :=
  runH_issues h rfl

/-- Settles O18: each lane runs with the use, and puts in flight the result, that the table names. -/
theorem hyperLanesComplete : Obligations.HyperLanesComplete := by
  intro s l i u lat d hmem h
  simp only [Claims.hyperLanes, List.mem_cons, Prod.mk.injEq, List.not_mem_nil, or_false] at hmem
  rcases hmem with ⟨rfl, rfl, rfl, rfl⟩ | ⟨rfl, rfl, rfl, rfl⟩ | ⟨rfl, rfl, rfl, rfl⟩ | ⟨rfl, rfl, rfl, rfl⟩ | ⟨rfl, rfl, rfl, rfl⟩ |
    ⟨rfl, rfl, rfl, rfl⟩ | ⟨rfl, rfl, rfl, rfl⟩ | ⟨rfl, rfl, rfl, rfl⟩ | ⟨rfl, rfl, rfl, rfl⟩ | ⟨rfl, rfl, rfl, rfl⟩
  · exact hWrite_issues (f := fun c => c.hreg l.a.toNat ^^^ c.hreg l.b.toNat) h
  · exact hWrite_issues (f := fun c => ~~~(c.hreg l.a.toNat)) h
  · exact hWrite_issues (f := fun c => c.hreg l.a.toNat) h
  · show execHperm l s = _
    exact runH_issues h rfl
  · show execHclr l s = _
    unfold execHclr
    exact runH_issues h rfl
  · show execHbund l s = _
    exact runH_issues h rfl
  · show execHthr l s = _
    exact runH_issues h rfl
  · show execHdist l s = _
    refine runH_issues h ?_
    dsimp only
    rw [distWord, Nat.add_zero]
  · show execHgdset l s = _
    unfold execHgdset
    exact runH_issues h rfl
  · show execHgputInv l s = _
    unfold execHgputInv
    exact runH_issues h rfl

/-! ### Distances -/

theorem foldl_count {α : Type} (p : α → Bool) (xs : List α) (k : Nat) :
    xs.foldl (fun n x => if p x then n + 1 else n) k = k + (xs.filter p).length := by
  induction xs generalizing k with
  | nil => rfl
  | cons x xs ih =>
    rw [List.foldl_cons, ih, List.filter_cons]
    split
    · rw [List.length_cons, Nat.add_right_comm, Nat.add_assoc]
    · rfl

/-- The ones of the low byte of a number. -/
theorem byteOnes_ofNat (v : Nat) : byteOnes (BitVec.ofNat 8 v) = ((List.range 8).filter v.testBit).length := by
  rw [byteOnes, foldl_count, Nat.zero_add]
  refine congrArg List.length (List.filter_congr fun i hi => ?_)
  rw [BitVec.getLsbD_ofNat, decide_eq_true (List.mem_range.mp hi), Bool.true_and]

/-- The ones of the bytes of a number are those of its bits. -/
theorem foldl_byteOnes (n v k : Nat) :
    (leBytes n v).foldl (fun n x => n + byteOnes x) k = k + ((List.range (8 * n)).filter v.testBit).length := by
  induction n generalizing v k with
  | zero => rfl
  | succ n ih =>
    have hhigh : ((List.range (8 * n)).map (8 + ·)).filter v.testBit = ((List.range (8 * n)).filter (v / 256).testBit).map (8 + ·) := by
      rw [List.filter_map]
      refine congrArg _ (List.filter_congr fun i _ => ?_)
      rw [Function.comp_apply, show v / 256 = v / 2 ^ 8 from rfl, Nat.testBit_div_two_pow, Nat.add_comm]
    rw [leBytes, List.foldl_cons, ih, byteOnes_ofNat, Nat.mul_succ, Nat.add_comm (8 * n), List.range_add, List.filter_append,
      List.length_append, hhigh, List.length_map, Nat.add_assoc]

/-- Distance is the number of counted bits that differ (R322). -/
theorem distance_eq (a b counted : BitVec 8192) :
    distance a b counted = ((List.range 8192).filter fun i => counted.getLsbD i && (a.getLsbD i != b.getLsbD i)).length := by
  rw [distance, imageBytes, foldl_byteOnes, Nat.zero_add]
  refine congrArg List.length (List.filter_congr fun i _ => ?_)
  rw [← BitVec.getLsbD, BitVec.getLsbD_and, BitVec.getLsbD_xor, Bool.and_comm]

/-! ### The words of a search -/

/-- The order of candidates: distance first, then index. -/
def nearer (x y : Nat × Nat) : Prop := x.1 < y.1 ∨ (x.1 = y.1 ∧ x.2 ≤ y.2)

theorem nearest_least {xs : List (Nat × Nat)} (h : xs ≠ []) : ∃ x ∈ xs, nearest xs = some x ∧ ∀ y ∈ xs, nearer x y := by
  induction xs with
  | nil => exact absurd rfl h
  | cons a r ih =>
    by_cases hr : r = []
    · subst hr
      exact ⟨a, List.mem_cons_self, rfl, by simp [nearer]⟩
    · obtain ⟨x, hx, hfirst, hmin⟩ := ih hr
      rw [nearest, hfirst]
      by_cases hlt : (x.1 < a.1 || (x.1 == a.1 && x.2 < a.2)) = true
      · refine ⟨x, List.mem_cons_of_mem a hx, congrArg some (if_pos hlt), fun y hy => ?_⟩
        rcases List.mem_cons.mp hy with rfl | hy
        · simp only [Bool.or_eq_true, Bool.and_eq_true, decide_eq_true_eq, beq_iff_eq] at hlt
          unfold nearer
          omega
        · exact hmin y hy
      · refine ⟨a, List.mem_cons_self, congrArg some (if_neg hlt), fun y hy => ?_⟩
        simp only [Bool.or_eq_true, Bool.and_eq_true, decide_eq_true_eq, beq_iff_eq] at hlt
        rcases List.mem_cons.mp hy with rfl | hy
        · exact .inr ⟨rfl, le_rfl⟩
        · have hxy := hmin y hy
          unfold nearer at hxy ⊢
          omega

theorem nearest_eq {xs : List (Nat × Nat)} {x : Nat × Nat} (hx : x ∈ xs) (hmin : ∀ y ∈ xs, nearer x y) : nearest xs = some x := by
  obtain ⟨y, hy, hfirst, hyx⟩ := nearest_least (List.ne_nil_of_mem hx)
  have hxy := hmin y hy
  have hyx := hyx x hx
  have heq : y = x := Prod.ext (by unfold nearer at hxy hyx; omega) (by unfold nearer at hxy hyx; omega)
  rw [hfirst, heq]

/-- The candidates of a search: distance and index of each entry that was valid. -/
def searchCands (valid : Nat → Bool) (d : Nat → Nat) (count : Nat) : List (Nat × Nat) :=
  ((List.range count).filter valid).map fun e => (d e, e)

theorem mem_searchCands {valid : Nat → Bool} {d : Nat → Nat} {count : Nat} {x : Nat × Nat} :
    x ∈ searchCands valid d count ↔ (x.2 < count ∧ valid x.2 = true) ∧ x.1 = d x.2 := by
  rw [searchCands, List.mem_map]
  constructor
  · rintro ⟨e, he, rfl⟩
    exact ⟨by simpa using he, rfl⟩
  · rintro ⟨hv, hd⟩
    exact ⟨x.2, by simpa using hv, Prod.ext hd.symm rfl⟩

/-- The nearest of the candidates that a choice keeps. -/
theorem nearest_searchCands {valid : Nat → Bool} {d : Nat → Nat} {count : Nat} {p : Nat × Nat → Bool} {e : Nat}
    (he : (e < count ∧ valid e = true) ∧ p (d e, e) = true)
    (hmin : ∀ n, (n < count ∧ valid n = true) ∧ p (d n, n) = true → d e < d n ∨ (d e = d n ∧ e ≤ n)) :
    nearest ((searchCands valid d count).filter p) = some (d e, e) := by
  refine nearest_eq (List.mem_filter.mpr ⟨mem_searchCands.mpr ⟨he.1, rfl⟩, he.2⟩) fun y hy => ?_
  obtain ⟨hy, hp⟩ := List.mem_filter.mp hy
  obtain ⟨hv, hd⟩ := mem_searchCands.mp hy
  have hle := hmin y.2 ⟨hv, by rw [← hd]; exact hp⟩
  rwa [nearer, hd]

/-- The words of a search are those of its nearest candidate and, where it asks for two, of the nearest other. -/
theorem searchWords_eq {r : Result} {g : BitVec 2} {two : Bool} {query dm mask : BitVec 8192} {count : Nat}
    (h : r.dest = .search g two query dm mask count) :
    let cands := searchCands (fun e => r.buf.read (validAt + e) != 0)
      (fun e => distance (bytesImage 8192 (r.buf.readBlock (1024 * e) 1024)) query (dm &&& mask)) count
    r.searchWords = distWord (nearest cands) :: if two then [distWord (nearest (cands.filter fun c => some c != nearest cands))] else [] := by
  rewrite [Result.searchWords, h]
  rfl

theorem searchWordsComplete (r : Result) (g : BitVec 2) (two : Bool) (query dm mask : BitVec 8192) (count : Nat)
    (h : r.dest = .search g two query dm mask count) :
    let valid (e : Nat) : Prop := e < count ∧ r.buf.read (validAt + e) ≠ 0
    let d (e : Nat) : Nat := distance (bytesImage 8192 (r.buf.readBlock (1024 * e) 1024)) query (dm &&& mask)
    let near (p : Nat → Prop) (e : Nat) : Prop := p e ∧ ∀ n, p n → d e < d n ∨ (d e = d n ∧ e ≤ n)
    let word (e : Nat) : W64 := BitVec.ofNat 64 (d e * 2 ^ 32 + e)
    r.searchWords.length = (if two then 2 else 1) ∧
    ((∀ e, ¬ valid e) → ∀ w ∈ r.searchWords, w = 0x800000000000FFFF) ∧
    ∀ e, near valid e → r.searchWords[0]? = some (word e) ∧
      (two = true → ((∀ n, valid n → n = e) → r.searchWords[1]? = some 0x800000000000FFFF) ∧
        ∀ n, near (fun k => valid k ∧ k ≠ e) n → r.searchWords[1]? = some (word n)) := by
  intro valid d near word
  have hvalid (e : Nat) : (e < count ∧ (r.buf.read (validAt + e) != 0) = true) ↔ valid e := by rw [bne_iff_ne]
  rw [searchWords_eq h]
  generalize hc : searchCands (fun e => r.buf.read (validAt + e) != 0) d count = cands
  refine ⟨by cases two <;> rfl, fun hno => ?none, fun e he => ?some⟩
  case none =>
    have hnil : cands = [] := List.eq_nil_iff_forall_not_mem.mpr fun x hx => by
      rw [← hc] at hx
      exact hno x.2 ((hvalid _).mp (mem_searchCands.mp hx).1)
    subst hnil
    cases two <;> simp [nearest, distWord]
  case some =>
    have hfirst : nearest cands = some (d e, e) := by
      have hall := nearest_searchCands (p := fun _ => true) (d := d) ⟨(hvalid e).mpr he.1, rfl⟩ fun n hn => he.2 n ((hvalid n).mp hn.1)
      rwa [List.filter_true, hc] at hall
    refine ⟨by rw [hfirst]; rfl, fun htwo => ⟨fun hone => ?one, fun n hn => ?second⟩⟩
    case one =>
      have hnil : cands.filter (fun c => some c != nearest cands) = [] := List.filter_eq_nil_iff.mpr fun x hx => by
        rw [← hc] at hx
        obtain ⟨hv, hd⟩ := mem_searchCands.mp hx
        have hxe : x.2 = e := hone x.2 ((hvalid _).mp hv)
        simp [hfirst, Prod.ext_iff, hd, hxe]
      rewrite [hnil, htwo]
      rfl
    case second =>
      have hother (k : Nat) : (k < count ∧ (r.buf.read (validAt + k) != 0) = true) ∧ (some (d k, k) != nearest cands) = true ↔ valid k ∧ k ≠ e := by
        rw [hvalid k, hfirst, bne_iff_ne]
        refine and_congr_right fun _ => not_congr ⟨fun hk => (Prod.ext_iff.mp (Option.some.inj hk)).2, fun hk => by rw [hk]⟩
      have hsecond := nearest_searchCands (p := fun c => some c != nearest cands) (d := d) ((hother n).mpr hn.1) fun k hk => hn.2 k ((hother k).mp hk)
      rw [hc] at hsecond
      rewrite [hsecond, htwo]
      rfl

/-! ### Searches -/

theorem hSearch_issues {l : Lane} {two : Bool} {s : State} (h : HReady s.m l (useHSearch l two s.m (s.m.me.mreg l.p.toNat))) :
    let c := s.m.me
    let mask := c.mreg l.p.toNat
    let g := c.geode (l.a.toNat % 4)
    let rows := (geodeCount g.1 + 3) / 4
    let row (q : Nat) := geodeBase g.1 + 4096 * q
    let f := c.searchStart s.m.now
    hSearch l two s = .next (s.issued .h 0 (s.m.modMe fun c =>
      (c.bookPorts ((List.range rows).map fun q => (groupOf (row q), f + q))).fly
        { s.m.result .h 0 (.search (BitVec.ofNat 2 (l.a.toNat % 4)) two (c.hreg l.b.toNat)
            (if g.2.1.getLsbD 4 then c.hreg (bits g.2.1 0 4).toNat else BitVec.allOnes 8192) (maskBytes mask) (geodeCount g.1)) 0 with
          w := f + 7 + rows
          reads := (List.range rows).map fun q =>
            { cyc := f + q, pad := .core s.m.cur, off := row q, len := 4096, pos := 4096 * q, valid := some (BitVec.ofNat 2 (l.a.toNat % 4)) }
          lane := Lane.toWord (if two then 7 else 6) l })) := by
  intro c mask g rows row f
  unfold hSearch
  refine (runH_issues h rfl).trans (issued_congr (Mach.modMe_congr ?_))
  dsimp only
  rw [List.zipWith_map_right, List.zipWith_map_right, List.zipWith_self, List.zipWith_self]

theorem searchesComplete : Claims.SearchesComplete := by
  refine ⟨fun s l two => ?search, fun s r hr => ?push, distance_eq, searchWordsComplete⟩
  case search =>
    intro m c mask g rows row f h
    have hexec : exec (if two then .hnear2 l else .hnear l) s = hSearch l two s := by cases two <;> rfl
    rw [hexec]
    exact hSearch_issues h
  case push =>
    show execSearchPush s = _
    unfold execSearchPush
    dsimp only
    rewrite [show (s.m.core s.m.cur).searches.find? (fun r => decide (r.w ≤ s.m.now)) = some r from hr]
    rfl

/-! ### Hypervector memory -/

theorem hyperMemoryCompletes : Claims.HyperMemoryCompletes := by
  intro s l
  dsimp only
  refine ⟨fun h => ?hgput, fun h hlvl => ?hld, fun h hlvl => ?hldRoute, fun h hlvl => ?hst, fun h hlvl => ?hstRoute, fun h hle => ?hsemw,
    fun h => ?hsems⟩
  case hgput =>
    show execHgput l s = _
    unfold execHgput
    exact runH_issues h rfl
  case hld =>
    show execHld l s = _
    unfold execHld
    refine runH_issues h ?_
    dsimp only
    rw [if_pos hlvl]
  case hldRoute =>
    show execHld l s = _
    unfold execHld
    refine runH_issues h ?_
    dsimp only
    rw [if_neg hlvl]
  case hst =>
    show execHst l s = _
    unfold execHst
    refine runH_issues h ?_
    dsimp only
    rw [if_pos hlvl]
  case hstRoute =>
    show execHst l s = _
    unfold execHst
    refine runH_issues h ?_
    dsimp only
    rewrite [if_neg hlvl]
    rfl
  case hsemw =>
    have hheld : (s.m.me.semTake l.dst.toNat (s.m.me.xCount l)).isNone = false := by
      rw [Core.semTake_isNone, decide_eq_false (Nat.not_lt.mpr hle)]
    have h' : HReady s.m l { HUse.none with regs := if l.kb = 1 then [l.b.toNat] else [],
                                            held := (s.m.me.semTake l.dst.toNat (s.m.me.xCount l)).isNone } := by
      rw [hheld]
      exact h
    show execHsemw l s = _
    exact (runH_issues h' rfl).trans (issued_congr (Mach.modMe_congr (Core.semTake_getD hle _)))
  case hsems =>
    show execHsems l s = _
    exact runH_issues h rfl

/-- Settles O19: the searches with their words, and hypervector memory. -/
theorem hyperMemoryAndSearchesComplete : Obligations.HyperMemoryAndSearchesComplete := ⟨searchesComplete, hyperMemoryCompletes⟩

end Sys2Proof.Machine
end

section
/-! All-false masks of the V and the H stream (R227, R317). -/
namespace Sys2Proof.Machine

/-- Every V lane but VSEL, NOP and WAIT runs under its mask. -/
theorem exec_eq_runV {i : Instr} {op : BitVec 7} {l : Lane} (h : i.lane? = some (.v, op, l, none)) (hsel : i ≠ .vsel l)
    (hnop : i ≠ .nop .v l) (hwait : i ≠ .waitC .v l) : ∃ lcs use act, ∀ s, exec i s = runV l lcs use act s := by
  cases i with
  | nop st k => cases h; exact absurd rfl hnop
  | waitC st k => cases h; exact absurd rfl hwait
  | vsel k => cases h; exact absurd rfl hsel
  | vaddF k | vsubF k | vmulF k | vfma k | vminF k | vmaxF k | vabs k | vaddS k | vsubS k | vmulS k | vminS k | vmaxS k | vaddZ k
  | vsubZ k | vmulZ k | vminZ k | vmaxZ k | vand k | vor k | vxor k | vnot k | vshl k | vshrZ k | vshrS k | vcmpF k | vcmpS k
  | vcmpZ k | vcvt k | vpack k | vunpk k | vrcp k | vrsq k | vexp2 k | vlog2 k | vmov k | vmand k | vmor k | vmnot k | vrotr k
  | vrotc k | vbcr k | vbcc k | vredr k | vredc k | vscanr k | vscanc k | vld k | vst k | vldx k | vstx k | vins k | vext k
  | vsemw k | vsems k =>
    cases h
    simp only [exec, execVaddF, execVsubF, execVmulF, execVfma, execVminF, execVmaxF, execVabs, execVaddS, execVsubS, execVmulS, execVminS, execVmaxS,
      execVaddZ, execVsubZ, execVmulZ, execVminZ, execVmaxZ, execVand, execVor, execVxor, execVnot, execVshl, execVshrZ, execVshrS,
      execVcmpF, execVcmpS, execVcmpZ, execVcvt, execVpack, execVunpk, execVrcp, execVrsq, execVexp2, execVlog2, execVmov, execVmand,
      execVmor, execVmnot, execVrotr, execVrotc, execVbcr, execVbcc, execVredr, execVredc, execVscanr, execVscanc, execVld, execVst,
      execVldx, execVstx, execVins, execVext, execVsemw, execVsems, vLanes, vLanesA, vCompare, vMove, vReduce, vMask]
    exact ⟨_, _, _, fun _ => rfl⟩
  | _ => cases h

/-- Every H lane but NOP and WAIT runs under its mask. -/
theorem exec_eq_runH {i : Instr} {op : BitVec 7} {l : Lane} (h : i.lane? = some (.h, op, l, none))
    (hnop : i ≠ .nop .h l) (hwait : i ≠ .waitC .h l) : ∃ use act, ∀ s, exec i s = runH l use act s := by
  cases i with
  | nop st k => cases h; exact absurd rfl hnop
  | waitC st k => cases h; exact absurd rfl hwait
  | hbind k | hperm k | hbund k | hthr k | hdist k | hnear k | hnear2 k | hmov k | hclr k | hnot k | hld k | hst k | hgdset k
  | hgput k | hgputInv k | hsemw k | hsems k =>
    cases h
    simp only [exec, execHbind, execHperm, execHbund, execHthr, execHdist, execHnear, execHnear2, execHmov, execHclr, execHnot, execHld, execHst,
      execHgdset, execHgput, execHgputInv, execHsemw, execHsems, hWrite, hSearch]
    exact ⟨_, _, fun _ => rfl⟩
  | _ => cases h

/-- Settles O51: a lane under an all-false mask issues and does nothing else. -/
theorem allFalseSlotsHaveNoEffect : Obligations.AllFalseSlotsHaveNoEffect := by
  intro s i st op l hlane hst hsel hnop hwait hmask hstale
  rcases hst with rfl | rfl
  · obtain ⟨lcs, use, act, hexec⟩ := exec_eq_runV hlane hsel hnop hwait
    rw [hexec, runV_off hmask hstale]
  · obtain ⟨use, act, hexec⟩ := exec_eq_runH hlane hnop hwait
    rw [hexec, runH_off hmask hstale]

end Sys2Proof.Machine
end

section
/-! SUPPORT. What a boundary changes: publications, the memories they reach, and the cores' global sides (R137 to R141). -/
namespace Sys2Proof.Machine

/-- `t` is `m` but for publications, device memory as written and as published, and the global side of its cores. -/
structure Mach.OnlyGlobal (m t : Mach) : Prop where
  mach : t = { m with pubs := t.pubs, dev := t.dev, sys := t.sys, cores := t.cores }
  length : t.cores.length = m.cores.length
  core : ∀ k, t.core k = { m.core k with glb := (t.core k).glb }

theorem Mach.OnlyGlobal.refl (m : Mach) : m.OnlyGlobal m := ⟨rfl, rfl, fun _ => rfl⟩

theorem Mach.OnlyGlobal.trans {m t u : Mach} (h : m.OnlyGlobal t) (h' : t.OnlyGlobal u) : m.OnlyGlobal u where
  mach := by
    have hm := h'.mach
    rw [h.mach] at hm
    exact hm
  length := h'.length.trans h.length
  core k := by
    have hc := h'.core k
    rw [h.core k] at hc
    exact hc

theorem Mach.OnlyGlobal.now {m t : Mach} (h : m.OnlyGlobal t) : t.now = m.now := by rw [h.mach]

/-- Whether a function of a core changes its global side only. -/
def Core.glbOnly (f : Core → Core) : Prop := ∀ c, f c = { c with glb := (f c).glb }

theorem Mach.OnlyGlobal.modCore (m : Mach) (n : Nat) {f : Core → Core} (hf : Core.glbOnly f) : m.OnlyGlobal (m.modCore n f) := by
  refine ⟨rfl, Mach.modCore_cores_length m n f, fun k => ?_⟩
  by_cases hk : k = n
  · subst hk
    by_cases hlen : k < m.cores.length
    · rw [Mach.core_modCore m f hlen]
      exact hf (m.core k)
    · rw [Mach.modCore, Mach.setCore, List.set_eq_of_length_le (Nat.le_of_not_lt hlen)]
  · rw [Mach.core_modCore_other m f hk]

theorem Mach.OnlyGlobal.of_cores {m : Mach} (pubs : List Pub) (dev sys : Memory) {cs : List Core} (hlen : cs.length = m.cores.length)
    (h : ∀ k, nth cs k Core.reset = { m.core k with glb := (nth cs k Core.reset).glb }) :
    m.OnlyGlobal { m with pubs := pubs, dev := dev, sys := sys, cores := cs } := ⟨rfl, hlen, h⟩

/-- Every core changed in its global side, as its number says. -/
theorem Mach.OnlyGlobal.map_zip (m : Mach) {f : Nat × Core → Core} (hf : ∀ n, Core.glbOnly fun c => f (n, c)) (pubs : List Pub) (dev sys : Memory) :
    m.OnlyGlobal { m with pubs := pubs, dev := dev, sys := sys, cores := ((List.range m.cores.length).zip m.cores).map f } := by
  have hlen : (((List.range m.cores.length).zip m.cores).map f).length = m.cores.length := by simp
  refine .of_cores pubs dev sys hlen fun k => ?_
  by_cases hk : k < m.cores.length
  · have hcore : nth (((List.range m.cores.length).zip m.cores).map f) k Core.reset = f (k, m.core k) := by
      rw [nth, List.getD_eq_getElem _ _ (hlen.symm ▸ hk), Mach.core, nth, List.getD_eq_getElem _ _ hk]
      simp
    rw [hcore]
    exact hf k (m.core k)
  · rw [nth, List.getD_eq_default _ _ (hlen.symm ▸ Nat.le_of_not_lt hk), Mach.core, nth, List.getD_eq_default _ _ (Nat.le_of_not_lt hk)]

theorem Mach.addPub_onlyGlobal (m : Mach) (p : Pub) : m.OnlyGlobal (m.addPub p) :=
  Mach.OnlyGlobal.map_zip m (fun n c => by dsimp only; split <;> rfl) _ _ _

theorem Mach.OnlyGlobal.foldl {α : Type} {f : Mach → α → Mach} (h : ∀ m a, Mach.OnlyGlobal m (f m a)) (xs : List α) (m : Mach) :
    m.OnlyGlobal (xs.foldl f m) := by
  induction xs generalizing m with
  | nil => exact .refl m
  | cons x xs ih => exact (h m x).trans (ih (f m x))

theorem Mach.widen_onlyGlobal (m : Mach) (nos : List Nat) (scope : BitVec 4) : m.OnlyGlobal (m.widen nos scope) := by
  unfold Mach.widen
  split
  · exact .refl m
  · exact Mach.OnlyGlobal.map_zip m (fun n c => by dsimp only; split <;> rfl) _ _ _

theorem Mach.publishNew_onlyGlobal (m : Mach) (core : Nat) (scope : BitVec 4) (x : GWrite) : m.OnlyGlobal (m.publishNew core scope x) := by
  unfold Mach.publishNew
  exact (Mach.addPub_onlyGlobal m _).trans (Mach.OnlyGlobal.modCore _ core fun _ => rfl)

theorem Mach.publish_onlyGlobal (m : Mach) (core : Nat) (scope : BitVec 4) (cut : Nat) : m.OnlyGlobal (m.publish core scope cut) := by
  unfold Mach.publish
  exact ((Mach.widen_onlyGlobal m _ scope).trans (.foldl (fun m x => Mach.publishNew_onlyGlobal m core scope x) _ _)).trans (Mach.OnlyGlobal.modCore _ core fun _ => rfl)

theorem Mach.refresh_onlyGlobal (m : Mach) (core : Nat) : m.OnlyGlobal (m.refresh core) := .modCore m core fun _ => rfl

theorem Mach.boundaryOf_onlyGlobal (m : Mach) (core : Nat) (scope : BitVec 4) (cut : Nat) : m.OnlyGlobal (m.boundaryOf core scope cut) :=
  (Mach.publish_onlyGlobal m core scope cut).trans (Mach.refresh_onlyGlobal _ core)

theorem Mach.boundary_onlyGlobal (m : Mach) (core : Nat) (scope : BitVec 4) : m.OnlyGlobal (m.boundary core scope) :=
  Mach.boundaryOf_onlyGlobal m core scope _

theorem Mach.postBoundary_onlyGlobal (m : Mach) (core : Nat) (scope : BitVec 4) : m.OnlyGlobal (m.postBoundary core scope) := by
  unfold Mach.postBoundary
  split
  · exact Mach.boundary_onlyGlobal m core scope
  · exact .modCore m core fun _ => rfl

theorem Mach.boundaryAll_onlyGlobal (m : Mach) (t : Task) (scope : BitVec 4) : m.OnlyGlobal (m.boundaryAll t scope) :=
  .foldl (fun m c => Mach.boundary_onlyGlobal m c scope) _ m

end Sys2Proof.Machine
end

section
/-! Tile instructions at a core and at a task's P port, with their retirement and records (R215, R340 to R353). -/
namespace Sys2Proof.Machine

/-! ### Tile instructions -/

theorem tileLanesComplete : Claims.TileLanesComplete := by
  intro s t i top hmem hcur u h
  have hexec : exec i s = tileAt top t s := exec_tiles t _ hmem s
  have hissues : runS (Tile.asLane t) noInc (fun m => { SUse.none with held := (m.me.lcBusy m.now &&& t.lcm) != 0, traps := m.tileTraps top t })
      (fun m => .done (m.takeTile top t) 0) s = .next (s.issuedS u (s.m.takeTile top t)) := runS_issues h rfl
  have hclash : firstTrap (s.m.tileTraps top t) = none := by rw [show s.m.tileTraps top t = [] from h.2.2.2.2.2.2]; rfl
  rw [hexec, tileAt, hcur]
  show tileLane top t s = _
  unfold tileLane
  dsimp only
  rw [hissues, hclash]
  dsimp only
  rw [if_neg (by simp)]

theorem tilePortCompletes : Claims.TilePortCompletes := by
  intro s x i top task t k hmem hcur htask hpending
  have hexec : exec i s = tilePkg top x task s := by rw [show exec i s = tileAt top x s from exec_tiles x _ hmem s, tileAt, hcur]
  rw [hexec]
  unfold tilePkg
  dsimp only
  rw [htask]
  dsimp only
  rw [hpending]
  dsimp only
  refine ⟨fun hd => ?accepts, fun hd => ?refuses⟩
  case accepts =>
    rewrite [hd]
    rfl
  case refuses =>
    split
    case h_1 h => exact absurd h hd
    case h_2 => rfl

/-- Settles O20: a tile instruction at a core's port, and at P. -/
theorem tileInstructionsComplete : Obligations.TileInstructionsComplete := ⟨tileLanesComplete, tilePortCompletes⟩

/-! ### Retirement and records -/

theorem Mach.tileRetireL_of_due {m : Mach} {core : Nat} {t : LTile} (h : (m.core core).dueTile m.now = some t) (hbad : t.bad = []) :
    m.tileRetireL core =
      (t.woke.foldl (fun m b =>
        if (m.dom (.core core b)).st == .on then m.setDom (.core core b) { (m.dom (.core core b)) with pend := some (m.now, false) } else m)
        (m.modCore core fun c =>
          let c := { c with port := { c.port with tiles := c.port.tiles.map fun x => if x.seq = t.seq then { x with gone := true } else x } }
          if t.evt || t.code != 0 then c.raise m.now (tileEvent t.code t.seq t.lcm) else c)).postBoundary core 0 := by
  unfold Mach.tileRetireL
  rw [h]
  dsimp only
  rw [hbad]
  exact if_neg Bool.false_ne_true

theorem Mach.tileRecordL_of_due {m : Mach} {core : Nat} {t : LTile} {b : Nat × Nat} {r : List (Nat × Nat)}
    (h : (m.core core).dueTile m.now = some t) (hbad : t.bad = b :: r) :
    m.tileRecordL core =
      let mask : BitVec 4 := BitVec.ofNat 4 ((b :: r).foldl (fun a x => a + 2 ^ x.1) 0)
      m.modCore core fun c => { c with port := { c.port with
        record := c.port.record.orElse fun _ => some (lcRecord 0x0B t.seq b.2 b.1 (t.lcm &&& ~~~mask))
        failed := c.port.failed ||| mask
        tiles := c.port.tiles.map fun x => if x.seq = t.seq then { x with bad := [], code := 0x0B } else x } } := by
  unfold Mach.tileRecordL
  rw [h]
  dsimp only
  rw [hbad]
  refine congrArg (m.modCore core) (funext fun c => ?_)
  cases c.port.record <;> rfl

/-- What TILE_RETIRE and TILE_RECORD do at a P port whose instruction may retire. -/
theorem execTileRetire_pkg {s : State} {task : Nat} {t : Task} {k : ChainCmdP} {ks : List ChainCmdP} (htask : s.m.task task = some t)
    (hrun : t.port.running = k :: ks) (hready : s.m.pkgReady t k = true) :
    exec (.tileRetire (.pkg task)) s =
      if k.tile.1 = 14 && !k.bar then .next { s with m := (s.m.boundaryAll t (tileScope k.tile.2)).barDone t k }
      else match s.m.pkgRun t k with
        | none => .next { s with m := s.m.retirePkg t k none }
        | some e =>
          if !e.pull.isEmpty then .next { s with m := s.m.askPages t.fn e.pull }
          else if e.record.isSome then .next s else .next { s with m := e.m.retirePkg t k none } := by
  show execTileRetire (.pkg task) s = _
  unfold execTileRetire
  dsimp only
  rw [htask]
  dsimp only
  rw [hrun]
  dsimp only
  rewrite [hready]
  rfl

theorem execTileRecord_pkg {s : State} {task : Nat} {t : Task} {k : ChainCmdP} {ks : List ChainCmdP} {e : TEnd} {r : TRec}
    (htask : s.m.task task = some t) (hrun : t.port.running = k :: ks) (hready : s.m.pkgReady t k = true) (he : s.m.pkgRun t k = some e)
    (hpull : e.pull = []) (hr : e.record = some r) : exec (.tileRecord (.pkg task)) s = .next { s with m := e.m.retirePkg t k (some r) } := by
  show execTileRecord (.pkg task) s = _
  unfold execTileRecord
  dsimp only
  rw [htask]
  dsimp only
  rw [hrun]
  dsimp only
  rw [hready, he]
  dsimp only
  rewrite [hpull, hr]
  rfl

/-- Settles O21: the retirement and the record at a core, and at P. -/
theorem tileEventsComplete : Obligations.TileEventsComplete := by
  intro s
  refine ⟨fun core t hdue hbad => ?retire, fun core t b r hdue hbad => ?record, fun task t k ks htask hrun hready => ?pkg⟩
  case retire =>
    show execTileRetire (.core core) s = _
    unfold execTileRetire
    dsimp only
    rw [Mach.tileRetireL_of_due hdue hbad]
  case record =>
    show execTileRecord (.core core) s = _
    unfold execTileRecord
    dsimp only
    rw [Mach.tileRecordL_of_due hdue hbad]
  case pkg =>
    intro barrier
    have hexec := execTileRetire_pkg htask hrun hready
    have hbar : (k.tile.1 = 14 && !k.bar) = true ↔ barrier := by simp [barrier]
    refine ⟨fun hb => ?barrier, fun hb hnone => ?plain, fun e hb he hpull => ?pull, fun e he hpull => ⟨fun hb hno => ?done, fun r hr => ?fault⟩⟩
    case barrier =>
      rw [hexec, if_pos (hbar.mpr hb)]
      have hnow : (s.m.boundaryAll t (tileScope k.tile.2)).now = s.m.now := (Mach.boundaryAll_onlyGlobal s.m t _).now
      rw [Mach.barDone, hnow]
    case plain => rw [hexec, if_neg (mt hbar.mp hb), hnone]
    case pull =>
      rw [hexec, if_neg (mt hbar.mp hb), he]
      exact if_pos (by simpa using hpull)
    case done =>
      rw [hexec, if_neg (mt hbar.mp hb), he]
      dsimp only
      rewrite [hpull, hno]
      rfl
    case fault => exact execTileRecord_pkg htask hrun hready he hpull hr

end Sys2Proof.Machine
end

section
/-! The control core: its custom and its standard instructions complete (R151 to R157, R177 to R188), and the entry to a handler. -/
namespace Sys2Proof.Machine

/-! ### How an instruction of the control core ends -/

theorem runCtl_done {body : Mach → CtlOut} {s : State} {m : Mach} {next : W64} {n : Nat} (h : body s.m = .done m next n) :
    runCtl body s = .next (s.completed m next n) := by
  rw [runCtl, h]; rfl

theorem runCtl_except {body : Mach → CtlOut} {s : State} {k : Nat} {v : W64} (h : body s.m = .except k v) :
    runCtl body s = .next (s.excepted k v) := by
  rw [runCtl, h]; rfl

theorem Mach.modCtl_id (m : Mach) : m.modCtl id = m :=
  Mach.modCore_eq_self (f := fun c => { c with ctl := id c.ctl }) rfl

/-- An instruction that changes nothing beside the pc completes. -/
theorem runCtl_nothing {body : Mach → CtlOut} {s : State} {n : Nat} (h : body s.m = ctlDone s.m n id) :
    runCtl body s = .next (s.completed s.m (s.m.me.ctl.pc + 4) n) := by
  refine runCtl_done (h.trans ?_)
  rw [ctlDone, Mach.modCtl_id]; rfl

/-- A csem instruction with operands in their ranges. -/
theorem semOut_done {rs1 rs2 : XReg} {f : Mach → Nat → Nat → CtlOut} {s : State} {m : Mach} {next : W64} {n : Nat}
    (ha : (s.m.me.ctl.xr rs1).toNat < 32) (hb : (s.m.me.ctl.xr rs2).toNat < 65536)
    (h : f s.m (s.m.me.ctl.xr rs1).toNat (s.m.me.ctl.xr rs2).toNat = .done m next n) :
    semOut rs1 rs2 f s = .next (s.completed m next n) := by
  refine runCtl_done ?_
  dsimp only
  rw [if_neg (Nat.not_le.mpr ha), if_neg (Nat.not_le.mpr hb), h]

theorem semOut_except_rs1 {rs1 rs2 : XReg} {f : Mach → Nat → Nat → CtlOut} {s : State} (ha : 32 ≤ (s.m.me.ctl.xr rs1).toNat) :
    semOut rs1 rs2 f s = .next (s.excepted 24 (s.m.me.ctl.xr rs1)) :=
  runCtl_except (if_pos ha)

theorem semOut_except_rs2 {rs1 rs2 : XReg} {f : Mach → Nat → Nat → CtlOut} {s : State} (ha : (s.m.me.ctl.xr rs1).toNat < 32)
    (hb : 65536 ≤ (s.m.me.ctl.xr rs2).toNat) : semOut rs1 rs2 f s = .next (s.excepted 24 (s.m.me.ctl.xr rs2)) :=
  runCtl_except ((if_neg (Nat.not_le.mpr ha)).trans (if_pos hb))

/-! ### Custom instructions (R177 to R188) -/

/-- The custom instructions complete where the table says so. -/
theorem controlOps_complete {s : State} {rd rs1 rs2 : XReg} {i : Instr} {ok : Prop} {m' : Mach}
    (hmem : (i, ok, m') ∈ Claims.controlOps rd rs1 rs2 s.m) (h : ok) : exec i s = .next (s.completed m' (s.m.me.ctl.pc + 4) 1) := by
  simp only [Claims.controlOps, List.mem_cons, Prod.mk.injEq, List.not_mem_nil, or_false] at hmem
  rcases hmem with ⟨rfl, rfl, rfl⟩ | ⟨rfl, rfl, rfl⟩ | ⟨rfl, rfl, rfl⟩ | ⟨rfl, rfl, rfl⟩ | ⟨rfl, rfl, rfl⟩ | ⟨rfl, rfl, rfl⟩ |
    ⟨rfl, rfl, rfl⟩ | ⟨rfl, rfl, rfl⟩ | ⟨rfl, rfl, rfl⟩ | ⟨rfl, rfl, rfl⟩ | ⟨rfl, rfl, rfl⟩ | ⟨rfl, rfl, rfl⟩ | ⟨rfl, rfl, rfl⟩ |
    ⟨rfl, rfl, rfl⟩ | ⟨rfl, rfl, rfl⟩ | ⟨rfl, rfl, rfl⟩ | ⟨rfl, rfl, rfl⟩
  · show execCblk _ _ s = _
    unfold execCblk
    obtain ⟨hnum, hpos, hcount, hvalid, hroom⟩ := h
    refine runCtl_done ?_
    dsimp only
    rewrite [if_neg (Nat.not_le.mpr hnum), if_neg (Nat.not_le.mpr hcount), if_neg (Nat.ne_of_gt hpos), hvalid,
      decide_eq_false (Nat.not_le.mpr hroom)]
    rfl
  · show execCblk _ _ s = _
    unfold execCblk
    obtain ⟨hnum, hzero⟩ := h
    refine runCtl_nothing ?_
    dsimp only
    rewrite [if_neg (Nat.not_le.mpr hnum), hzero]
    rfl
  · show execCblkw s = _
    unfold execCblkw
    obtain ⟨hqueue, hbusy, hstop⟩ := h
    refine runCtl_nothing ?_
    rewrite [hqueue, hbusy, hstop]
    rfl
  · show execCevt _ s = _
    unfold execCevt
    obtain ⟨w, ws, hq⟩ := List.exists_cons_of_ne_nil h
    refine runCtl_done ?_
    rewrite [hq]
    rfl
  · show execCevtNb _ s = _
    unfold execCevtNb
    obtain ⟨w, ws, hq⟩ := List.exists_cons_of_ne_nil h
    refine runCtl_done ?_
    rewrite [hq]
    rfl
  · show execCevtNb _ s = _
    unfold execCevtNb
    refine runCtl_done ?_
    rewrite [h]
    rfl
  · show execCsemSig _ _ s = _
    unfold execCsemSig
    exact semOut_done h.1 h.2 rfl
  · show execCsemWait _ _ s = _
    unfold execCsemWait
    obtain ⟨hsem, hle⟩ := h
    refine semOut_done hsem.1 hsem.2 ?_
    rewrite [Core.semTake, if_pos hle]
    rfl
  · show execCsemTry _ _ _ s = _
    unfold execCsemTry
    obtain ⟨hsem, hle⟩ := h
    refine semOut_done hsem.1 hsem.2 ?_
    rewrite [Core.semTake, if_pos hle]
    rfl
  · show execCsemTry _ _ _ s = _
    unfold execCsemTry
    obtain ⟨hsem, hlt⟩ := h
    refine semOut_done hsem.1 hsem.2 ?_
    rewrite [Core.semTake, if_neg (Nat.not_le.mpr hlt)]
    rfl
  · show execCsemRd _ _ s = _
    unfold execCsemRd
    exact semOut_done h (show (0 : W64).toNat < 65536 by decide) rfl
  · show execCsemSet _ _ s = _
    unfold execCsemSet
    exact semOut_done h.1 h.2 rfl
  · show execCframeRep _ s = _
    unfold execCframeRep
    obtain ⟨hheld, hcause⟩ := h
    refine runCtl_done ?_
    dsimp only
    rewrite [hheld, decide_eq_false hcause]
    rfl
  · show execCframeEnd _ s = _
    unfold execCframeEnd
    exact runCtl_done (if_neg (Nat.not_le.mpr h))
  · show execCwid _ s = _
    unfold execCwid
    exact runCtl_done rfl
  · show execCtis _ _ s = _
    unfold execCtis
    exact runCtl_done (if_neg (Nat.not_le.mpr h))
  · show execCpds _ _ s = _
    unfold execCpds
    obtain ⟨hlt, hmod⟩ := h
    refine runCtl_done ?_
    dsimp only
    rewrite [decide_eq_false (show ¬ 16 ≤ _ by omega), decide_eq_false hmod, decide_eq_false (show ¬ _ / 4 = 3 by omega)]
    rfl

/-- The custom instructions reject what the table says. -/
theorem controlRejects_except {s : State} {rd rs1 rs2 : XReg} {i : Instr} {bad : Prop} {v : W64}
    (hmem : (i, bad, v) ∈ Claims.controlRejects rd rs1 rs2 s.m) (h : bad) : exec i s = .next (s.excepted 24 v) := by
  simp only [Claims.controlRejects, List.mem_cons, Prod.mk.injEq, List.not_mem_nil, or_false] at hmem
  rcases hmem with ⟨rfl, rfl, rfl⟩ | ⟨rfl, rfl, rfl⟩ | ⟨rfl, rfl, rfl⟩ | ⟨rfl, rfl, rfl⟩ | ⟨rfl, rfl, rfl⟩ | ⟨rfl, rfl, rfl⟩ |
    ⟨rfl, rfl, rfl⟩ | ⟨rfl, rfl, rfl⟩ | ⟨rfl, rfl, rfl⟩ | ⟨rfl, rfl, rfl⟩ | ⟨rfl, rfl, rfl⟩ | ⟨rfl, rfl, rfl⟩ | ⟨rfl, rfl, rfl⟩ |
    ⟨rfl, rfl, rfl⟩ | ⟨rfl, rfl, rfl⟩ | ⟨rfl, rfl, rfl⟩
  · show execCblk _ _ s = _
    unfold execCblk
    exact runCtl_except (if_pos h)
  · show execCblk _ _ s = _
    unfold execCblk
    exact runCtl_except ((if_neg (Nat.not_le.mpr h.1)).trans (if_pos h.2))
  · show execCsemSig _ _ s = _
    unfold execCsemSig
    exact semOut_except_rs1 h
  · show execCsemSig _ _ s = _
    unfold execCsemSig
    exact semOut_except_rs2 h.1 h.2
  · show execCsemWait _ _ s = _
    unfold execCsemWait
    exact semOut_except_rs1 h
  · show execCsemWait _ _ s = _
    unfold execCsemWait
    exact semOut_except_rs2 h.1 h.2
  · show execCsemTry _ _ _ s = _
    unfold execCsemTry
    exact semOut_except_rs1 h
  · show execCsemTry _ _ _ s = _
    unfold execCsemTry
    exact semOut_except_rs2 h.1 h.2
  · show execCsemRd _ _ s = _
    unfold execCsemRd
    exact semOut_except_rs1 h
  · show execCsemSet _ _ s = _
    unfold execCsemSet
    exact semOut_except_rs1 h
  · show execCsemSet _ _ s = _
    unfold execCsemSet
    exact semOut_except_rs2 h.1 h.2
  · show execCframeRep _ s = _
    unfold execCframeRep
    refine runCtl_except (if_pos ?_)
    rcases h with hloose | hcause
    · rw [hloose]; rfl
    · rw [decide_eq_true hcause, Bool.or_true]
  · show execCframeEnd _ s = _
    unfold execCframeEnd
    exact runCtl_except (if_pos h)
  · show execCresume s = _
    unfold execCresume
    refine runCtl_except ?_
    dsimp only
    cases hstop : s.m.me.stop with
    | none => rfl
    | some p => dsimp only; rw [h p hstop]; rfl
  · show execCtis _ _ s = _
    unfold execCtis
    exact runCtl_except (if_pos h)
  · show execCpds _ _ s = _
    unfold execCpds
    refine runCtl_except (if_pos ?_)
    have h' : 16 ≤ (s.m.me.ctl.xr rs1).toNat ∨ (s.m.me.ctl.xr rs1).toNat % 4 = 3 ∨ (s.m.me.ctl.xr rs1).toNat / 4 = 3 := by omega
    simpa [or_assoc] using h'

/-- Settles O22: the table of effects and the table of rejected operands. -/
theorem controlInstructionsComplete : Obligations.ControlInstructionsComplete :=
  fun _ _ _ _ _ => ⟨fun _ _ hmem _ hok => controlOps_complete hmem hok, fun _ _ hmem hbad => controlRejects_except hmem hbad⟩

/-! ### Boundaries and resume (R142, R175, R182) -/

/-- A cphase or cfence whose wait is over completes. -/
theorem memOut_done {s : State} {fence : Bool} {scope : BitVec 4} {f : Bool} {x : BitVec 4} {cut : Nat}
    (hw : s.m.me.ctl.wait.getD (s.ctlWait fence scope) = .mem f x cut) (hover : s.m.waitOver f x cut = true) :
    memOut fence scope s = .next (s.completed (if f then s.m else s.m.boundaryOf s.m.cur x cut) (s.m.me.ctl.pc + 4) 1) := by
  unfold memOut
  refine runCtl_done ?_
  cases hwait : s.m.me.ctl.wait with
  | none =>
    rw [hwait] at hw
    cases hw
    exact if_pos hover
  | some w =>
    rw [hwait] at hw
    cases hw
    exact if_pos hover

/-- Settles O23: cphase and cfence by the end of their wait, cresume by the shadow of its stop. -/
theorem boundariesAndResumeComplete : Obligations.BoundariesAndResumeComplete := by
  intro s scope m pc
  refine ⟨fun f x cut hw hover => (memOut_done hw hover : memOut false scope s = _), fun f x cut hw hover => (memOut_done hw hover : memOut true scope s = _), fun p hstop hheld => ⟨?resume, ?shadow⟩⟩
  case resume =>
    intro hshadow
    show execCresume s = _
    unfold execCresume
    refine runCtl_done ?_
    dsimp only
    rw [show s.m.me.stop = some p from hstop]
    dsimp only
    rewrite [hheld, hshadow]
    rfl
  case shadow =>
    intro code line lane addr detail hshadow
    show execCresume s = _
    unfold execCresume
    refine runCtl_done ?_
    dsimp only
    rw [show s.m.me.stop = some p from hstop]
    dsimp only
    rewrite [hheld, hshadow]
    rfl

/-! ### Standard instructions (R151 to R157) -/

/-- The length of an instruction as a word. -/
theorem ofNat_length (short : Bool) : BitVec.ofNat 64 (if short then 2 else 4) = if short then 2 else 4 := by
  cases short <;> rfl

theorem exec_rv_done {s : State} {op : Rv} {short : Bool} {m : Mach} {next : W64} {n : Nat}
    (h : rvOut op (if short then 2 else 4) s.m = .done m next n) :
    exec (.rv64Instruction ⟨op, short⟩) s = .next (s.completed m next n) :=
  (runCtl_done h : execRv64Instruction ⟨op, short⟩ s = _)

theorem exec_rv_except {s : State} {op : Rv} {short : Bool} {k : Nat} {v : W64}
    (h : rvOut op (if short then 2 else 4) s.m = .except k v) :
    exec (.rv64Instruction ⟨op, short⟩) s = .next (s.excepted k v) :=
  (runCtl_except h : execRv64Instruction ⟨op, short⟩ s = _)

/-- The instructions of the table compute its register, value, next pc and cycles. -/
theorem rvOut_rvCompute {m : Mach} {op : Rv} {short : Bool} {rd : XReg} {v pc : W64} {n : Nat}
    (h : Claims.rvCompute m.me.ctl (m.me.ctl.pc + if short then 2 else 4) op = some (rd, v, pc, n)) :
    rvOut op (if short then 2 else 4) m = .done (m.modCtl fun k => k.setX rd v) pc n := by
  rw [← ofNat_length] at h
  cases op with
  | lui | auipc | jal | jalr | aluImm | aluImmW | alu | aluW => cases h; rfl
  | mul op | mulW op => cases op <;> (cases h; rfl)
  | _ => cases h

/-- Settles O24: the table, the branches and the fences. -/
theorem rvComputeCompletes : Obligations.RvComputeCompletes := by
  intro s op short k next i
  have hnext : next = k.pc + BitVec.ofNat 64 (if short then 2 else 4) := by rw [ofNat_length]
  refine ⟨fun rd v pc n h => exec_rv_done (rvOut_rvCompute h), ?branch, ?fence, ?fenceI⟩
  case branch =>
    rintro c rs1 rs2 off rfl
    by_cases hc : RvCond.holds c (k.xr rs1) (k.xr rs2) = true
    · rw [if_pos hc]
      exact exec_rv_done (if_pos hc)
    · rw [if_neg hc, hnext]
      exact exec_rv_done (if_neg hc)
  case fence =>
    rintro fm p q rd rs1 rfl
    rw [hnext]
    exact exec_rv_done rfl
  case fenceI =>
    rintro rd rs1 imm rfl
    rw [hnext]
    exact exec_rv_done rfl

end Sys2Proof.Machine
end

section
/-! The memory, system and CSR instructions of the control core, its interrupts, and its frame (R151 to R157, R166, R170). -/
namespace Sys2Proof.Machine

/-! ### Loads and stores of the control core (R152, R170) -/

theorem Core.ctlLoad_frame (c : Core) {a n : Nat} (amo : Bool) (halign : a % n = 0) (hle : a + n ≤ 0x10000) :
    c.ctlLoad a n amo = .ok (c.frame.value a n) := by
  simp [Core.ctlLoad, halign, hle]

theorem Core.ctlLoad_cstore (c : Core) {a n : Nat} (halign : a % n = 0) (hlo : 0x01000000 ≤ a) (hhi : a + n ≤ 0x01008000) :
    c.ctlLoad a n false = .ok (c.cstore.value (a - 0x01000000) n) := by
  have houtside : ¬ a + n ≤ 0x10000 := by omega
  simp [Core.ctlLoad, cstoreBase, halign, houtside, hlo, hhi]

theorem Core.ctlLoad_misaligned (c : Core) {a n : Nat} (amo : Bool) (halign : a % n ≠ 0) : c.ctlLoad a n amo = .error 4 := by
  simp [Core.ctlLoad, halign]

theorem Core.ctlLoad_outside (c : Core) {a n : Nat} (amo : Bool) (halign : a % n = 0) (hframe : 0x10000 < a + n)
    (hstore : amo = true ∨ a < 0x01000000 ∨ 0x01008000 < a + n) : c.ctlLoad a n amo = .error 5 := by
  have hnot : (!amo && decide (0x01000000 ≤ a) && decide (a + n ≤ 0x01008000)) = false := by
    rcases hstore with rfl | hlo | hhi
    · rfl
    · rw [decide_eq_false (Nat.not_le.mpr hlo), Bool.and_false, Bool.false_and]
    · rw [decide_eq_false (Nat.not_le.mpr hhi), Bool.and_false]
  rw [Core.ctlLoad, halign, if_neg (by decide), if_neg (Nat.not_le.mpr hframe), if_neg]
  rw [cstoreBase, hnot]
  decide

/-- Where a store may write (R152, R170). -/
theorem Core.storable_iff (c : Core) (a n : Nat) :
    c.storable a n = true ↔ a + n ≤ 0x1000 ∨ (c.held = true ∧ 0x1080 ≤ a ∧ a + n ≤ 0x1188) := by
  simp [Core.storable, and_assoc]

theorem Core.ctlStore_ok (c : Core) {a n : Nat} (v : Nat) (halign : a % n = 0)
    (hok : a + n ≤ 0x1000 ∨ (c.held = true ∧ 0x1080 ≤ a ∧ a + n ≤ 0x1188)) :
    c.ctlStore a n v = .ok { c with frame := c.frame.writeBlock a (leBytes n v) } := by
  simp [Core.ctlStore, halign, (c.storable_iff a n).mpr hok]

theorem Core.ctlStore_misaligned (c : Core) {a n : Nat} (v : Nat) (halign : a % n ≠ 0) : c.ctlStore a n v = .error 6 := by
  simp [Core.ctlStore, halign]

theorem Core.ctlStore_outside (c : Core) {a n : Nat} (v : Nat) (halign : a % n = 0) (hlo : 0x1000 < a + n)
    (hheld : c.held = false ∨ a < 0x1080 ∨ 0x1188 < a + n) : c.ctlStore a n v = .error 7 := by
  have hnot : c.storable a n = false := by
    rw [← Bool.not_eq_true, Core.storable_iff]
    rintro (h | ⟨hh, hlow, hhigh⟩)
    · omega
    · simp [hh] at hheld
      omega
  simp [Core.ctlStore, halign, hnot]

/-! ### Memory instructions -/

theorem rvOut_load_ok {m : Mach} {wd : RvWidth} {sg : Bool} {rd rs1 : XReg} {imm : BitVec 12} {len v : Nat}
    (h : m.me.ctlLoad (m.me.ctl.xr rs1 + imm.signExtend 64).toNat (RvWidth.bytes wd) false = .ok v) :
    rvOut (.load wd sg rd rs1 imm) len m =
      .done (m.modCtl fun k => k.setX rd (if sg then BitVec.ofInt 64 (decInt (8 * (RvWidth.bytes wd)) true v) else BitVec.ofNat 64 v))
        (m.me.ctl.pc + BitVec.ofNat 64 len) 2 := by
  unfold rvOut; dsimp only; rw [h]

theorem rvOut_load_error {m : Mach} {wd : RvWidth} {sg : Bool} {rd rs1 : XReg} {imm : BitVec 12} {len e : Nat}
    (h : m.me.ctlLoad (m.me.ctl.xr rs1 + imm.signExtend 64).toNat (RvWidth.bytes wd) false = .error e) :
    rvOut (.load wd sg rd rs1 imm) len m = .except e (m.me.ctl.xr rs1 + imm.signExtend 64) := by
  unfold rvOut; dsimp only; rw [h]; dsimp only; rw [BitVec.ofNat_toNat, BitVec.setWidth_eq]

theorem rvOut_store_ok {m : Mach} {wd : RvWidth} {rs1 rs2 : XReg} {imm : BitVec 12} {len : Nat} {c' : Core}
    (h : m.me.ctlStore (m.me.ctl.xr rs1 + imm.signExtend 64).toNat (RvWidth.bytes wd) (m.me.ctl.xr rs2).toNat = .ok c') :
    rvOut (.store wd rs1 rs2 imm) len m = .done (m.setCore m.cur c') (m.me.ctl.pc + BitVec.ofNat 64 len) 1 := by
  unfold rvOut; dsimp only; rw [h]

theorem rvOut_store_error {m : Mach} {wd : RvWidth} {rs1 rs2 : XReg} {imm : BitVec 12} {len e : Nat}
    (h : m.me.ctlStore (m.me.ctl.xr rs1 + imm.signExtend 64).toNat (RvWidth.bytes wd) (m.me.ctl.xr rs2).toNat = .error e) :
    rvOut (.store wd rs1 rs2 imm) len m = .except e (m.me.ctl.xr rs1 + imm.signExtend 64) := by
  unfold rvOut; dsimp only; rw [h]; dsimp only; rw [BitVec.ofNat_toNat, BitVec.setWidth_eq]

theorem rvOut_lr_ok {m : Mach} {w64 aq rl : Bool} {rd rs1 : XReg} {len v : Nat}
    (h : m.me.ctlLoad (m.me.ctl.xr rs1).toNat (if w64 then 8 else 4) true = .ok v) :
    rvOut (.lr w64 aq rl rd rs1) len m = .done (m.modCtl fun k =>
      { k.setX rd (BitVec.ofInt 64 (decInt (8 * if w64 then 8 else 4) true v)) with resv := some (m.me.ctl.xr rs1).toNat })
        (m.me.ctl.pc + BitVec.ofNat 64 len) 3 := by
  unfold rvOut; dsimp only; rw [h]

theorem rvOut_lr_error {m : Mach} {w64 aq rl : Bool} {rd rs1 : XReg} {len e : Nat}
    (h : m.me.ctlLoad (m.me.ctl.xr rs1).toNat (if w64 then 8 else 4) true = .error e) :
    rvOut (.lr w64 aq rl rd rs1) len m = .except e (m.me.ctl.xr rs1) := by
  unfold rvOut; dsimp only; rw [h]; dsimp only; rw [BitVec.ofNat_toNat, BitVec.setWidth_eq]

theorem rvOut_sc_ok {m : Mach} {w64 aq rl : Bool} {rd rs1 rs2 : XReg} {len : Nat} {c' : Core} {hit : Bool}
    (hhit : (m.me.ctl.resv == some (m.me.ctl.xr rs1).toNat) = hit)
    (h : m.me.ctlStore (m.me.ctl.xr rs1).toNat (if w64 then 8 else 4) (m.me.ctl.xr rs2).toNat = .ok c') :
    rvOut (.sc w64 aq rl rd rs1 rs2) len m = .done ((if hit then m.setCore m.cur c' else m).modCtl fun k =>
      { k.setX rd (if hit then 0 else 1) with resv := none }) (m.me.ctl.pc + BitVec.ofNat 64 len) 3 := by
  unfold rvOut; dsimp only; rw [h]; dsimp only; rw [hhit]

theorem rvOut_sc_error {m : Mach} {w64 aq rl : Bool} {rd rs1 rs2 : XReg} {len e : Nat}
    (h : m.me.ctlStore (m.me.ctl.xr rs1).toNat (if w64 then 8 else 4) (m.me.ctl.xr rs2).toNat = .error e) :
    rvOut (.sc w64 aq rl rd rs1 rs2) len m = .except e (m.me.ctl.xr rs1) := by
  unfold rvOut; dsimp only; rw [h]; dsimp only; rw [BitVec.ofNat_toNat, BitVec.setWidth_eq]

theorem rvOut_amo_ok {m : Mach} {op : RvAmo} {w64 aq rl : Bool} {rd rs1 rs2 : XReg} {len : Nat} {c' : Core}
    (h : m.me.ctlStore (m.me.ctl.xr rs1).toNat (if w64 then 8 else 4)
      (RvAmo.eval op (8 * if w64 then 8 else 4) (m.me.frame.value (m.me.ctl.xr rs1).toNat (if w64 then 8 else 4))
        ((m.me.ctl.xr rs2).toNat % 2 ^ (8 * if w64 then 8 else 4))) = .ok c') :
    rvOut (.amo op w64 aq rl rd rs1 rs2) len m = .done ((m.setCore m.cur c').modCtl fun k =>
      k.setX rd (BitVec.ofInt 64 (decInt (8 * if w64 then 8 else 4) true (m.me.frame.value (m.me.ctl.xr rs1).toNat (if w64 then 8 else 4)))))
        (m.me.ctl.pc + BitVec.ofNat 64 len) 3 := by
  unfold rvOut; dsimp only; rw [h]

theorem rvOut_amo_error {m : Mach} {op : RvAmo} {w64 aq rl : Bool} {rd rs1 rs2 : XReg} {len e : Nat}
    (h : ∀ v, m.me.ctlStore (m.me.ctl.xr rs1).toNat (if w64 then 8 else 4) v = .error e) :
    rvOut (.amo op w64 aq rl rd rs1 rs2) len m = .except e (m.me.ctl.xr rs1) := by
  unfold rvOut; dsimp only; rw [h]; dsimp only; rw [BitVec.ofNat_toNat, BitVec.setWidth_eq]

/-- Settles O25: each access by where its bytes lie. -/
theorem rvMemoryCompletes : Obligations.RvMemoryCompletes := by
  intro s short c k next run put
  have hnext : next = k.pc + BitVec.ofNat 64 (if short then 2 else 4) := by rw [ofNat_length]
  rw [hnext]
  refine ⟨?load, ?store, ?atomic, ?faults, ?atomicFaults⟩
  case load =>
    intro wd sg rd rs1 imm a n value halign
    exact ⟨fun hle => exec_rv_done (rvOut_load_ok (c.ctlLoad_frame false halign hle)),
      fun hlo hhi => exec_rv_done (rvOut_load_ok (c.ctlLoad_cstore halign hlo hhi))⟩
  case store =>
    intro wd rs1 rs2 imm a n halign hok
    exact exec_rv_done (rvOut_store_ok (c.ctlStore_ok _ halign hok))
  case atomic =>
    intro w64 aq rl rd rs1 rs2 a n old v halign
    refine ⟨fun hle => exec_rv_done (rvOut_lr_ok (c.ctlLoad_frame true halign hle)), fun hok => ⟨fun hresv => ?_, fun hresv => ?_, fun op => ?_⟩⟩
    · exact exec_rv_done (rvOut_sc_ok (hit := true) (beq_iff_eq.mpr hresv) (c.ctlStore_ok _ halign hok))
    · exact exec_rv_done (rvOut_sc_ok (hit := false) (beq_eq_false_iff_ne.mpr hresv) (c.ctlStore_ok _ halign hok))
    · exact exec_rv_done (rvOut_amo_ok (c.ctlStore_ok _ halign hok))
  case faults =>
    intro wd sg rd rs1 rs2 imm x a n
    exact ⟨fun halign => ⟨exec_rv_except (rvOut_load_error (c.ctlLoad_misaligned false halign)),
        exec_rv_except (rvOut_store_error (c.ctlStore_misaligned _ halign))⟩,
      fun halign hframe hstore => exec_rv_except (rvOut_load_error (c.ctlLoad_outside false halign hframe (.inr hstore))),
      fun halign hlo hheld => exec_rv_except (rvOut_store_error (c.ctlStore_outside _ halign hlo hheld))⟩
  case atomicFaults =>
    intro w64 aq rl rd rs1 rs2 amo x a n
    exact ⟨fun halign => ⟨exec_rv_except (rvOut_lr_error (c.ctlLoad_misaligned true halign)),
        exec_rv_except (rvOut_sc_error (c.ctlStore_misaligned _ halign)), exec_rv_except (rvOut_amo_error fun v => c.ctlStore_misaligned v halign)⟩,
      fun halign hframe => exec_rv_except (rvOut_lr_error (c.ctlLoad_outside true halign hframe (.inl rfl))),
      fun halign hlo hheld => ⟨exec_rv_except (rvOut_sc_error (c.ctlStore_outside _ halign hlo hheld)),
        exec_rv_except (rvOut_amo_error fun v => c.ctlStore_outside v halign hlo hheld)⟩⟩

/-! ### System instructions and CSRs (R69, R151, R154 to R157) -/

theorem Mach.modCtl_congr {m : Mach} {f g : Ctl → Ctl} (h : f m.me.ctl = g m.me.ctl) : m.modCtl f = m.modCtl g :=
  Mach.modMe_congr (congrArg (fun k => { m.me with ctl := k }) h)

theorem rvSystemCompletes : Claims.RvSystemCompletes := by
  intro s short c k next run
  have hnext : next = k.pc + BitVec.ofNat 64 (if short then 2 else 4) := by rw [ofNat_length]
  rw [hnext]
  refine ⟨exec_rv_done rfl, fun hmip => exec_rv_done ?wfi, fun op rd src num old hread hok => exec_rv_done ?csr, fun op rd src num hbad => exec_rv_except ?refused,
    exec_rv_except rfl, exec_rv_except rfl, fun w => exec_rv_except ?illegal⟩
  case wfi => exact if_pos (bne_iff_ne.mpr hmip)
  case csr =>
    unfold rvOut
    dsimp only
    rw [hread]
    dsimp only
    rewrite [hok]
    rfl
  case refused =>
    unfold rvOut
    dsimp only
    cases hread : s.m.csrRead num.toNat with
    | none => rfl
    | some old => exact if_pos (hbad.resolve_left (by rw [hread]; exact nofun))
  case illegal => cases short <;> rfl

theorem csrWritesComplete : Claims.CsrWritesComplete := by
  intro s op rd src n k v write next flags
  refine ⟨?nflags, ?dbgctl, ?ctimecmp, ?cbank⟩
  case nflags =>
    refine (runCtl_done rfl : execNflagsWrite op rd src s = _).trans ?_
    exact congrArg (fun m => Host.Outcome.next (s.completed m next 1)) (Mach.modCtl_congr rfl)
  case dbgctl =>
    refine (runCtl_done rfl : execDbgctlWrite op rd src s = _).trans ?_
    exact congrArg (fun m => Host.Outcome.next (s.completed m next 1)) (Mach.modCtl_congr rfl)
  case ctimecmp =>
    refine (runCtl_done rfl : execCtimecmpWrite op rd src s = _).trans ?_
    exact congrArg (fun m => Host.Outcome.next (s.completed m next 1)) (Mach.modCtl_congr rfl)
  case cbank =>
    refine (runCtl_done rfl : execCbankWrite n op rd src s = _).trans ?_
    exact congrArg (fun m => Host.Outcome.next (s.completed m next 1)) (Mach.modCtl_congr rfl)

/-- Settles O26: the system instructions and the CSR writes. -/
theorem systemAndCsrInstructionsComplete : Obligations.SystemAndCsrInstructionsComplete := ⟨rvSystemCompletes, csrWritesComplete⟩

/-! ### Interrupts (R154, R157, R166) -/

theorem State.stopCore_cur (s : State) (core : Nat) (again : Mach → Nat → BitVec 4 → Mach) (f : Stop → Stop) :
    (s.stopCore core again f).m.cur = s.m.cur := by
  unfold State.stopCore
  split <;> rfl

/-- TIMER_INTERRUPT at the state in which the streams have stopped where a stop is due. -/
theorem execTimerInterrupt_eq {s t : State} {take : Bool}
    (ht : (if s.m.me.timerStop s.m.now then s.stopCore s.m.cur Mach.boundary fun p => { p with intr := true } else s) = t)
    (htake : (s.m.me.ctlReady s.m.now && s.m.me.irq s.m.now == some 7) = take) :
    execTimerInterrupt s = .next { t with m := t.m.modCtl fun k =>
      if take then { k.interrupt 7 s.m.now with tdue := false } else { k with tdue := false } } := by
  have hcur : t.m.cur = s.m.cur := by
    rw [← ht]
    split
    · exact State.stopCore_cur ..
    · rfl
  unfold execTimerInterrupt
  dsimp only
  rw [show s.m.core s.m.cur = s.m.me from rfl, ht, htake, coreNext, Mach.modCtl, Mach.modMe, hcur]

theorem interruptsComplete : Claims.InterruptsComplete := by
  intro s m c
  refine ⟨rfl, rfl, fun hready hirq hstop => ?take, ?stop, ?both⟩
  case take => exact execTimerInterrupt_eq (if_neg (by rw [hstop]; decide)) (take := true) (by rw [hready, hirq]; rfl)
  case stop =>
    intro hstop htake t
    exact execTimerInterrupt_eq (if_pos hstop) htake
  case both =>
    intro hstop hready hirq t
    exact execTimerInterrupt_eq (if_pos hstop) (take := true) (by rw [hready, hirq]; rfl)

/-- An interrupt's cause: its top bit, and the offset of its handler in vectored mode. -/
theorem interruptCause : ∀ code < 64, (BitVec.ofNat 64 (2 ^ 63 + code)).getLsbD 63 = true ∧
    4 * (BitVec.ofNat 64 (2 ^ 63 + code) &&& 0x7FFFFFFFFFFFFFFF) = BitVec.ofNat 64 (4 * code) := by decide

/-- An exception's cause has the top bit 0. -/
theorem exceptionCause : ∀ code < 64, (BitVec.ofNat 64 code).getLsbD 63 = false := by decide

theorem handlerEntry : Claims.HandlerEntry := by
  intro k code now tval hcode base st
  obtain ⟨htop, hoff⟩ := interruptCause code hcode
  refine ⟨?_, ?_⟩
  · rewrite [Ctl.interrupt, Ctl.enter, htop, hoff, Bool.and_true]
    rfl
  · rewrite [Ctl.except, Ctl.enter, exceptionCause code hcode, Bool.and_false]
    rfl

/-- Settles O27: the three interrupts, and the entry to a handler. -/
theorem interruptsAndHandlerEntryComplete : Obligations.InterruptsAndHandlerEntryComplete := ⟨interruptsComplete, handlerEntry⟩

end Sys2Proof.Machine
end

section
/-! The happenings of a core: blocks, lines, landings and frames, open-class arrivals and walks, barriers, domains, lingering streams and service
replies. -/
namespace Sys2Proof.Machine

/-- A core is changed by what its own value says. -/
theorem Mach.modCore_congr {m : Mach} {n : Nat} {f g : Core → Core} (h : f (m.core n) = g (m.core n)) : m.modCore n f = m.modCore n g :=
  congrArg (m.setCore n) h

/-! ### Blocks, lines, landings and frames -/

/-- Settles O28: each event by what the head block, the landing or the stop is. -/
theorem blockAndResultEventsComplete : Obligations.BlockAndResultEventsComplete := by
  intro s m core c trap
  refine ⟨?start, ?absent, ?rejected, fun n index line tag => rfl, ?result, ?unit, ?frame⟩
  case start =>
    intro b rest e hqueue hentry hok
    show execBlockStart s = _
    unfold execBlockStart
    dsimp only
    rw [show (s.m.core s.m.cur).seq.queue = b :: rest from hqueue]
    dsimp only
    rw [show (s.m.core s.m.cur).seq.entry b.num = some e from hentry]
    dsimp only
    rw [hok]
  case absent =>
    intro b rest hqueue hentry
    show execBlockStart s = _
    unfold execBlockStart
    dsimp only
    rw [show (s.m.core s.m.cur).seq.queue = b :: rest from hqueue]
    dsimp only
    rewrite [show (s.m.core s.m.cur).seq.entry b.num = none from hentry]
    rfl
  case rejected =>
    intro b rest e code line detail hqueue hentry hrej
    show execBlockStart s = _
    unfold execBlockStart
    dsimp only
    rw [show (s.m.core s.m.cur).seq.queue = b :: rest from hqueue]
    dsimp only
    rw [show (s.m.core s.m.cur).seq.entry b.num = some e from hentry]
    dsimp only
    rewrite [hrej]
    rfl
  case result =>
    intro t st i r hnext
    show execResultLand s = _
    unfold execResultLand
    dsimp only
    rw [show (s.m.core s.m.cur).nextLanding s.m.now = _ from hnext]
  case unit =>
    intro t st entry i hnext
    show execResultLand s = _
    unfold execResultLand
    dsimp only
    rewrite [show (s.m.core s.m.cur).nextLanding s.m.now = _ from hnext]
    rfl
  case frame =>
    intro p hstop
    refine congrArg (fun m' => Host.Outcome.next { s with m := m' }) (Mach.modCore_congr ?_)
    rw [show (s.m.core s.m.cur).stop = some p from hstop]

/-! ### Open-class arrivals and walks -/

/-- Settles O29: each arrival by the load it is of, and a walk by how it ends. -/
theorem globalArrivalsComplete : Obligations.GlobalArrivalsComplete := by
  intro s core id m c
  refine ⟨?ldg, rfl, ?atom, ?walk, ?store⟩
  case ldg =>
    intro g pa hload hpa hatom hdone m'
    show execLdgArrival core id s = _
    unfold execLdgArrival
    rw [show (s.m.core core).load id = some g from hload]
    dsimp only
    rewrite [hpa, hatom, hdone]
    rfl
  case atom =>
    intro g pa a hload hpa hatom hdone n old m'
    show execAtomReturn core id s = _
    unfold execAtomReturn
    rw [show (s.m.core core).load id = some g from hload]
    dsimp only
    rewrite [hpa, hatom, hdone]
    rfl
  case walk =>
    intro g hload hwalk hhold r
    show execWalkComplete core id s = _
    unfold execWalkComplete
    dsimp only
    rw [show (s.m.core core).load id = some g from hload]
    dsimp only
    rewrite [hwalk, show (s.m.core core).hold = none from hhold]
    rfl
  case store =>
    intro w hload hwalks r end_
    have hexec : exec (.walkComplete core id) s = match (match r.2 with
        | .ok _ => some none
        | .error (.fault code detail) => some (some (code, detail))
        | .error _ => none : Option (Option (Byte × W32))) with
        | none => .next { s with m := r.1 }
        | some x => .next { s with m := end_ x } := by
      show execWalkComplete core id s = _
      unfold execWalkComplete
      dsimp only
      rw [show (s.m.core core).load id = none from hload]
      dsimp only
      rewrite [show (s.m.core core).glb.walks.find? _ = some w from hwalks]
      rfl
    refine ⟨fun pa hok => ?_, fun code detail hfault => ?_⟩
    · rw [hexec, hok]
    · rw [hexec, hfault]

/-! ### Barriers, domains, lingering streams and service replies -/

/-- DEFERRED_SLEEP of a sleep that is due. -/
theorem exec_deferredSleep {s : State} {d : DomRef} {t : Nat} {off : Bool} (hpend : (s.m.dom d).pend = some (t, off)) (hle : t ≤ s.m.now) :
    exec (.deferredSleep d) s =
      let m' := s.m.setDom d { st := if (s.m.dom d).st = .off ∨ off = true then .off else .retain, pend := none, slept := 0 }
      .next { s with m := match (s.m.dom d).st with | .waking true _ => m'.clearDom d | _ => m' } := by
  show execDeferredSleep d s = _
  unfold execDeferredSleep
  dsimp only
  rw [hpend]
  dsimp only
  rw [if_pos hle]
  rcases (s.m.dom d).st with _ | _ | _ | ⟨_ | _, _⟩ <;> cases off <;> rfl

/-- BARRIER_COMPLETION of a completion on its way to the core: it starves the core, or reaches it. -/
theorem exec_barrierCompletion {s : State} {core t n gen : Nat} {bar : BarRef} {starved : Bool}
    (h : (s.m.bar bar).going.find? (fun x => x.2.1 == core && decide (x.1 ≤ s.m.now)) = some (t, n, gen, starved)) :
    exec (.barrierCompletion core bar) s =
      let b := s.m.bar bar
      let rest := b.going.erase (t, n, gen, starved)
      let ended := s.m.setBar { b with going := rest, waiting := b.waiting.filter (· != core) }
      let reached := s.m.setBar { b with going := rest, reached := (core, gen + 1) :: b.reached.filter fun y => y.1 != core }
      if starved then
        if (s.m.core core).stop.all fun p => p.cyc == s.m.now then
          .next (State.stopCore { s with m := ended } core Mach.boundary (Stop.withTrap 0 ⟨0x0E, 0, 0⟩))
        else .next { s with m := ended }
      else .next { s with m := if s.m.atWait core bar then reached.refresh core else reached } := by
  show execBarrierCompletion core bar s = _
  unfold execBarrierCompletion
  dsimp only
  rewrite [h]
  rfl

/-- Settles O31: each event by what is due. -/
theorem coreWaitEventsComplete : Obligations.CoreWaitEventsComplete := by
  intro s core m
  refine ⟨?arrival, ?completion, ?on, ?sleep, ?linger, ?reply⟩
  case arrival =>
    intro bar x hcoming counted
    show execBarrierArrival core bar s = _
    unfold execBarrierArrival
    dsimp only
    rewrite [show (s.m.bar bar).coming.find? _ = some x from hcoming]
    rfl
  case completion =>
    intro bar t n gen starved hgoing
    have hexec := exec_barrierCompletion hgoing
    refine ⟨?reaches, ?starves⟩
    case reaches =>
      rintro rfl
      exact hexec
    case starves =>
      rintro rfl s'
      refine ⟨fun hstop => hexec.trans ((if_pos rfl).trans (if_pos ?_)), fun p hstop hcyc => hexec.trans ((if_pos rfl).trans (if_neg ?_))⟩
      · cases hcase : (s.m.core core).stop with
        | none => rfl
        | some p => exact beq_iff_eq.mpr (hstop p hcase)
      · rw [show (s.m.core core).stop = some p from hstop]
        exact fun h => hcyc (beq_iff_eq.mp h)
  case on =>
    intro d fromOff t hst hle m'
    show execDomainOn d s = _
    unfold execDomainOn
    dsimp only
    rw [show (s.m.dom d).st = _ from hst]
    exact if_pos hle
  case sleep =>
    intro d t off hpend hle m'
    exact exec_deferredSleep hpend hle
  case linger =>
    intro st left m'
    have hexec : exec (.lingerRelease core st) s = .next { s with m := if 96 ≤ core && left m && !left m' then m'.shed core else m' } := rfl
    refine ⟨fun hlt => ?_, fun hge hleft => ?_, fun hge hleft hgone => ?_⟩
    · rewrite [hexec, decide_eq_false (Nat.not_le.mpr hlt)]
      rfl
    · have hno : (left m && !left m') = false := by
        cases hcase : left m with
        | false => rfl
        | true => rw [hleft hcase]; rfl
      rewrite [hexec, Bool.and_assoc, hno, Bool.and_false]
      rfl
    · rewrite [hexec, decide_eq_true hge, hleft, hgone]
      rfl
  case reply =>
    intro tag code hreq m'
    refine congrArg (fun m' => Host.Outcome.next { s with m := m' }) (Mach.modCore_congr ?_)
    exact if_pos hreq

end Sys2Proof.Machine
end

section
/-! Copies, channels and rings: their completion, rows and refills (R265, R266, R271, R299, R300, R303 to R305). -/
namespace Sys2Proof.Machine

/-! ### COPY_COMPLETE (R304, R305, R271) -/

/-- A core told of a copy's end: its pennant, its record, and the ring of a refill that faulted. -/
def Copy.toldCore (k : Copy) (now : Nat) (c : Core) : Core :=
  let first := k.told = false
  let c1 := if first ∧ k.fault = none ∧ k.refill = none then c.pennant k.pn.toNat k.inc.toNat else c
  let c2 := if first ∧ (k.fault ≠ none ∨ (k.evt = true ∧ k.refill = none)) then c1.raise now k.record else c1
  match k.refill, k.fault with
  | some r, some (_, code, _, _) =>
    if first then { c2 with mx := { c2.mx with rings := c2.mx.rings.modify r fun g => { g with dead := some code } } } else c2
  | _, _ => c2

/-- The chain slot is not changed when a core is told of a copy's end. -/
theorem Copy.toldCore_chain (k : Copy) (now : Nat) (c : Core) : (k.toldCore now c).mx.chain = c.mx.chain := by
  unfold Copy.toldCore
  dsimp only
  cases k.refill <;> cases k.fault
  all_goals
    dsimp only
    split_ifs <;> rfl

/-- Whether a copy waits with its chained command: for the chain slot, or for its last byte. -/
def Copy.chainWaits (k : Copy) (c : Core) : Prop := k.fault = none ∧ k.chain ≠ none ∧ (c.mx.chain ≠ none ∨ k.unitsDone = false)

/-- The model's condition for a copy to wait with its chained command. -/
theorem Copy.chainWaits_iff (k : Copy) (c : Core) :
    k.chainWaits c ↔ (if k.fault.isSome then none else k.chain).isSome && (c.mx.chain.isSome || !k.unitsDone) := by
  unfold Copy.chainWaits
  cases k.fault <;> cases k.chain <;> cases c.mx.chain <;> cases k.unitsDone <;> simp

/-- What COPY_COMPLETE does once a copy's end has passed. -/
theorem exec_copyComplete {s : State} {core entry t : Nat} {k : Copy} {w : Bool} {c4 : Core} (hcopy : (s.m.core core).copy entry = some k)
    (hdone : k.doneAt = some t) (hlt : t < s.m.now)
    (hw : ((if k.fault.isSome then none else k.chain).isSome && ((s.m.core core).mx.chain.isSome || !k.unitsDone)) = w)
    (hc4 : (match (if k.fault.isSome then none else k.chain) with
      | some ch => if w then k.toldCore s.m.now (s.m.core core) else
        { k.toldCore s.m.now (s.m.core core) with mx := { (k.toldCore s.m.now (s.m.core core)).mx with chain := some ch } }
      | none => k.toldCore s.m.now (s.m.core core)) = c4) :
    exec (.copyComplete core entry) s = .next { s with m := s.m.setCore core (if k.unitsDone && !w then { c4 with xe := { c4.xe with copies := c4.xe.copies.filter fun x => x.entry != entry } }
       else c4.modCopy entry fun x => { x with
        told := true, chain := if w then (if k.fault.isSome then none else k.chain) else none, entry := if w then entry else c4.sparePlace }) } := by
  have htold : (if k.told then s.m.core core else
      let c1 := if k.fault.isNone && k.refill.isNone then (s.m.core core).pennant k.pn.toNat k.inc.toNat else s.m.core core
      let c2 := if (k.evt && k.refill.isNone) || k.fault.isSome then c1.raise s.m.now k.record else c1
      match k.refill, k.fault with
      | some r, some (_, code, _, _) => { c2 with mx := { c2.mx with rings := c2.mx.rings.modify r fun g => { g with dead := some code } } }
      | _, _ => c2) = k.toldCore s.m.now (s.m.core core) := by
    unfold Copy.toldCore
    cases k.told <;> cases k.fault <;> cases k.refill <;> cases k.evt <;> rfl
  show execCopyComplete core entry s = _
  unfold execCopyComplete
  dsimp only
  rw [hcopy]
  dsimp only
  rw [hdone]
  dsimp only
  rw [if_neg (Nat.not_le.mpr hlt)]
  subst hc4 hw
  rewrite [← Copy.toldCore_chain k s.m.now (s.m.core core), ← htold]
  rfl

/-- The chained command enters the chain slot where the copy does not wait with it. -/
theorem Copy.chained_eq {k : Copy} {c told : Core} {w : Bool} (hw : k.chainWaits c ↔ w = true) :
    (match (if k.fault.isSome then none else k.chain) with
      | some ch => if w then told else { told with mx := { told.mx with chain := some ch } }
      | none => told) =
    if k.fault = none ∧ k.chain ≠ none ∧ ¬ (k.fault = none ∧ k.chain ≠ none ∧ (c.mx.chain ≠ none ∨ k.unitsDone = false)) then { told with mx := { told.mx with chain := k.chain } } else told := by
  unfold Copy.chainWaits at hw
  simp only [hw]
  cases hfault : k.fault with
  | some f => simp
  | none =>
    cases hchain : k.chain with
    | none => simp
    | some ch => cases w <;> simp

theorem copyComplete_complete (s : State) (core entry : Nat) :
    let m := s.m
    let c := m.core core
    ∀ k t, c.copy entry = some k → k.doneAt = some t → t < m.now →
      let first := k.told = false
      let waits := k.fault = none ∧ k.chain ≠ none ∧ (c.mx.chain ≠ none ∨ k.unitsDone = false)
      let c1 := if first ∧ k.fault = none ∧ k.refill = none then c.pennant k.pn.toNat k.inc.toNat else c
      let c2 := if first ∧ (k.fault ≠ none ∨ (k.evt = true ∧ k.refill = none)) then c1.raise m.now k.record else c1
      let c3 : Core := match k.refill, k.fault with
        | some r, some (_, code, _, _) =>
          if first then { c2 with mx := { c2.mx with rings := c2.mx.rings.modify r fun g => { g with dead := some code } } } else c2
        | _, _ => c2
      let c4 : Core := if k.fault = none ∧ k.chain ≠ none ∧ ¬ waits then { c3 with mx := { c3.mx with chain := k.chain } } else c3
      let endsAs (c' : Core) : Prop := exec (.copyComplete core entry) s = .next { s with m := m.setCore core c' }
      (k.unitsDone = true → ¬ waits → endsAs { c4 with xe := { c4.xe with copies := c4.xe.copies.filter fun x => x.entry != entry } }) ∧
      (waits → endsAs (c4.modCopy entry fun x => { x with told := true, chain := k.chain, entry := entry })) ∧
      (k.unitsDone = false → ¬ waits → endsAs (c4.modCopy entry fun x => { x with told := true, chain := none, entry := c4.sparePlace })) := by
  intro m c k t hcopy hdone hlt first waits c1 c2 c3 c4 endsAs
  have hwaits := k.chainWaits_iff c
  have hexec (w : Bool) (hw : k.chainWaits c ↔ w = true) := exec_copyComplete (c4 := c4) (w := w) hcopy hdone hlt
    (Bool.eq_iff_iff.mpr (hwaits.symm.trans hw)) (Copy.chained_eq hw)
  refine ⟨fun hunits hno => ?_, fun hyes => ?_, fun hunits hno => ?_⟩
  · refine (hexec false (iff_of_false hno (by decide))).trans ?_
    rewrite [hunits]
    rfl
  · have hfault : k.fault = none := hyes.1
    refine (hexec true (iff_of_true hyes rfl)).trans ?_
    rewrite [hfault, Bool.not_true, Bool.and_false]
    rfl
  · refine (hexec false (iff_of_false hno (by decide))).trans ?_
    rewrite [hunits]
    rfl

/-! ### OPEN_ROW_ARRIVAL (R299) -/

/-- A row whose walk fails: a fault ends the copy; a page to be pulled leaves the row outstanding, but of a killed task. -/
def State.rowFails (s : State) (core entry row : Nat) (m' : Mach) (a : Nat) (e : WalkEnd) : State :=
  match e with
  | .fault code d => { s with m := m'.rowFault core entry row code d (BitVec.ofNat 64 a) }
  | _ => { s with m := if s.m.hub.tasks.any fun t => t.killed.isSome && (s.m.core core).bound.any fun b => b.task == t.seq then s.m.rowEnd core entry row else m' }

/-- A row whose bytes are at hand, at the machine `m`: it lands in its destination, or meets what translating that meets. -/
def State.rowLands (s : State) (core entry row : Nat) (k : Copy) (m : Mach) (bs : List Byte) : Host.Outcome State Fault Refusal :=
  if k.refill.isSome then .next { s with m := m.refillLand core entry k bs }
  else
    match (m.rowPlace core k true row (k.rowAddr true row).toNat).2 with
    | .error e => .next (s.rowFails core entry row (m.rowPlace core k true row (k.rowAddr true row).toNat).1 (k.rowAddr true row).toNat e)
    | .ok dp =>
      match (m.rowPlace core k true row (k.rowAddr true row).toNat).1.scaleRuns core k row with
      | (m', .error (a, e)) => .next (s.rowFails core entry row m' a e)
      | (m', .ok scp) => .next { s with m := m'.arriveRow core entry k row bs dp scp }

/-- An arrival: the row's bytes are held, or read at the place of its source. -/
theorem exec_openRowArrival {s : State} {core entry row : Nat} {k : Copy} {cr : CopyRow} {held : Bool}
    (h : s.m.rowOut core entry row = some (k, cr)) (hheld : (k.op = 6 || k.inPad false) = held) :
    exec (.openRowArrival core entry row) s =
      let src := if held then (s.m, Except.ok (Place.dev 0)) else s.m.rowPlace core k false row (k.rowAddr false row).toNat
      match src.2 with
      | .error e => .next (s.rowFails core entry row src.1 (k.rowAddr false row).toNat e)
      | .ok sp => s.rowLands core entry row k src.1 (if held then cr.data else src.1.placeBytes core sp (src.1.side core k false).len) := by
  show execOpenRowArrival core entry row s = _
  unfold execOpenRowArrival
  subst hheld
  dsimp only
  rewrite [h]
  rfl

/-- How the bytes of a row land, by what the translation of its destination and of its scales gives. -/
theorem State.rowLands_cases (s : State) (core entry row : Nat) (k : Copy) (m : Mach) (bs : List Byte) :
    let out (m : Mach) : Host.Outcome State Fault Refusal := .next { s with m := m }
    let killed := s.m.hub.tasks.any fun t => t.killed.isSome && (s.m.core core).bound.any fun b => b.task == t.seq
    let pulled (m' : Mach) : Host.Outcome State Fault Refusal := out (if killed then s.m.rowEnd core entry row else m')
    let run := s.rowLands core entry row k m bs
    let da := (k.rowAddr true row).toNat
    let r := m.rowPlace core k true row da
    let q := r.1.scaleRuns core k row
    (k.refill ≠ none → run = out (m.refillLand core entry k bs)) ∧
    (k.refill = none →
      (∀ code d, r.2 = .error (.fault code d) → run = out (r.1.rowFault core entry row code d (BitVec.ofNat 64 da))) ∧
      (∀ g, r.2 = .error (.pull g) → run = pulled r.1) ∧
      (∀ pl, r.2 = .ok pl →
        (k.quant = false → run = out (r.1.arriveRow core entry k row bs pl [])) ∧
        (k.quant = true → k.inPad true = true →
          run = out (r.1.arriveRow core entry k row bs pl [(k.scalePlace (r.1.side core k true) row 0, k.rowScales)])) ∧
        (k.quant = true → k.inPad true = false →
          (∀ ps, q.2 = .ok ps → run = out (q.1.arriveRow core entry k row bs pl ps)) ∧
          (∀ x code d, q.2 = .error (x, .fault code d) → run = out (q.1.rowFault core entry row code d (BitVec.ofNat 64 x))) ∧
          (∀ x g, q.2 = .error (x, .pull g) → run = pulled q.1)))) := by
  intro out killed pulled run da r q
  refine ⟨fun hrefill => if_pos (Option.isSome_iff_ne_none.mpr hrefill), fun hrefill => ?_⟩
  have hrun : run = match r.2 with
      | .error e => .next (s.rowFails core entry row r.1 da e)
      | .ok dp => match q with
        | (m', .error (a, e)) => .next (s.rowFails core entry row m' a e)
        | (m', .ok scp) => .next { s with m := m'.arriveRow core entry k row bs dp scp } := if_neg (by rw [hrefill]; decide)
  refine ⟨fun code d hr => by rw [hrun, hr]; rfl, fun g hr => by rw [hrun, hr]; rfl, fun pl hr => ?_⟩
  rw [hr] at hrun
  refine ⟨fun hquant => ?plain, fun hquant hpad => ?pad, fun hquant hpad => ⟨fun ps hq => ?_, fun x code d hq => ?_, fun x g hq => ?_⟩⟩
  case plain =>
    have hq : q = (r.1, .ok []) := by
      show r.1.scaleRuns core k row = _
      rewrite [Mach.scaleRuns, hquant]
      rfl
    rw [hrun, hq]
  case pad =>
    have hq : q = (r.1, .ok [(k.scalePlace (r.1.side core k true) row 0, k.rowScales)]) := by
      show r.1.scaleRuns core k row = _
      rewrite [Mach.scaleRuns, hquant, hpad]
      rfl
    rw [hrun, hq]
  · rw [hrun, show q = (q.1, .ok ps) from Prod.ext rfl hq]
  · rewrite [hrun, show q = (q.1, .error (x, .fault code d)) from Prod.ext rfl hq]
    rfl
  · rewrite [hrun, show q = (q.1, .error (x, .pull g)) from Prod.ext rfl hq]
    rfl

/-! ### RING_REFILL (R266) -/

/-- A refill raised at a core: it enters the copy table, and its ring goes on to the next row of its handle. -/
def Mach.enterRefill (m : Mach) (core ring : Nat) (h : BitVec 512) (k : Copy) : Mach :=
  m.modCore core fun c => { c with
    xe := { c.xe with copies := c.xe.copies ++ [k] }
    mx := { c.mx with rings := c.mx.rings.modify ring fun g => { g with row := (g.row + 1) % max 1 (tableField h 0x0C 24) } } }

section
variable {s : State} {core ring off : Nat} {h : BitVec 512} {k : Copy}
    (hh : h = (s.m.core core).tileTables.hnd (ringHandle ((s.m.core core).ring ring).w1))
    (hoff : off = ringBase ((s.m.core core).ring ring).w0 +
      (ringHead ((s.m.core core).ring ring).w1 + ringCount ((s.m.core core).ring ring).w1 + (s.m.core core).tilesDue ring) %
        (ringSize ((s.m.core core).ring ring).w0 / 4096) * 4096)
    (hk : k = (s.m.core core).refillCopy s.m.now ring ((s.m.core core).ring ring).row h off)
    (hdue : (s.m.core core).refillDue s.m.now ring = true) (hfetch : fetchable h = true)
    (hfaults : s.m.unitsTraps core k false (s.m.side core k false) ++ s.m.rowsTraps core k false (s.m.side core k false) 0 ++
      s.m.unitsTraps core k true (s.m.side core k true) ++ s.m.rowsTraps core k true (s.m.side core k true) 0 = [])
include hh hoff hk hdue hfetch hfaults

/-- An open refill that meets no fault has its row sent. -/
theorem exec_ringRefill_open (htimed : s.m.sideTimed core k false (s.m.side core k false) = false) :
    exec (.ringRefill core ring) s = .next { s with
      m := s.m.enterRefill core ring h { k with timed := false, sent := 1, rows := [⟨0, s.m.now, [], false⟩] }
      base := some (core, s.m.now, s.restorePoint core) } := by
  show execRingRefill core ring s = _
  unfold execRingRefill
  dsimp only
  rewrite [hdue, ← hh, ← hoff, ← hk, hfetch, if_neg (show ¬ (!true) = true by decide), if_neg (show ¬ (!true) = true by decide), hfaults, htimed]
  rfl

/-- A timed refill that meets no fault and finds its slots is booked. -/
theorem exec_ringRefill_timed (htimed : s.m.sideTimed core k false (s.m.side core k false) = true)
    (hslot : (s.m.refillSched core k).noSlot = false) :
    exec (.ringRefill core ring) s = .next { s with
      m := ((s.m.refillSched core k).booked core).enterRefill core ring h
        { k with units := (s.m.refillSched core k).units, doneAt := some (unitsEnd (s.m.refillSched core k).units) }
      base := some (core, s.m.now, s.restorePoint core) } := by
  show execRingRefill core ring s = _
  unfold execRingRefill
  dsimp only
  rw [hdue, ← hh, ← hoff, ← hk, hfetch, if_neg (show ¬ (!true) = true by decide), if_neg (show ¬ (!true) = true by decide), hfaults, htimed]
  refine Eq.trans (b := if (s.m.refillSched core k).noSlot then _ else _) rfl ?_
  rewrite [hslot]
  rfl

end

theorem ringRefill_complete (s : State) (core ring : Nat) :
    let m := s.m
    let c := m.core core
    let g := c.ring ring
    let h := c.tileTables.hnd (ringHandle g.w1)
    let off := ringBase g.w0 + (ringHead g.w1 + ringCount g.w1 + c.tilesDue ring) % (ringSize g.w0 / 4096) * 4096
    let k := c.refillCopy m.now ring g.row h off
    let src := m.side core k false
    let dst := m.side core k true
    let next (g : Ring) : Ring := { g with row := (g.row + 1) % max 1 (tableField h 0x0C 24) }
    let enter (m : Mach) (k : Copy) : Mach := m.modCore core fun c =>
      { c with xe := { c.xe with copies := c.xe.copies ++ [k] }, mx := { c.mx with rings := c.mx.rings.modify ring next } }
    let point := some (core, m.now, s.restorePoint core)
    c.refillDue m.now ring = true → fetchable h = true →
    m.unitsTraps core k false src ++ m.rowsTraps core k false src 0 ++ m.unitsTraps core k true dst ++ m.rowsTraps core k true dst 0 = [] →
    (m.sideTimed core k false src = false → exec (.ringRefill core ring) s = .next
      { s with m := enter m { k with timed := false, sent := 1, rows := [{ row := 0, sentAt := m.now, data := [], here := false }] }, base := point }) ∧
    (m.sideTimed core k false src = true →
      let st := m.refillSched core k
      st.noSlot = false → exec (.ringRefill core ring) s = .next
        { s with m := enter (st.booked core) { k with units := st.units, doneAt := some (unitsEnd st.units) }, base := point }) := by
  intro m c g h off k src dst next enter point hdue hfetch hfaults
  exact ⟨fun htimed => exec_ringRefill_open (h := h) (off := off) (k := k) rfl rfl rfl hdue hfetch hfaults htimed,
    fun htimed hslot => exec_ringRefill_timed (h := h) (off := off) (k := k) rfl rfl rfl hdue hfetch hfaults htimed hslot⟩

/-! ### The family -/

/-- Settles O30: the end of a copy, the arrival and the fault of a row, a watermark, and a refill. -/
theorem copyEventsComplete : Obligations.CopyEventsComplete := by
  intro s core entry row m c
  refine ⟨copyComplete_complete s core entry, ?arrival, ?fault, ?watermark, ?refill⟩
  case arrival =>
    intro k cr hrow run out killed pulled sa da held a rest
    refine ⟨fun hheld => ?_, fun hheld => ?_⟩
    · have hb : (k.op = 6 || k.inPad false) = true := by simpa [held] using hheld
      have hexec : run = s.rowLands core entry row k m cr.data := exec_openRowArrival hrow hb
      show rest m cr.data
      simp only [rest, hexec]
      exact State.rowLands_cases s core entry row k m cr.data
    · have hb : (k.op = 6 || k.inPad false) = false := by simpa [held] using hheld
      have hexec : run = match a.2 with
          | .error e => .next (s.rowFails core entry row a.1 sa e)
          | .ok sp => s.rowLands core entry row k a.1 (a.1.placeBytes core sp (a.1.side core k false).len) := exec_openRowArrival hrow hb
      refine ⟨fun src hsrc => ?_, fun code d hsrc => ?_, fun g hsrc => ?_⟩
      · rw [hsrc] at hexec
        show rest a.1 (a.1.placeBytes core src (a.1.side core k false).len)
        simp only [rest, hexec]
        exact State.rowLands_cases s core entry row k a.1 _
      · rewrite [hexec, hsrc]
        rfl
      · rewrite [hexec, hsrc]
        rfl
  case fault =>
    intro x code detail addr hrow
    show execCopyRowFault core entry row code detail addr s = _
    unfold execCopyRowFault
    rw [show s.m.rowOut core entry row = some x from hrow]
  case watermark =>
    intro h t pn inc since hchan harm hmark hsince
    refine congrArg (fun m' => Host.Outcome.next { s with m := m' }) (Mach.modCore_congr ?_)
    rw [show (s.m.core core).chan entry = some h from hchan]
    dsimp only
    rw [harm]
    exact if_pos (Bool.and_eq_true_iff.mpr ⟨decide_eq_true hmark, decide_eq_true hsince⟩)
  case refill => exact ringRefill_complete s core entry

end Sys2Proof.Machine
end

section
/-! Queues: their doorbells (R368, R369, R423), and the steps of queue code that compute, access, branch and buffer (R376 to R384, R390, R394). -/
namespace Sys2Proof.Machine

/-! ### Changes of a function and of a queue -/

/-- A function is changed by what its own value says. -/
theorem Mach.modFn_congr {m : Mach} {f : Nat} {g h : Fn → Fn} (heq : g (m.fn f) = h (m.fn f)) : m.modFn f g = m.modFn f h := by
  have hfns : m.hub.fns.modify f g = m.hub.fns.modify f h := by
    refine List.ext_getElem (by simp) fun i hi _ => ?_
    simp only [List.getElem_modify]
    split
    case isTrue hfi =>
      subst hfi
      rw [List.length_modify] at hi
      rw [Mach.fn, nth, List.getD_eq_getElem _ _ hi] at heq
      exact heq
    case isFalse => rfl
  rw [Mach.modFn, Mach.modFn, hfns]

/-- A queue is changed by what its own value says. -/
theorem Mach.modQueue_congr {m : Mach} {f q : Nat} {g h : Queue → Queue} (heq : g (m.queue f q) = h (m.queue f q)) :
    m.modQueue f q g = m.modQueue f q h :=
  Mach.modFn_congr (congrArg ((m.fn f).setQueue q) heq)

/-- A queue changed is a queue set to its changed value. -/
theorem Mach.modQueue_const (m : Mach) (f q : Nat) (g : Queue → Queue) : m.modQueue f q g = m.modQueue f q fun _ => g (m.queue f q) :=
  Mach.modQueue_congr rfl

/-! ### Doorbells -/

theorem queueThere_of {fn queue : Nat} (hf : fn < 25) (hq : queue < 64) : queueThere fn queue = true := by
  rewrite [queueThere, decide_eq_true hf, decide_eq_true hq]
  rfl

/-- The write of 1 to EN of a queue where it is 0. -/
theorem exec_queueEnable {s : State} {fn queue : Nat} (hthere : queueThere fn queue = true) (hen : (s.m.queue fn queue).en = false) :
    exec (.queueEnable fn queue) s = .next { s with m :=
      if (s.m.queue fn queue).closing then s.m.modQueue fn queue fun _ => { s.m.queue fn queue with en := true }
      else (s.m.modQueue fn queue fun _ => { s.m.queue fn queue with en := true }).loadQueue fn queue } := by
  show execQueueEnable fn queue s = _
  unfold execQueueEnable
  dsimp only
  rewrite [hthere, hen, Mach.modQueue_const s.m fn queue fun x => { x with en := true }]
  rfl

/-- The write of 0 to EN of a queue that is enabled, or still closing, by its packet and where that is parked. -/
theorem exec_queueDisable {s : State} {fn queue : Nat} {pkt : Option Packet} {park : Option Park} (hthere : queueThere fn queue = true)
    (hopen : (s.m.queue fn queue).en = true ∨ (s.m.queue fn queue).closing = true) (hpkt : (s.m.queue fn queue).pkt = pkt)
    (hpark : (s.m.queue fn queue).park = park) :
    exec (.queueDisable fn queue) s = match (generalizing := false) pkt, park with
      | some _, none => .next { s with m := s.m.modQueue fn queue fun _ => { s.m.queue fn queue with en := false, closing := true } }
      | some p, some _ => .next { s with m := (s.m.modQueue fn queue fun _ => { (s.m.queue fn queue).off with en := false }).packetEntry fn queue p 0x86 }
      | none, _ => .next { s with m := s.m.modQueue fn queue fun _ => { (s.m.queue fn queue).off with en := false } } := by
  show execQueueDisable fn queue s = _
  unfold execQueueDisable
  dsimp only
  rw [hthere, if_neg (by rcases hopen with h | h <;> simp [h])]
  rewrite [Mach.modQueue_const s.m fn queue fun x => { x with en := false, closing := true },
    Mach.modQueue_const s.m fn queue fun x => { x.off with en := false }]
  subst hpkt hpark
  rcases (s.m.queue fn queue).pkt with _ | p
  · rfl
  · rcases (s.m.queue fn queue).park with _ | why <;> rfl

/-- Settles O32: EN written 1 and 0, and a notify. -/
theorem queueDoorbellsComplete : Obligations.QueueDoorbellsComplete := by
  intro s fn queue value hf hq m x set off
  have hthere := queueThere_of hf hq
  refine ⟨?load, ?later, ?on, ?offAlready, ?idle, ?runs, ?parked, ?dropped, ?notify⟩
  case load =>
    intro hen hclosing
    exact (exec_queueEnable hthere hen).trans (congrArg (fun m' => Host.Outcome.next { s with m := m' }) (if_neg (by rw [hclosing]; decide)))
  case later =>
    intro hen hclosing
    exact (exec_queueEnable hthere hen).trans (congrArg (fun m' => Host.Outcome.next { s with m := m' }) (if_pos hclosing))
  case on =>
    intro hen
    show execQueueEnable fn queue s = _
    unfold execQueueEnable
    dsimp only
    rewrite [hthere, show (s.m.queue fn queue).en = true from hen]
    rfl
  case offAlready =>
    intro hen hclosing
    show execQueueDisable fn queue s = _
    unfold execQueueDisable
    dsimp only
    rewrite [hthere, show (s.m.queue fn queue).en = false from hen, show (s.m.queue fn queue).closing = false from hclosing]
    rfl
  case idle =>
    intro hopen hpkt
    exact exec_queueDisable hthere hopen hpkt rfl
  case runs =>
    intro p hopen hpkt hpark
    exact exec_queueDisable hthere hopen hpkt hpark
  case parked =>
    intro p why hopen hpkt hpark
    exact exec_queueDisable hthere hopen hpkt hpark
  case dropped =>
    intro hreset
    show execQnotifyWrite fn queue value s = _
    unfold execQnotifyWrite
    dsimp only
    rewrite [hthere, show (s.m.fn fn).resetP = true from hreset]
    rfl
  case notify =>
    intro hreset
    have hexec : exec (.qnotifyWrite fn queue value) s =
        if (x.rlog != 0 && 2 ^ x.rlog < (value - x.cons).toNat) || (value - x.cons).toNat < (x.notify - x.cons).toNat then .next s
        else .next { s with m := set { x with notify := value, wake := max x.wake (m.now + 1) } } := by
      show execQnotifyWrite fn queue value s = _
      unfold execQnotifyWrite
      dsimp only
      rewrite [hthere, show (s.m.fn fn).resetP = false from hreset, Mach.modQueue_const]
      rfl
    have hbreaks : ((x.rlog != 0 && 2 ^ x.rlog < (value - x.cons).toNat) || (value - x.cons).toNat < (x.notify - x.cons).toNat) = true ↔
        ¬ ((x.rlog = 0 ∨ (value - x.cons).toNat ≤ 2 ^ x.rlog) ∧ (x.notify - x.cons).toNat ≤ (value - x.cons).toNat) := by
      rw [Bool.or_eq_true, Bool.and_eq_true, bne_iff_ne, decide_eq_true_iff, decide_eq_true_iff, not_and_or, not_or, Nat.not_le, Nat.not_le]
    split
    case isTrue hkeeps => rw [hexec, if_neg (fun h => hbreaks.mp h hkeeps)]
    case isFalse hbreak => rw [hexec, if_pos (hbreaks.mpr hbreak)]

/-! ### How a step of queue code ends -/

theorem runQueue_go {body : Mach → Queue → Packet → QOut} {s : State} {p : Packet} {m : Mach} {jump : Option Nat}
    (hpkt : s.m.servedQueue.pkt = some p) (hbody : body s.m s.m.servedQueue p = .go m jump) :
    runQueue body s = .next (s.stepped m jump) := by
  rw [Mach.servedQueue] at hpkt hbody
  simp only [runQueue, hpkt, hbody]
  rfl

/-- A step that parks the queue at the next instruction. -/
theorem runQueue_parks {body : Mach → Queue → Packet → QOut} {s : State} {p : Packet} {m : Mach} {why : Park}
    (hpkt : s.m.servedQueue.pkt = some p) (hbody : body s.m s.m.servedQueue p = .park m why true) :
    runQueue body s = .next (s.parkedStep m why) := by
  rw [Mach.servedQueue] at hpkt hbody
  simp only [runQueue, hpkt, hbody]
  rfl

/-- A step that is not taken while its queue is parked. -/
theorem runQueue_retries {body : Mach → Queue → Packet → QOut} {s : State} {p : Packet} {m : Mach} {why : Park}
    (hpkt : s.m.servedQueue.pkt = some p) (hbody : body s.m s.m.servedQueue p = .park m why false) :
    runQueue body s = .next { s with m := m.modQueue s.m.curQ.1 s.m.curQ.2 fun y => { y with park := some why, wake := s.m.now + 1 } } := by
  rw [Mach.servedQueue] at hpkt hbody
  simp only [runQueue, hpkt, hbody]

/-- A step that waits for a page. -/
theorem runQueue_waits {body : Mach → Queue → Packet → QOut} {s : State} {p : Packet} {m : Mach}
    (hpkt : s.m.servedQueue.pkt = some p) (hbody : body s.m s.m.servedQueue p = .wait m) :
    runQueue body s = .next { s with m := m.modQueue s.m.curQ.1 s.m.curQ.2 fun y => { y with wake := s.m.now + 1 } } := by
  rw [Mach.servedQueue] at hpkt hbody
  simp only [runQueue, hpkt, hbody]

/-! ### Values and offsets -/

theorem shlValue_left {a b : W64} (hlo : 0 ≤ b.toInt) (hhi : b.toInt < 64) : shlValue a b = a <<< b.toInt.toNat := by
  simp [shlValue, hlo, hhi]

theorem shlValue_right {a b : W64} (hlo : -64 < b.toInt) (hhi : b.toInt < 0) : shlValue a b = a >>> (-b.toInt).toNat := by
  simp [shlValue, hlo, hhi, Int.not_le.mpr hhi]

theorem shlValue_far {a b : W64} (h : b.toInt ≤ -64 ∨ 64 ≤ b.toInt) : shlValue a b = 0 := by
  have hleft : ¬ (0 ≤ b.toInt ∧ b.toInt < 64) := by omega
  have hright : ¬ (-64 < b.toInt ∧ b.toInt < 0) := by omega
  simp only [shlValue, ← Bool.decide_and, decide_eq_true_iff, if_neg hleft, if_neg hright]

/-- An LD or ST inside its window. -/
theorem Queue.offset_inside {x : Queue} {q : QWord} (halign : (x.gr q.a + x.opB q).toNat % accessWidth q = 0)
    (hle : (x.gr q.a + x.opB q).toNat + accessWidth q ≤ (x.win q).len) : x.offset q = some (x.gr q.a + x.opB q).toNat := by
  simp only [Queue.offset, halign, hle]
  rfl

/-- An LD or ST that is misaligned or beyond its window. -/
theorem Queue.offset_outside {x : Queue} {q : QWord}
    (h : (x.gr q.a + x.opB q).toNat % accessWidth q ≠ 0 ∨ (x.win q).len < (x.gr q.a + x.opB q).toNat + accessWidth q) : x.offset q = none := by
  refine if_neg ?_
  rw [Bool.and_eq_true, beq_iff_eq, decide_eq_true_iff]
  omega

/-- CMP writes 1 where its condition holds, else 0. -/
theorem execQcCmp_of {s : State} {q : QWord} {p : Packet} {holds : Bool} (hpkt : s.m.servedQueue.pkt = some p)
    (h : cmpHolds q.fn (s.m.servedQueue.gr q.a) (s.m.servedQueue.opB q) = holds) :
    execQcCmp q s = .next (s.stepped (s.m.setG q.d (if holds then 1 else 0)) none) := by
  subst h
  exact runQueue_go (body := fun m x _ => .go (m.setG q.d (if cmpHolds q.fn (x.gr q.a) (x.opB q) then 1 else 0)) none) hpkt rfl

section
variable {s : State} {q : QWord} {p : Packet} (hpkt : s.m.servedQueue.pkt = some p)
  (halign : (s.m.servedQueue.gr q.a + s.m.servedQueue.opB q).toNat % accessWidth q = 0)
  (hle : (s.m.servedQueue.gr q.a + s.m.servedQueue.opB q).toNat + accessWidth q ≤ (s.m.servedQueue.win q).len)
include hpkt halign hle

/-- LD inside its window. -/
theorem execQcLd_of {bs : List Byte} (hread : s.m.qRead s.m.curQ.1 (s.m.servedQueue.win q).space
      ((s.m.servedQueue.win q).base + (s.m.servedQueue.gr q.a + s.m.servedQueue.opB q).toNat) (accessWidth q) = .ok bs) :
    execQcLd q s = .next (s.stepped (s.m.setG q.d (BitVec.ofNat 64 (leValue bs))) none) := by
  unfold execQcLd
  refine runQueue_go hpkt ?_
  rw [Queue.offset_inside halign hle]
  dsimp only
  rw [hread]

/-- ST inside its window, outside a transaction. -/
theorem execQcSt_of {m' : Mach} (htx : p.tx = none) (hwrite : s.m.qWrite s.m.curQ.1 (s.m.servedQueue.win q).space
      ((s.m.servedQueue.win q).base + (s.m.servedQueue.gr q.a + s.m.servedQueue.opB q).toNat)
      (leBytes (accessWidth q) (s.m.servedQueue.gr q.d).toNat) = .ok m') :
    execQcSt q s = .next (s.stepped m' none) := by
  unfold execQcSt
  refine runQueue_go hpkt ?_
  rw [Queue.offset_inside halign hle, htx]
  refine (if_neg (by decide)).trans ?_
  rw [hwrite]

/-- ST inside its window, in a transaction. -/
theorem execQcSt_buffers (htx : p.tx.isSome = true) :
    execQcSt q s = .next (s.stepped (s.m.buffer
      { kind := 0
        place := if (s.m.servedQueue.win q).space = 4
          then .host ((s.m.servedQueue.win q).base + (s.m.servedQueue.gr q.a + s.m.servedQueue.opB q).toNat)
          else .dev ((s.m.servedQueue.win q).base + (s.m.servedQueue.gr q.a + s.m.servedQueue.opB q).toNat)
        bytes := accessWidth q, val := s.m.servedQueue.gr q.d, dst := 0 }) none) := by
  unfold execQcSt
  refine runQueue_go hpkt ?_
  rw [Queue.offset_inside halign hle]
  exact if_pos htx

end

/-! ### The table of steps -/

/-- Settles O33: each word of the table goes on with its effect. -/
theorem queueStepsComplete : Obligations.QueueStepsComplete := by
  intro s q p i ok m' jump hpkt hmem hok
  simp only [Claims.queueOps, List.mem_cons, Prod.mk.injEq, List.not_mem_nil, or_false] at hmem
  rcases hmem with ⟨rfl, rfl, rfl, rfl⟩ | ⟨rfl, rfl, rfl, rfl⟩ | ⟨rfl, rfl, rfl, rfl⟩ | ⟨rfl, rfl, rfl, rfl⟩ | ⟨rfl, rfl, rfl, rfl⟩ |
    ⟨rfl, rfl, rfl, rfl⟩ | ⟨rfl, rfl, rfl, rfl⟩ | ⟨rfl, rfl, rfl, rfl⟩ | ⟨rfl, rfl, rfl, rfl⟩ | ⟨rfl, rfl, rfl, rfl⟩ |
    ⟨rfl, rfl, rfl, rfl⟩ | ⟨rfl, rfl, rfl, rfl⟩ | ⟨rfl, rfl, rfl, rfl⟩ | ⟨rfl, rfl, rfl, rfl⟩ | ⟨rfl, rfl, rfl, rfl⟩ |
    ⟨rfl, rfl, rfl, rfl⟩ | ⟨rfl, rfl, rfl, rfl⟩ | ⟨rfl, rfl, rfl, rfl⟩ | ⟨rfl, rfl, rfl, rfl⟩ | ⟨rfl, rfl, rfl, rfl⟩ |
    ⟨rfl, rfl, rfl, rfl⟩ | ⟨rfl, rfl, rfl, rfl⟩ | ⟨rfl, rfl, rfl, rfl⟩ | ⟨rfl, rfl, rfl, rfl⟩ | ⟨rfl, rfl, rfl, rfl⟩
  · exact (runQueue_go hpkt rfl : execQcNop q s = _)
  iterate 4 exact (runQueue_go hpkt rfl : aluStep q _ s = _)
  · exact (runQueue_go hpkt (congrArg (fun v => QOut.go (s.m.setG q.d v) none) (shlValue_left hok.1 hok.2)) : aluStep q shlValue s = _)
  · exact (runQueue_go hpkt (congrArg (fun v => QOut.go (s.m.setG q.d v) none) (shlValue_right hok.1 hok.2)) : aluStep q shlValue s = _)
  · exact (runQueue_go hpkt (congrArg (fun v => QOut.go (s.m.setG q.d v) none) (shlValue_far hok)) : aluStep q shlValue s = _)
  iterate 6 exact execQcCmp_of hpkt (by rw [hok]; rfl)
  · obtain ⟨⟨halign, hle⟩, hroom⟩ := hok
    split at hroom
    case h_1 bs hread => exact execQcLd_of hpkt halign hle hread
    case h_2 => cases hroom
  · obtain ⟨⟨halign, hle⟩, htx, hafter⟩ := hok
    split at hafter
    case h_1 m' hwrite => exact execQcSt_of hpkt halign hle htx hwrite
    case h_2 => cases hafter
  · obtain ⟨⟨halign, hle⟩, htx⟩ := hok
    exact execQcSt_buffers hpkt halign hle htx
  · exact (runQueue_go hpkt (by rewrite [hok]; rfl) : execQBrf q s = _)
  · exact (runQueue_go hpkt (by rewrite [hok.1, hok.2]; rfl) : execQBrf q s = _)
  · refine (runQueue_go hpkt ?_ : execQBrf q s = _)
    dsimp only
    rw [hok.1]
    exact congrArg (QOut.go s.m) (if_neg (by simpa using hok.2))
  · refine (runQueue_go hpkt ?_ : execQBrf q s = _)
    dsimp only
    rw [hok.1]
    exact congrArg (QOut.go s.m) (if_pos (by simpa using hok.2))
  · exact (runQueue_go hpkt (by rewrite [hok.1, hok.2]; rfl) : execQBrf q s = _)
  · exact (runQueue_go hpkt rfl : execQLoop q s = _)
  · exact (runQueue_go hpkt rfl : execQRearm q s = _)
  · exact (runQueue_go hpkt rfl : execQTxb q s = _)

end Sys2Proof.Machine
end

section
/-! Queues: packets and their ends (R370, R373, R377 to R379, R384, R389, R390, R401), and signals, transactions, POST, IRQ and WAITTASK (R382,
R385, R387 to R394). -/
namespace Sys2Proof.Machine

/-! ### Packets -/

theorem Mach.canStart_of {m : Mach} {f q : Nat} (hstate : (m.queue f q).state = .idle) (hpkt : (m.queue f q).pkt = none)
    (hpark : (m.queue f q).park = none) (hwake : (m.queue f q).wake ≤ m.now) (hpaused : (m.fn f).paused = false)
    (hmore : (m.queue f q).rearmed = true ∨ (m.queue f q).cons ≠ (m.queue f q).notify) : m.canStart f q = true := by
  unfold Mach.canStart
  dsimp only
  rw [hstate, hpkt, hpark, decide_eq_true hwake, hpaused]
  simpa using hmore

theorem Mach.stepDue_of {m : Mach} {f q : Nat} {p : Packet} (hpkt : (m.queue f q).pkt = some p) (hpark : (m.queue f q).park = none)
    (hstate : (m.queue f q).state = .run) (hwake : (m.queue f q).wake ≤ m.now) (hpaused : (m.fn f).paused = false) : m.stepDue f q = true := by
  unfold Mach.stepDue
  dsimp only
  rewrite [hstate, hpkt, hpark, decide_eq_true hwake, hpaused]
  rfl

/-- PACKET_START of a queue that has a packet to start, by what reading the packet gives. -/
theorem exec_packetStart {s : State} {r : Except WalkEnd (List Byte)} (hstart : s.m.canStart s.m.curQ.1 s.m.curQ.2 = true)
    (hread : s.m.qRead s.m.curQ.1 (bits s.m.servedQueue.ring 60 4)
      (s.m.servedQueue.ring.toNat % 2 ^ 48 + 64 * (s.m.servedQueue.cons.toNat % 2 ^ s.m.servedQueue.rlog)) 64 = r) :
    exec .packetStart s =
      let x := s.m.servedQueue
      let p : Packet := { index := x.cons.toNat, pc := 0, steps := 0, loop := none, tx := none, rearm := false }
      match (generalizing := false) r with
      | .ok bs => .next { s with m := s.m.modQueue s.m.curQ.1 s.m.curQ.2 fun _ => { x with
          state := .run, pkt := some p, rearmed := false, wake := s.m.now
          g := ((List.range 8).map fun i => BitVec.ofNat 64 (field bs (8 * i) 8)) ++ x.g.drop 8 } }
      | .error (.fault code _) =>
        .next { s with m := (s.m.modQueue s.m.curQ.1 s.m.curQ.2 fun _ => { x with pkt := some p }).endPacket s.m.curQ.1 s.m.curQ.2 code true }
      | .error (.pull g) => .next { s with m := (s.m.askPull s.m.curQ.1 g).modQueue s.m.curQ.1 s.m.curQ.2 fun x => { x with wake := s.m.now + 1 } }
      | .error (.leaf ..) => .next { s with m := s.m.modQueue s.m.curQ.1 s.m.curQ.2 fun x => { x with wake := s.m.now + 1 } } := by
  rw [Mach.servedQueue] at hread
  show execPacketStart s = _
  unfold execPacketStart
  dsimp only
  rewrite [hstart, hread]
  refine (if_neg (by decide)).trans ?_
  cases r with
  | ok bs =>
    refine congrArg (fun m' => Host.Outcome.next { s with m := m' }) (Mach.modQueue_congr ?_)
    rfl
  | error e =>
    cases e with
    | fault code d =>
      refine congrArg (fun m' => Host.Outcome.next { s with m := m'.endPacket s.m.curQ.1 s.m.curQ.2 code true }) (Mach.modQueue_congr ?_)
      rfl
    | pull g => rfl
    | leaf => rfl

theorem packetsComplete : Claims.PacketsComplete := by
  intro s m f q x set first read
  refine ⟨?start, ?resume, ?budget⟩
  case start =>
    intro hstate hpkt hpark hwake hpaused hmore
    have hstart := Mach.canStart_of hstate hpkt hpark hwake hpaused hmore
    exact ⟨fun bs hread => exec_packetStart hstart hread, fun code d hread => exec_packetStart hstart hread,
      fun g hread => exec_packetStart hstart hread⟩
  case resume =>
    intro hwake hpaused
    have hexec (hpark : (∃ r v, x.park = some (.done r v)) ∨ ∃ k, x.park = some (.go k)) :
        exec .queueResume s = .next { s with m := m.modQueue f q fun x => match x.park with
          | some (.done r v) => { x with park := none, g := x.g.set r v, wake := m.now + 1 }
          | _ => { x with park := none } } := by
      have hdue : m.resumeDue f q = true := by
        unfold Mach.resumeDue
        dsimp only
        rw [decide_eq_true (show (m.queue f q).wake ≤ m.now from hwake), hpaused]
        rcases hpark with ⟨r, v, h⟩ | ⟨k, h⟩ <;> (rw [show (m.queue f q).park = _ from h]; rfl)
      show execQueueResume s = _
      unfold execQueueResume
      dsimp only
      rewrite [show s.m.resumeDue s.m.curQ.1 s.m.curQ.2 = true from hdue]
      rfl
    refine ⟨fun r v hpark => ?_, fun k hpark => ?_⟩
    · refine (hexec (.inl ⟨r, v, hpark⟩)).trans (congrArg (fun m' => Host.Outcome.next { s with m := m' }) (Mach.modQueue_congr ?_))
      rewrite [show (m.queue f q).park = _ from hpark]
      rfl
    · refine (hexec (.inr ⟨k, hpark⟩)).trans (congrArg (fun m' => Host.Outcome.next { s with m := m' }) (Mach.modQueue_congr ?_))
      rewrite [show (m.queue f q).park = _ from hpark]
      rfl
  case budget =>
    intro p hpkt hpark hstate hwake hpaused hsteps
    have hexec : exec .fBudget s = .next { s with m := m.endPacket f q 0x19 true } := by
      show execFBudget s = _
      unfold execFBudget
      dsimp only
      rw [show (s.m.queue s.m.curQ.1 s.m.curQ.2).pkt = some p from hpkt]
      dsimp only
      rewrite [Mach.stepDue_of hpkt hpark hstate hwake hpaused, decide_eq_true hsteps]
      rfl
    refine ⟨fun _ => hexec, fun hclosing => ?_⟩
    have hended : x.ended p 0x19 true m.now =
        { x with pkt := none, cons := x.cons + 1, rearmed := false, wake := m.now + 1, state := .stopped } := by
      simp [Queue.ended, hpark]
    rw [hexec, Mach.endPacket_open hpkt hclosing]
    dsimp only
    rewrite [if_neg (by decide), show (m.queue f q).ended p 0x19 true m.now = _ from hended]
    rfl

/-! ### Ends of packets -/

/-- A step whose access met the end of a walk: the packet ends with the fault's code, or the step waits for the page. -/
def State.walkEnded (s : State) : WalkEnd → Host.Outcome State Fault Refusal
  | .fault code _ => .next { s with m := (s.m.modQueue s.m.curQ.1 s.m.curQ.2 Queue.counted).endPacket s.m.curQ.1 s.m.curQ.2 code true }
  | .pull g => .next { s with m := (s.m.askPull s.m.curQ.1 g).modQueue s.m.curQ.1 s.m.curQ.2 fun y => { y with wake := s.m.now + 1 } }
  | .leaf .. => .next { s with m := s.m.modQueue s.m.curQ.1 s.m.curQ.2 fun y => { y with wake := s.m.now + 1 } }

theorem runQueue_walkOut {body : Mach → Queue → Packet → QOut} {s : State} {p : Packet} {e : WalkEnd}
    (hpkt : s.m.servedQueue.pkt = some p) (hbody : body s.m s.m.servedQueue p = walkOut s.m e) :
    runQueue body s = s.walkEnded e := by
  cases e with
  | fault code d => exact runQueue_stop hpkt hbody
  | pull g => exact runQueue_waits hpkt hbody
  | leaf => exact runQueue_waits hpkt hbody

/-- The buffered operations of a transaction performed in order, with the signals they update. -/
def Mach.txRun (m : Mach) (f : Nat) (ops : List TxOp) : Except WalkEnd (Mach × List Nat) :=
  ops.foldl (fun r o => match r with | .error e => .error e | .ok y => y.1.txOp f y.2 o) (.ok (m, []))

theorem Mach.txRun_eq (m : Mach) (f : Nat) (ops : List TxOp) :
    ops.foldl (fun (a : Except WalkEnd (Mach × List Nat)) o => match a with
      | .error e => .error e
      | .ok (m', sigs) => m'.txOp f sigs o) (.ok (m, [])) = m.txRun f ops := by
  unfold Mach.txRun
  congr 1
  funext r o
  rcases r with _ | ⟨_, _⟩ <;> rfl

/-- TXE is the run of its transaction, and then of the halyards. -/
theorem execQTxe_eq (q : QWord) (s : State) :
    execQTxe q s = runQueue (fun m _ p => match m.txRun m.curQ.1 (p.tx.getD []) with
      | .error e => walkOut m e
      | .ok y => .go ((y.2.foldl Mach.walkHalyard y.1).modPacket fun p => { p with tx := none }) none) s := by
  unfold execQTxe
  refine congrArg (fun body => runQueue body s) (funext fun m => funext fun x => funext fun p => ?_)
  dsimp only
  split
  case h_1 e hrun => rw [show m.txRun m.curQ.1 (p.tx.getD []) = .error e from (Mach.txRun_eq ..).symm.trans hrun]
  case h_2 m' sigs hrun => rw [show m.txRun m.curQ.1 (p.tx.getD []) = .ok (m', sigs) from (Mach.txRun_eq ..).symm.trans hrun]

theorem packetEndsComplete : Claims.PacketEndsComplete := by
  intro s q p m x b n off out hpkt
  refine ⟨exec_qEnd hpkt, fun hoff => ⟨?ld, ?st⟩, fun hsig => ?wait, fun hsig => ⟨?set, ?add⟩, fun hvec => ?irq, ?walks⟩
  case ld =>
    show execQcLd q s = _
    unfold execQcLd
    refine runQueue_stop hpkt ?_
    rewrite [Queue.offset_outside hoff]
    rfl
  case st =>
    show execQcSt q s = _
    unfold execQcSt
    refine runQueue_stop hpkt ?_
    rewrite [Queue.offset_outside hoff]
    rfl
  case wait =>
    show execQSigwait q s = _
    unfold execQSigwait
    refine runQueue_stop hpkt ?_
    rewrite [show s.m.servedQueue.signal q false = none from hsig]
    rfl
  case set =>
    show execQSigset q s = _
    unfold execQSigset
    refine runQueue_stop hpkt ?_
    rewrite [show s.m.servedQueue.signal q true = none from hsig]
    rfl
  case add =>
    show execQSigadd q s = _
    unfold execQSigadd
    refine runQueue_stop hpkt ?_
    rewrite [show s.m.servedQueue.signal q true = none from hsig]
    rfl
  case irq =>
    show execQIrq q s = _
    unfold execQIrq
    exact runQueue_stop hpkt (if_pos hvec)
  case walks =>
    intro f w ended txe
    have hended (e : WalkEnd) (i : Instr) (h : exec i s = s.walkEnded e) : ended e i := by
      cases e with
      | fault code d => exact h
      | pull g => exact h
      | leaf => exact trivial
    refine ⟨fun e halign hle => ⟨fun hread => hended e _ ?_, fun htx hwrite => hended e _ ?_⟩, fun a e hsig hgpa => hended e _ ?_,
      fun a e hsig htx => ⟨fun hset => hended e _ ?_, fun hadd => hended e _ ?_⟩, fun ops e htx hrun => hended e _ ?_, fun e hread => hended e _ ?_⟩
    · show execQcLd q s = _
      unfold execQcLd
      refine runQueue_walkOut hpkt ?_
      have hread' : s.m.qRead s.m.curQ.1 (s.m.servedQueue.win q).space
        ((s.m.servedQueue.win q).base + (s.m.servedQueue.gr q.a + s.m.servedQueue.opB q).toNat) (accessWidth q) = .error e := hread
      rw [Queue.offset_inside (x := s.m.servedQueue) halign hle]
      dsimp only
      rw [hread']
    · show execQcSt q s = _
      unfold execQcSt
      refine runQueue_walkOut hpkt ?_
      have hwrite' : s.m.qWrite s.m.curQ.1 (s.m.servedQueue.win q).space
        ((s.m.servedQueue.win q).base + (s.m.servedQueue.gr q.a + s.m.servedQueue.opB q).toNat)
        (leBytes (accessWidth q) (s.m.servedQueue.gr q.d).toNat) = .error e := hwrite
      rw [Queue.offset_inside (x := s.m.servedQueue) halign hle, htx]
      refine (if_neg (by decide)).trans ?_
      rw [hwrite']
    · show execQSigwait q s = _
      unfold execQSigwait
      refine runQueue_walkOut hpkt ?_
      rw [show s.m.servedQueue.signal q false = some a from hsig]
      dsimp only
      rw [show s.m.gpa s.m.curQ.1 a .read = _ from hgpa]
    · show execQSigset q s = _
      unfold execQSigset
      refine runQueue_walkOut hpkt ?_
      rw [show s.m.servedQueue.signal q true = some a from hsig, htx]
      refine (if_neg (by decide)).trans ?_
      rw [show s.m.signal s.m.curQ.1 a (fun _ => (s.m.servedQueue.opB q).toNat) = .error e from hset]
    · show execQSigadd q s = _
      unfold execQSigadd
      refine runQueue_walkOut hpkt ?_
      rw [show s.m.servedQueue.signal q true = some a from hsig, htx]
      refine (if_neg (by decide)).trans ?_
      rw [show s.m.signal s.m.curQ.1 a (fun v => v + (s.m.servedQueue.opB q).toNat) = .error e from hadd]
    · refine (execQTxe_eq q s : execQTxe q s = _).trans (runQueue_walkOut hpkt ?_)
      rw [htx, Option.getD_some, show s.m.txRun s.m.curQ.1 ops = .error e from hrun]
    · show execQPost q s = _
      unfold execQPost
      refine runQueue_walkOut hpkt ?_
      dsimp only
      rw [show s.m.qRead s.m.curQ.1 (s.m.servedQueue.win q).space ((s.m.servedQueue.win q).base + 8) 4 = .error e from hread]

/-- Settles O34: packets that start, resume or run out of steps, and the ends of packets. -/
theorem packetsAndTheirEndsComplete : Obligations.PacketsAndTheirEndsComplete := ⟨packetsComplete, packetEndsComplete⟩

/-! ### Signals, transactions, POST, IRQ and WAITTASK -/

/-- A wait's condition holds of the masked word (R385). -/
theorem sigHolds_iff {fn : BitVec 3} (hfn : fn.toNat < 3) (sig : Nat) (mask cmp : W64) :
    sigHolds fn.toNat sig mask cmp = true ↔
      (fn = 0 ∧ cmp.toNat &&& mask.toNat ≤ sig &&& mask.toNat) ∨ (fn = 1 ∧ sig &&& mask.toNat = cmp.toNat &&& mask.toNat) ∨
      (fn = 2 ∧ sig &&& mask.toNat ≠ cmp.toNat &&& mask.toNat) := by
  have hcases : ∀ fn : BitVec 3, fn.toNat < 3 → fn = 0 ∨ fn = 1 ∨ fn = 2 := by decide
  rcases hcases fn hfn with rfl | rfl | rfl <;> simp [sigHolds]

/-- The window an instruction names, by FN modulo 4. -/
theorem window_toNat (q : QWord) : (bits q.fn 0 2).toNat = q.fn.toNat % 4 := by simp

/-- Settles O35: each word by the signal, the transaction, the ring, the vector or the command it names. -/
theorem queueSignalsComplete : Obligations.QueueSignalsComplete := by
  intro s q p m f x b put packet mask go hpkt
  refine ⟨?wait, ?update, ?txe, ?post, ?irq, ?task⟩
  case wait =>
    intro a m' pa hsig hgpa sig cmp holds
    have hrun (h : q.fn.toNat < 3) : sigHolds q.fn.toNat (m'.dev.value pa 8) (x.gr q.d) b = true ↔ holds := sigHolds_iff h _ _ _
    refine ⟨fun hholds => ?_, fun hno hfn => ?_⟩
    · have hfn : q.fn.toNat < 3 := by rcases hholds with ⟨h, _⟩ | ⟨h, _⟩ | ⟨h, _⟩ <;> (rw [h]; decide)
      show execQSigwait q s = _
      unfold execQSigwait
      refine runQueue_go hpkt ?_
      rw [show s.m.servedQueue.signal q false = some a from hsig]
      dsimp only
      rw [show s.m.gpa s.m.curQ.1 a .read = .ok (m', pa) from hgpa]
      exact if_pos ((hrun hfn).mpr hholds)
    · show execQSigwait q s = _
      unfold execQSigwait
      refine runQueue_parks hpkt ?_
      rw [show s.m.servedQueue.signal q false = some a from hsig]
      dsimp only
      rw [show s.m.gpa s.m.curQ.1 a .read = .ok (m', pa) from hgpa]
      exact if_neg fun h => hno ((hrun hfn).mp h)
  case update =>
    intro a hsig
    refine ⟨fun htx r hr => ?_, fun htx r hr => ?_, fun htx => ⟨?_, ?_⟩⟩
    · show execQSigset q s = _
      unfold execQSigset
      refine runQueue_go hpkt ?_
      rw [show s.m.servedQueue.signal q true = some a from hsig, htx]
      refine (if_neg (by decide)).trans ?_
      rw [show s.m.signal s.m.curQ.1 a (fun _ => (s.m.servedQueue.opB q).toNat) = .ok r from hr]
    · show execQSigadd q s = _
      unfold execQSigadd
      refine runQueue_go hpkt ?_
      rw [show s.m.servedQueue.signal q true = some a from hsig, htx]
      refine (if_neg (by decide)).trans ?_
      rewrite [show s.m.signal s.m.curQ.1 a (fun v => v + (s.m.servedQueue.opB q).toNat) = .ok r from hr]
      rfl
    · show execQSigset q s = _
      unfold execQSigset
      refine runQueue_go hpkt ?_
      rw [show s.m.servedQueue.signal q true = some a from hsig]
      exact if_pos htx
    · show execQSigadd q s = _
      unfold execQSigadd
      refine runQueue_go hpkt ?_
      rw [show s.m.servedQueue.signal q true = some a from hsig]
      exact if_pos htx
  case txe =>
    intro ops m' sigs htx hrun
    refine (execQTxe_eq q s : execQTxe q s = _).trans (runQueue_go hpkt ?_)
    rewrite [htx, Option.getD_some, show s.m.txRun s.m.curQ.1 ops = .ok (m', sigs) from hrun]
    rfl
  case post =>
    intro w slots rd hread used
    refine ⟨fun hfull => ?_, fun m1 m2 hroom hentry hptr => ?_⟩
    · show execQPost q s = _
      unfold execQPost
      refine runQueue_go hpkt ?_
      dsimp only
      rw [show s.m.qRead s.m.curQ.1 (s.m.servedQueue.win q).space ((s.m.servedQueue.win q).base + 8) 4 = .ok rd from hread]
      exact if_pos hfull
    · show execQPost q s = _
      unfold execQPost
      refine runQueue_go hpkt ?_
      dsimp only
      rw [show s.m.qRead s.m.curQ.1 (s.m.servedQueue.win q).space ((s.m.servedQueue.win q).base + 8) 4 = .ok rd from hread]
      refine (if_neg (Nat.not_le.mpr hroom)).trans ?_
      rw [show s.m.qWrite s.m.curQ.1 (s.m.servedQueue.win q).space _ _ = .ok m1 from hentry]
      dsimp only
      rewrite [show m1.qWrite s.m.curQ.1 (s.m.servedQueue.win q).space _ _ = .ok m2 from hptr, window_toNat]
      rfl
  case irq =>
    intro hvec
    exact (runQueue_go hpkt (if_neg (Nat.not_le.mpr hvec)) : execQIrq q s = _)
  case task =>
    intro seq
    refine ⟨fun st hst => ?_, fun hnone => ?_⟩
    · show execQWaittask q s = _
      unfold execQWaittask
      refine runQueue_go hpkt ?_
      dsimp only
      rewrite [show (s.m.fn s.m.curQ.1).cmdStatus _ = _ from hst]
      rfl
    · show execQWaittask q s = _
      unfold execQWaittask
      refine runQueue_parks hpkt ?_
      dsimp only
      rw [show (s.m.fn s.m.curQ.1).cmdStatus _ = _ from hnone]

end Sys2Proof.Machine
end

section
/-! The four launches of queue code (R17, R365, R386, R395, R417, R421). -/
namespace Sys2Proof.Machine

/-! ### A command and the room it needs -/

/-- A launch that lacks room in the journal, or for LAUNCH in the window, parks its queue. -/
theorem launchStep_parks {s : State} {p : Packet} {window : Bool} {body : Mach → Queue → QOut} (hpkt : s.m.servedQueue.pkt = some p)
    (h : (s.m.fn s.m.curQ.1).acceptRoom = false ∨ (window = true ∧ s.m.windowRoom s.m.curQ.1 = false)) :
    launchStep window body s =
      .next { s with m := s.m.modQueue s.m.curQ.1 s.m.curQ.2 fun y => { y with park := some .launch, wake := s.m.now + 1 } } := by
  refine runQueue_retries hpkt (if_pos ?_)
  rcases h with h | ⟨hw, h⟩ <;> simp [*]

section
variable {s : State} {p : Packet} {window : Bool} {body : Mach → Queue → QOut} (hpkt : s.m.servedQueue.pkt = some p)
  (hroom : (s.m.fn s.m.curQ.1).acceptRoom = true) (hwindow : window = true → s.m.windowRoom s.m.curQ.1 = true)
include hpkt hroom hwindow

/-- A launch that has room does what its body says. -/
theorem launchStep_eq : launchStep window body s = runQueue (fun m x _ => body m x) s := by
  have hroom' : (!(s.m.fn s.m.curQ.1).acceptRoom || (window && !s.m.windowRoom s.m.curQ.1)) = false := by
    cases window with
    | false => simp [hroom]
    | true => simp [hroom, hwindow rfl]
  have hpkt' : (s.m.queue s.m.curQ.1 s.m.curQ.2).pkt = some p := hpkt
  unfold launchStep runQueue
  dsimp only
  rw [hpkt']
  dsimp only
  rw [hroom', if_neg Bool.false_ne_true]

theorem launchStep_go {m' : Mach} (hbody : body s.m s.m.servedQueue = .go m' none) : launchStep window body s = .next (s.stepped m' none) :=
  (launchStep_eq hpkt hroom hwindow).trans (runQueue_go hpkt hbody)

theorem launchStep_waits {m' : Mach} (hbody : body s.m s.m.servedQueue = .wait m') :
    launchStep window body s = .next { s with m := m'.modQueue s.m.curQ.1 s.m.curQ.2 fun y => { y with wake := s.m.now + 1 } } :=
  (launchStep_eq hpkt hroom hwindow).trans (runQueue_waits hpkt hbody)

end

/-- gD of a command accepted is its number. -/
theorem launchResult_accepted (seq : Nat) : launchResult seq 0 = BitVec.ofNat 64 (seq % 2 ^ 48) := by
  simp [launchResult]

/-- A command accepted: its number in gD, and what it starts. -/
theorem acceptStep_eq (m : Mach) (q : QWord) (info : W64) (act : Mach → Nat → Mach) :
    acceptStep m q info act =
      .go ((act (m.accept m.curQ.1 m.curQ.2 info).1 (m.accept m.curQ.1 m.curQ.2 info).2).setG q.d
        (BitVec.ofNat 64 ((m.accept m.curQ.1 m.curQ.2 info).2 % 2 ^ 48))) none := by
  rw [acceptStep, launchResult_accepted]

/-! ### The launches -/

/-- Settles O36: the room first, then the card, the task named, or the range. -/
theorem launchesComplete : Obligations.LaunchesComplete := by
  intro s q p m f x ga b put refused accepted parked named hpkt
  have hno (h : false = true) : s.m.windowRoom s.m.curQ.1 = true := absurd h Bool.false_ne_true
  refine ⟨fun hfull => ⟨?_, ?_, ?_, ?_⟩, fun hfull => ?_, fun hroom => ⟨fun hwindow => ⟨?task, ?badCard, ?pulling, ?badAddress⟩, ?ri, ?badRi, ?kill, ?badKill, ?inv⟩⟩
  · exact (launchStep_parks hpkt (.inl hfull) : execQLaunch q s = _)
  · exact (launchStep_parks hpkt (.inl hfull) : execQLaunchRi q s = _)
  · exact (launchStep_parks hpkt (.inl hfull) : execQLaunchKill q s = _)
  · exact (launchStep_parks hpkt (.inl hfull) : execQLaunchInv q s = _)
  · exact (launchStep_parks hpkt (.inr ⟨rfl, hfull⟩) : execQLaunch q s = _)
  case task =>
    intro t hlt hcard
    show execQLaunch q s = _
    unfold execQLaunch
    refine launchStep_go hpkt hroom (fun _ => hwindow) ?_
    dsimp only
    rw [if_pos (show (s.m.servedQueue.gr q.a).toNat < 2 ^ 48 from hlt),
      show s.m.card s.m.curQ.1 s.m.curQ.2 (s.m.servedQueue.gr q.a).toNat (s.m.servedQueue.opB q) s.m.servedQueue.readable = .task t from hcard]
    exact acceptStep_eq ..
  case badCard =>
    intro st hlt hcard
    show execQLaunch q s = _
    unfold execQLaunch
    refine launchStep_go hpkt hroom (fun _ => hwindow) ?_
    dsimp only
    rewrite [if_pos (show (s.m.servedQueue.gr q.a).toNat < 2 ^ 48 from hlt),
      show s.m.card s.m.curQ.1 s.m.curQ.2 (s.m.servedQueue.gr q.a).toNat (s.m.servedQueue.opB q) s.m.servedQueue.readable = .refused st from hcard]
    rfl
  case pulling =>
    intro g hlt hcard
    show execQLaunch q s = _
    unfold execQLaunch
    refine launchStep_waits hpkt hroom (fun _ => hwindow) ?_
    dsimp only
    rw [if_pos (show (s.m.servedQueue.gr q.a).toNat < 2 ^ 48 from hlt),
      show s.m.card s.m.curQ.1 s.m.curQ.2 (s.m.servedQueue.gr q.a).toNat (s.m.servedQueue.opB q) s.m.servedQueue.readable = .pulling g from hcard]
  case badAddress =>
    intro hge
    show execQLaunch q s = _
    unfold execQLaunch
    refine launchStep_go hpkt hroom (fun _ => hwindow) ?_
    dsimp only
    rewrite [if_neg (show ¬ (s.m.servedQueue.gr q.a).toNat < 2 ^ 48 from Nat.not_lt.mpr hge)]
    rfl
  case ri =>
    intro t hnamed hstate hfailed
    show execQLaunchRi q s = _
    unfold execQLaunchRi
    refine launchStep_go hpkt hroom hno ?_
    rw [show s.m.named s.m.servedQueue q = some t from hnamed]
    refine (if_neg ?_).trans (acceptStep_eq ..)
    simp [hstate, Option.isSome_iff_ne_none.mp hfailed]
  case badRi =>
    intro hno'
    show execQLaunchRi q s = _
    unfold execQLaunchRi
    refine launchStep_go hpkt hroom hno ?_
    cases hnamed : s.m.named s.m.servedQueue q with
    | none => rfl
    | some t => exact if_pos (by rcases hno' t hnamed with h | h <;> simp [h])
  case kill =>
    intro t hnamed
    show execQLaunchKill q s = _
    unfold execQLaunchKill
    refine launchStep_go hpkt hroom hno ?_
    rw [show s.m.named s.m.servedQueue q = some t from hnamed]
    exact acceptStep_eq ..
  case badKill =>
    intro hnamed
    show execQLaunchKill q s = _
    unfold execQLaunchKill
    refine launchStep_go hpkt hroom hno ?_
    rewrite [show s.m.named s.m.servedQueue q = none from hnamed]
    rfl
  case inv =>
    have hbad : (ga.toNat % 0x10000 != 0 || decide (2 ^ 48 ≤ ga.toNat) || decide (b.toNat = 0) || decide (65535 < b.toNat)) = true ↔
        ¬ (ga.toNat % 0x10000 = 0 ∧ ga.toNat < 2 ^ 48 ∧ 0 < b.toNat ∧ b.toNat < 65536) := by
      simp only [Bool.or_eq_true, bne_iff_ne, decide_eq_true_iff]
      omega
    split
    case isTrue hok =>
      show execQLaunchInv q s = _
      unfold execQLaunchInv
      exact launchStep_go hpkt hroom hno ((if_neg fun h => hbad.mp h hok).trans (acceptStep_eq ..))
    case isFalse hnot =>
      show execQLaunchInv q s = _
      unfold execQLaunchInv
      exact launchStep_go hpkt hroom hno (if_pos (hbad.mpr hnot))

end Sys2Proof.Machine
end

section
/-! PROOF. O37 and O38: the commands of a chain, the bind and end of tasks, and pre-emption. -/
namespace Sys2Proof.Machine

/-- A command block in order, as the model's check of one says it. -/
theorem commandBlock_check (b : List Byte) :
    (decide (field b 8 1 = 0) || decide (15 < field b 8 1) || field b 9 7 != 0 || field b 0 8 % 256 != 0 || decide (2 ^ 48 ≤ field b 0 8)) = false ↔
      1 ≤ field b 8 1 ∧ field b 8 1 ≤ 15 ∧ field b 9 7 = 0 ∧ field b 0 8 % 256 = 0 ∧ field b 0 8 < 2 ^ 48 := by
  simp only [Bool.or_eq_false_iff, decide_eq_false_iff_not, bne_eq_false_iff_eq]
  omega

section
variable {s : State} {t : Task} (ht : s.m.served = some t)
include ht

/-- COMMAND_SUBMIT of a task whose chain is due, by cases of its block (R365, R397). -/
theorem exec_commandSubmit (hdue : s.m.submitDue t = true) :
    exec .commandSubmit s =
      if t.port.block = 0 then .next { s with m := s.m.modTask t.seq fun t => { t with port := { t.port with done := true } } }
      else match s.m.gpaRead t.fn t.port.block 256 with
        | .error (.pull g) => .next { s with m := (s.m.askPull t.fn g).modTask t.seq fun t => { t with port := { t.port with wake := s.m.now + 1 } } }
        | .error _ => .next { s with m := s.m.killTask t.seq 0x81 }
        | .ok b =>
          let k : ChainCmdP := { seqNo := 0, index := t.port.index, words := bytesImage 128 ((b.drop (16 + 16 * t.port.inBlk)).take 16)
                                 resume := (t.port.reissue.map fun r => r.2.2).getD 0
                                 path := (t.port.record.map fun (r : W64 × W64 × W64) => (r.2.2 &&& 0xFF80000000000000) ||| (r.2.1 >>> 32)).getD (0 : W64)
                                 endAt := none, bar := false }
          if decide (field b 8 1 = 0) || decide (15 < field b 8 1) || field b 9 7 != 0 || field b 0 8 % 256 != 0 || decide (2 ^ 48 ≤ field b 0 8) then
            .next { s with m := s.m.killTask t.seq 0x81 }
          else if field b 8 1 ≤ t.port.inBlk then
            .next { s with m := s.m.modTask t.seq fun t => { t with port := { t.port with block := field b 0 8, inBlk := 0 } } }
          else if s.m.portWaits t then .next { s with m := s.m.modTask t.seq fun t => { t with port := { t.port with wake := s.m.now + 1 } } }
          else if 15 < k.tile.1 then .next { s with m := s.m.endCommand t k none 0x01 }
          else .next { s with m := s.m.modTask t.seq fun t => { t with port := { t.port with pending := some k } } } := by
  show execCommandSubmit s = _
  unfold execCommandSubmit
  dsimp only
  rw [ht]
  dsimp only
  rw [hdue]
  cases t.port.reissue <;> cases t.port.record <;> rfl

end

/-- COMMAND_SUBMIT (R341, R365, R397): each clause is a branch of the block's check. -/
theorem commandSubmitCompletes : Claims.CommandSubmitCompletes := by
  intro s t ht hdue m p port
  refine ⟨fun h => ?_, fun code d h0 hread => ?_, fun g h0 hread => ?_, fun b h0 hread => ?_⟩
  · exact (exec_commandSubmit ht hdue).trans (if_pos h)
  all_goals rw [exec_commandSubmit ht hdue, if_neg h0, show s.m.gpaRead t.fn t.port.block 256 = _ from hread]
  case refine_4 =>
    intro n ok k
    have hbad : ok → (decide (field b 8 1 = 0) || decide (15 < field b 8 1) || field b 9 7 != 0 || field b 0 8 % 256 != 0 ||
        decide (2 ^ 48 ≤ field b 0 8)) = false := (commandBlock_check b).mpr
    dsimp only
    refine ⟨fun hn => ?_, fun hok hle => ?_, fun hok hlt hw => ?_, fun hok hlt hw hk => ?_, fun hok hlt hw hk => ?_⟩
    · exact if_pos ((Bool.not_eq_false _).mp fun h => hn ((commandBlock_check b).mp h))
    all_goals rw [if_neg (Bool.eq_false_iff.mp (hbad hok))]
    · exact if_pos hle
    all_goals rw [if_neg (Nat.not_le.mpr hlt)]
    · exact if_pos hw
    all_goals rw [if_neg (Bool.eq_false_iff.mp hw)]
    · exact if_pos hk
    · exact if_neg (Nat.not_lt.mpr hk)

/-! ### The bind of a task -/

section
variable {s : State} {task : Nat} {choice : BindChoice} {t : Task} {p : Part} (ht : s.m.task task = some t) (hp : s.m.part t.part = some p)
include ht hp

/-- TASK_BIND of a task and partition of the machine, by cases of the choice (R20, R398). -/
theorem exec_taskBind :
    exec (.taskBind task choice) s =
      if !((s.m.waiting p t && s.m.hub.tasks.all fun u => u.seq == t.seq || !s.m.waiting p u || s.m.above p t u) && s.m.choiceFits t p choice) then
        .next s
      else if !(s.m.pinPages t choice).isEmpty then .next { s with m := s.m.askPages t.fn (s.m.pinPages t choice) }
      else if t.state == .saved then .next { s with m := (s.m.makeRoom choice.blocks.flatten).startRestore t p choice }
      else if !t.native then .next { s with m := (s.m.makeRoom choice.blocks.flatten).bindTask t p choice none }
      else match parseImage ((s.m.makeRoom choice.blocks.flatten).image? t.fn t.image) t.imgLen with
        | some im => .next { s with m := (s.m.makeRoom choice.blocks.flatten).bindTask t p choice (some im) }
        | none => .next { s with m := s.m.askPages t.fn [s.m.pullOf t.fn t.image t.imgLen] } := by
  show execTaskBind task choice s = _
  unfold execTaskBind
  dsimp only
  rw [ht]
  dsimp only
  rewrite [hp]
  rfl

end

/-- Whether no other waiting task of the partition goes before one (R408). -/
theorem Mach.first_iff (m : Mach) (p : Part) (t : Task) :
    (m.hub.tasks.all fun u => u.seq == t.seq || !m.waiting p u || m.above p t u) = true ↔
      ∀ u ∈ m.hub.tasks, u.seq = t.seq ∨ m.waiting p u = false ∨ m.above p t u = true := by
  simp only [List.all_eq_true, Bool.or_eq_true, beq_iff_eq, Bool.not_eq_true', or_assoc]

/-! ### The end of a task -/

/-- What TASK_COMPLETE does to a machine whose completion signal is raised: the task is done, and its entries are written (R398, R421). -/
def Mach.finishTask (m : Mach) (t : Task) (st : Byte) : Mach :=
  t.killers.foldl (fun m k => m.complete t.fn k.2 k.1 0)
    (((m.modTask t.seq fun t => { t with state := .done }).reissueOver t st).complete t.fn t.queue t.num st)

section
variable {s : State} {t : Task} (ht : s.m.served = some t)
include ht

/-- TASK_COMPLETE of a task that is over, by what its signal gives (R398). -/
theorem exec_taskComplete (hover : s.m.taskOver t = true) :
    exec .taskComplete s =
      match (((t.cores.foldl (fun a c => insertCore c a) []).foldl (fun m c => m.boundary c 8) s.m).unbind t).signalEnd t with
      | .error g => .next { s with m := (s.m.askPull t.fn g).modTask t.seq fun t => { t with port := { t.port with wake := s.m.now + 1 } } }
      | .ok m2 => .next { s with m := m2.finishTask t (s.m.taskStatus t) } := by
  show execTaskComplete s = _
  unfold execTaskComplete
  rw [ht]
  dsimp only
  rewrite [hover]
  rfl

end

/-- The entry of a re-issue that has not run, as an option's value. -/
theorem Mach.reissueOver_eq (m : Mach) (t : Task) (st : Byte) :
    m.reissueOver t st = (t.port.reissue.map fun r =>
      m.journal t.fn (JEntry.new 2 st (jref r.1 r.2.1 t.fn) (BitVec.ofNat 64 (t.port.index % 65536)) true)).getD m := by
  unfold Mach.reissueOver
  cases t.port.reissue <;> rfl

/-- The completion signal of a task that names one, by what raising it gives. -/
theorem Mach.signalEnd_of_ne (m : Mach) (t : Task) (h : t.csig ≠ 0) :
    m.signalEnd t = match m.signal t.fn t.csig (· + 1) with
      | .ok r => .ok r.1
      | .error (.pull g) => .error g
      | .error _ => .ok m := if_neg h

/-- TASK_BIND and TASK_COMPLETE (R20, R398, R407, R408, R412). -/
theorem tasksComplete : Claims.TasksComplete := by
  intro s m
  refine ⟨fun task choice t p ht hp hw hch hfirst => ?_, fun task choice t p ht hp hw hfits hpin hfirst => ?_,
    fun task choice t p ht hp hno => ?_, fun t ht hover => ?_⟩
  · obtain ⟨hfits, hpin⟩ := (Bool.and_eq_true _ _).mp hch
    have hall := (s.m.first_iff p t).mpr hfirst
    have hgo : (!((s.m.waiting p t && s.m.hub.tasks.all fun u => u.seq == t.seq || !s.m.waiting p u || s.m.above p t u) &&
        s.m.choiceFits t p choice)) = false := by rw [hall, show s.m.waiting p t = true from hw, show s.m.choiceFits t p choice = true from hfits]; rfl
    have hexec := (exec_taskBind (choice := choice) ht hp).trans
      ((if_neg (Bool.eq_false_iff.mp hgo)).trans (if_neg (by rw [show (s.m.pinPages t choice).isEmpty = true from hpin]; decide)))
    refine ⟨fun hs => ?_, fun hs hn => ?_, fun im hs hn him => ?_, fun hs hn him => ?_⟩
    · exact hexec.trans (if_pos (beq_iff_eq.mpr hs))
    all_goals refine hexec.trans ((if_neg fun h => hs (beq_iff_eq.mp h)).trans ?_)
    · exact if_pos (by rw [hn]; rfl)
    all_goals rw [if_neg (by rw [hn]; decide), show parseImage _ t.imgLen = _ from him]
  · have hgo : (!((s.m.waiting p t && s.m.hub.tasks.all fun u => u.seq == t.seq || !s.m.waiting p u || s.m.above p t u) &&
        s.m.choiceFits t p choice)) = false := by
      rw [(s.m.first_iff p t).mpr hfirst, show s.m.waiting p t = true from hw, show s.m.choiceFits t p choice = true from hfits]; rfl
    refine (exec_taskBind (choice := choice) ht hp).trans ((if_neg (Bool.eq_false_iff.mp hgo)).trans (if_pos ?_))
    rw [Bool.not_eq_true', List.isEmpty_eq_false_iff]
    exact hpin
  · refine (exec_taskBind (choice := choice) ht hp).trans (if_pos ?_)
    rw [Bool.not_eq_true', Bool.and_eq_false_iff, Bool.and_eq_false_iff]
    rcases hno with h | h | ⟨u, hu, hne, hwait, habove⟩
    · exact .inl (.inl h)
    · exact .inr h
    · refine .inl (.inr (Bool.eq_false_iff.mpr fun hall => ?_))
      rcases (s.m.first_iff p t).mp hall u hu with h | h | h
      · exact hne h
      · exact Bool.false_ne_true (h.symm.trans hwait)
      · exact Bool.false_ne_true (habove.symm.trans h)
  · intro m1 finish
    have hexec := exec_taskComplete ht hover
    have hfinish (m2 : Mach) : m2.finishTask t (s.m.taskStatus t) = finish m2 := by
      unfold Mach.finishTask
      rw [Mach.reissueOver_eq]
    have hend (m2 : Mach) (h : m1.signalEnd t = .ok m2) : exec .taskComplete s = .next { s with m := finish m2 } := by
      rw [hexec, show Mach.signalEnd _ t = _ from h, ← hfinish m2]
    refine ⟨fun h0 => hend m1 (if_pos h0), fun r h0 hr => hend r.1 ?_, fun code d h0 hr => hend m1 ?_, fun g h0 hr => ?_⟩
    · rw [m1.signalEnd_of_ne t h0, show m1.signal t.fn t.csig (· + 1) = _ from hr]
    · rw [m1.signalEnd_of_ne t h0, show m1.signal t.fn t.csig (· + 1) = _ from hr]
    · have h : m1.signalEnd t = .error g := by rw [m1.signalEnd_of_ne t h0, show m1.signal t.fn t.csig (· + 1) = _ from hr]
      rw [hexec, show Mach.signalEnd _ t = _ from h]

/-- Settles O37: COMMAND_SUBMIT by the check of its block, TASK_BIND by the choice and TASK_COMPLETE by what the signal gives. -/
theorem tasksAndCommandsComplete : Obligations.TasksAndCommandsComplete := by
  unfold Obligations.TasksAndCommandsComplete
  exact ⟨commandSubmitCompletes, tasksComplete⟩

/-! ### Pre-emption -/

/-- What an event of a task does where the task served is known. -/
theorem atBoundary_of_idle {t : Task} (hn : t.native = false) (hst : t.state = .bound) (hk : t.killed = none) (hr : t.port.running = [])
    (hp : t.port.pending = none) (hf : t.port.failed = none) (hd : t.port.done = false) (hpre : ∃ at_, t.preempt = some (at_, false)) :
    t.atBoundary = true := by
  obtain ⟨at_, hpre⟩ := hpre
  unfold Task.atBoundary
  rewrite [hn, hst, hk, hr, hp, hf, hd, hpre]
  rfl

/-- A boundary asked for 4 ms ago that has not come is late (R410). -/
theorem Mach.boundaryLate_of_le {m : Mach} {t : Task} {at_ : Nat} (hst : t.state = .bound) (hpre : t.preempt = some (at_, false))
    (hlate : at_ + 5600000 ≤ m.now) : m.boundaryLate t = true := by
  have hms : 4000 * usCycles = 5600000 := by decide
  simp only [Mach.boundaryLate, hst, hpre, hms, decide_eq_true hlate, beq_self_eq_true, Bool.not_false, Bool.and_self]

/-- Settles O38: each event where its condition holds. -/
theorem preemptionCompletes : Obligations.PreemptionCompletes := by
  unfold Obligations.PreemptionCompletes
  intro s t ht m
  refine ⟨fun p hp hdue => ?_, fun hn hst hk hr hpend hf hd hpre => ?_, fun at_ hst hpre hlate => ?_, fun hstop => ?_, fun hstop hsav => ?_, fun hw => ?_⟩
  · show execSliceExpiry s = _
    unfold execSliceExpiry
    dsimp only
    rw [ht]
    dsimp only
    rw [show s.m.part t.part = some p from hp]
    dsimp only
    rewrite [show s.m.sliceDue t = true from hdue]
    rfl
  · show execPreemptGraph s = _
    unfold execPreemptGraph
    rw [ht]
    dsimp only
    rewrite [atBoundary_of_idle hn hst hk hr hpend hf hd hpre]
    rfl
  · have hl := Mach.boundaryLate_of_le hst hpre hlate
    show execPreemptTimeout s = _
    unfold execPreemptTimeout
    rw [ht]
    dsimp only
    rewrite [hl]
    rfl
  · show execPreemptFull s = _
    unfold execPreemptFull
    dsimp only
    rw [ht]
    exact if_pos hstop
  · show execPreemptFull s = _
    unfold execPreemptFull
    dsimp only
    rw [ht]
    exact (if_neg (Bool.eq_false_iff.mp hstop)).trans (if_pos hsav)
  · show execWatchdogLimit s = _
    unfold execWatchdogLimit
    rw [ht]
    dsimp only
    rw [if_pos hw]

end Sys2Proof.Machine
end

section
/-! PROOF. O39: waiting journal entries, the end of an INV.S2, and page pulls. -/
namespace Sys2Proof.Machine

/-! ### What a write to guest physical memory keeps -/

section
variable {γ : Type} (p : Mach → γ) (hwrite : ∀ m bs, p (Mach.devWrite m bs) = p m) (hatomic : ∀ m bs, p (Mach.devAtomic m bs) = p m)
include hatomic

theorem Mach.gpa_keep {m m' : Mach} {f a pa : Nat} {k : Access} (h : m.gpa f a k = .ok (m', pa)) : p m' = p m := by
  unfold Mach.gpa at h
  split at h
  · cases h
  · split at h
    · cases h
      split
      · exact hatomic ..
      · rfl
    · cases h

theorem Mach.gpaSpan_keep {m m' : Mach} {f a n : Nat} {k : Access} {l : List (Nat × Nat)} (h : m.gpaSpan f a n k = .ok (m', l)) :
    p m' = p m := by
  unfold Mach.gpaSpan at h
  refine foldl_inv (P := fun r : Except WalkEnd (Mach × List (Nat × Nat)) => ∀ m' l, r = .ok (m', l) → p m' = p m) ?_ _ ?_ m' l h
  · intro r pc hr m' l h
    split at h
    · cases h
    · next m1 l1 =>
      split at h
      · cases h
      · next m2 pa hgpa =>
        cases h
        exact (Mach.gpa_keep p hatomic hgpa).trans (hr m1 l1 rfl)
  · intro m' l h
    cases h
    rfl

include hwrite

/-- A write to guest physical memory keeps what writes of device memory keep. -/
theorem Mach.gpaWrite_keep {m m' : Mach} {f a : Nat} {bs : List Byte} (h : m.gpaWrite f a bs = .ok m') : p m' = p m := by
  unfold Mach.gpaWrite at h
  split at h
  · cases h
  · next m1 l hspan =>
    cases h
    refine (foldl_keep (fun r : Mach × List Byte => p r.1) ?_ l (m1, bs)).trans (Mach.gpaSpan_keep p hatomic hspan)
    exact fun r x => hwrite r.1 _

end

/-- A change of a queue leaves the entries that wait. -/
theorem Mach.waitJ_modQueue (m : Mach) (f q : Nat) (g : Queue → Queue) (k : Nat) : ((m.modQueue f q g).fn k).waitJ = (m.fn k).waitJ :=
  Mach.fn_modFn_keep (g := fun x => x.setQueue q (g (x.queue q))) Fn.waitJ m rfl k

/-- A command's end changes neither the entries that wait nor what lies outside the hub. -/
theorem Mach.waitJ_cmdDone (m : Mach) (f seq : Nat) (st : Byte) (k : Nat) : ((m.cmdDone f seq st).fn k).waitJ = (m.fn k).waitJ := by
  unfold Mach.cmdDone
  dsimp only
  refine (foldl_keep (fun m : Mach => (m.fn k).waitJ) (fun m y => ?_) _ _).trans (Mach.fn_modFn_keep Fn.waitJ m rfl k)
  split
  · split
    · exact Mach.waitJ_modQueue ..
    · rfl
  · rfl

/-- What follows an entry written leaves the entries that wait. -/
theorem Mach.waitJ_written (m : Mach) (f : Nat) (e : JEntry) (k : Nat) : ((m.written f e).fn k).waitJ = (m.fn k).waitJ := by
  have hheld : ((m.modFn f fun x => { x with heldJ := x.heldJ - 1 }).fn k).waitJ = (m.fn k).waitJ := Mach.fn_modFn_keep Fn.waitJ m rfl k
  unfold Mach.written
  dsimp only
  by_cases hwhole : e.whole = true
  · simp only [hwhole, if_true]
    split
    · exact (Mach.waitJ_modQueue ..).trans ((Mach.waitJ_cmdDone ..).trans hheld)
    · exact (Mach.waitJ_cmdDone ..).trans hheld
  · rw [if_neg hwhole, if_neg hwhole]
    split
    · exact Mach.waitJ_modQueue ..
    · rfl

/-- An entry written at JWR leaves the entries that wait. -/
theorem Mach.waitJ_tryEntry {m m' : Mach} {f : Nat} {e : JEntry} (h : m.tryEntry f e = some m') (k : Nat) : (m'.fn k).waitJ = (m.fn k).waitJ := by
  unfold Mach.tryEntry at h
  dsimp only at h
  split at h
  · next m1 hwrite =>
    cases h
    calc _ = _ := Mach.waitJ_written ..
      _ = (m1.fn k).waitJ := Mach.fn_modFn_keep Fn.waitJ m1 rfl k
      _ = (m.fn k).waitJ := by rw [Mach.fn, Mach.fn, Mach.gpaWrite_hub hwrite]
  · cases h

/-- What a change of the hub keeps is kept by what follows an entry written. -/
theorem Mach.written_keep {γ : Type} (p : Mach → γ) (hhub : ∀ (m : Mach) (h : Hub), p { m with hub := h } = p m) (m : Mach) (f : Nat) (e : JEntry) :
    p (m.written f e) = p m := by
  have hq (m : Mach) (q : Nat) (g : Queue → Queue) : p (m.modQueue f q g) = p m := hhub m _
  have hdone (m : Mach) (seq : Nat) (st : Byte) : p (m.cmdDone f seq st) = p m := by
    unfold Mach.cmdDone
    dsimp only
    refine (foldl_keep p (fun m y => ?_) _ _).trans (hhub m _)
    split
    · split
      · exact hq ..
      · rfl
    · rfl
  unfold Mach.written
  dsimp only
  by_cases hwhole : e.whole = true
  · simp only [hwhole, if_true]
    split
    · exact (hq ..).trans ((hdone ..).trans ((hhub ..).trans (hhub m _)))
    · exact (hdone ..).trans ((hhub ..).trans (hhub m _))
  · rw [if_neg hwhole, if_neg hwhole]
    split
    · exact hq ..
    · rfl

/-- An entry written at JWR changes the hub and device memory only. -/
theorem Mach.tryEntry_keep {γ : Type} (p : Mach → γ) (hhub : ∀ (m : Mach) (h : Hub), p { m with hub := h } = p m)
    (hwrite : ∀ m bs, p (Mach.devWrite m bs) = p m) (hatomic : ∀ m bs, p (Mach.devAtomic m bs) = p m)
    {m m' : Mach} {f : Nat} {e : JEntry} (h : m.tryEntry f e = some m') : p m' = p m := by
  unfold Mach.tryEntry at h
  dsimp only at h
  split at h
  · next m1 hw =>
    cases h
    calc p _ = _ := Mach.written_keep p hhub ..
      _ = p m1 := hhub m1 _
      _ = p m := Mach.gpaWrite_keep p hwrite hatomic hw
  · cases h

/-! ### JOURNAL_RETRY (R400) -/

/-- One waiting entry of the retry: written, or, where it or an earlier one cannot be, left. -/
def Mach.retryEntry (f : Nat) (r : Mach × Bool) (e : JEntry) : Mach × Bool :=
  if r.2 then match r.1.tryEntry f e with
    | some m' => (m'.modFn f fun x => { x with waitJ := x.waitJ.drop 1 }, true)
    | none => (r.1.pullJournal f, false)
  else r

/-- JOURNAL_RETRY folds over the entries that wait. -/
theorem exec_journalRetry (s : State) : exec .journalRetry s = .next { s with m :=
    ((s.m.fn s.m.curQ.1).waitJ.foldl (Mach.retryEntry s.m.curQ.1) (s.m, true)).1.modFn s.m.curQ.1 fun x => { x with retryAt := s.m.now + 1400000 } } := rfl

/-- Behind an entry that waits, the others wait too. -/
theorem Mach.foldl_retryEntry_false (f : Nat) (m : Mach) (es : List JEntry) : es.foldl (Mach.retryEntry f) (m, false) = (m, false) := by
  induction es with
  | nil => rfl
  | cons e es ih => exact ih

/-- A function with entries that wait exists. -/
theorem Mach.lt_of_waitJ {m : Mach} {f : Nat} {e : JEntry} {es : List JEntry} (h : (m.fn f).waitJ = e :: es) : f < m.hub.fns.length := by
  by_contra hlt
  rw [Mach.fn, nth, List.getD_eq_default _ _ (Nat.le_of_not_lt hlt)] at h
  cases h

/-- A function whose entries wait still exists after the first is written. -/
theorem Mach.waitJ_retried {m m' : Mach} {f : Nat} {e : JEntry} {es : List JEntry} (hw : (m.fn f).waitJ = e :: es) (h : m.tryEntry f e = some m') :
    ((m'.modFn f fun x => { x with waitJ := x.waitJ.drop 1 }).fn f).waitJ = es := by
  have hw' : (m'.fn f).waitJ = e :: es := (Mach.waitJ_tryEntry h f).trans hw
  rewrite [Mach.fn_modFn m' _ (Mach.lt_of_waitJ hw'), hw']
  rfl

/-- An invalidation is no longer under way. -/
def Mach.dropInv (m : Mach) (seq : Nat) : Mach := { m with hub := { m.hub with invs := m.hub.invs.filter fun x => x.seq != seq } }

/-- INV_S2_COMPLETE of an invalidation that is done (R417). -/
theorem exec_invS2Complete {s : State} {seq : Nat} {v : Inv} (hfind : s.m.hub.invs.find? (fun v => v.seq == seq) = some v)
    (hdone : s.m.invDone v = true) :
    exec (.invS2Complete seq) s = .next { s with m := ((s.m.dropEntries v.fn v.gpa v.pages).dropInv seq).complete v.fn v.queue seq 0 } := by
  show execInvS2Complete seq s = _
  unfold execInvS2Complete
  rw [hfind]
  dsimp only
  rewrite [hdone]
  rfl

/-- JOURNAL_RETRY and INV_S2_COMPLETE (R400, R417). -/
theorem journalAndInvalidationsComplete : Claims.JournalAndInvalidationsComplete := by
  intro s m f later
  have hfirst (e : JEntry) (es : List JEntry) (m' : Mach) (h : m.tryEntry f e = some m') :
      (e :: es).foldl (Mach.retryEntry f) (m, true) =
        es.foldl (Mach.retryEntry f) (m'.modFn f fun x => { x with waitJ := x.waitJ.drop 1 }, true) := by
    rw [List.foldl_cons]
    unfold Mach.retryEntry
    rewrite [if_pos rfl, h]
    rfl
  refine ⟨fun hw => ?_, fun e es hw h => ?_, fun e m' hw h => ?_, fun e es m' hw h => ?_, fun seq v hfind hdone => exec_invS2Complete hfind hdone⟩
  · rewrite [exec_journalRetry, show (s.m.fn s.m.curQ.1).waitJ = _ from hw]
    rfl
  · have hnone : Mach.retryEntry s.m.curQ.1 (s.m, true) e = (s.m.pullJournal f, false) := by
      unfold Mach.retryEntry
      rewrite [if_pos rfl, show s.m.tryEntry s.m.curQ.1 e = none from h]
      rfl
    rw [exec_journalRetry, show (s.m.fn s.m.curQ.1).waitJ = _ from hw, List.foldl_cons, hnone, Mach.foldl_retryEntry_false]
  · rewrite [exec_journalRetry, show (s.m.fn s.m.curQ.1).waitJ = _ from hw, show List.foldl _ (s.m, true) [e] = _ from hfirst e [] m' h]
    rfl
  · have hcur : m'.curQ = s.m.curQ := Mach.tryEntry_keep Mach.curQ (fun _ _ => rfl) (fun _ _ => rfl) (fun _ _ => rfl) h
    have hnow : m'.now = s.m.now := Mach.tryEntry_keep Mach.now (fun _ _ => rfl) (fun _ _ => rfl) (fun _ _ => rfl) h
    rw [exec_journalRetry, exec_journalRetry, show (s.m.fn s.m.curQ.1).waitJ = _ from hw, show List.foldl _ (s.m, true) _ = _ from hfirst e es m' h]
    show _ = Host.Outcome.next { s with m := (((m'.modFn f fun x => { x with waitJ := x.waitJ.drop 1 }).fn m'.curQ.1).waitJ.foldl (Mach.retryEntry m'.curQ.1)
      (m'.modFn f fun x => { x with waitJ := x.waitJ.drop 1 }, true)).1.modFn m'.curQ.1 fun x => { x with retryAt := m'.now + 1400000 } }
    rw [hcur, hnow, show s.m.curQ.1 = f from rfl, Mach.waitJ_retried hw h]

/-! ### Page pulls (R419, R420) -/

/-- Whether a page may be the next to land, as the statement says it. -/
theorem Mach.pullMay_iff (m : Mach) (fn base : Nat) :
    m.pullMay fn base = true ↔ (∃ y ∈ (m.fn fn).pulls, y.1 = base) ∨ ∃ t, (m.fn fn).ownPull = some (base, t) := by
  unfold Mach.pullMay
  simp only [Bool.or_eq_true, List.any_eq_true, beq_iff_eq, Option.any_eq_true, Prod.exists]
  constructor
  · rintro (h | ⟨a, b, hab, rfl⟩)
    · exact .inl h
    · exact .inr ⟨b, hab⟩
  · rintro (h | ⟨t, ht⟩)
    · exact .inl h
    · exact .inr ⟨base, t, ht, rfl⟩

/-- Whether the peer can be reached, as the statement says it. -/
theorem Mach.pullLinked_iff (m : Mach) (f : Nat) (p : Pull) :
    m.pullLinked f p = true ↔ ∀ y, (m.fn f).peers.find? (fun y => y.num == p.peer) = some y → m.liveLinks y ≠ [] := by
  unfold Mach.pullLinked
  cases (m.fn f).peers.find? (fun y => y.num == p.peer) with
  | none => simp
  | some e => simp

/-- PAGE_PULL of a migrating leaf, by whether its page may land (R419). -/
theorem exec_pagePull {s : State} {fn gpa root entry e size : Nat} {p : Pull} (hp : (s.m.fn fn).pull = some p) (hroot : (s.m.fn fn).s2root = some root)
    (hleaf : migratingLeaf s.m.dev gpa 4 0 root = some (entry, e, size)) :
    exec (.pagePull fn gpa) s =
      if !(s.m.pullMay fn (gpa / size * size) && s.m.pullLinked fn p) then .next s
      else
        let m2 := (s.m.devWrite (atAddr (e / 256 % 2 ^ 40 * 256) ((s.m.peerMem p.peer).readBlock (gpa / size * size) size))).devAtomic
          (atAddr entry (leBytes 8 (e - e / 128 % 2 * 128 - e / 64 % 2 * 64)))
        let m3 := m2.modFn fn fun x => { x with pulls := x.pulls.filter (fun y => y.1 != gpa / size * size), retryAt := m2.now }
        .next { s with m := (m3.reloadQueues fn).ownPull fn } := by
  show execPagePull fn gpa s = _
  unfold execPagePull
  dsimp only
  rw [hp, hroot]
  dsimp only
  rewrite [hleaf]
  rfl

/-- The pages that remain to be pulled below a stage-2 table, where there is one. -/
def lostPages (dev : Memory) (root : Option Nat) : List Nat := match root with | some root => migrating dev 4 0 root 0 | none => []

theorem lostPages_eq (dev : Memory) (root : Option Nat) : lostPages dev root = (root.map fun root => migrating dev 4 0 root 0).getD [] := by
  cases root <;> simp only [lostPages, Option.map_some, Option.map_none, Option.getD_some, Option.getD_none]

/-- Page pulls (R419, R420). -/
theorem pagePullsComplete : Claims.PagePullsComplete := by
  intro s fn gpa p hp m
  refine ⟨fun root entry e size hroot hleaf => ?_, ?_⟩
  · intro base m1 m2 m3 asked linked
    have hexec := exec_pagePull hp hroot hleaf
    have hmay : s.m.pullMay fn base = true ↔ asked := s.m.pullMay_iff fn base
    have hlinked : s.m.pullLinked fn p = true ↔ linked := s.m.pullLinked_iff fn p
    refine ⟨fun hasked hlink => ?_, fun hno => ?_⟩
    · refine hexec.trans (if_neg ?_)
      rw [show s.m.pullMay fn _ = true from hmay.mpr hasked, hlinked.mpr hlink]
      decide
    · refine hexec.trans (if_pos ?_)
      rw [Bool.not_eq_true', Bool.and_eq_false_iff]
      exact hno.imp (fun h => Bool.eq_false_iff.mpr fun ht => h (hmay.mp ht)) fun h => Bool.eq_false_iff.mpr fun ht => h (hlinked.mp ht)
  · intro m1 m2 lost room list m3
    have hlost : lost = lostPages m2.dev (m2.fn fn).s2root := (lostPages_eq ..).symm
    have hlist : list = leBytes 8 ((lost.take room).length + (if decide (room < lost.length) then 2 ^ 63 else 0)) ++ (lost.take room).flatMap (leBytes 8) := by
      simp only [list, decide_eq_true_eq]
    show Host.Outcome.next { s with m := s.m.losePulls fn } = _
    unfold Mach.losePulls
    rewrite [show (s.m.fn fn).pull = some p from hp]
    dsimp only
    simp only [m3, hlist, hlost]
    rfl

/-- Settles O39: the waiting entries one at a time, and a page pull by whether it may land. -/
theorem journalAndPagePullsComplete : Obligations.JournalAndPagePullsComplete := by
  unfold Obligations.JournalAndPagePullsComplete
  exact ⟨journalAndInvalidationsComplete, pagePullsComplete⟩

end Sys2Proof.Machine
end

section
/-! PROOF. O55, O59 and O60: the reset state, words written out from the encodings, and what a step runs. -/
namespace Sys2Proof.Machine

/-! ### A step runs what is due -/

/-- A phase that is due where no phase from the machine's on is, before it, is what is due. -/
theorem State.due_of_phase {s : State} {p : Nat} {d : Due} (hp : p < 19) (hfrom : s.m.phase ≤ p)
    (hnone : ∀ k, s.m.phase ≤ k → k < p → s.phaseDue k = none) (hdue : s.phaseDue p = some d) : s.due = some (p, d) := by
  have hsplit : phases = List.range p ++ p :: (List.range (18 - p)).map (p + 1 + ·) := by
    have h19 : 19 = p + 1 + (18 - p) := by omega
    rewrite [phases, h19, List.range_add, List.range_succ, List.append_assoc]
    rfl
  rw [State.due, hsplit, List.findSome?_append, List.findSome?_eq_none_iff.mpr, Option.none_or]
  · rewrite [List.findSome?_cons, if_neg (Nat.not_lt.mpr hfrom), hdue]
    rfl
  · intro k hk
    rw [List.mem_range] at hk
    split
    · rfl
    · next hle => rw [hnone k (Nat.le_of_not_lt hle) hk]; rfl

/-- A stream whose lane is in its queue runs it (R45). -/
theorem Mach.laneDue_of_filled {m : Mach} {core : Nat} {st : Stream} {b : QBlock} {e : DirEntry} {it : LineItem}
    (hstop : (m.core core).stop = none) (hcur : (m.core core).seq.cur = some b) (hentry : (m.core core).seq.entry b.num = some e)
    (hdone : ((m.core core).stream st).doneAt = none) (hfill : 0 < ((m.core core).stream st).fill) (hnext : ((m.core core).stream st).next ≤ m.now)
    (hitem : ((lineItems ((m.core core).seq.lineAt (e.first + ((m.core core).stream st).line))).find? fun y => y.lane == ((m.core core).stream st).lane) = some it) :
    m.laneDue core st = some (.run { m with cur := core } it.instr) := by
  have hat : (m.core core).laneAt ((m.core core).stream st).line ((m.core core).stream st).lane = some it.instr := by
    rewrite [Core.laneAt, hcur, Option.bind_some, hentry, Option.bind_some, hitem]
    rfl
  unfold Mach.laneDue
  dsimp only
  rw [if_pos, hat]
  · rfl
  · simp only [hstop, hcur, hdone, hfill, hnext, Option.isNone_none, Option.isSome_some, decide_true, Bool.and_self]

/-- What the control core fetches from the control store (R152). -/
theorem Core.fetchCtl_of_inside {c : Core} (hlo : 0x01000000 ≤ c.ctl.pc.toNat) (hhi : c.ctl.pc.toNat + 4 ≤ 0x01008000) :
    ∃ n, c.fetchCtl = .ok (n, BitVec.ofNat 32 (c.cstore.value (c.ctl.pc.toNat - 0x01000000)
      (if c.cstore.value (c.ctl.pc.toNat - 0x01000000) 2 % 4 = 3 then 4 else 2))) := by
  have hbase : ¬ c.ctl.pc.toNat < cstoreBase := Nat.not_lt.mpr hlo
  have htop : ¬ cstoreBase + 0x8000 ≤ c.ctl.pc.toNat + 1 := fun h => by
    have : 0x01008000 ≤ c.ctl.pc.toNat + 1 := h
    omega
  have hfour : ¬ cstoreBase + 0x8000 < c.ctl.pc.toNat + 4 := Nat.not_lt.mpr hhi
  unfold Core.fetchCtl
  dsimp only
  rw [if_neg (by simp only [hbase, htop, decide_false, Bool.or_self, Bool.false_eq_true, not_false_eq_true])]
  by_cases hlow : c.cstore.value (c.ctl.pc.toNat - 0x01000000) 2 % 4 = 3
  · exact ⟨4, by rw [if_pos hlow, if_neg (by simpa [cstoreBase] using hlow), if_neg hfour]; rfl⟩
  · exact ⟨2, by rw [if_neg hlow, if_pos (by simpa [cstoreBase] using hlow)]; rfl⟩

/-- A ready control core without an interrupt runs the instruction at its pc (R151). -/
theorem State.controlDue_of_ready {s : State} {core : Nat} {i : Instr} {w : W32} (hready : (s.m.core core).ctlReady s.m.now = true)
    (hirq : (s.m.core core).irq s.m.now = none) (hfetch : ∃ n, (s.m.core core).fetchCtl = .ok (n, w)) (hdec : decodeRv w = some i)
    (hmark : (s.m.core core).fetchMarked = false) : s.controlDue core = some (.run { s.m with cur := core } i) := by
  obtain ⟨n, hfetch⟩ := hfetch
  unfold State.controlDue
  dsimp only
  rw [if_neg (by rw [hready]; decide), hirq]
  dsimp only
  rw [hfetch]
  dsimp only
  rw [if_neg (by rw [hmark]; decide), decodeRvTotal, hdec]

/-- A running queue takes its next step (R378). -/
theorem State.queueDue_of_run {s : State} {f q : Nat} {p : Packet} {w : W32} {i : Instr} (hpkt : (s.m.queue f q).pkt = some p)
    (hpark : (s.m.queue f q).park = none) (hrun : (s.m.queue f q).state = .run) (hwake : (s.m.queue f q).wake ≤ s.m.now)
    (hpaused : (s.m.fn f).paused = false) (hsteps : p.steps < 256) (hcode : (s.m.queue f q).code[p.pc]? = some w)
    (hdec : decodeQueue w = .ok i) : s.queueDue f q = some (.run { s.m with curQ := (f, q) } i) := by
  have hresume : s.m.resumeDue f q = false := by simp [Mach.resumeDue, hpark]
  have hstart : s.m.canStart f q = false := by simp [Mach.canStart, hpkt]
  have hstep : s.m.stepDue f q = true := by simp [Mach.stepDue, hpkt, hpark, hrun, hwake, hpaused]
  unfold State.queueDue
  dsimp only
  rw [if_neg (by rw [hresume]; decide), if_neg (by rw [hstart]; decide), hpkt]
  dsimp only
  rw [if_neg (by rw [hstep]; decide), if_neg (Nat.not_le.mpr hsteps), hcode]
  dsimp only
  rw [hdec]

/-- Settles O60: a step by what is due, and what is due by the place it is fetched from. -/
theorem stepRunsWhatIsDue : Obligations.StepRunsWhatIsDue := by
  unfold Obligations.StepRunsWhatIsDue
  intro s
  refine ⟨fun p m i h => ?_, fun p s' h => ?_, fun h => ?_, fun p d hp hfrom hnone hdue => State.due_of_phase hp hfrom hnone hdue, ?_, ?_, ?_,
    fun t k i hpend htile => ?_⟩
  · rw [step, h]
  · rw [step, h]
  · rw [step, h]
  · intro core st b e it c x hstop hcur hentry hdone hfill hnext hitem
    exact Mach.laneDue_of_filled hstop hcur hentry hdone hfill hnext hitem
  · intro core i w c off hready hirq hlo hhi hw hdec hmark
    exact State.controlDue_of_ready hready hirq (hw ▸ Core.fetchCtl_of_inside hlo hhi) hdec hmark
  · intro f q p w i x hpkt hpark hrun hwake hpaused hsteps hcode hdec
    exact State.queueDue_of_run hpkt hpark hrun hwake hpaused hsteps hcode hdec
  · rw [State.pkgDue, hpend]
    dsimp only
    rw [htile]

/-! ### Words -/

/-- Settles O59: each word decodes to its instruction by evaluation. -/
theorem wordsDecode : Obligations.WordsDecode := by
  unfold Obligations.WordsDecode
  decide

/-! ### Reset -/

/-- A list of one value reads as that value everywhere, where that is the default. -/
theorem nth_replicate {α : Type} (n i : Nat) (a : α) : nth (List.replicate n a) i a = a := by
  by_cases h : i < n
  · exact (List.getD_eq_getElem _ _ (by simpa using h)).trans (List.getElem_replicate ..)
  · exact List.getD_eq_default _ _ (by simpa using Nat.le_of_not_lt h)

@[simp] theorem Mach.reset_core (k : Nat) : Mach.reset.core k = Core.reset := nth_replicate 192 k Core.reset

@[simp] theorem Mach.reset_fn (f : Nat) : Mach.reset.fn f = Fn.reset := nth_replicate 25 f Fn.reset

@[simp] theorem Mach.reset_quad (k : Nat) : nth Mach.reset.quads k Shared.quadReset = Shared.quadReset := nth_replicate 24 k Shared.quadReset

@[simp] theorem Mach.reset_die (k : Nat) : nth Mach.reset.dies k Shared.dieReset = Shared.dieReset := nth_replicate 4 k Shared.dieReset

/-- Every scratchpad is empty at reset. -/
theorem Mach.reset_padMem (p : Pad) : Mach.reset.padMem p = [] := by
  cases p with
  | core k => rw [Mach.padMem, Mach.reset_core]; rfl
  | quad k => rw [Mach.padMem, Mach.reset_quad]; rfl
  | die k => rw [Mach.padMem, Mach.reset_die]; rfl

/-- Every domain is OFF at reset (R121). -/
theorem Mach.reset_dom (d : DomRef) : Mach.reset.dom d = Dom.offDom := by
  cases d with
  | core k b => rw [Mach.dom, Mach.reset_core]; exact nth_replicate 55 b Dom.offDom
  | quad k b => rw [Mach.dom, Mach.reset_quad]; exact nth_replicate 16 b Dom.offDom
  | die k b => rw [Mach.dom, Mach.reset_die]; exact nth_replicate 32 b Dom.offDom

/-- Every queue is at its reset value at reset. -/
theorem Mach.reset_queue (f q : Nat) : Mach.reset.queue f q = Queue.reset := by
  rewrite [Mach.queue, Mach.reset_fn]
  rfl

/-- Settles O55: by the fields of the reset state, whose lists hold one value. -/
theorem resetState : Obligations.ResetState := by
  unfold Obligations.ResetState
  intro m
  have hinv : Claims.inv State.reset :=
    ⟨⟨Memory.wf_nil, Memory.wf_nil, fun p hp => absurd hp List.not_mem_nil⟩, fun b hb => by cases hb⟩
  have hcur : m.cur < m.cores.length := Nat.lt_of_lt_of_eq (Nat.zero_lt_succ 191) List.length_replicate.symm
  have hmie : Ctl.reset.mieBit = false := by decide
  refine ⟨hinv, rfl, rfl, rfl, Mach.reset_padMem, rfl, rfl, rfl, hcur, rfl, fun k => ⟨?_, fun b _ => ?_⟩, fun k b _ => ?_, fun k b _ => ?_,
    fun f q => ?_, fun f => ?_, rfl, rfl, rfl, rfl, rfl, rfl, rfl, fun b => ?_⟩
  · rw [show m.core k = Core.reset from Mach.reset_core k]; rfl
  · rw [show m.dom _ = Dom.offDom from Mach.reset_dom _]; rfl
  · rw [show m.dom _ = Dom.offDom from Mach.reset_dom _]; rfl
  · rw [show m.dom _ = Dom.offDom from Mach.reset_dom _]; rfl
  · rw [show m.queue f q = Queue.reset from Mach.reset_queue f q]; exact ⟨rfl, rfl, rfl, rfl, rfl⟩
  · rw [show m.fn f = Fn.reset from Mach.reset_fn f]; exact ⟨rfl, rfl, rfl, rfl⟩
  · intro c
    refine ⟨fun n => ?_, rfl, fun n => nth_replicate 32 n 0, fun n => nth_replicate 16 n 0, rfl, fun r => ?_, rfl, hmie, rfl, rfl, rfl,
      fun i => nth_replicate 48 i 0, rfl, rfl, rfl, rfl⟩
    · rw [Core.sreg]
      split
      · rfl
      · exact nth_replicate 32 n 0
    · rw [Ctl.xr]
      split
      · rfl
      · exact nth_replicate 32 r.toNat 0

end Sys2Proof.Machine
end

section
/-! PROOF. O49: the frame of the standard instructions of the control core. -/
namespace Sys2Proof.Machine

/-! ### Registers -/

theorem Ctl.xr_setX_other (k : Ctl) {r n : XReg} (v : W64) (h : r ≠ n) : (k.setX r v).xr n = k.xr n := by
  unfold Ctl.setX Ctl.xr
  split
  · rfl
  · split
    · rfl
    · have hne : r.toNat ≠ n.toNat := fun e => h (BitVec.eq_of_toNat_eq e)
      simp [List.getD_eq_getElem?_getD, List.getElem?_set_ne hne]

theorem Ctl.xr_csrWrite (k : Ctl) (n : Nat) (v : W64) (r : XReg) : (k.csrWrite n v).xr r = k.xr r := by
  unfold Ctl.csrWrite
  split <;> rfl

/-! ### What an instruction of the control core may change -/

/-- A core after an instruction that writes the x register `rd` and the bytes `st` of frame memory at most. -/
def Core.RvFrame (c : Core) (rd : Option XReg) (st : Option (Nat × Nat)) (d : Core) : Prop :=
  (∀ n, rd ≠ some n → d.ctl.xr n = c.ctl.xr n) ∧
  (∀ a, (∀ b n, st = some (b, n) → a < b ∨ b + n ≤ a) → d.frame.read a = c.frame.read a) ∧
  { d with ctl := c.ctl, frame := c.frame } = c

/-- A machine whose core being served is changed so, and nothing else. -/
def Mach.RvFrame (m : Mach) (rd : Option XReg) (st : Option (Nat × Nat)) (m' : Mach) : Prop :=
  ∃ d, m' = m.setCore m.cur d ∧ m.me.RvFrame rd st d

/-- An end of an instruction that is framed so. -/
def CtlOut.RvFrame (m : Mach) (rd : Option XReg) (st : Option (Nat × Nat)) : CtlOut → Prop
  | .done m' _ _ => m.RvFrame rd st m'
  | .wait m' => m.RvFrame rd st m'
  | .except _ _ => True

theorem Core.RvFrame.refl (c : Core) (rd : Option XReg) (st : Option (Nat × Nat)) : c.RvFrame rd st c :=
  ⟨fun _ _ => rfl, fun _ _ => rfl, rfl⟩

theorem Mach.RvFrame.refl (m : Mach) (rd : Option XReg) (st : Option (Nat × Nat)) : m.RvFrame rd st m :=
  ⟨m.me, (Mach.modCore_eq_self (f := id) rfl).symm, .refl ..⟩

/-- A change of the control core that writes no other x register. -/
theorem Core.RvFrame.ctl {c d : Core} {rd : Option XReg} {st : Option (Nat × Nat)} (h : c.RvFrame rd st d) {f : Ctl → Ctl}
    (hf : ∀ k n, rd ≠ some n → (f k).xr n = k.xr n) : c.RvFrame rd st { d with ctl := f d.ctl } := by
  obtain ⟨hreg, hframe, hrest⟩ := h
  exact ⟨fun n hn => (hf _ n hn).trans (hreg n hn), hframe, hrest⟩

theorem Mach.RvFrame.modCtl {m m' : Mach} {rd : Option XReg} {st : Option (Nat × Nat)} (h : m.RvFrame rd st m') {f : Ctl → Ctl}
    (hf : ∀ k n, rd ≠ some n → (f k).xr n = k.xr n) : m.RvFrame rd st (m'.modCtl f) := by
  obtain ⟨d, rfl, hd⟩ := h
  refine ⟨{ d with ctl := f d.ctl }, ?_, hd.ctl hf⟩
  by_cases hcur : m.cur < m.cores.length
  · exact Mach.modCore_modCore m m.cur (fun _ => d) (fun c => { c with ctl := f c.ctl }) hcur
  · have hout (c : Core) (m : Mach) (n : Nat) (h : ¬ n < m.cores.length) : m.setCore n c = m := by
      rw [Mach.setCore, List.set_eq_of_length_le (Nat.le_of_not_lt h)]
    rw [hout d m m.cur hcur, hout _ m m.cur hcur]
    exact hout _ m m.cur hcur

/-- A result in rd writes no other x register. -/
theorem Mach.RvFrame.put {m m' : Mach} {rd : XReg} {st : Option (Nat × Nat)} (h : m.RvFrame (some rd) st m') (v : Ctl → W64) :
    m.RvFrame (some rd) st (m'.modCtl fun k => k.setX rd (v k)) :=
  h.modCtl fun k _ hn => k.xr_setX_other (v k) fun e => hn (congrArg some e)

@[simp] theorem length_leBytes (n v : Nat) : (leBytes n v).length = n := by
  induction n generalizing v with
  | zero => rfl
  | succ n ih => rw [leBytes, List.length_cons, ih]

/-- A store of the control core writes its bytes of frame memory only. -/
theorem Mach.RvFrame.store {m : Mach} {a n v : Nat} {c' : Core} (rd : Option XReg) (h : m.me.ctlStore a n v = .ok c') :
    m.RvFrame rd (some (a, n)) (m.setCore m.cur c') := by
  refine ⟨c', rfl, ?_⟩
  unfold Core.ctlStore at h
  split at h
  · cases h
  · split at h
    · cases h
      refine ⟨fun _ _ => rfl, fun x hx => ?_, rfl⟩
      rw [Memory.read_writeBlock, if_neg]
      rintro ⟨hlo, hhi⟩
      rw [length_leBytes] at hhi
      rcases hx a n rfl with h | h
      · exact Nat.not_lt.mpr hlo h
      · exact Nat.not_lt.mpr h hhi
    · cases h

/-! ### The instructions -/

/-- A CSR instruction reads the old value into rd and writes no other x register. -/
theorem csrOut_framed (m : Mach) (op : CsrOp) (rd : XReg) (src : CsrSrc) (old : W64) {write : Ctl → W64 → Ctl}
    (hw : ∀ k v r, (write k v).xr r = k.xr r) : (csrOut m op rd src old write).RvFrame m (some rd) none := by
  refine Mach.RvFrame.modCtl (.refl ..) fun k n hn => ?_
  rw [Ctl.xr_setX_other _ _ fun e => hn (congrArg some e)]
  split
  · exact hw ..
  · rfl

/-- A standard instruction is framed by its rd and the bytes it stores to. -/
theorem rvOut_framed (op : Rv) (len : Nat) (m : Mach) :
    (rvOut op len m).RvFrame m (Claims.rvDest op) (Claims.rvStored m.me.ctl op) := by
  have put (rd : XReg) (v : Ctl → W64) (next : W64) (n : Nat) : (CtlOut.done (m.modCtl fun k => k.setX rd (v k)) next n).RvFrame m (some rd) none :=
    Mach.RvFrame.put (.refl ..) v
  have still (rd : Option XReg) (st : Option (Nat × Nat)) (next : W64) (n : Nat) : (CtlOut.done m next n).RvFrame m rd st := Mach.RvFrame.refl ..
  cases op with
  | lui rd imm => exact put rd (fun _ => _) _ _
  | auipc rd imm => exact put rd (fun _ => _) _ _
  | jal rd off => exact put rd (fun k => k.pc + BitVec.ofNat 64 len) _ _
  | jalr rd rs1 imm => exact put rd (fun k => k.pc + BitVec.ofNat 64 len) _ _
  | branch b rs1 rs2 off =>
    show CtlOut.RvFrame m none none (if _ then _ else _)
    split
    · exact still ..
    · exact still ..
  | load wd sg rd rs1 imm =>
    unfold rvOut
    dsimp only
    split
    · exact put rd (fun _ => _) _ _
    · trivial
  | store wd rs1 rs2 imm =>
    unfold rvOut
    dsimp only
    split
    next c' hstore => exact Mach.RvFrame.store none hstore
    · trivial
  | aluImm op rd rs1 imm => exact put rd (fun _ => _) _ _
  | aluImmW op rd rs1 imm => exact put rd (fun _ => _) _ _
  | alu op rd rs1 rs2 => exact put rd (fun _ => _) _ _
  | aluW op rd rs1 rs2 => exact put rd (fun _ => _) _ _
  | mul op rd rs1 rs2 => exact put rd (fun _ => _) _ _
  | mulW op rd rs1 rs2 => exact put rd (fun _ => _) _ _
  | lr w64 aq rl rd rs1 =>
    unfold rvOut
    dsimp only
    split
    · exact Mach.RvFrame.modCtl (.refl ..) fun k _ hn => k.xr_setX_other _ fun e => hn (congrArg some e)
    · trivial
  | sc w64 aq rl rd rs1 rs2 =>
    unfold rvOut
    dsimp only
    split
    next c' hstore =>
      refine Mach.RvFrame.modCtl ?_ fun k _ hn => k.xr_setX_other _ fun e => hn (congrArg some e)
      split
      · exact Mach.RvFrame.store (some rd) hstore
      · exact .refl ..
    · trivial
  | amo op w64 aq rl rd rs1 rs2 =>
    unfold rvOut
    dsimp only
    split
    next c' hstore => exact Mach.RvFrame.put (Mach.RvFrame.store (some rd) hstore) fun _ => _
    · trivial
  | fence => exact still ..
  | fenceI => exact still ..
  | ecall => trivial
  | ebreak => trivial
  | csr op rd src num =>
    unfold rvOut
    dsimp only
    split
    · split
      · trivial
      · exact csrOut_framed m op rd src _ fun k v r => k.xr_csrWrite num.toNat v r
    · trivial
  | mret => exact Mach.RvFrame.modCtl (.refl ..) fun _ _ _ => rfl
  | wfi =>
    unfold rvOut
    dsimp only
    split
    · exact still ..
    · exact Mach.RvFrame.modCtl (.refl ..) fun _ _ _ => rfl
  | illegal w => trivial

/-- The end of an instruction writes the pc and the state of the control core beside its x registers. -/
theorem runCtl_framed {body : Mach → CtlOut} {s t : State} {rd : Option XReg} {st : Option (Nat × Nat)} (h : (body s.m).RvFrame s.m rd st)
    (hnext : runCtl body s = .next t) : s.m.RvFrame rd st t.m := by
  unfold runCtl at hnext
  split at hnext
  next m next n hbody =>
    rw [hbody] at h
    cases hnext
    dsimp only
    refine Mach.RvFrame.modCtl h ?_
    exact fun _ _ _ => rfl
  next k v hbody =>
    cases hnext
    dsimp only
    refine Mach.RvFrame.modCtl (.refl ..) ?_
    exact fun _ _ _ => rfl
  next m hbody =>
    rw [hbody] at h
    cases hnext
    dsimp only
    refine Mach.RvFrame.modCtl h ?_
    exact fun _ _ _ => rfl

/-- Settles O49: every standard instruction is framed by its rd and the bytes it stores to. -/
theorem controlCoreFrame : Obligations.ControlCoreFrame := by
  unfold Obligations.ControlCoreFrame
  intro s t i hnext c d
  obtain ⟨x, hm, hx⟩ := runCtl_framed (rvOut_framed i.op (if i.short then 2 else 4) s.m) (show runCtl _ s = .next t from hnext)
  have hd : s.m.me.RvFrame (Claims.rvDest i.op) (Claims.rvStored s.m.me.ctl i.op) d := by
    have hcur : t.m.cur = s.m.cur := by rw [hm, Mach.setCore_cur]
    show s.m.me.RvFrame _ _ (t.m.core t.m.cur)
    rw [hcur, hm]
    by_cases hlt : s.m.cur < s.m.cores.length
    · rw [Mach.core_setCore _ _ hlt]
      exact hx
    · rw [Mach.setCore, List.set_eq_of_length_le (Nat.le_of_not_lt hlt)]
      exact .refl ..
  obtain ⟨hreg, hframe, hrest⟩ := hd
  have hfield {γ : Type} (p : Core → γ) (hp : ∀ x : Core, p { x with ctl := c.ctl, frame := c.frame } = p x) : p d = p c :=
    (hp d).symm.trans (congrArg p hrest)
  refine ⟨hreg, rfl, hframe, fun k hk => by rw [hm, Mach.core_setCore_other _ _ hk], hfield _ fun _ => rfl, hfield _ fun _ => rfl,
    hfield _ fun _ => rfl, hfield _ fun _ => rfl, hfield _ fun _ => rfl, hfield _ fun _ => rfl, hfield _ fun _ => rfl, hfield _ fun _ => rfl,
    hfield _ fun _ => rfl, hfield _ fun _ => rfl, hfield _ fun _ => rfl, hfield _ fun _ => rfl, hfield _ fun _ => rfl, hfield _ fun _ => rfl, ?_⟩
  rw [hm]
  exact ⟨rfl, rfl, rfl, rfl, rfl, rfl, rfl⟩

end Sys2Proof.Machine
end

section
/-! PROOF. O40 and O41: mailbox commands, LAYOUT, SAVE and RESTORE. -/
namespace Sys2Proof.Machine

/-! ### A mailbox command of one step (R402, R403) -/

/-- What a command answers on a block in order: BADARG, or what it does. -/
def mbAnswer (m : Mach) (ok : Bool) (r : Except Nat Mach) : Nat × Mach :=
  if ok then match r with | .ok m' => (0, m') | .error st => (st, m) else (1, m)

theorem mbAnswer_bad {m : Mach} {ok : Bool} {r : Except Nat Mach} (h : ok = false) : mbAnswer m ok r = (1, m) := by rw [h]; rfl

theorem mbAnswer_error {m : Mach} {ok : Bool} {r : Except Nat Mach} {st : Nat} (h : ok = true) (hr : r = .error st) :
    mbAnswer m ok r = (st, m) := by rw [h, hr]; rfl

theorem mbAnswer_ok {m m' : Mach} {ok : Bool} {r : Except Nat Mach} (h : ok = true) (hr : r = .ok m') : mbAnswer m ok r = (0, m') := by rw [h, hr]; rfl

/-- A command that is due ends with BADARG on a block out of order, and with its answer on one in order. -/
theorem mbCommand_due {code : Nat} {fields : List (Nat × Nat)} {ok : Mach → List Byte → Bool} {run : Mach → List Byte → Except Nat Mach} {s : State}
    (hdue : s.m.mbDue code = true) :
    (s.m.mbBlockOk fields = true → ∀ a, mbAnswer s.m (ok s.m s.m.mbArgs) (run s.m s.m.mbArgs) = a → mbCommand code fields ok run s = .next { s with m := a.2.mbEnd a.1 }) ∧
    (s.m.mbBlockOk fields = false → mbCommand code fields ok run s = .next { s with m := s.m.mbEnd 1 }) := by
  unfold mbCommand
  dsimp only
  rw [hdue, if_neg (by decide : ¬ (!true) = true)]
  refine ⟨fun hblock a ha => ?_, fun hblock => ?_⟩
  · rw [hblock, Bool.true_and, ← ha]
    cases ok s.m s.m.mbArgs with
    | false => rfl
    | true =>
      cases run s.m s.m.mbArgs <;> rfl
  · rewrite [hblock]
    rfl

/-- Every row of the table is a command of one step, which answers what the row says. -/
theorem mailbox_answers {m m' : Mach} {a : List Byte} {i : Instr} {code status : Nat} {fields : List (Nat × Nat)} {ok : Prop}
    (hmem : (i, code, fields, ok, status, m') ∈ Claims.mailbox m a) :
    ∃ okB run, (∀ s, exec i s = mbCommand code fields okB run s) ∧ (ok → mbAnswer m (okB m a) (run m a) = (status, m')) := by
  simp only [Claims.mailbox, List.mem_cons, Prod.mk.injEq, List.not_mem_nil, or_false] at hmem
  rcases hmem with ⟨rfl, rfl, rfl, rfl, rfl, rfl⟩ | ⟨rfl, rfl, rfl, rfl, rfl, rfl⟩ | ⟨rfl, rfl, rfl, rfl, rfl, rfl⟩ | ⟨rfl, rfl, rfl, rfl, rfl, rfl⟩ |
    ⟨rfl, rfl, rfl, rfl, rfl, rfl⟩ | ⟨rfl, rfl, rfl, rfl, rfl, rfl⟩ | ⟨rfl, rfl, rfl, rfl, rfl, rfl⟩ | ⟨rfl, rfl, rfl, rfl, rfl, rfl⟩ |
    ⟨rfl, rfl, rfl, rfl, rfl, rfl⟩ | ⟨rfl, rfl, rfl, rfl, rfl, rfl⟩ | ⟨rfl, rfl, rfl, rfl, rfl, rfl⟩ | ⟨rfl, rfl, rfl, rfl, rfl, rfl⟩ |
    ⟨rfl, rfl, rfl, rfl, rfl, rfl⟩ | ⟨rfl, rfl, rfl, rfl, rfl, rfl⟩ | ⟨rfl, rfl, rfl, rfl, rfl, rfl⟩ | ⟨rfl, rfl, rfl, rfl, rfl, rfl⟩ |
    ⟨rfl, rfl, rfl, rfl, rfl, rfl⟩ | ⟨rfl, rfl, rfl, rfl, rfl, rfl⟩ | ⟨rfl, rfl, rfl, rfl, rfl, rfl⟩ | ⟨rfl, rfl, rfl, rfl, rfl, rfl⟩ |
    ⟨rfl, rfl, rfl, rfl, rfl, rfl⟩
  · refine ⟨_, _, fun s => by change execMbRelease s = _; unfold execMbRelease; rfl, fun h => ?_⟩
    exact mbAnswer_ok (decide_eq_true h.1) (if_pos h.2)
  · refine ⟨_, _, fun s => by change execMbRelease s = _; unfold execMbRelease; rfl, fun h => ?_⟩
    exact mbAnswer_error (decide_eq_true h.1) (if_neg (Bool.eq_false_iff.mp h.2))
  · refine ⟨_, _, fun s => by change execMbRelease s = _; unfold execMbRelease; rfl, fun h => ?_⟩
    exact mbAnswer_bad (decide_eq_false (Nat.not_lt.mpr h))
  · refine ⟨_, _, fun s => by change execMbS2root s = _; unfold execMbS2root; rfl, fun h => ?_⟩
    refine mbAnswer_bad (Bool.eq_false_iff.mpr fun hok => ?_)
    simp only [Bool.and_eq_true, decide_eq_true_eq, beq_iff_eq] at hok
    omega
  · refine ⟨_, _, fun s => by change execMbCodekey s = _; unfold execMbCodekey; rfl, fun h => ?_⟩
    exact mbAnswer_bad (decide_eq_false (Nat.not_lt.mpr h))
  · refine ⟨_, _, fun s => by change execMbHostwin s = _; unfold execMbHostwin; rfl, fun h => ?_⟩
    refine mbAnswer_bad (Bool.eq_false_iff.mpr fun hok => ?_)
    simp only [Bool.and_eq_true, decide_eq_true_eq] at hok
    omega
  · refine ⟨_, _, fun s => by change execMbPeer s = _; unfold execMbPeer; rfl, fun h => ?_⟩
    refine mbAnswer_bad (Bool.eq_false_iff.mpr fun hok => ?_)
    simp only [Bool.and_eq_true, decide_eq_true_eq] at hok
    omega
  · refine ⟨_, _, fun s => by change execMbPolicy s = _; unfold execMbPolicy; rfl, fun h => ?_⟩
    exact mbAnswer_bad h
  · refine ⟨_, _, fun s => by change execMbFwact s = _; unfold execMbFwact; rfl, fun h => ?_⟩
    exact mbAnswer_bad (decide_eq_false (Nat.not_lt.mpr h))
  · refine ⟨_, _, fun s => by change execMbAttest s = _; unfold execMbAttest; rfl, fun h => ?_⟩
    refine mbAnswer_bad (Bool.eq_false_iff.mpr fun hok => ?_)
    simp only [Bool.and_eq_true, decide_eq_true_eq] at hok
    omega
  · refine ⟨_, _, fun s => by change execMbS2root s = _; unfold execMbS2root; rfl, fun h => ?_⟩
    obtain ⟨hf, hw, hpage, hbound⟩ := h
    refine mbAnswer_ok ?_ (if_neg (Bool.eq_false_iff.mp hbound))
    simp only [Bool.and_eq_true, decide_eq_true_eq, beq_iff_eq]
    exact ⟨⟨hf, hw⟩, hpage⟩
  · refine ⟨_, _, fun s => by change execMbS2root s = _; unfold execMbS2root; rfl, fun h => ?_⟩
    obtain ⟨hf, hw, hpage, hbound⟩ := h
    refine mbAnswer_error ?_ (if_pos hbound)
    simp only [Bool.and_eq_true, decide_eq_true_eq, beq_iff_eq]
    exact ⟨⟨hf, hw⟩, hpage⟩
  · refine ⟨_, _, fun s => by change execMbCodekey s = _; unfold execMbCodekey; rfl, fun h => ?_⟩
    exact mbAnswer_ok (decide_eq_true h) rfl
  · refine ⟨_, _, fun s => by change execMbHostwin s = _; unfold execMbHostwin; rfl, fun h => ?_⟩
    obtain ⟨hf, hnum, hflags⟩ := h
    refine mbAnswer_ok ?_ rfl
    simp only [Bool.and_eq_true, decide_eq_true_eq]
    exact ⟨⟨hf, hnum⟩, hflags⟩
  · refine ⟨_, _, fun s => by change execMbPeer s = _; unfold execMbPeer; rfl, fun h => ?_⟩
    obtain ⟨hf, hnum, hlinks, hctx⟩ := h
    refine mbAnswer_ok ?_ rfl
    simp only [Bool.and_eq_true, decide_eq_true_eq]
    exact ⟨⟨⟨hf, hnum⟩, hlinks⟩, hctx⟩
  · refine ⟨_, _, fun s => by change execMbPolicy s = _; unfold execMbPolicy; rfl, fun h => ?_⟩
    exact mbAnswer_ok h rfl
  · refine ⟨_, _, fun s => by change execMbFwact s = _; unfold execMbFwact; rfl, fun h => ?_⟩
    obtain ⟨hat, hsign⟩ := h
    refine mbAnswer_error (decide_eq_true hat) (if_pos ?_)
    rw [Bool.not_eq_true', Bool.eq_false_iff]
    exact hsign
  · refine ⟨_, _, fun s => by change execMbFwact s = _; unfold execMbFwact; rfl, fun h => ?_⟩
    obtain ⟨hat, hsign, hsvn⟩ := h
    refine mbAnswer_error (decide_eq_true hat) ((if_neg ?_).trans (if_pos hsvn))
    rw [Bool.not_eq_true', Bool.not_eq_false]
    exact hsign
  · refine ⟨_, _, fun s => by change execMbFwact s = _; unfold execMbFwact; rfl, fun h => ?_⟩
    obtain ⟨hat, hsign, hsvn, hstale⟩ := h
    refine mbAnswer_error (decide_eq_true hat) ((if_neg ?_).trans ((if_neg (Nat.not_lt.mpr hsvn)).trans (if_pos ?_)))
    · rw [Bool.not_eq_true', Bool.not_eq_false]
      exact hsign
    · simpa only [List.any_eq_true, Bool.and_eq_true, Bool.or_eq_true, decide_eq_true_eq] using hstale
  · refine ⟨_, _, fun s => by change execMbFwact s = _; unfold execMbFwact; rfl, fun h => ?_⟩
    obtain ⟨hat, hsign, hsvn, hstale⟩ := h
    refine mbAnswer_ok (decide_eq_true hat) ((if_neg ?_).trans ((if_neg (Nat.not_lt.mpr hsvn)).trans (if_neg ?_)))
    · rw [Bool.not_eq_true', Bool.not_eq_false]
      exact hsign
    · simpa only [List.any_eq_true, Bool.and_eq_true, Bool.or_eq_true, decide_eq_true_eq] using hstale
  · refine ⟨_, _, fun s => by change execMbAttest s = _; unfold execMbAttest; rfl, fun h => ?_⟩
    obtain ⟨hf, hw⟩ := h
    refine mbAnswer_ok ?_ ?_
    · simp only [Bool.and_eq_true, decide_eq_true_eq]
      exact ⟨hf, hw⟩
    · cases (m.fn (field a 0 8)).key <;> rfl

/-- Settles O40: every command of the table is due, and answers what its row says. -/
theorem mailboxCommandsComplete : Obligations.MailboxCommandsComplete := by
  unfold Obligations.MailboxCommandsComplete
  intro s i code fields ok status m' hmem hdue
  obtain ⟨okB, run, hexec, hans⟩ := mailbox_answers hmem
  obtain ⟨hgood, hbad⟩ := mbCommand_due (fields := fields) (ok := okB) (run := run) hdue
  rw [hexec s]
  exact ⟨fun hblock hok => hgood hblock (status, m') (hans hok), hbad⟩

/-! ### LAYOUT (R404, R405) -/

/-- LAYOUT where a step of it is due, by its phase. -/
theorem exec_mbLayout {s : State} (hdue : s.m.mbDue 1 = true) :
    exec .mbLayout s = match s.m.mgmt.laying with
      | some r => if s.m.mgmt.flipped then .next { s with m := (s.m.layoutCommit r).mbEnd 0 } else .next { s with m := s.m.layoutFlip.mbNext }
      | none =>
        if !(s.m.mbBlockOk [(0, 8)] && decide (field s.m.mbArgs 0 8 < 2 ^ 48) && s.m.layoutOk (s.m.sys.readBlock (field s.m.mbArgs 0 8) 512)) then
          .next { s with m := s.m.mbEnd 1 }
        else if s.m.layoutInUse (layoutOf (s.m.sys.readBlock (field s.m.mbArgs 0 8) 512)) then .next { s with m := s.m.mbEnd 2 }
        else .next { s with m := (s.m.layoutPrepare (s.m.sys.readBlock (field s.m.mbArgs 0 8) 512)).mbNext } := by
  show execMbLayout s = _
  unfold execMbLayout
  dsimp only
  rewrite [hdue]
  rfl

/-- LAYOUT answers as the statement says. -/
theorem layoutCompletes {s : State} (hdue : s.m.mbDue 1 = true) :
    let m := s.m
    let a := m.mbArgs
    let r := m.sys.readBlock (field a 0 8) 512
    let ok := m.mbBlockOk [(0, 8)] = true ∧ field a 0 8 < 2 ^ 48 ∧ m.layoutOk r = true
    (m.mgmt.laying = none → ¬ ok → exec .mbLayout s = .next { s with m := m.mbEnd 1 }) ∧
    (m.mgmt.laying = none → ok → m.layoutInUse (layoutOf r) = true → exec .mbLayout s = .next { s with m := m.mbEnd 2 }) ∧
    (m.mgmt.laying = none → ok → m.layoutInUse (layoutOf r) = false → exec .mbLayout s = .next { s with m := (m.layoutPrepare r).mbNext }) ∧
    (∀ l, m.mgmt.laying = some l →
      (m.mgmt.flipped = false → exec .mbLayout s = .next { s with m := m.layoutFlip.mbNext }) ∧
      (m.mgmt.flipped = true → exec .mbLayout s = .next { s with m := (m.layoutCommit l).mbEnd 0 })) := by
  intro m a r ok
  have hok : (s.m.mbBlockOk [(0, 8)] && decide (field s.m.mbArgs 0 8 < 2 ^ 48) && s.m.layoutOk (s.m.sys.readBlock (field s.m.mbArgs 0 8) 512)) = true ↔ ok := by
    rw [Bool.and_eq_true, Bool.and_eq_true, decide_eq_true_eq, and_assoc]
  rw [exec_mbLayout hdue]
  refine ⟨fun hl hno => ?_, fun hl hgood huse => ?_, fun hl hgood huse => ?_, fun l hl => ⟨fun hf => ?_, fun hf => ?_⟩⟩
  all_goals rw [show s.m.mgmt.laying = _ from hl]
  · refine if_pos ?_
    rw [Bool.not_eq_true', Bool.eq_false_iff]
    exact fun h => hno (hok.mp h)
  · exact (if_neg (by rw [hok.mpr hgood]; decide)).trans (if_pos huse)
  · exact (if_neg (by rw [hok.mpr hgood]; decide)).trans (if_neg (Bool.eq_false_iff.mp huse))
  · exact if_neg (Bool.eq_false_iff.mp hf)
  · exact if_pos hf

/-! ### SAVE (R413) -/

/-- The image that SAVE registers of a function. -/
def Mach.savedImage (m : Mach) (f area : Nat) (bs : List Byte) : SaveImage :=
  { area := area, fn := f, ver := m.mgmt.reads.2, shape := m.shapeOf f, bytes := bs, reg := true, spoilt := false, func := m.fn f,
    tasks := (m.fnTasks f).map fun t => { t with preempt := none } }

/-- The machine once SAVE has written and registered an image: the tasks of the function are in it. -/
def Mach.saveOut (m : Mach) (f area : Nat) (bs : List Byte) : Mach :=
  ((Mach.devWrite { m with free := m.free + 1, hub := { m.hub with tasks := m.hub.tasks.filter fun t => t.fn != f } } (atAddr area bs)).modMgmt
    fun g => { g with images := g.images ++ [m.savedImage f area bs] }).mbEnd 0

/-- SAVE where a step of it is due, for the function, area, length and bytes. -/
theorem exec_mbSave {s : State} {f area len : Nat} {bs : List Byte} (hdue : s.m.mbDue 2 = true) (hf : field s.m.mbArgs 0 8 = f)
    (harea : field s.m.mbArgs 8 8 = area) (hlen : field s.m.mbArgs 16 8 = len)
    (hbs : saveBytes s.m.mgmt.reads.2 f (s.m.shapeOf f) (s.m.fnTasks f).length (Config.saveBody (Config.freeNat s.m.free)) = bs) :
    exec .mbSave s =
      if !(s.m.mbBlockOk [(0, 8), (8, 8), (16, 8)] && decide (f < 25) && decide (area + len ≤ 2 ^ 48)) then .next { s with m := s.m.mbEnd 1 }
      else if !(s.m.fn f).paused || s.m.fnBound f then .next { s with m := (s.m.pause f).mbNext }
      else if len < bs.length then .next { s with m := (s.m.modFn f fun x => { x with paused := false }).mbEnd 3 }
      else .next { s with m := s.m.saveOut f area bs } := by
  subst hbs hlen harea hf
  show execMbSave s = _
  unfold execMbSave
  dsimp only
  rewrite [hdue]
  rfl

/-- SAVE answers as the statement says. -/
theorem saveCompletes {s : State} {f area len : Nat} {bs : List Byte} (hdue : s.m.mbDue 2 = true) (hf : field s.m.mbArgs 0 8 = f)
    (harea : field s.m.mbArgs 8 8 = area) (hlen : field s.m.mbArgs 16 8 = len)
    (hbs : saveBytes s.m.mgmt.reads.2 f (s.m.shapeOf f) (s.m.fnTasks f).length (Config.saveBody (Config.freeNat s.m.free)) = bs) :
    let ok := s.m.mbBlockOk [(0, 8), (8, 8), (16, 8)] = true ∧ f < 25 ∧ area + len ≤ 2 ^ 48
    (¬ ok → exec .mbSave s = .next { s with m := s.m.mbEnd 1 }) ∧
    (ok → (s.m.fn f).paused = false ∨ s.m.fnBound f = true → exec .mbSave s = .next { s with m := (s.m.pause f).mbNext }) ∧
    (ok → (s.m.fn f).paused = true → s.m.fnBound f = false →
      (len < bs.length → exec .mbSave s = .next { s with m := (s.m.modFn f fun x => { x with paused := false }).mbEnd 3 }) ∧
      (bs.length ≤ len → exec .mbSave s = .next { s with m := s.m.saveOut f area bs })) := by
  intro ok
  have hok : (s.m.mbBlockOk [(0, 8), (8, 8), (16, 8)] && decide (f < 25) && decide (area + len ≤ 2 ^ 48)) = true ↔ ok := by
    rw [Bool.and_eq_true, Bool.and_eq_true, decide_eq_true_eq, decide_eq_true_eq, and_assoc]
  rw [exec_mbSave hdue hf harea hlen hbs]
  refine ⟨fun hno => if_pos ?_, fun hgood hwait => ?_, fun hgood hpaused hbound => ⟨fun hlt => ?_, fun hle => ?_⟩⟩
  · rw [Bool.not_eq_true', Bool.eq_false_iff]
    exact fun h => hno (hok.mp h)
  all_goals rw [if_neg (by rw [hok.mpr hgood]; decide)]
  · refine if_pos ?_
    rw [Bool.or_eq_true, Bool.not_eq_true']
    exact hwait
  all_goals rw [if_neg (by rw [hpaused, hbound]; decide)]
  · exact if_pos hlt
  · exact if_neg (Nat.not_lt.mpr hle)

/-! ### RESTORE (R414) -/

/-- The pulls that a RESTORE in post-copy mode sets up. -/
def Mach.restorePull (m : Mach) (a : List Byte) : Option Pull :=
  if field a 0x10 8 = 0xFFFF then none
  else some ⟨field a 0x10 8, field a 0x18 8, field a 0x20 8, field a 0x28 8, (bits m.mgmt.mbcmd 16 12).toNat⟩

/-- The machine that takes over what an image holds of a function, for the pulls. -/
def Mach.takeOver (m : Mach) (f : Nat) (im : SaveImage) (pull : Option Pull) : Mach :=
  let m1 := m.modFn f fun _ => { im.func with
    s2root := (m.fn f).s2root, key := (m.fn f).key, hostWins := (m.fn f).hostWins, peers := (m.fn f).peers, paused := false, pull := pull, pulls := []
    ownPull := none }
  let m2 : Mach := { m1 with hub := { m1.hub with tasks := m1.hub.tasks ++ m1.carryTasks f im.tasks } }
  (m2.modMgmt fun g => { g with images := g.images.map fun x => if x == im then { x with reg := false } else x }).ownPull f

/-- What RESTORE checks of its arguments. -/
def restoreArgs (a : List Byte) : Bool :=
  field a 0 8 < 25 && field a 8 8 < 2 ^ 48 && (field a 0x10 8 < 4096 || field a 0x10 8 == 0xFFFF) && field a 0x20 8 + field a 0x28 8 ≤ 2 ^ 48

/-- What RESTORE does with a block in order. -/
def restoreRun (m : Mach) (a : List Byte) : Except Nat Mach :=
  match m.imageAt (field a 8 8) with
  | none => .error 8
  | some im =>
    if im.ver < m.mgmt.reads.1 || m.mgmt.reads.2 < im.ver then .error 1
    else if im.shape != m.shapeOf (field a 0 8) then .error 7
    else if !(m.fnTasks (field a 0 8)).isEmpty then .error 2
    else .ok (m.takeOver (field a 0 8) im (m.restorePull a))

/-- RESTORE is a mailbox command of one step. -/
theorem exec_mbRestore (s : State) :
    exec .mbRestore s = mbCommand 3 [(0, 8), (8, 8), (16, 8), (24, 8), (32, 8), (40, 8)] (fun _ a => restoreArgs a) restoreRun s := by
  show execMbRestore s = _
  unfold execMbRestore
  rfl

theorem restoreArgs_iff (a : List Byte) :
    restoreArgs a = true ↔ field a 0 8 < 25 ∧ field a 8 8 < 2 ^ 48 ∧ (field a 0x10 8 < 4096 ∨ field a 0x10 8 = 0xFFFF) ∧
      field a 0x20 8 + field a 0x28 8 ≤ 2 ^ 48 := by
  simp only [restoreArgs, Bool.and_eq_true, Bool.or_eq_true, decide_eq_true_eq, beq_iff_eq, and_assoc]

/-- RESTORE of an image that is there, by its checks. -/
theorem restoreRun_image {m : Mach} {a : List Byte} {im : SaveImage} (him : m.imageAt (field a 8 8) = some im) :
    let read := m.mgmt.reads.1 ≤ im.ver ∧ im.ver ≤ m.mgmt.reads.2
    let f := field a 0 8
    (¬ read → restoreRun m a = .error 1) ∧ (read → im.shape ≠ m.shapeOf f → restoreRun m a = .error 7) ∧
    (read → im.shape = m.shapeOf f → m.fnTasks f ≠ [] → restoreRun m a = .error 2) ∧
    (read → im.shape = m.shapeOf f → m.fnTasks f = [] → restoreRun m a = .ok (m.takeOver f im (m.restorePull a))) := by
  intro read f
  have hread : (decide (im.ver < m.mgmt.reads.1) || decide (m.mgmt.reads.2 < im.ver)) = false ↔ read := by
    rw [Bool.or_eq_false_iff, decide_eq_false_iff_not, decide_eq_false_iff_not, Nat.not_lt, Nat.not_lt]
  unfold restoreRun
  rw [him]
  dsimp only
  refine ⟨fun hno => if_pos ((Bool.not_eq_false _).mp fun h => hno (hread.mp h)), fun hr hs => ?_, fun hr hs ht => ?_, fun hr hs ht => ?_⟩
  all_goals rw [if_neg (Bool.eq_false_iff.mp (hread.mpr hr))]
  · exact if_pos (bne_iff_ne.mpr hs)
  all_goals rw [if_neg (by rw [bne_iff_ne]; exact not_not_intro hs)]
  · refine if_pos ?_
    rw [Bool.not_eq_true', List.isEmpty_eq_false_iff]
    exact ht
  · exact if_neg (by rw [show m.fnTasks (field a 0 8) = [] from ht]; decide)

/-- The tasks an image carries keep their number and state, under the names of their new hub. -/
theorem carryTasks_keep {m : Mach} {f : Nat} {ts : List Task} {i : Nat} {t : Task} (h : (m.carryTasks f ts)[i]? = some t) :
    ∃ u, ts[i]? = some u ∧ t.num = u.num ∧ t.fn = f ∧ t.part = m.fnPart f ∧ t.state = u.state ∧ t.port = u.port ∧ t.saved = u.saved := by
  unfold Mach.carryTasks at h
  dsimp only at h
  rw [List.getElem?_map, Option.map_eq_some_iff] at h
  obtain ⟨u, hu, rfl⟩ := h
  exact ⟨u, hu, rfl, rfl, rfl, rfl, rfl, rfl⟩

/-- Settles O41: LAYOUT by its phase, SAVE by what is bound and its room, RESTORE by its checks in turn. -/
theorem layoutSaveRestoreComplete : Obligations.LayoutSaveRestoreComplete := by
  unfold Obligations.LayoutSaveRestoreComplete
  intro s m a
  refine ⟨fun hdue => layoutCompletes hdue, fun hdue => saveCompletes hdue rfl rfl rfl rfl, fun hdue => ?_⟩
  intro f peer ok out
  obtain ⟨hgood, hbad⟩ := mbCommand_due (fields := [(0, 8), (8, 8), (16, 8), (24, 8), (32, 8), (40, 8)]) (ok := fun _ a => restoreArgs a) (run := restoreRun) hdue
  rw [exec_mbRestore]
  have hargs := restoreArgs_iff s.m.mbArgs
  have herr (hok : ok) {st : Nat} (hr : restoreRun s.m s.m.mbArgs = .error st) := hgood hok.1 (st, s.m) (mbAnswer_error (hargs.mpr hok.2) hr)
  have hdone (hok : ok) {m' : Mach} (hr : restoreRun s.m s.m.mbArgs = .ok m') := hgood hok.1 (0, m') (mbAnswer_ok (hargs.mpr hok.2) hr)
  refine ⟨fun hno => ?_, fun hok him => ?_, fun im hok him => ?_, fun m' f ts i t h => carryTasks_keep h⟩
  · by_cases hblock : s.m.mbBlockOk [(0, 8), (8, 8), (16, 8), (24, 8), (32, 8), (40, 8)] = true
    · refine hgood hblock (1, s.m) (mbAnswer_bad (Bool.eq_false_iff.mpr fun h => hno ⟨hblock, hargs.mp h⟩))
    · exact hbad (Bool.eq_false_iff.mpr hblock)
  · refine herr hok ?_
    unfold restoreRun
    rw [show s.m.imageAt (field s.m.mbArgs 8 8) = none from him]
  · intro read vec pull m1 m2
    obtain ⟨hver, hshape, htasks, hover⟩ := restoreRun_image (a := s.m.mbArgs) him
    refine ⟨fun hno => herr hok (hver hno), fun hr hs => herr hok (hshape hr hs), fun hr hs ht => herr hok (htasks hr hs ht), fun hr hs ht => ?_⟩
    have hpull : s.m.restorePull s.m.mbArgs = pull := rfl
    have htake : s.m.takeOver f im pull = (m2.modMgmt fun g => { g with images := g.images.map fun x => if x == im then { x with reg := false } else x }).ownPull f := rfl
    rw [hdone hok (hover hr hs ht), hpull]
    dsimp only
    rw [show s.m.takeOver (field s.m.mbArgs 0 8) im pull = _ from htake]

end Sys2Proof.Machine
end

section
/-! PROOF. O42 and O43: writes of the registers of a function's BAR, and resets. -/
namespace Sys2Proof.Machine

/-! ### REGISTER_WRITE (R367, R402, R437) -/

section
variable {fn : Nat} (hfn : fn < 25)
include hfn

/-- A write below the mailbox's registers is one of the journal's. -/
theorem exec_registerWrite_journal {offset : Nat} (h : offset < 0x800) (v : W64) (s : State) :
    exec (.registerWrite fn offset v) s = .next { s with m := s.m.writeJournalReg fn offset v } := by
  show execRegisterWrite fn offset v s = _
  unfold execRegisterWrite
  dsimp only
  rw [if_neg (Nat.not_le.mpr hfn), if_pos h]

/-- A write between the journal's registers and the queues' reaches those of function 0 alone. -/
theorem exec_registerWrite_mid {offset : Nat} (hlo : 0x800 ≤ offset) (hhi : offset < 0x1000) (v : W64) (s : State) :
    exec (.registerWrite fn offset v) s = .next { s with m := if fn = 0 then s.m.writeReg0 offset v else s.m } := by
  show execRegisterWrite fn offset v s = _
  unfold execRegisterWrite
  dsimp only
  rw [if_neg (Nat.not_le.mpr hfn), if_neg (Nat.not_lt.mpr hlo), if_pos hhi]

/-- A write from the queues' registers on is of one register of one queue. -/
theorem exec_registerWrite_queue {q r : Nat} (hq : q < 64) (hr : r < 0x40) (v : W64) (s : State) :
    exec (.registerWrite fn (0x1000 + r + 0x40 * q) v) s = match (generalizing := false) r with
      | 0x00 => .next { s with m := s.m.modQueue fn q fun x => { x with qcb := v } }
      | 0x08 => if v.getLsbD 0 then execQueueEnable fn q s else execQueueDisable fn q s
      | 0x10 => execQnotifyWrite fn q (v.setWidth 32) s
      | _ => .next s := by
  have hdiv : (0x1000 + r + 0x40 * q - 0x1000) / 0x40 = q := by omega
  have hmod : (0x1000 + r + 0x40 * q - 0x1000) % 0x40 = r := by omega
  show execRegisterWrite fn _ v s = _
  unfold execRegisterWrite
  dsimp only
  rewrite [hdiv, hmod, if_neg (Nat.not_le.mpr hfn), if_neg (by omega), if_neg (by omega), if_neg (Nat.not_le.mpr hq)]
  rfl

end

/-- CODE of a word written to MBCMD. -/
theorem mbcmd_code (v : W64) : (bits (v.setWidth 32 &&& 0x8FFFFFFF : W32) 0 16).toNat = v.toNat % 65536 := by
  rw [BitVec.extractLsb'_toNat, BitVec.toNat_and, BitVec.toNat_setWidth, Nat.shiftRight_zero, Nat.and_mod_two_pow,
    show (0x8FFFFFFF : W32).toNat % 2 ^ 16 = 2 ^ 16 - 1 from rfl, Nat.and_two_pow_sub_one_eq_mod, Nat.mod_mod,
    Nat.mod_mod_of_dvd _ (by decide)]

/-- The mailbox with a command taken up by GO. -/
def Mach.mbTaken (m : Mach) (v : W64) : Mach :=
  m.modMgmt fun g => { g with mbcmd := v.setWidth 32 &&& 0x8FFFFFFF, mbstat := g.mbstat ||| 0x80000000, at_ := m.now
                              args := bytesImage 512 (m.sys.readBlock g.mbarg.toNat 64) }

/-- A write to MBCMD while no command runs. -/
theorem Mach.mbWrite_idle {m : Mach} (v : W64) (hbusy : m.mgmt.busy = false) :
    m.mbWrite (v.setWidth 32) =
      if v.getLsbD 31 then if 1 ≤ v.toNat % 65536 ∧ v.toNat % 65536 ≤ 11 then m.mbTaken v else (m.mbTaken v).mbEnd 1
      else m.modMgmt fun g => { g with mbcmd := v.setWidth 32 &&& 0x8FFFFFFF } := by
  have hcode : (m.mbTaken v).mgmt.code = v.toNat % 65536 := mbcmd_code v
  unfold Mach.mbWrite
  rw [hbusy, if_neg Bool.false_ne_true]
  dsimp only
  rw [show (v.setWidth 32 : W32).getLsbD 31 = v.getLsbD 31 by simp]
  by_cases hgo : v.getLsbD 31 = true
  · rw [hgo, if_neg (by decide), if_pos rfl]
    show (if (decide (1 ≤ (m.mbTaken v).mgmt.code) && decide ((m.mbTaken v).mgmt.code ≤ 11)) = true then m.mbTaken v else (m.mbTaken v).mbEnd 1) = _
    simp only [hcode, Bool.and_eq_true, decide_eq_true_eq]
  · rw [if_neg hgo, if_pos (by rw [Bool.not_eq_true']; exact Bool.eq_false_iff.mpr hgo)]

/-- A write to MBCMD while a command runs is dropped. -/
theorem Mach.mbWrite_busy {m : Mach} (v : W32) (hbusy : m.mgmt.busy = true) : m.mbWrite v = m := by
  unfold Mach.mbWrite
  exact if_pos hbusy

/-- Whether a value of JRD has passed the place of a RESET entry. -/
def jrdPassed (v : W64) (i : Nat) : Prop :=
  0 < ((v.setWidth 32 : W32) - BitVec.ofNat 32 i).toNat ∧ ((v.setWidth 32 : W32) - BitVec.ofNat 32 i).toNat < 2 ^ 31

/-- A write of JRD frees the kept place that it passes (R400). -/
theorem Mach.writeJournalReg_jrd (m : Mach) (f : Nat) (v : W64) :
    ((m.fn f).resetJ = none ∨ (∃ i, (m.fn f).resetJ = some i ∧ ¬ jrdPassed v i) →
      m.writeJournalReg f 0x0018 v = m.modFn f fun x => { x with jrd := v.setWidth 32 }) ∧
    (∀ i, (m.fn f).resetJ = some i → jrdPassed v i →
      m.writeJournalReg f 0x0018 v = m.modFn f fun x => { x with jrd := v.setWidth 32, resetJ := none }) := by
  unfold Mach.writeJournalReg
  dsimp only
  refine ⟨fun h => Mach.modFn_congr ?_, fun i hi hpass => Mach.modFn_congr ?_⟩
  · rcases h with h | ⟨i, hi, hno⟩
    · rw [h]
    · rw [hi]
      dsimp only
      rw [if_neg]
      rwa [Bool.and_eq_true, decide_eq_true_eq, decide_eq_true_eq]
  · rw [hi]
    dsimp only
    rw [if_pos]
    rwa [Bool.and_eq_true, decide_eq_true_eq, decide_eq_true_eq]

/-- A write of JBASE or JSIZE takes effect only while no queue of the function is enabled (R367). -/
theorem Mach.writeJournalReg_locked {m : Mach} {f : Nat} (v : W64) (h : (m.fn f).anyEnabled = true) :
    m.writeJournalReg f 0x0000 v = m ∧ m.writeJournalReg f 0x0008 v = m := by
  unfold Mach.writeJournalReg
  dsimp only
  rw [h]
  exact ⟨rfl, rfl⟩

theorem Mach.writeJournalReg_jsize {m : Mach} {f : Nat} (v : W64) (h : (m.fn f).anyEnabled = false) :
    m.writeJournalReg f 0x0008 v = if 8 ≤ v.toNat % 32 ∧ v.toNat % 32 ≤ 20 then m.modFn f fun x => { x with jsize := BitVec.ofNat 32 (v.toNat % 32) } else m := by
  have hopen : ((m.fn f).anyEnabled || decide (v.toNat % 32 < 8) || decide (20 < v.toNat % 32)) = true ↔ ¬ (8 ≤ v.toNat % 32 ∧ v.toNat % 32 ≤ 20) := by
    rw [h, Bool.false_or, Bool.or_eq_true, decide_eq_true_eq, decide_eq_true_eq]
    omega
  by_cases hk : 8 ≤ v.toNat % 32 ∧ v.toNat % 32 ≤ 20
  · rw [if_pos hk]
    exact if_neg fun hc => hopen.mp hc hk
  · rw [if_neg hk]
    exact if_pos (hopen.mpr hk)

/-- Settles O42: a write by the part of the BAR it falls in. -/
theorem registerWritesComplete : Obligations.RegisterWritesComplete := by
  unfold Obligations.RegisterWritesComplete
  intro s fn v hfn m run out idle k
  have hj {offset : Nat} (h : offset < 0x800) {m' : Mach} (hm : s.m.writeJournalReg fn offset v = m') : run offset = out m' :=
    (exec_registerWrite_journal hfn h v s).trans (by rw [hm])
  have hr {offset : Nat} (h0 : fn = 0) (hlo : 0x800 ≤ offset) (hhi : offset < 0x1000) {m' : Mach} (hm : s.m.writeReg0 offset v = m') : run offset = out m' :=
    (exec_registerWrite_mid hfn hlo hhi v s).trans (by rw [if_pos h0, hm])
  have hlocked (hid : ¬ idle) := Mach.writeJournalReg_locked (m := s.m) (f := fn) v ((Bool.not_eq_false _).mp hid)
  obtain ⟨hjrd, hjrd'⟩ := s.m.writeJournalReg_jrd fn v
  refine ⟨fun hid => hj (by decide) (if_neg (Bool.eq_false_iff.mp hid)), fun hid hlo hhi => hj (by decide) ?_, fun hid hk => hj (by decide) ?_,
    fun hid => ⟨hj (by decide) (hlocked hid).1, hj (by decide) (hlocked hid).2⟩,
    ⟨fun h => hj (by decide) (hjrd h), fun i hi hp => hj (by decide) (hjrd' i hi hp)⟩, fun h0 => ?_, fun h0 offset hlo hhi => ?_, fun q hq => ?_,
    hj (by decide) rfl⟩
  · rw [Mach.writeJournalReg_jsize v hid, if_pos ⟨hlo, hhi⟩]
  · rw [Mach.writeJournalReg_jsize v hid, if_neg]
    show ¬ (8 ≤ v.toNat % 32 ∧ v.toNat % 32 ≤ 20)
    omega
  · have hcmd := hr (offset := 0x0800) h0 (by decide) (by decide) rfl
    refine ⟨fun hb => hr h0 (by decide) (by decide) (if_neg (Bool.eq_false_iff.mp hb)), fun hb => hr h0 (by decide) (by decide) (if_pos hb),
      hr h0 (by decide) (by decide) rfl, hr h0 (by decide) (by decide) rfl, hr h0 (by decide) (by decide) rfl, fun hb => ?_, fun hb hgo hlo hhi => ?_,
      fun hb hgo hcode => ?_, fun hb hgo => ?_⟩
    · exact hr h0 (by decide) (by decide) (Mach.mbWrite_busy _ hb)
    · refine hr h0 (by decide) (by decide) ((Mach.mbWrite_idle v hb).trans ?_)
      rewrite [if_pos hgo, if_pos ⟨hlo, hhi⟩]
      rfl
    · refine hr h0 (by decide) (by decide) ((Mach.mbWrite_idle v hb).trans ?_)
      rewrite [if_pos hgo, if_neg (by omega)]
      rfl
    · refine hr h0 (by decide) (by decide) ((Mach.mbWrite_idle v hb).trans ?_)
      rw [if_neg (Bool.eq_false_iff.mp hgo)]
  · exact (exec_registerWrite_mid hfn hlo hhi v s).trans (by rw [if_neg h0])
  · refine ⟨exec_registerWrite_queue (r := 0x00) hfn hq (by decide) v s, ?_, exec_registerWrite_queue (r := 0x10) hfn hq (by decide) v s,
      exec_registerWrite_queue (r := 0x18) hfn hq (by decide) v s, exec_registerWrite_queue (r := 0x20) hfn hq (by decide) v s⟩
    refine (exec_registerWrite_queue (r := 0x08) hfn hq (by decide) v s).trans ?_
    show (if v.getLsbD 0 = true then exec (.queueEnable fn q) s else exec (.queueDisable fn q) s) = exec (if v.getLsbD 0 = true then _ else _) s
    split
    · rfl
    · rfl

/-! ### Resets (R406, R423, R436) -/

/-- The low four bits of a word, as its stage. -/
theorem stage_eq_iff (x : Module) {n : Nat} (hn : n < 16) : x.stage = n ↔ x.bootst &&& 0xF = BitVec.ofNat 32 n := by
  unfold Module.stage
  rw [BitVec.extractLsb'_toNat, Nat.shiftRight_zero, ← BitVec.toNat_inj, BitVec.toNat_and, BitVec.toNat_ofNat,
    show (0xF : W32).toNat = 2 ^ 4 - 1 from rfl, Nat.and_two_pow_sub_one_eq_mod, Nat.mod_eq_of_lt (show n < 2 ^ 32 by omega)]

theorem Mach.modModule_congr {m : Mach} {f g : Module → Module} (h : f m.module = g m.module) : m.modModule f = m.modModule g := by
  rw [Mach.modModule, Mach.modModule, h]

/-- A watchdog reset of the management core by the layout under way (R406). -/
theorem Mach.mgmtRestart_laying {m : Mach} {r : BitVec 4096} (h : m.mgmt.laying = some r) :
    m.mgmtRestart = if m.mgmt.flipped then (m.layoutCommit r).mbEnd 0
      else ((m.modMgmt fun g => { g with prep := false, laying := none }).layoutEntries (m.layoutFns (layoutOf (imageBytes r)))
        (layoutOf (imageBytes r)).gen 3).mbEnd 1 := by
  unfold Mach.mgmtRestart Mach.layoutSettle
  rw [h]
  dsimp only
  rw [Option.isNone_some, if_neg Bool.false_ne_true]
  split
  · rfl
  · rfl

/-- A function-level reset by whether one is pending and its tasks are gone (R423). -/
theorem exec_functionLevelReset (fn : Nat) (s : State) :
    exec (.functionLevelReset fn) s = if s.m.resetDone fn then .next { s with m := s.m.resetEnd fn }
      else if (s.m.fn fn).resetP then .next s else .next { s with m := s.m.resetBegin fn false } := rfl

/-- A pending reset can complete once every task of the function is gone. -/
theorem Mach.resetDone_iff (m : Mach) (f : Nat) :
    m.resetDone f = true ↔ (m.fn f).resetP = true ∧ ∀ t ∈ m.hub.tasks, t.fn = f → t.state = .done := by
  unfold Mach.resetDone Mach.fnTasks
  rw [Bool.and_eq_true, List.all_eq_true]
  simp only [List.mem_filter, beq_iff_eq, and_imp]

/-- Settles O43: each reset by its condition. -/
theorem resetsComplete : Obligations.ResetsComplete := by
  unfold Obligations.ResetsComplete
  intro s fn m x
  refine ⟨fun hl => ?_, fun r hl hf => ?_, fun r hl hf => ?_, fun hp => ?_, fun hp hdone => ?_, fun hp ⟨t, ht, hfn, hst⟩ => ?_, ?_, ?_⟩
  · show Host.Outcome.next { s with m := s.m.mgmtRestart } = _
    unfold Mach.mgmtRestart
    rewrite [show s.m.mgmt.laying = none from hl]
    rfl
  · show Host.Outcome.next { s with m := s.m.mgmtRestart } = _
    rw [Mach.mgmtRestart_laying (m := s.m) hl, if_pos hf]
  · show Host.Outcome.next { s with m := s.m.mgmtRestart } = _
    rw [Mach.mgmtRestart_laying (m := s.m) hl, if_neg (Bool.eq_false_iff.mp hf)]
  · rewrite [exec_functionLevelReset, if_neg fun h => Bool.false_ne_true (hp.symm.trans ((s.m.resetDone_iff fn).mp h).1), if_neg (Bool.eq_false_iff.mp hp)]
    rfl
  · rewrite [exec_functionLevelReset, if_pos ((s.m.resetDone_iff fn).mpr ⟨hp, hdone⟩)]
    rfl
  · rw [exec_functionLevelReset, if_neg fun h => hst (((s.m.resetDone_iff fn).mp h).2 t ht hfn), if_pos hp]
  · have hstage : (if s.m.module.stage = 5 then bootWord 0 0 0 4 else s.m.module.bootst) =
        if s.m.module.bootst &&& 0xF = 5 then 0x4 else s.m.module.bootst := by
      rw [show bootWord 0 0 0 4 = 0x4 from rfl]
      exact if_congr (stage_eq_iff s.m.module (by decide)) rfl rfl
    show execPerstN s = _
    unfold execPerstN
    dsimp only
    refine congrArg (fun m' => Host.Outcome.next { s with m := (List.range 25).foldl (fun m f => m.resetBegin f true) m' }) (Mach.modModule_congr ?_)
    rw [hstage]
  · show execModResetN s = _
    unfold execModResetN
    rfl

end Sys2Proof.Machine
end

section
/-! PROOF. O44: bring-up and power-off. -/
namespace Sys2Proof.Machine

/-! ### Planned steps keep their bounds (R435) -/

/-- A step of a bring-up or power-off within its bound after the one before. -/
def StepSpaced (a b : Nat × PowerStep) : Prop :=
  a.1 ≤ b.1 ∧ (∀ k, b.2 = .rail k true → b.1 ≤ a.1 + 2 * 1400000) ∧ (b.2 = .release → b.1 = a.1 + 1400000) ∧
  (∀ k, b.2 = .rail k false ∨ b.2 = .bus false → b.1 ≤ a.1 + 1400000)

/-- A step to be planned with the bound that its kind has. -/
def StepBounded : Option Nat × PowerStep → Prop
  | (b, .rail _ true) => ∃ n, b = some n ∧ 0 < n ∧ n ≤ 2 * 1400000
  | (b, .rail _ false) => ∃ n, b = some n ∧ 0 < n ∧ n ≤ 1400000
  | (b, .bus false) => ∃ n, b = some n ∧ 0 < n ∧ n ≤ 1400000
  | (_, .release) => False
  | _ => True

/-- The cycle of a step planned after `at_`. -/
def stepAt (free at_ : Nat) (bound : Option Nat) : Nat := at_ + 1 + match bound with | some b => Config.freeNat free % b | none => Config.freeNat free

theorem planSteps_cons (free at_ : Nat) (x : Option Nat × PowerStep) (rest : List (Option Nat × PowerStep)) :
    planSteps free at_ (x :: rest) = (stepAt free at_ x.1, x.2) :: planSteps (free + 1) (stepAt free at_ x.1) rest := rfl

theorem lt_stepAt (free at_ : Nat) (bound : Option Nat) : at_ < stepAt free at_ bound := by
  unfold stepAt
  omega

theorem stepAt_le (free at_ : Nat) {n : Nat} (hn : 0 < n) : stepAt free at_ (some n) ≤ at_ + n := by
  have := Nat.mod_lt (Config.freeNat free) hn
  show at_ + 1 + Config.freeNat free % n ≤ at_ + n
  omega

/-- A step with its bound is spaced after the one before. -/
theorem StepBounded.spaced {x : Option Nat × PowerStep} (h : StepBounded x) (free at_ : Nat) (st0 : PowerStep) :
    StepSpaced (at_, st0) (stepAt free at_ x.1, x.2) := by
  have hlt := lt_stepAt free at_ x.1
  obtain ⟨b, st⟩ := x
  refine ⟨Nat.le_of_lt hlt, fun k hk => ?_, fun hk => ?_, fun k hk => ?_⟩
  · subst hk
    obtain ⟨n, rfl, hn, hle⟩ := h
    exact (stepAt_le free at_ hn).trans (Nat.add_le_add_left hle at_)
  · subst hk
    exact h.elim
  · rcases hk with rfl | rfl
    · obtain ⟨n, rfl, hn, hle⟩ := h
      exact (stepAt_le free at_ hn).trans (Nat.add_le_add_left hle at_)
    · obtain ⟨n, rfl, hn, hle⟩ := h
      exact (stepAt_le free at_ hn).trans (Nat.add_le_add_left hle at_)

/-- Steps planned one behind the other are spaced, the first of them after the cycle they are planned from. -/
theorem planSteps_spaced {l : List (Option Nat × PowerStep)} (h : ∀ x ∈ l, StepBounded x) (free at_ : Nat) (st0 : PowerStep) :
    List.IsChain StepSpaced ((at_, st0) :: planSteps free at_ l) := by
  induction l generalizing free at_ st0 with
  | nil => exact List.isChain_singleton _
  | cons x rest ih =>
    rw [planSteps_cons, List.isChain_cons_cons]
    exact ⟨(h x List.mem_cons_self).spaced free at_ st0, ih (fun y hy => h y (List.mem_cons_of_mem x hy)) ..⟩

theorem planSteps_snd (free at_ : Nat) (l : List (Option Nat × PowerStep)) : (planSteps free at_ l).map Prod.snd = l.map Prod.snd := by
  induction l generalizing free at_ with
  | nil => rfl
  | cons x rest ih => rw [planSteps_cons, List.map_cons, ih, List.map_cons]

/-- A chain of spaced steps, by the places of its steps. -/
theorem spaced_of_isChain {p : List (Nat × PowerStep)} (h : List.IsChain StepSpaced p) (i : Nat) (a b : Nat × PowerStep)
    (ha : p[i]? = some a) (hb : p[i + 1]? = some b) : StepSpaced a b := by
  obtain ⟨hi, rfl⟩ := List.getElem?_eq_some_iff.mp ha
  obtain ⟨hi', rfl⟩ := List.getElem?_eq_some_iff.mp hb
  exact List.isChain_iff_getElem.mp h i hi'

/-! ### The steps of R435 -/

theorem riseSteps_bounded (err : Byte) (d : Nat) : ∀ x ∈ riseSteps err d, StepBounded x := by
  have hup (k : Nat) : StepBounded (some (2 * msCycles), .rail k true) := ⟨2 * msCycles, rfl, by decide, Nat.le_refl _⟩
  intro x hx
  unfold riseSteps at hx
  dsimp only at hx
  split at hx
  · simp only [List.cons_append, List.mem_cons, List.mem_append, List.mem_map, List.not_mem_nil, or_false] at hx
    rcases hx with rfl | ⟨k, -, rfl⟩ | rfl
    · trivial
    · exact hup k
    · trivial
  · simp only [List.mem_cons, List.mem_map] at hx
    rcases hx with rfl | ⟨k, -, rfl⟩
    · trivial
    · exact hup k

theorem bootSteps_bounded (err : Byte) : ∀ x ∈ bootSteps err, StepBounded x := by
  have hall : ∀ x ∈ ([(none, .firmware), (none, .hbm), (none, .ports), (none, .ready)] : List (Option Nat × PowerStep)), StepBounded x := by
    simp only [List.mem_cons, List.not_mem_nil, or_false, forall_eq_or_imp, forall_eq]
    exact ⟨trivial, trivial, trivial, trivial⟩
  intro x hx
  unfold bootSteps at hx
  dsimp only at hx
  split at hx
  · exact hall x hx
  · rcases List.mem_append.mp hx with hx | hx
    · exact hall x (List.mem_of_mem_take hx)
    · rw [List.mem_singleton] at hx
      subst hx
      trivial

theorem fallSteps_bounded : ∀ x ∈ fallSteps, StepBounded x := by
  intro x hx
  unfold fallSteps at hx
  rw [List.mem_append, List.mem_map, List.mem_singleton] at hx
  rcases hx with ⟨k, -, rfl⟩ | rfl
  · exact ⟨msCycles, rfl, by decide, Nat.le_refl _⟩
  · exact ⟨msCycles, rfl, by decide, Nat.le_refl _⟩

/-- The boot stage's steps as they are named in R435. -/
theorem bootSteps_snd (err : Byte) (h : err = 0 ∨ 2 ≤ err.toNat) :
    (bootSteps err).map Prod.snd = if err = 0 then [.firmware, .hbm, .ports, .ready] else if err = 2 then [.fail 0]
      else if err = 3 then [.firmware, .fail 0] else [.firmware, .hbm, .fail 0] := by
  unfold bootSteps
  by_cases h0 : err = 0
  · rewrite [if_pos h0, if_pos h0]
    rfl
  · rw [if_neg h0, if_neg h0]
    have hle := h.resolve_left h0
    by_cases h2 : err = 2
    · subst h2
      rfl
    · by_cases h3 : err = 3
      · subst h3
        rfl
      · rw [if_neg h2, if_neg h3]
        have h2' : err.toNat ≠ 2 := fun e => h2 (BitVec.eq_of_toNat_eq e)
        have h3' : err.toNat ≠ 3 := fun e => h3 (BitVec.eq_of_toNat_eq e)
        rewrite [show min err.toNat 4 = 4 by omega]
        rfl

/-- The rails' rise where none fails. -/
theorem riseSteps_good {err : Byte} (h : err ≠ 1) (d : Nat) : riseSteps err d =
    (none, .bus true) :: (List.range 4).map fun k => (some (2 * msCycles), PowerStep.rail k true) := by
  unfold riseSteps
  exact if_neg h

/-- The rails' rise where one fails: those before it are good. -/
theorem riseSteps_bad (d : Nat) : ∃ w, riseSteps 1 d =
    (none, .bus true) :: (List.range (d % 4)).map (fun k => (some (2 * msCycles), PowerStep.rail k true)) ++ [(none, .fail w)] := by
  unfold riseSteps
  exact ⟨_, if_pos rfl⟩

/-- The first steps of a rise, as they are named in R435. -/
theorem riseSteps_snd : ∀ k < 4, ((none, PowerStep.bus true) :: (List.range k).map (fun k => (some (2 * msCycles), PowerStep.rail k true))).map Prod.snd =
    [PowerStep.bus true, .rail 0 true, .rail 1 true, .rail 2 true, .rail 3 true, .release].take (k + 1) := by
  intro k hk
  interval_cases k <;> rfl

/-! ### POWER_ON -/

/-- The module with steps planned by POWER_ON (R435). -/
def Mach.poweredOn (m : Mach) (hostUp : Bool) (r : BootResult) (p : List (Nat × PowerStep)) (word : W32) : Mach :=
  Mach.modModule { m with free := m.free + 16 } fun x => { x with
    powered := true, pwrEn := true, perst := !hostUp, boot := r, plan := x.plan ++ p, bootst := word }

/-- The cycle after which POWER_ON plans the rails. -/
def Mach.riseFrom (m : Mach) : Nat := (m.module.plan.getLast?.map Prod.fst).getD m.now

/-- POWER_ON of a module that is off plans the rise, the release, and the boot stage, or the rise alone where a rail fails. -/
theorem exec_powerOn_off {s : State} (hostUp : Bool) (r : BootResult) (hoff : s.m.module.powered = false) :
    exec (.powerOn hostUp r) s =
      let rise := planSteps (s.m.free + 1) s.m.riseFrom (riseSteps r.err (Config.freeNat s.m.free))
      let good := (rise.getLast?.map Prod.fst).getD s.m.now
      .next { s with m := s.m.poweredOn hostUp r (if r.err = 1 then rise
        else rise ++ (good + msCycles, .release) :: planSteps (s.m.free + 8) (good + msCycles) (bootSteps r.err)) 0 } := by
  show execPowerOn hostUp r s = _
  unfold execPowerOn Mach.poweredOn
  dsimp only
  rw [hoff]
  by_cases herr : r.err = 1
  · simp only [herr, Bool.false_and, Bool.false_eq_true, if_false, if_true, Bool.not_false, Bool.false_or, decide_true, List.append_nil]
    rfl
  · simp only [herr, Bool.false_and, Bool.false_eq_true, if_false, Bool.not_false, Bool.false_or, decide_false, List.append_assoc, List.singleton_append]
    rfl

/-- POWER_ON of a module whose rails are good plans the boot stage. -/
theorem exec_powerOn_booting {s : State} (hostUp : Bool) (r : BootResult) (hon : s.m.module.powered = true) (hstage : s.m.module.stage = 1)
    (hplan : s.m.module.plan = []) (herr : r.err ≠ 1) :
    exec (.powerOn hostUp r) s =
      .next { s with m := s.m.poweredOn hostUp r (planSteps (s.m.free + 8) s.m.now (bootSteps r.err)) s.m.module.bootst } := by
  have hboots : (s.m.module.powered && s.m.module.stage == 1 && s.m.module.plan.isEmpty && r.err != 1) = true := by
    rewrite [hon, hstage, hplan, bne_iff_ne.mpr herr]
    rfl
  show execPowerOn hostUp r s = _
  unfold execPowerOn Mach.poweredOn
  dsimp only
  rw [hboots]
  simp only [herr, Bool.not_true, Bool.and_false, Bool.false_eq_true, if_false, if_true, Bool.true_or, planSteps, List.append_nil]
  rfl

/-- The steps of a bring-up are spaced as R435 says. -/
theorem bringUp_spaced {err : Byte} (free free' d at_ now : Nat) {rise : List (Nat × PowerStep)} (hrise : planSteps free at_ (riseSteps err d) = rise) :
    List.IsChain StepSpaced (rise ++ ((rise.getLast?.map Prod.fst).getD now + msCycles, .release) ::
      planSteps free' ((rise.getLast?.map Prod.fst).getD now + msCycles) (bootSteps err)) := by
  have hchain : List.IsChain StepSpaced rise := hrise ▸ (planSteps_spaced (riseSteps_bounded err d) free at_ .release).tail
  refine List.isChain_append.mpr ⟨hchain, planSteps_spaced (bootSteps_bounded err) .., fun a ha b hb => ?_⟩
  rw [Option.mem_def, List.head?_cons, Option.some.injEq] at hb
  rw [Option.mem_def] at ha
  subst hb
  rw [ha]
  refine ⟨Nat.le_add_right .., fun k hk => ?_, fun _ => rfl, fun k hk => ?_⟩
  · cases hk
  · rcases hk with hk | hk <;> cases hk

/-! ### The steps (R435, R437 to R439) -/

/-- The bits of a rail in RAILST, as the statement writes them. -/
theorem railBits_eq : ∀ k < 4, railBits k = if k = 0 then 0x11111 else if k = 1 then 0x22222 else if k = 2 then 0x44444 else 0x8888 := by
  decide

/-- A link trained or not as the bring-up's result says. -/
def Mach.bootLink (m : Mach) (i : Nat) : Mach := m.modModule fun x => x.setLink i (x.boot.links.getLsbD i)

/-- Whether a link is up as the bring-up's result says. -/
def Mach.linkBooted (m : Mach) (i : Nat) : Prop := ∀ l, m.module.links[i]? = some l → l.up = m.module.boot.links.getLsbD i

theorem Mach.linkBooted_bootLink {m : Mach} {i j : Nat} (h : i = j ∨ m.linkBooted i) : (m.bootLink j).linkBooted i := by
  intro l hl
  have hlinks : (m.module.links.modify j fun l => { l with up := m.module.boot.links.getLsbD j, replays := if m.module.boot.links.getLsbD j then 0 else l.replays })[i]? = some l := hl
  show l.up = m.module.boot.links.getLsbD i
  rw [List.getElem?_modify] at hlinks
  cases hi : m.module.links[i]? with
  | none => rw [hi] at hlinks; cases hlinks
  | some k =>
    rw [hi] at hlinks
    by_cases hj : j = i
    · subst hj
      simp only [if_true, Option.map_eq_map, Option.map_some, Option.some.injEq] at hlinks
      rw [← hlinks]
    · simp only [if_neg hj, Option.map_eq_map, Option.map_some, Option.some.injEq] at hlinks
      rw [← hlinks]
      exact h.resolve_left (fun e => hj e.symm) k hi

theorem Mach.linkBooted_foldl {m : Mach} {i : Nat} (js : List Nat) (h : i ∈ js ∨ m.linkBooted i) : (js.foldl Mach.bootLink m).linkBooted i := by
  induction js generalizing m with
  | nil => exact h.resolve_left List.not_mem_nil
  | cons j js ih =>
    refine ih ?_
    rcases h with h | h
    · rcases List.mem_cons.mp h with h | h
      · exact .inr (Mach.linkBooted_bootLink (.inl h))
      · exact .inl h
    · exact .inr (Mach.linkBooted_bootLink (.inr h))

/-- Training links changes nothing of the module but the links. -/
theorem Mach.foldl_bootLink_keep {γ : Type} (p : Module → γ) (hp : ∀ x i up, p (Module.setLink x i up) = p x) (js : List Nat) (m : Mach) :
    p (js.foldl Mach.bootLink m).module = p m.module :=
  foldl_keep (fun m : Mach => p m.module) (fun m i => hp m.module i _) js m

/-- The rails that are out of tolerance in a RAILST word. -/
theorem rail_good_iff (w r : W32) : w &&& r = r ↔ r &&& ~~~w = 0 := by
  constructor
  · intro h
    rw [← h]
    ext i hi
    simp +contextual
  · intro h
    ext i hi
    have hbit := congrArg (fun x : W32 => x[i]) h
    simp at hbit ⊢
    exact hbit

/-- Of the rails in the order of their rise, the first that is out of tolerance (R435). -/
theorem failedRail_eq {w : W32} {k : Nat} (hk : k < 4) (hgood : ∀ j < k, w &&& railBits j = railBits j) (hbad : w &&& railBits k ≠ railBits k) :
    failedRail w = railBits k &&& ~~~w := by
  have hne : railBits k &&& ~~~w ≠ 0 := fun h => hbad ((rail_good_iff w _).mpr h)
  have hz (j : Nat) (hj : j < k) : railBits j &&& ~~~w = 0 := (rail_good_iff w _).mp (hgood j hj)
  have hsplit : List.range 4 = List.range k ++ k :: (List.range (3 - k)).map (k + 1 + ·) := by
    interval_cases k <;> rfl
  unfold failedRail
  rw [hsplit, List.map_append, List.find?_append, List.find?_eq_none.mpr, Option.none_or, List.map_cons, List.find?_cons, bne_iff_ne.mpr hne]
  · rfl
  · intro x hx
    obtain ⟨j, hj, rfl⟩ := List.mem_map.mp hx
    rw [hz j (List.mem_range.mp hj)]
    decide

/-- What a failed step shows (R435, R437). -/
theorem powerStep_fail {m : Mach} (h : m.module.stage ≠ 0xF) (w : W32) :
    m.powerStep (.fail w) = m.modModule fun x => { x with
      railst := if x.boot.err = 1 then w else x.railst, railflt := if x.boot.err = 1 then x.railflt ||| failedRail w else x.railflt
      bootst := bootWord x.boot.err 0 0 0xF } := if_neg h

theorem powerStep_ports {m : Mach} (h : m.module.stage ≠ 0xF) :
    m.powerStep .ports = (List.range 16).foldl Mach.bootLink (m.modModule fun x => { x with bootst := bootWord 0 0 0 4 }) := if_neg h

theorem powerStep_ready (m : Mach) :
    m.powerStep .ready = m.modModule fun x => if x.stage = 4 && !x.perst then { x with bootst := bootWord 0 x.boot.hwid x.boot.hgen 5 } else x := rfl

theorem powerStep_firmware (m : Mach) :
    m.powerStep .firmware = if Config.bootFirmware.1 < m.mgmt.svn then m.modModule fun x => { x with bootst := bootWord 2 0 0 0xF }
      else (m.modModule fun x => { x with bootst := bootWord 0 0 0 2 }).modMgmt fun g => { g with svn := Config.bootFirmware.1, fwHash := Config.bootFirmware.2.1 } := rfl

/-- BOOTST of a failed bring-up. -/
theorem bootWord_fail (err : Byte) : bootWord err 0 0 0xF = BitVec.ofNat 32 (err.toNat * 2 ^ 24 + 0xF) := by
  rw [bootWord, show (0 : BitVec 3).toNat * 2 ^ 16 = 0 from rfl, show (0 : BitVec 4).toNat * 2 ^ 12 = 0 from rfl, Nat.add_zero, Nat.add_zero]

/-- BOOTST of a bring-up that passed. -/
theorem bootWord_ready (hwid : BitVec 3) (hgen : BitVec 4) : bootWord 0 hwid hgen 5 = BitVec.ofNat 32 (hwid.toNat * 2 ^ 16 + hgen.toNat * 2 ^ 12 + 5) := by
  rw [bootWord, show (0 : Byte).toNat * 2 ^ 24 = 0 from rfl, Nat.zero_add]

/-- What each step of a bring-up or power-off shows, as the statement says it. -/
theorem powerSteps_show (m : Mach) :
    let word (k : Nat) : W32 := if k = 0 then 0x11111 else if k = 1 then 0x22222 else if k = 2 then 0x44444 else 0x8888
    let show_ (st : PowerStep) := (m.powerStep st).module
    (∀ up, (show_ (.bus up)).railst = if up then m.module.railst ||| 0x100000 else m.module.railst &&& ~~~0x100000) ∧
    (∀ k up, k < 4 → (show_ (.rail k up)).railst = if up then m.module.railst ||| word k else m.module.railst &&& ~~~(word k)) ∧
    (show_ .release).bootst = 1 ∧ (show_ .firmware).bootst = (if Config.bootFirmware.1 < m.mgmt.svn then 0x0200000F else 2) ∧
    (m.mgmt.svn ≤ Config.bootFirmware.1 → (m.powerStep .firmware).mgmt.svn = Config.bootFirmware.1) ∧
    (m.module.bootst &&& 0xF = 0xF → m.powerStep .hbm = m ∧ m.powerStep .ports = m ∧ ∀ w, m.powerStep (.fail w) = m) ∧
    (m.module.bootst &&& 0xF ≠ 0xF → (show_ .hbm).bootst = 3 ∧ (show_ .ports).bootst = 4 ∧
      (∀ i l, (show_ .ports).links[i]? = some l → i < 16 → l.up = m.module.boot.links.getLsbD i) ∧
      (∀ w, (show_ (.fail w)).bootst = BitVec.ofNat 32 (m.module.boot.err.toNat * 2 ^ 24 + 0xF)) ∧
      (∀ w k, m.module.boot.err = 1 → k < 4 → (∀ j < k, w &&& word j = word j) → w &&& word k ≠ word k →
        (show_ (.fail w)).railst = w ∧ (show_ (.fail w)).railflt = m.module.railflt ||| (word k &&& ~~~w))) ∧
    (m.module.bootst &&& 0xF = 4 → m.module.perst = false →
      (show_ .ready).bootst = BitVec.ofNat 32 (m.module.boot.hwid.toNat * 2 ^ 16 + m.module.boot.hgen.toNat * 2 ^ 12 + 5)) ∧
    (m.module.perst = true → (show_ .ready).bootst = m.module.bootst) := by
  intro word show_
  have hword : ∀ k < 4, railBits k = word k := railBits_eq
  have hstage : m.module.stage = 0xF ↔ m.module.bootst &&& 0xF = 0xF := stage_eq_iff m.module (by decide)
  refine ⟨fun up => rfl, fun k up hk => ?_, rfl, ?_, fun hle => ?_, fun h => ?_, fun h => ?_, fun h hp => ?_, fun hp => ?_⟩
  · rewrite [← hword k hk]
    rfl
  · show (m.powerStep .firmware).module.bootst = _
    rw [powerStep_firmware]
    split
    · rfl
    · rfl
  · rewrite [powerStep_firmware, if_neg (Nat.not_lt.mpr hle)]
    rfl
  · have hf := hstage.mpr h
    exact ⟨if_pos hf, if_pos hf, fun w => if_pos hf⟩
  · have hf : m.module.stage ≠ 0xF := fun e => h (hstage.mp e)
    have hports := powerStep_ports hf
    refine ⟨?_, ?_, fun i l hl hi => ?_, fun w => ?_, fun w k herr hk hgood hbad => ?_⟩
    · show (m.powerStep .hbm).module.bootst = 3
      rewrite [show m.powerStep .hbm = _ from if_neg hf]
      rfl
    · show (m.powerStep .ports).module.bootst = 4
      rewrite [hports, Mach.foldl_bootLink_keep Module.bootst fun _ _ _ => rfl]
      rfl
    · have hbooted := Mach.linkBooted_foldl (m := m.modModule fun x => { x with bootst := bootWord 0 0 0 4 }) (List.range 16) (.inl (List.mem_range.mpr hi))
      rw [← hports] at hbooted
      refine (hbooted l hl).trans ?_
      rewrite [hports, Mach.foldl_bootLink_keep Module.boot fun _ _ _ => rfl]
      rfl
    · show (m.powerStep (.fail w)).module.bootst = _
      rw [powerStep_fail hf]
      exact bootWord_fail _
    · have hfail : failedRail w = word k &&& ~~~w := by
        rw [← hword k hk]
        refine failedRail_eq hk (fun j hj => ?_) ?_
        · rw [hword j (hj.trans hk)]
          exact hgood j hj
        · rw [hword k hk]
          exact hbad
      show (m.powerStep (.fail w)).module.railst = w ∧ (m.powerStep (.fail w)).module.railflt = _
      rw [powerStep_fail hf, ← hfail]
      exact ⟨if_pos herr, if_pos herr⟩
  · have h4 : m.module.stage = 4 := (stage_eq_iff m.module (by decide)).mpr h
    show (m.powerStep .ready).module.bootst = _
    rw [powerStep_ready, ← bootWord_ready]
    show (if (decide (m.module.stage = 4) && !m.module.perst) = true then { m.module with bootst := _ } else m.module : Module).bootst = _
    rewrite [h4, hp]
    rfl
  · show (m.powerStep .ready).module.bootst = _
    rw [powerStep_ready]
    show (if (decide (m.module.stage = 4) && !m.module.perst) = true then { m.module with bootst := _ } else m.module : Module).bootst = _
    rewrite [hp, Bool.not_true, Bool.and_false]
    rfl

/-! ### Power-off -/

/-- The machine of a module whose rails fall (R433, R435). -/
def Mach.fallen (m : Mach) (en : Bool) (p : List (Nat × PowerStep)) : Mach :=
  Mach.cold { m with free := m.free + 8 } fun x => { x with pwrEn := x.pwrEn && en, railst := m.module.railst, plan := p }

/-- The rails' fall as the statement says it. -/
def Falls (p : List (Nat × PowerStep)) : Prop :=
  p.map Prod.snd = [.rail 3 false, .rail 2 false, .rail 1 false, .rail 0 false, .bus false] ∧
  ∀ (i : Nat) (a b : Nat × PowerStep), p[i]? = some a → p[i + 1]? = some b → StepSpaced a b

/-- The planned fall falls. -/
theorem planSteps_falls (free at_ : Nat) : Falls (planSteps free at_ fallSteps) :=
  ⟨planSteps_snd free at_ fallSteps, spaced_of_isChain (planSteps_spaced fallSteps_bounded free at_ .release).tail⟩

/-- The module off, by whether it is powered. -/
theorem Mach.off_eq (m : Mach) (cause : PowerCause) :
    m.off cause = m.fallen (cause != .pwrEn) (if m.module.powered then planSteps m.free m.now fallSteps else m.module.plan) := rfl

/-- The rails that a fault may name. -/
theorem railsGood_iff (rail : Nat) : (railsGood.getLsbD rail = true ∧ rail < 32) ↔ rail < 21 ∧ rail ≠ 19 := by
  constructor
  · rintro ⟨h, hlt⟩
    revert h
    interval_cases rail <;> decide
  · rintro ⟨hlt, h⟩
    revert h
    interval_cases rail <;> decide

/-- A rail fault latches its rail and powers the module off. -/
theorem exec_railFault {s : State} {rail : Nat} (hlt : rail < 21) (hne : rail ≠ 19) :
    exec (.railFault rail) s = .next { s with m := (s.m.latchRail rail).off .rail } := by
  obtain ⟨hgood, h32⟩ := (railsGood_iff rail).mpr ⟨hlt, hne⟩
  show execRailFault rail s = _
  unfold execRailFault
  rewrite [hgood, decide_eq_false (Nat.not_le.mpr h32)]
  rfl

/-- A power-off that names no rail. -/
theorem exec_powerOff_cause {s : State} {cause : PowerCause} (h : cause ≠ .rail) : exec (.powerOff cause) s = .next { s with m := s.m.off cause } := by
  show execPowerOff cause s = _
  unfold execPowerOff
  dsimp only
  rw [if_neg h]

/-- A power-off of a rail latches one of the rails. -/
theorem exec_powerOff_rail (s : State) : ∃ rail, rail < 21 ∧ rail ≠ 19 ∧
    exec (.powerOff .rail) s = .next { s with m := (Mach.latchRail { s.m with free := s.m.free + 1 } rail).off .rail } := by
  have hmem : ∀ rail ∈ (List.range 32).filter railsGood.getLsbD, rail < 21 ∧ rail ≠ 19 := by
    intro rail hr
    rw [List.mem_filter, List.mem_range] at hr
    exact (railsGood_iff rail).mp hr.symm
  have hnth (i : Nat) : nth ((List.range 32).filter railsGood.getLsbD) i 20 < 21 ∧ nth ((List.range 32).filter railsGood.getLsbD) i 20 ≠ 19 := by
    by_cases hi : i < ((List.range 32).filter railsGood.getLsbD).length
    · rw [nth, List.getD_eq_getElem _ _ hi]
      exact hmem _ (List.getElem_mem hi)
    · rw [nth, List.getD_eq_default _ _ (Nat.le_of_not_lt hi)]
      decide
  obtain ⟨hlt, hne⟩ := hnth (Config.freeNat s.m.free % ((List.range 32).filter railsGood.getLsbD).length)
  refine ⟨_, hlt, hne, ?_⟩
  show execPowerOff .rail s = _
  unfold execPowerOff
  rfl

/-- The steps that are due, where only the first is (R435). -/
theorem Mach.powerDue_eq {m : Mach} {now t : Nat} {st : PowerStep} {rest : List (Nat × PowerStep)} (hplan : m.module.plan = (t, st) :: rest)
    (ht : t ≤ now) (hrest : ∀ x ∈ rest, now < x.1) {m' : Mach} (hm : (m.modModule fun x => { x with plan := rest }).powerStep st = m') :
    m.powerDue now = if m'.module.powered && m'.module.outs.any (fun o => decide (o.2 + 70000 ≤ now)) then m'.off .rail else m' := by
  have hno : ∀ x ∈ rest, decide (x.1 ≤ now) = false := fun x hx => decide_eq_false (Nat.not_le.mpr (hrest x hx))
  have htake : m.module.plan.takeWhile (fun x => decide (x.1 ≤ now)) = [(t, st)] := by
    rw [hplan, List.takeWhile_cons, if_pos (decide_eq_true ht)]
    cases rest with
    | nil => rfl
    | cons x rest => rw [List.takeWhile_cons, hno x List.mem_cons_self]; rfl
  have hdrop : m.module.plan.dropWhile (fun x => decide (x.1 ≤ now)) = rest := by
    rw [hplan, List.dropWhile_cons, if_pos (decide_eq_true ht)]
    cases rest with
    | nil => rfl
    | cons x rest => rw [List.dropWhile_cons, hno x List.mem_cons_self]; rfl
  have hsteps : m.powerSteps now = m' := by
    unfold Mach.powerSteps
    dsimp only
    rw [htake, ← hm]
    refine congrArg (Mach.powerStep · st) (Mach.modModule_congr ?_)
    rw [hdrop]
  unfold Mach.powerDue
  rewrite [hsteps]
  rfl

/-- PERST_N high of a module at STAGE 4 trains the host link (R435). -/
theorem perstNRelease_stage4 (s : State) (h : s.m.module.stage = 4) :
    ∃ t, exec .perstNRelease s = .next t ∧ t.m.module.perst = false ∧ t.m.module.bootst &&& 0xF = 5 ∧
      bits t.m.module.bootst 24 8 = 0 ∧ (bits t.m.module.bootst 16 3 = 1 ∨ bits t.m.module.bootst 16 3 = 2 ∨ bits t.m.module.bootst 16 3 = 4) := by
  have hwords : ∀ i < 3, ∀ j < 3, let word := bootWord 0 (nth [1, 2, 4] i 1) (nth [5, 6, 7] j 5) 5
      word &&& 0xF = 5 ∧ bits word 24 8 = 0 ∧ (bits word 16 3 = 1 ∨ bits word 16 3 = 2 ∨ bits word 16 3 = 4) := by decide
  have hexec : exec .perstNRelease s = .next { s with m := Mach.modModule { (s.m.modModule fun x => { x with perst := false }) with free := s.m.free + 1 } fun x => { x with
      bootst := bootWord 0 (nth [1, 2, 4] (Config.freeNat s.m.free % 3) 1) (nth [5, 6, 7] (Config.freeNat s.m.free / 3 % 3) 5) 5 } } := by
    show execPerstNRelease s = _
    unfold execPerstNRelease
    dsimp only
    rw [if_neg]
    · rfl
    · show ¬ (s.m.module.stage != 4) = true
      rw [h]
      decide
  exact ⟨_, hexec, rfl, hwords _ (Nat.mod_lt _ (by decide)) _ (Nat.mod_lt _ (by decide))⟩

/-- Settles O44: the planned steps by their bounds, each step by what it shows, and a power-off by whether the module is powered. -/
theorem powerSequencesComplete : Obligations.PowerSequencesComplete := by
  unfold Obligations.PowerSequencesComplete
  intro s m rails boot spaced on fallen falls off word latched
  have hbool {x : Bool} (h : x = false) : ¬ x = true := Bool.eq_false_iff.mp h
  have hspaced {p : List (Nat × PowerStep)} (h : List.IsChain StepSpaced p) : spaced p := spaced_of_isChain h
  have hfalls (free : Nat) : falls (planSteps free s.m.now fallSteps) := planSteps_falls free s.m.now
  refine ⟨fun hostUp r hoff herr => ?_, fun hostUp r hoff herr => ?_, fun hostUp r hon hstage hplan herr => ?_, powerSteps_show s.m,
    fun now t st rest hplan ht hrest => ?_, fun hon => ⟨⟨planSteps s.m.free s.m.now fallSteps, hfalls _, ?_, fun cause hc => ?_, fun rail hlt hne => ?_⟩, ?_⟩,
    fun hoff => ⟨?_, fun cause hc => ?_, fun rail hlt hne => ?_, ?_⟩, fun hstage => ?_, fun hstage => ?_⟩
  · have hne : r.err ≠ 1 := fun h => by rw [h] at herr; revert herr; decide
    refine ⟨_, (exec_powerOn_off hostUp r hoff).trans ?_, ?_, hspaced (bringUp_spaced (err := r.err) (s.m.free + 1) (s.m.free + 8) (Config.freeNat s.m.free) s.m.riseFrom s.m.now rfl)⟩
    · dsimp only
      rewrite [if_neg hne]
      rfl
    · rewrite [List.map_append, planSteps_snd, List.map_cons, planSteps_snd, bootSteps_snd r.err herr, riseSteps_good hne]
      rfl
  · obtain ⟨w, hw⟩ := riseSteps_bad (Config.freeNat s.m.free)
    have hk : Config.freeNat s.m.free % 4 < 4 := Nat.mod_lt _ (by decide)
    refine ⟨_, _, w, (exec_powerOn_off hostUp r hoff).trans ?_, ?_, hk, hspaced (planSteps_spaced (riseSteps_bounded 1 (Config.freeNat s.m.free)) (s.m.free + 1) s.m.riseFrom .release).tail⟩
    · dsimp only
      rewrite [if_pos herr, herr]
      rfl
    · show (planSteps (s.m.free + 1) s.m.riseFrom (riseSteps 1 (Config.freeNat s.m.free))).map Prod.snd = _
      rewrite [planSteps_snd, hw, List.map_append, riseSteps_snd _ hk]
      rfl
  · have hst : s.m.module.stage = 1 := (stage_eq_iff s.m.module (by decide)).mpr hstage
    refine ⟨_, exec_powerOn_booting hostUp r hon hst hplan herr, ?_,
      hspaced (planSteps_spaced (bootSteps_bounded r.err) (s.m.free + 8) s.m.now .release).tail⟩
    have hother : r.err = 0 ∨ 2 ≤ r.err.toNat := by
      by_cases h0 : r.err = 0
      · exact .inl h0
      · have h0' : r.err.toNat ≠ 0 := fun e => h0 (BitVec.eq_of_toNat_eq e)
        have h1' : r.err.toNat ≠ 1 := fun e => herr (BitVec.eq_of_toNat_eq e)
        exact .inr (by omega)
    rw [planSteps_snd, bootSteps_snd r.err hother]
  · intro m'
    have hdue := Mach.powerDue_eq (m := s.m) hplan ht hrest (m' := m') rfl
    refine ⟨fun h => hdue.trans (if_neg ?_), fun hon hout => ⟨planSteps m'.free m'.now fallSteps, planSteps_falls _ _, hdue.trans ((if_pos ?_).trans ?_)⟩⟩
    · rw [Bool.and_eq_true, List.any_eq_true]
      rintro ⟨hon, o, ho, hle⟩
      rcases h with h | h
      · exact hbool h hon
      · exact Nat.not_le.mpr (h o ho) (of_decide_eq_true hle)
    · obtain ⟨o, ho, hle⟩ := hout
      rw [hon, Bool.true_and, List.any_eq_true]
      exact ⟨o, ho, decide_eq_true hle⟩
    · rewrite [Mach.off_eq, if_pos hon]
      rfl
  · show Host.Outcome.next { s with m := s.m.off .therm } = _
    rewrite [Mach.off_eq, if_pos hon]
    rfl
  · rewrite [exec_powerOff_cause hc, Mach.off_eq, if_pos hon]
    rfl
  · rewrite [exec_railFault hlt hne, Mach.off_eq, if_pos (show (s.m.latchRail rail).module.powered = true from hon)]
    rfl
  · obtain ⟨rail, hlt, hne, hexec⟩ := exec_powerOff_rail s
    refine ⟨planSteps (s.m.free + 1) s.m.now fallSteps, rail, hlt, hne, hfalls _, hexec.trans ?_⟩
    rewrite [Mach.off_eq, if_pos (show (Mach.latchRail { s.m with free := s.m.free + 1 } rail).module.powered = true from hon)]
    rfl
  · show Host.Outcome.next { s with m := s.m.off .therm } = _
    rewrite [Mach.off_eq, if_neg (hbool hoff)]
    rfl
  · rewrite [exec_powerOff_cause hc, Mach.off_eq, if_neg (hbool hoff)]
    rfl
  · rewrite [exec_railFault hlt hne, Mach.off_eq, if_neg (show ¬ (s.m.latchRail rail).module.powered = true from hbool hoff)]
    rfl
  · obtain ⟨rail, hlt, hne, hexec⟩ := exec_powerOff_rail s
    refine ⟨rail, hlt, hne, hexec.trans ?_⟩
    rewrite [Mach.off_eq, if_neg (show ¬ (Mach.latchRail { s.m with free := s.m.free + 1 } rail).module.powered = true from hbool hoff)]
    rfl
  · have hst : (s.m.module.stage != 4) = true := bne_iff_ne.mpr fun h => hstage ((stage_eq_iff s.m.module (by decide)).mp h)
    show execPerstNRelease s = _
    unfold execPerstNRelease
    exact if_pos hst
  · exact perstNRelease_stage4 s ((stage_eq_iff s.m.module (by decide)).mpr hstage)

end Sys2Proof.Machine
end

section
/-! PROOF. O45 fails: the update judges a crossing of 95 °C by all 32 bits of the TEMP it finds. -/
namespace Sys2Proof.Machine

/-- A machine whose TEMP register holds a bit above its 16-bit field, one cycle after TEMP was last counted. -/
def State.wideTemp : State :=
  { State.reset with m := { Mach.reset with now := 1, module := { Module.reset with temp := 0x10000 } } }

/-- An update to 0 °C: the field of TEMP has not crossed 95 °C, but the model takes the register for one that has, and starts its count anew. -/
theorem wideTemp_update : ∃ t, exec (.throttleUpdate 0 0 0 []) State.wideTemp = .next t ∧ t.m.module.hotAt = 1 := ⟨_, rfl, rfl⟩

/-- Refutes O45: with 0x10000 in TEMP, whose low 16 bits are 0, an update to 0 °C leaves the count started anew at this cycle, where the
statement has it go on. -/
theorem not_linksErrorsAndThrottlingComplete : ¬ Obligations.LinksErrorsAndThrottlingComplete := by
  unfold Obligations.LinksErrorsAndThrottlingComplete
  rintro ⟨-, h⟩
  obtain ⟨-, -, -, hupdate⟩ := h State.wideTemp
  obtain ⟨t, hexec, -, -, -, -, -, hhot, -⟩ := hupdate 0 0 0 [] (by decide) rfl
  obtain ⟨t', hexec', hhot'⟩ := wideTemp_update
  rw [hexec'] at hexec
  cases hexec
  rw [hhot'] at hhot
  revert hhot
  decide

end Sys2Proof.Machine
end

section
/-! PROOF. O46 fails: a load's buffer that is not in canonical form reads otherwise as one block than lane by lane. -/
namespace Sys2Proof.Machine

/-! ### Lanes of an image of bytes -/

theorem leValue_div (bs : List Byte) (k : Nat) : leValue bs / 256 ^ k = leValue (bs.drop k) := by
  induction k generalizing bs with
  | zero => simp
  | succ k ih =>
    cases bs with
    | nil => simp [leValue]
    | cons b bs =>
      have hb : b.toNat < 256 := b.isLt
      rw [leValue, List.drop_succ_cons, ← ih bs, Nat.pow_succ', ← Nat.div_div_eq_div_mul]
      congr 1
      omega

theorem leValue_mod (bs : List Byte) (k : Nat) : leValue bs % 256 ^ k = leValue (bs.take k) := by
  induction k generalizing bs with
  | zero => simp [Nat.mod_one, leValue]
  | succ k ih =>
    cases bs with
    | nil => simp [leValue]
    | cons b bs =>
      have hb : b.toNat < 256 := b.isLt
      rw [leValue, List.take_succ_cons, leValue, ← ih bs, Nat.pow_succ', Nat.mod_mul]
      congr 1
      · omega
      · congr 2
        omega

/-- The bytes of a part of an image of bytes. -/
theorem extract_bytesImage {n : Nat} (bs : List Byte) (k j : Nat) (h : 8 * k + 8 * j ≤ n) :
    (bytesImage n bs).extractLsb' (8 * k) (8 * j) = BitVec.ofNat (8 * j) (leValue ((bs.drop k).take j)) := by
  apply BitVec.eq_of_toNat_eq
  have hpow (x : Nat) : 2 ^ (8 * x) = 256 ^ x := by rw [Nat.pow_mul]
  have hsplit : 2 ^ n = 256 ^ k * (256 ^ j * 2 ^ (n - (8 * k + 8 * j))) := by
    rw [← hpow, ← hpow, ← Nat.pow_add, ← Nat.pow_add]
    congr 1
    omega
  rw [bytesImage, BitVec.extractLsb'_toNat, BitVec.toNat_ofNat, BitVec.toNat_ofNat, Nat.shiftRight_eq_div_pow, hpow, hpow, hsplit,
    Nat.mod_mul_right_div_self, Nat.mod_mul_right_mod, leValue_div, ← leValue_mod (bs.drop k), Nat.mod_mod]

/-- A lane of an image of bytes. -/
theorem laneAt_bytesImage (bs : List Byte) {i : Nat} (hi : i < 1024) :
    laneAt (bytesImage 32768 bs) i = BitVec.ofNat 32 (leValue ((bs.drop (4 * i)).take 4)) := by
  have h := extract_bytesImage (n := 32768) bs (4 * i) 4 (by omega)
  rw [← Nat.mul_assoc] at h
  exact h

theorem laneAt_and (a b : BitVec 32768) (i : Nat) : laneAt (a &&& b) i = laneAt a i &&& laneAt b i := by
  ext j hj
  simp [laneAt]

theorem laneAt_or (a b : BitVec 32768) (i : Nat) : laneAt (a ||| b) i = laneAt a i ||| laneAt b i := by
  ext j hj
  simp [laneAt]

theorem laneAt_zero (i : Nat) : laneAt 0 i = 0 := by
  ext j hj
  simp [laneAt]

/-! ### The counterexample -/

/-- A buffer that lists byte 0 twice, and then byte 4: as one block its reading stops at the second listing. -/
def twiceListed : Memory := [(0, 1), (0, 1), (4, 2)]

/-- A vector load of the whole of v0, whose buffer is that. -/
def twiceLoaded : Result :=
  { w := 0, issued := 0, dep := none, st := 1, dest := .v 0 0 (BitVec.allOnes 1024), nfl := 0, reads := [], buf := twiceListed, lane := 0, ext := 0 }

/-- Read as one block, lane 1 is 0. -/
theorem twiceListed_block : ((twiceListed.readBlock 0 4096).drop 4).take 4 = [0, 0, 0, 0] := by
  show ((Memory.run (twiceListed.filter fun c => decide (0 ≤ c.1)) 0 (4088 + 8)).drop 4).take 4 = _
  rfl

/-- Read from its own address on, it is 2. -/
theorem twiceListed_lane : twiceListed.readBlock 4 4 = [2, 0, 0, 0] := rfl

/-- The image that v0 takes. -/
theorem twiceLoaded_vreg : ((Mach.reset.landResult 0 twiceLoaded).core 0).vreg 0 =
    maskImage (BitVec.allOnes 1024) (0 ||| bytesImage 32768 (twiceListed.readBlock 0 4096)) 0 := rfl

theorem twiceLoaded_lane : laneAt (((Mach.reset.landResult 0 twiceLoaded).core 0).vreg 0) 1 = 0 := by
  rw [twiceLoaded_vreg, maskImage]
  simp only [laneAt_or, laneAt_and, laneAt_zero]
  rw [laneAt_bytesImage _ (by decide), show 4 * 1 = 4 from rfl, twiceListed_block, show BitVec.ofNat 32 (leValue [0, 0, 0, 0]) = 0 from rfl]
  simp

/-- Refutes O46: v0 takes 0 in lane 1 from a buffer whose bytes 4 to 7 read 2, where the buffer is not in canonical form. -/
theorem not_resultsLand : ¬ Obligations.ResultsLand := by
  unfold Obligations.ResultsLand
  rintro ⟨hregs, -⟩
  have hcores : 0 < Mach.reset.cores.length := Nat.lt_of_lt_of_eq (Nat.zero_lt_succ 191) List.length_replicate.symm
  obtain ⟨-, -, -, -, hv, -⟩ := hregs Mach.reset 0 twiceLoaded hcores
  obtain ⟨w, hlands, hlanes⟩ := hv 0 0 (BitVec.allOnes 1024) rfl
  have hw : ((Mach.reset.landResult 0 twiceLoaded).core 0).vreg 0 = w := by
    rw [show Mach.reset.landResult 0 twiceLoaded = _ from hlands]
    rfl
  have hlane : laneAt w 1 = laneAt 0 1 ||| BitVec.ofNat 32 (leValue (twiceListed.readBlock 4 4)) :=
    (hlanes 1 (by decide)).trans (if_pos (by rw [BitVec.getLsbD_allOnes]; rfl))
  rw [← hw, twiceLoaded_lane, laneAt_zero, twiceListed_lane] at hlane
  revert hlane
  decide

end Sys2Proof.Machine
end

section
/-! SUPPORT. What a memory reads after bytes were laid over it: the last value listed for an address, else what it read before. -/
namespace Sys2Proof.Machine

theorem Memory.read_overlay_nil (m : Memory) (x : Nat) : (m.overlay []).read x = m.read x := rfl

/-- Runs written to memories that read alike leave memories that read alike. -/
theorem Memory.read_foldl_writeBlock_congr (rs : List (Nat × List Byte)) {m n : Memory} (h : ∀ x, m.read x = n.read x) (x : Nat) :
    (rs.foldl (fun m r => m.writeBlock r.1 r.2) m).read x = (rs.foldl (fun m r => Memory.writeBlock m r.1 r.2) n).read x := by
  induction rs generalizing m n with
  | nil => exact h x
  | cons r rs ih =>
    refine ih fun y => ?_
    rw [Memory.read_writeBlock, Memory.read_writeBlock, h y]

/-- A run reads as its first byte written and then the rest. -/
theorem Memory.read_writeBlock_cons (m : Memory) (a : Nat) (b : Byte) (bs : List Byte) (x : Nat) :
    (m.writeBlock a (b :: bs)).read x = ((m.write a b).writeBlock (a + 1) bs).read x := by
  rw [Memory.read_writeBlock, Memory.read_writeBlock]
  by_cases hx : x = a
  · subst hx
    have hcons : x ≤ x ∧ x < x + (b :: bs).length := ⟨Nat.le_refl x, by simp⟩
    have hrest : ¬ (x + 1 ≤ x ∧ x < x + 1 + bs.length) := by omega
    rw [if_pos hcons, if_neg hrest, Memory.read_write_same]
    simp
  · rw [Memory.read_write_other m a b hx]
    by_cases hin : a + 1 ≤ x ∧ x < a + 1 + bs.length
    · rw [if_pos hin, if_pos ⟨by omega, by rw [List.length_cons]; omega⟩, show x - a = x - (a + 1) + 1 by omega, List.getElem?_cons_succ]
    · rw [if_neg hin, if_neg (by rw [List.length_cons]; omega)]

/-- Bytes laid over a memory are its first one written, and then the rest laid over. -/
theorem Memory.read_overlay_cons (m : Memory) (a : Nat) (b : Byte) (ws : List (Nat × Byte)) (x : Nat) :
    (m.overlay ((a, b) :: ws)).read x = ((m.write a b).overlay ws).read x := by
  unfold Memory.overlay
  rw [show byteRuns ((a, b) :: ws) = (match byteRuns ws with
    | (k, bs) :: r => if k = a + 1 then (a, b :: bs) :: r else (a, [b]) :: (k, bs) :: r
    | [] => [(a, [b])]) from rfl]
  cases byteRuns ws with
  | nil => rfl
  | cons r rs =>
    obtain ⟨k, bs⟩ := r
    dsimp only
    by_cases hk : k = a + 1
    · subst hk
      rw [if_pos rfl, List.foldl_cons, List.foldl_cons]
      exact Memory.read_foldl_writeBlock_congr rs (Memory.read_writeBlock_cons m a b bs) x
    · rewrite [if_neg hk]
      rfl

theorem Memory.read_overlay_congr (ws : List (Nat × Byte)) {m n : Memory} (h : ∀ x, m.read x = n.read x) (x : Nat) :
    (m.overlay ws).read x = (n.overlay ws).read x := Memory.read_foldl_writeBlock_congr _ h x

theorem Memory.read_overlay_of_notMem (ws : List (Nat × Byte)) (m : Memory) {x : Nat} (h : x ∉ ws.map Prod.fst) :
    (m.overlay ws).read x = m.read x := by
  induction ws generalizing m with
  | nil => rfl
  | cons w ws ih =>
    obtain ⟨a, b⟩ := w
    rw [List.map_cons, List.mem_cons, not_or] at h
    rw [Memory.read_overlay_cons, ih _ h.2, Memory.read_write_other m a b h.1]

theorem Memory.read_overlay_last (before after : List (Nat × Byte)) (m : Memory) {x : Nat} (b : Byte) (h : x ∉ after.map Prod.fst) :
    (m.overlay (before ++ (x, b) :: after)).read x = b := by
  induction before generalizing m with
  | nil => rw [List.nil_append, Memory.read_overlay_cons, Memory.read_overlay_of_notMem _ _ h, Memory.read_write_same]
  | cons w before ih =>
    obtain ⟨a, c⟩ := w
    rw [List.cons_append, Memory.read_overlay_cons]
    exact ih _

end Sys2Proof.Machine
end

section
/-! A store reaches its bytes only (R203, R251). -/
namespace Sys2Proof.Machine

/-! ### What a change of one core leaves of every core -/

/-- What a change of one core leaves of that core it leaves of every core. -/
theorem Mach.core_modCore_keep {α : Type} (π : Core → α) {m : Mach} {n : Nat} {f : Core → Core} (h : π (f (m.core n)) = π (m.core n)) (k : Nat) :
    π ((m.modCore n f).core k) = π (m.core k) := by
  by_cases hk : k = n
  · subst hk
    by_cases hlen : k < m.cores.length
    · rw [Mach.core_modCore m f hlen, h]
    · rw [Mach.modCore, Mach.setCore, List.set_eq_of_length_le (Nat.le_of_not_lt hlen)]
  · rw [Mach.core_modCore_other m f hk]

theorem Mach.padMem_modCore_keep {m : Mach} {n : Nat} {f : Core → Core} (h : (f (m.core n)).pad.mem = (m.core n).pad.mem) (q : Pad) :
    (m.modCore n f).padMem q = m.padMem q := by
  cases q with
  | core k => exact Mach.core_modCore_keep (fun c => c.pad.mem) h k
  | quad _ => rfl
  | die _ => rfl

/-- What no scratchpad's bytes are part of, a store leaves. -/
theorem Mach.core_padWrite_keep {α : Type} (π : Core → α) (m : Mach) (p : Pad) (ws : List (Nat × Byte))
    (h : ∀ (c : Core) (b : Memory), π { c with pad := { c.pad with mem := b } } = π c) (k : Nat) : π ((m.padWrite p ws).core k) = π (m.core k) := by
  cases p with
  | core n => exact Mach.core_modCore_keep π (h _ _) k
  | quad _ => rfl
  | die _ => rfl

theorem nth_modify_other {α : Type} (l : List α) {n k : Nat} (d : α) (f : α → α) (h : k ≠ n) : nth (l.modify n f) k d = nth l k d := by
  simp [nth, List.getD_eq_getElem?_getD, Ne.symm h]

theorem nth_modify_same {α : Type} {l : List α} {n : Nat} (d : α) (f : α → α) (h : n < l.length) : nth (l.modify n f) n d = f (nth l n d) := by
  simp [nth, List.getD_eq_getElem?_getD, h]

theorem nth_modify_out {α : Type} {l : List α} {n : Nat} (d : α) (f : α → α) (h : l.length ≤ n) (k : Nat) : nth (l.modify n f) k d = nth l k d := by
  by_cases hk : k = n
  · subst hk
    simp [nth, List.getD_eq_getElem?_getD, h]
  · exact nth_modify_other l d f hk

/-! ### The scratchpads after a store -/

theorem Mach.padMem_setPadMem_other (m : Mach) {p q : Pad} (b : Memory) (h : q ≠ p) : (m.setPadMem p b).padMem q = m.padMem q := by
  cases p <;> cases q <;> simp only [ne_eq, Pad.core.injEq, Pad.quad.injEq, Pad.die.injEq] at h
  case core.core => exact congrArg (fun c : Core => c.pad.mem) (Mach.core_modCore_other m _ h)
  case quad.quad => exact congrArg (fun q : Shared => q.mem) (nth_modify_other _ _ _ h)
  case die.die => exact congrArg (fun q : Shared => q.mem) (nth_modify_other _ _ _ h)
  all_goals rfl

theorem Mach.padMem_setPadMem_same {m : Mach} {p : Pad} (b : Memory) (h : Claims.hasPad m p) : (m.setPadMem p b).padMem p = b := by
  cases p with
  | core n => exact congrArg (fun c : Core => c.pad.mem) (Mach.core_modCore m _ h)
  | quad n => exact congrArg (fun q : Shared => q.mem) (nth_modify_same _ _ h)
  | die n => exact congrArg (fun q : Shared => q.mem) (nth_modify_same _ _ h)

/-- A scratchpad that does not exist takes no bytes. -/
theorem Mach.padMem_setPadMem_absent {m : Mach} {p : Pad} (b : Memory) (h : ¬ Claims.hasPad m p) (q : Pad) :
    (m.setPadMem p b).padMem q = m.padMem q := by
  by_cases hq : q = p
  · subst hq
    cases q with
    | core n =>
      rw [Mach.setPadMem, Mach.modCore, Mach.setCore, List.set_eq_of_length_le (Nat.le_of_not_lt h)]
    | quad n => exact congrArg (fun q : Shared => q.mem) (nth_modify_out _ _ (Nat.le_of_not_lt h) n)
    | die n => exact congrArg (fun q : Shared => q.mem) (nth_modify_out _ _ (Nat.le_of_not_lt h) n)
  · exact Mach.padMem_setPadMem_other m b hq

theorem Mach.read_padWrite_other (m : Mach) {p q : Pad} (ws : List (Nat × Byte)) {a : Nat} (h : q ≠ p ∨ a ∉ ws.map Prod.fst) :
    ((m.padWrite p ws).padMem q).read a = (m.padMem q).read a := by
  by_cases hq : q = p
  · subst hq
    by_cases hp : Claims.hasPad m q
    · rw [Mach.padWrite, Mach.padMem_setPadMem_same _ hp, Memory.read_overlay_of_notMem _ _ (h.resolve_left (absurd rfl))]
    · rw [Mach.padWrite, Mach.padMem_setPadMem_absent _ hp]
  · rw [Mach.padWrite, Mach.padMem_setPadMem_other m _ hq]

theorem Mach.read_padWrite_last {m : Mach} {p : Pad} (hp : Claims.hasPad m p) (before after : List (Nat × Byte)) {a : Nat} (b : Byte)
    (h : a ∉ after.map Prod.fst) : ((m.padWrite p (before ++ (a, b) :: after)).padMem p).read a = b := by
  rw [Mach.padWrite, Mach.padMem_setPadMem_same _ hp, Memory.read_overlay_last _ _ _ _ h]

/-! ### A store that lands -/

/-- An access that completes is noted, and nothing else of the core changes. -/
theorem Core.completed_eq (c : Core) (now : Nat) (r : Result) :
    c.completed now r = { c with scal := { c.scal with ended := (c.completed now r).scal.ended } } := by
  unfold Core.completed
  split <;> rfl

theorem Mach.landResult_pad (m : Mach) (core : Nat) {r : Result} {p : Pad} {ws : List (Nat × Byte)} (h : r.dest = .pad p ws) :
    m.landResult core r = ((m.modCore core fun c => c.completed m.now r).padWrite p ws).modCore core fun c => c.flag m.now r.nfl := by
  unfold Mach.landResult
  dsimp only
  rewrite [h]
  rfl

/-- What neither the note of ended accesses, nor the flags, nor a scratchpad's bytes are part of, a landing store leaves at every core. -/
theorem Mach.core_landResult_pad_keep {α : Type} (π : Core → α) (m : Mach) (core : Nat) {r : Result} {p : Pad} {ws : List (Nat × Byte)}
    (h : r.dest = .pad p ws) (hpad : ∀ (c : Core) (b : Memory), π { c with pad := { c.pad with mem := b } } = π c)
    (hctl : ∀ (c : Core) (x : Ctl), π { c with ctl := x } = π c)
    (hend : ∀ (c : Core) (e : Nat × List (Place × Bool)), π { c with scal := { c.scal with ended := e } } = π c) (k : Nat) :
    π ((m.landResult core r).core k) = π (m.core k) := by
  rw [Mach.landResult_pad m core h]
  refine (Mach.core_modCore_keep π (hctl _ _) k).trans ((Mach.core_padWrite_keep π _ p ws hpad k).trans (Mach.core_modCore_keep π ?_ k))
  rw [Core.completed_eq]
  exact hend _ _

theorem Mach.padMem_landResult_pad (m : Mach) (core : Nat) {r : Result} {p : Pad} {ws : List (Nat × Byte)} (h : r.dest = .pad p ws) (q : Pad) :
    (m.landResult core r).padMem q = ((m.modCore core fun c => c.completed m.now r).padWrite p ws).padMem q := by
  rw [Mach.landResult_pad m core h]
  exact Mach.padMem_modCore_keep rfl q

theorem Mach.padMem_modCore_completed (m : Mach) (core : Nat) (r : Result) (q : Pad) :
    (m.modCore core fun c => c.completed m.now r).padMem q = m.padMem q :=
  Mach.padMem_modCore_keep (by rw [Core.completed_eq]) q

theorem Mach.hasPad_modCore {m : Mach} {p : Pad} (n : Nat) (f : Core → Core) (h : Claims.hasPad m p) : Claims.hasPad (m.modCore n f) p := by
  cases p with
  | core k => exact Nat.lt_of_lt_of_eq h (Mach.modCore_cores_length m n f).symm
  | quad _ => exact h
  | die _ => exact h

theorem landingStoreReachesItsBytesOnly (m : Mach) (core : Nat) (r : Result) (p : Pad) (ws : List (Nat × Byte)) (h : r.dest = .pad p ws) :
    let t := m.landResult core r
    (∀ q a, q ≠ p ∨ a ∉ ws.map Prod.fst → (t.padMem q).read a = (m.padMem q).read a) ∧
    (Claims.hasPad m p → ∀ before a b after, ws = before ++ (a, b) :: after → a ∉ after.map Prod.fst → (t.padMem p).read a = b) ∧
    t.dev = m.dev ∧ t.host = m.host ∧ (∀ k, { (t.core k).scal with ended := (m.core k).scal.ended } = (m.core k).scal ∧ (t.core k).vec = (m.core k).vec ∧ (t.core k).mx = (m.core k).mx ∧
      (t.core k).hv = (m.core k).hv ∧ (t.core k).frame = (m.core k).frame ∧ (t.core k).cstore = (m.core k).cstore) := by
  have hkeep {α : Type} (π : Core → α) := Mach.core_landResult_pad_keep π m core h
  refine ⟨fun q a hqa => ?_, fun hp before a b after hws hlast => ?_, ?_, ?_, fun k => ⟨?_, ?_, ?_, ?_, ?_, ?_⟩⟩
  · rw [Mach.padMem_landResult_pad m core h, Mach.read_padWrite_other _ ws hqa, Mach.padMem_modCore_completed]
  · rw [Mach.padMem_landResult_pad m core h, hws]
    exact Mach.read_padWrite_last (Mach.hasPad_modCore core _ hp) before after b hlast
  · rw [Mach.landResult_pad m core h]
    simp
  · rw [Mach.landResult_pad m core h]
    simp
  · exact hkeep (fun c => { c.scal with ended := (m.core k).scal.ended }) (fun _ _ => rfl) (fun _ _ => rfl) (fun _ _ => rfl) k
  · exact hkeep (fun c => c.vec) (fun _ _ => rfl) (fun _ _ => rfl) (fun _ _ => rfl) k
  · exact hkeep (fun c => c.mx) (fun _ _ => rfl) (fun _ _ => rfl) (fun _ _ => rfl) k
  · exact hkeep (fun c => c.hv) (fun _ _ => rfl) (fun _ _ => rfl) (fun _ _ => rfl) k
  · exact hkeep (fun c => c.frame) (fun _ _ => rfl) (fun _ _ => rfl) (fun _ _ => rfl) k
  · exact hkeep (fun c => c.cstore) (fun _ _ => rfl) (fun _ _ => rfl) (fun _ _ => rfl) k

/-! ### The addresses of a store put in flight -/

theorem mem_atAddr_fst (a x : Nat) (bs : List Byte) : x ∈ (atAddr a bs).map Prod.fst ↔ a ≤ x ∧ x < a + bs.length := by
  have hfst : (atAddr a bs).map Prod.fst = (List.range bs.length).map (a + ·) := by
    refine List.ext_getElem (by simp [atAddr]) fun i _ _ => ?_
    simp [atAddr]
  rw [hfst, List.mem_map]
  constructor
  · rintro ⟨i, hi, rfl⟩
    exact ⟨Nat.le_add_right a i, Nat.add_lt_add_left (List.mem_range.mp hi) a⟩
  · rintro ⟨hlo, hhi⟩
    exact ⟨x - a, List.mem_range.mpr (by omega), by omega⟩

theorem mem_rowBytes_fst (img : BitVec 32768) (mask : BitVec 1024) (row addr x : Nat) :
    x ∈ (rowBytes img mask row addr).map Prod.fst ↔ ∃ c < 64, mask.getLsbD (row * 64 + c) = true ∧ addr + 4 * c ≤ x ∧ x < addr + 4 * c + 4 := by
  rw [rowBytes, List.map_flatMap, List.mem_flatMap]
  refine exists_congr fun c => ?_
  rw [List.mem_range]
  refine and_congr_right fun _ => ?_
  by_cases hc : mask.getLsbD (row * 64 + c) = true
  · rw [if_pos hc, mem_atAddr_fst, length_leBytes]
    exact ⟨fun h => ⟨hc, h⟩, And.right⟩
  · rw [if_neg hc]
    exact ⟨fun h => absurd h List.not_mem_nil, fun h => absurd h.1 hc⟩

/-- The bytes of an image stored are those of its selected lanes (R251). -/
theorem mem_imageWrites_fst (img : BitVec 32768) (mask : BitVec 1024) (ea x : Nat) :
    x ∈ (imageWrites img mask ea).map Prod.fst ↔ ∃ i < 1024, mask.getLsbD i = true ∧ ea + 4 * i ≤ x ∧ x < ea + 4 * i + 4 := by
  rw [imageWrites, List.map_flatMap, List.mem_flatMap]
  constructor
  · rintro ⟨row, hrow, hx⟩
    obtain ⟨c, hc, hmask, hlo, hhi⟩ := (mem_rowBytes_fst img mask row _ x).mp hx
    have hrow' := List.mem_range.mp hrow
    exact ⟨row * 64 + c, by omega, hmask, by omega, by omega⟩
  · rintro ⟨i, hi, hmask, hlo, hhi⟩
    have hsplit : i / 64 * 64 + i % 64 = i := Nat.div_add_mod' i 64
    have hlt := Nat.mod_lt i (show 64 > 0 by decide)
    refine ⟨i / 64, List.mem_range.mpr (by omega), (mem_rowBytes_fst img mask _ _ x).mpr ⟨i % 64, hlt, ?_, by omega, by omega⟩⟩
    rwa [hsplit]

/-! ### The lane's result is in flight after its issue -/

theorem Core.flight_laneDone (c : Core) (st : Stream) (now busy : Nat) : (c.laneDone st now busy).flight = c.flight := by
  unfold Core.laneDone
  split
  · rfl
  · unfold Core.advance
    dsimp only
    (repeat' split) <;> rfl

theorem Core.flight_popAll (c : Core) (now : Nat) (ps : List Nat) : (c.popAll now ps).flight = c.flight := by
  induction ps generalizing c with
  | nil => rfl
  | cons q ps ih => exact (ih (c.pop now q)).trans rfl

theorem Mach.bookSlots_frame (m : Mach) (core lvl : Nat) (write : Bool) (ts : List Nat) (froze : Bool) :
    (m.bookSlots core lvl write ts froze).cur = m.cur ∧ (m.bookSlots core lvl write ts froze).cores.length = m.cores.length := by
  unfold Mach.bookSlots
  induction ts generalizing m with
  | nil => exact ⟨rfl, rfl⟩
  | cons t ts ih =>
    obtain ⟨hcur, hlen⟩ := ih (m.bookSlot core (lvlReach lvl) write t froze)
    exact ⟨hcur, hlen.trans (Mach.modCore_cores_length m core _)⟩

theorem Mach.bookTiming_cur (m : Mach) (core lvl : Nat) (write : Bool) (t : Timing) (froze : Bool) :
    (m.bookTiming core lvl write t froze).cur = m.cur := (Mach.bookSlots_frame _ core lvl write t.slots froze).1

theorem Mach.bookTiming_cores_length (m : Mach) (core lvl : Nat) (write : Bool) (t : Timing) (froze : Bool) :
    (m.bookTiming core lvl write t froze).cores.length = m.cores.length :=
  (Mach.bookSlots_frame _ core lvl write t.slots froze).2.trans (Mach.modCore_cores_length m core _)

theorem Mach.writeBase_cur (m : Mach) (inc : Option (Nat × W64)) : (m.writeBase inc).cur = m.cur := by
  cases inc <;> rfl

theorem Mach.writeBase_cores_length (m : Mach) (inc : Option (Nat × W64)) : (m.writeBase inc).cores.length = m.cores.length := by
  cases inc with
  | none => rfl
  | some x => exact Mach.modMe_cores_length m _

/-- A result put in flight by a lane's act is in flight after the lane issued. -/
theorem State.mem_flight_issued (s : State) (st : Stream) (busy : Nat) {m : Mach} (r : Result) (h : m.cur < m.cores.length) :
    r ∈ (s.issued st busy (m.modMe fun c => c.fly r)).m.me.flight := by
  rw [State.issued, Mach.me_modMe _ _ (by rw [Mach.modMe_cores_length]; exact h), Core.flight_laneDone, Mach.me_modMe m _ h]
  exact List.mem_append_right _ (List.mem_singleton.mpr rfl)

theorem State.mem_flight_issuedS (s : State) (u : SUse) {m : Mach} (r : Result) (h : m.cur < m.cores.length) :
    r ∈ (s.issuedS u (m.modMe fun c => c.fly r)).m.me.flight := by
  have hlen : (m.modMe fun c => c.fly r).cur < (m.modMe fun c => c.fly r).cores.length := by rw [Mach.modMe_cores_length]; exact h
  rw [State.issuedS, State.issued, Mach.me_modMe _ _ (by rw [Mach.modMe_cores_length]; exact hlen), Core.flight_laneDone, Mach.me_modMe _ _ hlen,
    Core.flight_popAll, Mach.me_modMe m _ h]
  exact List.mem_append_right _ (List.mem_singleton.mpr rfl)

/-! ### ST and VST -/

/-- The store that ST puts in flight. -/
def Mach.stResult (m : Mach) (l : Lane) : Result :=
  { m.result .s 0 (.pad (padAt m.cur (modeLvl l.b)) (atAddr (Lane.address m.me l) (leBytes (accessBytes l.fn) (m.me.sreg l.dst.toNat).toNat))) 0 with
    w := maxOf (m.writeTiming m.cur (modeLvl l.b) (Lane.address m.me l) 1 m.now).data, dep := if modeLvl l.b = 0 then none else some m.now }

theorem exec_sSt (s : State) (l : Lane) (h : SReady s.m l (useSSt l s.m)) :
    exec (.sSt l) s = .next (s.issuedS (useSSt l s.m) (((s.m.bookTiming s.m.cur (modeLvl l.b) true
      (s.m.writeTiming s.m.cur (modeLvl l.b) (Lane.address s.m.me l) 1 s.m.now)).writeBase (Lane.postInc s.m.me l)).modMe fun c =>
        c.fly (s.m.stResult l))) := by
  show execSSt l s = _
  unfold execSSt
  exact runS_issues h rfl

/-- The store that VST puts in flight. -/
def Mach.vstResult (m : Mach) (l : Lane) (mask : BitVec 1024) : Result :=
  { m.result .v 6 (.pad (padAt m.cur (modeLvl l.a)) (imageWrites (m.me.vreg l.dst.toNat) mask (m.vAddress l))) 0 with
    w := if modeLvl l.a = 0 then m.now + 6 else maxOf (m.writeTiming m.cur (modeLvl l.a) (m.vAddress l) 16 m.now).data,
    dep := if modeLvl l.a = 0 then none else some m.now, ext := 4096 }

theorem exec_vst (s : State) (l : Lane) (h : VReady s.m l (maskClusters (s.m.me.mreg l.p.toNat)) (useVst l s.m (s.m.me.mreg l.p.toNat))) :
    exec (.vst l) s = .next (s.issued .v 0 ((s.m.bookTiming s.m.cur (modeLvl l.a) true
      (s.m.writeTiming s.m.cur (modeLvl l.a) (s.m.vAddress l) 16 s.m.now)).modMe fun c => c.fly (s.m.vstResult l (s.m.me.mreg l.p.toNat)))) := by
  show execVst l s = _
  unfold execVst
  exact runV_issues h rfl

/-- Settles O47: a landing store lays its bytes over its scratchpad and touches nothing else, and ST and VST put in flight a store to their own bytes. -/
theorem storesReachTheirBytesOnly : Obligations.StoresReachTheirBytesOnly := by
  refine ⟨landingStoreReachesItsBytesOnly, fun s l hcur => ⟨fun hready => ⟨_, s.m.stResult l, _, exec_sSt s l hready, ?_, rfl, fun a => ?_⟩,
    fun hready => ⟨_, s.m.vstResult l (s.m.me.mreg l.p.toNat), _, exec_vst s l hready, ?_, rfl, fun a => ?_⟩⟩⟩
  · refine State.mem_flight_issuedS s _ _ ?_
    rw [Mach.writeBase_cur, Mach.writeBase_cores_length, Mach.bookTiming_cur, Mach.bookTiming_cores_length]
    exact hcur
  · rw [mem_atAddr_fst, length_leBytes]
  · refine State.mem_flight_issued s .v 0 _ ?_
    rw [Mach.bookTiming_cur, Mach.bookTiming_cores_length]
    exact hcur
  · exact mem_imageWrites_fst _ _ _ a

end Sys2Proof.Machine
end

section
/-! PROOF. O48 fails: a buffer state of more than two bits, kept beside a buffer that is freed, spills out of BST. -/
namespace Sys2Proof.Machine

/-! ### The counterexample -/

/-- A buffer of bank 0 in the state `bst`. -/
def bankZeroBuffer (bst : Nat) : Chan := ⟨false, 0, 256, bst, [], 0, none, none⟩

/-- A core with its domains ON and two buffers of bank 0, one FULL, to be freed, and one in a state 4, which no two bits hold. -/
def sharedBankCore : Core :=
  { Core.reset with
    doms := List.replicate 55 ⟨.on, none, 0⟩
    xe := { Core.reset.xe with chans := [some (bankZeroBuffer 2), some (bankZeroBuffer 4)] } }

/-- A machine of that core alone. -/
def sharedBankMach : Mach := { Mach.reset with cores := [sharedBankCore] }

/-- XBUF.rel of channel 0. -/
def releaseLane : Lane := ⟨0, 0, 0, 0, 0, 0, 0, none⟩

/-- The machine with channel 0's buffer freed. -/
def releasedMach : Mach := sharedBankMach.modMe fun c => (c.setChan 0 none).setBst 0 256 0

theorem releaseLane_ready : XReady sharedBankMach (useXbufRel releaseLane sharedBankMach) := by
  unfold XReady
  decide

theorem exec_releaseLane : exec (.xbufRel releaseLane) ⟨sharedBankMach, none, []⟩ = .next (State.issued ⟨sharedBankMach, none, []⟩ .x 0 releasedMach) := by
  show execXbufRel releaseLane _ = _
  unfold execXbufRel
  exact runX_issues releaseLane_ready rfl

theorem fmtReg_sharedBankMach : sharedBankMach.fmtReg (.core 0) 0 = 0 := rfl

/-- After XBUF.rel the format register holds the other buffer's state from bit 14 on: bit 16 is set. -/
theorem fmtReg_released : (State.issued ⟨sharedBankMach, none, []⟩ .x 0 releasedMach).m.fmtReg (.core 0) 0 = 0x10000 := by
  decide

/-- Refutes O48: where two buffers share a bank, XBUF.rel of the one leaves the other's state in the bank's BST, and a state of 4 changes bit 16 of
the format register. -/
theorem not_lanesChangeNoRegister : ¬ Obligations.LanesChangeNoRegister := by
  unfold Obligations.LanesChangeNoRegister
  intro h
  obtain ⟨-, -, hfmt, -, -⟩ := h ⟨sharedBankMach, none, []⟩ _ _ .x _ releaseLane none rfl (by decide) (fun b hb => nomatch hb) rfl exec_releaseLane rfl
  have hbank := hfmt (.core 0) 0
  rw [fmtReg_released, show (⟨sharedBankMach, none, []⟩ : State).m.fmtReg (.core 0) 0 = 0 from fmtReg_sharedBankMach] at hbank
  revert hbank
  decide

end Sys2Proof.Machine
end

section
/-! SUPPORT. Shared memories in canonical form: the operations over cores, scratchpads, domains, publications and routes keep them. -/
open Sys2Proof Sys2Proof.Machine

/-! ### Cores, scratchpads and domains leave the shared memories -/

/-- Whichever of two machines it is. -/
theorem Claims.canonical.ite {c : Prop} [Decidable c] {a b : Mach} (ha : Claims.canonical a) (hb : Claims.canonical b) :
    Claims.canonical (if c then a else b) := by
  split <;> assumption

section
variable {m : Mach} (h : Claims.canonical m)
include h

theorem Claims.canonical.modCore (n : Nat) (f : Core → Core) : Claims.canonical (m.modCore n f) := h
theorem Claims.canonical.setCore (n : Nat) (c : Core) : Claims.canonical (m.setCore n c) := h
theorem Claims.canonical.modMe (f : Core → Core) : Claims.canonical (m.modMe f) := h
theorem Claims.canonical.modCtl (f : Ctl → Ctl) : Claims.canonical (m.modCtl f) := h
theorem Claims.canonical.write (st : Stream) (lat : Nat) (d : Dest) (nfl : Flags) : Claims.canonical (m.write st lat d nfl) := h

theorem Claims.canonical.setPadMem (p : Pad) (b : Memory) : Claims.canonical (m.setPadMem p b) := by cases p <;> exact h
theorem Claims.canonical.setFmtReg (p : Pad) (i : Nat) (v : W32) : Claims.canonical (m.setFmtReg p i v) := by cases p <;> exact h
theorem Claims.canonical.setDom (d : DomRef) (v : Dom) : Claims.canonical (m.setDom d v) := by cases d <;> exact h
theorem Claims.canonical.padWrite (p : Pad) (ws : List (Nat × Byte)) : Claims.canonical (m.padWrite p ws) := h.setPadMem p _

/-! ### Writes of the shared memories -/

theorem Claims.canonical.setHost {host : Memory} (hhost : host.Wf) : Claims.canonical { m with host := host } := ⟨h.1, hhost, h.2.2⟩

/-- A peer's memory is canonical, also one that none is listed for. -/
theorem Claims.canonical.peer (num : Nat) : Memory.Wf (((m.peers.find? fun p => p.1 == num).map Prod.snd).getD []) := by
  cases hfind : m.peers.find? fun p => p.1 == num with
  | none => exact Memory.wf_nil
  | some p => exact h.2.2 p (List.mem_of_find?_eq_some hfind)

theorem Claims.canonical.setPeer (num : Nat) {mem : Memory} (hmem : mem.Wf) :
    Claims.canonical { m with peers := (num, mem) :: m.peers.filter fun p => p.1 != num } := by
  refine ⟨h.1, h.2.1, fun p hp => ?_⟩
  rcases List.mem_cons.mp hp with rfl | hp
  · exact hmem
  · exact h.2.2 p (List.mem_filter.mp hp).1

/-- A write is published: device memory is laid over with its bytes. -/
theorem Claims.canonical.addPub (p : Pub) : Claims.canonical (m.addPub p) := ⟨Memory.wf_overlay h.1 _, h.2⟩

theorem Claims.canonical.devWrite (bs : List (Nat × Byte)) : Claims.canonical (m.devWrite bs) := h.addPub _

theorem Claims.canonical.devAtomic (bs : List (Nat × Byte)) : Claims.canonical (m.devAtomic bs) := h.devWrite bs

theorem Claims.canonical.spoil (bs : List (Nat × Byte)) : Claims.canonical (m.spoil bs) := h
theorem Claims.canonical.carryImage (x : SaveImage) : Claims.canonical (m.carryImage x) := h

/-- What an agent outside writes (R141). -/
theorem Claims.canonical.arrive (a : Arrival) : Claims.canonical (m.arrive a) := by
  cases a with
  | dev bs => exact h.devWrite bs
  | image x => exact h.devWrite _
  | host bs => exact h.setHost (Memory.wf_overlay h.2.1 bs)
  | peer num bs => exact h.setPeer num (Memory.wf_overlay (h.peer num) bs)
  | corrected n => exact h
  | cxl hdm => exact h
  | mem a bs => exact h.devWrite _
  | rail n within => exact h

/-! ### Boundaries -/

theorem Claims.canonical.refresh (core : Nat) : Claims.canonical (m.refresh core) := h

theorem Claims.canonical.widen (nos : List Nat) (scope : BitVec 4) : Claims.canonical (m.widen nos scope) := by
  unfold Mach.widen
  split <;> exact h

theorem Claims.canonical.publishNew (core : Nat) (scope : BitVec 4) (w : GWrite) : Claims.canonical (m.publishNew core scope w) := h.addPub _

theorem Claims.canonical.publish (core : Nat) (scope : BitVec 4) (cut : Nat) : Claims.canonical (m.publish core scope cut) :=
  foldl_inv (P := Claims.canonical) (fun _ w hb => hb.publishNew core scope w) _ (h.widen _ scope)

theorem Claims.canonical.boundaryOf (core : Nat) (scope : BitVec 4) (cut : Nat) : Claims.canonical (m.boundaryOf core scope cut) :=
  h.publish core scope cut

theorem Claims.canonical.boundary (core : Nat) (scope : BitVec 4) : Claims.canonical (m.boundary core scope) := h.boundaryOf core scope _

theorem Claims.canonical.postBoundary (core : Nat) (scope : BitVec 4) : Claims.canonical (m.postBoundary core scope) := by
  unfold Mach.postBoundary
  split
  · exact h.boundary core scope
  · exact h

theorem Claims.canonical.takeBound (core : Nat) : Claims.canonical (m.takeBound core) := by
  unfold Mach.takeBound
  split
  · exact h
  · exact Claims.canonical.boundaryOf (m := Mach.modCore _ _ _) h ..

theorem Claims.canonical.acquire (core : Nat) (scope : BitVec 4) : Claims.canonical (m.acquire core scope) := by
  unfold Mach.acquire
  split
  · exact h.boundary core scope
  · exact (h.refresh core).postBoundary core scope

theorem Claims.canonical.boundaryAll (t : Task) (scope : BitVec 4) : Claims.canonical (m.boundaryAll t scope) :=
  foldl_inv (P := Claims.canonical) (fun _ c hb => hb.boundary c scope) _ h

theorem Claims.canonical.boundaryAt (cores : List Nat) (scope : BitVec 4) : Claims.canonical (m.boundaryAt cores scope) :=
  foldl_inv (P := Claims.canonical) (fun _ c hb => hb.boundary c scope) _ h

/-! ### Walks and flits -/

theorem Claims.canonical.sendFlits (p : PeerEntry) (type : BitVec 16) (xs : List FlitLoad) : Claims.canonical (m.sendFlits p type xs) := by
  unfold Mach.sendFlits
  dsimp only
  split <;> exact h

theorem Claims.canonical.askPull (f gpa : Nat) : Claims.canonical (m.askPull f gpa) := by
  unfold Mach.askPull
  dsimp only
  split
  · exact h
  · split
    · refine Claims.canonical.sendFlits ?_ ..
      exact h
    · exact h

theorem Claims.canonical.walkCore (core va : Nat) (k : Access) : Claims.canonical (m.walkCore core va k).1 := by
  unfold Mach.walkCore
  split
  · exact h
  · split
    · exact h.askPull ..
    · exact h
    · dsimp only
      split
      · exact h.devAtomic _
      · exact h

/-! ### Slots and barriers -/

theorem Claims.canonical.bookSlot (core : Nat) (r : Reach) (write : Bool) (t : Nat) (froze : Bool) :
    Claims.canonical (m.bookSlot core r write t froze) := h

theorem Claims.canonical.bookSlots (core lvl : Nat) (write : Bool) (ts : List Nat) (froze : Bool) :
    Claims.canonical (m.bookSlots core lvl write ts froze) :=
  foldl_inv (P := Claims.canonical) (fun _ t hb => hb.bookSlot core _ write t froze) ts h

theorem Claims.canonical.bookTiming (core lvl : Nat) (write : Bool) (t : Timing) (froze : Bool) :
    Claims.canonical (m.bookTiming core lvl write t froze) :=
  Claims.canonical.bookSlots (m := Mach.modCore _ _ _) h core lvl write _ froze

theorem Claims.canonical.sendWrite {core : Nat} {r : Reach} {t : Nat} {own : Bool} {m' : Mach} {x : Nat × Nat}
    (hx : m.sendWrite core r t own = some (m', x)) : Claims.canonical m' := by
  cases r <;> simp only [Mach.sendWrite, Option.map_eq_some_iff, Option.some.injEq, Prod.mk.injEq, reduceCtorEq] at hx
  case hbm | crossHbm =>
    obtain ⟨_, _, rfl, _⟩ := hx
    exact h
  all_goals
    obtain ⟨rfl, _⟩ := hx
    exact h

theorem Claims.canonical.sendRead {core : Nat} {r : Reach} {t : Nat} {own : Bool} {m' : Mach} {x : Nat × Nat × Nat}
    (hx : m.sendRead core r t own = some (m', x)) : Claims.canonical m' := by
  cases r <;> simp only [Mach.sendRead, Option.map_eq_some_iff, Option.some.injEq, Prod.mk.injEq, reduceCtorEq] at hx
  case hbm | crossHbm =>
    obtain ⟨_, _, rfl, _⟩ := hx
    exact h
  all_goals
    obtain ⟨rfl, _⟩ := hx
    exact h

theorem Claims.canonical.atomRoute {own : Bool} {core : Nat} {r : Reach} {t : Nat} {m' : Mach} {x : Nat × Nat × Nat}
    (hx : m.atomRoute own core r t = some (m', x)) : Claims.canonical m' := by
  unfold Mach.atomRoute at hx
  split at hx
  · cases hx
  · next hwrite =>
    split at hx
    · cases hx
    · next hread =>
      cases hx
      exact (h.sendWrite hwrite).sendRead hread

theorem Claims.canonical.setRestart (core from_ : Nat) : Claims.canonical (m.setRestart core from_) := h
theorem Claims.canonical.setBar (b : Barrier) : Claims.canonical (m.setBar b) := h
theorem Claims.canonical.changeBar (ref : BarRef) (f : Barrier → Barrier) : Claims.canonical (m.changeBar ref f) := h

theorem Claims.canonical.barExit (core : Nat) : Claims.canonical (m.barExit core) := by
  unfold Mach.barExit
  split
  · exact h
  · exact foldl_inv (P := Claims.canonical) (fun _ _ hb => hb.changeBar _ _) _ (Claims.canonical.modCore h core _)

theorem Claims.canonical.writeBase (inc : Option (Nat × W64)) : Claims.canonical (m.writeBase inc) := by
  cases inc <;> exact h

theorem Claims.canonical.issueLoad (l : Lane) (ea bytes : Nat) (signed : Bool) (atom : Option AtomOp) (acq : Option (BitVec 4)) :
    Claims.canonical (m.issueLoad l ea bytes signed atom acq) := h

/-! ### Domains -/

theorem Claims.canonical.startWake (d : DomRef) (t : Nat) : Claims.canonical (m.startWake d t) := by
  unfold Mach.startWake
  split
  · exact h.setDom d _
  · exact h.setDom d _
  · exact h

theorem Claims.canonical.planWakes (core : Nat) (ds : List DomRef) : Claims.canonical (m.planWakes core ds).1 := by
  refine foldl_inv (P := Claims.canonical) (fun b p hb => ?_) _ h
  dsimp only
  split
  · exact hb.startWake ..
  · exact hb

theorem Claims.canonical.deferSleeps (ds : List DomRef) : Claims.canonical (m.deferSleeps ds) := by
  refine foldl_inv (P := Claims.canonical) (fun b d hb => ?_) ds h
  split
  · split
    · exact hb.setDom d _
    · exact hb
  · exact hb

theorem Claims.canonical.clearDom (d : DomRef) : Claims.canonical (m.clearDom d) := by
  cases d with
  | quad q s => exact h.setPadMem _ _
  | die k s => exact h.setPadMem _ _
  | core n b =>
    unfold Mach.clearDom
    dsimp only
    split
    · exact h.setPadMem _ _
    · exact h

theorem Claims.canonical.segsOff (core : Nat) : Claims.canonical (m.segsOff core) := by
  have hoff (p : Pad) (b : Mach) (s : Nat) (hb : Claims.canonical b) : Claims.canonical
      (if core < 96 && b.lingered (p.dom s) then b else (b.setDom (p.dom s) Dom.offDom).setFmtReg p s 0) := by
    split
    · exact hb
    · exact (hb.setDom _ _).setFmtReg p s 0
  unfold Mach.segsOff
  dsimp only
  split
  · exact h
  · exact foldl_inv (P := Claims.canonical) (hoff _) _ (foldl_inv (P := Claims.canonical) (hoff _) _ h)

theorem Claims.canonical.shed (core : Nat) : Claims.canonical (m.shed core) := by
  unfold Mach.shed
  dsimp only
  split <;> exact h.segsOff core

theorem Claims.canonical.startWakes (next core : Nat) : Claims.canonical (m.startWakes next core) := by
  unfold Mach.startWakes
  dsimp only
  split
  · exact h
  · exact foldl_inv (P := Claims.canonical) (fun _ w hb => hb.startWake _ next) _ h

theorem Claims.canonical.tileSleeps (ds : List DomRef) : Claims.canonical (m.tileSleeps ds) := by
  refine foldl_inv (P := Claims.canonical) (fun b d hb => ?_) ds h
  dsimp only
  split
  · exact hb.setDom d _
  · exact hb

end

end

section
/-! SUPPORT. Shared memories in canonical form: stops, landings and lanes keep the invariant. -/
open Sys2Proof Sys2Proof.Machine

/-! ### States and outcomes -/

/-- An outcome whose state, where it has one, meets the invariant. -/
structure Claims.kept (o : Host.Outcome State Fault Refusal) : Prop where
  inv : ∀ t, o = .next t → Claims.inv t

theorem Claims.kept_next {t : State} (h : Claims.inv t) : Claims.kept (.next t) := ⟨fun _ heq => Host.Outcome.next.inj heq ▸ h⟩

/-- An end of a lane whose machine, where it has one, has its shared memories in canonical form. -/
def Claims.laneKept : LaneOut → Prop
  | .done m _ => Claims.canonical m
  | .hold m => Claims.canonical m
  | .trap _ => True

theorem Claims.laneKept_checked (ts : List Trap) {go : LaneOut} (h : Claims.laneKept go) : Claims.laneKept (checked ts go) := by
  unfold checked
  split
  · exact trivial
  · exact h

theorem Claims.inv.ofMach {m : Mach} (h : Claims.canonical m) (undo : List (Nat × Core)) : Claims.inv { m := m, base := none, undo := undo } :=
  ⟨h, fun _ hb => nomatch hb⟩

theorem Claims.inv.ofBase {m b : Mach} (h : Claims.canonical m) (hb : Claims.canonical b) (core now : Nat) (undo : List (Nat × Core)) :
    Claims.inv { m := m, base := some (core, now, b), undo := undo } :=
  ⟨h, fun _ heq => Option.some.inj heq ▸ hb⟩

section
variable {s : State} (h : Claims.inv s)
include h

/-- Another machine with the shared memories in canonical form, and the same to return to. -/
theorem Claims.inv.setMach {m : Mach} (hm : Claims.canonical m) (undo : List (Nat × Core)) : Claims.inv { m := m, base := s.base, undo := undo } :=
  ⟨hm, h.2⟩

theorem Claims.inv.restorePoint (core : Nat) : Claims.canonical (s.restorePoint core) := by
  unfold State.restorePoint
  split
  · next hbase =>
    split
    · exact h.2 _ hbase
    · exact h.1
  · exact h.1

/-- A stop takes the core back to the machine kept, or leaves the machine as it is (R167). -/
theorem Claims.inv.stopCore (core : Nat) (f : Stop → Stop) : Claims.inv (s.stopCore core Mach.boundary f) := by
  have hundo (b : Mach) (hb : Claims.canonical b) : Claims.canonical (match s.undo.find? fun x => x.1 == core with
      | some x => b.modCore core fun c => c.unland (f (Stop.new s.m.now)).ofLane s.m.now x.2
      | none => b) := by
    split <;> exact hb
  unfold State.stopCore
  split
  · exact ⟨h.1, h.2⟩
  · refine .ofMach (hundo _ ?_) s.undo
    split
    · split
      · exact (h.restorePoint core).boundary core _
      · exact h.restorePoint core
    · exact h.restorePoint core

theorem Claims.inv.jointFail (q : Nat) (detail : W32) : Claims.inv (s.jointFail q detail) := by
  refine foldl_inv (P := Claims.inv) (fun b k hb => ?_) _ h
  dsimp only
  have hclear (f : Core → Core) : Claims.inv { b with m := b.m.modCore k f } := hb.setMach (hb.1.modCore k f) _
  split
  · exact hclear _
  · exact (hclear _).stopCore ..

/-- A landing changes the machine, and the cores kept beside. -/
theorem Claims.inv.land (core : Nat) (own : Bool) {f : Mach → Mach} (hf : Claims.canonical (f s.m)) : Claims.inv (s.land core own f) :=
  ⟨hf, h.2⟩

end

/-! ### Lanes -/

section
variable {s : State} (h : Claims.inv s)
include h

theorem Claims.inv.runLane {st : Stream} {body : Mach → LaneOut} (hbody : Claims.laneKept (body s.m)) : Claims.kept (runLane st body s) := by
  unfold Sys2Proof.Machine.runLane
  cases hb : body s.m with
  | done m busy =>
    rw [hb] at hbody
    exact Claims.kept_next (.ofBase (m := m.modMe _) hbody (h.restorePoint _) _ _ _)
  | hold m =>
    rw [hb] at hbody
    exact Claims.kept_next (.ofBase (m := m.modMe _) hbody (h.restorePoint _) _ _ _)
  | trap t =>
    refine Claims.kept_next (Claims.inv.stopCore ?_ _ _)
    exact .ofBase h.1 (h.restorePoint _) _ _ _

/-- An S lane keeps the invariant where its act keeps the shared memories. -/
theorem Claims.inv.runS {l : Lane} {inc : Core → Option (Nat × W64)} {use : Mach → SUse} {act : Mach → LaneOut} (hact : Claims.laneKept (act s.m)) :
    Claims.kept (runS l inc use act s) := by
  refine h.runLane ?_
  dsimp only
  split
  · exact h.1
  · split
    · split
      · split
        · exact h.1
        · exact h.1.writeBase _
      · exact h.1
    · split
      · exact h.1
      · refine Claims.laneKept_checked _ ?_
        split
        · next hdone =>
          rw [hdone] at hact
          exact hact
        · exact hact

theorem Claims.inv.runV {l : Lane} {lcs : BitVec 1024 → List Nat} {use : Mach → BitVec 1024 → VUse} {act : Mach → BitVec 1024 → LaneOut}
    (hact : Claims.laneKept (act s.m (s.m.me.mreg l.p.toNat))) : Claims.kept (runV l lcs use act s) := by
  refine h.runLane ?_
  dsimp only
  split
  · exact Claims.laneKept_checked _ h.1
  · split
    · exact h.1
    · exact Claims.laneKept_checked _ hact

theorem Claims.inv.runM {use : Mach → MUse} {act : Mach → LaneOut} (hact : Claims.laneKept (act s.m)) : Claims.kept (runM use act s) := by
  refine h.runLane ?_
  dsimp only
  split
  · exact h.1
  · exact Claims.laneKept_checked _ hact

theorem Claims.inv.runX {use : Mach → XUse} {act : Mach → LaneOut} (hact : Claims.laneKept (act s.m)) : Claims.kept (runX use act s) := by
  refine h.runLane ?_
  dsimp only
  split
  · exact h.1
  · split
    · exact hact
    · exact Claims.laneKept_checked _ hact

theorem Claims.inv.runH {l : Lane} {use : Mach → BitVec 1024 → HUse} {act : Mach → BitVec 1024 → LaneOut}
    (hact : Claims.laneKept (act s.m (s.m.me.mreg l.p.toNat))) : Claims.kept (runH l use act s) := by
  refine h.runLane ?_
  dsimp only
  split
  · exact Claims.laneKept_checked _ h.1
  · split
    · exact h.1
    · exact Claims.laneKept_checked _ hact

end
end

section
/-! SUPPORT. Shared memories in canonical form: lanes of all five streams keep the invariant. -/
open Sys2Proof Sys2Proof.Machine

/-! ### What lanes do to the machine -/

section
variable {m : Mach} (h : Claims.canonical m)
include h

theorem Claims.canonical.fixJoint (q : Nat) : Claims.canonical (m.fixJoint q) := by
  unfold Mach.fixJoint
  dsimp only
  split
  · exact foldl_inv (P := Claims.canonical) (fun _ k hb => hb.modCore k _) _ h
  · exact h

/-- ATOM of every level (R205). -/
theorem Claims.canonical.atomAct (l : Lane) : Claims.laneKept (atomAct l m) := by
  unfold Sys2Proof.Machine.atomAct
  dsimp only
  split
  · split
    · split
      · next hroute =>
          have hsent := Claims.canonical.atomRoute (h.modMe _) hroute
          exact hsent
      · exact trivial
    · exact h
  · exact h
  · split
    · next hroute =>
        have hsent := Claims.canonical.atomRoute (h.modMe _) hroute
        exact hsent
    · exact h

end

/-! ### Schedules of copies -/

theorem Sched.miss_mach (st : Sched) (dst : Bool) (row : Nat) : (st.miss dst row).m = st.m := by
  unfold Sched.miss
  split <;> rfl

section
variable {st : Sched} (h : Claims.canonical st.m)
include h

theorem Sched.canonical_source (core c row : Nat) (src : Option (Place × Nat)) : Claims.canonical (st.source core c row src).1.m := by
  unfold Sched.source
  split
  · exact h
  · split
    · exact h
    · exact h
    · split
      · next hread => exact h.sendRead hread
      · rw [Sched.miss_mach]
        exact h

theorem Sched.canonical_landOwn (red : Bool) (ready off : Nat) (u : CopyUnit) : Claims.canonical (st.landOwn red ready off u).m := by
  unfold Sched.landOwn
  dsimp only
  split <;> exact h

theorem Sched.canonical_landFar (core : Nat) (rt : Reach) (ready : Nat) (u : CopyUnit) : Claims.canonical (st.landFar core rt ready u).m := by
  unfold Sched.landFar
  split
  · next hwrite => exact h.sendWrite hwrite
  · rw [Sched.miss_mach]
    exact h

theorem Sched.canonical_step (core c : Nat) (k : Copy) (src : Option Side) (dst : Side) (u : Nat × Nat × Nat) :
    Claims.canonical (Sched.step core c k src dst st u).m := by
  have hsource (sp : Option (Place × Nat)) : Claims.canonical (st.source core c u.1 sp).1.m := Sched.canonical_source h core c u.1 sp
  unfold Sched.step
  dsimp only
  split
  · split
    · split
      · exact Sched.canonical_landOwn (hsource _) ..
      · exact hsource _
    · split
      all_goals
        refine Sched.canonical_landFar ?_ ..
        split
        · exact Sched.canonical_landOwn (hsource _) ..
        · exact hsource _
  · split
    · split
      · exact Sched.canonical_landOwn (hsource _) ..
      · exact hsource _
      · exact Sched.canonical_landFar (hsource _) ..
    · exact hsource _

theorem Sched.canonical_booked (core : Nat) : Claims.canonical (st.booked core) :=
  foldl_inv (P := Claims.canonical) (fun _ _ hb => hb.modCore _ _) _ (h.modCore core _)

end

section
variable {m : Mach} (h : Claims.canonical m)
include h

theorem Claims.canonical.schedule (core : Nat) (k : Copy) (src : Option Side) (dst : Side) : Claims.canonical (m.schedule core k src dst).m :=
  foldl_inv (P := fun st : Sched => Claims.canonical st.m) (fun _ u hst => Sched.canonical_step hst core _ k src dst u) _ h

theorem Claims.canonical.openReads (core : Nat) (k : Copy) (src dst : Side) : Claims.canonical (m.openReads core k src dst).m :=
  foldl_inv (P := fun st : Sched => Claims.canonical st.m) (fun _ u hst => Sched.canonical_source hst core _ u.1 _) _ h

theorem Claims.canonical.copySched {k : Copy} {timed : Bool} {st : Sched} (hst : m.copySched k timed = some st) : Claims.canonical st.m := by
  unfold Mach.copySched at hst
  dsimp only at hst
  split at hst
  · cases hst
    exact h.schedule ..
  · split at hst
    · split at hst
      · cases hst
        exact h.openReads ..
      · cases hst
    · cases hst

/-- A copy enters its table, its schedule booked (R297). -/
theorem Claims.canonical.startCopy (k : Copy) (off : Nat) : Claims.canonical (m.startCopy k off) := by
  unfold Mach.startCopy
  dsimp only
  split
  · next hst => exact Sched.canonical_booked (h.copySched hst) _
  · exact h

end

/-! ### The lanes -/

section
variable {s : State} (h : Claims.inv s)
include h

/-- A joint lane only waits (R272). -/
theorem Claims.inv.jointLane (op : Nat) (l : Lane) : Claims.kept (jointLane op l s) := by
  unfold Sys2Proof.Machine.jointLane
  refine h.runLane ?_
  dsimp only
  split
  · exact h.1
  · split
    · split
      · exact trivial
      · exact h.1
    · split
      · exact h.1
      · split
        · exact h.1
        · exact Claims.canonical.fixJoint (h.1.modMe _) _

/-- A copy command enters its copy, or waits (R290, R291). -/
theorem Claims.inv.copyLane (op : Nat) (l : Lane) (ch : Option ChainCmd) : Claims.kept (copyLane op l ch s) := by
  unfold Sys2Proof.Machine.copyLane
  refine h.runX ?_
  dsimp only
  split
  · split
    · exact h.1.boundary ..
    · exact h.1
  · exact h.1.startCopy ..

theorem Claims.inv.sArith (l : Lane) (lat : Nat) (unsigB : Bool) (f : W64 → W64 → W64 × Flags) : Claims.kept (sArith l lat unsigB f s) :=
  h.runS (by exact h.1)

theorem Claims.inv.vLanes (l : Lane) (lat : Nat) (k : LitKind) (t : Fmt) (f : W32 → W32 → W32 × Flags) : Claims.kept (vLanes l lat k t f s) :=
  h.runV (by exact h.1)

theorem Claims.inv.vLanesA (l : Lane) (lat : Nat) (k : LitKind) (t : Fmt) (f : W32 → W32 × Flags) : Claims.kept (vLanesA l lat k t f s) :=
  h.runV (by exact h.1)

theorem Claims.inv.vCompare (l : Lane) (k : LitKind) (t : Fmt) (cond : Nat → Nat → Nat → Bool) : Claims.kept (vCompare l k t cond s) :=
  h.runV (by exact h.1)

theorem Claims.inv.vMove (l : Lane) (lat : Nat) (src : Nat → Nat → Nat) : Claims.kept (vMove l lat src s) := h.runV (by exact h.1)
theorem Claims.inv.vReduce (l : Lane) (lat : Nat) (cols scan : Bool) : Claims.kept (vReduce l lat cols scan s) := h.runV (by exact h.1)

theorem Claims.inv.vMask (l : Lane) (bIn : Bool) (f : BitVec 1024 → BitVec 1024 → BitVec 1024) : Claims.kept (vMask l bIn f s) :=
  h.runV (by exact h.1)

theorem Claims.inv.arrayLane (op : Nat) (l : Lane) : Claims.kept (arrayLane op l s) := h.runM (by exact h.1)

theorem Claims.inv.hWrite (l : Lane) (lat : Nat) (reads : List Nat) (f : Core → BitVec 8192) : Claims.kept (hWrite l lat reads f s) :=
  h.runH (by exact h.1)

theorem Claims.inv.hSearch (l : Lane) (two : Bool) : Claims.kept (hSearch l two s) := by
  unfold Sys2Proof.Machine.hSearch
  exact h.runH (by exact h.1)

theorem Claims.inv.nop (st : Stream) (l : Lane) : Claims.kept (execNop st l s) := by
  unfold execNop
  refine h.runLane ?_
  split <;> exact h.1

theorem Claims.inv.waitC (st : Stream) (l : Lane) : Claims.kept (execWaitC st l s) := by
  unfold execWaitC
  refine h.runLane ?_
  split <;> exact h.1

theorem Claims.inv.sAdd (l : Lane) : Claims.kept (execSAdd l s) := h.sArith ..
theorem Claims.inv.sSub (l : Lane) : Claims.kept (execSSub l s) := h.sArith ..
theorem Claims.inv.sMul (l : Lane) : Claims.kept (execSMul l s) := h.sArith ..
theorem Claims.inv.sMulh (l : Lane) : Claims.kept (execSMulh l s) := h.sArith ..
theorem Claims.inv.sDivq (l : Lane) : Claims.kept (execSDivq l s) := h.sArith ..
theorem Claims.inv.sAnd (l : Lane) : Claims.kept (execSAnd l s) := h.sArith ..
theorem Claims.inv.sOr (l : Lane) : Claims.kept (execSOr l s) := h.sArith ..
theorem Claims.inv.sXor (l : Lane) : Claims.kept (execSXor l s) := h.sArith ..
theorem Claims.inv.sShl (l : Lane) : Claims.kept (execSShl l s) := h.sArith ..
theorem Claims.inv.sShr (l : Lane) : Claims.kept (execSShr l s) := h.sArith ..
theorem Claims.inv.sSra (l : Lane) : Claims.kept (execSSra l s) := h.sArith ..
theorem Claims.inv.sMin (l : Lane) : Claims.kept (execSMin l s) := h.sArith ..
theorem Claims.inv.sMax (l : Lane) : Claims.kept (execSMax l s) := h.sArith ..
theorem Claims.inv.sMovi (l : Lane) : Claims.kept (execSMovi l s) := h.runS (by exact h.1)
theorem Claims.inv.sMoviH (l : Lane) : Claims.kept (execSMoviH l s) := h.runS (by exact h.1)
theorem Claims.inv.sSel (l : Lane) : Claims.kept (execSSel l s) := h.runS (by exact h.1)
theorem Claims.inv.sCmp (l : Lane) : Claims.kept (execSCmp l s) := h.runS (by exact h.1)
theorem Claims.inv.sPset (l : Lane) : Claims.kept (execSPset l s) := h.runS (by exact h.1)
theorem Claims.inv.sRdwid (l : Lane) : Claims.kept (execSRdwid l s) := h.runS (by exact h.1)

theorem Claims.inv.sLd (l : Lane) : Claims.kept (execSLd l s) := by
  unfold execSLd
  exact h.runS ((h.1.bookTiming ..).writeBase _)

theorem Claims.inv.sSt (l : Lane) : Claims.kept (execSSt l s) := by
  unfold execSSt
  exact h.runS ((h.1.bookTiming ..).writeBase _)

theorem Claims.inv.sLdg (l : Lane) : Claims.kept (execSLdg l s) := by
  unfold execSLdg
  exact h.runS ((h.1.issueLoad ..).writeBase _)

theorem Claims.inv.sStg (l : Lane) : Claims.kept (execSStg l s) := by
  unfold execSStg
  refine h.runS ?_
  dsimp only
  split
  · exact Claims.canonical.writeBase (h.1.modMe _) _
  · split
    · split <;> exact h.1
    · exact h.1

theorem Claims.inv.sAtom (l : Lane) : Claims.kept (execSAtom l s) := by
  unfold execSAtom
  refine h.runS ?_
  dsimp only
  split
  · split
    · split
      · exact h.1.atomAct l
      · exact h.1
    · split
      · exact h.1.boundary ..
      · exact h.1
  · exact h.1.atomAct l

theorem Claims.inv.sQpush (l : Lane) : Claims.kept (execSQpush l s) := h.runS (by exact h.1)
theorem Claims.inv.sSemw (l : Lane) : Claims.kept (execSSemw l s) := h.runS (by exact h.1)
theorem Claims.inv.sSems (l : Lane) : Claims.kept (execSSems l s) := h.runS (by exact h.1)
theorem Claims.inv.sPnwait (l : Lane) : Claims.kept (execSPnwait l s) := h.runS (by exact h.1)
theorem Claims.inv.sFence (l : Lane) : Claims.kept (execSFence l s) := h.runS (by exact h.1)
theorem Claims.inv.sPhase (l : Lane) : Claims.kept (execSPhase l s) := h.runS (h.1.boundary ..)
theorem Claims.inv.sRingset (l : Lane) : Claims.kept (execSRingset l s) := h.runS (by exact h.1)
theorem Claims.inv.sBarInit (l : Lane) : Claims.kept (execSBarInit l s) := h.runS (by exact h.1)
theorem Claims.inv.sBarInitt (l : Lane) : Claims.kept (execSBarInitt l s) := h.runS (by exact h.1)
theorem Claims.inv.sBarJoin (l : Lane) : Claims.kept (execSBarJoin l s) := h.runS (by exact h.1)
theorem Claims.inv.sBarLeave (l : Lane) : Claims.kept (execSBarLeave l s) := h.runS (by exact h.1)
theorem Claims.inv.sBarArr (l : Lane) : Claims.kept (execSBarArr l s) := h.runS ((h.1.boundary ..).changeBar _ _)

theorem Claims.inv.sBarWait (l : Lane) : Claims.kept (execSBarWait l s) := by
  refine h.runS ?_
  dsimp only
  split
  · split <;> exact h.1
  · split
    · exact h.1.boundary ..
    · exact h.1

theorem Claims.inv.sTjoin (l : Lane) : Claims.kept (execSTjoin l s) := h.runS (by exact h.1)

theorem Claims.inv.sBkfmtSet (l : Lane) : Claims.kept (execSBkfmtSet l s) := by
  refine h.runS ?_
  dsimp only
  split <;> exact h.1

theorem Claims.inv.sBkfmtGet (l : Lane) : Claims.kept (execSBkfmtGet l s) := by
  refine h.runS ?_
  split <;> exact h.1

theorem Claims.inv.sWake (l : Lane) : Claims.kept (execSWake l s) := by
  refine h.runS ?_
  refine foldl_inv (P := Claims.canonical) (fun b d hb => hb.startWake d _) _ (foldl_inv (P := Claims.canonical) (fun b d hb => ?_) _ h.1)
  split
  · exact hb.setDom d _
  · exact hb

theorem Claims.inv.sSleep (l : Lane) : Claims.kept (execSSleep l s) := by
  refine h.runS ?_
  refine foldl_inv (P := Claims.canonical) (fun b d hb => ?_) _ h.1
  split
  · exact hb
  · split
    · exact hb.setDom d _
    · exact hb
  · exact hb.setDom d _

theorem Claims.inv.sPdq (l : Lane) : Claims.kept (execSPdq l s) := h.runS (by exact h.1)
theorem Claims.inv.vaddF (l : Lane) : Claims.kept (execVaddF l s) := h.vLanes ..
theorem Claims.inv.vsubF (l : Lane) : Claims.kept (execVsubF l s) := h.vLanes ..
theorem Claims.inv.vmulF (l : Lane) : Claims.kept (execVmulF l s) := h.vLanes ..

theorem Claims.inv.vfma (l : Lane) : Claims.kept (execVfma l s) := by
  unfold execVfma
  exact h.runV (by exact h.1)

theorem Claims.inv.vminF (l : Lane) : Claims.kept (execVminF l s) := h.vLanes ..
theorem Claims.inv.vmaxF (l : Lane) : Claims.kept (execVmaxF l s) := h.vLanes ..
theorem Claims.inv.vabs (l : Lane) : Claims.kept (execVabs l s) := h.vLanesA ..
theorem Claims.inv.vaddS (l : Lane) : Claims.kept (execVaddS l s) := h.vLanes ..
theorem Claims.inv.vsubS (l : Lane) : Claims.kept (execVsubS l s) := h.vLanes ..
theorem Claims.inv.vmulS (l : Lane) : Claims.kept (execVmulS l s) := h.vLanes ..
theorem Claims.inv.vminS (l : Lane) : Claims.kept (execVminS l s) := h.vLanes ..
theorem Claims.inv.vmaxS (l : Lane) : Claims.kept (execVmaxS l s) := h.vLanes ..
theorem Claims.inv.vaddZ (l : Lane) : Claims.kept (execVaddZ l s) := h.vLanes ..
theorem Claims.inv.vsubZ (l : Lane) : Claims.kept (execVsubZ l s) := h.vLanes ..
theorem Claims.inv.vmulZ (l : Lane) : Claims.kept (execVmulZ l s) := h.vLanes ..
theorem Claims.inv.vminZ (l : Lane) : Claims.kept (execVminZ l s) := h.vLanes ..
theorem Claims.inv.vmaxZ (l : Lane) : Claims.kept (execVmaxZ l s) := h.vLanes ..
theorem Claims.inv.vand (l : Lane) : Claims.kept (execVand l s) := h.vLanes ..
theorem Claims.inv.vor (l : Lane) : Claims.kept (execVor l s) := h.vLanes ..
theorem Claims.inv.vxor (l : Lane) : Claims.kept (execVxor l s) := h.vLanes ..
theorem Claims.inv.vnot (l : Lane) : Claims.kept (execVnot l s) := h.vLanesA ..
theorem Claims.inv.vshl (l : Lane) : Claims.kept (execVshl l s) := h.vLanes ..
theorem Claims.inv.vshrZ (l : Lane) : Claims.kept (execVshrZ l s) := h.vLanes ..
theorem Claims.inv.vshrS (l : Lane) : Claims.kept (execVshrS l s) := h.vLanes ..
theorem Claims.inv.vcmpF (l : Lane) : Claims.kept (execVcmpF l s) := h.vCompare ..
theorem Claims.inv.vcmpS (l : Lane) : Claims.kept (execVcmpS l s) := h.vCompare ..
theorem Claims.inv.vcmpZ (l : Lane) : Claims.kept (execVcmpZ l s) := h.vCompare ..

theorem Claims.inv.vsel (l : Lane) : Claims.kept (execVsel l s) := by
  unfold execVsel
  exact h.runV (by exact h.1)

theorem Claims.inv.vcvt (l : Lane) : Claims.kept (execVcvt l s) := by
  unfold execVcvt
  refine h.runV ?_
  dsimp only
  split <;> exact h.1

theorem Claims.inv.vpack (l : Lane) : Claims.kept (execVpack l s) := h.vLanes ..
theorem Claims.inv.vunpk (l : Lane) : Claims.kept (execVunpk l s) := h.vLanesA ..
theorem Claims.inv.vrcp (l : Lane) : Claims.kept (execVrcp l s) := h.vLanesA ..
theorem Claims.inv.vrsq (l : Lane) : Claims.kept (execVrsq l s) := h.vLanesA ..
theorem Claims.inv.vexp2 (l : Lane) : Claims.kept (execVexp2 l s) := h.vLanesA ..
theorem Claims.inv.vlog2 (l : Lane) : Claims.kept (execVlog2 l s) := h.vLanesA ..
theorem Claims.inv.vmov (l : Lane) : Claims.kept (execVmov l s) := h.runV (by exact h.1)
theorem Claims.inv.vmand (l : Lane) : Claims.kept (execVmand l s) := h.vMask ..
theorem Claims.inv.vmor (l : Lane) : Claims.kept (execVmor l s) := h.vMask ..
theorem Claims.inv.vmnot (l : Lane) : Claims.kept (execVmnot l s) := h.vMask ..
theorem Claims.inv.vrotr (l : Lane) : Claims.kept (execVrotr l s) := h.vMove ..
theorem Claims.inv.vrotc (l : Lane) : Claims.kept (execVrotc l s) := h.vMove ..
theorem Claims.inv.vbcr (l : Lane) : Claims.kept (execVbcr l s) := h.vMove ..
theorem Claims.inv.vbcc (l : Lane) : Claims.kept (execVbcc l s) := h.vMove ..
theorem Claims.inv.vredr (l : Lane) : Claims.kept (execVredr l s) := h.vReduce ..
theorem Claims.inv.vredc (l : Lane) : Claims.kept (execVredc l s) := h.vReduce ..
theorem Claims.inv.vscanr (l : Lane) : Claims.kept (execVscanr l s) := h.vReduce ..
theorem Claims.inv.vscanc (l : Lane) : Claims.kept (execVscanc l s) := h.vReduce ..

theorem Claims.inv.vld (l : Lane) : Claims.kept (execVld l s) := by
  unfold execVld
  exact h.runV (h.1.bookTiming ..)

theorem Claims.inv.vst (l : Lane) : Claims.kept (execVst l s) := by
  unfold execVst
  exact h.runV (h.1.bookTiming ..)

theorem Claims.inv.vldx (l : Lane) : Claims.kept (execVldx l s) := h.runV (by exact h.1)
theorem Claims.inv.vstx (l : Lane) : Claims.kept (execVstx l s) := h.runV (foldl_inv (P := Claims.canonical) (fun _ _ hb => hb.modMe _) _ (h.1.modMe _))
theorem Claims.inv.vins (l : Lane) : Claims.kept (execVins l s) := h.runV (by exact h.1)
theorem Claims.inv.vext (l : Lane) : Claims.kept (execVext l s) := h.runV (by exact h.1)
theorem Claims.inv.vsemw (l : Lane) : Claims.kept (execVsemw l s) := h.runV (by exact h.1)
theorem Claims.inv.vsems (l : Lane) : Claims.kept (execVsems l s) := h.runV (by exact h.1)
theorem Claims.inv.mma (l : Lane) : Claims.kept (execMma l s) := h.arrayLane ..
theorem Claims.inv.mmai (l : Lane) : Claims.kept (execMmai l s) := h.arrayLane ..
theorem Claims.inv.mmad (l : Lane) : Claims.kept (execMmad l s) := h.arrayLane ..
theorem Claims.inv.mmas (l : Lane) : Claims.kept (execMmas l s) := h.arrayLane ..
theorem Claims.inv.mmaj (l : Lane) : Claims.kept (execMmaj l s) := h.jointLane ..
theorem Claims.inv.mmajs (l : Lane) : Claims.kept (execMmajs l s) := h.jointLane ..
theorem Claims.inv.mzero (l : Lane) : Claims.kept (execMzero l s) := h.runM (by exact h.1)

theorem Claims.inv.mdrain (l : Lane) : Claims.kept (execMdrain l s) := by
  unfold execMdrain
  exact h.runM (h.1.bookTiming ..)

theorem Claims.inv.msba (l : Lane) : Claims.kept (execMsba l s) := h.runM (by exact h.1)
theorem Claims.inv.msbb (l : Lane) : Claims.kept (execMsbb l s) := h.runM (by exact h.1)

theorem Claims.inv.mldacc (l : Lane) : Claims.kept (execMldacc l s) := by
  unfold execMldacc
  exact h.runM (h.1.bookTiming ..)

theorem Claims.inv.mstacc (l : Lane) : Claims.kept (execMstacc l s) := by
  unfold execMstacc
  exact h.runM (h.1.bookTiming ..)

theorem Claims.inv.msemw (l : Lane) : Claims.kept (execMsemw l s) := h.runM (by exact h.1)
theorem Claims.inv.msems (l : Lane) : Claims.kept (execMsems l s) := h.runM (by exact h.1)
theorem Claims.inv.xcopy (l : Lane) (ch : Option ChainCmd) : Claims.kept (execXcopy l ch s) := h.copyLane ..
theorem Claims.inv.xgath (l : Lane) (ch : Option ChainCmd) : Claims.kept (execXgath l ch s) := h.copyLane ..
theorem Claims.inv.xscat (l : Lane) (ch : Option ChainCmd) : Claims.kept (execXscat l ch s) := h.copyLane ..
theorem Claims.inv.xred (l : Lane) (ch : Option ChainCmd) : Claims.kept (execXred l ch s) := h.copyLane ..
theorem Claims.inv.xmcast (l : Lane) (ch : Option ChainCmd) : Claims.kept (execXmcast l ch s) := h.copyLane ..
theorem Claims.inv.xfill (l : Lane) (ch : Option ChainCmd) : Claims.kept (execXfill l ch s) := h.copyLane ..

theorem Claims.inv.xopen (l : Lane) : Claims.kept (execXopen l s) := by
  unfold execXopen
  exact h.runX (by exact h.1)

theorem Claims.inv.xclose (l : Lane) : Claims.kept (execXclose l s) := h.runX (by exact h.1)
theorem Claims.inv.xwmset (l : Lane) : Claims.kept (execXwmset l s) := h.runX (by exact h.1)
theorem Claims.inv.xbufRel (l : Lane) : Claims.kept (execXbufRel l s) := h.runX (by exact h.1)
theorem Claims.inv.xbufQ (l : Lane) : Claims.kept (execXbufQ l s) := h.runX (by exact h.1)
theorem Claims.inv.xsemw (l : Lane) : Claims.kept (execXsemw l s) := h.runX (by exact h.1)
theorem Claims.inv.xsems (l : Lane) : Claims.kept (execXsems l s) := h.runX (by exact h.1)
theorem Claims.inv.xfence (l : Lane) : Claims.kept (execXfence l s) := h.runX (by exact h.1)
theorem Claims.inv.hbind (l : Lane) : Claims.kept (execHbind l s) := h.hWrite ..
theorem Claims.inv.hperm (l : Lane) : Claims.kept (execHperm l s) := h.runH (by exact h.1)
theorem Claims.inv.hbund (l : Lane) : Claims.kept (execHbund l s) := h.runH (by exact h.1)
theorem Claims.inv.hthr (l : Lane) : Claims.kept (execHthr l s) := h.runH (by exact h.1)
theorem Claims.inv.hdist (l : Lane) : Claims.kept (execHdist l s) := h.runH (by exact h.1)
theorem Claims.inv.hnear (l : Lane) : Claims.kept (execHnear l s) := h.hSearch ..
theorem Claims.inv.hnear2 (l : Lane) : Claims.kept (execHnear2 l s) := h.hSearch ..
theorem Claims.inv.hmov (l : Lane) : Claims.kept (execHmov l s) := h.hWrite ..

theorem Claims.inv.hclr (l : Lane) : Claims.kept (execHclr l s) := by
  unfold execHclr
  exact h.runH (by exact h.1)

theorem Claims.inv.hnot (l : Lane) : Claims.kept (execHnot l s) := h.hWrite ..

theorem Claims.inv.hld (l : Lane) : Claims.kept (execHld l s) := by
  unfold execHld
  exact h.runH (h.1.bookTiming ..)

theorem Claims.inv.hst (l : Lane) : Claims.kept (execHst l s) := by
  unfold execHst
  exact h.runH (h.1.bookTiming ..)

theorem Claims.inv.hgdset (l : Lane) : Claims.kept (execHgdset l s) := by
  unfold execHgdset
  exact h.runH (by exact h.1)

theorem Claims.inv.hgput (l : Lane) : Claims.kept (execHgput l s) := by
  unfold execHgput
  exact h.runH (by exact h.1)

theorem Claims.inv.hgputInv (l : Lane) : Claims.kept (execHgputInv l s) := by
  unfold execHgputInv
  exact h.runH (by exact h.1)

theorem Claims.inv.hsemw (l : Lane) : Claims.kept (execHsemw l s) := h.runH (by exact h.1)
theorem Claims.inv.hsems (l : Lane) : Claims.kept (execHsems l s) := h.runH (by exact h.1)

end
end

section
/-! SUPPORT. Shared memories in canonical form: results, copies, walks, barriers and the other events of cores keep the invariant. -/
open Sys2Proof Sys2Proof.Machine

/-! ### What copies and results do to the machine -/

section
variable {m : Mach} (h : Claims.canonical m)
include h

theorem Claims.canonical.finishCopy (core entry : Nat) : Claims.canonical (m.finishCopy core entry) := by
  unfold Mach.finishCopy
  split
  · exact h
  · dsimp only
    split
    · split <;> exact h
    · exact h

/-- Bytes landed at a place (R125): of the shared memories, the host's and a peer's take them. -/
theorem Claims.canonical.putBytes (core entry : Nat) (pl : Place) (bs : List Byte) : Claims.canonical (m.putBytes core entry pl bs) := by
  cases pl with
  | pad p off => exact h.padWrite p _
  | dev a => exact h.modCore core _
  | host a => exact h.setHost (Memory.wf_writeBlock h.2.1 a bs)
  | peer num a => exact h.setPeer num (Memory.wf_writeBlock (h.peer num) a bs)

theorem Claims.canonical.redPut (core entry : Nat) (k : Copy) (fmt : Fmt) (pl : Place) (bs : List Byte) :
    Claims.canonical (m.redPut core entry k fmt pl bs) := by
  cases pl with
  | pad p off => exact (h.putBytes core entry _ _).modCore core _
  | dev a => exact (h.devAtomic _).modCore core _
  | host a => exact (h.putBytes core entry _ _).modCore core _
  | peer num a => exact (h.putBytes core entry _ _).modCore core _

theorem Claims.canonical.landUnit (core entry i : Nat) : Claims.canonical (m.landUnit core entry i) := by
  unfold Mach.landUnit
  split
  · exact h
  · split
    · exact h
    · extract_lets fmt red put before ring told
      have hput : Claims.canonical put := foldl_inv (P := Claims.canonical) (fun _ _ hb => .ite (hb.redPut ..) (hb.putBytes ..)) _ h
      have htold : Claims.canonical told := hput
      split
      · exact htold
      · exact .ite htold (.ite (htold.modCore core _) (htold.finishCopy ..))

theorem Claims.canonical.rowFlits (core : Nat) (k : Copy) (row : Nat) : Claims.canonical (m.rowFlits core k row) := by
  unfold Mach.rowFlits
  dsimp only
  split
  · exact h.sendFlits ..
  · exact h.sendFlits ..
  · exact h

theorem Claims.canonical.sendRows (core : Nat) : Claims.canonical (m.sendRows core) :=
  foldl_inv (P := Claims.canonical) (fun _ _ hb => foldl_inv (P := Claims.canonical) (fun _ _ hb' => hb'.rowFlits ..) _ hb) _ h

theorem Claims.canonical.copySends (core : Nat) : Claims.canonical (m.copySends core) := by
  unfold Mach.copySends
  dsimp only
  split
  · exact h
  · exact Claims.canonical.sendRows (h.modCore core _) core

theorem Claims.canonical.copyReads (core : Nat) : Claims.canonical (m.copyReads core) := by
  unfold Mach.copyReads
  extract_lets
  exact .ite (foldl_inv (P := Claims.canonical) (fun _ _ hb => hb.finishCopy core _) _ (h.modCore core _)) h

theorem Claims.canonical.rowPlace (core : Nat) (k : Copy) (dst : Bool) (row a : Nat) : Claims.canonical (m.rowPlace core k dst row a).1 := by
  unfold Mach.rowPlace
  split
  · exact h.walkCore ..
  · exact h
  · exact h
  · exact h

theorem Claims.canonical.rowEnd (core entry row : Nat) : Claims.canonical (m.rowEnd core entry row) := by
  unfold Mach.rowEnd
  dsimp only
  split
  · exact h
  · split
    · split
      · exact Claims.canonical.finishCopy ((h.modCore core _).modCore core _) ..
      · exact h
    · split
      · exact Claims.canonical.finishCopy (h.modCore core _) ..
      · exact h

theorem Claims.canonical.rowFault (core entry row : Nat) (code : Byte) (detail : W32) (addr : W64) :
    Claims.canonical (m.rowFault core entry row code detail addr) := Claims.canonical.rowEnd (h.modCore core _) ..

theorem Claims.canonical.landRow (core entry : Nat) (k : Copy) (row : Nat) (pl : Place) (bs : List Byte) :
    Claims.canonical (m.landRow core entry k row pl bs) :=
  foldl_inv (P := Claims.canonical) (fun _ _ hb => hb.putBytes ..) _ h

theorem Claims.canonical.tellChan (core : Nat) (k : Copy) (row off n : Nat) : Claims.canonical (m.tellChan core k row off n) := h

theorem Claims.canonical.arriveRow (core entry : Nat) (k : Copy) (row : Nat) (bs : List Byte) (pl : Place) (scales : List (Place × Nat)) :
    Claims.canonical (m.arriveRow core entry k row bs pl scales) := by
  have hscales (b : Mach) (hb : Claims.canonical b) (xs : List (Place × List Byte)) :
      Claims.canonical (xs.foldl (fun m x => m.putBytes core entry x.1 x.2) b) :=
    foldl_inv (P := Claims.canonical) (fun _ _ hb => hb.putBytes ..) xs hb
  unfold Mach.arriveRow
  dsimp only
  split
  · exact h
  · refine Claims.canonical.rowEnd (Claims.canonical.tellChan (hscales _ ?_ _) ..) ..
    split
    · exact Claims.canonical.redPut (h.modCore core _) ..
    · exact Claims.canonical.landRow (h.modCore core _) ..

theorem Claims.canonical.openWrite (core : Nat) (w : OpenWrite) : Claims.canonical (m.openWrite core w) := by
  unfold Mach.openWrite
  extract_lets opened
  have hopened : Claims.canonical opened := h
  split
  · exact hopened.padWrite _ _
  · extract_lets at_ put out told
    have hput : Claims.canonical put := by
      refine .ite (hopened.padWrite _ _) (.ite (hopened.redPut ..) ?_)
      exact foldl_inv (P := Claims.canonical) (fun _ _ hb => hb.padWrite _ _) _ hopened
    have htold : Claims.canonical told := .ite (hput.tellChan ..) hput
    exact .ite htold (Claims.canonical.rowEnd (.ite (htold.tellChan ..) htold) ..)

theorem Claims.canonical.openPorts (core : Nat) : Claims.canonical (m.openPorts core) :=
  foldl_inv (P := Claims.canonical) (fun _ w hb => hb.openWrite core w) _ h

theorem Claims.canonical.scaleRuns (core : Nat) (k : Copy) (row : Nat) : Claims.canonical (m.scaleRuns core k row).1 := by
  unfold Mach.scaleRuns
  split
  · exact h
  · split
    · exact h
    · refine foldl_inv (P := fun r : Mach × Except (Nat × WalkEnd) (List (Place × Nat)) => Claims.canonical r.1) (fun r p hr => ?_) _ h
      split
      · exact hr
      · split
        · next hplace =>
          have hnext := hr.rowPlace core k true row p.1
          rw [hplace] at hnext
          exact hnext
        · next hplace =>
          have hnext := hr.rowPlace core k true row p.1
          rw [hplace] at hnext
          exact hnext

theorem Claims.canonical.refillLand (core entry : Nat) (k : Copy) (bs : List Byte) : Claims.canonical (m.refillLand core entry k bs) := h

theorem Claims.canonical.refillSched (core : Nat) (k : Copy) : Claims.canonical (m.refillSched core k).m :=
  foldl_inv (P := fun st : Sched => Claims.canonical st.m) (fun _ u hst => Sched.canonical_step hst core _ k _ _ u) _ h

theorem Claims.canonical.landAcc (core : Nat) (r : Result) : Claims.canonical (m.landAcc core r) := h

theorem Claims.canonical.landTile (core : Nat) (r : Result) : Claims.canonical (m.landTile core r) := by
  unfold Mach.landTile
  split
  · dsimp only
    split
    · exact h
    · split
      · exact h
      · refine Claims.canonical.modCore (foldl_inv (P := Claims.canonical) (fun b i hb => ?_) _ h) core _
        split
        · refine Claims.canonical.padWrite ?_ _ _
          split
          · exact hb.padWrite _ _
          · exact hb
        · split
          · exact hb.padWrite _ _
          · exact hb
  · exact h

theorem Claims.canonical.landAtom (core : Nat) (r : Result) (pl : Place) (a : AtomOp) (dst : BitVec 5) (ret : Nat) (acq : Option (BitVec 4)) :
    Claims.canonical (m.landAtom core r pl a dst ret acq) := by
  refine Claims.canonical.modCore ?_ core _
  cases pl with
  | pad p off => exact h.padWrite p _
  | dev a => exact h.devAtomic _
  | host a => exact h
  | peer num a => exact h

theorem Claims.canonical.landResult (core : Nat) (r : Result) : Claims.canonical (m.landResult core r) := by
  unfold Mach.landResult
  dsimp only
  split
  · exact Claims.canonical.modCore (Claims.canonical.padWrite (h.modCore core _) _ _) core _
  · exact h
  · exact h
  · exact h
  · exact h
  · exact Claims.canonical.landTile (h.modCore core _) core r
  · exact Claims.canonical.landAtom (h.modCore core _) ..
  · exact Claims.canonical.setFmtReg (h.modCore core _) ..
  · exact h
  · split
    · exact Claims.canonical.acquire ((h.modCore core _).modCore core _) core _
    · exact h

theorem Claims.canonical.endHold (core : Nat) (f : Stop → Stop) : Claims.canonical (m.endHold core f) := by
  unfold Mach.endHold
  split
  · exact h
  · dsimp only
    split <;> exact h

theorem Claims.canonical.loadWalked (core : Nat) (g : GLoad) (e : Except WalkEnd Nat) : Claims.canonical (m.loadWalked core g e) := by
  unfold Mach.loadWalked
  extract_lets ended bad
  have hbad (code : Byte) (detail : W32) : Claims.canonical (bad code detail) := Claims.canonical.endHold (m := ended) h core _
  split
  · extract_lets perm walked
    have hwalked : Claims.canonical walked := h
    exact .ite (hbad ..) (.ite (hwalked.endHold ..) hwalked)
  · exact hbad ..
  · exact h

theorem Claims.canonical.tileRetireL (core : Nat) : Claims.canonical (m.tileRetireL core) := by
  unfold Mach.tileRetireL
  split
  · exact h
  · split
    · exact h
    · dsimp only
      refine Claims.canonical.postBoundary (foldl_inv (P := Claims.canonical) (fun b i hb => ?_) _ (h.modCore core _)) core 0
      split
      · exact hb.setDom _ _
      · exact hb

theorem Claims.canonical.tileRecordL (core : Nat) : Claims.canonical (m.tileRecordL core) := by
  unfold Mach.tileRecordL
  split
  · exact h
  · split <;> exact h

theorem Claims.canonical.jointMember (q : Nat) (tiles : List (List Nat)) (k : Nat) (d : JointDue) : Claims.canonical (m.jointMember q tiles k d) := h

theorem Claims.canonical.lateReads (core : Nat) : Claims.canonical (m.lateReads core) := by
  unfold Mach.lateReads
  extract_lets
  exact .ite (h.modCore core _) h

end
end

section
/-! SUPPORT. Shared memories in canonical form: the control core's instructions and the events of cores keep the invariant. -/
open Sys2Proof Sys2Proof.Machine

/-! ### The control core -/

/-- An end of a control-core instruction whose machine, where it has one, has its shared memories in canonical form. -/
def Claims.ctlKept : CtlOut → Prop
  | .done m _ _ => Claims.canonical m
  | .except _ _ => True
  | .wait m => Claims.canonical m

/-- Whichever of two outcomes it is. -/
theorem Claims.kept.ite {c : Prop} [Decidable c] {a b : Host.Outcome State Fault Refusal} (ha : Claims.kept a) (hb : Claims.kept b) :
    Claims.kept (if c then a else b) := by
  split <;> assumption

section
variable {s : State} (h : Claims.inv s)
include h

/-- The next state with another machine whose shared memories are in canonical form. -/
theorem Claims.inv.next {m : Mach} (hm : Claims.canonical m) : Claims.kept (.next { s with m := m }) := Claims.kept_next (h.setMach hm _)

theorem Claims.inv.coreNext (core : Nat) (f : Core → Core) : Claims.kept (coreNext s core f) := h.next h.1

theorem Claims.inv.runCtl {body : Mach → CtlOut} (hbody : Claims.ctlKept (body s.m)) : Claims.kept (runCtl body s) := by
  unfold Sys2Proof.Machine.runCtl
  cases hb : body s.m with
  | done m next n =>
    rw [hb] at hbody
    exact h.next (m := m.modCtl _) hbody
  | except k v => exact h.next h.1
  | wait m =>
    rw [hb] at hbody
    exact h.next (m := m.modCtl _) hbody

theorem Claims.inv.semOut (rs1 rs2 : XReg) {f : Mach → Nat → Nat → CtlOut} (hf : ∀ n k, Claims.ctlKept (f s.m n k)) :
    Claims.kept (semOut rs1 rs2 f s) := by
  refine h.runCtl ?_
  dsimp only
  split
  · exact trivial
  · split
    · exact trivial
    · exact hf _ _

/-- cphase publishes what its core wrote; cfence leaves the shared memories (R142, R182). -/
theorem Claims.inv.memOut (fence : Bool) (scope : BitVec 4) : Claims.kept (memOut fence scope s) := by
  unfold Sys2Proof.Machine.memOut
  refine h.runCtl ?_
  split
  · split
    · exact .ite h.1 (h.1.boundaryOf ..)
    · exact h.1
  · exact h.1

theorem Claims.inv.cblk (rs1 rs2 : XReg) : Claims.kept (execCblk rs1 rs2 s) := by
  refine h.runCtl ?_
  dsimp only
  split
  · exact trivial
  · split
    · exact trivial
    · split
      · exact h.1
      · split <;> exact h.1

theorem Claims.inv.cblkw : Claims.kept (execCblkw s) := by
  refine h.runCtl ?_
  split <;> exact h.1

theorem Claims.inv.cevt (rd : XReg) : Claims.kept (execCevt rd s) := by
  refine h.runCtl ?_
  split <;> exact h.1

theorem Claims.inv.cevtNb (rd : XReg) : Claims.kept (execCevtNb rd s) := by
  refine h.runCtl ?_
  split <;> exact h.1

theorem Claims.inv.csemSig (rs1 rs2 : XReg) : Claims.kept (execCsemSig rs1 rs2 s) := h.semOut rs1 rs2 fun _ _ => h.1

theorem Claims.inv.csemWait (rs1 rs2 : XReg) : Claims.kept (execCsemWait rs1 rs2 s) := by
  refine h.semOut rs1 rs2 fun n k => ?_
  split <;> exact h.1

theorem Claims.inv.csemTry (rd rs1 rs2 : XReg) : Claims.kept (execCsemTry rd rs1 rs2 s) := by
  refine h.semOut rs1 rs2 fun n k => ?_
  split <;> exact h.1

theorem Claims.inv.csemRd (rd rs1 : XReg) : Claims.kept (execCsemRd rd rs1 s) := h.semOut rs1 0 fun _ _ => h.1

theorem Claims.inv.csemSet (rs1 rs2 : XReg) : Claims.kept (execCsemSet rs1 rs2 s) := h.semOut rs1 rs2 fun _ _ => h.1

theorem Claims.inv.cphase (scope : BitVec 4) : Claims.kept (execCphase scope s) := h.memOut false scope

theorem Claims.inv.cfence (scope : BitVec 4) : Claims.kept (execCfence scope s) := h.memOut true scope

theorem Claims.inv.cframeRep (rd : XReg) : Claims.kept (execCframeRep rd s) := by
  refine h.runCtl ?_
  dsimp only
  split
  · exact trivial
  · exact h.1

theorem Claims.inv.cframeEnd (rs1 : XReg) : Claims.kept (execCframeEnd rs1 s) := by
  refine h.runCtl ?_
  dsimp only
  split
  · exact trivial
  · exact h.1

theorem Claims.inv.cresume : Claims.kept (execCresume s) := by
  refine h.runCtl ?_
  dsimp only
  split
  · split
    · exact trivial
    · split
      · exact h.1
      · exact h.1
  · exact trivial

theorem Claims.inv.cwid (rd : XReg) : Claims.kept (execCwid rd s) := h.runCtl h.1

theorem Claims.inv.ctis (rd rs1 : XReg) : Claims.kept (execCtis rd rs1 s) := by
  refine h.runCtl ?_
  dsimp only
  split
  · exact trivial
  · exact h.1

theorem Claims.inv.cpds (rd rs1 : XReg) : Claims.kept (execCpds rd rs1 s) := by
  refine h.runCtl ?_
  dsimp only
  split
  · exact trivial
  · exact h.1

/-- A standard instruction changes the core being served alone. -/
theorem Claims.inv.rv64Instruction (r : RvIns) : Claims.kept (execRv64Instruction r s) := by
  refine h.runCtl ?_
  have hframe := rvOut_framed r.op (if r.short then 2 else 4) s.m
  cases hout : rvOut r.op (if r.short then 2 else 4) s.m with
  | done m next n =>
    rw [hout] at hframe
    obtain ⟨d, rfl, -⟩ := hframe
    exact h.1
  | except k v => exact trivial
  | wait m =>
    rw [hout] at hframe
    obtain ⟨d, rfl, -⟩ := hframe
    exact h.1

theorem Claims.inv.nflagsWrite (op : CsrOp) (rd : XReg) (src : CsrSrc) : Claims.kept (execNflagsWrite op rd src s) := h.runCtl h.1
theorem Claims.inv.dbgctlWrite (op : CsrOp) (rd : XReg) (src : CsrSrc) : Claims.kept (execDbgctlWrite op rd src s) := h.runCtl h.1
theorem Claims.inv.ctimecmpWrite (op : CsrOp) (rd : XReg) (src : CsrSrc) : Claims.kept (execCtimecmpWrite op rd src s) := h.runCtl h.1
theorem Claims.inv.cbankWrite (n : BitVec 5) (op : CsrOp) (rd : XReg) (src : CsrSrc) : Claims.kept (execCbankWrite n op rd src s) := h.runCtl h.1

/-! ### Interrupts, blocks and results -/

theorem Claims.inv.timerInterrupt : Claims.kept (execTimerInterrupt s) := by
  unfold execTimerInterrupt
  refine Claims.inv.coreNext ?_ _ _
  split
  · exact h.stopCore ..
  · exact h

theorem Claims.inv.coreTrapInterrupt : Claims.kept (execCoreTrapInterrupt s) := h.coreNext ..
theorem Claims.inv.eventInterrupt : Claims.kept (execEventInterrupt s) := h.coreNext ..

theorem Claims.inv.blockStart : Claims.kept (execBlockStart s) := by
  unfold execBlockStart
  dsimp only
  split
  · exact Claims.kept_next h
  · split
    · exact (h.stopCore ..).coreNext ..
    · split
      · exact (h.stopCore ..).coreNext ..
      · exact Claims.kept_next (h.land _ _ h.1)

theorem Claims.inv.lineValidate (core index : Nat) (line : BitVec 256) (tag : W64) : Claims.kept (execLineValidate core index line tag s) := h.coreNext ..

theorem Claims.inv.resultLand : Claims.kept (execResultLand s) := by
  unfold execResultLand
  have hland (i : Nat) (r : Result) (own : Bool) : Claims.kept (.next (s.land s.m.cur own fun m =>
      (m.modCore s.m.cur fun c => { c with flight := c.flight.eraseIdx i }).landResult s.m.cur r)) := by
    refine Claims.kept_next (h.land _ _ ?_)
    exact Claims.canonical.landResult (h.1.modCore _ _) ..
  dsimp only
  split
  · exact hland ..
  · exact Claims.kept_next (h.land _ _ (h.1.landUnit ..))
  · split
    · exact hland ..
    · exact Claims.kept_next h

theorem Claims.inv.searchPush : Claims.kept (execSearchPush s) := by
  unfold execSearchPush
  dsimp only
  split
  · exact Claims.kept_next h
  · exact Claims.kept_next (h.land _ _ h.1)

/-! ### Open-class arrivals, walks and frames -/

theorem Claims.inv.ldgArrival (core load : Nat) : Claims.kept (execLdgArrival core load s) := by
  unfold execLdgArrival
  split
  · split
    · exact h.coreNext ..
    · exact Claims.kept_next h
  · exact Claims.kept_next h

theorem Claims.inv.stgAck (core store : Nat) : Claims.kept (execStgAck core store s) := h.coreNext ..

theorem Claims.inv.atomReturn (core load : Nat) : Claims.kept (execAtomReturn core load s) := by
  unfold execAtomReturn
  split
  · split
    · extract_lets n old r m
      have hm : Claims.canonical m := Claims.canonical.devAtomic h.1 _
      split
      · exact h.next (hm.acquire core _)
      · exact h.next hm
    · exact Claims.kept_next h
  · exact Claims.kept_next h

theorem Claims.inv.walkComplete (core walk : Nat) : Claims.kept (execWalkComplete core walk s) := by
  unfold execWalkComplete
  dsimp only
  split
  · split
    · exact Claims.kept_next h
    · split
      · exact h.next h.1
      · exact h.next (Claims.canonical.loadWalked (h.1.walkCore ..) ..)
  · split
    · exact Claims.kept_next h
    · split
      · exact h.next (h.1.walkCore ..)
      · exact h.next (Claims.canonical.modCore (h.1.walkCore ..) ..)

theorem Claims.inv.frameComplete : Claims.kept (execFrameComplete s) := h.coreNext ..

/-! ### Domains, arrays and rings -/

theorem Claims.inv.domainOn (d : DomRef) : Claims.kept (execDomainOn d s) := by
  unfold execDomainOn
  dsimp only
  split
  · split
    · exact h.next (.ite (Claims.canonical.clearDom (h.1.setDom d _) d) (h.1.setDom d _))
    · exact Claims.kept_next h
  · exact Claims.kept_next h

theorem Claims.inv.deferredSleep (d : DomRef) : Claims.kept (execDeferredSleep d s) := by
  unfold execDeferredSleep
  dsimp only
  split
  · split
    · refine h.next ?_
      split
      · exact Claims.canonical.clearDom (h.1.setDom d _) d
      · exact h.1.setDom d _
    · exact Claims.kept_next h
  · exact Claims.kept_next h

theorem Claims.inv.arrayRetire : Claims.kept (execArrayRetire s) := h.next h.1

theorem Claims.inv.chainIssue : Claims.kept (execChainIssue s) := by
  unfold execChainIssue
  dsimp only
  split
  · exact Claims.kept_next h
  · split
    · exact h.next h.1
    · split
      · exact Claims.kept_next (Claims.inv.stopCore (h.setMach h.1 _) ..)
      · exact Claims.kept_next (.ofBase h.1 (h.restorePoint s.m.cur) _ _ s.undo)

theorem Claims.inv.jointStart (quad : Nat) : Claims.kept (execJointStart quad s) := by
  unfold execJointStart
  dsimp only
  split
  · exact Claims.kept_next h
  · split
    · exact Claims.kept_next (h.jointFail ..)
    · exact Claims.kept_next (h.jointFail ..)
    · exact h.next (foldl_inv (P := Claims.canonical) (fun _ kd hb => hb.jointMember ..) _ h.1)

theorem Claims.inv.ringRefill (core ring : Nat) : Claims.kept (execRingRefill core ring s) := by
  unfold execRingRefill
  have henter {m : Mach} (hm : Claims.canonical m) (f : Core → Core) :
      Claims.kept (.next { s with m := m.modCore core f, base := some (core, s.m.now, s.restorePoint core) }) :=
    Claims.kept_next (.ofBase (hm.modCore core f) (h.restorePoint core) _ _ _)
  dsimp only
  split
  · exact Claims.kept_next (.ofBase h.1 (h.restorePoint core) _ _ _)
  · split
    · exact henter h.1 _
    · split
      · split
        · exact henter h.1 _
        · exact henter (Sched.canonical_booked (h.1.refillSched ..) core) _
      · exact henter h.1 _

/-! ### Copies and channels -/

theorem Claims.inv.copyComplete (core entry : Nat) : Claims.kept (execCopyComplete core entry s) := by
  unfold execCopyComplete
  dsimp only
  split
  · exact Claims.kept_next h
  · split
    · exact Claims.kept_next h
    · exact .ite (Claims.kept_next h) (h.next h.1)

/-- An open row's page walks and landing (R299): each goes on from the machine that the walk before it leaves. -/
theorem Claims.inv.openRowArrival (core entry row : Nat) : Claims.kept (execOpenRowArrival core entry row s) := by
  unfold execOpenRowArrival
  extract_lets m killed fail
  have hfail {m' : Mach} (hm' : Claims.canonical m') (a : Nat) (e : WalkEnd) : Claims.kept (.next (fail m' a e)) := by
    cases e with
    | fault code d => exact h.next (hm'.rowFault ..)
    | _ => exact h.next (.ite (h.1.rowEnd ..) hm')
  split
  · exact Claims.kept_next h
  · next k cr _ =>
    extract_lets sa da src d
    have hsrc : Claims.canonical src.1 := by
      show Claims.canonical (Prod.fst (if _ then _ else _))
      split
      · exact h.1
      · exact h.1.rowPlace ..
    split
    · exact hfail hsrc ..
    · extract_lets bs
      split
      · exact h.next (hsrc.refillLand ..)
      · have hd : Claims.canonical d.1 := hsrc.rowPlace ..
        have hruns := hd.scaleRuns core k row
        split
        · exact hfail hd ..
        · split
          · next heq =>
            rw [heq] at hruns
            exact hfail hruns ..
          · next heq =>
            rw [heq] at hruns
            exact h.next (Claims.canonical.arriveRow hruns ..)

theorem Claims.inv.copyRowFault (core entry row : Nat) (code : Byte) (detail : W32) (addr : W64) :
    Claims.kept (execCopyRowFault core entry row code detail addr s) := by
  unfold execCopyRowFault
  split
  · exact Claims.kept_next h
  · exact h.next (h.1.rowFault ..)

theorem Claims.inv.watermarkFire (core chan : Nat) : Claims.kept (execWatermarkFire core chan s) := h.next h.1

/-! ### Barriers, lingering streams and service replies -/

theorem Claims.inv.barrierArrival (core : Nat) (bar : BarRef) : Claims.kept (execBarrierArrival core bar s) := by
  unfold execBarrierArrival
  dsimp only
  split
  · exact Claims.kept_next h
  · exact h.next (h.1.changeBar ..)

theorem Claims.inv.barrierCompletion (core : Nat) (bar : BarRef) : Claims.kept (execBarrierCompletion core bar s) := by
  unfold execBarrierCompletion
  have hbar (b : Barrier) : Claims.inv { s with m := s.m.setBar b } := h.setMach (h.1.setBar b) _
  dsimp only
  split
  · exact Claims.kept_next h
  · split
    · split
      · exact Claims.kept_next ((hbar _).stopCore ..)
      · exact Claims.kept_next (hbar _)
    · exact h.next (.ite (Claims.canonical.refresh (h.1.setBar _) core) (h.1.setBar _))

theorem Claims.inv.lingerRelease (core : Nat) (st : Stream) : Claims.kept (execLingerRelease core st s) :=
  h.next (.ite (Claims.canonical.shed (h.1.modCore core _) core) (h.1.modCore core _))

theorem Claims.inv.serviceReply (core : Nat) (tag : BitVec 16) (code : Byte) : Claims.kept (execServiceReply core tag code s) := h.coreNext ..

end
end

section
/-! SUPPORT. Shared memories in canonical form: the hub's operations on guest addresses, the journal and tasks keep them. -/
open Sys2Proof Sys2Proof.Machine

/-- Of what an access gives, the machine, where there is one, has its shared memories in canonical form. -/
structure Claims.reached {ε α : Type} (r : Except ε (Mach × α)) : Prop where
  canonical : ∀ x, r = .ok x → Claims.canonical x.1

theorem Claims.reached_ok {ε α : Type} {m : Mach} (h : Claims.canonical m) (a : α) : Claims.reached (ε := ε) (.ok (m, a)) :=
  ⟨fun _ heq => Except.ok.inj heq ▸ h⟩

theorem Claims.reached_error {ε α : Type} (e : ε) : Claims.reached (α := α) (.error e) := ⟨fun _ heq => nomatch heq⟩

section
variable {m : Mach} (h : Claims.canonical m)
include h

/-! ### Functions, queues and tasks -/

theorem Claims.canonical.modFn (f : Nat) (g : Fn → Fn) : Claims.canonical (m.modFn f g) := h
theorem Claims.canonical.modQueue (f q : Nat) (g : Queue → Queue) : Claims.canonical (m.modQueue f q g) := h
theorem Claims.canonical.modTask (seq : Nat) (g : Task → Task) : Claims.canonical (m.modTask seq g) := h
theorem Claims.canonical.modMgmt (f : Mgmt → Mgmt) : Claims.canonical (m.modMgmt f) := h
theorem Claims.canonical.modModule (f : Module → Module) : Claims.canonical (m.modModule f) := h
theorem Claims.canonical.setG (n : BitVec 4) (v : W64) : Claims.canonical (m.setG n v) := h
theorem Claims.canonical.modPacket (g : Packet → Packet) : Claims.canonical (m.modPacket g) := h

/-! ### Guest physical addresses and signals -/

/-- A write through stage 2 sets D in device memory (R308). -/
theorem Claims.canonical.gpa (f a : Nat) (k : Access) : Claims.reached (m.gpa f a k) := by
  unfold Mach.gpa
  split
  · exact Claims.reached_error _
  · split
    · exact Claims.reached_ok (.ite (h.devAtomic _) h) _
    · exact Claims.reached_error _

theorem Claims.canonical.gpaSpan (f a n : Nat) (k : Access) : Claims.reached (m.gpaSpan f a n k) := by
  refine foldl_inv (P := Claims.reached) (fun r p hr => ?_) _ (Claims.reached_ok h _)
  cases r with
  | error e => exact Claims.reached_error e
  | ok x =>
    have hgpa := (hr.canonical x rfl).gpa f p.1 k
    dsimp only
    split
    · exact Claims.reached_error _
    · next heq => exact Claims.reached_ok (hgpa.canonical _ heq) _

theorem Claims.canonical.gpaWrite {f a : Nat} {bs : List Byte} {m' : Mach} (hok : m.gpaWrite f a bs = .ok m') : Claims.canonical m' := by
  unfold Mach.gpaWrite at hok
  have hspan := h.gpaSpan f a bs.length .write
  split at hok
  · nomatch hok
  · next heq =>
    obtain rfl := Except.ok.inj hok
    exact foldl_inv (P := fun r : Mach × List Byte => Claims.canonical r.1) (fun _ _ hb => hb.devWrite _) _ (hspan.canonical _ heq)

theorem Claims.canonical.gpaAtomic (f a : Nat) (g : Nat → Nat) : Claims.reached (m.gpaAtomic f a g) := by
  unfold Mach.gpaAtomic
  have hgpa := h.gpa f a .atomic
  split
  · exact Claims.reached_error _
  · next heq => exact Claims.reached_ok ((hgpa.canonical _ heq).devAtomic _) _

theorem Claims.canonical.walkHalyard (pa : Nat) : Claims.canonical (m.walkHalyard pa) :=
  foldl_inv (P := Claims.canonical) (fun _ _ hb => hb.modQueue ..) _ h

theorem Claims.canonical.signal (f a : Nat) (g : Nat → Nat) : Claims.reached (m.signal f a g) := by
  unfold Mach.signal
  have hatomic := h.gpaAtomic f a g
  split
  · exact Claims.reached_error _
  · next heq =>
    have hm := hatomic.canonical _ heq
    split
    · exact Claims.reached_ok (hm.walkHalyard _) _
    · exact Claims.reached_ok hm _

/-! ### The journal -/

theorem Claims.canonical.cmdDone (f seq : Nat) (st : Byte) : Claims.canonical (m.cmdDone f seq st) := by
  refine foldl_inv (P := Claims.canonical) (fun b y hb => ?_) _ (h.modFn f _)
  split
  · exact .ite (hb.modQueue ..) hb
  · exact hb

theorem Claims.canonical.written (f : Nat) (e : JEntry) : Claims.canonical (m.written f e) := by
  unfold Mach.written
  extract_lets place ends gone hub edged done
  have hplace : Claims.canonical place := .ite (h.modFn f _) h
  have hdone : Claims.canonical done := .ite (Claims.canonical.cmdDone (m := edged) hplace ..) hplace
  exact .ite (hdone.modQueue ..) hdone

theorem Claims.canonical.tryEntry {f : Nat} {e : JEntry} {m' : Mach} (hsome : m.tryEntry f e = some m') : Claims.canonical m' := by
  unfold Mach.tryEntry at hsome
  dsimp only at hsome
  split at hsome
  · next heq =>
    obtain rfl := Option.some.inj hsome
    exact Claims.canonical.written ((h.gpaWrite heq).modFn ..) ..
  · nomatch hsome

theorem Claims.canonical.pullJournal (f : Nat) : Claims.canonical (m.pullJournal f) := by
  unfold Mach.pullJournal
  dsimp only
  split
  · exact h.askPull ..
  · exact h

theorem Claims.canonical.journal (f : Nat) (e : JEntry) : Claims.canonical (m.journal f e) := by
  have hseq : Claims.canonical (if e.kind = 1 then (m, e) else (m.takeSeq.1, { e with seq := m.takeSeq.2 })).1 := by split <;> exact h
  unfold Mach.journal
  split
  next m1 e1 heq =>
    have h1 : Claims.canonical m1 := by
      rw [heq] at hseq
      exact hseq
    dsimp only
    split
    · exact h1
    · split
      · next hentry => exact h1.tryEntry hentry
      · exact h1.pullJournal f

theorem Claims.canonical.journalRoom (f : Nat) (e : JEntry) : Claims.canonical (m.journalRoom f e) :=
  .ite (h.journal ..) (.ite (h.journal ..) (h.modFn ..))

theorem Claims.canonical.drainRoom (f : Nat) : Claims.canonical (m.drainRoom f) :=
  foldl_inv (P := Claims.canonical) (fun _ _ hb => hb.journalRoom ..) _ (h.modFn ..)

theorem Claims.canonical.accept (f q : Nat) (info : W64) : Claims.canonical (m.accept f q info).1 := by
  unfold Mach.accept Mach.takeSeq
  refine Claims.canonical.journal ?_ ..
  exact h

theorem Claims.canonical.refuse (f q : Nat) (info : W64) (st : Byte) : Claims.canonical (m.refuse f q info st).1 := by
  unfold Mach.refuse Mach.takeSeq
  refine Claims.canonical.journal ?_ ..
  exact h

theorem Claims.canonical.complete (f q seq : Nat) (st : Byte) : Claims.canonical (m.complete f q seq st) := h.journal ..

theorem Claims.canonical.askPages (f : Nat) (ps : List (Option Nat)) : Claims.canonical (m.askPages f ps) := by
  refine foldl_inv (P := Claims.canonical) (fun b p hb => ?_) _ h
  split
  · exact hb.askPull ..
  · exact hb

/-! ### Tasks bound, restored and ended -/

theorem Claims.canonical.addTask (t : Task) : Claims.canonical (m.addTask t) := h

theorem Claims.canonical.occupy (core : Nat) (c : Core) : Claims.canonical (m.occupy core c) :=
  Claims.canonical.segsOff (m := { Mach.setCore _ _ _ with active := _ }) h _

theorem Claims.canonical.bindTask (t : Task) (p : Part) (ch : BindChoice) (im : Option Image) : Claims.canonical (m.bindTask t p ch im) :=
  foldl_inv (P := Claims.canonical) (fun _ _ hb => foldl_inv (P := Claims.canonical) (fun _ _ hb' => hb'.occupy ..) _ hb) _ h

theorem Claims.canonical.lingerCore (cm : List (Nat × Nat)) (core : Nat) : Claims.canonical (m.lingerCore cm core) :=
  Claims.canonical.segsOff (m := Mach.modCore _ _ _) h core

theorem Claims.canonical.lingerTask (t : Task) : Claims.canonical (m.lingerTask t) :=
  foldl_inv (P := Claims.canonical) (fun _ _ hb => hb.lingerCore ..) _ h

theorem Claims.canonical.makeRoom (cs : List Nat) : Claims.canonical (m.makeRoom cs) :=
  foldl_inv (P := Claims.canonical) (fun _ _ hb => hb.lingerTask _) _ h

theorem Claims.canonical.startRestore (t : Task) (p : Part) (ch : BindChoice) : Claims.canonical (m.startRestore t p ch) := by
  refine foldl_inv (P := Claims.canonical) (fun b x hb => ?_) _ h
  dsimp only
  split
  · exact hb
  · exact Claims.canonical.planWakes (hb.occupy ..) ..

theorem Claims.canonical.finishRestore (t : Task) : Claims.canonical (m.finishRestore t) := by
  unfold Mach.finishRestore
  extract_lets cm last m1 m2
  have h1 : Claims.canonical m1 := by
    refine foldl_inv (P := Claims.canonical) (fun b x hb => ?_) _ h
    dsimp only
    split
    · exact hb
    · split
      · exact hb
      · exact .ite hb hb
  have h2 : Claims.canonical m2 := foldl_inv (P := Claims.canonical)
    (fun _ _ hb => Claims.canonical.setDom (Claims.canonical.setFmtReg (hb.setPadMem ..) ..) ..) _ h1
  exact h2

theorem Claims.canonical.vacate (core : Nat) : Claims.canonical (m.vacate core) := by
  have hoff : Claims.canonical ((m.barExit core).segsOff core) := (h.barExit core).segsOff core
  exact .ite (hoff.shed core) hoff

theorem Claims.canonical.unbind (t : Task) : Claims.canonical (m.unbind t) :=
  foldl_inv (P := Claims.canonical) (fun _ _ hb => hb.vacate _) _ h

theorem Claims.canonical.signalEnd {t : Task} {m' : Mach} (hok : m.signalEnd t = .ok m') : Claims.canonical m' := by
  unfold Mach.signalEnd at hok
  have hsignal := h.signal t.fn t.csig (· + 1)
  split at hok
  · exact Except.ok.inj hok ▸ h
  · split at hok
    · next heq => exact Except.ok.inj hok ▸ hsignal.canonical _ heq
    · nomatch hok
    · exact Except.ok.inj hok ▸ h

theorem Claims.canonical.reissueOver (t : Task) (st : Byte) : Claims.canonical (m.reissueOver t st) := by
  unfold Mach.reissueOver
  split
  · exact h.journal ..
  · exact h

theorem Claims.canonical.killTask (task : Nat) (st : Byte) : Claims.canonical (m.killTask task st) := by
  unfold Mach.killTask
  split
  · exact h
  · exact Claims.canonical.modTask (foldl_inv (P := Claims.canonical) (fun _ _ hb => hb.modCore ..) _ h) ..

theorem Claims.canonical.killCommand (f q seq task : Nat) : Claims.canonical (m.killCommand f q seq task) := by
  unfold Mach.killCommand
  split
  · exact h
  · split
    · exact h.complete ..
    · exact .ite h (h.killTask ..)

theorem Claims.canonical.saveTask (t : Task) : Claims.canonical (m.saveTask t) := h.unbind t

theorem Claims.canonical.dropEntries (f gpa pages : Nat) : Claims.canonical (m.dropEntries f gpa pages) :=
  foldl_inv (P := Claims.canonical) (fun _ _ hb => hb.modCore ..) _ h

theorem Claims.canonical.startInv (f q seq gpa pages : Nat) : Claims.canonical (m.startInv f q seq gpa pages) := h.dropEntries ..

end

/-! ### The scheduler's events -/

section
variable {s : State} (h : Claims.inv s)
include h

theorem Claims.inv.journalRetry : Claims.kept (execJournalRetry s) := by
  refine h.next (m := Mach.modFn _ _ _) ?_
  refine foldl_inv (P := fun r : Mach × Bool => Claims.canonical r.1) (fun r e hr => ?_) _ h.1
  split
  · split
    · next hentry => exact Claims.canonical.modFn (hr.tryEntry hentry) ..
    · exact hr.pullJournal _
  · exact hr

theorem Claims.inv.taskBind (task : Nat) (choice : BindChoice) : Claims.kept (execTaskBind task choice s) := by
  unfold execTaskBind
  have hroom : Claims.canonical (s.m.makeRoom choice.blocks.flatten) := h.1.makeRoom _
  dsimp only
  split
  · exact Claims.kept_next h
  · split
    · exact Claims.kept_next h
    · refine .ite (Claims.kept_next h) (.ite (h.next (h.1.askPages ..)) (.ite (h.next (hroom.startRestore ..)) (.ite (h.next (hroom.bindTask ..)) ?_)))
      split
      · exact h.next (hroom.bindTask ..)
      · exact h.next (h.1.askPages ..)

theorem Claims.inv.taskComplete : Claims.kept (execTaskComplete s) := by
  unfold execTaskComplete
  split
  · exact Claims.kept_next h
  · next t _ =>
    split
    · exact Claims.kept_next h
    · extract_lets st m1
      have h1 : Claims.canonical m1 := foldl_inv (P := Claims.canonical) (fun _ c hb => hb.boundary c 8) _ h.1
      split
      · exact h.next (h.1.askPull ..)
      · next hend =>
        have hdone : Claims.canonical _ := (h1.unbind t).signalEnd hend
        refine h.next ?_
        refine foldl_inv (P := Claims.canonical) (fun _ _ hb => hb.complete ..) _ ?_
        exact Claims.canonical.complete (Claims.canonical.reissueOver (hdone.modTask ..) ..) ..

theorem Claims.inv.sliceExpiry : Claims.kept (execSliceExpiry s) := by
  unfold execSliceExpiry
  dsimp only
  split
  · exact Claims.kept_next h
  · split
    · exact Claims.kept_next h
    · exact .ite (Claims.kept_next h) (h.next h.1)

theorem Claims.inv.preemptGraph : Claims.kept (execPreemptGraph s) := by
  unfold execPreemptGraph
  split
  · exact Claims.kept_next h
  · exact .ite (Claims.kept_next h) (h.next (Claims.canonical.modTask (h.1.unbind _) ..))

theorem Claims.inv.preemptTimeout : Claims.kept (execPreemptTimeout s) := by
  unfold execPreemptTimeout
  split
  · exact Claims.kept_next h
  · exact .ite (Claims.kept_next h) (h.next h.1)

theorem Claims.inv.preemptFull : Claims.kept (execPreemptFull s) := by
  unfold execPreemptFull
  dsimp only
  split
  · exact Claims.kept_next h
  · exact .ite (h.next (foldl_inv (P := Claims.canonical) (fun _ _ hb => hb.modCore ..) _ h.1)) (.ite (h.next (h.1.saveTask _)) (Claims.kept_next h))

theorem Claims.inv.watchdogLimit : Claims.kept (execWatchdogLimit s) := by
  unfold execWatchdogLimit
  split
  · exact Claims.kept_next h
  · exact h.next (.ite (h.1.killTask ..) h.1)

theorem Claims.inv.invS2Complete (seq : Nat) : Claims.kept (execInvS2Complete seq s) := by
  unfold execInvS2Complete
  split
  · exact Claims.kept_next h
  · refine .ite (Claims.kept_next h) (h.next ?_)
    refine Claims.canonical.complete ?_ ..
    exact h.1.dropEntries ..

end
end

section
/-! SUPPORT. Shared memories in canonical form: queue code keeps the invariant. -/
open Sys2Proof Sys2Proof.Machine

/-- An end of a step of queue code whose machine has its shared memories in canonical form. -/
def Claims.queueKept : QOut → Prop
  | .go m _ => Claims.canonical m
  | .stop m _ _ => Claims.canonical m
  | .park m _ _ => Claims.canonical m
  | .wait m => Claims.canonical m

theorem Claims.queueKept_ite {c : Prop} [Decidable c] {a b : QOut} (ha : Claims.queueKept a) (hb : Claims.queueKept b) :
    Claims.queueKept (if c then a else b) := by
  split <;> assumption

section
variable {m : Mach} (h : Claims.canonical m)
include h

/-! ### Loads, ends and writes of queues -/

theorem Claims.canonical.qWrite {f a : Nat} {space : BitVec 4} {bs : List Byte} {m' : Mach} (hok : m.qWrite f space a bs = .ok m') :
    Claims.canonical m' := by
  unfold Mach.qWrite at hok
  split at hok
  · exact Except.ok.inj hok ▸ h.setHost (Memory.wf_writeBlock h.2.1 a bs)
  · exact h.gpaWrite hok

theorem Claims.canonical.loadQueue (f q : Nat) : Claims.canonical (m.loadQueue f q) := by
  unfold Mach.loadQueue
  extract_lets x set waits
  have hset (y : Queue) : Claims.canonical (set y) := h
  have hwaits (g : Nat) : Claims.canonical (waits g) := h.askPull f g
  split
  · exact hwaits _
  · exact hset _
  · refine .ite (hset _) ?_
    split
    · exact hwaits _
    · exact hset _
    · refine .ite (hset _) ?_
      extract_lets wins
      split
      · exact hwaits _
      · exact hset _
      · extract_lets code
        split
        · exact hset _
        · exact hwaits _
        · exact hset _

theorem Claims.canonical.reloadQueues (f : Nat) : Claims.canonical (m.reloadQueues f) :=
  foldl_inv (P := Claims.canonical) (fun _ _ hb => .ite (hb.loadQueue ..) hb) _ h

theorem Claims.canonical.packetEntry (f q : Nat) (p : Packet) (st : Byte) : Claims.canonical (m.packetEntry f q p st) := h.journalRoom ..

theorem Claims.canonical.endPacket (f q : Nat) (st : Byte) (fault : Bool) : Claims.canonical (m.endPacket f q st fault) := by
  unfold Mach.endPacket
  extract_lets x
  split
  · exact h
  · extract_lets again y m1 m2 m3
    have h2 : Claims.canonical m2 := .ite (Claims.canonical.loadQueue (m := m1) h ..) h
    have h3 : Claims.canonical m3 := h2.packetEntry ..
    exact .ite h2 (.ite (h3.modQueue ..) h3)

theorem Claims.canonical.walkOut (e : WalkEnd) : Claims.queueKept (walkOut m e) := by
  cases e with
  | fault code d => exact h
  | pull g => exact h.askPull ..
  | leaf => exact h

theorem Claims.canonical.rangeOut : Claims.queueKept (rangeOut m) := h

theorem Claims.canonical.retryLaunch (f q : Nat) : Claims.canonical (m.retryLaunch f q) := by
  unfold Mach.retryLaunch
  extract_lets x
  split
  · exact .ite (h.modQueue ..) h
  · exact h

theorem Claims.canonical.txOp (f : Nat) (sigs : List Nat) (o : TxOp) : Claims.reached (m.txOp f sigs o) := by
  unfold Mach.txOp
  split
  · exact Claims.reached_ok (h.setHost (Memory.wf_writeBlock h.2.1 _ _)) _
  · next a _ =>
    split
    · cases hwrite : m.gpaWrite f a (leBytes o.bytes o.val.toNat) with
      | error e => exact Claims.reached_error e
      | ok m' => exact Claims.reached_ok (h.gpaWrite hwrite) _
    · have hgpa := h.gpa f a .atomic
      split
      · exact Claims.reached_error _
      · next m' pa heq =>
        have hatomic := (hgpa.canonical _ heq).gpaAtomic f a (fun old => if o.kind = 1 then o.val.toNat else old + o.val.toNat)
        split
        · exact Claims.reached_error _
        · next heq' => exact Claims.reached_ok (.ite (Claims.canonical.setG (hatomic.canonical _ heq') ..) (hatomic.canonical _ heq')) _
  · exact Claims.reached_ok h _

theorem Claims.canonical.refuseStep (q : QWord) (info : W64) (st : Byte) : Claims.queueKept (refuseStep m q info st) :=
  Claims.canonical.setG (h.refuse ..) ..

theorem Claims.canonical.acceptStep (q : QWord) (info : W64) {act : Mach → Nat → Mach} (hact : ∀ m', Claims.canonical m' → ∀ n, Claims.canonical (act m' n)) :
    Claims.queueKept (acceptStep m q info act) :=
  Claims.canonical.setG (hact _ (h.accept ..) _) ..

end

section
variable {s : State} (h : Claims.inv s)
include h

/-! ### Doorbells and packets -/

theorem Claims.inv.queueEnable (fn queue : Nat) : Claims.kept (execQueueEnable fn queue s) :=
  .ite (Claims.kept_next h) (h.next (.ite h.1 (Claims.canonical.loadQueue (h.1.modQueue ..) ..)))

theorem Claims.inv.queueDisable (fn queue : Nat) : Claims.kept (execQueueDisable fn queue s) := by
  refine .ite (Claims.kept_next h) ?_
  split
  · exact h.next h.1
  · exact h.next (Claims.canonical.packetEntry (h.1.modQueue ..) ..)
  · exact h.next h.1

theorem Claims.inv.qnotifyWrite (fn queue : Nat) (value : W32) : Claims.kept (execQnotifyWrite fn queue value s) :=
  .ite (Claims.kept_next h) (.ite (h.next h.1) (.ite (Claims.kept_next h) (h.next h.1)))

theorem Claims.inv.packetStart : Claims.kept (execPacketStart s) := by
  refine .ite (Claims.kept_next h) ?_
  split
  · exact h.next h.1
  · exact h.next (Claims.canonical.endPacket (h.1.modQueue ..) ..)
  · refine h.next (Claims.canonical.modQueue ?_ ..)
    split
    · exact h.1.askPull ..
    · exact h.1

theorem Claims.inv.fBudget : Claims.kept (execFBudget s) := by
  unfold execFBudget
  dsimp only
  split
  · exact .ite (h.next (h.1.endPacket ..)) (Claims.kept_next h)
  · exact Claims.kept_next h

theorem Claims.inv.queueResume : Claims.kept (execQueueResume s) := .ite (Claims.kept_next h) (h.next h.1)

/-! ### Steps of queue code -/

theorem Claims.inv.runQueue {body : Mach → Queue → Packet → QOut} (hbody : ∀ x p, Claims.queueKept (body s.m x p)) : Claims.kept (runQueue body s) := by
  unfold Sys2Proof.Machine.runQueue
  extract_lets m f q x stepped
  split
  · exact Claims.kept_next h
  · next p _ =>
    have hout := hbody x p
    split <;> rename_i heq <;> rw [heq] at hout
    · exact h.next (Claims.canonical.modQueue hout ..)
    · exact h.next (Claims.canonical.endPacket (Claims.canonical.modQueue hout ..) ..)
    · exact h.next (Claims.canonical.modQueue hout ..)
    · exact h.next (Claims.canonical.modQueue hout ..)
    · exact h.next (Claims.canonical.modQueue hout ..)

theorem Claims.inv.aluStep (q : QWord) (f : W64 → W64 → W64) : Claims.kept (aluStep q f s) := h.runQueue fun _ _ => h.1.setG ..

theorem Claims.inv.launchStep (window : Bool) {body : Mach → Queue → QOut} (hbody : ∀ x, Claims.queueKept (body s.m x)) :
    Claims.kept (launchStep window body s) :=
  h.runQueue fun x _ => Claims.queueKept_ite h.1 (hbody x)

theorem Claims.inv.qcNop (q : QWord) : Claims.kept (execQcNop q s) := h.runQueue fun _ _ => h.1
theorem Claims.inv.qcAdd (q : QWord) : Claims.kept (execQcAdd q s) := h.aluStep q _
theorem Claims.inv.qcSub (q : QWord) : Claims.kept (execQcSub q s) := h.aluStep q _
theorem Claims.inv.qcAnd (q : QWord) : Claims.kept (execQcAnd q s) := h.aluStep q _
theorem Claims.inv.qcOr (q : QWord) : Claims.kept (execQcOr q s) := h.aluStep q _
theorem Claims.inv.qcShl (q : QWord) : Claims.kept (execQcShl q s) := h.aluStep q _
theorem Claims.inv.qcCmp (q : QWord) : Claims.kept (execQcCmp q s) := h.aluStep q _

theorem Claims.inv.qcLd (q : QWord) : Claims.kept (execQcLd q s) := by
  refine h.runQueue fun x _ => ?_
  split
  · exact h.1.rangeOut
  · split
    · exact h.1.setG ..
    · exact h.1.walkOut _

theorem Claims.inv.qcSt (q : QWord) : Claims.kept (execQcSt q s) := by
  refine h.runQueue fun x p => ?_
  split
  · exact h.1.rangeOut
  · refine Claims.queueKept_ite (h.1.modPacket _) ?_
    split
    · next hok => exact h.1.qWrite hok
    · exact h.1.walkOut _

theorem Claims.inv.qBrf (q : QWord) : Claims.kept (execQBrf q s) := h.runQueue fun _ _ => h.1
theorem Claims.inv.qLoop (q : QWord) : Claims.kept (execQLoop q s) := h.runQueue fun _ _ => h.1.modPacket _

theorem Claims.inv.qSigwait (q : QWord) : Claims.kept (execQSigwait q s) := by
  refine h.runQueue fun x _ => ?_
  split
  · exact h.1.rangeOut
  · next a _ =>
    have hgpa := h.1.gpa s.m.curQ.1 a .read
    split
    · exact h.1.walkOut _
    · next heq => exact Claims.queueKept_ite (hgpa.canonical _ heq) (hgpa.canonical _ heq)

theorem Claims.inv.qSigset (q : QWord) : Claims.kept (execQSigset q s) := by
  refine h.runQueue fun x p => ?_
  split
  · exact h.1.rangeOut
  · next a _ =>
    have hsignal := h.1.signal s.m.curQ.1 a (fun _ => (x.opB q).toNat)
    refine Claims.queueKept_ite (h.1.modPacket _) ?_
    split
    · next heq => exact hsignal.canonical _ heq
    · exact h.1.walkOut _

theorem Claims.inv.qSigadd (q : QWord) : Claims.kept (execQSigadd q s) := by
  refine h.runQueue fun x p => ?_
  split
  · exact h.1.rangeOut
  · next a _ =>
    have hsignal := h.1.signal s.m.curQ.1 a (· + (x.opB q).toNat)
    refine Claims.queueKept_ite (h.1.modPacket _) ?_
    split
    · next heq => exact Claims.canonical.setG (hsignal.canonical _ heq) ..
    · exact h.1.walkOut _

theorem Claims.inv.qTxb (q : QWord) : Claims.kept (execQTxb q s) := h.runQueue fun _ _ => h.1.modPacket _

theorem Claims.inv.qTxe (q : QWord) : Claims.kept (execQTxe q s) := by
  refine h.runQueue fun x p => ?_
  extract_lets r
  have hr : Claims.reached r := by
    refine foldl_inv (P := Claims.reached) (fun a o ha => ?_) _ (Claims.reached_ok h.1 _)
    cases a with
    | error e => exact Claims.reached_error e
    | ok x => exact (ha.canonical x rfl).txOp ..
  clear_value r
  cases r with
  | error e => exact h.1.walkOut _
  | ok x => exact Claims.canonical.modPacket (foldl_inv (P := Claims.canonical) (fun _ _ hb => hb.walkHalyard _) _ (hr.canonical x rfl)) _

theorem Claims.inv.qLaunch (q : QWord) : Claims.kept (execQLaunch q s) := by
  refine h.launchStep true fun x => ?_
  dsimp only
  split
  · exact h.1.askPull ..
  · exact h.1.refuseStep ..
  · exact h.1.acceptStep _ _ fun _ hm _ => hm

theorem Claims.inv.qLaunchRi (q : QWord) : Claims.kept (execQLaunchRi q s) := by
  refine h.launchStep false fun x => ?_
  split
  · exact Claims.queueKept_ite (h.1.refuseStep ..) (h.1.acceptStep _ _ fun _ hm _ => hm)
  · exact h.1.refuseStep ..

theorem Claims.inv.qLaunchKill (q : QWord) : Claims.kept (execQLaunchKill q s) := by
  refine h.launchStep false fun x => ?_
  split
  · exact h.1.acceptStep _ _ fun _ hm _ => hm.killCommand ..
  · exact h.1.refuseStep ..

theorem Claims.inv.qLaunchInv (q : QWord) : Claims.kept (execQLaunchInv q s) :=
  h.launchStep false fun _ => Claims.queueKept_ite (h.1.refuseStep ..) (h.1.acceptStep _ _ fun _ hm _ => hm.startInv ..)

theorem Claims.inv.qPost (q : QWord) : Claims.kept (execQPost q s) := by
  refine h.runQueue fun x _ => ?_
  extract_lets f w slots wr
  split
  · exact h.1.walkOut _
  · refine Claims.queueKept_ite (h.1.setG ..) ?_
    split
    · exact h.1.walkOut _
    · next hok =>
      split
      · exact h.1.walkOut _
      · next hok' => exact Claims.canonical.setG (Claims.canonical.modQueue ((h.1.qWrite hok).qWrite hok') ..) ..

theorem Claims.inv.qIrq (q : QWord) : Claims.kept (execQIrq q s) := h.runQueue fun _ _ => Claims.queueKept_ite h.1.rangeOut h.1

theorem Claims.inv.qRearm (q : QWord) : Claims.kept (execQRearm q s) := h.runQueue fun _ _ => h.1.modPacket _

theorem Claims.inv.qWaittask (q : QWord) : Claims.kept (execQWaittask q s) := by
  refine h.runQueue fun x _ => ?_
  dsimp only
  split <;> exact h.1

theorem Claims.inv.qEnd (q : QWord) : Claims.kept (execQEnd q s) := h.runQueue fun _ _ => h.1

end
end

section
/-! SUPPORT. Shared memories in canonical form: the management core, resets, power and links keep the invariant. -/
open Sys2Proof Sys2Proof.Machine

section
variable {m : Mach} (h : Claims.canonical m)
include h

/-! ### The mailbox, layouts and resets -/

theorem Claims.canonical.raiseVec (f v : Nat) : Claims.canonical (m.raiseVec f v) := .ite h h
theorem Claims.canonical.mbEnd (status : Nat) : Claims.canonical (m.mbEnd status) := Claims.canonical.raiseVec (h.modMgmt _) ..
theorem Claims.canonical.mbNext : Claims.canonical m.mbNext := h.modMgmt _

theorem Claims.canonical.layoutEntries (fs : List Nat) (gen phase : Nat) : Claims.canonical (m.layoutEntries fs gen phase) :=
  foldl_inv (P := Claims.canonical) (fun _ _ hb => hb.journalRoom ..) _ h

theorem Claims.canonical.layoutPrepare (r : List Byte) : Claims.canonical (m.layoutPrepare r) := Claims.canonical.layoutEntries (h.modMgmt _) ..
theorem Claims.canonical.layoutFlip : Claims.canonical m.layoutFlip := h.modMgmt _
theorem Claims.canonical.endUnbindable : Claims.canonical m.endUnbindable := h

theorem Claims.canonical.layoutCommit (r : BitVec 4096) : Claims.canonical (m.layoutCommit r) :=
  Claims.canonical.layoutEntries (Claims.canonical.endUnbindable (h.modMgmt _)) ..

theorem Claims.canonical.layoutSettle : Claims.canonical m.layoutSettle := by
  unfold Mach.layoutSettle
  split
  · exact h
  · exact .ite (h.layoutCommit _) (Claims.canonical.layoutEntries (h.modMgmt _) ..)

theorem Claims.canonical.mgmtRestart : Claims.canonical m.mgmtRestart := .ite h (h.layoutSettle.mbEnd _)

theorem Claims.canonical.pause (f : Nat) : Claims.canonical (m.pause f) :=
  foldl_inv (P := Claims.canonical) (fun _ _ hb => hb.modTask ..) _ (h.modFn ..)

theorem Claims.canonical.ownPull (f : Nat) : Claims.canonical (m.ownPull f) := by
  unfold Mach.ownPull
  extract_lets x
  split
  · extract_lets next asked
    refine .ite h ?_
    split
    · exact Claims.canonical.sendFlits (m := asked) h ..
    · exact h
  · exact h.modFn ..

theorem Claims.canonical.abandon (f q : Nat) : Claims.canonical (m.abandon f q) :=
  .ite h (foldl_inv (P := Claims.canonical) (fun _ _ hb => hb.packetEntry ..) _ h)

theorem Claims.canonical.resetBegin (f : Nat) (quiet : Bool) : Claims.canonical (m.resetBegin f quiet) := by
  unfold Mach.resetBegin
  extract_lets begun qs left off
  have hleft : Claims.canonical left := foldl_inv (P := Claims.canonical) (fun _ _ hb => hb.abandon ..) _ (h.modFn ..)
  exact foldl_inv (P := Claims.canonical) (fun _ _ hb => hb.killTask ..) _ (hleft.modFn ..)

theorem Claims.canonical.mailReset (quiet : Bool) : Claims.canonical (m.mailReset quiet) := h.layoutSettle.modMgmt _

theorem Claims.canonical.resetEnd (f : Nat) : Claims.canonical (m.resetEnd f) := by
  unfold Mach.resetEnd
  extract_lets x cleared mailed
  have hmailed : Claims.canonical mailed := .ite (Claims.canonical.mailReset (m := cleared) h _) h
  exact .ite hmailed (hmailed.journalRoom ..)

theorem Claims.canonical.losePulls (f : Nat) : Claims.canonical (m.losePulls f) := by
  unfold Mach.losePulls
  split
  · exact h
  · extract_lets killed stopped lost room cut listed bs told
    have hkilled : Claims.canonical killed := foldl_inv (P := Claims.canonical) (fun _ _ hb => hb.killTask ..) _ h
    have hstopped : Claims.canonical stopped :=
      foldl_inv (P := Claims.canonical) (fun _ _ hb => .ite hb (Claims.canonical.modQueue (hb.endPacket ..) ..)) _ hkilled
    have htold : Claims.canonical told := .ite hstopped (hstopped.devWrite _)
    exact Claims.canonical.raiseVec (htold.modFn ..) ..

/-! ### Registers -/

theorem Claims.canonical.setPcap (v : W32) : Claims.canonical (m.setPcap v) := .ite h h

theorem Claims.canonical.mbWrite (v : W32) : Claims.canonical (m.mbWrite v) := by
  unfold Mach.mbWrite
  extract_lets written started
  have hstarted : Claims.canonical started := h
  exact .ite h (.ite h (.ite hstarted (hstarted.mbEnd 1)))

theorem Claims.canonical.writeReg0 (offset : Nat) (v : W64) : Claims.canonical (m.writeReg0 offset v) := by
  unfold Mach.writeReg0
  split
  · exact h.mbWrite _
  · exact .ite h h
  · exact h
  · exact h.setPcap _
  · exact h
  · exact h

theorem Claims.canonical.writeJournalReg (f offset : Nat) (v : W64) : Claims.canonical (m.writeJournalReg f offset v) := by
  unfold Mach.writeJournalReg
  split
  · exact .ite h h
  · exact .ite h h
  · exact h
  · exact h

/-! ### Power and links -/

/-- A module whose state is lost: device memory is empty, the host's and the peers' stay. -/
theorem Claims.canonical.cold (f : Module → Module) : Claims.canonical (m.cold f) := ⟨Memory.wf_nil, h.2⟩

theorem Claims.canonical.powerStep (st : PowerStep) : Claims.canonical (m.powerStep st) := by
  unfold Mach.powerStep
  extract_lets stage rail
  have hstage (n : Nat) : Claims.canonical (stage n) := h.modModule _
  cases st with
  | bus up => exact h.modModule _
  | rail k up => exact h.modModule _
  | release => exact hstage 1
  | firmware => exact .ite (h.modModule _) ((hstage 2).modMgmt _)
  | hbm => exact .ite h (hstage 3)
  | ports => exact .ite h (foldl_inv (P := Claims.canonical) (fun _ _ hb => hb.modModule _) _ (hstage 4))
  | ready => exact h.modModule _
  | fail w => exact .ite h (h.modModule _)

theorem Claims.canonical.off (cause : PowerCause) : Claims.canonical (m.off cause) := by
  unfold Mach.off
  refine Claims.canonical.cold ?_ _
  exact h

theorem Claims.canonical.powerSteps (now : Nat) : Claims.canonical (m.powerSteps now) :=
  foldl_inv (P := Claims.canonical) (fun _ _ hb => hb.powerStep _) _ h

theorem Claims.canonical.powerDue (now : Nat) : Claims.canonical (m.powerDue now) := .ite ((h.powerSteps now).off _) (h.powerSteps now)

theorem Claims.canonical.latchRail (rail : Nat) : Claims.canonical (m.latchRail rail) := h.modModule _

theorem Claims.canonical.resend (link : Nat) : Claims.canonical (m.resend link) :=
  foldl_inv (P := Claims.canonical) (fun _ _ hb => hb.sendFlits ..) _ (h.modModule _)

theorem Claims.canonical.dropLink (link : Nat) : Claims.canonical (m.dropLink link) := by
  unfold Mach.dropLink
  extract_lets sent faulted
  have hsent : Claims.canonical sent := Claims.canonical.resend (h.modModule _) link
  have hfaulted : Claims.canonical faulted :=
    foldl_inv (P := Claims.canonical) (fun _ _ hb => foldl_inv (P := Claims.canonical) (fun _ _ hb' => hb'.rowFault ..) _ hb) _ hsent
  refine foldl_inv (P := Claims.canonical) (fun b f hb => ?_) _ hfaulted
  split
  · exact hb
  · split
    · exact .ite hb (hb.losePulls f)
    · exact hb

theorem Claims.canonical.peerWrite {f : Nat} {bs : List (Nat × Byte)} {m' : Mach} (hsome : m.peerWrite f bs = some m') : Claims.canonical m' := by
  unfold Mach.peerWrite at hsome
  extract_lets r at hsome
  have hr : ∀ x, r = some x → Claims.canonical x.1 := by
    refine foldl_inv (P := fun r : Option (Mach × List (Nat × Byte)) => ∀ x, r = some x → Claims.canonical x.1) (fun r b hr x hx => ?_) _ fun x hx => ?_
    · obtain ⟨⟨m1, l⟩, h1, hx⟩ := Option.bind_eq_some_iff.mp hx
      have hgpa := (hr _ h1).gpa f b.1 .write
      dsimp only at hx
      split at hx
      · next heq => exact Option.some.inj hx ▸ hgpa.canonical _ heq
      · nomatch hx
    · exact Option.some.inj hx ▸ h
  obtain ⟨x, hx, rfl⟩ := Option.map_eq_some_iff.mp hsome
  exact (hr x hx).devWrite _

theorem Claims.canonical.peerTake (link : Nat) (flit : Flit) : Claims.canonical (m.peerTake link flit) := by
  unfold Mach.peerTake
  extract_lets back
  refine .ite h ?_
  split
  · exact h.sendFlits ..
  · next heq =>
    obtain ⟨f, -, hf⟩ := Option.bind_eq_some_iff.mp heq
    obtain ⟨m1, hwrite, hread⟩ := Option.bind_eq_some_iff.mp hf
    obtain ⟨l, -, hl⟩ := Option.map_eq_some_iff.mp hread
    obtain ⟨rfl, -⟩ := Prod.mk.inj hl
    exact Claims.canonical.sendFlits ((h.peerWrite hwrite).sendFlits ..) ..

end

section
variable {s : State} (h : Claims.inv s)
include h

/-! ### Mailbox commands -/

theorem Claims.inv.mbCommand {code : Nat} {fields : List (Nat × Nat)} {ok : Mach → List Byte → Bool} {run : Mach → List Byte → Except Nat Mach}
    (hrun : ∀ a m', run s.m a = .ok m' → Claims.canonical m') : Claims.kept (mbCommand code fields ok run s) := by
  refine .ite (Claims.kept_next h) (.ite (h.next (h.1.mbEnd _)) ?_)
  split
  · next hok => exact h.next (Claims.canonical.mbEnd (hrun _ _ hok) _)
  · exact h.next (h.1.mbEnd _)

theorem Claims.inv.mbLayout : Claims.kept (execMbLayout s) := by
  refine .ite (Claims.kept_next h) ?_
  split
  · exact .ite (h.next ((h.1.layoutCommit _).mbEnd _)) (h.next h.1.layoutFlip.mbNext)
  · exact .ite (h.next (h.1.mbEnd _)) (.ite (h.next (h.1.mbEnd _)) (h.next (h.1.layoutPrepare _).mbNext))

theorem Claims.inv.mbSave : Claims.kept (execMbSave s) := by
  refine .ite (Claims.kept_next h) (.ite (h.next (h.1.mbEnd _)) (.ite (h.next (h.1.pause _).mbNext) (.ite (h.next (Claims.canonical.mbEnd (h.1.modFn ..) _)) ?_)))
  refine h.next (Claims.canonical.mbEnd (Claims.canonical.modMgmt (Claims.canonical.devWrite ?_ _) _) _)
  exact h.1

theorem Claims.inv.mbRestore : Claims.kept (execMbRestore s) := by
  refine h.mbCommand fun a m' hok => ?_
  dsimp only at hok
  split at hok
  · nomatch hok
  · next im _ =>
    split at hok
    · nomatch hok
    · split at hok
      · nomatch hok
      · split at hok
        · nomatch hok
        · obtain rfl := Except.ok.inj hok
          refine Claims.canonical.ownPull (Claims.canonical.modMgmt ?_ _) _
          exact h.1

theorem Claims.inv.mbRelease : Claims.kept (execMbRelease s) := by
  refine h.mbCommand fun a m' hok => ?_
  split at hok
  · obtain rfl := Except.ok.inj hok
    exact h.1.modMgmt _
  · nomatch hok

theorem Claims.inv.mbS2root : Claims.kept (execMbS2root s) := by
  refine h.mbCommand fun a m' hok => ?_
  split at hok
  · nomatch hok
  · obtain rfl := Except.ok.inj hok
    exact h.1.modFn ..

theorem Claims.inv.mbCodekey : Claims.kept (execMbCodekey s) := by
  refine h.mbCommand fun a m' hok => ?_
  obtain rfl := Except.ok.inj hok
  exact h.1.modFn ..

theorem Claims.inv.mbHostwin : Claims.kept (execMbHostwin s) := by
  refine h.mbCommand fun a m' hok => ?_
  obtain rfl := Except.ok.inj hok
  exact h.1.modFn ..

theorem Claims.inv.mbPeer : Claims.kept (execMbPeer s) := by
  refine h.mbCommand fun a m' hok => ?_
  obtain rfl := Except.ok.inj hok
  exact h.1.modFn ..

theorem Claims.inv.mbPolicy : Claims.kept (execMbPolicy s) := by
  refine h.mbCommand fun a m' hok => ?_
  obtain rfl := Except.ok.inj hok
  exact h.1.modMgmt _

theorem Claims.inv.mbFwact : Claims.kept (execMbFwact s) := by
  refine h.mbCommand fun a m' hok => ?_
  dsimp only at hok
  split at hok
  · nomatch hok
  · split at hok
    · nomatch hok
    · split at hok
      · nomatch hok
      · obtain rfl := Except.ok.inj hok
        exact h.1.mgmtRestart.modMgmt _

theorem Claims.inv.mbAttest : Claims.kept (execMbAttest s) := by
  refine h.mbCommand fun a m' hok => ?_
  obtain rfl := Except.ok.inj hok
  refine Claims.canonical.devWrite ?_ _
  exact h.1

/-! ### Resets, page pulls and registers -/

theorem Claims.inv.mgmtWatchdogReset : Claims.kept (execMgmtWatchdogReset s) := h.next h.1.mgmtRestart

theorem Claims.inv.functionLevelReset (fn : Nat) : Claims.kept (execFunctionLevelReset fn s) :=
  .ite (h.next (h.1.resetEnd fn)) (.ite (Claims.kept_next h) (h.next (h.1.resetBegin fn false)))

theorem Claims.inv.pagePull (fn gpa : Nat) : Claims.kept (execPagePull fn gpa s) := by
  unfold execPagePull
  extract_lets m
  split
  · split
    · exact Claims.kept_next h
    · refine .ite (Claims.kept_next h) (h.next (Claims.canonical.ownPull (Claims.canonical.reloadQueues (Claims.canonical.modFn ?_ ..) _) _))
      exact Claims.canonical.devAtomic (h.1.devWrite _) _
  · exact Claims.kept_next h

theorem Claims.inv.fPulllost (fn : Nat) : Claims.kept (execFPulllost fn s) := h.next (h.1.losePulls fn)

theorem Claims.inv.registerWrite (fn offset : Nat) (value : W64) : Claims.kept (execRegisterWrite fn offset value s) := by
  refine .ite (Claims.kept_next h) (.ite (h.next (h.1.writeJournalReg ..)) (.ite (h.next (.ite (h.1.writeReg0 ..) h.1)) (.ite (Claims.kept_next h) ?_)))
  split
  · exact h.next h.1
  · exact .ite (h.queueEnable ..) (h.queueDisable ..)
  · exact h.qnotifyWrite ..
  · exact Claims.kept_next h

/-! ### Power, throttling and links -/

theorem Claims.inv.powerOn (hostUp : Bool) (boot : BootResult) : Claims.kept (execPowerOn hostUp boot s) := .ite (Claims.kept_next h) (h.next h.1)

theorem Claims.inv.powerOff (cause : PowerCause) : Claims.kept (execPowerOff cause s) := by
  refine h.next (Claims.canonical.off ?_ _)
  split
  · exact h.1
  · exact h.1

theorem Claims.inv.railFault (rail : Nat) : Claims.kept (execRailFault rail s) := .ite (Claims.kept_next h) (h.next ((h.1.latchRail rail).off _))
theorem Claims.inv.thermtripN : Claims.kept (execThermtripN s) := h.next (h.1.off _)
theorem Claims.inv.modResetN : Claims.kept (execModResetN s) := h.next (h.1.cold _)

theorem Claims.inv.perstN : Claims.kept (execPerstN s) :=
  h.next (foldl_inv (P := Claims.canonical) (fun _ _ hb => hb.resetBegin ..) _ h.1)

theorem Claims.inv.perstNRelease : Claims.kept (execPerstNRelease s) := .ite (h.next h.1) (h.next h.1)

theorem Claims.inv.throttleUpdate (temp power : BitVec 16) (held : Nat) (feldspar : List Nat) :
    Claims.kept (execThrottleUpdate temp power held feldspar s) := .ite (h.next (h.1.off _)) (h.next h.1)

theorem Claims.inv.thrctlWrite (group : Nat) (value : W32) : Claims.kept (execThrctlWrite group value s) := .ite (Claims.kept_next h) (h.next h.1)
theorem Claims.inv.pcapWrite (value : W32) : Claims.kept (execPcapWrite value s) := h.next (h.1.setPcap value)

theorem Claims.inv.flitReceive (link : Nat) (flit : Flit) : Claims.kept (execFlitReceive link flit s) := by
  unfold execFlitReceive
  extract_lets m set
  have hset (l : Link) : Claims.canonical (set l) := h.1.modModule _
  split
  · exact Claims.kept_next h
  · extract_lets acked
    exact .ite (Claims.kept_next h) (.ite (.ite (h.next ((hset _).dropLink link)) (h.next (hset _)))
      (.ite (Claims.kept_next h) (h.next (.ite ((hset _).peerTake link flit) (hset _)))))

theorem Claims.inv.linkDown (link : Nat) : Claims.kept (execLinkDown link s) := .ite (Claims.kept_next h) (h.next (h.1.dropLink link))
theorem Claims.inv.linkRetrain (link : Nat) : Claims.kept (execLinkRetrain link s) := h.next (h.1.modModule _)

theorem Claims.inv.uncorrectableError (task : Nat) : Claims.kept (execUncorrectableError task s) := by
  refine h.next ?_
  split
  · exact .ite (h.1.modModule _) (Claims.canonical.killTask (h.1.modModule _) ..)
  · exact h.1.modModule _

end
end

section
/-! SUPPORT. Shared memories in canonical form: tile instructions at P, D, Q and C keep the invariant. -/
open Sys2Proof Sys2Proof.Machine

/-- A child of a port whose run keeps the shared memories canonical. -/
structure Claims.kidKept (k : Kid) : Prop where
  run : ∀ cut x, Claims.canonical x.m → Claims.canonical (k.run cut x).1.m

/-- Whichever of two it is that has the machine. -/
theorem Claims.canonical_of_ite {α : Type} (f : α → Mach) {c : Prop} [Decidable c] {a b : α} (ha : Claims.canonical (f a)) (hb : Claims.canonical (f b)) :
    Claims.canonical (f (if c then a else b)) := by
  split <;> assumption

section
variable {m : Mach} (h : Claims.canonical m)
include h

/-! ### Draws, rows, staging and ports -/

theorem Claims.canonical.draw : Claims.canonical m.draw.1 := h

theorem Claims.canonical.writeRow (c : TCmd) (core : Nat) (o : TileOut) (row : Nat) : Claims.canonical (c.writeRow m core o row) := by
  unfold TCmd.writeRow
  extract_lets runs walked bytes
  have hwalked : Claims.canonical walked :=
    .ite h (foldl_inv (P := Claims.canonical) (fun _ _ hb => foldl_inv (P := Claims.canonical) (fun _ _ hb' => hb'.walkCore ..) _ hb) _ h)
  exact hwalked.modCore core _

theorem Claims.canonical.writeRows (c : TCmd) (core : Nat) (o : TileOut) (rows : List Nat) : Claims.canonical (c.writeRows m core o rows) :=
  foldl_inv (P := Claims.canonical) (fun _ _ hb => hb.writeRow ..) _ h

theorem Claims.canonical.stage (c : TCmd) (p : Pad) (s : Share) : Claims.canonical (c.stage m p s) := by
  refine foldl_inv (P := Claims.canonical) (fun b x hb => ?_) _ h
  refine foldl_inv (P := Claims.canonical) (fun _ _ hb' => hb'.setFmtReg ..) _ ?_
  exact .ite (foldl_inv (P := Claims.canonical) (fun _ _ hb' => hb'.padWrite ..) _ hb) hb

theorem Claims.canonical.landSlice (c : TCmd) (p : Pad) (s : Share) (o : TileOut) : Claims.canonical (c.landSlice m p s o) := by
  unfold TCmd.landSlice
  extract_lets b
  split
  · exact h
  · exact .ite h (foldl_inv (P := Claims.canonical) (fun _ _ hb => .ite hb (hb.padWrite ..)) _ h)

theorem Claims.canonical.tileWakes (ns : List (Nat × List DomRef)) : Claims.canonical (m.tileWakes ns).1 := by
  refine foldl_inv (P := fun a : Mach × List DomRef × Nat => Claims.canonical a.1) (fun a n ha => ?_) _ h
  exact Claims.canonical.planWakes (foldl_inv (P := Claims.canonical) (fun _ _ hb => hb.setDom ..) _ ha) ..

theorem Claims.canonical.setSub (task : Nat) (x : SubPort) : Claims.canonical (m.setSub task x) := h
theorem Claims.canonical.enterSub (task : Nat) (quad : Bool) (num : Nat) (ds : List (Nat × BitVec 128)) : Claims.canonical (m.enterSub task quad num ds).1 := h
theorem Claims.canonical.holdSub (task : Nat) (quad : Bool) (num : Nat) (w : W64 × W64 × W64) : Claims.canonical (m.holdSub task quad num w) := h

theorem Claims.canonical.enterCore (c : TCmd) (core : Nat) (s : Share) : Claims.canonical (c.enterCore m core s) := Claims.canonical.modCore (h.stage ..) ..

/-- A core's write-back, whole or up to a fault, keeps the shared memories canonical. -/
theorem Claims.canonical.writeBack (c : TCmd) (core : Nat) (o : TileOut) : Claims.canonical (c.writeBack m core o).1 := by
  unfold TCmd.writeBack
  extract_lets rows
  split
  · exact h.writeRows ..
  · exact h
  · split
    · exact h
    · exact foldl_inv (P := Claims.canonical) (fun _ _ hb => .ite (Claims.canonical.writeRow hb.draw ..) hb.draw) _ (h.writeRows ..)

end

/-! ### Children of a port -/

section
variable {x : TRun} (h : Claims.canonical x.m)
include h

/-- A child instruction's turn (R350): what runs of it keeps the shared memories canonical. -/
theorem Claims.kidKept.turn {k : Kid} (hk : Claims.kidKept k) (abort cut : Bool) (kept : Option (Nat × Nat)) (live : List Kid) (r : Option (Nat × TRec))
    (lost : List Nat) : Claims.canonical (k.turn abort cut kept live (x, r, lost)).1.m := by
  unfold Kid.turn
  dsimp -zeta only
  split
  · exact h
  · extract_lets d other again y e z late
    have hy : Claims.canonical y.m := Claims.canonical_of_ite (TRun.m) h h
    split
    · exact hy
    · split
      · exact hk.run _ _ hy
      · split
        · exact hk.run _ _ hy
        · exact hk.run _ _ hy

theorem Claims.canonical.runKids (abort cut : Bool) (skip : Nat) {kids : List Kid} (hkids : ∀ k ∈ kids, Claims.kidKept k) :
    Claims.canonical (runKids abort cut skip kids x).1.m := by
  unfold Sys2Proof.Machine.runKids
  extract_lets live bad
  clear_value bad
  split
  next y kept heq =>
  have hy : Claims.canonical y.m := by
    split at heq <;> obtain ⟨rfl, -⟩ := Prod.mk.inj heq <;> exact h
  refine List.foldlRecOn (motive := fun a : TRun × Option (Nat × TRec) × List Nat => Claims.canonical a.1.m) live _ hy fun a ha k hk => ?_
  exact Claims.kidKept.turn ha (hkids k (List.mem_filter.mp hk).1) ..

end

/-! ### Lane clusters, cores, quads and dies -/

theorem Claims.kidKept.lane (c : TCmd) (core die ksh lc : Nat) (s : Share) : Claims.kidKept (c.lane core die ksh lc s) := by
  refine ⟨fun cut x h => ?_⟩
  unfold TCmd.lane
  extract_lets bad
  dsimp -zeta only
  split
  · exact h
  · split
    · exact h
    · exact h.modCore core _

theorem Claims.kidKept.lanes (c : TCmd) (core die ksh : Nat) (s : Share) : ∀ k ∈ c.lanes core die ksh s, Claims.kidKept k := by
  intro k hk
  obtain ⟨p, -, rfl⟩ := List.mem_map.mp hk
  exact .lane ..

section
variable {x : TRun} (h : Claims.canonical x.m)
include h

theorem Claims.canonical.coreWork (c : TCmd) (core die ksh skip : Nat) (s : Share) : Claims.canonical (c.coreWork core die ksh skip s x).1.m := by
  unfold TCmd.coreWork
  split
  · extract_lets r
    have hr : Claims.canonical r.1.m := Claims.canonical.runKids (x := { x with gath := [] }) h _ _ _ (.lanes c core die ksh s)
    split
    · exact hr
    · exact hr
  · split
    · exact h
    · exact h.modCore core _

theorem Claims.canonical.cutShort (c : TCmd) (core skip : Nat) (s : Share) : Claims.canonical (c.cutShort core skip s x).m := by
  unfold TCmd.cutShort
  split
  · exact Claims.canonical.writeRows (.ite (Claims.canonical.modCore (h.draw.landSlice ..) ..) h.draw) ..
  · exact h

theorem Claims.canonical.runLeaf (c : TCmd) (core die ksh skip : Nat) (s : Share) (cut : Bool) :
    Claims.canonical (c.runLeaf core die ksh skip s cut x).1.m := by
  unfold TCmd.runLeaf
  extract_lets seq y ended report
  have hy : Claims.canonical y.m := h.enterCore c core s
  have hended {z : TRun} (hz : Claims.canonical z.m) : Claims.canonical (ended z).m := hz.boundary core 1
  have hreport {z : TRun} (hz : Claims.canonical z.m) (r : TRec) : Claims.canonical (report z r).1.m := hended (hz.modCore core _)
  have hwork := hy.coreWork c core die ksh skip s
  split
  · exact hended (hy.cutShort ..)
  · split
    · exact hreport hy _
    · exact hy
    · split <;> rename_i heq <;> rw [heq] at hwork
      · exact hreport hwork _
      · exact hended hwork
      · extract_lets z
        have hz : Claims.canonical z.m := hwork.landSlice ..
        split
        · exact hended hz
        · have hback {o : TileOut} {m' : Mach} {r : Option Trap × List (Option Nat)} (heq : c.writeBack z.m core o = (m', r)) : Claims.canonical m' := by
            have hm := hz.writeBack c core o
            rw [heq] at hm
            exact hm
          split
          · next heq' => exact hreport (hback heq') _
          · next heq' => exact hended (hback heq')

/-- What a quad or die has gathered lies in its slice, and its boundary is made. -/
theorem Claims.canonical.leave (c : TCmd) (p : Pad) (die ksh n : Nat) (s : Share) (cores : List Nat) (scope : BitVec 4) :
    Claims.canonical (c.leave p die ksh n s cores scope x).m := Claims.canonical.boundaryAt (h.landSlice ..) ..

end

theorem Claims.kidKept.cores (c : TCmd) (q die ksh : Nat) (path : Option Resume) (s : Share) : ∀ k ∈ c.cores q die ksh path s, Claims.kidKept k := by
  intro k hk
  obtain ⟨p, -, hk⟩ := List.mem_flatMap.mp hk
  obtain ⟨x, -, rfl⟩ := List.mem_map.mp hk
  exact ⟨fun cut x h => h.runLeaf ..⟩

theorem Claims.kidKept.quad (c : TCmd) (q idx die ksh ord : Nat) (path : Option Resume) (s : Share) : Claims.kidKept (c.quad q idx die ksh ord path s) := by
  refine ⟨fun cut x h => ?_⟩
  unfold TCmd.quad
  extract_lets kids skip
  dsimp -zeta only
  extract_lets e r y
  have he : Claims.canonical e.1 := Claims.canonical.enterSub (h.stage ..) ..
  have hr : Claims.canonical r.1.m := Claims.canonical.runKids (x := { x with m := e.1 }) he _ _ _ (.cores c q die ksh path s)
  have hy : Claims.canonical y.m := hr.leave ..
  split
  · exact hy
  · exact hy.holdSub ..

theorem Claims.kidKept.die (c : TCmd) (p : Part) (d idx ksh ord : Nat) (path : Option Resume) (s : Share) :
    Claims.kidKept (c.die p d idx ksh ord path s) := by
  refine ⟨fun cut x h => ?_⟩
  unfold TCmd.die
  extract_lets kids skip stage
  have hkids : ∀ k ∈ kids, Claims.kidKept k := by
    intro k hk
    obtain ⟨q, -, hk⟩ := List.mem_flatMap.mp hk
    obtain ⟨y, -, rfl⟩ := List.mem_map.mp hk
    exact .quad ..
  dsimp -zeta only
  clear_value stage
  split
  · exact h
  · exact h
  · extract_lets e r y
    have he : Claims.canonical e.1 := Claims.canonical.enterSub (h.stage ..) ..
    have hr : Claims.canonical r.1.m := Claims.canonical.runKids (x := { x with m := e.1 }) he _ _ _ hkids
    have hy : Claims.canonical y.m := hr.leave ..
    split
    · exact hy
    · exact hy.holdSub ..

theorem Claims.kidKept.dies (c : TCmd) (p : Part) (path : Option Resume) : ∀ k ∈ c.dies p path, Claims.kidKept k := by
  intro k hk
  obtain ⟨x, -, hk⟩ := List.mem_flatMap.mp hk
  obtain ⟨y, -, rfl⟩ := List.mem_map.mp hk
  exact .die ..

/-! ### An instruction at P -/

section
variable {m : Mach} (h : Claims.canonical m)
include h

theorem Claims.canonical.gather {c : TCmd} (hc : Claims.canonical c.m) (rec0 : Option TRec) (mask : Nat) (gs : List (Nat × Nat × Nat × TileOut)) :
    Claims.canonical (c.gather m rec0 mask gs).m := by
  unfold TCmd.gather
  extract_lets pages r
  have hr : Claims.canonical r.1 := by
    refine foldl_inv (P := fun a : Mach × Option TRec × Nat => Claims.canonical a.1) (fun a g ha => ?_) _ h
    dsimp only
    split
    · exact ha
    · split
      · exact ha.writeRows ..
      · exact ha.writeRows ..
  split
  · exact hc
  · split
    · exact hr
    · exact hr
    · exact hr.draw

omit h in
theorem Claims.canonical.tileRun {c : TCmd} (hc : Claims.canonical c.m) (p : Part) (path : Option Resume) : Claims.canonical (c.run p path).m := by
  unfold TCmd.run
  extract_lets skip r rec0 bad origin old keep m1 combined done dies
  have hr : Claims.canonical r.1.m := Claims.canonical.runKids (x := { m := c.m, gath := [], pull := [] }) hc _ _ _ (.dies c p path)
  have h1 : Claims.canonical m1 := hr
  refine Claims.canonical_of_ite TEnd.m hc (Claims.canonical_of_ite TEnd.m h1 (Claims.canonical_of_ite TEnd.m (Claims.canonical_of_ite TEnd.m hr ?_)
    (Claims.canonical_of_ite TEnd.m (Claims.canonical_of_ite TEnd.m hr ?_) ?_)))
  · exact Claims.canonical.gather (hr.modCore ..) hc ..
  · split
    · exact hr.gather hc ..
    · exact hr
  · exact h1.gather hc ..

end
end

section
/-! SUPPORT. Shared memories in canonical form: tile instructions at a core and at P, and every instruction and event, keep the invariant. -/
open Sys2Proof Sys2Proof.Machine

section
variable {m : Mach} (h : Claims.canonical m)
include h

theorem Claims.canonical.takeTile (top : Nat) (t : Tile) : Claims.canonical (m.takeTile top t) := by
  unfold Mach.takeTile
  extract_lets core seq add p woken booked read written
  have hadd {m' : Mach} (hm' : Claims.canonical m') (retire : Nat) (woke : List Nat) (bad : List (Nat × Nat)) :
      Claims.canonical (add m' retire woke bad) := hm'.modMe _
  have hwoken : Claims.canonical woken := h.planWakes ..
  have hread : Claims.canonical read := foldl_inv (P := Claims.canonical) (fun _ _ hb => hb.bookSlot ..) _ (hwoken.modMe _)
  have hwritten : Claims.canonical written := foldl_inv (P := Claims.canonical) (fun _ _ hb => hb.bookSlot ..) _ hread
  exact .ite (hadd h ..) (hadd hwritten ..)

theorem Claims.canonical.endCommand (t : Task) (k : ChainCmdP) (r : Option (W64 × W64 × W64)) (detail : Nat) :
    Claims.canonical (m.endCommand t k r detail) := by
  unfold Mach.endCommand
  extract_lets failed st info e ended
  have hended : Claims.canonical ended := h.modTask ..
  split
  · exact hended.journal ..
  · exact .ite (hended.journalRoom ..) hended

theorem Claims.canonical.pkgAccept (t : Task) (k : ChainCmdP) : Claims.canonical (m.pkgAccept t k) := by
  unfold Mach.pkgAccept
  extract_lets w e taken
  have hw : Claims.canonical w.1 := by
    show Claims.canonical (Prod.fst (match m.part t.part, m.pkgCmd t k with | some p, some c => m.tileWakes (c.needs p) | _, _ => (m, [], 0)))
    split
    · exact h.tileWakes _
    · exact h
  exact foldl_inv (P := Claims.canonical) (fun _ _ hb => hb.modCore ..) _ (hw.modTask ..)

theorem Claims.canonical.retirePkg (t : Task) (k : ChainCmdP) (r : Option TRec) : Claims.canonical (m.retirePkg t k r) := by
  refine Claims.canonical.endCommand (foldl_inv (P := Claims.canonical) (fun _ _ hb => hb.modCore ..) _ ?_) ..
  exact Claims.canonical.modTask (Claims.canonical.tileSleeps (h.boundaryAll t 4) _) ..

theorem Claims.canonical.pkgRun {t : Task} {k : ChainCmdP} {e : TEnd} (hsome : m.pkgRun t k = some e) : Claims.canonical e.m := by
  unfold Mach.pkgRun at hsome
  split at hsome
  · next p c _ hcmd =>
    obtain ⟨vd, -, rfl⟩ := Option.map_eq_some_iff.mp hcmd
    obtain rfl := Option.some.inj hsome
    exact Claims.canonical.tileRun h ..
  · nomatch hsome

end

section
variable {s : State} (h : Claims.inv s)
include h

/-! ### Tile instructions -/

theorem Claims.inv.tilePkg (top : Nat) (x : Tile) (task : Nat) : Claims.kept (tilePkg top x task s) := by
  unfold Sys2Proof.Machine.tilePkg
  extract_lets m next
  have hnext {m' : Mach} (hm' : Claims.canonical m') : Claims.kept (next m') := h.next (m := { m' with curP := none }) hm'
  split
  · exact hnext h.1
  · split
    · exact hnext h.1
    · split
      · exact hnext (h.1.pkgAccept ..)
      · exact hnext (h.1.endCommand ..)

/-- A tile lane is an S lane; the wakes that it started stand at a clash (R346). -/
theorem Claims.inv.tileLane (top : Nat) (t : Tile) : Claims.kept (tileLane top t s) := by
  unfold Sys2Proof.Machine.tileLane
  extract_lets busy base o m clash
  have ho : Claims.kept o := h.runS (act := fun m => .done (m.takeTile top t) 0) (h.1.takeTile ..)
  clear_value o
  cases o with
  | next s' =>
    have hs' := ho.inv s' rfl
    refine Claims.kept_next ?_
    split
    · exact hs'.setMach (Claims.canonical.planWakes hs'.1 ..) _
    · exact hs'
  | _ => exact ho

theorem Claims.inv.tileAt (top : Nat) (t : Tile) : Claims.kept (tileAt top t s) := by
  unfold Sys2Proof.Machine.tileAt
  split
  · exact h.tilePkg ..
  · exact h.tileLane ..

theorem Claims.inv.commandSubmit : Claims.kept (execCommandSubmit s) := by
  unfold execCommandSubmit
  extract_lets m
  split
  · exact Claims.kept_next h
  · refine .ite (Claims.kept_next h) ?_
    extract_lets p bad
    have hbad : Claims.kept bad := h.next (h.1.killTask ..)
    refine .ite (h.next (h.1.modTask ..)) ?_
    split
    · exact h.next (Claims.canonical.modTask (h.1.askPull ..) ..)
    · exact hbad
    · exact .ite hbad (.ite (h.next (h.1.modTask ..)) (.ite (h.next (h.1.modTask ..)) (.ite (h.next (h.1.endCommand ..)) (h.next (h.1.modTask ..)))))

theorem Claims.inv.tileRetire (port : PortRef) : Claims.kept (execTileRetire port s) := by
  unfold execTileRetire
  extract_lets m
  split
  · exact Claims.kept_next (.ofBase (h.1.tileRetireL _) (h.restorePoint _) _ _ s.undo)
  · split
    · exact Claims.kept_next h
    · split
      · refine .ite (Claims.kept_next h) (.ite (h.next (Claims.canonical.modTask (h.1.boundaryAll ..) ..)) ?_)
        split
        · exact h.next (h.1.retirePkg ..)
        · next hrun => exact .ite (h.next (h.1.askPages ..)) (.ite (Claims.kept_next h) (h.next (Claims.canonical.retirePkg (h.1.pkgRun hrun) ..)))
      · exact Claims.kept_next h

theorem Claims.inv.tileRecord (port : PortRef) : Claims.kept (execTileRecord port s) := by
  unfold execTileRecord
  extract_lets m
  split
  · exact Claims.kept_next (.ofBase (h.1.tileRecordL _) (h.restorePoint _) _ _ s.undo)
  · split
    · exact Claims.kept_next h
    · split
      · refine .ite (Claims.kept_next h) ?_
        split
        · next hrun =>
          refine .ite (h.next (h.1.askPages ..)) ?_
          split
          · exact h.next (Claims.canonical.retirePkg (h.1.pkgRun hrun) ..)
          · exact Claims.kept_next h
        · exact Claims.kept_next h
      · exact Claims.kept_next h

theorem Claims.inv.tNop (t : Tile) : Claims.kept (execTNop t s) := h.tileAt _ t
theorem Claims.inv.tMma (t : Tile) : Claims.kept (execTMma t s) := h.tileAt _ t
theorem Claims.inv.tMmas (t : Tile) : Claims.kept (execTMmas t s) := h.tileAt _ t
theorem Claims.inv.tEw (t : Tile) : Claims.kept (execTEw t s) := h.tileAt _ t
theorem Claims.inv.tAct (t : Tile) : Claims.kept (execTAct t s) := h.tileAt _ t
theorem Claims.inv.tRed (t : Tile) : Claims.kept (execTRed t s) := h.tileAt _ t
theorem Claims.inv.tCvt (t : Tile) : Claims.kept (execTCvt t s) := h.tileAt _ t
theorem Claims.inv.tScale (t : Tile) : Claims.kept (execTScale t s) := h.tileAt _ t
theorem Claims.inv.tMove (t : Tile) : Claims.kept (execTMove t s) := h.tileAt _ t
theorem Claims.inv.tFill (t : Tile) : Claims.kept (execTFill t s) := h.tileAt _ t
theorem Claims.inv.tTrans (t : Tile) : Claims.kept (execTTrans t s) := h.tileAt _ t
theorem Claims.inv.tGath (t : Tile) : Claims.kept (execTGath t s) := h.tileAt _ t
theorem Claims.inv.tHvenc (t : Tile) : Claims.kept (execTHvenc t s) := h.tileAt _ t
theorem Claims.inv.tHvnear (t : Tile) : Claims.kept (execTHvnear t s) := h.tileAt _ t
theorem Claims.inv.tBar (t : Tile) : Claims.kept (execTBar t s) := h.tileAt _ t
theorem Claims.inv.tFence (t : Tile) : Claims.kept (execTFence t s) := h.tileAt _ t

/-- Every instruction and every event keeps the shared memories in their canonical form. -/
theorem Claims.inv.exec (i : Instr) : Claims.kept (exec i s) := by
  cases i with
  | nop st l => exact h.nop st l
  | waitC st l => exact h.waitC st l
  | sAdd l => exact h.sAdd l
  | sSub l => exact h.sSub l
  | sMul l => exact h.sMul l
  | sMulh l => exact h.sMulh l
  | sDivq l => exact h.sDivq l
  | sAnd l => exact h.sAnd l
  | sOr l => exact h.sOr l
  | sXor l => exact h.sXor l
  | sShl l => exact h.sShl l
  | sShr l => exact h.sShr l
  | sSra l => exact h.sSra l
  | sMin l => exact h.sMin l
  | sMax l => exact h.sMax l
  | sMovi l => exact h.sMovi l
  | sMoviH l => exact h.sMoviH l
  | sSel l => exact h.sSel l
  | sCmp l => exact h.sCmp l
  | sPset l => exact h.sPset l
  | sRdwid l => exact h.sRdwid l
  | sLd l => exact h.sLd l
  | sSt l => exact h.sSt l
  | sLdg l => exact h.sLdg l
  | sStg l => exact h.sStg l
  | sAtom l => exact h.sAtom l
  | sQpush l => exact h.sQpush l
  | sSemw l => exact h.sSemw l
  | sSems l => exact h.sSems l
  | sPnwait l => exact h.sPnwait l
  | sFence l => exact h.sFence l
  | sPhase l => exact h.sPhase l
  | sRingset l => exact h.sRingset l
  | sBarInit l => exact h.sBarInit l
  | sBarInitt l => exact h.sBarInitt l
  | sBarJoin l => exact h.sBarJoin l
  | sBarLeave l => exact h.sBarLeave l
  | sBarArr l => exact h.sBarArr l
  | sBarWait l => exact h.sBarWait l
  | sTjoin l => exact h.sTjoin l
  | sBkfmtSet l => exact h.sBkfmtSet l
  | sBkfmtGet l => exact h.sBkfmtGet l
  | sWake l => exact h.sWake l
  | sSleep l => exact h.sSleep l
  | sPdq l => exact h.sPdq l
  | vaddF l => exact h.vaddF l
  | vsubF l => exact h.vsubF l
  | vmulF l => exact h.vmulF l
  | vfma l => exact h.vfma l
  | vminF l => exact h.vminF l
  | vmaxF l => exact h.vmaxF l
  | vabs l => exact h.vabs l
  | vaddS l => exact h.vaddS l
  | vsubS l => exact h.vsubS l
  | vmulS l => exact h.vmulS l
  | vminS l => exact h.vminS l
  | vmaxS l => exact h.vmaxS l
  | vaddZ l => exact h.vaddZ l
  | vsubZ l => exact h.vsubZ l
  | vmulZ l => exact h.vmulZ l
  | vminZ l => exact h.vminZ l
  | vmaxZ l => exact h.vmaxZ l
  | vand l => exact h.vand l
  | vor l => exact h.vor l
  | vxor l => exact h.vxor l
  | vnot l => exact h.vnot l
  | vshl l => exact h.vshl l
  | vshrZ l => exact h.vshrZ l
  | vshrS l => exact h.vshrS l
  | vcmpF l => exact h.vcmpF l
  | vcmpS l => exact h.vcmpS l
  | vcmpZ l => exact h.vcmpZ l
  | vsel l => exact h.vsel l
  | vcvt l => exact h.vcvt l
  | vpack l => exact h.vpack l
  | vunpk l => exact h.vunpk l
  | vrcp l => exact h.vrcp l
  | vrsq l => exact h.vrsq l
  | vexp2 l => exact h.vexp2 l
  | vlog2 l => exact h.vlog2 l
  | vmov l => exact h.vmov l
  | vmand l => exact h.vmand l
  | vmor l => exact h.vmor l
  | vmnot l => exact h.vmnot l
  | vrotr l => exact h.vrotr l
  | vrotc l => exact h.vrotc l
  | vbcr l => exact h.vbcr l
  | vbcc l => exact h.vbcc l
  | vredr l => exact h.vredr l
  | vredc l => exact h.vredc l
  | vscanr l => exact h.vscanr l
  | vscanc l => exact h.vscanc l
  | vld l => exact h.vld l
  | vst l => exact h.vst l
  | vldx l => exact h.vldx l
  | vstx l => exact h.vstx l
  | vins l => exact h.vins l
  | vext l => exact h.vext l
  | vsemw l => exact h.vsemw l
  | vsems l => exact h.vsems l
  | mma l => exact h.mma l
  | mmai l => exact h.mmai l
  | mmad l => exact h.mmad l
  | mmas l => exact h.mmas l
  | mmaj l => exact h.mmaj l
  | mmajs l => exact h.mmajs l
  | mzero l => exact h.mzero l
  | mdrain l => exact h.mdrain l
  | msba l => exact h.msba l
  | msbb l => exact h.msbb l
  | mldacc l => exact h.mldacc l
  | mstacc l => exact h.mstacc l
  | msemw l => exact h.msemw l
  | msems l => exact h.msems l
  | xcopy l ch => exact h.xcopy l ch
  | xgath l ch => exact h.xgath l ch
  | xscat l ch => exact h.xscat l ch
  | xred l ch => exact h.xred l ch
  | xmcast l ch => exact h.xmcast l ch
  | xfill l ch => exact h.xfill l ch
  | xopen l => exact h.xopen l
  | xclose l => exact h.xclose l
  | xwmset l => exact h.xwmset l
  | xbufRel l => exact h.xbufRel l
  | xbufQ l => exact h.xbufQ l
  | xsemw l => exact h.xsemw l
  | xsems l => exact h.xsems l
  | xfence l => exact h.xfence l
  | hbind l => exact h.hbind l
  | hperm l => exact h.hperm l
  | hbund l => exact h.hbund l
  | hthr l => exact h.hthr l
  | hdist l => exact h.hdist l
  | hnear l => exact h.hnear l
  | hnear2 l => exact h.hnear2 l
  | hmov l => exact h.hmov l
  | hclr l => exact h.hclr l
  | hnot l => exact h.hnot l
  | hld l => exact h.hld l
  | hst l => exact h.hst l
  | hgdset l => exact h.hgdset l
  | hgput l => exact h.hgput l
  | hgputInv l => exact h.hgputInv l
  | hsemw l => exact h.hsemw l
  | hsems l => exact h.hsems l
  | tNop t => exact h.tNop t
  | tMma t => exact h.tMma t
  | tMmas t => exact h.tMmas t
  | tEw t => exact h.tEw t
  | tAct t => exact h.tAct t
  | tRed t => exact h.tRed t
  | tCvt t => exact h.tCvt t
  | tScale t => exact h.tScale t
  | tMove t => exact h.tMove t
  | tFill t => exact h.tFill t
  | tTrans t => exact h.tTrans t
  | tGath t => exact h.tGath t
  | tHvenc t => exact h.tHvenc t
  | tHvnear t => exact h.tHvnear t
  | tBar t => exact h.tBar t
  | tFence t => exact h.tFence t
  | cblk rs1 rs2 => exact h.cblk rs1 rs2
  | cblkw => exact h.cblkw
  | cevt rd => exact h.cevt rd
  | cevtNb rd => exact h.cevtNb rd
  | csemSig rs1 rs2 => exact h.csemSig rs1 rs2
  | csemWait rs1 rs2 => exact h.csemWait rs1 rs2
  | csemTry rd rs1 rs2 => exact h.csemTry rd rs1 rs2
  | csemRd rd rs1 => exact h.csemRd rd rs1
  | csemSet rs1 rs2 => exact h.csemSet rs1 rs2
  | cphase scope => exact h.cphase scope
  | cfence scope => exact h.cfence scope
  | cframeRep rd => exact h.cframeRep rd
  | cframeEnd rs1 => exact h.cframeEnd rs1
  | cresume => exact h.cresume
  | cwid rd => exact h.cwid rd
  | ctis rd rs1 => exact h.ctis rd rs1
  | cpds rd rs1 => exact h.cpds rd rs1
  | rv64Instruction r => exact h.rv64Instruction r
  | nflagsWrite op rd src => exact h.nflagsWrite op rd src
  | dbgctlWrite op rd src => exact h.dbgctlWrite op rd src
  | ctimecmpWrite op rd src => exact h.ctimecmpWrite op rd src
  | cbankWrite n op rd src => exact h.cbankWrite n op rd src
  | timerInterrupt => exact h.timerInterrupt
  | coreTrapInterrupt => exact h.coreTrapInterrupt
  | eventInterrupt => exact h.eventInterrupt
  | blockStart => exact h.blockStart
  | lineValidate core index line tag => exact h.lineValidate core index line tag
  | walkComplete core walk => exact h.walkComplete core walk
  | frameComplete => exact h.frameComplete
  | resultLand => exact h.resultLand
  | ldgArrival core load => exact h.ldgArrival core load
  | stgAck core store => exact h.stgAck core store
  | atomReturn core load => exact h.atomReturn core load
  | domainOn dom => exact h.domainOn dom
  | deferredSleep dom => exact h.deferredSleep dom
  | arrayRetire => exact h.arrayRetire
  | chainIssue => exact h.chainIssue
  | jointStart quad => exact h.jointStart quad
  | ringRefill core ring => exact h.ringRefill core ring
  | copyComplete core entry => exact h.copyComplete core entry
  | openRowArrival core entry row => exact h.openRowArrival core entry row
  | copyRowFault core entry row code detail addr => exact h.copyRowFault core entry row code detail addr
  | watermarkFire core chan => exact h.watermarkFire core chan
  | searchPush => exact h.searchPush
  | barrierArrival core bar => exact h.barrierArrival core bar
  | barrierCompletion core bar => exact h.barrierCompletion core bar
  | lingerRelease core st => exact h.lingerRelease core st
  | tileRetire port => exact h.tileRetire port
  | tileRecord port => exact h.tileRecord port
  | serviceReply core tag code => exact h.serviceReply core tag code
  | qnotifyWrite fn queue value => exact h.qnotifyWrite fn queue value
  | queueEnable fn queue => exact h.queueEnable fn queue
  | queueDisable fn queue => exact h.queueDisable fn queue
  | registerWrite fn offset value => exact h.registerWrite fn offset value
  | packetStart => exact h.packetStart
  | queueResume => exact h.queueResume
  | fBudget => exact h.fBudget
  | qcNop q => exact h.qcNop q
  | qcLd q => exact h.qcLd q
  | qcSt q => exact h.qcSt q
  | qcAdd q => exact h.qcAdd q
  | qcSub q => exact h.qcSub q
  | qcAnd q => exact h.qcAnd q
  | qcOr q => exact h.qcOr q
  | qcShl q => exact h.qcShl q
  | qcCmp q => exact h.qcCmp q
  | qBrf q => exact h.qBrf q
  | qLoop q => exact h.qLoop q
  | qSigwait q => exact h.qSigwait q
  | qSigset q => exact h.qSigset q
  | qSigadd q => exact h.qSigadd q
  | qLaunch q => exact h.qLaunch q
  | qLaunchRi q => exact h.qLaunchRi q
  | qLaunchKill q => exact h.qLaunchKill q
  | qLaunchInv q => exact h.qLaunchInv q
  | qTxb q => exact h.qTxb q
  | qTxe q => exact h.qTxe q
  | qPost q => exact h.qPost q
  | qIrq q => exact h.qIrq q
  | qRearm q => exact h.qRearm q
  | qWaittask q => exact h.qWaittask q
  | qEnd q => exact h.qEnd q
  | taskBind task choice => exact h.taskBind task choice
  | taskComplete => exact h.taskComplete
  | commandSubmit => exact h.commandSubmit
  | journalRetry => exact h.journalRetry
  | sliceExpiry => exact h.sliceExpiry
  | preemptGraph => exact h.preemptGraph
  | preemptTimeout => exact h.preemptTimeout
  | preemptFull => exact h.preemptFull
  | watchdogLimit => exact h.watchdogLimit
  | invS2Complete seq => exact h.invS2Complete seq
  | pagePull fn gpa => exact h.pagePull fn gpa
  | fPulllost fn => exact h.fPulllost fn
  | mbLayout => exact h.mbLayout
  | mbSave => exact h.mbSave
  | mbRestore => exact h.mbRestore
  | mbRelease => exact h.mbRelease
  | mbS2root => exact h.mbS2root
  | mbCodekey => exact h.mbCodekey
  | mbHostwin => exact h.mbHostwin
  | mbPeer => exact h.mbPeer
  | mbPolicy => exact h.mbPolicy
  | mbFwact => exact h.mbFwact
  | mbAttest => exact h.mbAttest
  | mgmtWatchdogReset => exact h.mgmtWatchdogReset
  | functionLevelReset fn => exact h.functionLevelReset fn
  | perstN => exact h.perstN
  | modResetN => exact h.modResetN
  | powerOn hostUp boot => exact h.powerOn hostUp boot
  | powerOff cause => exact h.powerOff cause
  | railFault rail => exact h.railFault rail
  | thermtripN => exact h.thermtripN
  | throttleUpdate temp power held feldspar => exact h.throttleUpdate temp power held feldspar
  | thrctlWrite group value => exact h.thrctlWrite group value
  | pcapWrite value => exact h.pcapWrite value
  | flitReceive link flit => exact h.flitReceive link flit
  | linkDown link => exact h.linkDown link
  | uncorrectableError task => exact h.uncorrectableError task
  | linkRetrain link => exact h.linkRetrain link
  | perstNRelease => exact h.perstNRelease

end
end

section
/-! SUPPORT, PROOF. Every step keeps the shared memories in their canonical form: what is due, the end of a cycle, and the step. -/
open Sys2Proof Sys2Proof.Machine

/-! ### What is due -/

/-- What is due, at a machine whose shared memories are in canonical form. -/
def Claims.dueKept : Due → Prop
  | .run m _ => Claims.canonical m
  | .own s => Claims.inv s

/-- What may be due is due at a machine whose shared memories are in canonical form. -/
structure Claims.mayKept (o : Option Due) : Prop where
  due : ∀ d, o = some d → Claims.dueKept d

theorem Claims.mayKept.none : Claims.mayKept none := ⟨fun _ heq => nomatch heq⟩

theorem Claims.mayKept.some {d : Due} (h : Claims.dueKept d) : Claims.mayKept (some d) := ⟨fun _ heq => Option.some.inj heq ▸ h⟩

theorem Claims.mayKept.run {m : Mach} (h : Claims.canonical m) (i : Instr) : Claims.mayKept (Option.some (.run m i)) := .some h

theorem Claims.mayKept.ite {c : Prop} [Decidable c] {a b : Option Due} (ha : Claims.mayKept a) (hb : Claims.mayKept b) :
    Claims.mayKept (if c then a else b) := by
  split <;> assumption

theorem Claims.mayKept.or {a b : Option Due} (ha : Claims.mayKept a) (hb : Claims.mayKept b) : Claims.mayKept (a.or b) := by
  cases a with
  | none => exact hb
  | some d => exact ha

theorem Claims.mayKept.map {α : Type} (o : Option α) {f : α → Due} (hf : ∀ a, Claims.dueKept (f a)) : Claims.mayKept (o.map f) := by
  cases o with
  | none => exact .none
  | some a => exact .some (hf a)

theorem Claims.mayKept.findSome {α : Type} (l : List α) {f : α → Option Due} (hf : ∀ a, Claims.mayKept (f a)) : Claims.mayKept (l.findSome? f) := by
  refine ⟨fun d hd => ?_⟩
  obtain ⟨a, -, ha⟩ := List.exists_of_findSome?_eq_some hd
  exact (hf a).due d ha

section
variable {m : Mach} (h : Claims.canonical m)
include h

theorem Claims.mayKept.landDue : Claims.mayKept m.landDue := by
  unfold Mach.landDue
  extract_lets atoms next
  clear_value next
  split
  · exact .some h
  · exact .map _ fun _ => h

theorem Claims.mayKept.laneDue (c : Nat) (st : Stream) : Claims.mayKept (m.laneDue c st) := .ite (.map _ fun _ => h) .none

theorem Claims.mayKept.reissueDue (c : Nat) : Claims.mayKept (m.reissueDue c) := by
  unfold Mach.reissueDue
  split
  · split
    · exact .ite (.map _ fun _ => h) .none
    · exact .none
  · exact .none

theorem Claims.mayKept.chainDue (c : Nat) : Claims.mayKept (m.chainDue c) := .ite (.run (m := { m with cur := c }) h _) .none

theorem Claims.mayKept.hubDue : Claims.mayKept m.hubDue :=
  .or (.map _ fun _ => h) (.or (.findSome _ fun _ => .map _ fun _ => h) (.or (.findSome _ fun _ => .map _ fun _ => h) (.map _ fun _ => h)))

end

section
variable {s : State} (h : Claims.inv s)
include h

/-- The machine changed by itself to one whose shared memories are in canonical form. -/
theorem Claims.mayKept.own {m : Mach} (hm : Claims.canonical m) : Claims.mayKept (Option.some (.own { s with m := m })) := .some (h.setMach hm _)

theorem Claims.mayKept.stopDue (c : Nat) : Claims.mayKept (s.stopDue c) := by
  have hstop (f : Stop → Stop) (g : Core → Core) : Claims.mayKept (Option.some
      (.own { s.stopCore c Mach.boundary f with m := (s.stopCore c Mach.boundary f).m.modCore c g })) := by
    refine .some (Claims.inv.setMach (h.stopCore c f) ?_ _)
    exact (h.stopCore c f).1
  unfold State.stopDue
  extract_lets m x preempted later
  have hlater : Claims.mayKept later := by
    refine .ite (.run (m := { m with cur := c }) h.1 _) (.ite (.some (h.stopCore ..)) ?_)
    split
    · exact .ite (hstop ..) .none
    · exact .none
  clear_value later
  split
  · exact .ite (hstop ..) hlater
  · exact hlater

theorem Claims.mayKept.staleDue (c : Nat) : Claims.mayKept (s.staleDue c) := .ite .none (.map _ fun _ => h.stopCore ..)

theorem Claims.mayKept.streamsDue (c : Nat) : Claims.mayKept (s.streamsDue c) :=
  .or (.map _ fun _ => h.1) (.or (.reissueDue h.1 c) (.or (.laneDue h.1 c .s) (.or (.laneDue h.1 c .v) (.or (.laneDue h.1 c .m) (.or (.chainDue h.1 c)
    (.or (.laneDue h.1 c .x) (.or (.laneDue h.1 c .h) (.or (.staleDue h c) (.stopDue h c)))))))))

theorem Claims.mayKept.lanesDue : Claims.mayKept s.lanesDue := by
  refine .or ?_ (.findSome _ fun c => .streamsDue h c)
  split
  · exact .ite (.streamsDue h _) .none
  · exact .none

theorem Claims.mayKept.controlDue (c : Nat) : Claims.mayKept (s.controlDue c) := by
  refine .ite .none ?_
  split
  · exact .some h.1
  · exact .some h.1
  · exact .some h.1
  · split
    · exact .own h h.1
    · exact .ite .none (.some h.1)

theorem Claims.mayKept.queueDue (f q : Nat) : Claims.mayKept (s.queueDue f q) := by
  refine .ite (.some h.1) (.ite (.some h.1) ?_)
  split
  · refine .ite .none (.ite (.some h.1) ?_)
    split
    · split
      · exact .some h.1
      · exact .own h (h.1.modQueue ..)
    · exact .own h (h.1.modQueue ..)
  · exact .none

theorem Claims.mayKept.pkgDue (t : Task) : Claims.mayKept (s.pkgDue t) := by
  unfold State.pkgDue
  split
  · exact .none
  · split
    · exact .some h.1
    · exact .own h (h.1.modTask ..)

theorem Claims.mayKept.inboxDue : Claims.mayKept s.inboxDue := by
  refine .map _ fun x => ?_
  dsimp only
  split
  · exact h.1
  · exact h.setMach h.1 _

theorem Claims.mayKept.arrivalDue : Claims.mayKept s.arrivalDue :=
  .map _ fun x => h.setMach (Claims.canonical.arrive (m := { s.m with arrivals := s.m.arrivals.erase x }) h.1 x.2) _

theorem Claims.mayKept.chanDue : Claims.mayKept s.chanDue := .findSome _ fun _ => .map _ fun _ => h.setMach (h.1.modCore ..) _

theorem Claims.mayKept.boundaryDue : Claims.mayKept s.boundaryDue := .map _ fun _ => h.setMach (h.1.takeBound _) _

theorem Claims.mayKept.phaseDue (p : Nat) : Claims.mayKept (s.phaseDue p) := by
  unfold State.phaseDue
  extract_lets m cores
  have hcores (f : Nat → Option Instr) : Claims.mayKept (cores f) := .findSome _ fun _ => .map _ fun _ => h.1
  split
  · exact .map _ fun _ => h.1
  · exact .or (.boundaryDue h) (hcores _)
  · exact hcores _
  · exact .or (.chanDue h) (hcores _)
  · exact .map _ fun _ => h.1
  · exact .landDue h.1
  · exact .none
  · exact hcores _
  · exact hcores _
  · exact .none
  · exact .map _ fun _ => h.1
  · exact .lanesDue h
  · exact hcores _
  · exact hcores _
  · exact .findSome _ fun c => .controlDue h c
  · exact .findSome _ fun _ => .findSome _ fun _ => .queueDue h ..
  · exact .findSome _ fun t => .pkgDue h t
  · exact .hubDue h.1
  · exact .or (.inboxDue h) (.arrivalDue h)

theorem Claims.inv.due {p : Nat} {d : Due} (hdue : s.due = some (p, d)) : Claims.dueKept d := by
  obtain ⟨p', -, hp⟩ := List.exists_of_findSome?_eq_some hdue
  split at hp
  · nomatch hp
  · obtain ⟨d', hd, heq⟩ := Option.map_eq_some_iff.mp hp
    obtain ⟨-, rfl⟩ := Prod.mk.inj heq
    exact (Claims.mayKept.phaseDue h p').due _ hd

end

/-! ### The end of a cycle -/

section
variable {m : Mach} (h : Claims.canonical m)
include h

theorem Claims.canonical.tickCore (core : Nat) : Claims.canonical (m.tickCore core) := by
  unfold Mach.tickCore
  extract_lets next pruned left woken begun
  have hleft : Claims.canonical left := .ite (Claims.canonical.barExit (m := pruned) h core) h
  have hwoken : Claims.canonical woken := hleft.startWakes next core
  have hbegun : Claims.canonical begun := hwoken.modCore core _
  split
  · exact .ite (hbegun.boundary core 8) hbegun
  · exact hbegun

theorem Claims.canonical.tickHub : Claims.canonical m.tickHub := by
  unfold Mach.tickHub
  extract_lets drained retried restored
  have hdrained : Claims.canonical drained := foldl_inv (P := Claims.canonical) (fun _ _ hb => .ite hb (hb.drainRoom _)) _ h
  have hretried : Claims.canonical retried := foldl_inv (P := Claims.canonical)
    (fun _ _ hb => foldl_inv (P := Claims.canonical) (fun _ _ hb' => .ite (hb'.retryLaunch ..) hb') _ hb) _ hdrained
  have hrestored : Claims.canonical restored := foldl_inv (P := Claims.canonical) (fun _ _ hb => .ite (hb.finishRestore _) hb) _ hretried
  exact .ite hrestored (hrestored.powerDue _)

end

section
variable {s : State} (h : Claims.inv s)
include h

theorem Claims.inv.tick : Claims.inv (tick s) := by
  unfold Sys2Proof.Machine.tick
  extract_lets m reads copied opened sent slept ticked hub
  have hreads : Claims.canonical reads := foldl_inv (P := Claims.canonical) (fun _ _ hb => hb.lateReads _) _ h.1
  have hcopied : Claims.canonical copied := foldl_inv (P := Claims.canonical) (fun _ _ hb => hb.copyReads _) _ hreads
  have hopened : Claims.canonical opened := foldl_inv (P := Claims.canonical) (fun _ _ hb => hb.openPorts _) _ hcopied
  have hsent : Claims.canonical sent := foldl_inv (P := Claims.canonical) (fun _ _ hb => hb.copySends _) _ hopened
  have hslept : Claims.canonical slept := hsent.deferSleeps _
  have hticked : Claims.canonical ticked := foldl_inv (P := Claims.canonical) (fun _ _ hb => hb.tickCore _) _ hslept
  have hhub : Claims.canonical hub := hticked.tickHub
  clear_value hub
  exact .ofMach hhub []

/-! ### The step -/

theorem Claims.inv.step : Claims.kept (step s) := by
  unfold Sys2Proof.Machine.step
  split
  · exact Claims.kept_next h.tick
  · next p m i hdue =>
    have hm : Claims.canonical m := h.due hdue
    exact (h.setMach (m := { m with phase := p }) hm s.undo).exec i
  · next p s' hdue =>
    have hs' : Claims.inv s' := h.due hdue
    exact Claims.kept_next (hs'.setMach (m := { s'.m with phase := p }) hs'.1 _)

end

end

section
namespace Sys2Proof.Machine

/-- Settles O56: what every instruction, event and end of a cycle writes to a shared memory keeps its canonical form, at the machine and at the one that a
stop would return to. -/
theorem stepKeepsMemoriesCanonical : Obligations.StepKeepsMemoriesCanonical := by
  unfold Obligations.StepKeepsMemoriesCanonical
  intro s s' h hstep
  exact h.step.inv s' hstep

end Sys2Proof.Machine
end
